-- ==== Sys2Proof/Word.lean ====
section
/-! DEFINITION. The words of the part: octets, the numbers that name ports, slots and groups, and the fixed-size tables
its blocks keep. -/

namespace Sys2Proof

/-- One octet, as it stands on the trunk or on the control port (spec/12). -/
abbrev Byte := BitVec 8

/-- A line port, 0 to 63 (R1). -/
abbrev Port := Fin 64

/-- A bearer slot: the value `i` stands for slot number `i + 1`, so the slots are 1 to 20 (Table 5.1). -/
abbrev SlotId := Fin 20

/-- A scan group, 0 to 7 (R1). -/
abbrev GroupId := Fin 8

/-- A dialled digit, 0 to 9 (Table 2.2). -/
abbrev Digit := Fin 10

/-- A fixed number of like records, one for each index. -/
abbrev Table (n : Nat) (α : Type) := Vector α n

/-- The record at an index. -/
def Table.at {n : Nat} {α : Type} (t : Table n α) (i : Fin n) : α := t[i.val]

/-- The table with the record at one index replaced. -/
def Table.put {n : Nat} {α : Type} (t : Table n α) (i : Fin n) (a : α) : Table n α := t.set i.val a

/-- The same record at every index. -/
def Table.all (n : Nat) {α : Type} (a : α) : Table n α := Vector.replicate n a

/-- A number as one octet. -/
def byte (n : Nat) : Byte := BitVec.ofNat 8 n

/-- A number as two octets, high octet first (spec/12, opening paragraph). -/
def twoBytes (n : Nat) : List Byte := [byte (n / 256), byte n]

/-- The number that two octets spell, high octet first. -/
def ofTwoBytes (hi lo : Byte) : Nat := hi.toNat * 256 + lo.toNat

/-- The number of a slot, 1 to 20. -/
def slotNo (i : SlotId) : Nat := i.val + 1

/-- The slot with a given number, if there is one. -/
def slotOfNo (n : Nat) : Option SlotId := if h : 1 ≤ n ∧ n ≤ 20 then some ⟨n - 1, by omega⟩ else none

/-- The port with a given number, if there is one. -/
def portOfNo (n : Nat) : Option Port := if h : n < 64 then some ⟨n, h⟩ else none

/-- The group with a given number, if there is one. -/
def groupOfNo (n : Nat) : Option GroupId := if h : n < 8 then some ⟨n, h⟩ else none

/-- The ports in the order of their numbers. -/
def allPorts : List Port := List.finRange 64

/-- The slots in the order of their numbers. -/
def allSlots : List SlotId := List.finRange 20

/-- The groups in the order of their numbers. -/
def allGroups : List GroupId := List.finRange 8

end Sys2Proof
end

