-- ==== Sys2Proof/Config.lean ====
section
/-! DEFINITION. What is fixed in the part (spec/00 Table 0.5, spec/10 Table 10.2, spec/12), and the values the spec leaves
open, which are constants with no body. -/

namespace Sys2Proof.Config

/-! ## Fixed times, in milliseconds -/

/-- The sample period of the sense inputs (R19). -/
def samplePeriod : Nat := 2
/-- The fault debounce (R20). -/
def faultDebounce : Nat := 50
/-- The shortest pulse (Table 2.4). -/
def pulseMin : Nat := 20
/-- The longest pulse (Table 2.4). -/
def pulseMax : Nat := 100
/-- The settle interval of a waking group (R50). -/
def settleTime : Nat := 300
/-- The slow scan period of a group in STANDBY (R45). -/
def slowScanPeriod : Nat := 200
/-- One ring phase (R104). -/
def phaseTime : Nat := 1000
/-- The reply timers of SEIZE, CLEAR and RESTART (R157, R138). -/
def replyTime : Nat := 2000
/-- The self-test (R183). -/
def selfTestTime : Nat := 50

/-! ## Fixed sizes -/

/-- Places of a digit buffer (R30). -/
def digitPlaces : Nat := 4
/-- Complete requests that may wait (R190). -/
def requestPlaces : Nat := 2
/-- Reports that may wait (R194). -/
def reportPlaces : Nat := 32
/-- Transmit queue entries that name no slot (R150). -/
def noSlotPlaces : Nat := 4
/-- Good frames of a recovery run (R134). -/
def recoveryRun : Nat := 512
/-- The top of the quality score (R123). -/
def scoreTop : Nat := 255
/-- The last tag (R81). -/
def lastTag : Nat := 255
/-- The last value of the reservation order and of the placement counter (R82, R106). -/
def lastOrder : Nat := 65535

/-! ## Identity (R184) -/

/-- Vendor code. -/
def vendorCode : Nat := 41
/-- Part code. -/
def partCode : Nat := 6420
/-- Revision. -/
def revision : Nat := 3

/-! ## Octets of the trunk and of the control port (R197, R198, R200) -/

/-- First octet of the alignment word. -/
def alignHigh : Byte := 0x4D
/-- Second octet of the alignment word. -/
def alignLow : Byte := 0xB2
/-- Silence in a bearer octet. -/
def silence : Byte := 0x55
/-- The idle signalling octet. -/
def idleOctet : Byte := 0x00
/-- The marker that starts a trunk message. -/
def marker : Byte := 0xE7
/-- The start octet of a control port frame. -/
def startOctet : Byte := 0xC3
/-- The octet that stands for no alarm subject. -/
def noSubject : Byte := 0xFF

/-! ## Values the spec leaves open: free values -/

/-- Whether the stores pass the self-test, at the n-th self-test the model's own clock ends (R183; log 14). -/
opaque selfTestPasses : Nat → Bool

/-- The octet that stands for ring bus B (`true`) or A (`false`) in a data reply; Table 12.5 gives none (log 15). -/
opaque ringBusCode : Bool → Byte

/-- The octets of a clear owed field that holds nothing; Table 12.5 gives none (log 15). -/
opaque clearOwedNone : List Byte

/-- The octets of a clear owed field that holds a CLEAR with the reason of the given code (log 15). -/
opaque clearOwedClear : Byte → List Byte

/-- The octets of a clear owed field that holds a CLEAR_ACK (log 15). -/
opaque clearOwedAck : List Byte

end Sys2Proof.Config
end

