-- ==== Sys2Proof/Syntax.lean ====
section
/-! DEFINITION. The commands of the part: one constructor for each row of spec/opcode_table.json. The table gives no
operands, so each command carries what its rule says the event carries. -/

namespace Sys2Proof

/-- The reasons of CALL_EVENT, REJECT, CLEAR and REFUSE (R55), in the order of their codes (Table 12.5). -/
inductive Reason where
  | normal | noAnswer | preempted | maintenance | lineFault | noReply | busy | congested | unknownLine | outOfService
  | barred | config
  deriving DecidableEq, Repr

/-- The three FLOW messages (Table 8.9). -/
inductive FlowCommand where
  | stopAfter | stopNow | go
  deriving DecidableEq, Repr

/-- The two states of a MONITOR contact (Table 2.1). -/
inductive ContactState where
  | opened | closed
  deriving DecidableEq, Repr

/-- The commands, one for each row of spec/opcode_table.json. A request carries its request number and its body octets as
they stood in its frame (R200), so a malformed body is a command too (R201). -/
inductive Instr where
  /-- The RESET pin is asserted (R183). -/
  | resetPinAssert
  /-- The RESET pin is released, with the levels of the TEST strap and of the two rate straps (R183, R187). -/
  | resetPinRelease (testStrap rateHigh rateLow : Bool)
  /-- The self-test ends; whether every read matched (R183). -/
  | selfTestEnd (pass : Bool)
  /-- The last octet of the reply to WARM_RESET has gone (R185). -/
  | warmResetBegin
  /-- The closed run of a line reaches DEBOUNCE (R21). -/
  | offHook (p : Port)
  /-- The open run of a line awaiting on-hook reaches DEBOUNCE (R21). -/
  | onHook (p : Port)
  /-- The open run of a decoding line first exceeds FLASH_MAX (R25). -/
  | decodingOnHook (p : Port)
  /-- The closed sample that ends a break of `ms` milliseconds on a decoding line (R24). -/
  | breakEnd (p : Port) (ms : Nat)
  /-- The closed run reaches INTERDIGIT with pulses counted (R27). -/
  | digitComplete (p : Port)
  /-- The fault level has held for the debounce (R36). -/
  | fault (p : Port)
  /-- The fault level has been absent for the debounce (R36). -/
  | faultClear (p : Port)
  /-- A debounced change of a MONITOR contact to `c` (R38). -/
  | contactChange (p : Port) (c : ContactState)
  /-- One slow sample of a group: bit i of `closed` and of `faulty` is the hook and the fault level of port 8g + i (R46). -/
  | slowScan (g : GroupId) (closed faulty : BitVec 8)
  /-- The settle timer of a group expires (R51). -/
  | settleExpiry (g : GroupId)
  /-- The WAIT_LIMIT of a line expires (R69). -/
  | waitLimitExpiry (p : Port)
  /-- The RING_LIMIT of a line expires (R70). -/
  | ringLimitExpiry (p : Port)
  /-- The next ring phase begins (R111). -/
  | phaseBegin
  /-- The octets of one received frame period, judged at its end (R122). -/
  | trunkFrame (octets : List Byte)
  /-- The holdover timer expires (R133). -/
  | holdoverExpiry
  /-- The RESTART reply timer expires (R141). -/
  | restartReplyExpiry
  /-- The reply timer of a slot expires while it runs as SEIZE (R160). -/
  | seizeReplyExpiry (i : SlotId)
  /-- The reply timer of a slot expires while it runs as CLEAR (R161). -/
  | clearReplyExpiry (i : SlotId)
  /-- The first queued entry starts sending (R156). -/
  | entryStart
  /-- The frame with the last octet of the entry in flight is transmitted (R157). -/
  | entryComplete
  /-- The head terminal's ACCEPT (R146). -/
  | accept (tag : Byte)
  /-- The head terminal's REJECT (R146). -/
  | reject (tag : Byte) (r : Reason)
  /-- The head terminal's PROGRESS(ANSWERED) (R147). -/
  | progress (tag : Byte)
  /-- The head terminal's CLEAR (R148). -/
  | headClear (tag : Byte) (r : Reason)
  /-- The head terminal's CLEAR_ACK (R149). -/
  | headClearAck (tag : Byte)
  /-- The head terminal's INCOMING: head reference and line number (R94). -/
  | incoming (ref number : BitVec 16)
  /-- The head terminal's RESTART_ACK (R140). -/
  | restartAck (tags : List Byte)
  /-- The head terminal's FLOW (R158). -/
  | flow (f : FlowCommand)
  /-- A head message, marker to check, that breaks the layout (R199). -/
  | malformedHeadMessage (octets : List Byte)
  /-- Octets received on the control port, up to the end of a frame (R188). -/
  | requestReceived (octets : List Byte)
  /-- A line break on the control port (R189). -/
  | lineBreak
  /-- The last octet of the record being sent has gone (R192). -/
  | recordComplete
  /-- The request IDENTIFY (R193). -/
  | identify (num : Byte) (body : List Byte)
  /-- The request CONFIG_ENTER with the form ORDERLY (R176). -/
  | configEnterOrderly (num : Byte) (body : List Byte)
  /-- The request CONFIG_ENTER with the form FORCE (R178). -/
  | configEnterForce (num : Byte) (body : List Byte)
  /-- The request CONFIG_EXIT (R180). -/
  | configExit (num : Byte) (body : List Byte)
  /-- The request MAP_SET (R11 to R17). -/
  | mapSet (num : Byte) (body : List Byte)
  /-- The request PARAM_SET (R181). -/
  | paramSet (num : Byte) (body : List Byte)
  /-- The request POSTURE_SET (R86). -/
  | postureSet (num : Byte) (body : List Byte)
  /-- The request GROUP_STANDBY (R42, R43). -/
  | groupStandby (num : Byte) (body : List Byte)
  /-- The request GROUP_WAKE (R52). -/
  | groupWake (num : Byte) (body : List Byte)
  /-- The request TEST_CLAIM with the form WAIT (R165 to R170). -/
  | testClaimWait (num : Byte) (body : List Byte)
  /-- The request TEST_CLAIM with the form FORCE (R165 to R170). -/
  | testClaimForce (num : Byte) (body : List Byte)
  /-- The request TEST_RELEASE (R171). -/
  | testRelease (num : Byte) (body : List Byte)
  /-- The request SLOT_BLOCK (R102). -/
  | slotBlock (num : Byte) (body : List Byte)
  /-- The request SLOT_UNBLOCK (R103). -/
  | slotUnblock (num : Byte) (body : List Byte)
  /-- The request TRUNK_RELEASE (R136). -/
  | trunkRelease (num : Byte) (body : List Byte)
  /-- The request ALARM_ACK (R196). -/
  | alarmAck (num : Byte) (body : List Byte)
  /-- The request QUERY_LINE (R193). -/
  | queryLine (num : Byte) (body : List Byte)
  /-- The request QUERY_SLOTS (R193). -/
  | querySlots (num : Byte) (body : List Byte)
  /-- The request QUERY_QUEUES (R193). -/
  | queryQueues (num : Byte) (body : List Byte)
  /-- The request QUERY_LINK (R193). -/
  | queryLink (num : Byte) (body : List Byte)
  /-- The request QUERY_ALARMS (R193). -/
  | queryAlarms (num : Byte) (body : List Byte)
  /-- The request WARM_RESET (R185). -/
  | warmReset (num : Byte) (body : List Byte)
  /-- A request whose kind is none of the twenty (R201). -/
  | unknownRequest (num kind : Byte) (body : List Byte)
  /-- A character with its stop bit low on the control port (R188). -/
  | framingError
  deriving DecidableEq, Repr

end Sys2Proof
end

