-- ==== Sys2Proof/Decode.lean ====
section
/-! DEFINITION. From octets to commands and back: the checks, the layouts and the codes of spec/12. The table of commands
gives no row any bits, so `decodeTableWord` reads none; what the part itself decodes are head messages on the signalling
channel (R198, R199) and request frames on the control port (R200, R201). -/

namespace Sys2Proof

/-- The command that a word spells by the table's bits: the table gives no row any bits. -/
def decodeTableWord (_nbits _w : Nat) : Option Instr := none

/-! ## Checks -/

/-- One bit of the trunk frame check: polynomial x^8 + x^2 + x + 1 (R197). -/
def crc8Bit (c : BitVec 8) : BitVec 8 := if c.msb then (c <<< 1) ^^^ 0x07#8 else c <<< 1

/-- One octet of the trunk frame check, most significant bit first (R197). -/
def crc8Octet (c : BitVec 8) (o : Byte) : BitVec 8 := Nat.repeat crc8Bit 8 (c ^^^ o)

/-- The frame check over octets: register starting at zero, result not inverted (R197). -/
def crc8 (octets : List Byte) : Byte := octets.foldl crc8Octet 0

/-- One bit of the control port check: polynomial x^16 + x^12 + x^5 + 1 (R200). -/
def crc16Bit (c : BitVec 16) : BitVec 16 := if c.msb then (c <<< 1) ^^^ 0x1021#16 else c <<< 1

/-- One octet of the control port check, most significant bit first (R200). -/
def crc16Octet (c : BitVec 16) (o : Byte) : BitVec 16 := Nat.repeat crc16Bit 8 (c ^^^ (o.setWidth 16 <<< 8))

/-- The check over octets: register starting with all ones, result not inverted (R200). -/
def crc16 (octets : List Byte) : BitVec 16 := octets.foldl crc16Octet 0xFFFF#16

/-- The sum of octets modulo 256 (R198). -/
def octetSum (octets : List Byte) : Byte := octets.foldl (· + ·) 0

/-! ## Codes -/

/-- The code of a reason (Table 12.5). -/
def Reason.code : Reason → Byte
  | .normal => 0 | .noAnswer => 1 | .preempted => 2 | .maintenance => 3 | .lineFault => 4 | .noReply => 5
  | .busy => 6 | .congested => 7 | .unknownLine => 8 | .outOfService => 9 | .barred => 10 | .config => 11

/-- The reason with a code; a code above 11 is outside the coding (R199). -/
def reasonOfCode (b : Byte) : Option Reason :=
  [.normal, .noAnswer, .preempted, .maintenance, .lineFault, .noReply, .busy, .congested, .unknownLine, .outOfService,
    .barred, .config][b.toNat]?

/-- The octet of a FLOW message (Table 12.3). -/
def FlowCommand.code : FlowCommand → Byte
  | .stopAfter => 0 | .stopNow => 1 | .go => 2

/-- The FLOW message with a code; a value above 2 is outside the coding (R199). -/
def flowOfCode (b : Byte) : Option FlowCommand := [.stopAfter, .stopNow, .go][b.toNat]?

/-! ## Trunk messages -/

/-- A trunk message: marker, kind, body length, body, and the check that makes kind, length, body and check add to zero
(Table 12.2). -/
def trunkMessage (kind : Byte) (body : List Byte) : List Byte :=
  Config.marker :: kind :: byte body.length :: (body ++ [-(octetSum (kind :: byte body.length :: body))])

/-- The kind and the body of a head message (Table 12.3); the other commands are no head message. -/
def headCode : Instr → Option (Byte × List Byte)
  | .accept tag => some (0x11, [tag])
  | .reject tag r => some (0x12, [tag, r.code])
  | .progress tag => some (0x13, [tag, 0])
  | .headClear tag r => some (0x05, [tag, r.code])
  | .headClearAck tag => some (0x06, [tag])
  | .incoming ref number => some (0x14, twoBytes ref.toNat ++ twoBytes number.toNat)
  | .restartAck tags => some (0x15, tags)
  | .flow f => some (0x16, [f.code])
  | _ => none

/-- The octets of a head message. -/
def encodeHeadMessage (i : Instr) : Option (List Byte) := (headCode i).map fun m => trunkMessage m.1 m.2

/-- The command of a head message by its kind and body. None where the kind is not a head kind, the body length is not one
the kind allows, or a field holds a value outside its coding (R199). -/
def headMessage (kind : Byte) (body : List Byte) : Option Instr :=
  if kind = 0x11 then
    match body with
    | [tag] => if tag = 0 then none else some (.accept tag)
    | _ => none
  else if kind = 0x12 then
    match body with
    | [tag, r] => if tag = 0 then none else (reasonOfCode r).map (.reject tag)
    | _ => none
  else if kind = 0x13 then
    match body with
    | [tag, indication] => if tag = 0 ∨ indication ≠ 0 then none else some (.progress tag)
    | _ => none
  else if kind = 0x05 then
    match body with
    | [tag, r] => if tag = 0 then none else (reasonOfCode r).map (.headClear tag)
    | _ => none
  else if kind = 0x06 then
    match body with
    | [tag] => if tag = 0 then none else some (.headClearAck tag)
    | _ => none
  else if kind = 0x14 then
    match body with
    | [r1, r2, n1, n2] => some (.incoming (BitVec.ofNat 16 (ofTwoBytes r1 r2)) (BitVec.ofNat 16 (ofTwoBytes n1 n2)))
    | _ => none
  else if kind = 0x15 then
    if body.length ≤ 20 then some (.restartAck body) else none
  else if kind = 0x16 then
    match body with
    | [f] => (flowOfCode f).map .flow
    | _ => none
  else none

/-- The command of a whole head message, marker to check: none where the length or the check does not hold (R144), or where
R199 discards it. -/
def decodeHeadMessage (octets : List Byte) : Option Instr :=
  match octets with
  | m :: kind :: len :: rest =>
    if m = Config.marker ∧ len.toNat ≤ 80 ∧ rest.length = len.toNat + 1 ∧ octetSum (kind :: len :: rest) = 0
    then headMessage kind (rest.take len.toNat)
    else none
  | _ => none

/-! ## Control port frames -/

/-- A control port frame (Table 12.4): start octet, length L, request number, kind, body, and the check over the octets from
the length to the end of the body. -/
def controlFrame (num kind : Byte) (body : List Byte) : List Byte :=
  let covered := twoBytes (body.length + 2) ++ num :: kind :: body
  Config.startOctet :: (covered ++ twoBytes (crc16 covered).toNat)

/-- The row that takes a request with a given number, kind and body. The rows of CONFIG_ENTER and of TEST_CLAIM are split by
the form; a body whose form is not FORCE goes to the other row, which refuses what is malformed (R201; log 30). -/
def requestRow (num kind : Byte) (body : List Byte) : Instr :=
  match kind.toNat with
  | 0x01 => .identify num body
  | 0x02 => if body = [1] then .configEnterForce num body else .configEnterOrderly num body
  | 0x03 => .configExit num body
  | 0x04 => .mapSet num body
  | 0x05 => .paramSet num body
  | 0x06 => .postureSet num body
  | 0x07 => .groupStandby num body
  | 0x08 => .groupWake num body
  | 0x09 => if body.length = 2 ∧ body[1]? = some 1 then .testClaimForce num body else .testClaimWait num body
  | 0x0A => .testRelease num body
  | 0x0B => .slotBlock num body
  | 0x0C => .slotUnblock num body
  | 0x0D => .trunkRelease num body
  | 0x0E => .alarmAck num body
  | 0x0F => .queryLine num body
  | 0x10 => .querySlots num body
  | 0x11 => .queryQueues num body
  | 0x12 => .queryLink num body
  | 0x13 => .queryAlarms num body
  | 0x14 => .warmReset num body
  | _ => .unknownRequest num kind body

/-- The number, the kind and the body of a request command; the other commands are no request. -/
def requestCode : Instr → Option (Byte × Byte × List Byte)
  | .identify num body => some (num, 0x01, body)
  | .configEnterOrderly num body => some (num, 0x02, body)
  | .configEnterForce num body => some (num, 0x02, body)
  | .configExit num body => some (num, 0x03, body)
  | .mapSet num body => some (num, 0x04, body)
  | .paramSet num body => some (num, 0x05, body)
  | .postureSet num body => some (num, 0x06, body)
  | .groupStandby num body => some (num, 0x07, body)
  | .groupWake num body => some (num, 0x08, body)
  | .testClaimWait num body => some (num, 0x09, body)
  | .testClaimForce num body => some (num, 0x09, body)
  | .testRelease num body => some (num, 0x0A, body)
  | .slotBlock num body => some (num, 0x0B, body)
  | .slotUnblock num body => some (num, 0x0C, body)
  | .trunkRelease num body => some (num, 0x0D, body)
  | .alarmAck num body => some (num, 0x0E, body)
  | .queryLine num body => some (num, 0x0F, body)
  | .querySlots num body => some (num, 0x10, body)
  | .queryQueues num body => some (num, 0x11, body)
  | .queryLink num body => some (num, 0x12, body)
  | .queryAlarms num body => some (num, 0x13, body)
  | .warmReset num body => some (num, 0x14, body)
  | .unknownRequest num kind body => some (num, kind, body)
  | _ => none

end Sys2Proof
end

