-- ==== Sys2Proof/Machine/State.lean ====
section
/-! DEFINITION. Everything the spec gives the part to hold, as plain data, and the part right after a reset. -/

namespace Sys2Proof.Machine

/-! ## Port Map (spec/01) -/

/-- The class of a line (R8). -/
inductive Class where
  | ordinary | priority
  deriving DecidableEq, Repr

/-- The role of a port with the fields its port record then has: line number and class are present exactly for SUBSCRIBER
and HOTLINE, and a hotline is always PRIORITY (Table 1.5, R8). -/
inductive PortRole where
  | unequipped
  | subscriber (number : Nat) (cls : Class)
  | hotline (number : Nat)
  | monitor
  deriving DecidableEq, Repr

/-! ## Line Scanner (spec/02, spec/03) -/

/-- The debounced loop state (Table 2.1). -/
inductive HookState where
  | onHook | offHook
  deriving DecidableEq, Repr

/-- Scanner state of one port (Table 2.1). `heldRun` is the closed run as it stood when the break now timed began: R24 lets
an ignored break go on from it (log 13). -/
structure Scanner where
  hook      : HookState
  contact   : ContactState
  fault     : Bool
  openRun   : Nat
  closedRun : Nat
  heldRun   : Nat
  faultRun  : Nat
  pulses    : Nat
  overrun   : Bool
  deriving DecidableEq, Repr

/-- Digit buffer of one line (Table 2.2): waiting digits, oldest first. -/
structure DigitBuffer where
  digits : List Digit
  lent   : Nat
  lost   : Bool
  deriving DecidableEq, Repr

/-- Scan group states (Table 3.2). -/
inductive GroupState where
  | active | standbyPending | standby | waking
  deriving DecidableEq, Repr

/-- Scan group record (Table 3.1): the two timers hold the milliseconds left while they run. -/
structure Group where
  state  : GroupState
  wake   : Bool
  settle : Option Nat
  slow   : Option Nat
  deriving DecidableEq, Repr

/-! ## Line Controller (spec/04) -/

/-- Line states (Table 4.1). -/
inductive LineState where
  | unequipped | idle | queued | seizing | activeOut | offered | ringing | activeIn | holdover | parked | test | fault
  deriving DecidableEq, Repr

/-- The direction of a call. -/
inductive Direction where
  | out | inward
  deriving DecidableEq, Repr

/-- Line record (Table 4.1). Slot and direction are present together; the line timer's kind follows from the state (4.5), so
the field holds the milliseconds left. The digit buffer and the pulse count are the scanner's. -/
structure Line where
  state        : LineState
  call         : Option (SlotId × Direction)
  timer        : Option Nat
  answerOwed   : Bool
  flashOwed    : Bool
  faultPresent : Bool
  deriving DecidableEq, Repr

/-- Feed levels (R5). -/
inductive FeedLevel where
  | off | wetting | reduced | normal | extended
  deriving DecidableEq, Repr

/-- Tone demands (R5). -/
inductive Tone where
  | none | congestion
  deriving DecidableEq, Repr

/-! ## Slot Manager (spec/05) -/

/-- The fields a slot has in RESERVED, BUSY and HELD (Table 5.1). -/
structure Call where
  line      : Port
  tag       : Nat
  direction : Direction
  answered  : Bool
  order     : Nat
  deriving DecidableEq, Repr

/-- The clear side of a slot in CLEARING. AWAIT_ACK keeps the reason of the part's CLEAR, which a repeat carries again
(R161; log 12). -/
inductive ClearSide where
  | awaitAck (r : Reason)
  | oweAck
  deriving DecidableEq, Repr

/-- Why a slot is BLOCKED (Table 5.1). -/
inductive BlockedReason where
  | cabinet | noClearAck
  deriving DecidableEq, Repr

/-- Slot record (Table 5.1): each state with the fields present in it. `bp` is block pending. -/
inductive Slot where
  | free
  | reserved (c : Call) (bp : Bool)
  | busy (c : Call) (bp : Bool)
  | held (c : Call) (bp : Bool)
  | clearing (former : Port) (tag : Nat) (side : ClearSide) (bp : Bool)
  | blocked (why : BlockedReason)
  deriving DecidableEq, Repr

/-- The three postures (Table 5.4). -/
inductive Posture where
  | mains | battery | reserve
  deriving DecidableEq, Repr

/-! ## Ring Scheduler (spec/06) -/

/-- A line in a cell of the ring phase table, with its placement number (R106). -/
structure Placed where
  port   : Port
  number : Nat
  deriving DecidableEq, Repr

/-! ## Trunk Framer (spec/07) -/

/-- Alignment state (R121). -/
inductive Align where
  | aligned | hunting
  deriving DecidableEq, Repr

/-- Link states (Table 7.3). -/
inductive LinkState where
  | up | warned | impaired | down | recovered | resync
  deriving DecidableEq, Repr

/-- Whether a reply timer runs as first or as repeat. -/
inductive TimerRun where
  | first | again
  deriving DecidableEq, Repr

/-! ## Trunk Signaller (spec/08) -/

/-- A message that names a slot (Table 8.2). -/
inductive SlotMsg where
  | seize | digits | flash | answer
  | clear (r : Reason)
  | clearAck
  | offer (ref : BitVec 16)
  deriving DecidableEq, Repr

/-- A message that names no slot (R150). -/
inductive FreeMsg where
  | refuse (ref : BitVec 16) (r : Reason)
  | clearAck (tag : Byte)
  | restart
  deriving DecidableEq, Repr

/-- What an entry sends: a slot's message names the slot, its line (or former line) and its tag (R150). -/
inductive Msg where
  | ofSlot (i : SlotId) (p : Port) (tag : Nat) (m : SlotMsg)
  | ofNone (m : FreeMsg)
  deriving DecidableEq, Repr

/-- A transmit queue entry (R150). -/
structure Entry where
  msg    : Msg
  pinned : Bool
  deriving DecidableEq, Repr

/-- The entry in flight is the first of the queue; this holds what of it has not gone yet and the digits it took (R156). -/
structure InFlight where
  octets : List Byte
  digits : List Digit
  deriving DecidableEq, Repr

/-- Flow state (R158). -/
inductive Flow where
  | go | stopped
  deriving DecidableEq, Repr

/-- What a reply timer waits for (Table 8.4). -/
inductive TimerKind where
  | seize | clear
  deriving DecidableEq, Repr

/-- A running reply timer. -/
structure ReplyTimer where
  kind : TimerKind
  run  : TimerRun
  left : Nat
  deriving DecidableEq, Repr

/-- A clear item that waits behind an entry in flight (Table 8.4). -/
inductive ClearOwed where
  | clear (r : Reason)
  | clearAck
  deriving DecidableEq, Repr

/-- Slot signalling record (Table 8.4). -/
structure Sig where
  tagKnown  : Bool
  clearSent : Bool
  timer     : Option ReplyTimer
  owed      : Option ClearOwed
  deriving DecidableEq, Repr

/-- A receiver of octets: the receive assembler (R144) and the control port receiver (R188). -/
inductive Assembler where
  | hunting
  | assembling (octets : List Byte)
  deriving DecidableEq, Repr

/-! ## Maintenance Access (spec/09) -/

/-- Test bus record (Table 9.1). -/
inductive TestBus where
  | free
  | claimed (p : Port)
  | held (p : Port)
  deriving DecidableEq, Repr

/-! ## Mode Controller (spec/10) -/

/-- Operating modes (R175). -/
inductive Mode where
  | normal | configPending | config
  deriving DecidableEq, Repr

/-- The parameter set (Table 10.2), each in its unit; `cabinetRelease` is RELEASE_MODE CABINET, `preempt` is PREEMPT ON. -/
structure Params where
  debounce       : Nat
  flashMax       : Nat
  interdigit     : Nat
  waitLimit      : Nat
  ringLimit      : Nat
  holdover       : Nat
  cabinetRelease : Bool
  preempt        : Bool
  deriving DecidableEq, Repr

/-- Self-test results (Table 10.1). -/
inductive SelfTest where
  | pass | fail | notRun
  deriving DecidableEq, Repr

/-- The kind of reset a START reports (R184). -/
inductive ResetKind where
  | cold | warm
  deriving DecidableEq, Repr

/-- Where the part stands in a cold reset (R183). -/
inductive Power where
  | held
  | selfTest (left : Nat)
  | running
  deriving DecidableEq, Repr

/-! ## Control Port (spec/11) -/

/-- Line rates, in bit/s (Table 11.2). -/
inductive Rate where
  | r9600 | r19200 | r38400 | r57600
  deriving DecidableEq, Repr

/-- A complete request (R188). -/
structure Request where
  num  : Byte
  kind : Byte
  body : List Byte
  deriving DecidableEq, Repr

/-- Refusal reasons (Table 12.5). -/
inductive RequestRefusal where
  | unknownRequest | badValue | wrongMode | roleNotOffered | numberInUse | portBusy | groupAsleep | testBusy | notHeld
  | conditionPresent | notYet | selfTestFailed
  deriving DecidableEq, Repr

/-- An alarm's kind with its subject (Table 11.6). -/
inductive AlarmId where
  | trunkDown | linkImpaired
  | slotSuspect (i : SlotId)
  | lineFault (p : Port)
  | contact (p : Port)
  deriving DecidableEq, Repr

/-- An alarm list entry (R195). -/
structure Alarm where
  id      : AlarmId
  present : Bool
  deriving DecidableEq, Repr

/-- The reason field of CALL_EVENT: a reason, or one of three that are no transition (R55). -/
inductive Note where
  | because (r : Reason)
  | misdial | digitLost | flashIgnored
  deriving DecidableEq, Repr

/-- Causes of GROUP_EVENT (R41). -/
inductive GroupCause where
  | request | linesIdle | offHook | incoming | fault | settled
  deriving DecidableEq, Repr

/-- Grants of TEST_EVENT (Table 11.5). -/
inductive Grant where
  | immediate | callEnd | forced
  deriving DecidableEq, Repr

/-- Changes of ALARM_EVENT (Table 11.5). -/
inductive AlarmChange where
  | raised | conditionEnded
  deriving DecidableEq, Repr

/-- Causes of MODE_EVENT (R175). -/
inductive ModeCause where
  | request | callsEnded
  deriving DecidableEq, Repr

/-- Reports (Table 11.5). -/
inductive Report where
  | callEvent (p : Port) (st : LineState) (n : Note)
  | linkEvent (l : LinkState) (score : Nat)
  | groupEvent (g : GroupId) (st : GroupState) (c : GroupCause)
  | testEvent (p : Port) (g : Grant)
  | alarmEvent (a : AlarmId) (c : AlarmChange)
  | monitorEvent (p : Port) (c : ContactState)
  | modeEvent (m : Mode) (c : ModeCause)
  | start (t : SelfTest) (k : ResetKind)
  deriving DecidableEq, Repr

/-- What QUERY_LINE returns (Table 11.4). -/
structure LinePicture where
  port   : Port
  role   : PortRole
  line   : Line
  buffer : List Digit
  scan   : Scanner
  group  : GroupState
  wake   : Bool
  bus    : TestBus
  deriving DecidableEq, Repr

/-- What QUERY_SLOTS returns (Table 11.4). -/
structure SlotsPicture where
  slots     : List (Slot × Sig)
  free      : List SlotId
  active    : Nat
  posture   : Posture
  mark      : Option SlotId
  nextTag   : Nat
  nextOrder : Nat
  deriving DecidableEq, Repr

/-- What QUERY_QUEUES returns (Table 11.4): waiting lines with class and time left, the phase, the six cells with each line's
number and state, the ring queue with class and time left, the transmit queue and the flow state. -/
structure QueuesPicture where
  waiting   : List (Port × Class × Option Nat)
  phase     : Fin 3
  cells     : List (List (Placed × LineState))
  ringQueue : List (Port × Class × Option Nat)
  txq       : List Entry
  inFlight  : Bool
  flow      : Flow
  deriving DecidableEq, Repr

/-- What QUERY_LINK returns (Table 11.4). -/
structure LinkPicture where
  link         : LinkState
  score        : Nat
  align        : Align
  run          : Nat
  releaseFlag  : Bool
  cabinet      : Bool
  holdoverTime : Nat
  holdover     : Option Nat
  restart      : Option (TimerRun × Nat)
  deriving DecidableEq, Repr

/-- The contents of a data reply, a picture of the part at the moment the request is taken (R193). -/
inductive DataReply where
  | identify (t : SelfTest) (m : Mode) (p : Posture) (params : Params)
  | line (pic : LinePicture)
  | slots (pic : SlotsPicture)
  | queues (pic : QueuesPicture)
  | link (pic : LinkPicture)
  | alarms (list : List Alarm)
  deriving DecidableEq, Repr

/-- The three outcomes a reply carries (R191). -/
inductive ReplyOutcome where
  | done
  | refused (r : RequestRefusal)
  | data (d : DataReply)
  deriving DecidableEq, Repr

/-- A reply with the number of the request it answers (R191). -/
structure Reply where
  num     : Byte
  outcome : ReplyOutcome
  deriving DecidableEq, Repr

/-- The transmitter (R192): the record being sent stands in the reply slot, or here if it is a report, with the lost
indication it carries and the tenths of a bit sent so far (log 28). -/
inductive Transmitter where
  | idle
  | sendingReply (lost : Bool) (sent : Nat)
  | sendingReport (r : Report) (lost : Bool) (sent : Nat)
  deriving DecidableEq, Repr

/-- Where a WARM_RESET stands (R185): none, taken and its reply not yet gone, or its reply gone. -/
inductive Warm where
  | none | taken | due
  deriving DecidableEq, Repr

/-! ## The part -/

/-- The state of the part. INVENTORY.md lists each field with the rule that names it. -/
structure State where
  pending        : List Instr
  power          : Power
  freeIndex      : Nat
  hookPin        : Table 64 Bool
  faultPin       : Table 64 Bool
  codecIn        : Table 64 Byte
  ringDrive      : Table 64 Bool
  rxBearer       : Table 20 Byte
  trunkTx        : List Byte
  ports          : Table 64 PortRole
  scan           : Table 64 Scanner
  buffers        : Table 64 DigitBuffer
  groups         : Table 8 Group
  oddSample      : Bool
  lines          : Table 64 Line
  slots          : Table 20 Slot
  free           : List SlotId
  waitQueue      : List Port
  posture        : Posture
  mark           : Option SlotId
  nextTag        : Nat
  nextOrder      : Nat
  phase          : Fin 3
  phaseMs        : Nat
  cells          : Table 6 (List Placed)
  nextPlacement  : Nat
  ringQueue      : List Port
  align          : Align
  badWords       : Nat
  foundWords     : Nat
  huntAt         : Nat
  lastOctet      : Option Byte
  frameEnd       : Nat
  frameHead      : List Byte
  score          : Nat
  link           : LinkState
  run            : Nat
  releaseFlag    : Bool
  holdover       : Option Nat
  restartTimer   : Option (TimerRun × Nat)
  restartOwed    : Bool
  restartRepeat  : Bool
  txq            : List Entry
  inFlight       : Option InFlight
  flow           : Flow
  sig            : Table 20 Sig
  assembler      : Assembler
  bus            : TestBus
  mode           : Mode
  params         : Params
  selfTest       : SelfTest
  rate           : Rate
  receiver       : Assembler
  requests       : List Request
  reply          : Option Reply
  tx             : Transmitter
  reports        : List Report
  requestLost    : Bool
  reportLost     : Bool
  alarms         : List Alarm
  warm           : Warm
  deriving DecidableEq, Repr

/-- Why a step can stop with a fault. The spec describes no event that stops the part (INVENTORY.md, Faults), so there is no
reason: no command raises a fault. -/
inductive Fault where
  deriving DecidableEq, Repr

/-- Why a command can have no meaning. -/
inductive Refusal where
  /-- A command of the table not modelled yet; raised by `exec` alone. Safe: the model stops where the part goes on. -/
  | notModelled (mnemonic : String)
  deriving DecidableEq, Repr

/-! ## After reset -/

/-- Scanner state of a port after reset (R40). -/
def Scanner.initial : Scanner :=
  { hook := .onHook, contact := .opened, fault := false, openRun := 0, closedRun := 0, heldRun := 0, faultRun := 0,
    pulses := 0, overrun := false }

/-- An empty digit buffer (R33, R40). -/
def DigitBuffer.empty : DigitBuffer := { digits := [], lent := 0, lost := false }

/-- A scan group after reset (R41). -/
def Group.initial : Group := { state := .active, wake := false, settle := none, slow := none }

/-- A line record in UNEQUIPPED (R54). -/
def Line.unequipped : Line :=
  { state := .unequipped, call := none, timer := none, answerOwed := false, flashOwed := false, faultPresent := false }

/-- A cleared signalling record (R143). -/
def Sig.cleared : Sig := { tagKnown := false, clearSent := false, timer := none, owed := none }

/-- The default parameters (Table 10.2). -/
def Params.default : Params :=
  { debounce := 16, flashMax := 600, interdigit := 250, waitLimit := 40, ringLimit := 60, holdover := 10,
    cabinetRelease := false, preempt := false }

/-- The part right after a cold reset with every strap low: every field at the value its rule gives for reset, START alone in
the report queue and the transmitter IDLE (R184, Tables 7.1, 8.1, 10.1, 11.1). The straps decide the self-test result and the
line rate; here the TEST strap is low, so NOT_RUN, and the rate straps are low, so 9600 bit/s (log 5). Input pins, the last
octets of the trunk and the sample phase are the model's choice (logs 4, 25, 28, 29). -/
def State.reset : State where
  pending       := []
  power         := .running
  freeIndex     := 0
  hookPin       := Table.all 64 false
  faultPin      := Table.all 64 false
  codecIn       := Table.all 64 Config.silence
  ringDrive     := Table.all 64 false
  rxBearer      := Table.all 20 Config.silence
  trunkTx       := []
  ports         := Table.all 64 .unequipped
  scan          := Table.all 64 Scanner.initial
  buffers       := Table.all 64 DigitBuffer.empty
  groups        := Table.all 8 Group.initial
  oddSample     := false
  lines         := Table.all 64 Line.unequipped
  slots         := Table.all 20 .free
  free          := allSlots
  waitQueue     := []
  posture       := .mains
  mark          := none
  nextTag       := 1
  nextOrder     := 1
  phase         := 0
  phaseMs       := 0
  cells         := Table.all 6 []
  nextPlacement := 1
  ringQueue     := []
  align         := .hunting
  badWords      := 0
  foundWords    := 0
  huntAt        := 0
  lastOctet     := none
  frameEnd      := 25
  frameHead     := []
  score         := 255
  link          := .down
  run           := 0
  releaseFlag   := false
  holdover      := none
  restartTimer  := none
  restartOwed   := false
  restartRepeat := false
  txq           := []
  inFlight      := none
  flow          := .go
  sig           := Table.all 20 Sig.cleared
  assembler     := .hunting
  bus           := .free
  mode          := .config
  params        := Params.default
  selfTest      := .notRun
  rate          := .r9600
  receiver      := .hunting
  requests      := []
  reply         := none
  tx            := .idle
  reports       := [.start .notRun .cold]
  requestLost   := false
  reportLost    := false
  alarms        := []
  warm          := .none

end Sys2Proof.Machine
end

