-- ==== Sys2Proof/Machine/Flags.lean ====
section
/-! DEFINITION. What the part computes from what it holds: the facts that follow from a port's number and role, the reading
of the hook, the views the spec gives no store of their own (connection map, active call count, outputs), and the codes of
spec/12. -/

namespace Sys2Proof.Machine

/-! ## Ports (spec/01) -/

/-- The ring bus of a port: A is 0, B is 1 (R1). -/
def busOf (p : Port) : Fin 2 := if p.val < 32 then 0 else 1

/-- The scan group of a port (R1). -/
def groupOf (p : Port) : GroupId := ⟨p.val / 8, by omega⟩

/-- The ports of a group, in the order of their numbers (R1). -/
def portsOf (g : GroupId) : List Port := (List.finRange 8).map fun k => ⟨8 * g.val + k.val, by omega⟩

/-- Whether the role gives the port a line (R7). -/
def PortRole.hasLine : PortRole → Bool
  | .subscriber _ _ => true
  | .hotline _ => true
  | _ => false

/-- The line number of a role, where it has one (R8). -/
def PortRole.number? : PortRole → Option Nat
  | .subscriber n _ => some n
  | .hotline n => some n
  | _ => none

/-- The class of a role, where it has one: a hotline is PRIORITY (R8). -/
def PortRole.class? : PortRole → Option Class
  | .subscriber _ c => some c
  | .hotline _ => some .priority
  | _ => none

/-- Whether the role is SUBSCRIBER. -/
def PortRole.isSubscriber : PortRole → Bool
  | .subscriber _ _ => true
  | _ => false

/-- Whether the port offers the role (Table 1.4). -/
def offers (p : Port) : PortRole → Bool
  | .hotline _ => decide (48 ≤ p.val ∧ p.val ≤ 55)
  | .monitor => decide (56 ≤ p.val)
  | _ => true

/-- Whether the port has a line. -/
def hasLine (s : State) (p : Port) : Bool := (s.ports.at p).hasLine

/-- Whether the port is a MONITOR port. -/
def isMonitor (s : State) (p : Port) : Bool := decide (s.ports.at p = .monitor)

/-- Whether the port's line is PRIORITY (R8). -/
def isPriority (s : State) (p : Port) : Bool := decide ((s.ports.at p).class? = some .priority)

/-- Whether the port's line is ORDINARY (R8). -/
def isOrdinary (s : State) (p : Port) : Bool := decide ((s.ports.at p).class? = some .ordinary)

/-- A lookup in the line number index: the port that holds the number (R9, R10). -/
def lookup (s : State) (n : Nat) : Option Port :=
  if 1 ≤ n ∧ n ≤ 9999 then allPorts.find? fun p => decide ((s.ports.at p).number? = some n) else none

/-! ## Readings of the hook (Table 2.3) -/

/-- The states in which a line is off-hook for a call that it makes or has. -/
def LineState.offHookCall : LineState → Bool
  | .queued => true | .seizing => true | .activeOut => true | .activeIn => true
  | _ => false

/-- The states in which a called line has not answered. -/
def LineState.called : LineState → Bool
  | .offered => true | .ringing => true
  | _ => false

/-- The states in which a line is connected. -/
def LineState.active : LineState → Bool
  | .activeOut => true | .activeIn => true
  | _ => false

/-- The states in which Table 4.1 gives the line a slot. -/
def LineState.holdsSlot : LineState → Bool
  | .seizing => true | .offered => true | .ringing => true | .activeOut => true | .activeIn => true | .holdover => true
  | _ => false

/-- The states that no claim waits in: the bus is granted at once (R166). -/
def LineState.claimable : LineState → Bool
  | .idle => true | .queued => true | .parked => true | .fault => true
  | _ => false

/-- The reading decoding. -/
def decodesIn (r : PortRole) (st : LineState) : Bool := r.isSubscriber && st.offHookCall

/-- Whether the scanner decodes breaks on the line of a port. -/
def decodes (s : State) (p : Port) : Bool := decodesIn (s.ports.at p) (s.lines.at p).state

/-- The reading awaiting off-hook. -/
def awaitsOffHook (s : State) (p : Port) : Bool :=
  hasLine s p && (decide ((s.lines.at p).state = .idle) || (s.lines.at p).state.called)

/-- The reading awaiting on-hook. -/
def awaitsOnHook (s : State) (p : Port) : Bool :=
  hasLine s p && (decide ((s.lines.at p).state = .parked) || decide ((s.lines.at p).state = .holdover)
    || (!(s.ports.at p).isSubscriber && (s.lines.at p).state.offHookCall))

/-- The state of a port's group. -/
def groupState (s : State) (p : Port) : GroupState := (s.groups.at (groupOf p)).state

/-- Whether the group is sampled at the normal rate (R19). -/
def GroupState.awake : GroupState → Bool
  | .active => true | .standbyPending => true
  | _ => false

/-- Whether the hook sense of the port is sampled every 2 ms (R19, Table 3.2). -/
def hookSampled (s : State) (p : Port) : Bool := (groupState s p).awake

/-- A time rounded up to a whole number of samples: the run at which it is reached (R20, R181). -/
def wholeSamples (t : Nat) : Nat := (t + 1) / 2 * 2

/-! ## Lines and groups -/

/-- Whether the port keeps its group from STANDBY: it has a line that is not IDLE (R42). -/
def keepsAwake (s : State) (p : Port) : Bool := hasLine s p && decide ((s.lines.at p).state ≠ .idle)

/-- Whether no line of the group keeps it from STANDBY (R42, R44). -/
def groupQuiet (s : State) (g : GroupId) : Bool := (portsOf g).all fun p => !keepsAwake s p

/-! ## Slots (spec/05) -/

/-- The call of a slot in RESERVED, BUSY or HELD. -/
def Slot.call? : Slot → Option Call
  | .reserved c _ => some c
  | .busy c _ => some c
  | .held c _ => some c
  | _ => none

/-- The tag a slot holds (Table 5.1). -/
def Slot.tag? : Slot → Option Nat
  | .clearing _ t _ _ => some t
  | sl => sl.call?.map (·.tag)

/-- The line or former line of a slot, with the tag: what a message of the slot names (R150). -/
def Slot.party? : Slot → Option (Port × Nat)
  | .clearing p t _ _ => some (p, t)
  | sl => sl.call?.map fun c => (c.line, c.tag)

/-- Block pending; clear where it is absent. -/
def Slot.blockPending : Slot → Bool
  | .reserved _ b => b
  | .busy _ b => b
  | .held _ b => b
  | .clearing _ _ _ b => b
  | _ => false

/-- The slot with block pending set or cleared where it has the field. -/
def Slot.withBlockPending (b : Bool) : Slot → Slot
  | .reserved c _ => .reserved c b
  | .busy c _ => .busy c b
  | .held c _ => .held c b
  | .clearing p t side _ => .clearing p t side b
  | sl => sl

/-- Whether the slot is in the active call count (Table 5.2). -/
def Slot.counted (sl : Slot) : Bool := sl.call?.isSome

/-- Whether the slot is RESERVED, BUSY, HELD or CLEARING (R177). -/
def Slot.inUse (sl : Slot) : Bool := sl.tag?.isSome

/-- Whether the slot is HELD. -/
def Slot.isHeld : Slot → Bool
  | .held _ _ => true
  | _ => false

/-- The active call count (R85). -/
def activeCount (s : State) : Nat := (allSlots.filter fun i => (s.slots.at i).counted).length

/-- Whether any slot is HELD. -/
def anyHeld (s : State) : Bool := allSlots.any fun i => (s.slots.at i).isHeld

/-- Whether any slot is in use (R177). -/
def anyInUse (s : State) : Bool := allSlots.any fun i => (s.slots.at i).inUse

/-- The slot that holds a tag (R145). -/
def slotOfTag (s : State) (t : Nat) : Option SlotId := allSlots.find? fun i => decide ((s.slots.at i).tag? = some t)

/-- The rank of a posture: MAINS above BATTERY above RESERVE. -/
def Posture.rank : Posture → Nat
  | .mains => 2 | .battery => 1 | .reserve => 0

/-- The active call limit of a posture (Table 5.4). -/
def Posture.callLimit : Posture → Nat
  | .mains => 20 | .battery => 14 | .reserve => 6

/-- The ring capacity of a posture (Table 5.4). -/
def Posture.ringCapacity : Posture → Nat
  | .mains => 3 | .battery => 2 | .reserve => 1

/-! ## Link (spec/07) -/

/-- Whether the link is in service. -/
def LinkState.inService : LinkState → Bool
  | .up => true | .warned => true | .impaired => true
  | _ => false

/-- Whether trunk messages are sent and taken (Table 7.3). -/
def LinkState.messages : LinkState → Bool
  | .down => false | .recovered => false
  | _ => true

/-- The grade of a score (R125). -/
def gradeOf (score : Nat) : LinkState := if score < 64 then .up else if score < 160 then .warned else .impaired

/-- Whether an ORDINARY line may be admitted in a link state, posture and count apart (Tables 5.5, 5.6). -/
def LinkState.ordinary : LinkState → Bool
  | .up => true | .warned => true
  | _ => false

/-! ## Transmit queue (spec/08) -/

/-- The slot an entry names. -/
def Entry.slot? (e : Entry) : Option SlotId :=
  match e.msg with
  | .ofSlot i _ _ _ => some i
  | .ofNone _ => none

/-- The line an entry names. -/
def Entry.line? (e : Entry) : Option Port :=
  match e.msg with
  | .ofSlot _ p _ _ => some p
  | .ofNone _ => none

/-- What an entry of a slot sends. -/
def Entry.slotMsg? (e : Entry) : Option SlotMsg :=
  match e.msg with
  | .ofSlot _ _ _ m => some m
  | .ofNone _ => none

/-- The slot of the entry in flight. -/
def flightSlot (s : State) : Option SlotId :=
  if s.inFlight.isSome then s.txq.head?.bind Entry.slot? else none

/-- How many entries at the head of the queue are in flight: one or none. -/
def flightCount (s : State) : Nat := if s.inFlight.isSome then 1 else 0

/-- The queued entries: all but the one in flight (R150). -/
def queuedEntries (s : State) : List Entry := s.txq.drop (flightCount s)

/-- Whether some entry names the slot. -/
def hasEntry (s : State) (i : SlotId) : Bool := s.txq.any fun e => decide (e.slot? = some i)

/-- The queued entry of a slot, not in flight. -/
def queuedEntry (s : State) (i : SlotId) : Option Entry := (queuedEntries s).find? fun e => decide (e.slot? = some i)

/-- Whether an entry of the slot that sends the given message is queued or in flight. -/
def hasEntryOf (s : State) (i : SlotId) (m : SlotMsg) : Bool :=
  s.txq.any fun e => decide (e.slot? = some i) && decide (e.slotMsg? = some m)

/-- Whether one of the four places for entries that name no slot is free (R150). -/
def freePlace (s : State) : Bool :=
  decide ((s.txq.filter fun e => decide (e.slot? = none)).length < Config.noSlotPlaces)

/-! ## Outputs, computed from what the part holds (log 22) -/

/-- The feed control output of a port (R5, Table 1.3; R18 while a reset lasts). -/
def feed (s : State) (p : Port) : FeedLevel × Tone :=
  if s.power ≠ .running then (.off, .none) else
  match s.ports.at p with
  | .unequipped => (.off, .none)
  | .monitor => (.wetting, .none)
  | r =>
    let level := if r.isSubscriber then FeedLevel.normal else .extended
    match (s.lines.at p).state with
    | .test => (.off, .none)
    | .fault => (.reduced, .none)
    | st =>
      if groupState s p = .standby then (.reduced, .none)
      else if st = .parked then (level, .congestion)
      else (level, .none)

/-- The test relay output of a port (R164). -/
def relay (s : State) (p : Port) : Bool := decide (s.bus = .held p)

/-- The connection map: the port joined to a slot (R84). -/
def joined (s : State) (i : SlotId) : Option Port :=
  match s.slots.at i with
  | .busy c _ => some c.line
  | .held c _ => some c.line
  | _ => none

/-- The octet the part sends to a port's codec (R6, R84, R122). -/
def codecOut (s : State) (p : Port) : Byte :=
  match allSlots.find? fun i => decide (joined s i = some p) with
  | some i => if (s.slots.at i).isHeld then Config.silence else s.rxBearer.at i
  | none => Config.silence

/-- The bearer octet the part transmits in a slot (R84, R120). -/
def bearerOut (s : State) (i : SlotId) : Byte :=
  match s.slots.at i with
  | .busy c _ => s.codecIn.at c.line
  | _ => Config.silence

/-! ## Codes (Table 12.5) -/

/-- Class in a record. -/
def Class.code : Class → Byte
  | .ordinary => 0 | .priority => 1

/-- Class in a SEIZE: HOTLINE for a hotline port (R142). -/
def PortRole.seizeClass : PortRole → Byte
  | .hotline _ => 2
  | r => (r.class?.map Class.code).getD 0

/-- Role. -/
def PortRole.code : PortRole → Byte
  | .unequipped => 0 | .subscriber _ _ => 1 | .hotline _ => 2 | .monitor => 3

/-- Hook state. -/
def HookState.code : HookState → Byte
  | .onHook => 0 | .offHook => 1

/-- Contact state. -/
def contactCode : ContactState → Byte
  | .opened => 0 | .closed => 1

/-- Group state, in the order of Table 3.2. -/
def GroupState.code : GroupState → Byte
  | .active => 0 | .standbyPending => 1 | .standby => 2 | .waking => 3

/-- Line state, in the order of Table 4.1. -/
def LineState.code : LineState → Byte
  | .unequipped => 0 | .idle => 1 | .queued => 2 | .seizing => 3 | .activeOut => 4 | .offered => 5 | .ringing => 6
  | .activeIn => 7 | .holdover => 8 | .parked => 9 | .test => 10 | .fault => 11

/-- Direction. -/
def Direction.code : Direction → Byte
  | .out => 0 | .inward => 1

/-- Slot state, in the order of Table 5.2. -/
def Slot.code : Slot → Byte
  | .free => 0 | .reserved _ _ => 1 | .busy _ _ => 2 | .clearing _ _ _ _ => 3 | .held _ _ => 4 | .blocked _ => 5

/-- Clear side. -/
def ClearSide.code : ClearSide → Byte
  | .awaitAck _ => 0 | .oweAck => 1

/-- Blocked reason. -/
def BlockedReason.code : BlockedReason → Byte
  | .cabinet => 0 | .noClearAck => 1

/-- Posture. -/
def Posture.code : Posture → Byte
  | .mains => 0 | .battery => 1 | .reserve => 2

/-- Alignment state. -/
def Align.code : Align → Byte
  | .aligned => 0 | .hunting => 1

/-- Link state, in the order of Table 7.3. -/
def LinkState.code : LinkState → Byte
  | .up => 0 | .warned => 1 | .impaired => 2 | .down => 3 | .recovered => 4 | .resync => 5

/-- Timer run. -/
def TimerRun.code : TimerRun → Byte
  | .first => 0 | .again => 1

/-- Reply timer kind. -/
def TimerKind.code : TimerKind → Byte
  | .seize => 0 | .clear => 1

/-- Flow state. -/
def Flow.code : Flow → Byte
  | .go => 0 | .stopped => 1

/-- Mode, in the order of Table 10.3. -/
def Mode.code : Mode → Byte
  | .normal => 0 | .configPending => 1 | .config => 2

/-- Self-test result. -/
def SelfTest.code : SelfTest → Byte
  | .pass => 0 | .fail => 1 | .notRun => 2

/-- Reset kind. -/
def ResetKind.code : ResetKind → Byte
  | .cold => 0 | .warm => 1

/-- Refusal reason. -/
def RequestRefusal.code : RequestRefusal → Byte
  | .unknownRequest => 0 | .badValue => 1 | .wrongMode => 2 | .roleNotOffered => 3 | .numberInUse => 4 | .portBusy => 5
  | .groupAsleep => 6 | .testBusy => 7 | .notHeld => 8 | .conditionPresent => 9 | .notYet => 10 | .selfTestFailed => 11

/-- The reason field of CALL_EVENT. -/
def Note.code : Note → Byte
  | .because r => r.code
  | .misdial => 12 | .digitLost => 13 | .flashIgnored => 14

/-- Cause of a GROUP_EVENT, in the order of R41. -/
def GroupCause.code : GroupCause → Byte
  | .request => 0 | .linesIdle => 1 | .offHook => 2 | .incoming => 3 | .fault => 4 | .settled => 5

/-- Grant of a TEST_EVENT, in the order of Table 11.5. -/
def Grant.code : Grant → Byte
  | .immediate => 0 | .callEnd => 1 | .forced => 2

/-- Change of an ALARM_EVENT, in the order of Table 11.5. -/
def AlarmChange.code : AlarmChange → Byte
  | .raised => 0 | .conditionEnded => 1

/-- Cause of a MODE_EVENT, in the order of R175. -/
def ModeCause.code : ModeCause → Byte
  | .request => 0 | .callsEnded => 1

/-- Alarm kind and subject (Table 11.6). -/
def AlarmId.code : AlarmId → Byte × Byte
  | .trunkDown => (0, Config.noSubject)
  | .linkImpaired => (1, Config.noSubject)
  | .slotSuspect i => (2, byte (slotNo i))
  | .lineFault p => (3, byte p.val)
  | .contact p => (4, byte p.val)

/-- A yes-or-no field: 0 for no, clear or absent and 1 for yes, set or present. Table 12.5 gives this for the fields that it names; for
tag known, clear sent, block pending, the condition of an alarm and fault present it is the model's choice (log 35, DEDUCED). -/
def flagCode (b : Bool) : Byte := if b then 1 else 0

end Sys2Proof.Machine
end

