-- ==== Sys2Proof/Machine/Formats.lean ====
section
/-! DEFINITION. What the part sends, in octets (spec/12): trunk frames, trunk messages, replies and reports. Layout points that
the spec leaves open are in logs 15, 16 and 35. -/

namespace Sys2Proof.Machine

/-! ## Trunk (R197, R198) -/

/-- A trunk frame with given bearer octets and signalling octets (Table 12.1). -/
def trunkFrameOf (bearer : List Byte) (sig1 sig2 : Byte) : List Byte :=
  let covered := bearer ++ [sig1, sig2]
  Config.alignHigh :: Config.alignLow :: (covered ++ [crc8 covered])

/-- The items of a RESTART: tag, slot and line number of each HELD slot, in the order of slot number (R138). -/
def restartItems (s : State) : List Byte :=
  allSlots.flatMap fun i =>
    match s.slots.at i with
    | .held c _ => byte c.tag :: byte (slotNo i) :: twoBytes (((s.ports.at c.line).number?).getD 0)
    | _ => []

/-- The octets of an entry's message when it starts sending; `digits` are the digits it takes (R156, Table 12.3). -/
def messageOctets (s : State) (m : Msg) (digits : List Digit) : List Byte :=
  match m with
  | .ofSlot i p tag .seize =>
    trunkMessage 0x01 (byte tag :: byte (slotNo i) :: (twoBytes (((s.ports.at p).number?).getD 0)
      ++ [(s.ports.at p).seizeClass, flagCode (s.buffers.at p).lost]))
  | .ofSlot _ _ tag .digits => trunkMessage 0x02 (byte tag :: digits.map fun d => byte d.val)
  | .ofSlot _ _ tag .flash => trunkMessage 0x03 [byte tag]
  | .ofSlot _ _ tag .answer => trunkMessage 0x04 [byte tag]
  | .ofSlot _ _ tag (.clear r) => trunkMessage 0x05 [byte tag, r.code]
  | .ofSlot _ _ tag .clearAck => trunkMessage 0x06 [byte tag]
  | .ofSlot i _ tag (.offer ref) => trunkMessage 0x07 (twoBytes ref.toNat ++ [byte tag, byte (slotNo i)])
  | .ofNone (.refuse ref r) => trunkMessage 0x08 (twoBytes ref.toNat ++ [r.code])
  | .ofNone (.clearAck tag) => trunkMessage 0x06 [tag]
  | .ofNone .restart => trunkMessage 0x09 (restartItems s)

/-- The code of an entry's message kind (Table 12.3). -/
def Msg.code : Msg → Byte
  | .ofSlot _ _ _ .seize => 0x01
  | .ofSlot _ _ _ .digits => 0x02
  | .ofSlot _ _ _ .flash => 0x03
  | .ofSlot _ _ _ .answer => 0x04
  | .ofSlot _ _ _ (.clear _) => 0x05
  | .ofSlot _ _ _ .clearAck => 0x06
  | .ofSlot _ _ _ (.offer _) => 0x07
  | .ofNone (.refuse _ _) => 0x08
  | .ofNone (.clearAck _) => 0x06
  | .ofNone .restart => 0x09

/-! ## Fields of data replies (R200) -/

/-- A field that is present only in some states: 1 and its octets, or 0 alone. -/
def field (present : Option (List Byte)) : List Byte :=
  match present with
  | some octets => 1 :: octets
  | none => [0]

/-- A list preceded by its count. -/
def counted (items : List (List Byte)) : List Byte := byte items.length :: items.flatten

/-- Milliseconds as whole seconds, rounded up. -/
def secondsUp (ms : Nat) : Nat := (ms + 999) / 1000

/-- A line timer: its kind, WAIT_LIMIT 0 or RING_LIMIT 1, and the whole seconds left (R200, Table 12.5). -/
def lineTime (kind : Byte) (t : Option Nat) : List Byte := field (t.map fun ms => [kind, byte (secondsUp ms)])

/-- The line timer of a line record: its kind follows from the state (4.5). -/
def lineTimerField (l : Line) : List Byte := lineTime (if l.state = .queued then 0 else 1) l.timer

/-- The slot of a line record. -/
def slotField (l : Line) : List Byte := field (l.call.map fun c => [byte (slotNo c.1)])

/-- The direction of a line record. -/
def directionField (l : Line) : List Byte := field (l.call.map fun c => [c.2.code])

/-- A port record (Table 1.5); the ring bus has no code in the spec (log 15). -/
def portRecord (p : Port) (r : PortRole) : List Byte :=
  [byte p.val, r.code] ++ field (r.number?.map twoBytes) ++ field (r.class?.map fun c => [c.code])
    ++ [Config.ringBusCode (decide (busOf p = 1)), byte (groupOf p).val]

/-- A line record as R54 lists it, with fields that Table 4.1 gives only some states sent as such. Of the digit buffer it carries the
waiting digits alone, as R54 has it, and neither the lent count nor the lost mark of Table 2.2 (log 16).
Fault present is sent as a fault state, 0 or 1 (log 35, DEDUCED). -/
def lineRecord (l : Line) (digits : List Digit) (pulses : Nat) (withLine : Bool) : List Byte :=
  l.state.code :: (slotField l ++ directionField l ++ lineTimerField l
    ++ field (if withLine then some (counted (digits.map fun d => [byte d.val])) else none)
    ++ field (if withLine then some [byte pulses] else none)
    ++ field (if l.state.called || decide (l.state = .activeIn) then some [flagCode l.answerOwed] else none)
    ++ field (if l.state.active then some [flagCode l.flashOwed] else none)
    ++ field (if withLine then some [flagCode l.faultPresent] else none))

/-- The test bus record. -/
def busRecord : TestBus → List Byte
  | .free => 0 :: field none
  | .claimed p => 1 :: field (some [byte p.val])
  | .held p => 2 :: field (some [byte p.val])

/-- QUERY_LINE (Table 11.4). -/
def linePicture (pic : LinePicture) : List Byte :=
  portRecord pic.port pic.role ++ lineRecord pic.line pic.buffer pic.scan.pulses pic.role.hasLine
    ++ [if pic.role = .monitor then contactCode pic.scan.contact else pic.scan.hook.code, flagCode pic.scan.fault]
    ++ counted (pic.buffer.map fun d => [byte d.val]) ++ [pic.group.code, flagCode pic.wake] ++ busRecord pic.bus

/-- A slot reply timer: kind, run, milliseconds left. -/
def replyTimerField (t : Option ReplyTimer) : List Byte :=
  field (t.map fun t => t.kind.code :: t.run.code :: twoBytes t.left)

/-- A clear owed field; the spec gives its octets no code (log 15). -/
def clearOwedField : Option ClearOwed → List Byte
  | none => Config.clearOwedNone
  | some (.clear r) => Config.clearOwedClear r.code
  | some .clearAck => Config.clearOwedAck

/-- The former line and clear side of a slot in CLEARING. -/
def clearingFields : Slot → Option (Port × ClearSide)
  | .clearing p _ side _ => some (p, side)
  | _ => none

/-- A slot record with its signalling record (Table 5.1, Table 8.4). Table 12.5 gives no code for block pending, tag known and clear
sent; the model sends 0 for no and 1 for yes (log 35, DEDUCED). -/
def slotRecord (i : SlotId) (sl : Slot) (g : Sig) : List Byte :=
  [byte (slotNo i), sl.code]
    ++ field (sl.call?.map fun c => [byte c.line.val])
    ++ field ((clearingFields sl).map fun c => [byte c.1.val])
    ++ field (sl.tag?.map fun t => [byte t])
    ++ field (sl.call?.map fun c => [c.direction.code])
    ++ field (sl.call?.map fun c => [flagCode c.answered])
    ++ field (sl.call?.map fun c => twoBytes c.order)
    ++ field ((clearingFields sl).map fun c => [c.2.code])
    ++ field (if sl.inUse then some [flagCode sl.blockPending] else none)
    ++ field (match sl with | .blocked why => some [why.code] | _ => none)
    ++ [flagCode g.tagKnown, flagCode g.clearSent] ++ replyTimerField g.timer ++ clearOwedField g.owed

/-- QUERY_SLOTS (Table 11.4). The twenty slot records are sent as a list, with the count 20 before them (log 16). -/
def slotsPicture (pic : SlotsPicture) : List Byte :=
  counted (List.zipWith (fun i r => slotRecord i r.1 r.2) allSlots pic.slots)
    ++ counted (pic.free.map fun i => [byte (slotNo i)])
    ++ [byte pic.active, pic.posture.code] ++ field (pic.mark.map fun i => [byte (slotNo i)])
    ++ [byte pic.nextTag] ++ twoBytes pic.nextOrder

/-- An entry of the transmit queue with whether it is in flight (R150). -/
def entryRecord (e : Entry) (flying : Bool) : List Byte :=
  let tag := match e.msg with
    | .ofSlot _ _ t _ => some [byte t]
    | .ofNone (.clearAck t) => some [t]
    | .ofNone _ => none
  e.msg.code :: (field (e.slot?.map fun i => [byte (slotNo i)]) ++ field (e.line?.map fun p => [byte p.val]) ++ field tag
    ++ [flagCode e.pinned, flagCode flying])

/-- QUERY_QUEUES (Table 11.4). The six cells are fields and no list, so no count stands before them; each cell is a list (log 16). -/
def queuesPicture (pic : QueuesPicture) : List Byte :=
  counted (pic.waiting.map fun w => [byte w.1.val, w.2.1.code] ++ lineTime 0 w.2.2)
    ++ [byte pic.phase.val]
    ++ (pic.cells.map fun cell =>
        counted (cell.map fun e => byte e.1.port.val :: (twoBytes e.1.number ++ [e.2.code]))).flatten
    ++ counted (pic.ringQueue.map fun w =>
        [byte w.1.val, w.2.1.code, Config.ringBusCode (decide (busOf w.1 = 1))] ++ lineTime 1 w.2.2)
    ++ counted (match pic.txq with
        | [] => []
        | e :: rest => entryRecord e pic.inFlight :: rest.map fun e => entryRecord e false)
    ++ [pic.flow.code]

/-- QUERY_LINK (Table 11.4, in the order of R124). -/
def linkPicture (pic : LinkPicture) : List Byte :=
  [pic.link.code, byte pic.score, pic.align.code] ++ twoBytes pic.run
    ++ [flagCode pic.releaseFlag, flagCode pic.cabinet, byte pic.holdoverTime]
    ++ field (pic.holdover.map twoBytes) ++ field (pic.restart.map fun t => t.1.code :: twoBytes t.2)

/-- The identity of the part (R184). -/
def identity : List Byte := byte Config.vendorCode :: (twoBytes Config.partCode ++ [byte Config.revision])

/-- The eight parameters, in the order of Table 10.2. -/
def paramsOctets (ps : Params) : List Byte :=
  byte ps.debounce :: (twoBytes ps.flashMax ++ twoBytes ps.interdigit
    ++ [byte ps.waitLimit, byte ps.ringLimit, byte ps.holdover, flagCode ps.cabinetRelease, flagCode ps.preempt])

/-- The kind of the request that a data reply answers, and the contents of the reply (R200, Table 11.4). Table 12.5 gives no code for
the condition of an alarm; the model sends 0 for absent and 1 for present (log 35, DEDUCED). -/
def dataOctets : DataReply → Byte × List Byte
  | .identify t m p ps => (0x01, identity ++ [t.code, m.code, p.code] ++ paramsOctets ps)
  | .line pic => (0x0F, linePicture pic)
  | .slots pic => (0x10, slotsPicture pic)
  | .queues pic => (0x11, queuesPicture pic)
  | .link pic => (0x12, linkPicture pic)
  | .alarms list => (0x13, counted (list.map fun a => [a.id.code.1, a.id.code.2, flagCode a.present]))

/-- The frame of a reply (R200). -/
def replyFrame (r : Reply) (lost : Bool) : List Byte :=
  match r.outcome with
  | .done => controlFrame r.num 0x21 [flagCode lost]
  | .refused why => controlFrame r.num 0x22 [flagCode lost, why.code]
  | .data d => controlFrame r.num 0x23 (flagCode lost :: (dataOctets d).1 :: (dataOctets d).2)

/-- The kind and the contents of a report (R200, Table 11.5). -/
def reportOctets : Report → Byte × List Byte
  | .callEvent p st n => (0x41, [byte p.val, st.code, n.code])
  | .linkEvent l score => (0x42, [l.code, byte score])
  | .groupEvent g st c => (0x43, [byte g.val, st.code, c.code])
  | .testEvent p g => (0x44, [byte p.val, g.code])
  | .alarmEvent a c => (0x45, [a.code.1, a.code.2, c.code])
  | .monitorEvent p c => (0x46, [byte p.val, contactCode c])
  | .modeEvent m c => (0x47, [m.code, c.code])
  | .start t k => (0x48, identity ++ [t.code, k.code])

/-- The frame of a report: request number 0 (R200). -/
def reportFrame (r : Report) (lost : Bool) : List Byte :=
  controlFrame 0 (reportOctets r).1 (flagCode lost :: (reportOctets r).2)

/-- The octets of the record being sent on the control port, none while the transmitter is IDLE (R192). -/
def sendingOctets (s : State) : List Byte :=
  match s.tx with
  | .idle => []
  | .sendingReply lost _ => (s.reply.map fun r => replyFrame r lost).getD []
  | .sendingReport r lost _ => reportFrame r lost

end Sys2Proof.Machine
end

