-- ==== Sys2Proof/Machine/Operands.lean ====
section
/-! DEFINITION. What a request carries: each kind's body read by the form check of R201 (none where the form fails), and the
values of Table 12.5 it spells. -/

namespace Sys2Proof.Machine

/-- A body that must be empty (R200). -/
def emptyBody : List Byte → Option Unit
  | [] => some ()
  | _ => none

/-- A body of one octet. -/
def oneOctet : List Byte → Option Nat
  | [x] => some x.toNat
  | _ => none

/-- A body of one octet whose code must be below `n`. -/
def oneCode (n : Nat) (body : List Byte) : Option Nat := (oneOctet body).filter fun x => decide (x < n)

/-- A body of a number and a yes-or-no code: GROUP_STANDBY and TEST_CLAIM. -/
def numberAndFlag : List Byte → Option (Nat × Bool)
  | [x, f] => if f.toNat ≤ 1 then some (x.toNat, decide (f.toNat = 1)) else none
  | _ => none

/-- The fields of a MAP_SET: port, role code, line number, class code. The class is checked for its coding only where R11 does
not ignore it, that is for a SUBSCRIBER (R201). -/
def mapSetFields : List Byte → Option (Nat × Nat × Nat × Nat)
  | [p, r, hi, lo, c] =>
    if r.toNat ≤ 3 ∧ (r.toNat = 1 → c.toNat ≤ 2) then some (p.toNat, r.toNat, ofTwoBytes hi lo, c.toNat) else none
  | _ => none

/-- The role that the fields of a MAP_SET spell, with the number and class it then has; none where R11 answers BAD_VALUE. -/
def mapSetRole (role number cls : Nat) : Option PortRole :=
  match role with
  | 0 => some .unequipped
  | 1 =>
    if 1 ≤ number ∧ number ≤ 9999 then
      match cls with
      | 0 => some (.subscriber number .ordinary)
      | 1 => some (.subscriber number .priority)
      | _ => none
    else none
  | 2 => if 1 ≤ number ∧ number ≤ 9999 then some (.hotline number) else none
  | 3 => some .monitor
  | _ => none

/-- The fields of a PARAM_SET: parameter code and value; the values of RELEASE_MODE and PREEMPT have a coding of two. -/
def paramSetFields : List Byte → Option (Nat × Nat)
  | [k, hi, lo] =>
    let v := ofTwoBytes hi lo
    if k.toNat ≤ 7 ∧ (6 ≤ k.toNat → v ≤ 1) then some (k.toNat, v) else none
  | _ => none

/-- The parameter set with one parameter, by its place in Table 10.2, given a value; none where the value is outside the range
of Table 10.2. -/
def Params.withValue (ps : Params) (k v : Nat) : Option Params :=
  match k with
  | 0 => if 8 ≤ v ∧ v ≤ 32 then some { ps with debounce := v } else none
  | 1 => if 300 ≤ v ∧ v ≤ 1000 then some { ps with flashMax := v } else none
  | 2 => if 150 ≤ v ∧ v ≤ 500 then some { ps with interdigit := v } else none
  | 3 => if 10 ≤ v ∧ v ≤ 120 then some { ps with waitLimit := v } else none
  | 4 => if 20 ≤ v ∧ v ≤ 180 then some { ps with ringLimit := v } else none
  | 5 => if v ≤ 30 then some { ps with holdover := v } else none
  | 6 => if v ≤ 1 then some { ps with cabinetRelease := decide (v = 1) } else none
  | 7 => if v ≤ 1 then some { ps with preempt := decide (v = 1) } else none
  | _ => none

/-- A posture by its code. -/
def postureOfCode : Nat → Posture
  | 0 => .mains
  | 1 => .battery
  | _ => .reserve

/-- The fields of an ALARM_ACK: alarm kind code below 5, subject octet. -/
def alarmAckFields : List Byte → Option (Nat × Nat)
  | [k, x] => if k.toNat ≤ 4 then some (k.toNat, x.toNat) else none
  | _ => none

/-- The alarm that a kind and a subject name; none where the subject does not fit the kind (R196). -/
def alarmOf (kind subject : Nat) : Option AlarmId :=
  match kind with
  | 0 => if subject = Config.noSubject.toNat then some .trunkDown else none
  | 1 => if subject = Config.noSubject.toNat then some .linkImpaired else none
  | 2 => (slotOfNo subject).map .slotSuspect
  | 3 => (portOfNo subject).map .lineFault
  | 4 => ((portOfNo subject).filter fun p => decide (56 ≤ p.val)).map .contact
  | _ => none

/-- The rate that the two rate straps choose (Table 11.2). -/
def rateOfStraps (high low : Bool) : Rate :=
  match high, low with
  | false, false => .r9600
  | false, true => .r19200
  | true, false => .r38400
  | true, true => .r57600

/-- Tenths of a bit that the control line carries in one millisecond. -/
def Rate.tenthsPerMs : Rate → Nat
  | .r9600 => 96 | .r19200 => 192 | .r38400 => 384 | .r57600 => 576

end Sys2Proof.Machine
end

