-- ==== Sys2Proof/Machine/Ops.lean ====
section
/-! DEFINITION. The named operations over what the part holds: one record of a table replaced, reports, replies and the
transmitter, alarms, digit buffers and scanner records. No meaning writes these by hand. -/

namespace Sys2Proof.Machine

/-! ## One record replaced -/

/-- A port's role. -/
def setPort (p : Port) (r : PortRole) (s : State) : State := { s with ports := s.ports.put p r }
/-- A port's scanner record. -/
def setScan (p : Port) (c : Scanner) (s : State) : State := { s with scan := s.scan.put p c }
/-- A line's digit buffer. -/
def setBuffer (p : Port) (b : DigitBuffer) (s : State) : State := { s with buffers := s.buffers.put p b }
/-- A scan group's record. -/
def setGroup (g : GroupId) (r : Group) (s : State) : State := { s with groups := s.groups.put g r }
/-- A line's record. -/
def setLine (p : Port) (l : Line) (s : State) : State := { s with lines := s.lines.put p l }
/-- A slot's record. -/
def setSlot (i : SlotId) (sl : Slot) (s : State) : State := { s with slots := s.slots.put i sl }
/-- A slot's signalling record. -/
def setSig (i : SlotId) (g : Sig) (s : State) : State := { s with sig := s.sig.put i g }
/-- A cell of the ring phase table. -/
def setCell (k : Fin 6) (c : List Placed) (s : State) : State := { s with cells := s.cells.put k c }
/-- A hook sense pin. -/
def setHookPin (p : Port) (closed : Bool) (s : State) : State := { s with hookPin := s.hookPin.put p closed }
/-- A fault sense pin. -/
def setFaultPin (p : Port) (faulty : Bool) (s : State) : State := { s with faultPin := s.faultPin.put p faulty }
/-- The alarm list. -/
def setAlarms (a : List Alarm) (s : State) : State := { s with alarms := a }
/-- The wait queue. -/
def setWaitQueue (q : List Port) (s : State) : State := { s with waitQueue := q }
/-- The ring queue. -/
def setRingQueue (q : List Port) (s : State) : State := { s with ringQueue := q }
/-- The transmit queue. -/
def setTxq (q : List Entry) (s : State) : State := { s with txq := q }
/-- The test bus. -/
def setBus (b : TestBus) (s : State) : State := { s with bus := b }
/-- The operating mode. -/
def setMode (m : Mode) (s : State) : State := { s with mode := m }
/-- The link state. -/
def setLink (l : LinkState) (s : State) : State := { s with link := l }
/-- The free slot list. -/
def setFree (f : List SlotId) (s : State) : State := { s with free := f }
/-- The preemption mark. -/
def setMark (m : Option SlotId) (s : State) : State := { s with mark := m }

/-- The next tag. -/
def setNextTag (n : Nat) (s : State) : State := { s with nextTag := n }
/-- The next reservation order. -/
def setNextOrder (n : Nat) (s : State) : State := { s with nextOrder := n }

/-- Each element of a list acts in turn. -/
def inTurn {α : Type} (xs : List α) (f : α → State → State) (s : State) : State := xs.foldl (fun t x => f x t) s

/-! ## The transmitter (R192) -/

/-- The transmitter starts what it can: the reply that waits, else the head report, which leaves the queue. It holds while a
request can be taken or a warm reset is due, so that the reply goes first and the reset begins at once (log 7). -/
def serve (s : State) : State :=
  if s.power = .running ∧ s.tx = .idle then
    match s.reply with
    | some _ => { s with tx := .sendingReply s.requestLost 0, requestLost := false }
    | none =>
      if s.requests ≠ [] ∨ s.warm = .due then s
      else
        match s.reports with
        | [] => s
        | r :: rest => { s with tx := .sendingReport r s.reportLost 0, reports := rest, reportLost := false }
  else s

/-- What an event of the running part does. The transmitter, where it is IDLE with something to send, as after a reset with START, starts
that ahead of the event (R192; log 8). In a cold reset the part makes no event (R183; log 1). -/
def whileRunning (f : State → State) (s : State) : State := if s.power = .running then f (serve s) else s

/-- A report joins the queue, or is discarded where 32 wait (R194). -/
def queueReport (r : Report) (s : State) : State :=
  if s.reports.length < Config.reportPlaces then { s with reports := s.reports ++ [r] } else { s with reportLost := true }

/-- A report is made: it joins the queue, and starts at once where the transmitter is IDLE (R192, R194; log 9). -/
def report (r : Report) (s : State) : State := serve (queueReport r s)

/-- A reply is put in the reply slot (R191). -/
def answer (num : Byte) (o : ReplyOutcome) (s : State) : State :=
  serve { s with reply := some { num := num, outcome := o } }

/-- CALL_EVENT with a reason (R55). -/
def callEvent (p : Port) (st : LineState) (r : Reason) (s : State) : State := report (.callEvent p st (.because r)) s

/-- CALL_EVENT with the line's present state and one of the three notes that are no transition (R55). -/
def noteEvent (p : Port) (n : Note) (s : State) : State := report (.callEvent p (s.lines.at p).state n) s

/-! ## Alarms (R195) -/

/-- The entry of an alarm. -/
def alarmEntry (s : State) (a : AlarmId) : Option Alarm := s.alarms.find? fun e => decide (e.id = a)

/-- The condition field of an alarm's entry marked. -/
def markAlarm (a : AlarmId) (present : Bool) (s : State) : State :=
  setAlarms (s.alarms.map fun e => if e.id = a then { e with present := present } else e) s

/-- The condition of an alarm begins; nothing changes where it is already present. -/
def beginCondition (a : AlarmId) (s : State) : State :=
  match alarmEntry s a with
  | none => report (.alarmEvent a .raised) (setAlarms (s.alarms ++ [{ id := a, present := true }]) s)
  | some e => if e.present then s else report (.alarmEvent a .raised) (markAlarm a true s)

/-- The condition of an alarm ends; nothing changes where no entry holds it present. -/
def endCondition (a : AlarmId) (s : State) : State :=
  match alarmEntry s a with
  | some e => if e.present then report (.alarmEvent a .conditionEnded) (markAlarm a false s) else s
  | none => s

/-! ## Scanner records and digit buffers -/

/-- The digit buffer of a line is emptied (R33). -/
def emptyBuffer (p : Port) (s : State) : State := setBuffer p DigitBuffer.empty s

/-- A scanner record with every run at 0 (R45, R50, R51). -/
def Scanner.runsCleared (c : Scanner) : Scanner := { c with openRun := 0, closedRun := 0, heldRun := 0, faultRun := 0 }

/-- A scanner record with the pulse count 0 and overrun no (R23, R29). -/
def Scanner.trainCleared (c : Scanner) : Scanner := { c with pulses := 0, overrun := false }

/-- A scanner record whose hook sense is suspended (R22). -/
def Scanner.suspended (c : Scanner) : Scanner := { c with hook := .onHook, openRun := 0, closedRun := 0, heldRun := 0 }

/-- Every run of the ports of a group becomes 0. -/
def clearRuns (g : GroupId) (s : State) : State :=
  inTurn (portsOf g) (fun p t => setScan p (t.scan.at p).runsCleared t) s

/-- A closed run of at least `run` milliseconds is under way. -/
def Scanner.closedFor (c : Scanner) (run : Nat) : Scanner :=
  { c with closedRun := max c.closedRun run, openRun := 0, heldRun := 0 }

/-- An open run of at least `run` milliseconds is under way. -/
def Scanner.openFor (c : Scanner) (run : Nat) : Scanner :=
  { c with openRun := max c.openRun run, closedRun := 0, heldRun := if c.openRun = 0 then c.closedRun else c.heldRun }

/-- Runs after a sample at which a debounced change of a contact to `c` is accepted. -/
def Scanner.contactTaken (sc : Scanner) (c : ContactState) (run : Nat) : Scanner :=
  match c with
  | .closed => { sc.closedFor run with contact := .closed }
  | .opened => { sc.openFor run with contact := .opened }

/-! ## Signalling records -/

/-- A slot's reply timer stops. -/
def stopReplyTimer (i : SlotId) (s : State) : State := setSig i { s.sig.at i with timer := none } s

/-- A slot's clear owed field is set. -/
def setClearOwed (i : SlotId) (o : Option ClearOwed) (s : State) : State := setSig i { s.sig.at i with owed := o } s

/-! ## Queues by class (R88, R109) -/

/-- The line joins behind the last of its class: a PRIORITY line ahead of every ORDINARY line, an ORDINARY line at the tail. -/
def joinByClass (s : State) (p : Port) (q : List Port) : List Port :=
  if isPriority s p then q.takeWhile (isPriority s) ++ p :: q.dropWhile (isPriority s) else q ++ [p]

end Sys2Proof.Machine
end

