-- ==== Sys2Proof/Machine/RingPhases.lean ====
section
/-! DEFINITION. The ring phase table and the ring queue (spec/06): placing, scanning and leaving. -/

namespace Sys2Proof.Machine

/-- The cell of a phase on a bus: the three phases of bus A, then the three of bus B (section 6.2). -/
def cellOf (phase : Fin 3) (bus : Fin 2) : Fin 6 := ⟨3 * bus.val + phase.val, by omega⟩

/-- The phase after a phase (R104). -/
def nextPhase (c : Fin 3) : Fin 3 := ⟨(c.val + 1) % 3, Nat.mod_lt _ (by decide)⟩

/-- The order in which the cells of a bus are tried: the next phase, the one after it, the running phase (R108). -/
def trialOrder (c : Fin 3) (bus : Fin 2) : List (Fin 6) :=
  [cellOf (nextPhase c) bus, cellOf (nextPhase (nextPhase c)) bus, cellOf c bus]

/-- Whether a cell has room under the posture (R105). -/
def hasRoom (s : State) (k : Fin 6) : Bool := decide ((s.cells.at k).length < s.posture.ringCapacity)

/-- The first cell with room on the port's bus (R108). -/
def roomFor (s : State) (p : Port) : Option (Fin 6) := (trialOrder s.phase (busOf p)).find? (hasRoom s)

/-- All cells. -/
def allCells : List (Fin 6) := List.finRange 6

/-- The placed lines of every cell. -/
def allPlaced (s : State) : List Placed := allCells.flatMap fun k => s.cells.at k

/-- Whether the line stands in a cell. -/
def isPlaced (s : State) (p : Port) : Bool := (allPlaced s).any fun e => decide (e.port = p)

/-- The number of a placed line after renumbering: its place in the order of the numbers (R106). -/
def renumbered (all : List Placed) (e : Placed) : Placed :=
  { e with number := 1 + (all.filter fun f => decide (f.number < e.number)).length }

/-- The placement counter moves on; at the value 65535 the placed lines are renumbered 1 to k (R106). -/
def advancePlacement (s : State) : State :=
  if s.nextPlacement < Config.lastOrder then { s with nextPlacement := s.nextPlacement + 1 }
  else
    let all := allPlaced s
    { s with cells := s.cells.map fun c => c.map (renumbered all), nextPlacement := all.length + 1 }

/-- A line joins the tail of a cell with the next placement number (R108). -/
def placeIn (k : Fin 6) (p : Port) (s : State) : State :=
  advancePlacement (setCell k (s.cells.at k ++ [{ port := p, number := s.nextPlacement }]) s)

/-- A line handed to the Ring Scheduler is placed, or joins the ring queue (R107, R108, R109). -/
def handOn (p : Port) (s : State) : State :=
  match roomFor s p with
  | some k => placeIn k p s
  | none => setRingQueue (joinByClass s p s.ringQueue) s

/-- One queued line is placed if its bus has a cell with room (R110). -/
def scanOne (p : Port) (s : State) : State :=
  match roomFor s p with
  | some k => placeIn k p (setRingQueue (s.ringQueue.erase p) s)
  | none => s

/-- A scan of the ring queue, from head to tail (R110). -/
def scanRing (s : State) : State := inTurn s.ringQueue scanOne s

/-- A line leaves its cell or the ring queue, and its ring drive goes off at once (R113). -/
def leaveRing (p : Port) (s : State) : State :=
  { s with
    cells := s.cells.map fun c => c.filter fun e => decide (e.port ≠ p)
    ringQueue := s.ringQueue.erase p
    ringDrive := s.ringDrive.put p false }

/-- The ring phase table and the ring queue are emptied and every ring drive goes off (R114). -/
def emptyRing (s : State) : State :=
  { s with cells := Table.all 6 [], ringQueue := [], ringDrive := Table.all 64 false }

/-- A placed line put in its place among placed lines in the order of their numbers, lowest first. -/
def insertByNumber (e : Placed) : List Placed → List Placed
  | [] => [e]
  | f :: rest => if e.number ≤ f.number then e :: f :: rest else f :: insertByNumber e rest

/-- Placed lines in the order of their placement numbers, lowest first. -/
def byNumber (l : List Placed) : List Placed := l.foldr insertByNumber []

/-- The ring drives as the cells of the running phase give them (R111). -/
def driveRunningPhase (s : State) : State :=
  { s with ringDrive := Vector.ofFn fun p => (s.cells.at (cellOf s.phase (busOf p))).any fun e => decide (e.port = p) }

end Sys2Proof.Machine
end

