-- ==== Sys2Proof/Machine/TransmitQueue.lean ====
section
/-! DEFINITION. The transmit queue and what a slot owes (spec/08): making, converting and removing entries, overtaking, freeing
a slot and releasing it with a message owed. -/

namespace Sys2Proof.Machine

/-! ## Joining the queue (R150, R151, R155) -/

/-- Whether an urgent entry of a line can overtake: no entry is pinned and no queued entry names the line (R155). -/
def canOvertake (s : State) (p : Option Port) : Bool :=
  s.txq.all (fun e => !e.pinned) && (queuedEntries s).all fun e => decide (p = none ∨ e.line? ≠ p)

/-- An entry with its pinned mark set. -/
def Entry.pin (e : Entry) : Entry := { e with pinned := true }

/-- An entry is made: at the tail, or, if it is urgent and can overtake, first among the queued entries, pinning each entry it
passes (R155). -/
def addEntry (urgent : Bool) (m : Msg) (s : State) : State :=
  let e : Entry := { msg := m, pinned := false }
  if urgent && canOvertake s e.line? then
    setTxq (s.txq.take (flightCount s) ++ e :: (queuedEntries s).map Entry.pin) s
  else setTxq (s.txq ++ [e]) s

/-- An entry that names no slot is made if one of its four places is free, and otherwise is not made (R151). -/
def addFreeEntry (m : FreeMsg) (s : State) : State := if freePlace s then addEntry false (.ofNone m) s else s

/-- A RESTART that is owed is made where a place is free, in RESYNC alone (R138). -/
def makeRestart (s : State) : State :=
  if s.restartOwed ∧ s.link = .resync ∧ freePlace s then
    { addEntry false (.ofNone .restart) s with restartOwed := false }
  else s

/-- An entry of a slot is made, with the line and the tag the slot now names. -/
def addSlotEntry (urgent : Bool) (i : SlotId) (m : SlotMsg) (s : State) : State :=
  match (s.slots.at i).party? with
  | some (p, tag) => addEntry urgent (.ofSlot i p tag m) s
  | none => s

/-! ## Removing and converting -/

/-- Every entry of a slot leaves the queue; the one in flight is abandoned (R154). -/
def removeEntries (i : SlotId) (s : State) : State :=
  let flying := if flightSlot s = some i then none else s.inFlight
  { s with txq := s.txq.filter (fun e => decide (e.slot? ≠ some i)), inFlight := flying }

/-- A slot's message replaced by another in the same place. -/
def Entry.withSlotMsg (m : SlotMsg) (e : Entry) : Entry :=
  match e.msg with
  | .ofSlot i p tag _ => { e with msg := .ofSlot i p tag m }
  | .ofNone _ => e

/-- The slot's entry becomes another message in its place and keeps its pinned mark (R152). -/
def convertEntry (i : SlotId) (m : SlotMsg) (s : State) : State :=
  setTxq (s.txq.map fun e => if e.slot? = some i then e.withSlotMsg m else e) s

/-- The message of an owed clear item. -/
def ClearOwed.msg : ClearOwed → SlotMsg
  | .clear r => .clear r
  | .clearAck => .clearAck

/-- The clear side of a slot for which the item is owed (R152). -/
def ClearOwed.side : ClearOwed → ClearSide
  | .clear r => .awaitAck r
  | .clearAck => .oweAck

/-! ## What a slot owes (R73, R151) -/

/-- The line of a slot makes what it owes: ANSWER, then FLASH, then DIGITS; only the first. -/
def makeLineOwed (i : SlotId) (p : Port) (s : State) : State :=
  let l := s.lines.at p
  if l.answerOwed then addSlotEntry false i .answer (setLine p { l with answerOwed := false } s)
  else if l.flashOwed then addSlotEntry false i .flash (setLine p { l with flashOwed := false } s)
  else if l.state.active ∧ (s.buffers.at p).digits ≠ [] then addSlotEntry false i .digits s
  else s

/-- The next entry of a slot is made from what is owed, if no entry names the slot. -/
def makeOwed (i : SlotId) (s : State) : State :=
  if hasEntry s i then s
  else
    match (s.sig.at i).owed with
    | some o => addSlotEntry false i o.msg (setClearOwed i none s)
    | none =>
      match s.slots.at i with
      | .busy c _ => makeLineOwed i c.line s
      | _ => s

/-! ## Slots leaving their calls (R57, R80, R152) -/

/-- The preemption mark clears if it names the slot (R100). -/
def clearMarkOf (i : SlotId) (s : State) : State := setMark (if s.mark = some i then none else s.mark) s

/-- A slot in use becomes FREE at the tail of the free slot list, or BLOCKED with reason CABINET where block pending is set. Its
signalling record is cleared and a preemption mark that names it clears (R80, R100, R143). -/
def freeSlot (i : SlotId) (s : State) : State :=
  if (s.slots.at i).inUse then
    let t := clearMarkOf i (setSig i Sig.cleared s)
    if (s.slots.at i).blockPending then setSlot i (.blocked .cabinet) t
    else setFree (t.free ++ [i]) (setSlot i .free t)
  else s

/-- What becomes of the slot's queued entry when a clear item becomes owed (Table 8.6). A queued SEIZE whose tag is not known is
removed, and the slot takes a local release instead. -/
def supersede (i : SlotId) (o : ClearOwed) (s : State) : State :=
  match queuedEntry s i with
  | some e =>
    if e.slotMsg? = some .seize ∧ (s.sig.at i).tagKnown = false then freeSlot i (removeEntries i s)
    else convertEntry i o.msg s
  | none => if flightSlot s = some i then setClearOwed i (some o) s else addSlotEntry false i o.msg s

/-- A line releases its slot with CLEAR or CLEAR_ACK owed (R57, R152). -/
def releaseOwing (i : SlotId) (o : ClearOwed) (s : State) : State :=
  match (s.slots.at i).call? with
  | some c =>
    supersede i o (stopReplyTimer i (setSlot i (.clearing c.line c.tag o.side (s.slots.at i).blockPending) s))
  | none => s

end Sys2Proof.Machine
end

