-- ==== Sys2Proof/Machine/Lines.lean ====
section
/-! DEFINITION. A line's change of state with everything that follows from it (R56), the grant of the test bus in its place
(R74), and what becomes of a scan group (spec/03). -/

namespace Sys2Proof.Machine

/-! ## Scan groups (R44, R45, R50) -/

/-- A group enters STANDBY: its runs become 0 and the slow scan starts (R45). -/
def enterStandby (g : GroupId) (c : GroupCause) (s : State) : State :=
  report (.groupEvent g .standby c)
    (setGroup g { s.groups.at g with state := .standby, settle := none, slow := some Config.slowScanPeriod } (clearRuns g s))

/-- A group enters WAKING: the slow scan stops, the settle timer starts and the runs begin at 0 (R50). -/
def enterWaking (g : GroupId) (c : GroupCause) (s : State) : State :=
  report (.groupEvent g .waking c)
    (setGroup g { s.groups.at g with state := .waking, settle := some Config.settleTime, slow := none } (clearRuns g s))

/-- A group in STANDBY_PENDING whose last line has become idle enters STANDBY (R44). -/
def groupIdle (g : GroupId) (s : State) : State :=
  if (s.groups.at g).state = .standbyPending ∧ groupQuiet s g = true then enterStandby g .linesIdle s else s

/-! ## A line's change of state -/

/-- The states that empty the digit buffer (R33). -/
def LineState.emptiesBuffer : LineState → Bool
  | .idle => true | .parked => true | .holdover => true | .test => true | .fault => true
  | _ => false

/-- The states whose hook reading is suspended (Table 2.3). -/
def LineState.suspended : LineState → Bool
  | .test => true | .fault => true
  | _ => false

/-- The states in which Table 4.1 gives ANSWER owed. -/
def LineState.mayOweAnswer (st : LineState) : Bool := st.called || decide (st = .activeIn)

/-- The line record in a new state: the owed flags are kept where Table 4.1 gives them, and fault present is kept (R54). -/
def Line.moved (l : Line) (st : LineState) (call : Option (SlotId × Direction)) (timer : Option Nat) : Line :=
  { state := st, call := call, timer := timer
    answerOwed := l.answerOwed && st.mayOweAnswer
    flashOwed := l.flashOwed && st.active
    faultPresent := l.faultPresent }

/-- The scanner record when the line of a port changes state: a partial digit is kept only from one decoding state to another
(R23), and in TEST and FAULT the hook sense is suspended (R22). -/
def Scanner.lineMoved (c : Scanner) (r : PortRole) (old st : LineState) : Scanner :=
  let c := if decodesIn r old && decodesIn r st then c else c.trainCleared
  if st.suspended then c.suspended else c

/-- A line changes state, with the effects of R56 but for the report. -/
def moveLine (p : Port) (st : LineState) (call : Option (SlotId × Direction)) (timer : Option Nat) (s : State) : State :=
  let old := s.lines.at p
  let s := setScan p ((s.scan.at p).lineMoved (s.ports.at p) old.state st) (setLine p (old.moved st call timer) s)
  let s := if old.state = .queued ∧ st ≠ .queued then setWaitQueue (s.waitQueue.erase p) s else s
  let s := if old.state.called ∧ ¬ st.called then leaveRing p s else s
  if st.emptiesBuffer then emptyBuffer p s else s

/-- The states that a claimed line does not enter: it enters TEST instead (R74). -/
def LineState.endsCall : LineState → Bool
  | .idle => true | .parked => true | .fault => true
  | _ => false

/-- A line enters TEST and the bus becomes HELD for its port (R164, R166, R168, R169). -/
def grantBus (p : Port) (g : Grant) (s : State) : State :=
  report (.testEvent p g) (callEvent p .test .maintenance (setBus (.held p) (moveLine p .test none none s)))

/-- A line enters a state and the change is reported (R55). A claimed line at the end of its call enters TEST instead (R74),
and an entry to IDLE counts for a group in STANDBY_PENDING (R44, R56). -/
def enterLine (p : Port) (st : LineState) (call : Option (SlotId × Direction)) (timer : Option Nat) (r : Reason)
    (s : State) : State :=
  if st.endsCall ∧ s.bus = .claimed p then grantBus p .callEnd s
  else
    let t := callEvent p st r (moveLine p st call timer s)
    if st = .idle then groupIdle (groupOf p) t else t

/-- A line enters a state that has neither slot nor timer. -/
def enterBare (p : Port) (st : LineState) (r : Reason) (s : State) : State := enterLine p st none none r s

/-- The slot that a line names. -/
def slotOfLine (s : State) (p : Port) : Option SlotId := (s.lines.at p).call.map (·.1)

/-- A line's slot is released with a clear item owed; a line without a slot releases nothing. -/
def releaseLineOwing (p : Port) (o : ClearOwed) (s : State) : State :=
  match slotOfLine s p with
  | some i => releaseOwing i o s
  | none => s

/-- A line's slot is released locally. -/
def releaseLineLocally (p : Port) (s : State) : State :=
  match slotOfLine s p with
  | some i => freeSlot i s
  | none => s

/-- A line gives up its slot for an end of its own: locally in HOLDOVER, with CLEAR owed in every other state (R65, R57). -/
def releaseLine (p : Port) (r : Reason) (s : State) : State :=
  if (s.lines.at p).state = .holdover then releaseLineLocally p s else releaseLineOwing p (.clear r) s

/-- A line ends whatever it is in and enters a bare state, its slot released for the same reason. -/
def endLine (p : Port) (st : LineState) (r : Reason) (s : State) : State := enterBare p st r (releaseLine p r s)

end Sys2Proof.Machine
end

