-- ==== Sys2Proof/Machine/Admission.lean ====
section
/-! DEFINITION. Reserving a slot, the admission attempt with preemption (spec/05), and what the end of an event brings with it:
the ring queue scan, the attempt, the holdover timer's stop and the end of CONFIG_PENDING. -/

namespace Sys2Proof.Machine

/-! ## Reservation (R81, R82) -/

/-- Whether some slot holds the tag. -/
def tagHeld (s : State) (t : Nat) : Bool := allSlots.any fun i => decide ((s.slots.at i).tag? = some t)

/-- The tags in the order of the count: upward from the next tag, from 255 back to 1 (R81). -/
def tagCount (s : State) : List Nat := (List.range Config.lastTag).map fun k => (s.nextTag - 1 + k) % Config.lastTag + 1

/-- The tag of the next reservation: the first of the count that no slot holds (R81). -/
def freshTag (s : State) : Nat := ((tagCount s).find? fun t => !tagHeld s t).getD s.nextTag

/-- The reservation orders that slots hold. -/
def ordersHeld (s : State) : List Nat := allSlots.filterMap fun i => (s.slots.at i).call?.map (·.order)

/-- A slot with the reservation order of its call changed. -/
def Slot.withOrder (f : Nat → Nat) : Slot → Slot
  | .reserved c b => .reserved { c with order := f c.order } b
  | .busy c b => .busy { c with order := f c.order } b
  | .held c b => .held { c with order := f c.order } b
  | sl => sl

/-- The reservation order counter moves on; at the value 65535 the orders held are renumbered 1 to k (R82). -/
def advanceOrder (s : State) : State :=
  if s.nextOrder < Config.lastOrder then setNextOrder (s.nextOrder + 1) s
  else
    let held := ordersHeld s
    setNextOrder (held.length + 1)
      { s with slots := s.slots.map fun sl => sl.withOrder fun n => 1 + (held.filter fun m => decide (m < n)).length }

/-- The call of a slot reserved for a line now (R81, R82, R83). -/
def newCall (s : State) (p : Port) (d : Direction) : Call :=
  { line := p, tag := freshTag s, direction := d, answered := false, order := s.nextOrder }

/-- A FREE slot leaves the free slot list and is reserved for a line, with its signalling record cleared (R92, R95, R143). -/
def reserve (i : SlotId) (p : Port) (d : Direction) (s : State) : State :=
  let c := newCall s p d
  advanceOrder (setNextTag (c.tag % Config.lastTag + 1)
    (setSig i Sig.cleared (setSlot i (.reserved c false) (setFree (s.free.erase i) s))))

/-! ## Admission from the wait queue (R90 to R92) -/

/-- Whether a line heading the wait queue can be admitted, a FREE slot apart (Table 5.5). -/
def canAdmit (s : State) (p : Port) : Bool :=
  decide (s.mode = .normal) &&
    (if isPriority s p then s.link.inService else s.link.ordinary && decide (activeCount s < s.posture.callLimit))

/-- Admission of a line to a slot: the slot is reserved, the line enters SEIZING and its SEIZE is made (R92). -/
def admitLine (p : Port) (i : SlotId) (s : State) : State :=
  addSlotEntry (isPriority s p) i .seize (enterLine p .seizing (some (i, .out)) none .normal (reserve i p .out s))

/-- Heads of the wait queue are admitted while R91 allows it; each takes one FREE slot, so `n` bounds their number. -/
def admitHeads : Nat → State → State
  | 0, s => s
  | n + 1, s =>
    match s.waitQueue, s.free with
    | p :: _, i :: _ => if canAdmit s p then admitHeads n (admitLine p i s) else s
    | _, _ => s

/-! ## Preemption (R97 to R99) -/

/-- Whether preemption may choose a victim (R97). -/
def mayPreempt (s : State) : Bool :=
  s.params.preempt && (match s.waitQueue.head? with | some p => isPriority s p | none => false)
    && decide (s.mode = .normal) && s.link.inService && s.free.isEmpty && s.mark.isNone

/-- The call of a slot that preemption may clear (R98). -/
def candidate (s : State) (i : SlotId) : Option Call :=
  (s.slots.at i).call?.filter fun c =>
    isOrdinary s c.line &&
      (match (s.lines.at c.line).state with
       | .seizing => true
       | .offered => true
       | .ringing => true
       | .activeOut => !c.answered
       | _ => false)

/-- The later of two candidates by reservation order. -/
def laterOf (a b : Option (SlotId × Call)) : Option (SlotId × Call) :=
  match a, b with
  | some x, some y => if x.2.order < y.2.order then some y else some x
  | none, y => y
  | x, none => x

/-- The victim: the candidate with the highest reservation order (R98). -/
def victim (s : State) : Option (SlotId × Call) :=
  allSlots.foldl (fun best i => laterOf best ((candidate s i).map fun c => (i, c))) none

/-- The victim is preempted: the mark names its slot, the slot is released with CLEAR owed, reason PREEMPTED, and the line goes to
IDLE if it was called and to PARKED otherwise; a cell it leaves gains room and the ring queue is scanned (R99, R113). -/
def preempt (i : SlotId) (p : Port) (s : State) : State :=
  let st := (s.lines.at p).state
  let t := enterBare p (if st.called then .idle else .parked) .preempted
    (releaseOwing i (.clear .preempted) (setMark (some i) s))
  if isPlaced s p then scanRing t else t

/-! ## The admission attempt (R90) -/

/-- One round of an attempt, and whether it ended with a preemption: heads are admitted, then preemption is considered. -/
def attemptRound (s : State) : State × Bool :=
  let t := admitHeads s.free.length s
  if mayPreempt t then
    match victim t with
    | some (i, c) => (preempt i c.line t, true)
    | none => (t, false)
  else (t, false)

/-- Rounds of an attempt: a preemption starts a new one. Each preemption ends a candidate's call, so twenty-one rounds are never
used up. -/
def attemptRounds : Nat → State → State
  | 0, s => s
  | n + 1, s => let r := attemptRound s; if r.2 then attemptRounds n r.1 else r.1

/-- One admission attempt (R90). -/
def attempt (s : State) : State := attemptRounds 21 s

/-- Whether an event that took `old` to `new` starts an attempt: the nine causes of R90, in its order. -/
def attemptCaused (old new : State) : Bool :=
  new.waitQueue.any (fun p => decide (p ∉ old.waitQueue))
  || new.free.any (fun i => decide (i ∉ old.free))
  || decide (activeCount new < activeCount old)
  || (decide (new.link ≠ old.link) && new.link.ordinary)
  || (decide (old.link = .resync) && new.link.inService)
  || decide (old.posture.rank < new.posture.rank)
  || (decide (new.mode = .normal) && decide (old.mode ≠ .normal))
  || (old.mark.isSome && new.mark.isNone)
  || (match old.waitQueue.head? with | some p => decide (p ∉ new.waitQueue) | none => false)

/-- Whether a line left a cell, or the ring capacity rose (R110). -/
def roomGained (old new : State) : Bool :=
  (allPlaced old).any (fun e => !isPlaced new e.port) || decide (old.posture.rank < new.posture.rank)

/-! ## The end of an event -/

/-- The holdover timer stops, with no expiry, when no slot is HELD any longer (R132). -/
def stopHoldover (s : State) : State := if anyHeld s then s else { s with holdover := none }

/-- CONFIG_PENDING ends when no slot is in use (R177). -/
def endPending (s : State) : State :=
  if s.mode = .configPending ∧ anyInUse s = false then report (.modeEvent .config .callsEnded) (setMode .config s) else s

/-- What an event that took `old` to `new` brings with it, in order: the ring queue scan, the admission attempt, the stop of the
holdover timer, and the end of CONFIG_PENDING after every report of the event. -/
def finish (old new : State) : State :=
  let a := if roomGained old new then scanRing new else new
  let b := if attemptCaused old new then attempt a else a
  endPending (stopHoldover b)

/-- An event of the running part that may free slots or move lines. -/
def act (f : State → State) (s : State) : State := whileRunning (fun t => finish t (f t)) s

/-- An event of the running part that frees no slot and moves no line out of a queue. -/
def actQuietly (f : State → State) (s : State) : State := whileRunning f s

end Sys2Proof.Machine
end

