-- ==== Sys2Proof/Machine/TrunkLink.lean ====
section
/-! DEFINITION. The Trunk Framer (spec/07): alignment, the judgement of a frame, the link's changes of state, and the settling of
held calls. -/

namespace Sys2Proof.Machine

/-! ## Alignment (R121) -/

/-- Whether the alignment word stands at an index of the octet stream. -/
def wordAt (stream : List (Option Byte)) (k : Nat) : Bool :=
  decide (stream[k]? = some (some Config.alignHigh)) && decide (stream[k + 1]? = some (some Config.alignLow))

/-- The octets of a frame period behind the octet received last before it (log 10). -/
def octetStream (s : State) (octets : List Byte) : List (Option Byte) := s.lastOctet :: octets.map some

/-- The first index from `k` on at which the word stands in the period. -/
def findWord (stream : List (Option Byte)) (k : Nat) : Option Nat :=
  ((List.range 25).drop k).find? (wordAt stream)

/-- The search of HUNTING over one period: from index `k` on, the found word count becomes 1 where the word is found, else 0. -/
def huntFrom (stream : List (Option Byte)) (k : Nat) (s : State) : State :=
  match findWord stream k with
  | some j => { s with foundWords := 1, huntAt := j }
  | none => { s with foundWords := 0 }

/-- How many octets of a period belong to the frame that ends in it, where the word was found at an index of the stream: that frame
ends one octet before the next word (log 10). -/
def frameEndAt (k : Nat) : Nat := (k + 23) % 25 + 1

/-- The second word has been found: the state becomes ALIGNED, and the frames are judged from the place of the word on. The frame of
the second word is not judged, so nothing of it is kept; where that frame ends in this very period, what follows it is (R121; log 10). -/
def regainAlignment (octets : List Byte) (s : State) : State :=
  { s with
    align := .aligned, badWords := 0, foundWords := 0, frameEnd := frameEndAt s.huntAt
    frameHead := if s.huntAt = 0 then octets.drop (frameEndAt s.huntAt) else [] }

/-- The frame that ends in a period: what came of it in the period before, and the octets of this one up to its end. -/
def frameOf (s : State) (octets : List Byte) : List Byte := s.frameHead ++ octets.take s.frameEnd

/-- Whether a frame in the present alignment ends in the period: none does while the frame of the second word goes by (log 10). -/
def frameEnds (s : State) : Bool := decide (s.frameHead.length + s.frameEnd = 25)

/-- The alignment word of a frame checked at its expected place in ALIGNED: the third bad word in a row loses alignment (R121). -/
def checkWord (frame : List Byte) (s : State) : State :=
  if frame.take 2 = [Config.alignHigh, Config.alignLow] then { s with badWords := 0 }
  else if s.badWords + 1 < 3 then { s with badWords := s.badWords + 1 }
  else { s with align := .hunting, badWords := 0, foundWords := 0 }

/-- The alignment state over one frame period (R121; log 10). -/
def trackAlignment (octets : List Byte) (s : State) : State :=
  let stream := octetStream s octets
  let t :=
    match s.align with
    | .aligned =>
      { (if frameEnds s then checkWord (frameOf s octets) s else s) with frameHead := octets.drop s.frameEnd }
    | .hunting =>
      if s.foundWords = 0 then huntFrom stream 0 s
      else if wordAt stream s.huntAt then regainAlignment octets s
      else huntFrom stream (s.huntAt + 1) s
  { t with lastOctet := if octets = [] then s.lastOctet else octets.getLast? }

/-- Whether a frame is good: the state was ALIGNED, the frame is whole, its word is good and its check passes (R122, R197). -/
def goodFrame (s : State) (octets : List Byte) : Bool :=
  let frame := frameOf s octets
  decide (s.align = .aligned) && decide (frame.length = 25)
    && decide (frame.take 2 = [Config.alignHigh, Config.alignLow])
    && decide (frame.getLast? = some (crc8 ((frame.drop 2).take 22)))

/-! ## Octets of a judged frame (R122, R144) -/

/-- The speech octets handed to the slots' codecs: those of a good frame, silence for an error frame (log 25). -/
def takeBearer (good : Bool) (frame : List Byte) (s : State) : State :=
  { s with rxBearer := Vector.ofFn fun i => if good then (frame[2 + i.val]?).getD Config.silence else Config.silence }

/-- One signalling octet into the receive assembler: the assembler after it, and the message it completes (R144, R199). -/
def assemble (a : Assembler) (o : Byte) : Assembler × Option (List Byte) :=
  match a with
  | .hunting => (if o = Config.marker then .assembling [o] else .hunting, none)
  | .assembling held =>
    let now := held ++ [o]
    match now[2]? with
    | none => (.assembling now, none)
    | some len =>
      if 80 < len.toNat then (.hunting, none)
      else if now.length < len.toNat + 4 then (.assembling now, none)
      else (.hunting, some now)

/-- The two signalling octets of a frame into the assembler: the assembler after them, and the message completed in the frame. A
message has four octets at least, so a frame completes at most one. -/
def assembleTwo (a : Assembler) (o1 o2 : Byte) : Assembler × Option (List Byte) :=
  let r1 := assemble a o1
  let r2 := assemble r1.1 o2
  (r2.1, if r1.2.isSome then r1.2 else r2.2)

/-- The assembler after a judged frame and the message completed in it: fed by a good frame while messages are taken, emptied
otherwise (R122, R128). -/
def assemblerAfter (good : Bool) (frame : List Byte) (s : State) : Assembler × Option (List Byte) :=
  if good ∧ s.link.messages then
    assembleTwo s.assembler ((frame[22]?).getD Config.idleOctet) ((frame[23]?).getD Config.idleOctet)
  else (.hunting, none)

/-! ## Grades (R125, R126) -/

/-- LINK_EVENT with the score as it stands (R124). -/
def linkEvent (s : State) : State := report (.linkEvent s.link s.score) s

/-- The link takes the grade of its score in service; LINK_IMPAIRED begins and ends with IMPAIRED (R125, R126). -/
def takeGrade (s : State) : State :=
  let g := gradeOf s.score
  if g = s.link then s
  else
    let t := linkEvent (setLink g s)
    if g = .impaired then beginCondition .linkImpaired t
    else if s.link = .impaired then endCondition .linkImpaired t
    else t

/-- The link leaves RESYNC for the grade of its score: the RESTART exchange is over and TRUNK_DOWN ends (R138, R140). -/
def enterService (s : State) : State :=
  let t := linkEvent (setLink (gradeOf s.score) { s with restartTimer := none, restartOwed := false })
  let t := endCondition .trunkDown t
  if gradeOf s.score = .impaired then beginCondition .linkImpaired t else t

/-! ## Entry to RESYNC (R137) -/

/-- RESTART becomes owed, as the first or the repeat of this RESYNC, and is made where a place is free (R138). -/
def oweRestart (again : Bool) (s : State) : State := makeRestart { s with restartOwed := true, restartRepeat := again }

/-- The link enters RESYNC. -/
def enterResync (s : State) : State :=
  oweRestart false (linkEvent (setLink .resync
    { s with score := 0, run := 0, releaseFlag := false, holdover := none, assembler := .hunting }))

/-! ## Entry to DOWN (R127 to R130, R132) -/

/-- A signalling record at entry to DOWN: the reply timer stops and nothing is owed (R128). -/
def Sig.silenced (g : Sig) : Sig := { g with timer := none, owed := none }

/-- The Trunk Signaller clears its transmit side and its receive side (R128). -/
def clearSignalling (s : State) : State :=
  { s with
    txq := [], inFlight := none, flow := .go, assembler := .hunting
    sig := s.sig.map Sig.silenced
    restartTimer := none, restartOwed := false, restartRepeat := false }

/-- A slot at entry to DOWN (Table 7.4). -/
def downSlot (i : SlotId) (s : State) : State :=
  match s.slots.at i with
  | .busy c b => if s.params.holdover = 0 then freeSlot i s else setSlot i (.held c b) s
  | .reserved _ _ => freeSlot i s
  | .clearing _ _ _ _ => freeSlot i s
  | _ => s

/-- The line of a port at entry to DOWN (Table 7.4). -/
def downLine (p : Port) (s : State) : State :=
  let l := s.lines.at p
  match l.state with
  | .activeOut => if s.params.holdover = 0 then enterBare p .parked .outOfService s
                  else enterLine p .holdover l.call none .outOfService s
  | .activeIn => if s.params.holdover = 0 then enterBare p .parked .outOfService s
                 else enterLine p .holdover l.call none .outOfService s
  | .seizing => enterBare p .parked .outOfService s
  | .offered => enterBare p .idle .outOfService s
  | .ringing => enterBare p .idle .outOfService s
  | _ => s

/-- The holdover timer starts at the full value when a slot is HELD after the entry (R132). -/
def startHoldover (s : State) : State :=
  { s with holdover := if anyHeld s then some (1000 * s.params.holdover) else none }

/-- The link enters DOWN: the Framer's reports, the Signaller cleared, the slots in slot order, the ringing stopped, and the lines
with their CALL_EVENTs in port order (log 23). -/
def enterDown (s : State) : State :=
  let t := linkEvent (setLink .down { s with score := Config.scoreTop, run := 0 })
  let t := beginCondition .trunkDown (endCondition .linkImpaired t)
  let t := inTurn allSlots downSlot (clearSignalling t)
  startHoldover (inTurn allPorts downLine (emptyRing (setMark none t)))

/-! ## The judgement of a frame (R122, R123, R134, R135) -/

/-- The quality score after a frame in service or RESYNC (R123). -/
def scoreAfter (good : Bool) (score : Nat) : Nat := if good then score - 1 else min Config.scoreTop (score + 4)

/-- The frame counted by the quality score, with the grade and the entry to DOWN (R123, R125, R127). -/
def countScore (good : Bool) (s : State) : State :=
  let t := { s with score := scoreAfter good s.score }
  if t.score = Config.scoreTop then enterDown t else if s.link.inService then takeGrade t else t

/-- The recovery run reaches 512: RESYNC, or RECOVERED where the release is awaited (R134). -/
def endRun (s : State) : State :=
  if s.params.cabinetRelease = false ∨ s.releaseFlag then enterResync s else linkEvent (setLink .recovered s)

/-- The frame counted by the recovery run in DOWN (R134). -/
def countRun (good : Bool) (s : State) : State :=
  if good then
    let t := { s with run := s.run + 1 }
    if t.run < Config.recoveryRun then t else endRun t
  else { s with run := 0 }

/-- The judgement's effect on the link (R122 to R135). -/
def judgeLink (good : Bool) (s : State) : State :=
  match s.link with
  | .down => countRun good s
  | .recovered => if good then s else linkEvent (setLink .down { s with run := 0 })
  | _ => countScore good s

/-- The judgement of a frame, its message apart: the bearer octets, the assembler, the alignment state and the link. -/
def judgeFrame (octets : List Byte) (s : State) : State :=
  let good := goodFrame s octets
  let frame := frameOf s octets
  let t := takeBearer good frame (trackAlignment octets { s with assembler := (assemblerAfter good frame s).1 })
  judgeLink good t

/-! ## Held calls (R133, R140, R141) -/

/-- Every HELD slot is released locally, in the order of slot number. -/
def releaseHeld (s : State) : State :=
  inTurn allSlots (fun i t => if (t.slots.at i).isHeld then freeSlot i t else t) s

/-- A line in HOLDOVER loses its held call. -/
def loseHeld (r : Reason) (p : Port) (s : State) : State :=
  if (s.lines.at p).state = .holdover then enterBare p .parked r s else s

/-- The lines of the HELD slots, in the order of slot number. -/
def heldLines (s : State) : List Port :=
  allSlots.filterMap fun i => if (s.slots.at i).isHeld then (s.slots.at i).call?.map (·.line) else none

/-- The state of a line whose held call is restored (Table 4.10). -/
def restoredState : Direction → LineState
  | .out => .activeOut
  | .inward => .activeIn

/-- One HELD slot settled by a RESTART_ACK: restored where its tag is listed, else released locally (R140). -/
def settleSlot (tags : List Byte) (i : SlotId) (s : State) : State :=
  match s.slots.at i with
  | .held c b =>
    if tags.any (fun t => decide (t.toNat = c.tag)) then
      enterLine c.line (restoredState c.direction) (some (i, c.direction)) none .normal (setSlot i (.busy c b) s)
    else enterBare c.line .parked .outOfService (freeSlot i s)
  | _ => s

/-- A RESTART entry still queued leaves the queue; one in flight stays (R140). -/
def removeQueuedRestart (s : State) : State :=
  setTxq (s.txq.take (flightCount s) ++ (queuedEntries s).filter fun e => decide (e.msg ≠ .ofNone .restart)) s

end Sys2Proof.Machine
end

