-- ==== Sys2Proof/Machine/Sending.lean ====
section
/-! DEFINITION. An entry starts and completes sending (spec/08, section 8.7): ENTRY_START, ENTRY_COMPLETE. -/

namespace Sys2Proof.Machine

/-! ## Starting (R156) -/

/-- Whether the first queued entry may start: flow GO, nothing in flight, messages sent in the link state (R156). -/
def maySend (s : State) : Bool := decide (s.flow = .go) && s.inFlight.isNone && s.link.messages

/-- A DIGITS entry takes the waiting digits, up to four, and lends their places (R31). -/
def lendDigits (p : Port) (s : State) : State :=
  let b := s.buffers.at p
  let n := min b.digits.length Config.digitPlaces
  setBuffer p { b with digits := b.digits.drop n, lent := n } s

/-- The digits an entry takes as it starts. -/
def digitsTaken (s : State) (m : Msg) : List Digit :=
  match m with
  | .ofSlot _ p _ .digits => (s.buffers.at p).digits.take Config.digitPlaces
  | _ => []

/-- Whether an entry is a DIGITS that finds no waiting digit (R156). -/
def digitsGone (s : State) (m : Msg) : Bool :=
  match m with
  | .ofSlot _ p _ .digits => decide ((s.buffers.at p).digits = [])
  | _ => false

/-- The first entry starts sending with its content fixed as it then stands (R156). -/
def startEntry (m : Msg) (s : State) : State :=
  let digits := digitsTaken s m
  let t := { s with inFlight := some { octets := messageOctets s m digits, digits := digits } }
  match m with
  | .ofSlot _ p _ .digits => lendDigits p t
  | _ => t

/-- The first entry that can be sent starts; each DIGITS with no waiting digit before it leaves the queue unsent (R156; log 26). -/
def startSending : List Entry → State → State
  | [], s => setTxq [] s
  | e :: rest, s => if digitsGone s e.msg then startSending rest s else startEntry e.msg (setTxq (e :: rest) s)

/-- ENTRY_START (R156). -/
def execEntryStart (s : State) : Host.Outcome State Fault Refusal :=
  .next (actQuietly (fun s => if maySend s && !s.txq.isEmpty then startSending s.txq s else s) s)

/-! ## Completing (R157) -/

/-- A slot's reply timer starts at 2 s. -/
def startReplyTimer (i : SlotId) (k : TimerKind) (r : TimerRun) (s : State) : State :=
  setSig i { s.sig.at i with timer := some { kind := k, run := r, left := Config.replyTime } } s

/-- The run of a timer started by a completion: first unless the message had gone before. -/
def runAfter (before : Bool) : TimerRun := if before then .again else .first

/-- A SEIZE completes: the tag is known, and the reply timer starts while the slot is RESERVED with direction OUT. -/
def seizeSent (i : SlotId) (s : State) : State :=
  let g := s.sig.at i
  let t := setSig i { g with tagKnown := true } s
  match s.slots.at i with
  | .reserved c _ => if c.direction = .out then startReplyTimer i .seize (runAfter g.tagKnown) t else t
  | _ => t

/-- A CLEAR completes: it is known to be sent, and the reply timer starts while the clear side is AWAIT_ACK. -/
def clearSentNow (i : SlotId) (s : State) : State :=
  let g := s.sig.at i
  let t := setSig i { g with clearSent := true } s
  match s.slots.at i with
  | .clearing _ _ (.awaitAck _) _ => startReplyTimer i .clear (runAfter g.clearSent) t
  | _ => t

/-- A CLEAR_ACK of a slot completes: a slot with clear side OWE_ACK leaves CLEARING (R152). -/
def clearAckSent (i : SlotId) (s : State) : State :=
  match s.slots.at i with
  | .clearing _ _ .oweAck _ => freeSlot i s
  | _ => s

/-- A RESTART completes: its reply timer starts, unless RESTART_ACK has settled the exchange (R138, R157). -/
def restartSent (s : State) : State :=
  if s.link = .resync then { s with restartTimer := some (runAfter s.restartRepeat, Config.replyTime) } else s

/-- What the completion of a message does (Table 8.8). -/
def messageSent (m : Msg) (s : State) : State :=
  match m with
  | .ofSlot i _ _ .seize => seizeSent i s
  | .ofSlot i _ _ (.offer _) => setSig i { s.sig.at i with tagKnown := true } s
  | .ofSlot _ p _ .digits => setBuffer p { s.buffers.at p with lent := 0 } s
  | .ofSlot i _ _ (.clear _) => clearSentNow i s
  | .ofSlot i _ _ .clearAck => clearAckSent i s
  | .ofNone .restart => restartSent s
  | _ => s

/-- The next entry of the completed entry's slot is made from what is still owed (R151). -/
def makeNext (e : Entry) (s : State) : State :=
  match e.slot? with
  | some i => makeOwed i s
  | none => s

/-- The entry in flight completes: it leaves the queue, its completion acts, the slot's next entry is made, and a RESTART that
waited for a place is made (R157). -/
def completeEntry (s : State) : State :=
  match s.txq with
  | e :: rest => makeRestart (makeNext e (messageSent e.msg { s with txq := rest, inFlight := none }))
  | [] => s

/-- ENTRY_COMPLETE (R157). -/
def execEntryComplete (s : State) : Host.Outcome State Fault Refusal :=
  .next (act (fun s => if s.inFlight.isSome then completeEntry s else s) s)

end Sys2Proof.Machine
end

