-- ==== Sys2Proof/Machine/Supervision.lean ====
section
/-! DEFINITION. Hook supervision, digit reception, fault sense and contacts (spec/02) with the line transitions they make
(spec/04): OFF_HOOK, ON_HOOK, DECODING_ON_HOOK, BREAK_END, DIGIT_COMPLETE, FAULT, FAULT_CLEAR, CONTACT_CHANGE. Each command says
that the sample it names was taken, so it sets the pin and the runs too (log 4); where the sample is not possible in the state,
nothing changes (log 1). -/

namespace Sys2Proof.Machine

/-! ## Off-hook (R21, R58, R62, R63) -/

/-- An IDLE line goes off-hook in NORMAL: it joins the wait queue in its class's place and WAIT_LIMIT starts (R58, R69, R88). -/
def queueLine (p : Port) (s : State) : State :=
  enterLine p .queued none (some (1000 * s.params.waitLimit)) .normal (setWaitQueue (joinByClass s p s.waitQueue) s)

/-- A called line answers: its slot becomes BUSY and answered, ANSWER is owed, and the line leaves its cell or the ring queue
(R62, R63, R112). -/
def answerCall (p : Port) (s : State) : State :=
  match slotOfLine s p with
  | some i =>
    match s.slots.at i with
    | .reserved c b =>
      let t := setLine p { s.lines.at p with answerOwed := true } (setSlot i (.busy { c with answered := true } b) s)
      makeOwed i (enterLine p .activeIn (some (i, .inward)) none .normal t)
    | _ => s
  | none => s

/-- The Line Controller takes an off-hook (R58, R62, R63). -/
def takeOffHook (p : Port) (s : State) : State :=
  match (s.lines.at p).state with
  | .idle => if s.mode = .normal then queueLine p s else enterBare p .parked .config s
  | .offered => answerCall p s
  | .ringing => answerCall p s
  | _ => s

/-- The closed run of a line awaiting off-hook has reached DEBOUNCE. -/
def offHookSample (p : Port) (s : State) : State :=
  setHookPin p true (setScan p { (s.scan.at p).closedFor (wholeSamples s.params.debounce) with hook := .offHook } s)

/-- OFF_HOOK (R21): on a line awaiting off-hook in a group that samples its hook. -/
def execOffHook (p : Port) (s : State) : Host.Outcome State Fault Refusal :=
  .next (act (fun s => if awaitsOffHook s p && hookSampled s p then takeOffHook p (offHookSample p s) else s) s)

/-! ## On-hook (R21, R25, R59 to R66) -/

/-- The Line Controller takes an on-hook: the line goes to IDLE and gives up its slot, if it has one, with reason NORMAL. -/
def takeOnHook (p : Port) (s : State) : State := endLine p .idle .normal s

/-- An open run of `run` milliseconds is taken as an on-hook. -/
def onHookSample (p : Port) (run : Nat) (s : State) : State :=
  setHookPin p false (setScan p { (s.scan.at p).openFor run with hook := .onHook } s)

/-- ON_HOOK (R21): on a line awaiting on-hook in a group that samples its hook. -/
def execOnHook (p : Port) (s : State) : Host.Outcome State Fault Refusal :=
  .next (act (fun s =>
    if awaitsOnHook s p && hookSampled s p then takeOnHook p (onHookSample p (wholeSamples s.params.debounce) s) else s) s)

/-- DECODING_ON_HOOK (R25): on a decoding line, at the open sample at which the open run first exceeds FLASH_MAX. -/
def execDecodingOnHook (p : Port) (s : State) : Host.Outcome State Fault Refusal :=
  .next (act (fun s =>
    if decodes s p && hookSampled s p then takeOnHook p (onHookSample p (s.params.flashMax / 2 * 2 + 2) s) else s) s)

/-! ## Breaks (R24, R26, R29, R72) -/

/-- The closed run as it stood before the break that now ends (R24; log 13). -/
def Scanner.beforeBreak (c : Scanner) : Nat := if c.openRun = 0 then c.closedRun else c.heldRun

/-- An ignored break: the closed run goes on, with the open samples counted as closed ones, and the closed sample that ends it. -/
def Scanner.breakIgnored (c : Scanner) (ms : Nat) : Scanner :=
  { c with closedRun := c.beforeBreak + ms + 2, openRun := 0, heldRun := 0 }

/-- A pulse or a flash: the closed run starts at 2 ms with the closed sample that ended the break. -/
def Scanner.breakTaken (c : Scanner) : Scanner := { c with closedRun := 2, openRun := 0, heldRun := 0 }

/-- A pulse is counted (R26). -/
def Scanner.pulse (c : Scanner) : Scanner :=
  if c.overrun then c else if c.pulses < 10 then { c with pulses := c.pulses + 1 } else { c with overrun := true }

/-- Whether the Line Controller acts on a flash (R72). -/
def flashActedOn (s : State) (p : Port) : Bool :=
  let l := s.lines.at p
  l.state.active && decide ((s.buffers.at p).digits = []) && !l.flashOwed
    && (match l.call with
        | some (i, _) => !hasEntryOf s i .digits && !hasEntryOf s i .flash
        | none => false)

/-- The Line Controller takes a flash: FLASH becomes owed, or the flash is reported as ignored (R72, R73). -/
def takeFlash (p : Port) (s : State) : State :=
  if flashActedOn s p then
    let t := setLine p { s.lines.at p with flashOwed := true } s
    match slotOfLine s p with
    | some i => makeOwed i t
    | none => t
  else noteEvent p .flashIgnored s

/-- The closed sample that ends a break of `ms` milliseconds classifies it (Table 2.4). -/
def classifyBreak (p : Port) (ms : Nat) (s : State) : State :=
  let c := s.scan.at p
  if ms < Config.pulseMin then setScan p (c.breakIgnored ms) s
  else if ms ≤ Config.pulseMax then setScan p c.breakTaken.pulse s
  else takeFlash p (setScan p c.breakTaken.trainCleared s)

/-- Whether the hook runs of a line are kept: its group samples hooks, and its reading is not suspended (R19, R22). -/
def countsHook (s : State) (p : Port) : Bool :=
  hookSampled s p && hasLine s p && !(s.lines.at p).state.suspended

/-- The closed sample that ends an open run on a line that does not decode: it classifies nothing, and it counts (R19). An earlier
event of the same sample can have taken the line out of its decoding state. -/
def endOpenRun (p : Port) (s : State) : State := setHookPin p true (setScan p (s.scan.at p).breakTaken s)

/-- The closed sample that ends a break of `ms` milliseconds: on a decoding line it classifies a break not longer than FLASH_MAX (a
longer one was an on-hook, R25), and on any other line whose hook is sampled it ends the open run. -/
def endBreak (p : Port) (ms : Nat) (s : State) : State :=
  if decodes s p then
    if hookSampled s p && decide (0 < ms ∧ ms ≤ s.params.flashMax) then classifyBreak p ms (setHookPin p true s) else s
  else if countsHook s p && decide (0 < (s.scan.at p).openRun) then endOpenRun p s
  else s

/-- BREAK_END (R24, R19). -/
def execBreakEnd (p : Port) (ms : Nat) (s : State) : Host.Outcome State Fault Refusal := .next (actQuietly (endBreak p ms) s)

/-! ## Digits (R27, R28, R30) -/

/-- The digit of a pulse count: 10 pulses give 0 (R27). -/
def digitOf (pulses : Nat) : Digit := ⟨pulses % 10, Nat.mod_lt _ (by decide)⟩

/-- A completed digit is offered to the line's buffer: it joins, and DIGITS may become owed, or it is lost (R30, R73). -/
def offerDigit (p : Port) (d : Digit) (s : State) : State :=
  let b := s.buffers.at p
  if b.digits.length + b.lent < Config.digitPlaces then
    let t := setBuffer p { b with digits := b.digits ++ [d] } s
    match slotOfLine s p with
    | some i => makeOwed i t
    | none => t
  else noteEvent p .digitLost (setBuffer p { b with lost := true } s)

/-- The closed run reaches INTERDIGIT: the digit is offered, or a train that overran is a misdial (R27, R28). -/
def completeDigit (p : Port) (s : State) : State :=
  let c := s.scan.at p
  let t := setScan p (c.closedFor (wholeSamples s.params.interdigit)).trainCleared s
  if c.overrun then noteEvent p .misdial t else offerDigit p (digitOf c.pulses) t

/-- DIGIT_COMPLETE (R27): on a decoding line with pulses counted or overrun. -/
def execDigitComplete (p : Port) (s : State) : Host.Outcome State Fault Refusal :=
  .next (actQuietly (fun s =>
    if decodes s p && hookSampled s p && (decide (0 < (s.scan.at p).pulses) || (s.scan.at p).overrun)
    then completeDigit p (setHookPin p true s) else s) s)

/-! ## Fault sense (R35, R36) -/

/-- The fault state of a port is accepted as present or absent; the fault run returns to 0 (R20). -/
def acceptFault (p : Port) (present : Bool) (s : State) : State :=
  setLine p { s.lines.at p with faultPresent := present }
    (setFaultPin p present (setScan p { s.scan.at p with fault := present, faultRun := 0 } s))

/-- The transition of a line at a fault: a line in a call releases it, a line in TEST or FAULT stays (R58 to R68). -/
def faultLine (p : Port) (s : State) : State :=
  if (s.lines.at p).state.suspended then s else endLine p .fault .lineFault s

/-- A fault is accepted on a line: its alarm begins, fault present is set and the line makes its fault transition (R36). -/
def takeFault (p : Port) (s : State) : State := faultLine p (acceptFault p true (beginCondition (.lineFault p) s))

/-- A fault found in a STANDBY group wakes it first (R35, R48). -/
def wakeForFault (p : Port) (s : State) : State :=
  if groupState s p = .standby then enterWaking (groupOf p) .fault s else s

/-- FAULT (R36): on a line whose fault state is absent, in every group state. A fault debounced by the sample at which another event
puts the group in STANDBY acts too, and wakes the group (log 31). -/
def execFault (p : Port) (s : State) : Host.Outcome State Fault Refusal :=
  .next (act (fun s => if hasLine s p && !(s.scan.at p).fault then takeFault p (wakeForFault p s) else s) s)

/-- A fault-clear is accepted on a line: its alarm's condition ends, fault present clears and a FAULT line goes to IDLE (R36, R68). -/
def takeFaultClear (p : Port) (s : State) : State :=
  let t := acceptFault p false (endCondition (.lineFault p) s)
  if (s.lines.at p).state = .fault then enterBare p .idle .normal t else t

/-- FAULT_CLEAR (R36): on a line whose fault state is present; a STANDBY group has none (R35). -/
def execFaultClear (p : Port) (s : State) : Host.Outcome State Fault Refusal :=
  .next (act (fun s =>
    if hasLine s p && (s.scan.at p).fault && decide (groupState s p ≠ .standby) then takeFaultClear p s else s) s)

/-! ## MONITOR contacts (R37, R38, R47) -/

/-- The contact state of a port is accepted: MONITOR_EVENT, then the CONTACT alarm begins or ends (R38). -/
def takeContact (p : Port) (c : ContactState) (s : State) : State :=
  let t := report (.monitorEvent p c) s
  match c with
  | .closed => beginCondition (.contact p) t
  | .opened => endCondition (.contact p) t

/-- The sample at which a contact change is accepted: debounced in a group sampled at the normal rate, and a single sample, with no
runs, in a STANDBY group (R37, R47). -/
def contactSample (p : Port) (c : ContactState) (s : State) : State :=
  let sc := s.scan.at p
  let sc := if hookSampled s p then sc.contactTaken c (wholeSamples s.params.debounce) else { sc with contact := c }
  setHookPin p (decide (c = .closed)) (setScan p sc s)

/-- CONTACT_CHANGE (R38): on a MONITOR port whose contact state is the other one, in a group that samples contacts. A change debounced by
the sample at which another event puts the group in STANDBY acts too (log 31). -/
def execContactChange (p : Port) (c : ContactState) (s : State) : Host.Outcome State Fault Refusal :=
  .next (actQuietly (fun s =>
    if isMonitor s p && decide ((s.scan.at p).contact ≠ c) && decide (groupState s p ≠ .waking)
    then takeContact p c (contactSample p c s) else s) s)

end Sys2Proof.Machine
end

