-- ==== Sys2Proof/Machine/Clock.lean ====
section
/-! DEFINITION. What the part does of its own when no command waits (log 3): first what is due at once, then one millisecond, in
which timers count down, a frame and a piece of a record go out, and every second millisecond the sense inputs are sampled. What
comes about is put into the queue of commands. -/

namespace Sys2Proof.Machine

/-! ## Due at once -/

/-- The event that needs no time: a warm reset to begin (R185), an entry to start (R156). A request that can be taken has been taken by
the command that completed it or emptied the reply slot (R191). -/
def dueNow (s : State) : List Instr :=
  if s.warm = .due then [.warmResetBegin] else if maySend s && !s.txq.isEmpty then [.entryStart] else []

/-! ## Timers -/

/-- Whether a timer runs out within the next millisecond. -/
def runsOut (t : Option Nat) : Bool := match t with | some left => decide (left ≤ 1) | none => false

/-- A timer after one millisecond. -/
def countDown (t : Option Nat) : Option Nat := t.map (· - 1)

/-- The expiry of a line's timer: its kind follows from the state (4.5). -/
def lineExpiry (s : State) (p : Port) : Option Instr :=
  if runsOut (s.lines.at p).timer then
    some (if (s.lines.at p).state = .queued then .waitLimitExpiry p else .ringLimitExpiry p)
  else none

/-- The levels of a group's eight pins as one octet. -/
def groupLevels (pins : Table 64 Bool) (g : GroupId) : BitVec 8 :=
  (portsOf g).foldr (fun p acc => (acc <<< 1) ||| (if pins.at p then 1 else 0)) 0

/-- The expiries of a group: the end of settle, or a slow sample of its pins as they stand. -/
def groupExpiries (s : State) (g : GroupId) : List Instr :=
  (if runsOut (s.groups.at g).settle then [.settleExpiry g] else [])
    ++ (if runsOut (s.groups.at g).slow then [.slowScan g (groupLevels s.hookPin g) (groupLevels s.faultPin g)] else [])

/-- The expiry of a slot's reply timer. -/
def slotExpiry (s : State) (i : SlotId) : Option Instr :=
  match (s.sig.at i).timer with
  | some t =>
    if t.left ≤ 1 then some (match t.kind with | .seize => .seizeReplyExpiry i | .clear => .clearReplyExpiry i) else none
  | none => none

/-- Everything that runs out within the next millisecond, in a fixed order (log 3). -/
def expiries (s : State) : List Instr :=
  (if s.phaseMs + 1 < Config.phaseTime then [] else [.phaseBegin])
    ++ allGroups.flatMap (groupExpiries s)
    ++ allPorts.filterMap (lineExpiry s)
    ++ (if runsOut s.holdover then [.holdoverExpiry] else [])
    ++ (if runsOut (s.restartTimer.map (·.2)) then [.restartReplyExpiry] else [])
    ++ allSlots.filterMap (slotExpiry s)

/-- Every running timer counts one millisecond down, and the phase clock one up. -/
def countTimers (s : State) : State :=
  { s with
    phaseMs := s.phaseMs + 1
    groups := s.groups.map fun g => { g with settle := countDown g.settle, slow := countDown g.slow }
    lines := s.lines.map fun l => { l with timer := countDown l.timer }
    holdover := countDown s.holdover
    restartTimer := s.restartTimer.map fun t => (t.1, t.2 - 1)
    sig := s.sig.map fun g => { g with timer := g.timer.map fun t => { t with left := t.left - 1 } } }

/-! ## The lines out (R120, R187; log 28) -/

/-- The octets of the entry in flight that have not gone. -/
def flightOctets (s : State) : List Byte :=
  match s.inFlight with
  | some f => f.octets
  | none => []

/-- The frame of the next millisecond (R120). -/
def nextFrame (s : State) : List Byte :=
  trunkFrameOf (allSlots.map (bearerOut s)) ((flightOctets s)[0]?.getD Config.idleOctet)
    ((flightOctets s)[1]?.getD Config.idleOctet)

/-- One trunk frame is transmitted; it takes two octets of the entry in flight. -/
def transmitFrame (s : State) : State :=
  { s with trunkTx := nextFrame s, inFlight := s.inFlight.map fun f => { f with octets := f.octets.drop 2 } }

/-- Whether the next frame carries the last octet of the entry in flight (R157). -/
def entryEnds (s : State) : List Instr :=
  match s.inFlight with
  | some f => if f.octets.length ≤ 2 then [.entryComplete] else []
  | none => []

/-- The tenths of a bit of the record that have gone. -/
def recordSent : Transmitter → Nat
  | .idle => 0
  | .sendingReply _ n => n
  | .sendingReport _ _ n => n

/-- The transmitter with more of its record gone. -/
def Transmitter.advance (n : Nat) : Transmitter → Transmitter
  | .idle => .idle
  | .sendingReply lost k => .sendingReply lost (k + n)
  | .sendingReport r lost k => .sendingReport r lost (k + n)

/-- Whether the record being sent ends in the next millisecond: each of its octets takes ten bit times (R187). -/
def recordEnds (s : State) : List Instr :=
  if s.tx = .idle then []
  else if recordSent s.tx + s.rate.tenthsPerMs < 100 * (sendingOctets s).length then [] else [.recordComplete]

/-- The control line carries a millisecond of the record. -/
def carryRecord (s : State) : State := { s with tx := s.tx.advance s.rate.tenthsPerMs }

/-! ## The sense inputs (R19 to R27, R35, R37) -/

/-- One closed sample; where it ends a break on a decoding line, BREAK_END, which this sample brings about, counts it. -/
def closedSample (s : State) (p : Port) (c : Scanner) : Scanner :=
  if decodes s p && decide (0 < c.openRun) then c else { c with closedRun := c.closedRun + 2, openRun := 0, heldRun := 0 }

/-- One open sample. -/
def openSample (c : Scanner) : Scanner :=
  { c with openRun := c.openRun + 2, closedRun := 0, heldRun := if c.openRun = 0 then c.closedRun else c.heldRun }

/-- The hook runs of a port after a sample. -/
def hookRuns (s : State) (p : Port) (c : Scanner) : Scanner :=
  if countsHook s p || (hookSampled s p && isMonitor s p) then
    if s.hookPin.at p then closedSample s p c else openSample c
  else c

/-- The fault run of a port after a sample. -/
def faultRunOf (s : State) (p : Port) (c : Scanner) : Scanner :=
  if hasLine s p && decide (groupState s p ≠ .standby) then
    if s.faultPin.at p = c.fault then { c with faultRun := 0 }
    else { c with faultRun := min (c.faultRun + 2) Config.faultDebounce }
  else c

/-- The scanner record of a port after a sample at the normal rate (R19). -/
def sampleScan (s : State) (p : Port) : Scanner := faultRunOf s p (hookRuns s p (s.scan.at p))

/-- The closed run of a decoding line after a closed sample, with a break of 18 ms or less counted as closed (R24). -/
def makeRun (s : State) (p : Port) : Nat :=
  let c := s.scan.at p
  if c.openRun = 0 then c.closedRun + 2 else if c.openRun < Config.pulseMin then c.heldRun + c.openRun + 2 else 2

/-- What a closed sample brings about on a line (R21, R24, R27). -/
def closedEvents (s : State) (p : Port) : List Instr :=
  let c := s.scan.at p
  if decodes s p then
    (if 0 < c.openRun then [.breakEnd p c.openRun] else [])
      ++ (if (0 < c.pulses ∨ c.overrun) ∧ s.params.interdigit ≤ makeRun s p then [.digitComplete p] else [])
  else if awaitsOffHook s p ∧ s.params.debounce ≤ c.closedRun + 2 then [.offHook p]
  else []

/-- What an open sample brings about on a line (R21, R25). -/
def openEvents (s : State) (p : Port) : List Instr :=
  let c := s.scan.at p
  if decodes s p then (if s.params.flashMax < c.openRun + 2 then [.decodingOnHook p] else [])
  else if awaitsOnHook s p ∧ s.params.debounce ≤ c.openRun + 2 then [.onHook p]
  else []

/-- What a sample brings about on a MONITOR port (R20, R37). -/
def contactEvents (s : State) (p : Port) : List Instr :=
  let c := s.scan.at p
  if s.hookPin.at p then
    if c.contact = .opened ∧ s.params.debounce ≤ c.closedRun + 2 then [.contactChange p .closed] else []
  else if c.contact = .closed ∧ s.params.debounce ≤ c.openRun + 2 then [.contactChange p .opened]
  else []

/-- What a hook sample brings about. -/
def hookEvents (s : State) (p : Port) : List Instr :=
  if !hookSampled s p then []
  else if isMonitor s p then contactEvents s p
  else if s.hookPin.at p then closedEvents s p
  else openEvents s p

/-- What a fault sample brings about (R20, R35). -/
def faultEvents (s : State) (p : Port) : List Instr :=
  let c := s.scan.at p
  if hasLine s p && decide (groupState s p ≠ .standby) && decide (s.faultPin.at p ≠ c.fault)
      && decide (Config.faultDebounce ≤ c.faultRun + 2)
  then [if c.fault then .faultClear p else .fault p] else []

/-- What the sample of this millisecond brings about, port by port; none in the other millisecond of the period. Of one port's hook event
and fault event the hook event is taken first: the spec gives an outcome for either order (Table 4.12) and no order (log 3). What an
event of the sample does to a group does not take back the events behind it (log 31). Nor does a timer that expires in the same
millisecond and is taken first: a fault or fault-clear whose debounce completes as settle expires is accepted behind SETTLED, a point
that the spec leaves open (log 36). -/
def sampleEvents (s : State) : List Instr :=
  if s.oddSample then allPorts.flatMap fun p => hookEvents s p ++ faultEvents s p else []

/-- The scanner records after this millisecond. R19 samples the eight groups independently and gives no phase between them: the model
samples all of them in the same millisecond, a group that has just settled too (log 29). -/
def sampleAll (s : State) : State :=
  { s with
    oddSample := !s.oddSample
    scan := if s.oddSample then Vector.ofFn (sampleScan s) else s.scan }

/-! ## One millisecond, and the idle step -/

/-- Everything that the next millisecond brings about, found from the state at its beginning (log 36), in the order in which it is taken
(log 3). -/
def eventsOfMs (s : State) : List Instr := expiries s ++ entryEnds s ++ recordEnds s ++ sampleEvents s

/-- One millisecond passes. -/
def tick (s : State) : State :=
  { sampleAll (carryRecord (transmitFrame (countTimers s))) with pending := eventsOfMs s }

/-- A millisecond of a self-test; at its end the result is a free value (R183; log 14). -/
def tickSelfTest (left : Nat) (s : State) : State :=
  if left ≤ 1 then
    { s with
      power := .selfTest 0
      pending := [.selfTestEnd (Config.selfTestPasses s.freeIndex)]
      freeIndex := s.freeIndex + 1 }
  else { s with power := .selfTest (left - 1) }

/-- The running part with no command waiting: what is due at once, else one millisecond. -/
def idleRunning (s : State) : State :=
  let t := serve s
  match dueNow t with
  | [] => tick t
  | due => { t with pending := due }

/-- The step on an empty queue (log 3). -/
def idle (s : State) : State :=
  match s.power with
  | .held => s
  | .selfTest left => tickSelfTest left s
  | .running => idleRunning s

end Sys2Proof.Machine
end

