-- ==== Sys2Proof/Machine/HeadMessages.lean ====
section
/-! DEFINITION. The messages of the head terminal (spec/08, spec/05 section 5.5) and the frame that carries them: ACCEPT, REJECT,
PROGRESS, HEAD_CLEAR, HEAD_CLEAR_ACK, INCOMING, RESTART_ACK, FLOW, MALFORMED_HEAD_MESSAGE, TRUNK_FRAME. -/

namespace Sys2Proof.Machine

/-- A head message acts while messages are taken; in DOWN and RECOVERED none is (R131, R144). -/
def takeMessage (f : State → State) (s : State) : State := act (fun s => if s.link.messages then f s else s) s

/-! ## ACCEPT and REJECT (R146) -/

/-- The call that an ACCEPT or REJECT applies to: a RESERVED slot with direction OUT whose tag is known (Table 8.3). -/
def awaitingReply (s : State) (tag : Byte) : Option (SlotId × Call × Bool) :=
  match slotOfTag s tag.toNat with
  | some i =>
    match s.slots.at i with
    | .reserved c b => if c.direction = .out ∧ (s.sig.at i).tagKnown then some (i, c, b) else none
    | _ => none
  | none => none

/-- The call is connected: the reply timer stops, a repeat SEIZE goes, the slot becomes BUSY and the line ACTIVE_OUT. -/
def connectCall (i : SlotId) (c : Call) (b : Bool) (s : State) : State :=
  makeOwed i (enterLine c.line .activeOut (some (i, .out)) none .normal
    (setSlot i (.busy c b) (removeEntries i (stopReplyTimer i s))))

/-- An ACCEPT is taken. -/
def takeAccept (tag : Byte) (s : State) : State :=
  match awaitingReply s tag with
  | some (i, c, b) => connectCall i c b s
  | none => s

/-- ACCEPT (R146). -/
def execAccept (tag : Byte) (s : State) : Host.Outcome State Fault Refusal := .next (takeMessage (takeAccept tag) s)

/-- A REJECT is taken: a repeat SEIZE goes, the slot takes a local release and the line goes to PARKED. -/
def takeReject (tag : Byte) (r : Reason) (s : State) : State :=
  match awaitingReply s tag with
  | some (i, c, _) => enterBare c.line .parked r (freeSlot i (removeEntries i (stopReplyTimer i s)))
  | none => s

/-- REJECT (R146). -/
def execReject (tag : Byte) (r : Reason) (s : State) : Host.Outcome State Fault Refusal :=
  .next (takeMessage (takeReject tag r) s)

/-! ## PROGRESS (R147, R83) -/

/-- A PROGRESS(ANSWERED) is taken for a BUSY slot with direction OUT. -/
def takeProgress (tag : Byte) (s : State) : State :=
  match slotOfTag s tag.toNat with
  | some i =>
    match s.slots.at i with
    | .busy c b => if c.direction = .out then setSlot i (.busy { c with answered := true } b) s else s
    | _ => s
  | none => s

/-- PROGRESS (R147). -/
def execProgress (tag : Byte) (s : State) : Host.Outcome State Fault Refusal := .next (takeMessage (takeProgress tag) s)

/-! ## CLEAR and CLEAR_ACK (R148, R149, R153) -/

/-- The state a line takes at a head CLEAR: a called line goes to IDLE, any other to PARKED (Tables 4.6 to 4.10). -/
def clearedState (st : LineState) : LineState := if st.called then .idle else .parked

/-- A head CLEAR ends the call of a slot, with CLEAR_ACK owed. -/
def clearCall (i : SlotId) (c : Call) (r : Reason) (s : State) : State :=
  enterBare c.line (clearedState (s.lines.at c.line).state) r (releaseOwing i .clearAck s)

/-- A clear collision: the clear side becomes OWE_ACK, the reply timer stops, and CLEAR_ACK becomes owed against the part's CLEAR
where it stands (Table 8.7). -/
def collide (i : SlotId) (p : Port) (tag : Nat) (b : Bool) (s : State) : State :=
  let t := stopReplyTimer i (setSlot i (.clearing p tag .oweAck b) s)
  if (queuedEntry t i).isSome then convertEntry i .clearAck t
  else if flightSlot t = some i then setClearOwed i (some .clearAck) t
  else addSlotEntry false i .clearAck t

/-- A head CLEAR whose tag a slot holds, by the slot's state; none where the fourth row of Table 8.5 applies. -/
def clearBySlot (i : SlotId) (r : Reason) (s : State) : Option State :=
  match s.slots.at i with
  | .clearing _ _ .oweAck _ => some s
  | .clearing p t (.awaitAck _) b => if (s.sig.at i).tagKnown then some (collide i p t b s) else none
  | .reserved c _ => if (s.sig.at i).tagKnown then some (clearCall i c r s) else none
  | .busy c _ => if (s.sig.at i).tagKnown then some (clearCall i c r s) else none
  | .held c _ => if (s.sig.at i).tagKnown then some (clearCall i c r s) else none
  | _ => none

/-- A head CLEAR is taken (Table 8.5). -/
def takeHeadClear (tag : Byte) (r : Reason) (s : State) : State :=
  ((slotOfTag s tag.toNat).bind fun i => clearBySlot i r s).getD (addFreeEntry (.clearAck tag) s)

/-- HEAD_CLEAR (R148). -/
def execHeadClear (tag : Byte) (r : Reason) (s : State) : Host.Outcome State Fault Refusal :=
  .next (takeMessage (takeHeadClear tag r) s)

/-- A head CLEAR_ACK ends the clear exchange of a slot whose CLEAR has been sent; a repeat CLEAR goes (R149). -/
def takeHeadClearAck (tag : Byte) (s : State) : State :=
  match slotOfTag s tag.toNat with
  | some i =>
    match s.slots.at i with
    | .clearing _ _ (.awaitAck _) _ => if (s.sig.at i).clearSent then freeSlot i (removeEntries i s) else s
    | _ => s
  | none => s

/-- HEAD_CLEAR_ACK (R149). -/
def execHeadClearAck (tag : Byte) (s : State) : Host.Outcome State Fault Refusal :=
  .next (takeMessage (takeHeadClearAck tag) s)

/-! ## INCOMING (R94 to R96) -/

/-- The refusal of an INCOMING for a port's line, none where it is admitted: the checks of Table 5.6 after the lookup, in its order. A
line PARKED in CONFIG_PENDING or CONFIG is so refused with OUT_OF_SERVICE (Tables 5.6, 10.3), where R66 and R76 say BUSY (log 32). -/
def incomingRefusal (s : State) (p : Port) : Option Reason :=
  let st := (s.lines.at p).state
  if s.mode ≠ .normal then some .outOfService
  else if s.link = .resync then some .outOfService
  else if st.suspended ∨ s.bus = .claimed p then some .outOfService
  else if st ≠ .idle then some .busy
  else if isOrdinary s p ∧ (s.link.ordinary = false ∨ s.posture.callLimit ≤ activeCount s) then some .congested
  else if s.free = [] then some .congested
  else none

/-- A group in STANDBY enters WAKING as a called line of it leaves IDLE (R49). -/
def wakeForIncoming (p : Port) (s : State) : State :=
  if groupState s p = .standby then enterWaking (groupOf p) .incoming s else s

/-- The called line is handed to the Ring Scheduler at once where its group is sampled at the normal rate (R95, R107). -/
def handOnAtOnce (p : Port) (s : State) : State := if (groupState s p).awake then handOn p s else s

/-- An INCOMING admits its line: the head of the free slot list is reserved, the group wakes, the line enters OFFERED with
RING_LIMIT running, the OFFER is made and the line is handed on (R95). -/
def admitIncoming (p : Port) (i : SlotId) (ref : BitVec 16) (s : State) : State :=
  let t := enterLine p .offered (some (i, .inward)) (some (1000 * s.params.ringLimit)) .normal
    (wakeForIncoming p (reserve i p .inward s))
  handOnAtOnce p (addSlotEntry (isPriority s p) i (.offer ref) t)

/-- An INCOMING that passed the checks, with the head of the free slot list. -/
def offerCall (p : Port) (ref : BitVec 16) (s : State) : State :=
  match s.free with
  | i :: _ => admitIncoming p i ref s
  | [] => s

/-- An INCOMING is taken (R94, R96). -/
def takeIncoming (ref number : BitVec 16) (s : State) : State :=
  match lookup s number.toNat with
  | none => addFreeEntry (.refuse ref .unknownLine) s
  | some p =>
    match incomingRefusal s p with
    | some r => addFreeEntry (.refuse ref r) s
    | none => offerCall p ref s

/-- INCOMING (R94). -/
def execIncoming (ref number : BitVec 16) (s : State) : Host.Outcome State Fault Refusal :=
  .next (takeMessage (takeIncoming ref number) s)

/-! ## RESTART_ACK (R140) -/

/-- A RESTART_ACK settles every HELD slot in slot order and ends the RESTART exchange; it is taken in RESYNC alone (R139). -/
def takeRestartAck (tags : List Byte) (s : State) : State :=
  if s.link = .resync then enterService (removeQueuedRestart (inTurn allSlots (settleSlot tags) s)) else s

/-- RESTART_ACK (R140). -/
def execRestartAck (tags : List Byte) (s : State) : Host.Outcome State Fault Refusal :=
  .next (takeMessage (takeRestartAck tags) s)

/-! ## FLOW (R158, R159) -/

/-- The digits of an abandoned DIGITS return to the head of the line's buffer, unless the buffer has been emptied (R32, R33). -/
def returnDigits (m : Msg) (digits : List Digit) (s : State) : State :=
  match m with
  | .ofSlot _ p _ .digits =>
    let b := s.buffers.at p
    if 0 < b.lent then setBuffer p { b with digits := digits ++ b.digits, lent := 0 } s else s
  | _ => s

/-- The returned entry of a slot meets what the slot owes (R159). -/
def meetOwed (i : SlotId) (e : Entry) (s : State) : State :=
  match (s.sig.at i).owed with
  | some (.clear r) =>
    if e.slotMsg? = some .seize ∧ (s.sig.at i).tagKnown = false then freeSlot i (removeEntries i s)
    else convertEntry i (.clear r) (setClearOwed i none s)
  | some .clearAck => convertEntry i .clearAck (setClearOwed i none s)
  | none => s

/-- The entry in flight is abandoned and returns to the first place as a queued entry (R159). -/
def returnEntry (e : Entry) (f : InFlight) (s : State) : State :=
  let t := returnDigits e.msg f.digits { s with inFlight := none }
  match e.slot? with
  | some i => meetOwed i e t
  | none => t

/-- Sending stops at once (R158). -/
def stopNow (s : State) : State :=
  let t := { s with flow := .stopped }
  match s.txq.head?, s.inFlight with
  | some e, some f => returnEntry e f t
  | _, _ => t

/-- A FLOW is taken (Table 8.9). A STOP_NOW that finds the flow STOPPED changes nothing, also where an entry in flight at a STOP_AFTER
has not completed yet: that entry goes on (log 34). -/
def takeFlow (f : FlowCommand) (s : State) : State :=
  match f with
  | .stopAfter => { s with flow := .stopped }
  | .stopNow => if s.flow = .go then stopNow s else s
  | .go => { s with flow := .go }

/-- FLOW (R158). -/
def execFlow (f : FlowCommand) (s : State) : Host.Outcome State Fault Refusal := .next (takeMessage (takeFlow f) s)

/-! ## A message that breaks the layout, and the frame (R199, R122) -/

/-- MALFORMED_HEAD_MESSAGE (R199): discarded with no reply, no change of state and no report. As with every event, an IDLE transmitter
with something to send starts that (R192). -/
def execMalformedHeadMessage (_octets : List Byte) (s : State) : Host.Outcome State Fault Refusal := .next (whileRunning id s)

/-- A head message that a frame completes is taken as its own row is; one that breaks the layout is discarded (R144, R199; log 11). -/
def takeHead (i : Instr) (s : State) : State :=
  match i with
  | .accept tag => takeMessage (takeAccept tag) s
  | .reject tag r => takeMessage (takeReject tag r) s
  | .progress tag => takeMessage (takeProgress tag) s
  | .headClear tag r => takeMessage (takeHeadClear tag r) s
  | .headClearAck tag => takeMessage (takeHeadClearAck tag) s
  | .incoming ref number => takeMessage (takeIncoming ref number) s
  | .restartAck tags => takeMessage (takeRestartAck tags) s
  | .flow f => takeMessage (takeFlow f) s
  | _ => s

/-- The message that a frame completes, decoded. -/
def frameMessage (octets : List Byte) (s : State) : Option Instr :=
  (assemblerAfter (goodFrame s octets) (frameOf s octets) s).2.bind decodeHeadMessage

/-- One frame period: the frame is judged, and then the message that it completes is taken (R122). -/
def takeFrame (octets : List Byte) (s : State) : State :=
  let t := act (judgeFrame octets) s
  match frameMessage octets s with
  | some i => takeHead i t
  | none => t

/-- TRUNK_FRAME (R122). During a cold reset no frame is judged (R183). -/
def execTrunkFrame (octets : List Byte) (s : State) : Host.Outcome State Fault Refusal :=
  .next (whileRunning (takeFrame octets) s)

end Sys2Proof.Machine
end

