-- ==== Sys2Proof/Machine/ControlPort.lean ====
section
/-! DEFINITION. The control port below its requests (spec/11): the receiver and the buffer, the taking of one request, and
LINE_BREAK, FRAMING_ERROR. -/

namespace Sys2Proof.Machine

/-! ## Receiving (R188, R200) -/

/-- The request of a whole frame, none where its check fails (R188, R200). -/
def requestOfFrame (frame : List Byte) : Option Request :=
  match frame with
  | _ :: covered =>
    let body := covered.take (covered.length - 2)
    if covered.drop (covered.length - 2) = twoBytes (crc16 body).toNat then
      match body with
      | _ :: _ :: num :: kind :: rest => some { num := num, kind := kind, body := rest }
      | _ => none
    else none
  | [] => none

/-- One octet into the receiver: the receiver after it, and the frame it completes. The length is taken when both its octets have
come, and must be 2 to 16 (R188, R200). -/
def receiveOctet (a : Assembler) (o : Byte) : Assembler × Option (List Byte) :=
  match a with
  | .hunting => (if o = Config.startOctet then .assembling [o] else .hunting, none)
  | .assembling held =>
    let now := held ++ [o]
    match now[1]?, now[2]? with
    | some hi, some lo =>
      let n := ofTwoBytes hi lo
      if n < 2 ∨ 16 < n then (.hunting, none)
      else if now.length < n + 5 then (.assembling now, none)
      else (.hunting, some now)
    | _, _ => (.assembling now, none)

/-- A complete request joins the buffer, or is lost where two wait (R190). -/
def joinRequests (r : Request) (s : State) : State :=
  if s.requests.length < Config.requestPlaces then { s with requests := s.requests ++ [r] }
  else { s with requestLost := true }

/-- The octets of a partial frame are discarded. -/
def dropPartial (s : State) : State := { s with receiver := .hunting }

/-- LINE_BREAK (R189). -/
def execLineBreak (s : State) : Host.Outcome State Fault Refusal :=
  .next (whileRunning dropPartial s)

/-- FRAMING_ERROR (R188): in ASSEMBLING the octets held are discarded, in HUNTING it is passed over. -/
def execFramingError (s : State) : Host.Outcome State Fault Refusal :=
  .next (whileRunning dropPartial s)

/-! ## Taking a request (R190, R191) -/

/-- Whether a request can be taken: the reply slot is empty and no request waits ahead of it. -/
def canTake (r : Request) (s : State) : Bool :=
  s.reply.isNone && (s.requests.isEmpty || decide (s.requests.head? = some r))

/-- A request is taken in one step: it leaves the buffer, it is judged, its reply is put in the reply slot ahead of its reports, and
unless it is refused its effect follows (R191). -/
def takeNow (r : Request) (judge : State → ReplyOutcome) (effect : State → State) (s : State) : State :=
  let t := { s with requests := s.requests.tail }
  match judge t with
  | .refused why => answer r.num (.refused why) t
  | o => effect (answer r.num o t)

/-- A request command: it is taken where it can be; otherwise it has just completed and joins the buffer (R190); behind a WARM_RESET
it is discarded (R185). (Logs 6, 8.) -/
def takeRequest (r : Request) (judge : State → ReplyOutcome) (effect : State → State) (s : State) : State :=
  whileRunning (fun t =>
    if t.warm ≠ .none then t
    else if canTake r t then takeNow r judge effect t
    else joinRequests r t) s

/-- DONE, or a refusal. -/
def doneUnless : Option RequestRefusal → ReplyOutcome
  | some why => .refused why
  | none => .done

end Sys2Proof.Machine
end

