-- ==== Sys2Proof/Machine/ConfigRequests.lean ====
section
/-! DEFINITION. The requests that change the configuration: CONFIG_ENTER_ORDERLY, CONFIG_ENTER_FORCE, CONFIG_EXIT, PARAM_SET
(spec/10), MAP_SET (spec/01). Each has its refusal, in the order of its checks after the form check of R201, and its effect. -/

namespace Sys2Proof.Machine

/-! ## CONFIG_ENTER (R176, R178) -/

/-- CONFIG_ENTER's refusal: the body must be the one octet of its form (R176, R201). -/
def configEnterRefusal (form : Nat) (body : List Byte) : Option RequestRefusal :=
  if oneCode 2 body = some form then none else some .badValue

/-- The lines of the wait queue go to PARKED with reason CONFIG, in queue order (R75). -/
def parkQueued (s : State) : State := inTurn s.waitQueue (fun p t => enterBare p .parked .config t) s

/-- CONFIG_ENTER(ORDERLY) taken (R176). The pass on to CONFIG where no slot is in use is the end of the event. -/
def enterOrderly (s : State) : State :=
  if s.mode = .normal then parkQueued (report (.modeEvent .configPending .request) (setMode .configPending s)) else s

/-- CONFIG_ENTER_ORDERLY (R176). -/
def runConfigEnterOrderly (num : Byte) (body : List Byte) (s : State) : State :=
  takeRequest ⟨num, 0x02, body⟩ (fun _ => doneUnless (configEnterRefusal 0 body)) (act enterOrderly) s

/-- CONFIG_ENTER_ORDERLY. -/
def execConfigEnterOrderly (num : Byte) (body : List Byte) (s : State) : Host.Outcome State Fault Refusal := .next (runConfigEnterOrderly num body s)

/-- A line in a call under CONFIG_ENTER(FORCE) (Table 10.4). -/
def forceLine (p : Port) (s : State) : State :=
  match (s.lines.at p).state with
  | .offered => endLine p .idle .config s
  | .ringing => endLine p .idle .config s
  | .seizing => endLine p .parked .config s
  | .activeOut => endLine p .parked .config s
  | .activeIn => endLine p .parked .config s
  | .holdover => endLine p .parked .config s
  | _ => s

/-- CONFIG_ENTER(FORCE) taken: every call ends, queued lines in queue order and lines in a call in port order, the ringing stops,
and the mode becomes CONFIG (R178, R114). -/
def enterForced (s : State) : State :=
  if s.mode = .config then s
  else report (.modeEvent .config .request) (setMode .config (emptyRing (inTurn allPorts forceLine (parkQueued s))))

/-- CONFIG_ENTER_FORCE (R178). -/
def runConfigEnterForce (num : Byte) (body : List Byte) (s : State) : State :=
  takeRequest ⟨num, 0x02, body⟩ (fun _ => doneUnless (configEnterRefusal 1 body)) (act enterForced) s

/-- CONFIG_ENTER_FORCE. -/
def execConfigEnterForce (num : Byte) (body : List Byte) (s : State) : Host.Outcome State Fault Refusal := .next (runConfigEnterForce num body s)

/-! ## CONFIG_EXIT (R180) -/

/-- CONFIG_EXIT's refusal (Table 10.5). -/
def configExitRefusal (body : List Byte) (s : State) : Option RequestRefusal :=
  if emptyBody body = none then some .badValue
  else if s.mode = .configPending then some .notYet
  else if s.mode = .config ∧ s.selfTest = .fail then some .selfTestFailed
  else none

/-- CONFIG_EXIT taken: in CONFIG the mode becomes NORMAL. -/
def exitConfig (s : State) : State :=
  if s.mode = .config then report (.modeEvent .normal .request) (setMode .normal s) else s

/-- CONFIG_EXIT (R180). -/
def runConfigExit (num : Byte) (body : List Byte) (s : State) : State :=
  takeRequest ⟨num, 0x03, body⟩ (fun t => doneUnless (configExitRefusal body t)) (act exitConfig) s

/-- CONFIG_EXIT. -/
def execConfigExit (num : Byte) (body : List Byte) (s : State) : Host.Outcome State Fault Refusal := .next (runConfigExit num body s)

/-! ## PARAM_SET (R181) -/

/-- PARAM_SET's refusal: the form, the mode, then the range of Table 10.2 (R181, R201; log 21). -/
def paramSetRefusal (body : List Byte) (s : State) : Option RequestRefusal :=
  match paramSetFields body with
  | none => some .badValue
  | some (k, v) =>
    if s.mode ≠ .config then some .wrongMode
    else if (s.params.withValue k v).isNone then some .badValue
    else none

/-- PARAM_SET taken: the parameter takes the value. -/
def setParam (body : List Byte) (s : State) : State :=
  match (paramSetFields body).bind fun f => s.params.withValue f.1 f.2 with
  | some ps => { s with params := ps }
  | none => s

/-- PARAM_SET (R181). -/
def runParamSet (num : Byte) (body : List Byte) (s : State) : State :=
  takeRequest ⟨num, 0x05, body⟩ (fun t => doneUnless (paramSetRefusal body t)) (setParam body) s

/-- PARAM_SET. -/
def execParamSet (num : Byte) (body : List Byte) (s : State) : Host.Outcome State Fault Refusal := .next (runParamSet num body s)

/-! ## MAP_SET (R11 to R17) -/

/-- Whether the index holds the number of a role for another port (R12). -/
def numberTaken (s : State) (p : Port) (r : PortRole) : Bool :=
  match r.number? with
  | some n => allPorts.any fun q => decide (q ≠ p) && decide ((s.ports.at q).number? = some n)
  | none => false

/-- Whether the port is busy for a remap: the test bus names it, or its line names a slot (R12). -/
def portBusy (s : State) (p : Port) : Bool :=
  decide (s.bus = .claimed p) || decide (s.bus = .held p) || (s.lines.at p).call.isSome

/-- The port and role that a MAP_SET names, none where a value is outside its range (R11). -/
def mapSetTarget (body : List Byte) : Option (Port × PortRole) :=
  match mapSetFields body with
  | some (p, role, number, cls) => (portOfNo p).bind fun q => (mapSetRole role number cls).map fun r => (q, r)
  | none => none

/-- MAP_SET's refusal: the form, the mode, the values, then the checks of R12 in their order (log 21). -/
def mapSetRefusal (body : List Byte) (s : State) : Option RequestRefusal :=
  if (mapSetFields body).isNone then some .badValue
  else if s.mode ≠ .config then some .wrongMode
  else
    match mapSetTarget body with
    | none => some .badValue
    | some (p, r) =>
      if !offers p r then some .roleNotOffered
      else if numberTaken s p r then some .numberInUse
      else if portBusy s p then some .portBusy
      else none

/-- The scanner record after a remap: between two roles with a line the sensing is kept, otherwise it starts afresh (R14). -/
def Scanner.remapped (c : Scanner) (old new : PortRole) : Scanner :=
  if old.hasLine && new.hasLine then c.trainCleared else Scanner.initial

/-- The line record after a remap (R15). -/
def remappedLine (c : Scanner) (new : PortRole) : Line :=
  { Line.unequipped with
    state := if new.hasLine then .idle else .unequipped, faultPresent := new.hasLine && c.fault }

/-- The alarms of the port after a remap: the conditions that R14 ended are reported, then every entry of the port whose condition is
absent leaves the list (R16). -/
def remapAlarms (p : Port) (old new : Scanner) (s : State) : State :=
  let s := if old.fault && !new.fault then endCondition (.lineFault p) s else s
  let s := if old.contact = .closed ∧ new.contact = .opened then endCondition (.contact p) s else s
  setAlarms (s.alarms.filter fun e => e.present || !decide (e.id = .lineFault p ∨ e.id = .contact p)) s

/-- The transition of a new IDLE line at its kept sense states, or, where there is none, what the idle line means for its group
(R15, R16, R44; log 19). -/
def remapTransition (p : Port) (c : Scanner) (new : PortRole) (s : State) : State :=
  if new.hasLine && c.fault then enterBare p .fault .lineFault s
  else if new.hasLine && decide (c.hook = .offHook) then enterBare p .parked .config s
  else groupIdle (groupOf p) s

/-- A remap (R14 to R17). -/
def remap (p : Port) (new : PortRole) (s : State) : State :=
  let old := s.ports.at p
  let c := (s.scan.at p).remapped old new
  let t := emptyBuffer p (setLine p (remappedLine c new) (setScan p c (setPort p new s)))
  let t := remapAlarms p (s.scan.at p) c t
  let t := if old.hasLine || new.hasLine then callEvent p (remappedLine c new).state .config t else t
  remapTransition p c new t

/-- Whether a MAP_SET changes the class alone (Table 1.6). -/
def classChange (old new : PortRole) : Bool := old.isSubscriber && new.isSubscriber && decide (old.number? = new.number?)

/-- MAP_SET taken: classed by comparison with the port record (Table 1.6). -/
def setMap (body : List Byte) (s : State) : State :=
  match mapSetTarget body with
  | some (p, r) =>
    if r = s.ports.at p then s
    else if classChange (s.ports.at p) r then setPort p r s
    else remap p r s
  | none => s

/-- MAP_SET (R11 to R17). -/
def runMapSet (num : Byte) (body : List Byte) (s : State) : State :=
  takeRequest ⟨num, 0x04, body⟩ (fun t => doneUnless (mapSetRefusal body t)) (act (setMap body)) s

/-- MAP_SET. -/
def execMapSet (num : Byte) (body : List Byte) (s : State) : Host.Outcome State Fault Refusal := .next (runMapSet num body s)

end Sys2Proof.Machine
end

