-- ==== Sys2Proof/Machine/Queries.lean ====
section
/-! DEFINITION. IDENTIFY and the five queries (spec/11, R193): each is answered with a picture of the part at the moment it is
taken, and changes no state. -/

namespace Sys2Proof.Machine

/-- A data reply to a request with an empty body, BAD_VALUE to any other body (R201). -/
def dataReply (body : List Byte) (d : DataReply) : ReplyOutcome :=
  if emptyBody body = none then .refused .badValue else .data d

/-- IDENTIFY (R184, R193). -/
def runIdentify (num : Byte) (body : List Byte) (s : State) : State :=
  takeRequest ⟨num, 0x01, body⟩ (fun t => dataReply body (.identify t.selfTest t.mode t.posture t.params)) id s

/-- IDENTIFY. -/
def execIdentify (num : Byte) (body : List Byte) (s : State) : Host.Outcome State Fault Refusal := .next (runIdentify num body s)

/-- The picture of a port (Table 11.4). -/
def pictureLine (s : State) (p : Port) : LinePicture :=
  { port := p, role := s.ports.at p, line := s.lines.at p, buffer := (s.buffers.at p).digits, scan := s.scan.at p
    group := groupState s p, wake := (s.groups.at (groupOf p)).wake, bus := s.bus }

/-- The port that a body names. -/
def portNamed (body : List Byte) : Option Port := (oneOctet body).bind portOfNo

/-- QUERY_LINE's outcome: BAD_VALUE where the port is above 63. -/
def queryLineOutcome (body : List Byte) (s : State) : ReplyOutcome :=
  match portNamed body with
  | some p => .data (.line (pictureLine s p))
  | none => .refused .badValue

/-- QUERY_LINE (R193). -/
def runQueryLine (num : Byte) (body : List Byte) (s : State) : State :=
  takeRequest ⟨num, 0x0F, body⟩ (queryLineOutcome body) id s

/-- QUERY_LINE. -/
def execQueryLine (num : Byte) (body : List Byte) (s : State) : Host.Outcome State Fault Refusal := .next (runQueryLine num body s)

/-- The picture of the slots (Table 11.4). -/
def pictureSlots (s : State) : SlotsPicture :=
  { slots := allSlots.map fun i => (s.slots.at i, s.sig.at i), free := s.free, active := activeCount s
    posture := s.posture, mark := s.mark, nextTag := s.nextTag, nextOrder := s.nextOrder }

/-- QUERY_SLOTS (R193). -/
def runQuerySlots (num : Byte) (body : List Byte) (s : State) : State :=
  takeRequest ⟨num, 0x10, body⟩ (fun t => dataReply body (.slots (pictureSlots t))) id s

/-- QUERY_SLOTS. -/
def execQuerySlots (num : Byte) (body : List Byte) (s : State) : Host.Outcome State Fault Refusal := .next (runQuerySlots num body s)

/-- A queued line with its class and the time left of its line timer. -/
def waitingLine (s : State) (p : Port) : Port × Class × Option Nat :=
  (p, if isPriority s p then .priority else .ordinary, (s.lines.at p).timer)

/-- The picture of the queues (Table 11.4). -/
def pictureQueues (s : State) : QueuesPicture :=
  { waiting := s.waitQueue.map (waitingLine s), phase := s.phase
    cells := allCells.map fun k => (s.cells.at k).map fun e => (e, (s.lines.at e.port).state)
    ringQueue := s.ringQueue.map (waitingLine s), txq := s.txq, inFlight := s.inFlight.isSome, flow := s.flow }

/-- QUERY_QUEUES (R193). -/
def runQueryQueues (num : Byte) (body : List Byte) (s : State) : State :=
  takeRequest ⟨num, 0x11, body⟩ (fun t => dataReply body (.queues (pictureQueues t))) id s

/-- QUERY_QUEUES. -/
def execQueryQueues (num : Byte) (body : List Byte) (s : State) : Host.Outcome State Fault Refusal := .next (runQueryQueues num body s)

/-- The picture of the link (Table 11.4). -/
def pictureLink (s : State) : LinkPicture :=
  { link := s.link, score := s.score, align := s.align, run := s.run, releaseFlag := s.releaseFlag
    cabinet := s.params.cabinetRelease, holdoverTime := s.params.holdover, holdover := s.holdover
    restart := s.restartTimer }

/-- QUERY_LINK (R193). -/
def runQueryLink (num : Byte) (body : List Byte) (s : State) : State :=
  takeRequest ⟨num, 0x12, body⟩ (fun t => dataReply body (.link (pictureLink t))) id s

/-- QUERY_LINK. -/
def execQueryLink (num : Byte) (body : List Byte) (s : State) : Host.Outcome State Fault Refusal := .next (runQueryLink num body s)

/-- QUERY_ALARMS (R193). -/
def runQueryAlarms (num : Byte) (body : List Byte) (s : State) : State :=
  takeRequest ⟨num, 0x13, body⟩ (fun t => dataReply body (.alarms t.alarms)) id s

/-- QUERY_ALARMS. -/
def execQueryAlarms (num : Byte) (body : List Byte) (s : State) : Host.Outcome State Fault Refusal := .next (runQueryAlarms num body s)

end Sys2Proof.Machine
end

