-- ==== Sys2Proof/Machine/ServiceRequests.lean ====
section
/-! DEFINITION. The requests that act in every mode: POSTURE_SET, SLOT_BLOCK, SLOT_UNBLOCK (spec/05), GROUP_STANDBY, GROUP_WAKE
(spec/03), TEST_CLAIM_WAIT, TEST_CLAIM_FORCE, TEST_RELEASE (spec/09), TRUNK_RELEASE (spec/07), ALARM_ACK, UNKNOWN_REQUEST (spec/11),
WARM_RESET (spec/10). -/

namespace Sys2Proof.Machine

/-- BAD_VALUE where a body names nothing. -/
def badUnless {α : Type} (operand : Option α) : Option RequestRefusal := if operand.isNone then some .badValue else none

/-! ## POSTURE_SET (R86, R87, R116 to R118) -/

/-- The posture that a body names. -/
def postureNamed (body : List Byte) : Option Posture := (oneCode 3 body).map postureOfCode

/-- A line taken out of its cell: its drive goes off, and a RINGING line returns to OFFERED with reason CONGESTED (R116, R63). -/
def demote (e : Placed) (s : State) : State :=
  let t := { s with ringDrive := s.ringDrive.put e.port false }
  let l := s.lines.at e.port
  if l.state = .ringing then enterLine e.port .offered l.call l.timer .congested t else t

/-- The ring queue with lines taken out of cells at the head of their class (R116). -/
def rejoin (s : State) (out q : List Port) : List Port :=
  out.filter (isPriority s) ++ q.takeWhile (isPriority s)
    ++ (out.filter (fun p => !isPriority s p) ++ q.dropWhile (isPriority s))

/-- The lines beyond the ring capacity leave their cells, those with the highest numbers, and the ring queue is scanned (R116, R117). -/
def shedRinging (s : State) : State :=
  let cap := s.posture.ringCapacity
  let out := byNumber (allCells.flatMap fun k => (s.cells.at k).drop cap)
  let t := { s with cells := s.cells.map fun c => c.take cap }
  let t := inTurn out demote t
  scanRing (setRingQueue (rejoin t (out.map (·.port)) t.ringQueue) t)

/-- A new posture is taken; a fall acts on the ringing at once, and what a rise starts is the end of the event (R87). -/
def takePosture (p : Posture) (s : State) : State :=
  let t := { s with posture := p }
  if p.rank < s.posture.rank then shedRinging t else t

/-- POSTURE_SET taken. -/
def setPosture (body : List Byte) (s : State) : State :=
  match postureNamed body with
  | some p => if p = s.posture then s else takePosture p s
  | none => s

/-- POSTURE_SET (R86). -/
def runPostureSet (num : Byte) (body : List Byte) (s : State) : State :=
  takeRequest ⟨num, 0x06, body⟩ (fun _ => doneUnless (badUnless (postureNamed body))) (act (setPosture body)) s

/-- POSTURE_SET. -/
def execPostureSet (num : Byte) (body : List Byte) (s : State) : Host.Outcome State Fault Refusal := .next (runPostureSet num body s)

/-! ## GROUP_STANDBY and GROUP_WAKE (R42, R43, R52) -/

/-- The group and the wake flag that a body names. -/
def standbyNamed (body : List Byte) : Option (GroupId × Bool) :=
  (numberAndFlag body).bind fun f => (groupOfNo f.1).map fun g => (g, f.2)

/-- GROUP_STANDBY taken for a group: the wake flag is set, and an ACTIVE group sleeps at once or waits for its lines (R42, R43). -/
def requestStandby (g : GroupId) (wake : Bool) (s : State) : State :=
  let t := setGroup g { s.groups.at g with wake := wake } s
  if (s.groups.at g).state = .active then
    if groupQuiet s g then enterStandby g .request t
    else report (.groupEvent g .standbyPending .request)
      (setGroup g { t.groups.at g with state := .standbyPending } t)
  else t

/-- GROUP_STANDBY taken. -/
def setStandby (body : List Byte) (s : State) : State :=
  match standbyNamed body with
  | some (g, w) => requestStandby g w s
  | none => s

/-- GROUP_STANDBY (R42, R43). -/
def runGroupStandby (num : Byte) (body : List Byte) (s : State) : State :=
  takeRequest ⟨num, 0x07, body⟩ (fun _ => doneUnless (badUnless (standbyNamed body)))
    (setStandby body) s

/-- GROUP_STANDBY. -/
def execGroupStandby (num : Byte) (body : List Byte) (s : State) : Host.Outcome State Fault Refusal := .next (runGroupStandby num body s)

/-- The group that a body names. -/
def groupNamed (body : List Byte) : Option GroupId := (oneOctet body).bind groupOfNo

/-- GROUP_WAKE taken for a group (Table 3.3). -/
def wakeGroup (g : GroupId) (s : State) : State :=
  match (s.groups.at g).state with
  | .standby => enterWaking g .request s
  | .standbyPending => report (.groupEvent g .active .request) (setGroup g { s.groups.at g with state := .active } s)
  | _ => s

/-- GROUP_WAKE taken. -/
def setAwake (body : List Byte) (s : State) : State :=
  match groupNamed body with
  | some g => wakeGroup g s
  | none => s

/-- GROUP_WAKE (R52). -/
def runGroupWake (num : Byte) (body : List Byte) (s : State) : State :=
  takeRequest ⟨num, 0x08, body⟩ (fun _ => doneUnless (badUnless (groupNamed body)))
    (setAwake body) s

/-- GROUP_WAKE. -/
def execGroupWake (num : Byte) (body : List Byte) (s : State) : Host.Outcome State Fault Refusal := .next (runGroupWake num body s)

/-! ## TEST_CLAIM and TEST_RELEASE (R165 to R171) -/

/-- The port that a TEST_CLAIM of the given form names; none where the port is above 63 or the form is another. -/
def claimNamed (force : Bool) (body : List Byte) : Option Port :=
  (numberAndFlag body).bind fun f => if f.2 = force then portOfNo f.1 else none

/-- Whether the bus is HELD or CLAIMED for another port. -/
def busElsewhere (s : State) (p : Port) : Bool :=
  match s.bus with
  | .free => false
  | .claimed q => decide (q ≠ p)
  | .held q => decide (q ≠ p)

/-- TEST_CLAIM's refusal (Table 9.3). -/
def claimRefusal (force : Bool) (body : List Byte) (s : State) : Option RequestRefusal :=
  match claimNamed force body with
  | none => some .badValue
  | some p =>
    if !hasLine s p then some .badValue
    else if !hookSampled s p then some .groupAsleep
    else if busElsewhere s p then some .testBusy
    else none

/-- A line is forced into TEST: its slot is released with reason MAINTENANCE (R169). -/
def forceTest (p : Port) (s : State) : State := grantBus p .forced (releaseLine p .maintenance s)

/-- A WAIT claim (R166, R167, R170). -/
def claimWaiting (p : Port) (s : State) : State :=
  if s.bus = .free then
    if (s.lines.at p).state.claimable then grantBus p .immediate s
    else if (s.lines.at p).state.holdsSlot then setBus (.claimed p) s
    else s
  else s

/-- A FORCE claim: granted at once, or the line is taken out of its call; a claim that stands for the port escalates (R169, R170). -/
def claimForced (p : Port) (s : State) : State :=
  if s.bus = .free ∧ (s.lines.at p).state.claimable then grantBus p .immediate s
  else if (s.bus = .free ∨ s.bus = .claimed p) ∧ (s.lines.at p).state.holdsSlot then forceTest p s
  else s

/-- TEST_CLAIM(WAIT) taken. -/
def setClaim (body : List Byte) (s : State) : State :=
  match claimNamed false body with
  | some p => claimWaiting p s
  | none => s

/-- TEST_CLAIM_WAIT (R165 to R170). -/
def runTestClaimWait (num : Byte) (body : List Byte) (s : State) : State :=
  takeRequest ⟨num, 0x09, body⟩ (fun t => doneUnless (claimRefusal false body t))
    (act (setClaim body)) s

/-- TEST_CLAIM_WAIT. -/
def execTestClaimWait (num : Byte) (body : List Byte) (s : State) : Host.Outcome State Fault Refusal := .next (runTestClaimWait num body s)

/-- TEST_CLAIM(FORCE) taken. -/
def setForcedClaim (body : List Byte) (s : State) : State :=
  match claimNamed true body with
  | some p => claimForced p s
  | none => s

/-- TEST_CLAIM_FORCE (R165 to R170). -/
def runTestClaimForce (num : Byte) (body : List Byte) (s : State) : State :=
  takeRequest ⟨num, 0x09, body⟩ (fun t => doneUnless (claimRefusal true body t))
    (act (setForcedClaim body)) s

/-- TEST_CLAIM_FORCE. -/
def execTestClaimForce (num : Byte) (body : List Byte) (s : State) : Host.Outcome State Fault Refusal := .next (runTestClaimForce num body s)

/-- TEST_RELEASE's refusal (Table 9.5). -/
def testReleaseRefusal (body : List Byte) (s : State) : Option RequestRefusal :=
  if emptyBody body = none then some .badValue else if s.bus = .free then some .notHeld else none

/-- TEST_RELEASE taken: a HELD line goes to FAULT or IDLE by its fault present, a claim is cancelled (R171, R67). -/
def releaseBus (s : State) : State :=
  match s.bus with
  | .free => s
  | .claimed _ => setBus .free s
  | .held p =>
    if (s.lines.at p).faultPresent then enterBare p .fault .lineFault (setBus .free s)
    else enterBare p .idle .maintenance (setBus .free s)

/-- TEST_RELEASE (R171). -/
def runTestRelease (num : Byte) (body : List Byte) (s : State) : State :=
  takeRequest ⟨num, 0x0A, body⟩ (fun t => doneUnless (testReleaseRefusal body t)) (act releaseBus) s

/-- TEST_RELEASE. -/
def execTestRelease (num : Byte) (body : List Byte) (s : State) : Host.Outcome State Fault Refusal := .next (runTestRelease num body s)

/-! ## SLOT_BLOCK and SLOT_UNBLOCK (R102, R103) -/

/-- The slot that a body names. -/
def slotNamed (body : List Byte) : Option SlotId := (oneOctet body).bind slotOfNo

/-- SLOT_BLOCK taken for a slot (Table 5.7). -/
def blockSlot (i : SlotId) (s : State) : State :=
  match s.slots.at i with
  | .free => setSlot i (.blocked .cabinet) (setFree (s.free.erase i) s)
  | .blocked _ => s
  | sl => setSlot i (sl.withBlockPending true) s

/-- SLOT_BLOCK taken. -/
def setBlock (body : List Byte) (s : State) : State :=
  match slotNamed body with
  | some i => blockSlot i s
  | none => s

/-- SLOT_BLOCK (R102). -/
def runSlotBlock (num : Byte) (body : List Byte) (s : State) : State :=
  takeRequest ⟨num, 0x0B, body⟩ (fun _ => doneUnless (badUnless (slotNamed body)))
    (setBlock body) s

/-- SLOT_BLOCK. -/
def execSlotBlock (num : Byte) (body : List Byte) (s : State) : Host.Outcome State Fault Refusal := .next (runSlotBlock num body s)

/-- SLOT_UNBLOCK taken for a slot: a BLOCKED slot becomes FREE at the tail, and the end of its SLOT_SUSPECT condition is reported;
a pending block is cleared (R103). -/
def unblockSlot (i : SlotId) (s : State) : State :=
  match s.slots.at i with
  | .free => s
  | .blocked why =>
    let t := setFree (s.free ++ [i]) (setSlot i .free s)
    if why = .noClearAck then endCondition (.slotSuspect i) t else t
  | sl => setSlot i (sl.withBlockPending false) s

/-- SLOT_UNBLOCK taken. -/
def setUnblock (body : List Byte) (s : State) : State :=
  match slotNamed body with
  | some i => unblockSlot i s
  | none => s

/-- SLOT_UNBLOCK (R103). -/
def runSlotUnblock (num : Byte) (body : List Byte) (s : State) : State :=
  takeRequest ⟨num, 0x0C, body⟩ (fun _ => doneUnless (badUnless (slotNamed body)))
    (act (setUnblock body)) s

/-- SLOT_UNBLOCK. -/
def execSlotUnblock (num : Byte) (body : List Byte) (s : State) : Host.Outcome State Fault Refusal := .next (runSlotUnblock num body s)

/-! ## TRUNK_RELEASE (R136) -/

/-- TRUNK_RELEASE taken (Table 7.5). -/
def releaseTrunk (s : State) : State :=
  match s.link with
  | .down => { s with releaseFlag := true }
  | .recovered => enterResync s
  | _ => s

/-- TRUNK_RELEASE (R136). -/
def runTrunkRelease (num : Byte) (body : List Byte) (s : State) : State :=
  takeRequest ⟨num, 0x0D, body⟩ (fun _ => doneUnless (badUnless (emptyBody body))) releaseTrunk s

/-- TRUNK_RELEASE. -/
def execTrunkRelease (num : Byte) (body : List Byte) (s : State) : Host.Outcome State Fault Refusal := .next (runTrunkRelease num body s)

/-! ## ALARM_ACK (R196) -/

/-- The alarm that a body names. -/
def alarmNamed (body : List Byte) : Option AlarmId := (alarmAckFields body).bind fun f => alarmOf f.1 f.2

/-- ALARM_ACK's refusal (R196). -/
def alarmAckRefusal (body : List Byte) (s : State) : Option RequestRefusal :=
  match alarmNamed body with
  | none => some .badValue
  | some a =>
    match alarmEntry s a with
    | none => some .badValue
    | some e => if e.present then some .conditionPresent else none

/-- The entry of an acknowledged alarm leaves the list. -/
def dropAlarm (a : AlarmId) (s : State) : State := setAlarms (s.alarms.filter fun e => decide (e.id ≠ a)) s

/-- ALARM_ACK taken. -/
def setAcknowledged (body : List Byte) (s : State) : State :=
  match alarmNamed body with
  | some a => dropAlarm a s
  | none => s

/-- ALARM_ACK (R196). -/
def runAlarmAck (num : Byte) (body : List Byte) (s : State) : State :=
  takeRequest ⟨num, 0x0E, body⟩ (fun t => doneUnless (alarmAckRefusal body t))
    (setAcknowledged body) s

/-- ALARM_ACK. -/
def execAlarmAck (num : Byte) (body : List Byte) (s : State) : Host.Outcome State Fault Refusal := .next (runAlarmAck num body s)

/-! ## WARM_RESET (R185) and a request of no known kind (R191) -/

/-- WARM_RESET taken: no further request is taken, and those that wait are discarded without reply. -/
def takeWarmReset (s : State) : State := { s with warm := .taken, requests := [] }

/-- WARM_RESET (R185). -/
def runWarmReset (num : Byte) (body : List Byte) (s : State) : State :=
  takeRequest ⟨num, 0x14, body⟩ (fun _ => doneUnless (badUnless (emptyBody body))) takeWarmReset s

/-- WARM_RESET. -/
def execWarmReset (num : Byte) (body : List Byte) (s : State) : Host.Outcome State Fault Refusal := .next (runWarmReset num body s)

/-- UNKNOWN_REQUEST (R191, R201): refused, and nothing changes. -/
def runUnknownRequest (num kind : Byte) (body : List Byte) (s : State) : State :=
  takeRequest ⟨num, kind, body⟩ (fun _ => .refused .unknownRequest) id s

/-- UNKNOWN_REQUEST. -/
def execUnknownRequest (num kind : Byte) (body : List Byte) (s : State) : Host.Outcome State Fault Refusal := .next (runUnknownRequest num kind body s)

end Sys2Proof.Machine
end

