-- ==== Sys2Proof/Machine/Records.lean ====
section
/-! DEFINITION. The records on the control line (spec/11): REQUEST_RECEIVED and RECORD_COMPLETE, each with the request that can then be
taken out of the buffer (R191). -/

namespace Sys2Proof.Machine

/-! ## The oldest request in the buffer (R191) -/

/-- What a request command does; any other command is no request. -/
def runRequest (i : Instr) (s : State) : State :=
  match i with
  | .identify num body => runIdentify num body s
  | .configEnterOrderly num body => runConfigEnterOrderly num body s
  | .configEnterForce num body => runConfigEnterForce num body s
  | .configExit num body => runConfigExit num body s
  | .mapSet num body => runMapSet num body s
  | .paramSet num body => runParamSet num body s
  | .postureSet num body => runPostureSet num body s
  | .groupStandby num body => runGroupStandby num body s
  | .groupWake num body => runGroupWake num body s
  | .testClaimWait num body => runTestClaimWait num body s
  | .testClaimForce num body => runTestClaimForce num body s
  | .testRelease num body => runTestRelease num body s
  | .slotBlock num body => runSlotBlock num body s
  | .slotUnblock num body => runSlotUnblock num body s
  | .trunkRelease num body => runTrunkRelease num body s
  | .alarmAck num body => runAlarmAck num body s
  | .queryLine num body => runQueryLine num body s
  | .querySlots num body => runQuerySlots num body s
  | .queryQueues num body => runQueryQueues num body s
  | .queryLink num body => runQueryLink num body s
  | .queryAlarms num body => runQueryAlarms num body s
  | .warmReset num body => runWarmReset num body s
  | .unknownRequest num kind body => runUnknownRequest num kind body s
  | _ => s

/-- Where the reply slot is empty, the oldest request in the buffer is taken, as its own row takes it (R191). -/
def takeOldest (s : State) : State :=
  match s.requests with
  | r :: _ => if s.reply.isNone then runRequest (requestRow r.num r.kind r.body) s else s
  | [] => s

/-! ## Receiving (R188, R190) -/

/-- One octet received: a completed frame whose check holds joins the request buffer, and the oldest request is taken where it can be.
Behind a WARM_RESET, taken with an earlier octet, the octet is discarded (R185). -/
def takeOctet (o : Byte) (s : State) : State :=
  if s.warm = .none then
    let r := receiveOctet s.receiver o
    let t := { s with receiver := r.1 }
    match r.2.bind requestOfFrame with
    | some q => takeOldest (joinRequests q t)
    | none => t
  else s

/-- REQUEST_RECEIVED (R188, R190, R191). Once a WARM_RESET is taken, octets are discarded (R185). -/
def execRequestReceived (octets : List Byte) (s : State) : Host.Outcome State Fault Refusal :=
  .next (whileRunning (inTurn octets takeOctet) s)

/-! ## The end of a record (R192) -/

/-- The last octet of a reply has gone: it leaves the reply slot, a taken WARM_RESET is due (R185), and the next waiting request is
taken (R191); with none waiting, the head report starts. -/
def endReply (s : State) : State :=
  takeOldest (serve { s with tx := .idle, reply := none, warm := if s.warm = .taken then .due else s.warm })

/-- The last octet of the record being sent has gone. An IDLE transmitter has none to end, and starts what it can, as at every event
(R192; log 8). -/
def endRecord (s : State) : State :=
  match s.tx with
  | .idle => serve s
  | .sendingReply _ _ => endReply s
  | .sendingReport _ _ _ => serve { s with tx := .idle }

/-- RECORD_COMPLETE (R192, R191). -/
def execRecordComplete (s : State) : Host.Outcome State Fault Refusal :=
  .next (if s.power = .running then endRecord s else s)

end Sys2Proof.Machine
end

