-- ==== Sys2Proof/Machine/Reset.lean ====
section
/-! DEFINITION. Cold and warm reset (spec/10, section 10.5): RESET_PIN_ASSERT, RESET_PIN_RELEASE, SELF_TEST_END,
WARM_RESET_BEGIN. -/

namespace Sys2Proof.Machine

/-- The levels and counts that no reset touches: the queue of commands, the input pins and the count of free values (log 4). -/
def keepOutside (s t : State) : State :=
  { t with
    pending := s.pending, freeIndex := s.freeIndex, hookPin := s.hookPin, faultPin := s.faultPin, codecIn := s.codecIn }

/-- The part comes up: every block takes its values after reset and START is queued into the empty report queue (R184). -/
def comeUp (k : ResetKind) (t : SelfTest) (s : State) : State :=
  keepOutside s { State.reset with selfTest := t, rate := s.rate, reports := [.start t k] }

/-- The part in a cold reset: everything under way is abandoned, nothing is sent and no output is driven (R183, R18, R164; log 17). -/
def holdReset (s : State) : State :=
  keepOutside s { State.reset with power := .held, selfTest := s.selfTest, rate := s.rate, reports := [] }

/-- RESET_PIN_ASSERT (R183): a cold reset begins, whatever was in progress, a self-test included. -/
def execResetPinAssert (s : State) : Host.Outcome State Fault Refusal := .next (holdReset s)

/-- RESET_PIN_RELEASE (R183, R187): the straps are read; with the TEST strap high a self-test starts, and otherwise the part comes
up with result NOT_RUN. -/
def execResetPinRelease (testStrap rateHigh rateLow : Bool) (s : State) : Host.Outcome State Fault Refusal :=
  if s.power = .held then
    let t := { s with rate := rateOfStraps rateHigh rateLow }
    .next (if testStrap then { t with power := .selfTest Config.selfTestTime } else comeUp .cold .notRun t)
  else .next (whileRunning id s)

/-- Whether a self-test runs. -/
def Power.testing : Power → Bool
  | .selfTest _ => true
  | _ => false

/-- SELF_TEST_END (R183, R184): the result is PASS where every read matched and FAIL otherwise, and the part comes up. -/
def execSelfTestEnd (pass : Bool) (s : State) : Host.Outcome State Fault Refusal :=
  .next (if s.power.testing then comeUp .cold (if pass then .pass else .fail) s else whileRunning id s)

/-- Whether the transmitter sends a reply. -/
def Transmitter.replying : Transmitter → Bool
  | .sendingReply _ _ => true
  | _ => false

/-- Whether a warm reset can begin: a WARM_RESET was taken and the last octet of its reply goes or has gone (R185; log 18). -/
def warmResetReady (s : State) : Bool :=
  decide (s.power = .running) && (decide (s.warm = .due) || (decide (s.warm = .taken) && s.tx.replying))

/-- WARM_RESET_BEGIN (R185): no strap is read and no self-test runs; the self-test result and the rate are kept. -/
def execWarmResetBegin (s : State) : Host.Outcome State Fault Refusal :=
  .next (if warmResetReady s then comeUp .warm s.selfTest s else whileRunning id s)

end Sys2Proof.Machine
end

