-- ==== Sys2Proof/Machine/ScanGroups.lean ====
section
/-! DEFINITION. The slow sample and the end of settle of a scan group (spec/03): SLOW_SCAN, SETTLE_EXPIRY. -/

namespace Sys2Proof.Machine

/-! ## Slow sample (R46 to R48) -/

/-- The bit of a port in the levels of its group. -/
def levelOf (levels : BitVec 8) (p : Port) : Bool := levels.getLsbD (p.val % 8)

/-- The pins of a group's ports as a slow sample finds them. -/
def sampledPins (g : GroupId) (closed faulty : BitVec 8) (s : State) : State :=
  inTurn (portsOf g) (fun p t => setFaultPin p (levelOf faulty p) (setHookPin p (levelOf closed p) t)) s

/-- A level as a contact state. -/
def contactOf (closed : Bool) : ContactState := if closed then .closed else .opened

/-- One MONITOR contact at a slow sample: a level opposite to its state is accepted at once (R47). -/
def slowContact (closed : BitVec 8) (p : Port) (s : State) : State :=
  let c := contactOf (levelOf closed p)
  if isMonitor s p && decide ((s.scan.at p).contact ≠ c) then takeContact p c (setScan p { s.scan.at p with contact := c } s)
  else s

/-- The lines whose fault sense shows the fault level with the fault state absent (R48). -/
def slowFaults (g : GroupId) (faulty : BitVec 8) (s : State) : List Port :=
  (portsOf g).filter fun p => hasLine s p && levelOf faulty p && !(s.scan.at p).fault

/-- Whether a line of the group shows an off-hook sample (R46). -/
def slowOffHook (g : GroupId) (closed : BitVec 8) (s : State) : Bool :=
  (portsOf g).any fun p => hasLine s p && levelOf closed p

/-- The slow scan goes on: the next sample is one period away. -/
def nextSlowSample (g : GroupId) (s : State) : State :=
  setGroup g { s.groups.at g with slow := some Config.slowScanPeriod } s

/-- One slow sample: contacts first, in port order; then a fault wakes the group once, with each faulty line in port order; else an
off-hook sample wakes it where the wake flag is ENABLED (R46 to R48). -/
def slowSample (g : GroupId) (closed faulty : BitVec 8) (s : State) : State :=
  let t := inTurn (portsOf g) (slowContact closed) (nextSlowSample g (sampledPins g closed faulty s))
  let faults := slowFaults g faulty t
  if faults ≠ [] then inTurn faults takeFault (enterWaking g .fault t)
  else if slowOffHook g closed t && (t.groups.at g).wake then enterWaking g .offHook t
  else t

/-- SLOW_SCAN (R46): in a STANDBY group. -/
def execSlowScan (g : GroupId) (closed faulty : BitVec 8) (s : State) : Host.Outcome State Fault Refusal :=
  .next (act (fun s => if (s.groups.at g).state = .standby then slowSample g closed faulty s else s) s)

/-! ## End of settle (R51) -/

/-- A line that is OFFERED and not yet placed is handed to the Ring Scheduler (R51, R107), in CONFIG_PENDING too (log 33). -/
def handOnSettled (p : Port) (s : State) : State :=
  if (s.lines.at p).state = .offered ∧ isPlaced s p = false ∧ p ∉ s.ringQueue then handOn p s else s

/-- The group becomes ACTIVE, every run begins at 0, and its unplaced OFFERED lines are handed on in port order (R51; log 20). A
fault that completed its debounce in this millisecond is accepted behind it (log 36). -/
def endSettle (g : GroupId) (s : State) : State :=
  let t := setGroup g { s.groups.at g with state := .active, settle := none } (clearRuns g s)
  inTurn (portsOf g) handOnSettled (report (.groupEvent g .active .settled) t)

/-- SETTLE_EXPIRY (R51): in a WAKING group. -/
def execSettleExpiry (g : GroupId) (s : State) : Host.Outcome State Fault Refusal :=
  .next (actQuietly (fun s => if (s.groups.at g).state = .waking then endSettle g s else s) s)

end Sys2Proof.Machine
end

