-- ==== Sys2Proof/Machine/Timers.lean ====
section
/-! DEFINITION. The expiries and the phase clock: WAIT_LIMIT_EXPIRY, RING_LIMIT_EXPIRY (spec/04), PHASE_BEGIN (spec/06),
HOLDOVER_EXPIRY, RESTART_REPLY_EXPIRY (spec/07), SEIZE_REPLY_EXPIRY, CLEAR_REPLY_EXPIRY (spec/08). An expiry says that the
interval has ended, and acts where its timer runs (log 2). -/

namespace Sys2Proof.Machine

/-! ## Line timers (R69, R70) -/

/-- WAIT_LIMIT_EXPIRY (R69): the queued line goes to PARKED with reason CONGESTED. -/
def execWaitLimitExpiry (p : Port) (s : State) : Host.Outcome State Fault Refusal :=
  .next (act (fun s =>
    if (s.lines.at p).state = .queued ∧ (s.lines.at p).timer.isSome then enterBare p .parked .congested s else s) s)

/-- RING_LIMIT_EXPIRY (R70): the called line goes to IDLE, its slot released with CLEAR owed, reason NO_ANSWER. -/
def execRingLimitExpiry (p : Port) (s : State) : Host.Outcome State Fault Refusal :=
  .next (act (fun s =>
    if (s.lines.at p).state.called ∧ (s.lines.at p).timer.isSome then endLine p .idle .noAnswer s else s) s)

/-! ## Phase clock (R104, R111) -/

/-- The placed lines of the running phase, both buses together, lowest placement number first. -/
def phaseLines (s : State) : List Placed := byNumber (s.cells.at (cellOf s.phase 0) ++ s.cells.at (cellOf s.phase 1))

/-- A placed OFFERED line becomes RINGING as its phase begins. -/
def ringLine (e : Placed) (s : State) : State :=
  let l := s.lines.at e.port
  if l.state = .offered then enterLine e.port .ringing l.call l.timer .normal s else s

/-- The next phase begins: the drives of the ended phase go off, those of the new one on, and its OFFERED lines become RINGING. -/
def beginPhase (s : State) : State :=
  let t := driveRunningPhase { s with phase := nextPhase s.phase, phaseMs := 0 }
  inTurn (phaseLines t) ringLine t

/-- PHASE_BEGIN (R111). -/
def execPhaseBegin (s : State) : Host.Outcome State Fault Refusal := .next (actQuietly beginPhase s)

/-! ## Trunk link timers (R133, R141) -/

/-- The holdover timer expires: every HELD slot is released in slot order, and the lines are reported in port order (R133). -/
def expireHoldover (s : State) : State :=
  inTurn allPorts (loseHeld .outOfService) (releaseHeld { s with holdover := none })

/-- HOLDOVER_EXPIRY (R133). -/
def execHoldoverExpiry (s : State) : Host.Outcome State Fault Refusal :=
  .next (act (fun s => if s.holdover.isSome then expireHoldover s else s) s)

/-- The RESTART reply timer expires: as first, RESTART is owed again; as repeat, every held call is released and the link enters
service (R141; log 24). -/
def expireRestart (s : State) : State :=
  match s.restartTimer with
  | some (.first, _) => oweRestart true { s with restartTimer := none }
  | some (.again, _) => enterService (inTurn (heldLines s) (loseHeld .noReply) (releaseHeld s))
  | none => s

/-- RESTART_REPLY_EXPIRY (R141): the timer runs in RESYNC alone. -/
def execRestartReplyExpiry (s : State) : Host.Outcome State Fault Refusal :=
  .next (act (fun s => if s.link = .resync then expireRestart s else s) s)

/-! ## Slot reply timers (R160, R161) -/

/-- Whether the slot's reply timer runs as a kind and a run. -/
def replyTimerRuns (s : State) (i : SlotId) (k : TimerKind) (r : TimerRun) : Bool :=
  match (s.sig.at i).timer with
  | some t => decide (t.kind = k) && decide (t.run = r)
  | none => false

/-- The SEIZE of a slot is made again as a repeat (R160). -/
def repeatSeize (i : SlotId) (p : Port) (s : State) : State :=
  addSlotEntry (isPriority s p) i .seize (stopReplyTimer i s)

/-- The SEIZE of a slot was never answered: the line goes to PARKED and the slot is released with CLEAR owed (R160). -/
def giveUpSeize (i : SlotId) (p : Port) (s : State) : State :=
  enterBare p .parked .noReply (releaseOwing i (.clear .noReply) s)

/-- The SEIZE reply timer of a slot expires. -/
def expireSeize (i : SlotId) (s : State) : State :=
  match s.slots.at i with
  | .reserved c _ =>
    if replyTimerRuns s i .seize .first then repeatSeize i c.line s
    else if replyTimerRuns s i .seize .again then giveUpSeize i c.line s
    else s
  | _ => s

/-- SEIZE_REPLY_EXPIRY (R160). -/
def execSeizeReplyExpiry (i : SlotId) (s : State) : Host.Outcome State Fault Refusal := .next (act (expireSeize i) s)

/-- The clear of a slot has failed: the slot is BLOCKED with reason NO_CLEAR_ACK and its alarm begins (R161, R100). -/
def failClear (i : SlotId) (s : State) : State :=
  beginCondition (.slotSuspect i) (setSlot i (.blocked .noClearAck) (clearMarkOf i (setSig i Sig.cleared s)))

/-- The CLEAR reply timer of a slot expires. -/
def expireClear (i : SlotId) (s : State) : State :=
  match s.slots.at i with
  | .clearing _ _ (.awaitAck r) _ =>
    if replyTimerRuns s i .clear .first then addSlotEntry false i (.clear r) (stopReplyTimer i s)
    else if replyTimerRuns s i .clear .again then failClear i s
    else s
  | _ => s

/-- CLEAR_REPLY_EXPIRY (R161). -/
def execClearReplyExpiry (i : SlotId) (s : State) : Host.Outcome State Fault Refusal := .next (act (expireClear i) s)

end Sys2Proof.Machine
end

