-- ==== Sys2Proof/Machine/Dispatch.lean ====
section
/-! DEFINITION. The meaning of each command: one arm per row of the table. No meaning changes the queue of commands. -/

namespace Sys2Proof.Machine

/-- What a command does to the part. -/
def exec (i : Instr) (s : State) : Host.Outcome State Fault Refusal :=
  match i with
  | .resetPinAssert => Sys2Proof.Machine.execResetPinAssert s
  | .resetPinRelease testStrap rateHigh rateLow => Sys2Proof.Machine.execResetPinRelease testStrap rateHigh rateLow s
  | .selfTestEnd pass => Sys2Proof.Machine.execSelfTestEnd pass s
  | .warmResetBegin => Sys2Proof.Machine.execWarmResetBegin s
  | .offHook p => Sys2Proof.Machine.execOffHook p s
  | .onHook p => Sys2Proof.Machine.execOnHook p s
  | .decodingOnHook p => Sys2Proof.Machine.execDecodingOnHook p s
  | .breakEnd p ms => Sys2Proof.Machine.execBreakEnd p ms s
  | .digitComplete p => Sys2Proof.Machine.execDigitComplete p s
  | .fault p => Sys2Proof.Machine.execFault p s
  | .faultClear p => Sys2Proof.Machine.execFaultClear p s
  | .contactChange p c => Sys2Proof.Machine.execContactChange p c s
  | .slowScan g closed faulty => Sys2Proof.Machine.execSlowScan g closed faulty s
  | .settleExpiry g => Sys2Proof.Machine.execSettleExpiry g s
  | .waitLimitExpiry p => Sys2Proof.Machine.execWaitLimitExpiry p s
  | .ringLimitExpiry p => Sys2Proof.Machine.execRingLimitExpiry p s
  | .phaseBegin => Sys2Proof.Machine.execPhaseBegin s
  | .trunkFrame octets => Sys2Proof.Machine.execTrunkFrame octets s
  | .holdoverExpiry => Sys2Proof.Machine.execHoldoverExpiry s
  | .restartReplyExpiry => Sys2Proof.Machine.execRestartReplyExpiry s
  | .seizeReplyExpiry slot => Sys2Proof.Machine.execSeizeReplyExpiry slot s
  | .clearReplyExpiry slot => Sys2Proof.Machine.execClearReplyExpiry slot s
  | .entryStart => Sys2Proof.Machine.execEntryStart s
  | .entryComplete => Sys2Proof.Machine.execEntryComplete s
  | .accept tag => Sys2Proof.Machine.execAccept tag s
  | .reject tag r => Sys2Proof.Machine.execReject tag r s
  | .progress tag => Sys2Proof.Machine.execProgress tag s
  | .headClear tag r => Sys2Proof.Machine.execHeadClear tag r s
  | .headClearAck tag => Sys2Proof.Machine.execHeadClearAck tag s
  | .incoming ref number => Sys2Proof.Machine.execIncoming ref number s
  | .restartAck tags => Sys2Proof.Machine.execRestartAck tags s
  | .flow f => Sys2Proof.Machine.execFlow f s
  | .malformedHeadMessage octets => Sys2Proof.Machine.execMalformedHeadMessage octets s
  | .requestReceived octets => Sys2Proof.Machine.execRequestReceived octets s
  | .lineBreak => Sys2Proof.Machine.execLineBreak s
  | .recordComplete => Sys2Proof.Machine.execRecordComplete s
  | .identify num body => Sys2Proof.Machine.execIdentify num body s
  | .configEnterOrderly num body => Sys2Proof.Machine.execConfigEnterOrderly num body s
  | .configEnterForce num body => Sys2Proof.Machine.execConfigEnterForce num body s
  | .configExit num body => Sys2Proof.Machine.execConfigExit num body s
  | .mapSet num body => Sys2Proof.Machine.execMapSet num body s
  | .paramSet num body => Sys2Proof.Machine.execParamSet num body s
  | .postureSet num body => Sys2Proof.Machine.execPostureSet num body s
  | .groupStandby num body => Sys2Proof.Machine.execGroupStandby num body s
  | .groupWake num body => Sys2Proof.Machine.execGroupWake num body s
  | .testClaimWait num body => Sys2Proof.Machine.execTestClaimWait num body s
  | .testClaimForce num body => Sys2Proof.Machine.execTestClaimForce num body s
  | .testRelease num body => Sys2Proof.Machine.execTestRelease num body s
  | .slotBlock num body => Sys2Proof.Machine.execSlotBlock num body s
  | .slotUnblock num body => Sys2Proof.Machine.execSlotUnblock num body s
  | .trunkRelease num body => Sys2Proof.Machine.execTrunkRelease num body s
  | .alarmAck num body => Sys2Proof.Machine.execAlarmAck num body s
  | .queryLine num body => Sys2Proof.Machine.execQueryLine num body s
  | .querySlots num body => Sys2Proof.Machine.execQuerySlots num body s
  | .queryQueues num body => Sys2Proof.Machine.execQueryQueues num body s
  | .queryLink num body => Sys2Proof.Machine.execQueryLink num body s
  | .queryAlarms num body => Sys2Proof.Machine.execQueryAlarms num body s
  | .warmReset num body => Sys2Proof.Machine.execWarmReset num body s
  | .unknownRequest num kind body => Sys2Proof.Machine.execUnknownRequest num kind body s
  | .framingError => Sys2Proof.Machine.execFramingError s

end Sys2Proof.Machine
end

