-- ==== Sys2Proof/Safety.lean ====
section
/-! DEFINITION. The words claims are stated in: when a command answers, what a request needs to be taken, the records on the
control port, what a command leaves alone, and the invariants of the part. -/

namespace Sys2Proof.Machine

/-! ## Answering -/

/-- A command answers a next state that has a property. -/
def Answers (c : Instr) (s : State) (P : State → Prop) : Prop := ∃ t, exec c s = .next t ∧ P t

/-- The part runs: no reset lasts (R183). -/
abbrev Running (s : State) : Prop := s.power = .running

/-- A request of this number, kind and body can be taken now: the reply slot is empty, no request waits ahead of it, and no
WARM_RESET has been taken (R185, R191). -/
abbrev Takes (num kind : Byte) (body : List Byte) (s : State) : Prop :=
  Running s ∧ s.warm = .none ∧ s.reply = none ∧ (s.requests = [] ∨ s.requests.head? = some ⟨num, kind, body⟩)

/-- The reports that have not gone to their last octet: the one being sent, then the queue (R192, R194). -/
def unsent (s : State) : List Report :=
  match s.tx with
  | .sendingReport r _ _ => r :: s.reports
  | _ => s.reports

/-- The report queue has room for `n` more reports (R194). -/
abbrev Room (n : Nat) (s : State) : Prop := s.reports.length + n ≤ Config.reportPlaces

/-- Between `s` and `t` exactly the reports `rs` were made, in this order. -/
abbrev Made (s t : State) (rs : List Report) : Prop := unsent t = unsent s ++ rs

/-- A reply is in the reply slot for the request of this number (R191). -/
abbrev Replied (t : State) (num : Byte) (o : ReplyOutcome) : Prop := t.reply = some { num := num, outcome := o }

/-! ## What a command leaves alone -/

/-- Two tables differ at one index at most. -/
abbrev OnlyAt {n : Nat} {α : Type} (i : Fin n) (old new : Table n α) : Prop := ∀ j, j ≠ i → new.at j = old.at j

/-- The state with the sending side of the control port and its request buffer forgotten. -/
def State.apartFromPort (s : State) : State :=
  { s with reply := none, tx := .idle, requests := [], reports := [], requestLost := false, reportLost := false }

/-- The state with, besides, everything forgotten that a line's change of state or its ringing may write. -/
def State.apartFromLines (s : State) : State :=
  { s.apartFromPort with
    lines := State.reset.lines, scan := State.reset.scan, buffers := State.reset.buffers, groups := State.reset.groups
    waitQueue := [], cells := State.reset.cells, nextPlacement := 0, ringQueue := [], ringDrive := State.reset.ringDrive
    bus := .free }

/-- The state with, besides, everything forgotten that a call's admission, clearing or signalling may write, and the mode. -/
def State.apartFromCalls (s : State) : State :=
  { s.apartFromLines with
    slots := State.reset.slots, free := [], mark := none, nextTag := 0, nextOrder := 0, sig := State.reset.sig
    txq := [], inFlight := none, restartOwed := false, holdover := none, mode := .normal }

/-- The runs of a group's ports are 0 and their other fields stand, and no other port's scanner record changes (R45, R50). -/
def RunsCleared (g : GroupId) (s t : State) : Prop :=
  (∀ p ∈ portsOf g, t.scan.at p = { s.scan.at p with openRun := 0, closedRun := 0, heldRun := 0, faultRun := 0 })
    ∧ ∀ p, p ∉ portsOf g → t.scan.at p = s.scan.at p

/-! ## Owed clear items (Table 8.6) -/

/-- The entries of a slot replaced in their places by another message of the slot, their pinned marks kept (R152). -/
def replaced (i : SlotId) (m : SlotMsg) (q : List Entry) : List Entry :=
  q.map fun e => if e.slot? = some i then e.withSlotMsg m else e

/-- A slot that leaves its call by local release: FREE, or BLOCKED with block pending (R80). -/
def released (b : Bool) : Slot := if b then .blocked .cabinet else .free

/-- A slot whose one entry is a queued SEIZE and whose tag is not known to the head terminal: a clear item that becomes owed removes
the entry and releases the slot locally (Table 8.6). -/
abbrev UnsentSeize (s : State) (i : SlotId) : Prop :=
  (∃ e ∈ queuedEntry s i, e.slotMsg? = some .seize) ∧ (s.sig.at i).tagKnown = false

/-- What has become of a slot, given up by line `p` with its tag and block pending, of its signalling record and of the transmit queue,
when a clear item becomes owed, by where the slot's entry stands (Table 8.6): an unsent SEIZE is removed and the slot is released
locally, any other queued entry becomes the item in its place, an entry in flight makes the item wait, and without an entry the item
is made at the tail. The reply timer is stopped. -/
def Superseded (i : SlotId) (p : Port) (tag : Nat) (b : Bool) (o : ClearOwed) (s t : State) : Prop :=
  (t.sig.at i).timer = none ∧ t.inFlight = s.inFlight
    ∧ (UnsentSeize s i → t.slots.at i = released b ∧ t.free = (if b then s.free else s.free ++ [i])
        ∧ t.txq = s.txq.filter fun e => decide (e.slot? ≠ some i))
    ∧ (¬ UnsentSeize s i → t.slots.at i = .clearing p tag o.side b ∧ t.free = s.free
        ∧ (if (queuedEntry s i).isSome then t.txq = replaced i o.msg s.txq ∧ (t.sig.at i).owed = (s.sig.at i).owed
          else if flightSlot s = some i then t.txq = s.txq ∧ (t.sig.at i).owed = some o
          else t.txq = s.txq ++ [{ msg := .ofSlot i p tag o.msg, pinned := false }] ∧ (t.sig.at i).owed = (s.sig.at i).owed))

/-- No two entries name one slot (R150). -/
abbrev OneEntryEach (s : State) : Prop := (s.txq.filterMap Entry.slot?).Nodup

/-- The transmit queue after an entry is made: an urgent one that can overtake stands first among the queued entries and pins those it
passes, and any other stands at the tail (R155). -/
def queueWith (urgent : Bool) (e : Entry) (s : State) : List Entry :=
  if urgent = true ∧ (∀ x ∈ s.txq, x.pinned = false) ∧ (∀ x ∈ queuedEntries s, x.line? ≠ e.line?) then
    s.txq.take (flightCount s) ++ e :: (queuedEntries s).map fun x => { x with pinned := true }
  else s.txq ++ [e]

/-- A call that preemption may clear: its line is ORDINARY and has not been answered (R98). -/
abbrev Preemptible (s : State) (c : Call) : Prop :=
  isOrdinary s c.line = true
    ∧ ((s.lines.at c.line).state = .seizing ∨ (s.lines.at c.line).state.called = true
      ∨ ((s.lines.at c.line).state = .activeOut ∧ c.answered = false))

/-- Slot `v` holds the call that preemption chooses: of all the calls it may clear, the one reserved last (R98). -/
abbrev ChosenVictim (s : State) (v : SlotId) (c : Call) : Prop :=
  (s.slots.at v).call? = some c ∧ Preemptible s c
    ∧ ∀ j, ∀ d ∈ (s.slots.at j).call?, Preemptible s d → j ≠ v → d.order < c.order

/-- There is no call that preemption may clear. -/
abbrev NoneToPreempt (s : State) : Prop := ∀ i, ∀ c ∈ (s.slots.at i).call?, ¬ Preemptible s c

/-! ## Ringing and sending -/

/-- The lines that a posture leaves no room for in their cells (R116). -/
def beyondCapacity (s : State) (posture : Posture) : List Placed :=
  allCells.flatMap fun k => (s.cells.at k).drop posture.ringCapacity

/-- The two signalling octets of the next frame: those of the entry in flight that come next, or idle ones (R120). -/
def signallingOctets (s : State) : List Byte :=
  let octets := (s.inFlight.map fun f => f.octets).getD []
  [octets[0]?.getD 0x00, octets[1]?.getD 0x00]

/-! ## Calls that end, and alarms -/

/-- The record of a line that is sent to a bare state at the end of its call: in TEST instead where the bus is CLAIMED for it (R74). -/
def lineEnded (s : State) (p : Port) (st : LineState) : Line :=
  { Line.unequipped with
    state := if s.bus = .claimed p then .test else st, faultPresent := (s.lines.at p).faultPresent }

/-- The bus after the end of a line's call: a claim for the line is granted (R74, R168). -/
def busEnded (s : State) (p : Port) : TestBus := if s.bus = .claimed p then .held p else s.bus

/-- The reports of a line that is sent to a bare state at the end of its call: its CALL_EVENT, or where the bus is CLAIMED for it those of
the grant, CALL_EVENT(TEST, MAINTENANCE) and TEST_EVENT(CALL_END) (R74, R168). -/
def endReports (s : State) (p : Port) (st : LineState) (r : Reason) : List Report :=
  if s.bus = .claimed p then [.callEvent p .test (.because .maintenance), .testEvent p .callEnd]
  else [.callEvent p st (.because r)]

/-- The report of an alarm's condition that begins, none where it is present already (R195). -/
def begun (s : State) (a : AlarmId) : List Report :=
  if (alarmEntry s a).any (·.present) then [] else [.alarmEvent a .raised]

/-- The report of an alarm's condition that ends, none where it is not present (R195). -/
def ended (s : State) (a : AlarmId) : List Report :=
  if (alarmEntry s a).any (·.present) then [.alarmEvent a .conditionEnded] else []

/-- The condition of one alarm has begun, or ended, between `s` and `t`: its entry is marked so, an end makes no entry, and every other
entry stands (R195). -/
abbrev AlarmMarked (a : AlarmId) (present : Bool) (s t : State) : Prop :=
  (alarmEntry t a).map (·.present) = (if present then some true else (alarmEntry s a).map fun _ => false)
    ∧ (t.alarms.filter fun e => decide (e.id ≠ a)) = s.alarms.filter fun e => decide (e.id ≠ a)

/-- The state a line takes when the link enters DOWN, none where it keeps its own (Table 7.4). -/
def stateAtDown (s : State) (p : Port) : Option LineState :=
  match (s.lines.at p).state with
  | .activeOut => some (if s.params.holdover = 0 then .parked else .holdover)
  | .activeIn => some (if s.params.holdover = 0 then .parked else .holdover)
  | .seizing => some .parked
  | .offered => some .idle
  | .ringing => some .idle
  | _ => none

/-- The record of a line after the entry to DOWN: a line that enters HOLDOVER keeps its slot, one whose call ends is in its bare state or
in TEST, and any other stands. -/
def lineAtDown (s : State) (p : Port) : Line :=
  match stateAtDown s p with
  | none => s.lines.at p
  | some .holdover => { Line.unequipped with
      state := .holdover, call := (s.lines.at p).call, faultPresent := (s.lines.at p).faultPresent }
  | some st => lineEnded s p st

/-- The reports of a line at the entry to DOWN. -/
def reportsAtDown (s : State) (p : Port) : List Report :=
  match stateAtDown s p with
  | none => []
  | some .holdover => [.callEvent p .holdover (.because .outOfService)]
  | some st => endReports s p st .outOfService

/-- The bus after the entry to DOWN: a claim is granted where the line's call ends. -/
def busAtDown (s : State) : TestBus :=
  match s.bus with
  | .claimed p => if stateAtDown s p = none ∨ stateAtDown s p = some .holdover then .claimed p else .held p
  | b => b

/-- The lines of the HELD slots, in the order of slot number. -/
def linesHeld (s : State) : List Port :=
  (allSlots.filter fun i => (s.slots.at i).isHeld).filterMap fun i => (s.slots.at i).call?.map (·.line)

/-! ## Reserving -/

/-- The first tag, counting upward from the next tag and going from 255 back to 1, that no slot holds (R81). -/
abbrev FirstFreeTag (s : State) (tag : Nat) : Prop :=
  tagHeld s tag = false
    ∧ ∃ d, d < Config.lastTag ∧ tag = (s.nextTag - 1 + d) % Config.lastTag + 1
      ∧ ∀ k, k < d → tagHeld s ((s.nextTag - 1 + k) % Config.lastTag + 1) = true

/-- How many calls were reserved before the order `n`. -/
def reservedBefore (s : State) (n : Nat) : Nat :=
  (allSlots.filter fun i => (s.slots.at i).call?.any fun c => decide (c.order < n)).length

/-! ## The hook and fault runs (R19, R20, R24) -/

/-- Whether a sample of the hook sense counts in the runs of a port: its group samples hooks, and the port has a MONITOR contact or a
line whose hook is not suspended (R19, R22, R37). -/
def hookCounts (s : State) (p : Port) : Bool :=
  hookSampled s p && (isMonitor s p || (hasLine s p && !decide ((s.lines.at p).state = .test ∨ (s.lines.at p).state = .fault)))

/-- The closed run of a decoding line at a closed sample: an open run below 20 ms before it counts as closed, and a longer one lets the
run begin with this sample (R24). -/
def closedRunNow (c : Scanner) : Nat :=
  if c.openRun = 0 then c.closedRun + 2 else if c.openRun < 20 then c.heldRun + c.openRun + 2 else 2

/-! ## MAP_SET -/

/-- The body of a MAP_SET that names a port and a role (R200). -/
def mapSetBody (p : Port) (r : PortRole) : List Byte :=
  [byte p.val, r.code, byte (r.number?.getD 0 / 256), byte (r.number?.getD 0), (r.class?.map Class.code).getD 0]

/-- The scanner record after a remap: kept but for the partial digit where the port had and has a line, fresh otherwise (R14). -/
def scanRemapped (s : State) (p : Port) (r : PortRole) : Scanner :=
  if (hasLine s p && r.hasLine) = true then { s.scan.at p with pulses := 0, overrun := false } else Scanner.initial

/-- Whether the port map stands: every port has a role that it offers, every line number is from 1 to 9999, and no two ports have one
number (R8, R9, Table 1.4). -/
abbrev PortMapHolds (s : State) : Prop :=
  (∀ p, offers p (s.ports.at p) = true ∧ ∀ n ∈ (s.ports.at p).number?, 1 ≤ n ∧ n ≤ 9999)
    ∧ ∀ p q, (s.ports.at p).number?.isSome = true → (s.ports.at p).number? = (s.ports.at q).number? → p = q

/-! ## After a reset -/

/-- The part as it comes up at the end of a reset of a kind, with a self-test result and a line rate: every value after reset that
the spec gives, and START alone in the report queue (R184). -/
def ComesUp (k : ResetKind) (r : SelfTest) (rate : Rate) (t : State) : Prop :=
  (t.power = .running ∧ t.selfTest = r ∧ t.rate = rate ∧ t.mode = .config ∧ t.params = Params.default ∧ t.posture = .mains)
    ∧ (∀ p, t.ports.at p = .unequipped ∧ t.lines.at p = Line.unequipped ∧ t.scan.at p = Scanner.initial
        ∧ t.buffers.at p = DigitBuffer.empty ∧ t.ringDrive.at p = false)
    ∧ (∀ g, t.groups.at g = Group.initial)
    ∧ (∀ i, t.slots.at i = .free ∧ t.sig.at i = Sig.cleared)
    ∧ (t.free = allSlots ∧ t.waitQueue = [] ∧ t.mark = none ∧ t.nextTag = 1 ∧ t.nextOrder = 1)
    ∧ (t.phase = 0 ∧ t.phaseMs = 0 ∧ (∀ c, t.cells.at c = []) ∧ t.nextPlacement = 1 ∧ t.ringQueue = [])
    ∧ (t.align = .hunting ∧ t.badWords = 0 ∧ t.foundWords = 0 ∧ t.score = 255 ∧ t.link = .down ∧ t.run = 0
        ∧ t.releaseFlag = false ∧ t.holdover = none ∧ t.restartTimer = none)
    ∧ (t.txq = [] ∧ t.inFlight = none ∧ t.flow = .go ∧ t.assembler = .hunting ∧ t.bus = .free ∧ t.alarms = [])
    ∧ (t.receiver = .hunting ∧ t.requests = [] ∧ t.reply = none ∧ t.tx = .idle ∧ t.reports = [.start r k]
        ∧ t.requestLost = false ∧ t.reportLost = false ∧ t.warm = .none)

/-! ## Invariants -/

/-- What the end of every event brings about has come about: the holdover timer runs only while a slot is HELD, and CONFIG_PENDING
lasts only while a slot is in use (R132, R177). -/
abbrev EventsFinished (s : State) : Prop :=
  (s.holdover = none ∨ anyHeld s = true) ∧ (s.mode = .configPending → anyInUse s = true)

/-- The report queue, the request buffer and the places for entries that name no slot keep their sizes, no request waits while the
reply slot is empty or once a WARM_RESET is taken, the alarm list holds each alarm at most once, and the wait queue holds each QUEUED
line once, and none outside NORMAL (R75, R88, R150, R185, R190, R191, R194, R195). -/
abbrev QueuesBounded (s : State) : Prop :=
  s.reports.length ≤ Config.reportPlaces ∧ s.requests.length ≤ Config.requestPlaces
    ∧ (s.txq.filter fun e => decide (e.slot? = none)).length ≤ Config.noSlotPlaces
    ∧ (s.reply = none → s.requests = []) ∧ (s.warm ≠ .none → s.requests = [])
    ∧ (s.alarms.map (·.id)).Nodup
    ∧ s.waitQueue.Nodup ∧ (∀ p, p ∈ s.waitQueue ↔ (s.lines.at p).state = .queued)
    ∧ (s.mode ≠ .normal → s.waitQueue = [])

/-- The score is at most 255, and it is 255 exactly in DOWN and RECOVERED (R123). -/
abbrev ScoreAgrees (s : State) : Prop :=
  s.score ≤ Config.scoreTop ∧ (s.score = Config.scoreTop ↔ s.link = .down ∨ s.link = .recovered)

/-- The clear side of a slot in CLEARING. -/
def Slot.clearSide? : Slot → Option ClearSide
  | .clearing _ _ side _ => some side
  | _ => none

/-- The free slot list holds exactly the FREE slots, each once, and the preemption mark names a slot in CLEARING (R80, R100). -/
abbrev FreeListAgrees (s : State) : Prop :=
  s.free.Nodup ∧ (∀ i, i ∈ s.free ↔ s.slots.at i = .free)
    ∧ ∀ i ∈ s.mark, ((s.slots.at i).clearSide?).isSome = true

/-- Every tag held is a number from 1 to 255, no two slots hold the same one, and the next tag is a number from 1 to 255 (R81). -/
abbrev TagsDistinct (s : State) : Prop :=
  1 ≤ s.nextTag ∧ s.nextTag ≤ Config.lastTag
    ∧ (∀ i, ∀ t ∈ (s.slots.at i).tag?, 1 ≤ t ∧ t ≤ Config.lastTag)
    ∧ ∀ i j, ∀ t ∈ (s.slots.at i).tag?, t ∈ (s.slots.at j).tag? → i = j

/-- No cell holds more lines than the ring capacity, and each line in it is on the cell's own bus; each line stands at most once in the
cells and the ring queue together, and is OFFERED or RINGING, and such a line names a slot (R54, R105, R109). -/
abbrev RingHolds (s : State) : Prop :=
  (∀ k, (s.cells.at k).length ≤ s.posture.ringCapacity ∧ ∀ e ∈ s.cells.at k, k.val / 3 = (busOf e.port).val)
    ∧ ((allPlaced s).map (·.port) ++ s.ringQueue).Nodup
    ∧ (∀ p, p ∈ (allPlaced s).map (·.port) ++ s.ringQueue → (s.lines.at p).state.called = true)
    ∧ ∀ p, (s.lines.at p).state.called = true → (s.lines.at p).call.isSome = true

/-- The slot that a line in a state holds: RESERVED, BUSY or HELD (Table 4.1). -/
def slotHeldIn (st : LineState) (c : Call) (b : Bool) : Slot :=
  match st with
  | .activeOut => .busy c b
  | .activeIn => .busy c b
  | .holdover => .held c b
  | _ => .reserved c b

/-- The direction of the call of a line in a state, where the state gives one (Table 4.1). -/
def directionIn : LineState → Option Direction
  | .seizing => some .out
  | .activeOut => some .out
  | .offered => some .inward
  | .ringing => some .inward
  | .activeIn => some .inward
  | _ => none

/-- Lines and slots name each other: a line names a slot exactly in the states of Table 4.1 that give it one, and that slot, in the
state that goes with the line's, names the line and the direction (R54, R78). -/
abbrev LinesNameSlots (s : State) : Prop :=
  (∀ p, (s.lines.at p).call.isSome = (s.lines.at p).state.holdsSlot)
    ∧ (∀ p, ∀ x ∈ (s.lines.at p).call, (∀ d ∈ directionIn (s.lines.at p).state, x.2 = d)
        ∧ ∃ c ∈ (s.slots.at x.1).call?, c.line = p ∧ c.direction = x.2
          ∧ s.slots.at x.1 = slotHeldIn (s.lines.at p).state c (s.slots.at x.1).blockPending)
    ∧ ∀ i, ∀ c ∈ (s.slots.at i).call?, (s.lines.at c.line).call = some (i, c.direction)

/-- The line and the tag that an entry of a slot names. -/
def Entry.party? (e : Entry) : Option (Port × Nat) :=
  match e.msg with
  | .ofSlot _ p tag _ => some (p, tag)
  | .ofNone _ => none

/-- Whether a slot can have an entry that sends a message: a CLEAR is of a slot in CLEARING, and a CLEAR_ACK of one that owes it. -/
def sendsIn (m : SlotMsg) (sl : Slot) : Bool :=
  match m with
  | .clear _ => sl.clearSide?.isSome
  | .clearAck => decide (sl.clearSide? = some .oweAck)
  | _ => true

/-- What an entry sends fits the slot it names: the slot is RESERVED, BUSY or in CLEARING with the entry's line and tag, and can have an
entry with that message (R150, R152). -/
abbrev EntryFits (s : State) (e : Entry) : Prop :=
  ∀ i ∈ e.slot?, (s.slots.at i).party? = e.party? ∧ (s.slots.at i).isHeld = false
    ∧ ∀ m ∈ e.slotMsg?, sendsIn m (s.slots.at i) = true

/-- Whether a reply timer of a kind can run in a slot: that of a SEIZE waits in RESERVED with direction OUT, and that of a CLEAR in
CLEARING with the acknowledgement awaited (R157). -/
def timerFits (k : TimerKind) (sl : Slot) : Bool :=
  match k, sl with
  | .seize, .reserved c _ => decide (c.direction = .out)
  | .clear, .clearing _ _ (.awaitAck _) _ => true
  | _, _ => false

/-- Whether a clear item can be owed behind a message in flight: one that is not of its kind (Table 8.6). -/
def owedFits (o : ClearOwed) (m : SlotMsg) : Bool :=
  match o, m with
  | .clear _, .clear _ => false
  | _, .clearAck => false
  | _, _ => true

/-- Entries, reply timers and owed items agree with the slots: no two entries name one slot, each entry fits its slot, a reply timer
runs only while no entry names the slot and in the state it waits in, and a clear item is owed only behind an entry in flight
(R143, R150, R151). -/
abbrev EntriesFitSlots (s : State) : Prop :=
  OneEntryEach s ∧ (s.inFlight.isSome = true → s.txq ≠ []) ∧ (∀ e ∈ s.txq, EntryFits s e)
    ∧ (∀ i, ∀ t ∈ (s.sig.at i).timer, hasEntry s i = false ∧ timerFits t.kind (s.slots.at i) = true)
    ∧ ∀ i, ∀ o ∈ (s.sig.at i).owed, flightSlot s = some i ∧ (s.slots.at i).clearSide? = some o.side
        ∧ ∀ m ∈ s.txq.head?.bind Entry.slotMsg?, owedFits o m = true

/-- The test bus is HELD for exactly the line in TEST, and CLAIMED only for a line with a slot (R163, R164, R167). -/
abbrev BusNamesItsLine (s : State) : Prop :=
  (∀ p, (s.lines.at p).state = .test ↔ s.bus = .held p) ∧ ∀ p, s.bus = .claimed p → (s.lines.at p).state.holdsSlot = true

/-- The calls of the part agree in its line records, its slot records, its transmit queue and its test bus. -/
abbrev CallsAgree (s : State) : Prop := LinesNameSlots s ∧ EntriesFitSlots s ∧ BusNamesItsLine s

end Sys2Proof.Machine
end

