-- ==== Sys2Proof/WellFormed.lean ====
section
/-! DEFINITION. Which command terms stand for an event the spec describes. A term that is not well formed stands for no
event of the hardware (log 27). -/

namespace Sys2Proof

/-- A request command is well formed when its body fits a frame (L at most 16, R200) and its kind and body belong to the row
it stands for. -/
def requestFits (i : Instr) : Bool :=
  match requestCode i with
  | some (num, kind, body) => decide (body.length ≤ 14) && decide (requestRow num kind body = i)
  | none => false

/-- A command is well formed when its operands are ones the event can carry. -/
def WellFormed (i : Instr) : Bool :=
  match i with
  | .resetPinAssert => true
  | .resetPinRelease _ _ _ => true
  | .selfTestEnd _ => true
  | .warmResetBegin => true
  | .offHook _ => true
  | .onHook _ => true
  | .decodingOnHook _ => true
  | .breakEnd _ ms => decide (0 < ms) && decide (ms % 2 = 0)   -- section 2.4: every length is an even number of milliseconds
  | .digitComplete _ => true
  | .fault _ => true
  | .faultClear _ => true
  | .contactChange p _ => decide (56 ≤ p.val)                  -- Table 1.4: only ports 56 to 63 offer MONITOR
  | .slowScan _ _ _ => true
  | .settleExpiry _ => true
  | .waitLimitExpiry _ => true
  | .ringLimitExpiry _ => true
  | .phaseBegin => true
  | .trunkFrame octets => decide (octets.length = 25)          -- R197
  | .holdoverExpiry => true
  | .restartReplyExpiry => true
  | .seizeReplyExpiry _ => true
  | .clearReplyExpiry _ => true
  | .entryStart => true
  | .entryComplete => true
  | .accept tag => decide (tag ≠ 0)                            -- R199, for the tags below as well
  | .reject tag _ => decide (tag ≠ 0)
  | .progress tag => decide (tag ≠ 0)
  | .headClear tag _ => decide (tag ≠ 0)
  | .headClearAck tag => decide (tag ≠ 0)
  | .incoming _ _ => true
  | .restartAck tags => decide (tags.length ≤ 20)              -- Table 12.3
  | .flow _ => true
  | .malformedHeadMessage octets => (decodeHeadMessage octets).isNone
  | .requestReceived _ => true
  | .lineBreak => true
  | .recordComplete => true
  | .identify n b => requestFits (.identify n b)
  | .configEnterOrderly n b => requestFits (.configEnterOrderly n b)
  | .configEnterForce n b => requestFits (.configEnterForce n b)
  | .configExit n b => requestFits (.configExit n b)
  | .mapSet n b => requestFits (.mapSet n b)
  | .paramSet n b => requestFits (.paramSet n b)
  | .postureSet n b => requestFits (.postureSet n b)
  | .groupStandby n b => requestFits (.groupStandby n b)
  | .groupWake n b => requestFits (.groupWake n b)
  | .testClaimWait n b => requestFits (.testClaimWait n b)
  | .testClaimForce n b => requestFits (.testClaimForce n b)
  | .testRelease n b => requestFits (.testRelease n b)
  | .slotBlock n b => requestFits (.slotBlock n b)
  | .slotUnblock n b => requestFits (.slotUnblock n b)
  | .trunkRelease n b => requestFits (.trunkRelease n b)
  | .alarmAck n b => requestFits (.alarmAck n b)
  | .queryLine n b => requestFits (.queryLine n b)
  | .querySlots n b => requestFits (.querySlots n b)
  | .queryQueues n b => requestFits (.queryQueues n b)
  | .queryLink n b => requestFits (.queryLink n b)
  | .queryAlarms n b => requestFits (.queryAlarms n b)
  | .warmReset n b => requestFits (.warmReset n b)
  | .unknownRequest n k b => requestFits (.unknownRequest n k b)
  | .framingError => true

end Sys2Proof
end

