-- ==== Sys2Proof/Certificates/Slice0/Obligations.lean ====
section
/-! DEFINITION. The statements about this model: what each command does and leaves alone, what every step keeps, and what the
octets of the trunk and of the control port say. -/

section
open Sys2Proof Sys2Proof.Machine

/-! ## The step and the reset -/

/-- The step of a state with a command at the front of its queue is that command's meaning on the state with the queue's rest. -/
def Obligations.StepTakesTheFrontCommand : Prop :=
  ∀ (c : Instr) (s : State), step (s.withCommand c) = exec c s

/-- No step stops, and no meaning changes the queue of commands. With no command waiting (log 3) a held part stands still, a self-test
counts down to its end with a free result (log 14), and the running part puts a due warm reset or the first entry that may start into
the queue, or lets one millisecond pass: every timer counts down, the phase clock counts up, one trunk frame of the bearer octets and
the next two octets of the entry in flight goes out, the record being sent goes on (log 28), the sense inputs are sampled every second
time, and what runs out or is debounced is put into the queue. A sample counts in the hook run and the fault run of each port that it
reaches (R19, R20); that one bit gives the sample phase of every group is the model's choice (log 29). A closed sample that ends a break
of a decoding line leaves the runs to the BREAK_END it brings about. Which event of a millisecond comes first is not said here (log 3);
that all of them are found from the state at its beginning, so that a timer that expires in it takes none of them back, is the model's
choice (log 36). -/
def Obligations.EveryStepAnswers : Prop :=
  (∀ s : State, ∃ t, step s = .next t) ∧ (∀ (c : Instr) (s : State), Answers c s fun t => t.pending = s.pending)
  ∧ (∀ s : State, s.pending = [] → s.power = .held → step s = .next s)
  ∧ (∀ (left : Nat) (s : State), s.pending = [] → s.power = .selfTest left →
    step s = .next (if left ≤ 1 then
        { s with
          power := .selfTest 0, pending := [.selfTestEnd (Config.selfTestPasses s.freeIndex)], freeIndex := s.freeIndex + 1 }
      else { s with power := .selfTest (left - 1) }))
  ∧ (∀ s : State, s.pending = [] → Running s → (s.tx ≠ .idle ∨ (s.reply = none ∧ s.reports = [])) → s.warm = .due →
    step s = .next { s with pending := [.warmResetBegin] })
  ∧ (∀ s : State, s.pending = [] → Running s → (s.tx ≠ .idle ∨ (s.reply = none ∧ s.reports = [])) → s.warm ≠ .due →
    s.flow = .go → s.inFlight = none → s.link.messages = true → s.txq ≠ [] → step s = .next { s with pending := [.entryStart] })
  ∧ (∀ s : State, s.pending = [] → Running s → (s.tx ≠ .idle ∨ (s.reply = none ∧ s.reports = [])) → s.warm ≠ .due →
    (s.flow = .stopped ∨ s.inFlight.isSome = true ∨ s.link.messages = false ∨ s.txq = []) →
    ∃ t, step s = .next t ∧ t.phaseMs = s.phaseMs + 1
      ∧ (∀ p, t.lines.at p = { s.lines.at p with timer := (s.lines.at p).timer.map (· - 1) })
      ∧ (∀ g, t.groups.at g = { s.groups.at g with
          settle := (s.groups.at g).settle.map (· - 1), slow := (s.groups.at g).slow.map (· - 1) })
      ∧ t.holdover = s.holdover.map (· - 1) ∧ t.restartTimer = s.restartTimer.map (fun x => (x.1, x.2 - 1))
      ∧ (∀ i, t.sig.at i = { s.sig.at i with timer := (s.sig.at i).timer.map fun x => { x with left := x.left - 1 } })
      ∧ (t.oddSample = !s.oddSample) ∧ (s.oddSample = false → t.scan = s.scan)
      ∧ (s.oddSample = true → ∀ p, t.scan.at p = { s.scan.at p with
          openRun :=
            if hookCounts s p = false then (s.scan.at p).openRun
            else if s.hookPin.at p = false then (s.scan.at p).openRun + 2
            else if decodes s p = true then (s.scan.at p).openRun
            else 0
          closedRun :=
            if hookCounts s p = false then (s.scan.at p).closedRun
            else if s.hookPin.at p = false then 0
            else if decodes s p = true ∧ 0 < (s.scan.at p).openRun then (s.scan.at p).closedRun
            else (s.scan.at p).closedRun + 2
          heldRun :=
            if hookCounts s p = false then (s.scan.at p).heldRun
            else if s.hookPin.at p = false then
              if (s.scan.at p).openRun = 0 then (s.scan.at p).closedRun else (s.scan.at p).heldRun
            else if decodes s p = true ∧ 0 < (s.scan.at p).openRun then (s.scan.at p).heldRun
            else 0
          faultRun :=
            if hasLine s p = false ∨ groupState s p = .standby then (s.scan.at p).faultRun
            else if s.faultPin.at p = (s.scan.at p).fault then 0
            else min ((s.scan.at p).faultRun + 2) 50 })
      ∧ t.inFlight = s.inFlight.map (fun f => { f with octets := f.octets.drop 2 })
      ∧ t.trunkTx = [0x4D, 0xB2] ++ (allSlots.map (bearerOut s) ++ signallingOctets s)
          ++ [crc8 (allSlots.map (bearerOut s) ++ signallingOctets s)]
      ∧ (match s.tx with
          | .idle => t.tx = .idle
          | .sendingReply lost n => t.tx = .sendingReply lost (n + s.rate.tenthsPerMs)
          | .sendingReport r lost n => t.tx = .sendingReport r lost (n + s.rate.tenthsPerMs))
      ∧ (Instr.phaseBegin ∈ t.pending ↔ 999 ≤ s.phaseMs)
      ∧ (∀ p, Instr.waitLimitExpiry p ∈ t.pending ↔ (s.lines.at p).state = .queued ∧ ∃ ms ∈ (s.lines.at p).timer, ms ≤ 1)
      ∧ (∀ p, Instr.ringLimitExpiry p ∈ t.pending ↔ (s.lines.at p).state ≠ .queued ∧ ∃ ms ∈ (s.lines.at p).timer, ms ≤ 1)
      ∧ (∀ g, Instr.settleExpiry g ∈ t.pending ↔ ∃ ms ∈ (s.groups.at g).settle, ms ≤ 1)
      ∧ (∀ i, Instr.seizeReplyExpiry i ∈ t.pending ↔ ∃ x ∈ (s.sig.at i).timer, x.kind = .seize ∧ x.left ≤ 1)
      ∧ (∀ i, Instr.clearReplyExpiry i ∈ t.pending ↔ ∃ x ∈ (s.sig.at i).timer, x.kind = .clear ∧ x.left ≤ 1)
      ∧ (Instr.holdoverExpiry ∈ t.pending ↔ ∃ ms ∈ s.holdover, ms ≤ 1)
      ∧ (Instr.restartReplyExpiry ∈ t.pending ↔ ∃ x ∈ s.restartTimer, x.2 ≤ 1)
      ∧ (Instr.entryComplete ∈ t.pending ↔ ∃ f ∈ s.inFlight, f.octets.length ≤ 2)
      ∧ (Instr.recordComplete ∈ t.pending ↔
          s.tx ≠ .idle ∧ 100 * (sendingOctets s).length ≤ recordSent s.tx + s.rate.tenthsPerMs)
      ∧ (∀ p, Instr.offHook p ∈ t.pending ↔ s.oddSample = true ∧ hookSampled s p = true ∧ awaitsOffHook s p = true
          ∧ s.hookPin.at p = true ∧ s.params.debounce ≤ (s.scan.at p).closedRun + 2)
      ∧ (∀ p, Instr.onHook p ∈ t.pending ↔ s.oddSample = true ∧ hookSampled s p = true ∧ awaitsOnHook s p = true
          ∧ s.hookPin.at p = false ∧ s.params.debounce ≤ (s.scan.at p).openRun + 2)
      ∧ (∀ g closed faulty, Instr.slowScan g closed faulty ∈ t.pending ↔ (∃ ms ∈ (s.groups.at g).slow, ms ≤ 1)
          ∧ ∀ p ∈ portsOf g, levelOf closed p = s.hookPin.at p ∧ levelOf faulty p = s.faultPin.at p)
      ∧ (∀ p, Instr.decodingOnHook p ∈ t.pending ↔ s.oddSample = true ∧ hookSampled s p = true ∧ decodes s p = true
          ∧ s.hookPin.at p = false ∧ s.params.flashMax < (s.scan.at p).openRun + 2)
      ∧ (∀ p ms, Instr.breakEnd p ms ∈ t.pending ↔ s.oddSample = true ∧ hookSampled s p = true ∧ decodes s p = true
          ∧ s.hookPin.at p = true ∧ 0 < (s.scan.at p).openRun ∧ ms = (s.scan.at p).openRun)
      ∧ (∀ p, Instr.digitComplete p ∈ t.pending ↔ s.oddSample = true ∧ hookSampled s p = true ∧ decodes s p = true
          ∧ s.hookPin.at p = true ∧ (0 < (s.scan.at p).pulses ∨ (s.scan.at p).overrun = true)
          ∧ s.params.interdigit ≤ closedRunNow (s.scan.at p))
      ∧ (∀ p, Instr.fault p ∈ t.pending ↔ s.oddSample = true ∧ hasLine s p = true ∧ groupState s p ≠ .standby
          ∧ (s.scan.at p).fault = false ∧ s.faultPin.at p = true ∧ 50 ≤ (s.scan.at p).faultRun + 2)
      ∧ (∀ p, Instr.faultClear p ∈ t.pending ↔ s.oddSample = true ∧ hasLine s p = true ∧ groupState s p ≠ .standby
          ∧ (s.scan.at p).fault = true ∧ s.faultPin.at p = false ∧ 50 ≤ (s.scan.at p).faultRun + 2)
      ∧ (∀ p, Instr.contactChange p .closed ∈ t.pending ↔ s.oddSample = true ∧ hookSampled s p = true ∧ isMonitor s p = true
          ∧ (s.scan.at p).contact = .opened ∧ s.hookPin.at p = true ∧ s.params.debounce ≤ (s.scan.at p).closedRun + 2)
      ∧ (∀ p, Instr.contactChange p .opened ∈ t.pending ↔ s.oddSample = true ∧ hookSampled s p = true ∧ isMonitor s p = true
          ∧ (s.scan.at p).contact = .closed ∧ s.hookPin.at p = false ∧ s.params.debounce ≤ (s.scan.at p).openRun + 2)
      ∧ t = { s with
          pending := t.pending, phaseMs := t.phaseMs, lines := t.lines, groups := t.groups, holdover := t.holdover
          restartTimer := t.restartTimer, sig := t.sig, oddSample := t.oddSample, scan := t.scan, trunkTx := t.trunkTx
          inFlight := t.inFlight, tx := t.tx })

/-- The state after reset is the part as it comes up: the straps low, so that no self-test has run (log 5). -/
def Obligations.StateAfterReset : Prop := ComesUp .cold .notRun .r9600 State.reset

/-- The state after reset has every invariant stated below. -/
def Obligations.ResetHasEveryInvariant : Prop :=
  QueuesBounded State.reset ∧ ScoreAgrees State.reset ∧ FreeListAgrees State.reset ∧ TagsDistinct State.reset
    ∧ RingHolds State.reset ∧ EventsFinished State.reset ∧ CallsAgree State.reset ∧ PortMapHolds State.reset

/-- Asserting RESET holds the part: nothing waits to be sent, no frame, message or record is under way, and every ring drive, feed and
relay output is off. The spec gives these values for the end of a reset (R184); that the queues, the request buffer and the reply slot
are empty, and that the frame sent is none, from the assertion on, and that the self-test result stands until the end, is the model's
choice (log 17, DEDUCED). -/
def Obligations.ResetPinAssertHoldsThePart : Prop :=
  ∀ s : State, Answers .resetPinAssert s fun t =>
    t.power = .held ∧ t.reports = [] ∧ t.reply = none ∧ t.requests = [] ∧ t.tx = .idle ∧ t.txq = [] ∧ t.inFlight = none
      ∧ t.trunkTx = [] ∧ t.selfTest = s.selfTest
      ∧ ∀ p, feed t p = (.off, .none) ∧ relay t p = false ∧ t.ringDrive.at p = false ∧ ∀ i, joined t i = none

/-- A release of RESET with the TEST strap low, and the end of a self-test, bring the part up from a cold reset; a warm reset whose
reply has gone brings it up with the self-test result and the rate it had. A release with the TEST strap high starts a self-test of 50
ms at the rate of the straps, and nothing else. -/
def Obligations.ResetsBringThePartUp : Prop :=
  (∀ (s : State) (high low : Bool), s.power = .held →
    Answers (.resetPinRelease false high low) s (ComesUp .cold .notRun (rateOfStraps high low)))
  ∧ (∀ (s : State) (left : Nat), s.power = .selfTest left →
    Answers (.selfTestEnd true) s (ComesUp .cold .pass s.rate) ∧ Answers (.selfTestEnd false) s (ComesUp .cold .fail s.rate))
  ∧ (∀ s : State, Running s → s.warm = .due → Answers .warmResetBegin s (ComesUp .warm s.selfTest s.rate))
  ∧ (∀ (s : State) (high low : Bool), s.power = .held →
    exec (.resetPinRelease true high low) s = .next { s with power := .selfTest 50, rate := rateOfStraps high low })

/-! ## Invariants that every step keeps -/

/-- Every step keeps the bounds of the report queue, the request buffer and the transmit queue's places for entries that name no slot,
no request waiting at an empty reply slot or behind a WARM_RESET, the alarm list's entries distinct, and the wait queue equal to the
QUEUED lines, each once, with none outside NORMAL. -/
def Obligations.StepKeepsQueuesBounded : Prop :=
  ∀ s t : State, QueuesBounded s → step s = .next t → QueuesBounded t

/-- Every step keeps the score at most 255, and at 255 exactly in DOWN and RECOVERED. -/
def Obligations.StepKeepsScoreAgrees : Prop :=
  ∀ s t : State, ScoreAgrees s → step s = .next t → ScoreAgrees t

/-- Every step keeps the free slot list equal to the FREE slots, each once, and the preemption mark on a slot in CLEARING. -/
def Obligations.StepKeepsFreeListAgrees : Prop :=
  ∀ s t : State, FreeListAgrees s → step s = .next t → FreeListAgrees t

/-- Every step keeps the tags of the slots distinct and from 1 to 255, and it keeps the port map: every port has a role that it offers,
every line number is from 1 to 9999, and no two ports have one number. -/
def Obligations.StepKeepsTagsDistinct : Prop :=
  (∀ s t : State, TagsDistinct s → step s = .next t → TagsDistinct t)
  ∧ (∀ s t : State, PortMapHolds s → step s = .next t → PortMapHolds t)

/-- Every step keeps every cell of the ring phase table within the ring capacity and on its own bus, and each line at most once in the
cells and the ring queue together, where only called lines stand. -/
def Obligations.StepKeepsRingHolds : Prop :=
  ∀ s t : State, RingHolds s → step s = .next t → RingHolds t

/-- Every step leaves the holdover timer running only while a slot is HELD, and CONFIG_PENDING only while a slot is in use. -/
def Obligations.StepKeepsEventsFinished : Prop :=
  ∀ s t : State, EventsFinished s → step s = .next t → EventsFinished t

/-! ## Octets -/

/-- Every well-formed head message, encoded by Table 12.3 and decoded again, is the same command with the same operands. -/
def Obligations.HeadMessagesDecodeAsEncoded : Prop :=
  ∀ (i : Instr) (octets : List Byte), WellFormed i = true → encodeHeadMessage i = some octets → decodeHeadMessage octets = some i

/-- A control port frame whose body fits, received by a receiver that hunts. While a reply stands in the reply slot it is a complete
request that joins the request buffer where fewer than two wait, and is lost with the flag set where two wait; nothing else changes.
With the reply slot empty and no request waiting it is taken at once, as the request's own row. -/
def Obligations.ReceivedFramesJoinTheBuffer : Prop :=
  (∀ (num kind : Byte) (body : List Byte) (s : State), Running s → s.warm = .none → s.receiver = .hunting → body.length ≤ 14 →
    s.reply ≠ none → s.tx ≠ .idle →
    exec (.requestReceived (controlFrame num kind body)) s = .next
      (if s.requests.length < 2 then { s with requests := s.requests ++ [⟨num, kind, body⟩] } else { s with requestLost := true }))
  ∧ (∀ (num kind : Byte) (body : List Byte) (s : State), Running s → s.warm = .none → s.receiver = .hunting → body.length ≤ 14 →
    s.reply = none → s.requests = [] →
    exec (.requestReceived (controlFrame num kind body)) s = exec (requestRow num kind body) s)

/-! ## Hook, digits, fault and contacts -/

/-- An off-hook on an IDLE line in NORMAL with no FREE slot, where preemption is off, under way or without a call that it may clear,
queues the line in its class's place with WAIT_LIMIT running, and reports it. Outside NORMAL it parks the line with reason CONFIG. With
a FREE slot, no line ahead and a class that Table 5.5 admits, the line is QUEUED and then SEIZING, with the head of the free slot list
RESERVED for it with the first free tag from the next tag on, and its SEIZE made. A PRIORITY line that heads the queue with no FREE slot
preempts the call reserved last of those it may clear: the mark names its slot, the slot is released with reason PREEMPTED, and the line
waits; where that call's SEIZE was never sent, its slot is FREE at once and the waiting line takes it. A victim whose test bus is
CLAIMED enters TEST in place of the state named. A reservation that takes the order 65535 renumbers the orders held 1 to k, in their
sequence. -/
def Obligations.OffHookOnAnIdleLine : Prop :=
  (∀ (p : Port) (s : State), Running s → hasLine s p = true → hookSampled s p = true → (s.lines.at p).state = .idle →
    s.mode = .normal → s.free = [] → (s.params.preempt = false ∨ s.mark ≠ none ∨ NoneToPreempt s) → EventsFinished s → Room 1 s →
    Answers (.offHook p) s fun t =>
      t.lines.at p = { Line.unequipped with
          state := .queued, timer := some (1000 * s.params.waitLimit), faultPresent := (s.lines.at p).faultPresent }
      ∧ t.waitQueue = joinByClass s p s.waitQueue ∧ (t.scan.at p).hook = .offHook
      ∧ Made s t [.callEvent p .queued (.because .normal)]
      ∧ OnlyAt p s.lines t.lines ∧ OnlyAt p s.scan t.scan ∧ OnlyAt p s.hookPin t.hookPin
      ∧ t.apartFromPort = ({ s with
          lines := t.lines, scan := t.scan, hookPin := t.hookPin, waitQueue := t.waitQueue } : State).apartFromPort)
  ∧ (∀ (p : Port) (s : State), Running s → hasLine s p = true → hookSampled s p = true → (s.lines.at p).state = .idle →
    s.mode ≠ .normal → s.bus ≠ .claimed p → EventsFinished s → Room 1 s →
    Answers (.offHook p) s fun t =>
      t.lines.at p = { Line.unequipped with state := .parked, faultPresent := (s.lines.at p).faultPresent }
      ∧ (t.scan.at p).hook = .offHook ∧ t.buffers.at p = DigitBuffer.empty
      ∧ Made s t [.callEvent p .parked (.because .config)]
      ∧ OnlyAt p s.lines t.lines ∧ OnlyAt p s.scan t.scan ∧ OnlyAt p s.hookPin t.hookPin ∧ OnlyAt p s.buffers t.buffers
      ∧ t.apartFromPort = ({ s with
          lines := t.lines, scan := t.scan, hookPin := t.hookPin, buffers := t.buffers } : State).apartFromPort)
  ∧ (∀ (p : Port) (i : SlotId) (rest : List SlotId) (s : State), Running s → hasLine s p = true → hookSampled s p = true →
    (s.lines.at p).state = .idle → s.mode = .normal → s.waitQueue = [] → s.free = i :: rest → s.slots.at i = .free →
    (if isPriority s p = true then s.link.inService = true else s.link.ordinary = true ∧ activeCount s < s.posture.callLimit) →
    (∃ tag, tagHeld s tag = false ∧ 1 ≤ tag ∧ tag ≤ 255) → s.nextOrder < 65535 → EventsFinished s → Room 2 s →
    Answers (.offHook p) s fun t =>
      t.lines.at p = { Line.unequipped with
          state := .seizing, call := some (i, .out), faultPresent := (s.lines.at p).faultPresent }
      ∧ (∃ tag, FirstFreeTag s tag ∧ 1 ≤ tag ∧ tag ≤ 255 ∧ t.nextTag = tag % 255 + 1
          ∧ t.slots.at i = .reserved ⟨p, tag, .out, false, s.nextOrder⟩ false
          ∧ t.txq = queueWith (isPriority s p) { msg := .ofSlot i p tag .seize, pinned := false } s)
      ∧ t.free = rest ∧ t.nextOrder = s.nextOrder + 1 ∧ t.sig.at i = Sig.cleared ∧ (t.scan.at p).hook = .offHook
      ∧ Made s t [.callEvent p .queued (.because .normal), .callEvent p .seizing (.because .normal)]
      ∧ OnlyAt p s.lines t.lines ∧ OnlyAt p s.scan t.scan ∧ OnlyAt p s.hookPin t.hookPin ∧ OnlyAt i s.slots t.slots
      ∧ OnlyAt i s.sig t.sig
      ∧ t.apartFromPort = ({ s with
          lines := t.lines, scan := t.scan, hookPin := t.hookPin, slots := t.slots, sig := t.sig, free := t.free, txq := t.txq
          nextTag := t.nextTag, nextOrder := t.nextOrder } : State).apartFromPort)
  ∧ (∀ (p : Port) (v : SlotId) (c : Call) (s : State), Running s → hasLine s p = true → hookSampled s p = true →
    (s.lines.at p).state = .idle → s.mode = .normal → isPriority s p = true → s.waitQueue = [] → s.free = [] → s.link.inService = true →
    s.params.preempt = true → s.mark = none → ChosenVictim s v c → ¬ UnsentSeize s v →
    groupState s c.line ≠ .standbyPending → EventsFinished s → Room 3 s →
    Answers (.offHook p) s fun t =>
      (t.lines.at p).state = .queued ∧ t.waitQueue = [p] ∧ t.mark = some v
      ∧ t.lines.at c.line = lineEnded s c.line (if (s.lines.at c.line).state.called then .idle else .parked)
      ∧ t.bus = busEnded s c.line ∧ Superseded v c.line c.tag (s.slots.at v).blockPending (.clear .preempted) s t
      ∧ Made s t (.callEvent p .queued (.because .normal)
          :: endReports s c.line (if (s.lines.at c.line).state.called then .idle else .parked) .preempted)
      ∧ (∀ q, q ≠ p → q ≠ c.line → t.lines.at q = s.lines.at q) ∧ OnlyAt v s.slots t.slots ∧ OnlyAt v s.sig t.sig)
  ∧ (∀ (p : Port) (v : SlotId) (c : Call) (s : State), Running s → hasLine s p = true → hookSampled s p = true →
    (s.lines.at p).state = .idle → s.mode = .normal → isPriority s p = true → s.waitQueue = [] → s.free = [] → s.link.inService = true →
    s.params.preempt = true → s.mark = none → ChosenVictim s v c → s.slots.at v = .reserved c false → UnsentSeize s v →
    OneEntryEach s → (s.lines.at c.line).state = .seizing →
    (∃ tag, tagHeld s tag = false ∧ 1 ≤ tag ∧ tag ≤ 255) → s.nextOrder < 65535 → EventsFinished s → Room 4 s →
    Answers (.offHook p) s fun t =>
      (t.lines.at p).state = .seizing ∧ (t.lines.at p).call = some (v, .out) ∧ t.waitQueue = [] ∧ t.mark = none ∧ t.free = []
      ∧ t.lines.at c.line = lineEnded s c.line .parked ∧ t.bus = busEnded s c.line
      ∧ (∃ tag, (∀ j, j ≠ v → (s.slots.at j).tag? ≠ some tag) ∧ 1 ≤ tag ∧ tag ≤ 255
          ∧ t.slots.at v = .reserved ⟨p, tag, .out, false, s.nextOrder⟩ false
          ∧ t.txq = queueWith true { msg := .ofSlot v p tag .seize, pinned := false }
              { s with txq := s.txq.filter fun e => decide (e.slot? ≠ some v) })
      ∧ Made s t (.callEvent p .queued (.because .normal) :: endReports s c.line .parked .preempted
          ++ [.callEvent p .seizing (.because .normal)])
      ∧ (∀ q, q ≠ p → q ≠ c.line → t.lines.at q = s.lines.at q) ∧ OnlyAt v s.slots t.slots ∧ OnlyAt v s.sig t.sig)
  ∧ (∀ (p : Port) (i : SlotId) (rest : List SlotId) (s : State), Running s → hasLine s p = true → hookSampled s p = true →
    (s.lines.at p).state = .idle → s.mode = .normal → s.waitQueue = [] → s.free = i :: rest → s.slots.at i = .free →
    (if isPriority s p = true then s.link.inService = true else s.link.ordinary = true ∧ activeCount s < s.posture.callLimit) →
    s.nextOrder = 65535 → (∀ j, ∀ c ∈ (s.slots.at j).call?, c.order < 65535) → EventsFinished s → Room 2 s →
    Answers (.offHook p) s fun t =>
      (t.lines.at p).state = .seizing ∧ (t.slots.at i).call?.map (·.order) = some (activeCount s + 1)
      ∧ (∀ j, j ≠ i → t.slots.at j = (s.slots.at j).withOrder fun n => 1 + reservedBefore s n)
      ∧ t.nextOrder = activeCount s + 2)

/-- A line joining a queue that stands in class order, the PRIORITY lines first, stands behind the last line of its own class. -/
def Obligations.QueuesKeepClassOrder : Prop :=
  ∀ (s : State) (p : Port) (priority ordinary : List Port), (∀ q ∈ priority, isPriority s q = true) →
    (∀ q ∈ ordinary, isPriority s q = false) →
    joinByClass s p (priority ++ ordinary) =
      if isPriority s p then priority ++ p :: ordinary else priority ++ ordinary ++ [p]

/-- An off-hook on an OFFERED or RINGING line answers: the line is ACTIVE_IN, its slot BUSY and answered, its ANSWER entry is made at
the tail, or stays owed while another entry of the slot stands, and the line leaves its cell or the ring queue with its ring drive
off. -/
def Obligations.OffHookAnswersACalledLine : Prop :=
  ∀ (p : Port) (i : SlotId) (c : Call) (b : Bool) (d : Direction) (s : State), Running s → hasLine s p = true →
    hookSampled s p = true → (s.lines.at p).state.called = true → (s.lines.at p).call = some (i, d) →
    s.slots.at i = .reserved c b → c.line = p → (s.sig.at i).owed = none → s.waitQueue = [] →
    s.ringQueue.erase p = [] → EventsFinished s → Room 1 s →
    Answers (.offHook p) s fun t =>
      (t.lines.at p).state = .activeIn ∧ (t.lines.at p).call = some (i, .inward) ∧ (t.lines.at p).timer = none
      ∧ t.slots.at i = .busy { c with answered := true } b ∧ joined t i = some p
      ∧ (if hasEntry s i then (t.lines.at p).answerOwed = true ∧ t.txq = s.txq
        else (t.lines.at p).answerOwed = false
          ∧ t.txq = s.txq ++ [{ msg := .ofSlot i p c.tag .answer, pinned := false }])
      ∧ isPlaced t p = false ∧ t.ringQueue = [] ∧ t.ringDrive.at p = false
      ∧ Made s t [.callEvent p .activeIn (.because .normal)]
      ∧ OnlyAt p s.lines t.lines ∧ OnlyAt p s.scan t.scan ∧ OnlyAt p s.hookPin t.hookPin ∧ OnlyAt i s.slots t.slots
      ∧ OnlyAt p s.ringDrive t.ringDrive
      ∧ t.apartFromPort = ({ s with
          lines := t.lines, scan := t.scan, hookPin := t.hookPin, slots := t.slots, txq := t.txq, cells := t.cells
          ringQueue := t.ringQueue, ringDrive := t.ringDrive } : State).apartFromPort

/-- An on-hook on a PARKED line of an ACTIVE group makes it IDLE. An open run longer than FLASH_MAX on a decoding line with a call ends
the call: the line is IDLE, and its slot is given up with a CLEAR with reason NORMAL owed, which acts on the slot's entry as Table 8.6
gives; with the test bus CLAIMED for it the line enters TEST instead and the bus is HELD, reported as CALL_EVENT(TEST, MAINTENANCE) and
TEST_EVENT(CALL_END). A PARKED line of a STANDBY_PENDING group that goes IDLE as its last line that is not IDLE puts the group in
STANDBY with cause LINES_IDLE, reported behind the line's change. -/
def Obligations.OnHooksEndCalls : Prop :=
  (∀ (p : Port) (s : State), Running s → hasLine s p = true → groupState s p = .active → (s.lines.at p).state = .parked →
    (s.lines.at p).call = none → s.bus ≠ .claimed p → EventsFinished s → Room 1 s →
    Answers (.onHook p) s fun t =>
      t.lines.at p = { Line.unequipped with state := .idle, faultPresent := (s.lines.at p).faultPresent }
      ∧ (t.scan.at p).hook = .onHook ∧ t.buffers.at p = DigitBuffer.empty
      ∧ Made s t [.callEvent p .idle (.because .normal)]
      ∧ OnlyAt p s.lines t.lines ∧ OnlyAt p s.scan t.scan ∧ OnlyAt p s.hookPin t.hookPin ∧ OnlyAt p s.buffers t.buffers
      ∧ t.apartFromPort = ({ s with
          lines := t.lines, scan := t.scan, hookPin := t.hookPin, buffers := t.buffers } : State).apartFromPort)
  ∧ (∀ (p : Port) (i : SlotId) (c : Call) (d : Direction) (s : State), Running s → decodes s p = true →
    groupState s p = .active → (s.lines.at p).call = some (i, d) → (s.slots.at i).call? = some c → c.line = p → (s.slots.at i).isHeld = false →
    s.mark ≠ some i → OneEntryEach s → s.waitQueue = [] → s.mode ≠ .configPending → EventsFinished s →
    Room 2 s →
    Answers (.decodingOnHook p) s fun t =>
      t.lines.at p = lineEnded s p .idle ∧ t.bus = busEnded s p
      ∧ Superseded i p c.tag (s.slots.at i).blockPending (.clear .normal) s t ∧ joined t i = none
      ∧ (t.scan.at p).hook = .onHook ∧ t.buffers.at p = DigitBuffer.empty
      ∧ Made s t (endReports s p .idle .normal)
      ∧ OnlyAt p s.lines t.lines ∧ OnlyAt p s.scan t.scan ∧ OnlyAt p s.hookPin t.hookPin ∧ OnlyAt p s.buffers t.buffers
      ∧ OnlyAt i s.slots t.slots ∧ OnlyAt i s.sig t.sig
      ∧ t.apartFromPort = ({ s with
          lines := t.lines, scan := t.scan, hookPin := t.hookPin, buffers := t.buffers, slots := t.slots, sig := t.sig
          txq := t.txq, free := t.free, bus := t.bus } : State).apartFromPort)
  ∧ (∀ (p : Port) (s : State), Running s → hasLine s p = true → groupState s p = .standbyPending → (s.lines.at p).state = .parked →
    (s.lines.at p).call = none → s.bus ≠ .claimed p → EventsFinished s → Room 2 s →
    Answers (.onHook p) s fun t =>
      t.lines.at p = { Line.unequipped with state := .idle, faultPresent := (s.lines.at p).faultPresent }
      ∧ (t.scan.at p).hook = .onHook ∧ OnlyAt p s.lines t.lines ∧ OnlyAt (groupOf p) s.groups t.groups
      ∧ (if ∀ q ∈ portsOf (groupOf p), q ≠ p → hasLine s q = true → (s.lines.at q).state = .idle then
          t.groups.at (groupOf p) = { s.groups.at (groupOf p) with state := .standby, settle := none, slow := some 200 }
            ∧ (∀ q ∈ portsOf (groupOf p), (t.scan.at q).openRun = 0 ∧ (t.scan.at q).closedRun = 0 ∧ (t.scan.at q).faultRun = 0)
            ∧ (∀ q, q ∉ portsOf (groupOf p) → t.scan.at q = s.scan.at q)
            ∧ Made s t [.callEvent p .idle (.because .normal), .groupEvent (groupOf p) .standby .linesIdle]
        else t.groups = s.groups ∧ OnlyAt p s.scan t.scan ∧ Made s t [.callEvent p .idle (.because .normal)])
      ∧ t.apartFromPort = ({ s with
          lines := t.lines, scan := t.scan, hookPin := t.hookPin, buffers := t.buffers, groups := t.groups } : State).apartFromPort)

/-- A break of 20 ms to 100 ms on a decoding line counts one pulse: below 10 the count rises, at 10 overrun becomes yes, and once
overrun is yes nothing is counted. It makes no event and no report. -/
def Obligations.PulseIsCounted : Prop :=
  ∀ (p : Port) (ms : Nat) (s : State), Running s → decodes s p = true → hookSampled s p = true → 20 ≤ ms → ms ≤ 100 →
    ms ≤ s.params.flashMax →
    Answers (.breakEnd p ms) s fun t =>
      (t.scan.at p).pulses
          = (if (s.scan.at p).overrun = false ∧ (s.scan.at p).pulses < 10 then (s.scan.at p).pulses + 1 else (s.scan.at p).pulses)
      ∧ (t.scan.at p).overrun = ((s.scan.at p).overrun || decide (10 ≤ (s.scan.at p).pulses))
      ∧ (t.scan.at p).closedRun = 2 ∧ (t.scan.at p).openRun = 0 ∧ (t.scan.at p).hook = (s.scan.at p).hook
      ∧ OnlyAt p s.scan t.scan ∧ OnlyAt p s.hookPin t.hookPin ∧ t = { serve s with scan := t.scan, hookPin := t.hookPin }

/-- A break shorter than 20 ms is ignored: the pulse count and overrun stand and no report is made. A break longer than 100 ms on a
connected line that may flash discards the partial digit and makes the FLASH entry. One on a line that waits is reported as ignored. -/
def Obligations.OtherBreaksAreClassified : Prop :=
  (∀ (p : Port) (ms : Nat) (s : State), Running s → decodes s p = true → hookSampled s p = true → 0 < ms → ms < 20 →
    ms ≤ s.params.flashMax →
    Answers (.breakEnd p ms) s fun t =>
      (t.scan.at p).pulses = (s.scan.at p).pulses ∧ (t.scan.at p).overrun = (s.scan.at p).overrun
      ∧ OnlyAt p s.scan t.scan ∧ OnlyAt p s.hookPin t.hookPin ∧ t = { serve s with scan := t.scan, hookPin := t.hookPin })
  ∧ (∀ (p : Port) (ms : Nat) (i : SlotId) (c : Call) (b : Bool) (d : Direction) (s : State), Running s → decodes s p = true →
    hookSampled s p = true → 100 < ms → ms ≤ s.params.flashMax → (s.lines.at p).state.active = true →
    (s.lines.at p).call = some (i, d) → s.slots.at i = .busy c b → c.line = p → hasEntry s i = false → (s.sig.at i).owed = none →
    (s.buffers.at p).digits = [] → (s.lines.at p).flashOwed = false → (s.lines.at p).answerOwed = false →
    Answers (.breakEnd p ms) s fun t =>
      (t.scan.at p).pulses = 0 ∧ (t.scan.at p).overrun = false ∧ t.lines = s.lines
      ∧ t.txq = s.txq ++ [{ msg := .ofSlot i p c.tag .flash, pinned := false }]
      ∧ OnlyAt p s.scan t.scan ∧ OnlyAt p s.hookPin t.hookPin ∧ t = { serve s with scan := t.scan, hookPin := t.hookPin, txq := t.txq })
  ∧ (∀ (p : Port) (ms : Nat) (s : State), Running s → decodes s p = true → hookSampled s p = true → 100 < ms →
    ms ≤ s.params.flashMax → (s.lines.at p).state.active = false → Room 1 s →
    Answers (.breakEnd p ms) s fun t =>
      (t.scan.at p).pulses = 0 ∧ (t.scan.at p).overrun = false
      ∧ Made s t [.callEvent p (s.lines.at p).state .flashIgnored]
      ∧ OnlyAt p s.scan t.scan ∧ OnlyAt p s.hookPin t.hookPin
      ∧ t.apartFromPort = ({ s with scan := t.scan, hookPin := t.hookPin } : State).apartFromPort)

/-- A pause that reaches INTERDIGIT after 1 to 10 pulses, on a line with no call, completes a digit, 10 pulses giving 0: it joins the
buffer where waiting digits and lent places leave room, and is lost and reported where they do not. After an overrun it is a misdial,
which leaves the buffer alone. -/
def Obligations.DigitCompletes : Prop :=
  ∀ (p : Port) (s : State), Running s → decodes s p = true → hookSampled s p = true → (s.lines.at p).call = none → Room 1 s →
    0 < (s.scan.at p).pulses → (s.scan.at p).pulses ≤ 10 →
    Answers (.digitComplete p) s fun t =>
      (t.scan.at p).pulses = 0 ∧ (t.scan.at p).overrun = false
      ∧ OnlyAt p s.scan t.scan ∧ OnlyAt p s.hookPin t.hookPin ∧ OnlyAt p s.buffers t.buffers
      ∧ t.apartFromPort = ({ s with
          scan := t.scan, hookPin := t.hookPin, buffers := t.buffers } : State).apartFromPort
      ∧ (if (s.scan.at p).overrun then
          t.buffers = s.buffers ∧ Made s t [.callEvent p (s.lines.at p).state .misdial]
        else if (s.buffers.at p).digits.length + (s.buffers.at p).lent < 4 then
          (∃ d : Digit, d.val = (s.scan.at p).pulses % 10 ∧ (t.buffers.at p).digits = (s.buffers.at p).digits ++ [d])
            ∧ (t.buffers.at p).lent = (s.buffers.at p).lent ∧ (t.buffers.at p).lost = (s.buffers.at p).lost ∧ Made s t []
        else
          (t.buffers.at p).digits = (s.buffers.at p).digits ∧ (t.buffers.at p).lent = (s.buffers.at p).lent
            ∧ (t.buffers.at p).lost = true ∧ Made s t [.callEvent p (s.lines.at p).state .digitLost])

/-- A fault accepted on an IDLE line in an awake group takes the line to FAULT: the alarm is raised before the line is reported. In
STANDBY it wakes the group first. On a line in a call it ends the call, the slot given up with a CLEAR with reason LINE_FAULT owed, and
with the test bus CLAIMED for it the line enters TEST. A fault-clear takes a FAULT line of an ACTIVE group back to IDLE, the alarm's end
reported first and its entry kept. On a line in TEST both act on "fault present" and the alarm alone. -/
def Obligations.FaultAndItsEnd : Prop :=
  (∀ (p : Port) (s : State), Running s → hasLine s p = true → hookSampled s p = true → (s.scan.at p).fault = false →
    (s.lines.at p).state = .idle → (s.lines.at p).call = none → s.bus ≠ .claimed p → alarmEntry s (.lineFault p) = none →
    EventsFinished s → Room 2 s →
    Answers (.fault p) s fun t =>
      t.lines.at p = { Line.unequipped with state := .fault, faultPresent := true } ∧ (t.scan.at p).fault = true
      ∧ t.alarms = s.alarms ++ [{ id := .lineFault p, present := true }]
      ∧ Made s t [.alarmEvent (.lineFault p) .raised, .callEvent p .fault (.because .lineFault)]
      ∧ OnlyAt p s.lines t.lines ∧ OnlyAt p s.scan t.scan ∧ OnlyAt p s.faultPin t.faultPin ∧ OnlyAt p s.buffers t.buffers
      ∧ t.apartFromPort = ({ s with
          lines := t.lines, scan := t.scan, faultPin := t.faultPin, buffers := t.buffers, alarms := t.alarms } : State).apartFromPort)
  ∧ (∀ (p : Port) (s : State), Running s → hasLine s p = true → groupState s p = .standby → (s.scan.at p).fault = false →
    (s.lines.at p).state = .idle → (s.lines.at p).call = none → s.bus ≠ .claimed p → alarmEntry s (.lineFault p) = none →
    EventsFinished s → Room 3 s →
    Answers (.fault p) s fun t =>
      t.lines.at p = { Line.unequipped with state := .fault, faultPresent := true } ∧ (t.scan.at p).fault = true
      ∧ t.groups.at (groupOf p) = { state := .waking, wake := (s.groups.at (groupOf p)).wake, settle := some 300, slow := none }
      ∧ t.alarms = s.alarms ++ [{ id := .lineFault p, present := true }]
      ∧ Made s t [.groupEvent (groupOf p) .waking .fault, .alarmEvent (.lineFault p) .raised,
          .callEvent p .fault (.because .lineFault)]
      ∧ OnlyAt p s.lines t.lines ∧ (∀ q, groupOf q ≠ groupOf p → t.scan.at q = s.scan.at q) ∧ OnlyAt p s.faultPin t.faultPin
      ∧ OnlyAt p s.buffers t.buffers ∧ OnlyAt (groupOf p) s.groups t.groups
      ∧ t.apartFromPort = ({ s with
          lines := t.lines, scan := t.scan, faultPin := t.faultPin, buffers := t.buffers, alarms := t.alarms
          groups := t.groups } : State).apartFromPort)
  ∧ (∀ (p : Port) (i : SlotId) (c : Call) (d : Direction) (s : State), Running s → hasLine s p = true →
    groupState s p ≠ .standby → (s.scan.at p).fault = false → (s.lines.at p).state.holdsSlot = true →
    (s.lines.at p).state ≠ .holdover → (s.lines.at p).call = some (i, d) → (s.slots.at i).call? = some c → c.line = p →
    (s.slots.at i).isHeld = false → s.mark ≠ some i → OneEntryEach s → s.waitQueue = [] → s.ringQueue.erase p = [] →
    alarmEntry s (.lineFault p) = none → s.mode ≠ .configPending → EventsFinished s → Room 3 s →
    Answers (.fault p) s fun t =>
      t.lines.at p = { lineEnded s p .fault with faultPresent := true } ∧ t.bus = busEnded s p ∧ (t.scan.at p).fault = true
      ∧ Superseded i p c.tag (s.slots.at i).blockPending (.clear .lineFault) s t ∧ joined t i = none
      ∧ ((s.lines.at p).state.called = true → isPlaced t p = false ∧ t.ringQueue = [] ∧ t.ringDrive.at p = false)
      ∧ t.alarms = s.alarms ++ [{ id := .lineFault p, present := true }]
      ∧ Made s t (.alarmEvent (.lineFault p) .raised :: endReports s p .fault .lineFault)
      ∧ OnlyAt p s.lines t.lines ∧ OnlyAt p s.scan t.scan ∧ OnlyAt p s.faultPin t.faultPin ∧ OnlyAt p s.buffers t.buffers
      ∧ OnlyAt i s.slots t.slots ∧ OnlyAt i s.sig t.sig ∧ OnlyAt p s.ringDrive t.ringDrive
      ∧ t.apartFromPort = ({ s with
          lines := t.lines, scan := t.scan, faultPin := t.faultPin, buffers := t.buffers, alarms := t.alarms, slots := t.slots
          sig := t.sig, txq := t.txq, free := t.free, cells := t.cells, ringQueue := t.ringQueue
          ringDrive := t.ringDrive, bus := t.bus } : State).apartFromPort)
  ∧ (∀ (p : Port) (s : State), Running s → hasLine s p = true → groupState s p = .active → (s.scan.at p).fault = true →
    (s.lines.at p).state = .fault → s.bus ≠ .claimed p → alarmEntry s (.lineFault p) = some ⟨.lineFault p, true⟩ →
    EventsFinished s → Room 2 s →
    Answers (.faultClear p) s fun t =>
      t.lines.at p = { Line.unequipped with state := .idle } ∧ (t.scan.at p).fault = false
      ∧ t.alarms = s.alarms.map (fun e => if e.id = .lineFault p then { e with present := false } else e)
      ∧ Made s t [.alarmEvent (.lineFault p) .conditionEnded, .callEvent p .idle (.because .normal)]
      ∧ OnlyAt p s.lines t.lines ∧ OnlyAt p s.scan t.scan ∧ OnlyAt p s.faultPin t.faultPin ∧ OnlyAt p s.buffers t.buffers
      ∧ t.apartFromPort = ({ s with
          lines := t.lines, scan := t.scan, faultPin := t.faultPin, buffers := t.buffers, alarms := t.alarms } : State).apartFromPort)
  ∧ (∀ (p : Port) (s : State), Running s → hasLine s p = true → groupState s p ≠ .standby → (s.scan.at p).fault = false →
    (s.lines.at p).state = .test → alarmEntry s (.lineFault p) = none → EventsFinished s → Room 1 s →
    Answers (.fault p) s fun t =>
      t.lines.at p = { s.lines.at p with faultPresent := true }
      ∧ t.scan.at p = { s.scan.at p with fault := true, faultRun := 0 }
      ∧ t.alarms = s.alarms ++ [{ id := .lineFault p, present := true }] ∧ Made s t [.alarmEvent (.lineFault p) .raised]
      ∧ OnlyAt p s.lines t.lines ∧ OnlyAt p s.scan t.scan ∧ OnlyAt p s.faultPin t.faultPin
      ∧ t.apartFromPort = ({ s with
          lines := t.lines, scan := t.scan, faultPin := t.faultPin, alarms := t.alarms } : State).apartFromPort)
  ∧ (∀ (p : Port) (s : State), Running s → hasLine s p = true → groupState s p ≠ .standby → (s.scan.at p).fault = true →
    (s.lines.at p).state = .test → alarmEntry s (.lineFault p) = some ⟨.lineFault p, true⟩ → EventsFinished s → Room 1 s →
    Answers (.faultClear p) s fun t =>
      t.lines.at p = { s.lines.at p with faultPresent := false }
      ∧ t.scan.at p = { s.scan.at p with fault := false, faultRun := 0 }
      ∧ t.alarms = s.alarms.map (fun e => if e.id = .lineFault p then { e with present := false } else e)
      ∧ Made s t [.alarmEvent (.lineFault p) .conditionEnded]
      ∧ OnlyAt p s.lines t.lines ∧ OnlyAt p s.scan t.scan ∧ OnlyAt p s.faultPin t.faultPin
      ∧ t.apartFromPort = ({ s with
          lines := t.lines, scan := t.scan, faultPin := t.faultPin, alarms := t.alarms } : State).apartFromPort)

/-- A contact that closes is reported and raises its alarm, the MONITOR_EVENT first; one that opens is reported and ends it. -/
def Obligations.ContactChangesAreReported : Prop :=
  (∀ (p : Port) (s : State), Running s → isMonitor s p = true → hookSampled s p = true → (s.scan.at p).contact = .opened →
    alarmEntry s (.contact p) = none → Room 2 s →
    Answers (.contactChange p .closed) s fun t =>
      (t.scan.at p).contact = .closed ∧ t.alarms = s.alarms ++ [{ id := .contact p, present := true }]
      ∧ Made s t [.monitorEvent p .closed, .alarmEvent (.contact p) .raised]
      ∧ OnlyAt p s.scan t.scan ∧ OnlyAt p s.hookPin t.hookPin
      ∧ t.apartFromPort = ({ s with scan := t.scan, hookPin := t.hookPin, alarms := t.alarms } : State).apartFromPort)
  ∧ (∀ (p : Port) (s : State), Running s → isMonitor s p = true → hookSampled s p = true → (s.scan.at p).contact = .closed →
    alarmEntry s (.contact p) = some ⟨.contact p, true⟩ → Room 2 s →
    Answers (.contactChange p .opened) s fun t =>
      (t.scan.at p).contact = .opened
      ∧ t.alarms = s.alarms.map (fun e => if e.id = .contact p then { e with present := false } else e)
      ∧ Made s t [.monitorEvent p .opened, .alarmEvent (.contact p) .conditionEnded]
      ∧ OnlyAt p s.scan t.scan ∧ OnlyAt p s.hookPin t.hookPin
      ∧ t.apartFromPort = ({ s with scan := t.scan, hookPin := t.hookPin, alarms := t.alarms } : State).apartFromPort)

/-! ## Scan groups -/

/-- A slow sample that finds a closed loop on a line, and neither a fault nor a MONITOR port, wakes a group whose wake flag is ENABLED,
and leaves a group whose flag is DISABLED asleep; the line stays IDLE either way. A slow sample that finds a fault on one IDLE line
wakes the group whatever the flag, and the line goes to FAULT. One that finds a MONITOR contact closed, and nothing on a line, accepts
it at once and leaves the group asleep. -/
def Obligations.SlowSampleWakesByTheFlag : Prop :=
  (∀ (g : GroupId) (closed : BitVec 8) (p : Port) (s : State), Running s → (s.groups.at g).state = .standby → p ∈ portsOf g →
    hasLine s p = true → levelOf closed p = true → (∀ q ∈ portsOf g, isMonitor s q = false) →
    EventsFinished s → Room 1 s →
    Answers (.slowScan g closed 0) s fun t =>
      t.lines = s.lines ∧ (t.scan.at p).hook = (s.scan.at p).hook ∧ (t.groups.at g).wake = (s.groups.at g).wake
      ∧ OnlyAt g s.groups t.groups
      ∧ t.apartFromPort = ({ s with
          groups := t.groups, scan := t.scan, hookPin := t.hookPin, faultPin := t.faultPin } : State).apartFromPort
      ∧ (if (s.groups.at g).wake then
          (t.groups.at g).state = .waking ∧ (t.groups.at g).settle = some 300 ∧ (t.groups.at g).slow = none
            ∧ RunsCleared g s t ∧ Made s t [.groupEvent g .waking .offHook]
        else (t.groups.at g).state = .standby ∧ (t.groups.at g).slow = some 200 ∧ t.scan = s.scan ∧ Made s t []))
  ∧ (∀ (g : GroupId) (closed faulty : BitVec 8) (p : Port) (s : State), Running s → (s.groups.at g).state = .standby →
    p ∈ portsOf g → hasLine s p = true → levelOf faulty p = true → (s.scan.at p).fault = false →
    (∀ q ∈ portsOf g, q ≠ p → levelOf faulty q = false) → (∀ q ∈ portsOf g, isMonitor s q = false) →
    (s.lines.at p).state = .idle → (s.lines.at p).call = none → s.bus ≠ .claimed p → alarmEntry s (.lineFault p) = none →
    EventsFinished s → Room 3 s →
    Answers (.slowScan g closed faulty) s fun t =>
      t.lines.at p = { Line.unequipped with state := .fault, faultPresent := true } ∧ (t.scan.at p).fault = true
      ∧ t.groups.at g = { state := .waking, wake := (s.groups.at g).wake, settle := some 300, slow := none }
      ∧ t.alarms = s.alarms ++ [{ id := .lineFault p, present := true }]
      ∧ Made s t [.groupEvent g .waking .fault, .alarmEvent (.lineFault p) .raised, .callEvent p .fault (.because .lineFault)]
      ∧ OnlyAt p s.lines t.lines ∧ OnlyAt p s.buffers t.buffers ∧ OnlyAt g s.groups t.groups
      ∧ (∀ q ∈ portsOf g, q ≠ p →
          t.scan.at q = { s.scan.at q with openRun := 0, closedRun := 0, heldRun := 0, faultRun := 0 })
      ∧ (∀ q, q ∉ portsOf g → t.scan.at q = s.scan.at q)
      ∧ t.apartFromPort = ({ s with
          lines := t.lines, buffers := t.buffers, groups := t.groups, scan := t.scan, alarms := t.alarms
          hookPin := t.hookPin, faultPin := t.faultPin } : State).apartFromPort)
  ∧ (∀ (g : GroupId) (closed faulty : BitVec 8) (p : Port) (s : State), Running s → (s.groups.at g).state = .standby →
    p ∈ portsOf g → isMonitor s p = true → (s.scan.at p).contact = .opened → levelOf closed p = true →
    (∀ q ∈ portsOf g, q ≠ p → hasLine s q = false ∧ isMonitor s q = false) → alarmEntry s (.contact p) = none →
    EventsFinished s → Room 2 s →
    Answers (.slowScan g closed faulty) s fun t =>
      t.scan.at p = { s.scan.at p with contact := .closed } ∧ OnlyAt p s.scan t.scan
      ∧ t.groups.at g = { s.groups.at g with slow := some 200 } ∧ OnlyAt g s.groups t.groups
      ∧ t.alarms = s.alarms ++ [{ id := .contact p, present := true }]
      ∧ Made s t [.monitorEvent p .closed, .alarmEvent (.contact p) .raised]
      ∧ t.apartFromPort = ({ s with
          groups := t.groups, scan := t.scan, alarms := t.alarms, hookPin := t.hookPin
          faultPin := t.faultPin } : State).apartFromPort)

/-- The end of settle makes a WAKING group ACTIVE with every run of its ports at 0, the fault run among them (log 20), and reports it; a
group with no OFFERED line hands none to the Ring Scheduler. Its one OFFERED line that stands in no cell and not in the ring queue is
handed on: it is placed in the cell of the next phase where that has room, and joins the ring queue in its class's place where no cell
of its bus has room; it stays OFFERED, in every mode (log 33). -/
def Obligations.SettleEndsInActive : Prop :=
  (∀ (g : GroupId) (s : State), Running s → (s.groups.at g).state = .waking →
    (∀ p ∈ portsOf g, (s.lines.at p).state ≠ .offered) → Room 1 s →
    Answers (.settleExpiry g) s fun t =>
      (t.groups.at g).state = .active ∧ (t.groups.at g).settle = none ∧ (t.groups.at g).wake = (s.groups.at g).wake
      ∧ (∀ p ∈ portsOf g, (t.scan.at p).openRun = 0 ∧ (t.scan.at p).closedRun = 0 ∧ (t.scan.at p).faultRun = 0
          ∧ (t.scan.at p).hook = (s.scan.at p).hook ∧ (t.scan.at p).contact = (s.scan.at p).contact)
      ∧ (∀ p, p ∉ portsOf g → t.scan.at p = s.scan.at p) ∧ OnlyAt g s.groups t.groups
      ∧ Made s t [.groupEvent g .active .settled]
      ∧ t.apartFromPort = ({ s with groups := t.groups, scan := t.scan } : State).apartFromPort)
  ∧ (∀ (g : GroupId) (p : Port) (s : State), Running s → (s.groups.at g).state = .waking → p ∈ portsOf g →
    (s.lines.at p).state = .offered → isPlaced s p = false → p ∉ s.ringQueue →
    (∀ q ∈ portsOf g, q ≠ p → (s.lines.at q).state ≠ .offered) → s.nextPlacement < 65535 → Room 1 s →
    Answers (.settleExpiry g) s fun t =>
      t.groups.at g = { s.groups.at g with state := .active, settle := none } ∧ OnlyAt g s.groups t.groups
      ∧ Made s t [.groupEvent g .active .settled] ∧ RunsCleared g s t
      ∧ ((s.cells.at (cellOf (nextPhase s.phase) (busOf p))).length < s.posture.ringCapacity →
          t.cells.at (cellOf (nextPhase s.phase) (busOf p))
              = s.cells.at (cellOf (nextPhase s.phase) (busOf p)) ++ [⟨p, s.nextPlacement⟩]
            ∧ OnlyAt (cellOf (nextPhase s.phase) (busOf p)) s.cells t.cells ∧ t.nextPlacement = s.nextPlacement + 1
            ∧ t.ringQueue = s.ringQueue)
      ∧ ((∀ c : Fin 3, s.posture.ringCapacity ≤ (s.cells.at (cellOf c (busOf p))).length) →
          t.ringQueue = joinByClass s p s.ringQueue ∧ t.cells = s.cells ∧ t.nextPlacement = s.nextPlacement)
      ∧ t.apartFromPort = ({ s with
          groups := t.groups, scan := t.scan, cells := t.cells, nextPlacement := t.nextPlacement
          ringQueue := t.ringQueue } : State).apartFromPort)

/-! ## Line timers and ringing -/

/-- WAIT_LIMIT parks the one queued line with reason CONGESTED. RING_LIMIT sends a called line to IDLE, its slot given up with a CLEAR
with reason NO_ANSWER owed, and out of its cell or the ring queue; with the test bus CLAIMED for it the line enters TEST instead. -/
def Obligations.LineTimersExpire : Prop :=
  (∀ (p : Port) (ms : Nat) (s : State), Running s → (s.lines.at p).state = .queued → (s.lines.at p).timer = some ms →
    s.waitQueue = [p] → s.bus ≠ .claimed p → EventsFinished s → Room 1 s →
    Answers (.waitLimitExpiry p) s fun t =>
      t.lines.at p = { Line.unequipped with state := .parked, faultPresent := (s.lines.at p).faultPresent }
      ∧ t.waitQueue = [] ∧ t.buffers.at p = DigitBuffer.empty ∧ Made s t [.callEvent p .parked (.because .congested)]
      ∧ OnlyAt p s.lines t.lines ∧ OnlyAt p s.scan t.scan ∧ OnlyAt p s.buffers t.buffers
      ∧ t.apartFromPort = ({ s with
          lines := t.lines, scan := t.scan, buffers := t.buffers, waitQueue := [] } : State).apartFromPort)
  ∧ (∀ (p : Port) (ms : Nat) (i : SlotId) (c : Call) (b : Bool) (d : Direction) (s : State), Running s →
    (s.lines.at p).state.called = true → (s.lines.at p).timer = some ms → (s.lines.at p).call = some (i, d) →
    s.slots.at i = .reserved c b → c.line = p → s.mark ≠ some i → OneEntryEach s → s.waitQueue = [] → s.ringQueue.erase p = [] →
    groupState s p ≠ .standbyPending → s.mode ≠ .configPending → EventsFinished s →
    Room 2 s →
    Answers (.ringLimitExpiry p) s fun t =>
      t.lines.at p = lineEnded s p .idle ∧ t.bus = busEnded s p
      ∧ Superseded i p c.tag b (.clear .noAnswer) s t
      ∧ isPlaced t p = false ∧ t.ringQueue = [] ∧ t.ringDrive.at p = false
      ∧ Made s t (endReports s p .idle .noAnswer)
      ∧ OnlyAt p s.lines t.lines ∧ OnlyAt p s.scan t.scan ∧ OnlyAt p s.buffers t.buffers ∧ OnlyAt i s.slots t.slots
      ∧ OnlyAt i s.sig t.sig ∧ OnlyAt p s.ringDrive t.ringDrive
      ∧ t.apartFromPort = ({ s with
          lines := t.lines, scan := t.scan, buffers := t.buffers, slots := t.slots, sig := t.sig, txq := t.txq, free := t.free
          cells := t.cells, ringQueue := t.ringQueue, ringDrive := t.ringDrive, bus := t.bus } : State).apartFromPort)

/-- The next phase begins: exactly the lines in its cells have their ring drive on, each of them that was OFFERED is RINGING with its
slot and its timer kept, and no other line changes. -/
def Obligations.PhaseBegins : Prop :=
  ∀ s : State, Running s → Answers .phaseBegin s fun t =>
    t.phase = nextPhase s.phase ∧ t.phase.val = (s.phase.val + 1) % 3 ∧ t.cells = s.cells
      ∧ (∀ p, t.ringDrive.at p = true ↔ ∃ e ∈ s.cells.at (cellOf t.phase (busOf p)), e.port = p)
      ∧ (∀ p, (∃ k ∈ [cellOf t.phase 0, cellOf t.phase 1], ∃ e ∈ s.cells.at k, e.port = p) → (s.lines.at p).state = .offered →
          (t.lines.at p).state = .ringing ∧ (t.lines.at p).call = (s.lines.at p).call ∧ (t.lines.at p).timer = (s.lines.at p).timer)
      ∧ (∀ p, ((∀ k ∈ [cellOf t.phase 0, cellOf t.phase 1], ∀ e ∈ s.cells.at k, e.port ≠ p) ∨ (s.lines.at p).state ≠ .offered) →
          t.lines.at p = s.lines.at p)
      ∧ t.apartFromPort = ({ s with
          phase := t.phase, phaseMs := 0, ringDrive := t.ringDrive, lines := t.lines, scan := t.scan } : State).apartFromPort

/-! ## The trunk link -/

/-- In DOWN a good frame that does not bring the run to 512 raises the recovery run count by 1, and an error frame sets it to 0; the
score and the link stand. The 512th good frame takes the link to RESYNC with RELEASE_MODE AUTO or the release flag set: the score is 0,
the flag is clear, the holdover timer is stopped and a RESTART is queued. Otherwise the link is RECOVERED with the score held at 255. In
RECOVERED a good frame leaves the link and the run, and an error frame returns the link to DOWN with the run at 0, reported as
LINK_EVENT(DOWN, 255), and nothing else. -/
def Obligations.RecoveryRunCountsAndEnds : Prop :=
  (∀ (octets : List Byte) (s : State), Running s → s.link = .down → (goodFrame s octets = true → s.run + 1 < 512) →
    EventsFinished s →
    Answers (.trunkFrame octets) s fun t =>
      t.run = (if goodFrame s octets then s.run + 1 else 0) ∧ t.assembler = .hunting
      ∧ t = { serve s with
          run := t.run, assembler := .hunting, rxBearer := t.rxBearer, align := t.align, badWords := t.badWords
          foundWords := t.foundWords, huntAt := t.huntAt, lastOctet := t.lastOctet, frameEnd := t.frameEnd
          frameHead := t.frameHead })
  ∧ (∀ (octets : List Byte) (s : State), Running s → s.link = .down → s.score = 255 → s.run = 511 → goodFrame s octets = true →
    s.txq = [] → s.mode ≠ .configPending → Room 1 s →
    Answers (.trunkFrame octets) s fun t =>
      if s.params.cabinetRelease = false ∨ s.releaseFlag = true then
        t.link = .resync ∧ t.score = 0 ∧ t.run = 0 ∧ t.releaseFlag = false ∧ t.holdover = none
          ∧ t.txq = [{ msg := .ofNone .restart, pinned := false }] ∧ t.slots = s.slots ∧ t.lines = s.lines
          ∧ Made s t [.linkEvent .resync 0]
      else t.link = .recovered ∧ t.score = 255 ∧ t.run = 512 ∧ t.txq = [] ∧ t.slots = s.slots ∧ t.lines = s.lines
          ∧ Made s t [.linkEvent .recovered 255])
  ∧ (∀ (octets : List Byte) (s : State), Running s → s.link = .recovered → s.score = 255 → EventsFinished s → Room 1 s →
    Answers (.trunkFrame octets) s fun t =>
      (if goodFrame s octets then t.link = .recovered ∧ t.run = s.run ∧ Made s t []
        else t.link = .down ∧ t.run = 0 ∧ Made s t [.linkEvent .down 255])
      ∧ t.apartFromPort = ({ s with
          link := t.link, run := t.run, assembler := .hunting, rxBearer := t.rxBearer, align := t.align
          badWords := t.badWords, foundWords := t.foundWords, huntAt := t.huntAt, lastOctet := t.lastOctet
          frameEnd := t.frameEnd, frameHead := t.frameHead } : State).apartFromPort)

/-- In service a frame that does not bring the score to 255 lowers it by 1 if it is good, to 0 at least, and raises it by 4 if it is an
error; the link takes the grade of the score, and only calls, the link and its alarm can change with it. Every frame gives each slot its
bearer octet if it is good and silence if it is an error (log 25); a BUSY slot's line hears that octet and speaks in the slot, and a
HELD slot's line and a line without a slot hear silence. The octet or the two that complete a head message in a good frame make that
message taken, behind the judgement of the frame, as its own row. A change of grade is reported as LINK_EVENT, and with IMPAIRED the
condition of LINK_IMPAIRED begins and ends behind it; in RESYNC the score counts without a grade or a report. A frame is good exactly in
ALIGNED and where its octets are laid out as Table 12.1 gives. Alignment is lost at the third consecutive bad word, and regained where a
word found in HUNTING is found again one frame later; where in a period the frames then begin is log 10. -/
def Obligations.ScoreCountsInService : Prop :=
  (∀ (octets : List Byte) (s : State), Running s → s.link.inService = true → frameMessage octets s = none →
    (if goodFrame s octets then s.score - 1 else s.score + 4) < 255 →
    Answers (.trunkFrame octets) s fun t =>
      t.score = (if goodFrame s octets then s.score - 1 else s.score + 4)
      ∧ t.link = (if t.score < 64 then .up else if t.score < 160 then .warned else .impaired)
      ∧ t.apartFromCalls = ({ s with
          score := t.score, link := t.link, alarms := t.alarms, assembler := t.assembler, rxBearer := t.rxBearer, align := t.align
          badWords := t.badWords, foundWords := t.foundWords, huntAt := t.huntAt, lastOctet := t.lastOctet
          frameEnd := t.frameEnd, frameHead := t.frameHead } : State).apartFromCalls)
  ∧ (∀ (octets : List Byte) (s : State), Running s →
    Answers (.trunkFrame octets) s fun t =>
      ∀ i, t.rxBearer.at i = if goodFrame s octets then ((frameOf s octets)[2 + i.val]?).getD 0x55 else 0x55)
  ∧ (∀ (p : Port) (s : State), LinesNameSlots s →
    match (s.lines.at p).call with
    | none => codecOut s p = 0x55
    | some (i, _) => match s.slots.at i with
      | .busy _ _ => codecOut s p = s.rxBearer.at i ∧ bearerOut s i = s.codecIn.at p
      | _ => codecOut s p = 0x55 ∧ bearerOut s i = 0x55)
  ∧ (∀ (octets : List Byte) (i : Instr) (s : State), Running s → frameMessage octets s = some i →
    exec (.trunkFrame octets) s = exec i (act (judgeFrame octets) s))
  ∧ (∀ (octets held message : List Byte) (i : Instr) (o1 o2 : Byte) (s : State), Running s → s.link.messages = true →
    goodFrame s octets = true → (frameOf s octets)[22]? = some o1 → (frameOf s octets)[23]? = some o2 →
    s.assembler = .assembling held → held ≠ [] → WellFormed i = true → encodeHeadMessage i = some message →
    (message = held ++ [o1] ∨ message = held ++ [o1, o2]) →
    frameMessage octets s = some i)
  ∧ (∀ (octets : List Byte) (s : State), goodFrame s octets = true ↔
    s.align = .aligned ∧ ∃ bearer o1 o2, bearer.length = 20 ∧ frameOf s octets = trunkFrameOf bearer o1 o2)
  ∧ (∀ (octets : List Byte) (s : State), Running s → s.align = .aligned → s.frameHead.length + s.frameEnd = 25 →
    Answers (.trunkFrame octets) s fun t =>
      t.frameHead = octets.drop s.frameEnd ∧ t.frameEnd = s.frameEnd
      ∧ (if (frameOf s octets).take 2 = [0x4D, 0xB2] then t.align = .aligned ∧ t.badWords = 0
        else if s.badWords + 1 < 3 then t.align = .aligned ∧ t.badWords = s.badWords + 1
        else t.align = .hunting ∧ t.badWords = 0 ∧ t.foundWords = 0))
  ∧ (∀ (octets : List Byte) (s : State), Running s → s.align = .hunting → s.foundWords = 0 →
    Answers (.trunkFrame octets) s fun t =>
      t.align = .hunting
      ∧ (if ∀ k ∈ List.range 25, wordAt (octetStream s octets) k = false then t.foundWords = 0
        else t.foundWords = 1 ∧ t.huntAt < 25 ∧ wordAt (octetStream s octets) t.huntAt = true
          ∧ ∀ k ∈ List.range t.huntAt, wordAt (octetStream s octets) k = false))
  ∧ (∀ (octets : List Byte) (s : State), Running s → s.align = .hunting → s.foundWords = 1 →
    Answers (.trunkFrame octets) s fun t =>
      if wordAt (octetStream s octets) s.huntAt = true then
        t.align = .aligned ∧ t.badWords = 0 ∧ t.foundWords = 0
          ∧ (s.huntAt < 25 → t.frameEnd = if s.huntAt < 2 then s.huntAt + 24 else s.huntAt - 1)
      else t.align = .hunting ∧ (t.foundWords = 1 → s.huntAt < t.huntAt))
  ∧ (∀ (octets : List Byte) (s : State), Running s → s.link.inService = true → frameMessage octets s = none →
    (if goodFrame s octets then s.score - 1 else s.score + 4) < 255 → s.waitQueue = [] → EventsFinished s → Room 2 s →
    Answers (.trunkFrame octets) s fun t =>
      Made s t (if t.link = s.link then []
        else .linkEvent t.link t.score :: (if t.link = .impaired then begun s .linkImpaired
          else if s.link = .impaired then ended s .linkImpaired else []))
      ∧ (if t.link = s.link ∨ (t.link ≠ .impaired ∧ s.link ≠ .impaired) then t.alarms = s.alarms
        else AlarmMarked .linkImpaired (decide (t.link = .impaired)) s t)
      ∧ t.apartFromPort = ({ s with
          score := t.score, link := t.link, alarms := t.alarms, assembler := t.assembler, rxBearer := t.rxBearer, align := t.align
          badWords := t.badWords, foundWords := t.foundWords, huntAt := t.huntAt, lastOctet := t.lastOctet
          frameEnd := t.frameEnd, frameHead := t.frameHead } : State).apartFromPort)
  ∧ (∀ (octets : List Byte) (s : State), Running s → s.link = .resync → frameMessage octets s = none →
    (if goodFrame s octets then s.score - 1 else s.score + 4) < 255 → EventsFinished s →
    Answers (.trunkFrame octets) s fun t =>
      t = { serve s with
          score := if goodFrame s octets then s.score - 1 else s.score + 4
          assembler := t.assembler, rxBearer := t.rxBearer, align := t.align
          badWords := t.badWords, foundWords := t.foundWords, huntAt := t.huntAt, lastOctet := t.lastOctet
          frameEnd := t.frameEnd, frameHead := t.frameHead })

/-- The frame that brings the score to 255 takes the link to DOWN: nothing is queued, in flight or timed, flow is GO, every call that
was not connected is gone and every connected one is HELD where HOLDOVER is not 0, and the ringing is empty. Each line in a call takes
the state of Table 7.4, or TEST where the test bus is CLAIMED for it and its call ends, and every other line stays. The reports are the
LINK_EVENT, the end of LINK_IMPAIRED, the beginning of TRUNK_DOWN, and the lines' in the order of port number (log 23). -/
def Obligations.ScoreOf255EntersDown : Prop :=
  (∀ (octets : List Byte) (s : State), Running s → (s.link.inService = true ∨ s.link = .resync) → goodFrame s octets = false →
    251 ≤ s.score →
    Answers (.trunkFrame octets) s fun t =>
      t.link = .down ∧ t.score = 255 ∧ t.run = 0 ∧ t.txq = [] ∧ t.inFlight = none ∧ t.flow = .go ∧ t.assembler = .hunting
      ∧ t.restartTimer = none ∧ (∀ i, (t.sig.at i).timer = none ∧ (t.sig.at i).owed = none) ∧ t.mark = none
      ∧ (∀ k, t.cells.at k = []) ∧ t.ringQueue = [] ∧ (∀ p, t.ringDrive.at p = false)
      ∧ (∀ i, t.slots.at i = match s.slots.at i with
          | .busy c b => if s.params.holdover = 0 then (if b then .blocked .cabinet else .free) else .held c b
          | .reserved _ b => if b then .blocked .cabinet else .free
          | .clearing _ _ _ b => if b then .blocked .cabinet else .free
          | sl => sl)
      ∧ t.holdover = (if anyHeld t then some (1000 * s.params.holdover) else none))
  ∧ (∀ (octets : List Byte) (s : State), Running s → (s.link.inService = true ∨ s.link = .resync) → goodFrame s octets = false →
    251 ≤ s.score → (∀ g, (s.groups.at g).state ≠ .standbyPending) → s.mode ≠ .configPending →
    Room (4 + (allPorts.filter fun p => (stateAtDown s p).isSome).length) s →
    Answers (.trunkFrame octets) s fun t =>
      (∀ p, t.lines.at p = lineAtDown s p)
      ∧ (∀ p, (stateAtDown s p).isSome = true → t.buffers.at p = DigitBuffer.empty)
      ∧ t.waitQueue = s.waitQueue ∧ t.bus = busAtDown s
      ∧ Made s t (.linkEvent .down 255 :: (ended s .linkImpaired ++ begun s .trunkDown ++ allPorts.flatMap (reportsAtDown s)))
      ∧ (∀ e ∈ alarmEntry t .linkImpaired, e.present = false) ∧ (alarmEntry t .trunkDown).map (·.present) = some true)

/-- The holdover timer expiring in DOWN or RECOVERED releases every HELD slot by local release, stops, and takes every line out of
HOLDOVER to PARKED, or to TEST where the test bus is CLAIMED for it, reported in the order of port number; nothing is sent and the link
stands. -/
def Obligations.HoldoverExpiryReleasesHeldCalls : Prop :=
  ∀ (ms : Nat) (s : State), Running s → (s.link = .down ∨ s.link = .recovered) → s.holdover = some ms → s.txq = [] →
    s.mode ≠ .configPending → Room (1 + (allPorts.filter fun p => decide ((s.lines.at p).state = .holdover)).length) s →
    Answers .holdoverExpiry s fun t =>
      t.holdover = none ∧ t.link = s.link ∧ t.txq = []
      ∧ (∀ i, t.slots.at i = match s.slots.at i with
          | .held _ b => if b then .blocked .cabinet else .free
          | sl => sl)
      ∧ (∀ p, t.lines.at p = if (s.lines.at p).state = .holdover then lineEnded s p .parked else s.lines.at p)
      ∧ t.free = s.free ++ allSlots.filter (fun i => (s.slots.at i).isHeld && !(s.slots.at i).blockPending)
      ∧ Made s t ((allPorts.filter fun p => decide ((s.lines.at p).state = .holdover)).flatMap fun p =>
          endReports s p .parked .outOfService)

/-- The RESTART reply timer expiring as first in RESYNC makes RESTART owed again, marked as the repeat (log 13), and made where a place
is free; expiring as repeat it releases every HELD slot and ends RESYNC in the grade of the score. The lines of the HELD slots go to
PARKED, or to TEST where the test bus is CLAIMED for one, and every other line stays; they are reported with reason NO_REPLY in the
order of the slots (log 24), ahead of the LINK_EVENT, the end of TRUNK_DOWN and, in IMPAIRED, the beginning of LINK_IMPAIRED. -/
def Obligations.RestartReplyExpires : Prop :=
  (∀ (ms : Nat) (s : State), Running s → s.link = .resync → s.restartTimer = some (.first, ms) → freePlace s = true →
    EventsFinished s →
    exec .restartReplyExpiry s = .next { serve s with
      restartTimer := none, restartOwed := false, restartRepeat := true
      txq := s.txq ++ [{ msg := .ofNone .restart, pinned := false }] })
  ∧ (∀ (ms : Nat) (s : State), Running s → s.link = .resync → s.restartTimer = some (.again, ms) → s.waitQueue = [] →
    LinesNameSlots s → s.mode ≠ .configPending → Room (4 + (linesHeld s).length) s →
    Answers .restartReplyExpiry s fun t =>
      t.restartTimer = none ∧ t.restartOwed = false ∧ t.score = s.score
      ∧ t.link = (if s.score < 64 then .up else if s.score < 160 then .warned else .impaired)
      ∧ (∀ i, t.slots.at i = match s.slots.at i with
          | .held _ b => if b then .blocked .cabinet else .free
          | sl => sl)
      ∧ (∀ p, t.lines.at p = if (s.lines.at p).state = .holdover then lineEnded s p .parked else s.lines.at p)
      ∧ Made s t (((linesHeld s).flatMap fun p => endReports s p .parked .noReply)
          ++ .linkEvent t.link t.score :: (ended s .trunkDown ++ if t.link = .impaired then begun s .linkImpaired else []))
      ∧ (∀ e ∈ alarmEntry t .trunkDown, e.present = false)
      ∧ (t.link = .impaired → (alarmEntry t .linkImpaired).map (·.present) = some true))

/-! ## Trunk signalling -/

/-- A SEIZE reply timer expiring as first makes the SEIZE again, with the same tag, ahead of what it can overtake for a PRIORITY line
and at the tail otherwise; expiring as repeat it parks the line with reason NO_REPLY (a claimed line enters TEST), the slot given up
with a CLEAR owed. A CLEAR reply timer expiring as first makes the CLEAR again with its reason (log 12); expiring as repeat it blocks
the slot with reason NO_CLEAR_ACK and raises SLOT_SUSPECT. -/
def Obligations.SlotReplyTimersExpire : Prop :=
  (∀ (i : SlotId) (ms : Nat) (c : Call) (b : Bool) (s : State), Running s → s.slots.at i = .reserved c b →
    (s.sig.at i).timer = some ⟨.seize, .first, ms⟩ → EventsFinished s →
    exec (.seizeReplyExpiry i) s = .next { serve s with
      sig := s.sig.put i { s.sig.at i with timer := none }
      txq := queueWith (isPriority s c.line) { msg := .ofSlot i c.line c.tag .seize, pinned := false } s })
  ∧ (∀ (i : SlotId) (ms : Nat) (c : Call) (b : Bool) (s : State), Running s → s.slots.at i = .reserved c b →
    (s.sig.at i).timer = some ⟨.seize, .again, ms⟩ → (s.lines.at c.line).state = .seizing →
    s.mark ≠ some i → OneEntryEach s → s.waitQueue = [] → s.mode ≠ .configPending → EventsFinished s → Room 2 s →
    Answers (.seizeReplyExpiry i) s fun t =>
      t.lines.at c.line = lineEnded s c.line .parked ∧ t.bus = busEnded s c.line
      ∧ Superseded i c.line c.tag b (.clear .noReply) s t
      ∧ Made s t (endReports s c.line .parked .noReply)
      ∧ OnlyAt c.line s.lines t.lines ∧ OnlyAt i s.slots t.slots ∧ OnlyAt i s.sig t.sig
      ∧ t.apartFromPort = ({ s with
          lines := t.lines, scan := t.scan, buffers := t.buffers, slots := t.slots, sig := t.sig, txq := t.txq
          free := t.free, bus := t.bus } : State).apartFromPort)
  ∧ (∀ (i : SlotId) (ms : Nat) (p : Port) (tag : Nat) (r : Reason) (b : Bool) (s : State), Running s →
    s.slots.at i = .clearing p tag (.awaitAck r) b → (s.sig.at i).timer = some ⟨.clear, .first, ms⟩ →
    EventsFinished s →
    exec (.clearReplyExpiry i) s = .next { serve s with
      sig := s.sig.put i { s.sig.at i with timer := none }
      txq := s.txq ++ [{ msg := .ofSlot i p tag (.clear r), pinned := false }] })
  ∧ (∀ (i : SlotId) (ms : Nat) (p : Port) (tag : Nat) (r : Reason) (b : Bool) (s : State), Running s →
    s.slots.at i = .clearing p tag (.awaitAck r) b → (s.sig.at i).timer = some ⟨.clear, .again, ms⟩ →
    alarmEntry s (.slotSuspect i) = none → s.waitQueue = [] → EventsFinished s → s.mode ≠ .configPending →
    Room 1 s →
    Answers (.clearReplyExpiry i) s fun t =>
      t.slots = s.slots.put i (.blocked .noClearAck) ∧ t.sig = s.sig.put i Sig.cleared ∧ t.free = s.free
      ∧ t.alarms = s.alarms ++ [{ id := .slotSuspect i, present := true }]
      ∧ Made s t [.alarmEvent (.slotSuspect i) .raised]
      ∧ t.apartFromPort = ({ s with slots := t.slots, sig := t.sig, mark := t.mark, alarms := t.alarms } : State).apartFromPort)

/-- With flow GO, nothing in flight and messages sent, the first queued entry starts: its octets are fixed from the state as it stands,
and a DIGITS entry takes the waiting digits, up to four, and lends their places. -/
def Obligations.FirstEntryStarts : Prop :=
  (∀ (e : Entry) (rest : List Entry) (s : State), Running s → s.flow = .go → s.inFlight = none → s.link.messages = true →
    s.txq = e :: rest → e.slotMsg? ≠ some .digits →
    exec .entryStart s = .next { serve s with inFlight := some { octets := messageOctets s e.msg [], digits := [] } })
  ∧ (∀ (i : SlotId) (p : Port) (tag : Nat) (pinned : Bool) (rest : List Entry) (s : State), Running s → s.flow = .go →
    s.inFlight = none → s.link.messages = true → s.txq = { msg := .ofSlot i p tag .digits, pinned := pinned } :: rest →
    (s.buffers.at p).digits ≠ [] →
    exec .entryStart s = .next { serve s with
      inFlight := some {
        octets := trunkMessage 0x02 (byte tag :: ((s.buffers.at p).digits.take 4).map fun d => byte d.val)
        digits := (s.buffers.at p).digits.take 4 }
      buffers := s.buffers.put p { s.buffers.at p with
        digits := (s.buffers.at p).digits.drop 4, lent := min (s.buffers.at p).digits.length 4 } })

/-- The entry in flight completing leaves the queue. A SEIZE makes its tag known and starts the reply timer at 2 s, a CLEAR is known to
be sent and starts it, and the CLEAR_ACK of a slot that owes it ends the slot's clearing. An OFFER makes its tag known, a DIGITS gives
its lent places back, and a RESTART starts its reply timer, as repeat if it is the repeat (log 13), unless RESYNC is over. Behind the
completion the slot's next entry is made from what is owed: the clear item, else the first of ANSWER, FLASH and DIGITS; and a RESTART
that waits for one of the four places is made when an entry without a slot completes. -/
def Obligations.EntryCompletes : Prop :=
  (∀ (i : SlotId) (c : Call) (b : Bool) (tag : Nat) (p : Port) (pinned : Bool) (rest : List Entry) (f : InFlight) (s : State),
    Running s → s.inFlight = some f → s.txq = { msg := .ofSlot i p tag .seize, pinned := pinned } :: rest →
    s.slots.at i = .reserved c b → c.direction = .out → (s.sig.at i).owed = none → s.restartOwed = false →
    EventsFinished s →
    exec .entryComplete s = .next { serve s with
      txq := rest, inFlight := none
      sig := s.sig.put i { s.sig.at i with
        tagKnown := true
        timer := some { kind := .seize, run := if (s.sig.at i).tagKnown then .again else .first, left := 2000 } } })
  ∧ (∀ (i : SlotId) (former p : Port) (t tag : Nat) (r r' : Reason) (b : Bool) (pinned : Bool) (rest : List Entry) (f : InFlight)
      (s : State), Running s → s.inFlight = some f → s.txq = { msg := .ofSlot i p tag (.clear r'), pinned := pinned } :: rest →
    s.slots.at i = .clearing former t (.awaitAck r) b → (s.sig.at i).owed = none → s.restartOwed = false →
    EventsFinished s →
    exec .entryComplete s = .next { serve s with
      txq := rest, inFlight := none
      sig := s.sig.put i { s.sig.at i with
        clearSent := true
        timer := some { kind := .clear, run := if (s.sig.at i).clearSent then .again else .first, left := 2000 } } })
  ∧ (∀ (i : SlotId) (former p : Port) (t tag : Nat) (pinned : Bool) (rest : List Entry) (f : InFlight) (s : State), Running s →
    s.inFlight = some f → s.txq = { msg := .ofSlot i p tag .clearAck, pinned := pinned } :: rest →
    s.slots.at i = .clearing former t .oweAck false → s.restartOwed = false → s.waitQueue = [] →
    EventsFinished s → s.mode ≠ .configPending →
    exec .entryComplete s = .next { serve s with
      txq := rest, inFlight := none, sig := s.sig.put i Sig.cleared, slots := s.slots.put i .free, free := s.free ++ [i]
      mark := if s.mark = some i then none else s.mark })
  ∧ (∀ (i : SlotId) (p : Port) (tag : Nat) (ref : BitVec 16) (pinned : Bool) (rest : List Entry) (f : InFlight) (s : State),
    Running s → s.inFlight = some f → s.txq = { msg := .ofSlot i p tag (.offer ref), pinned := pinned } :: rest →
    (s.slots.at i).call?.isSome = true → joined s i = none → (s.sig.at i).owed = none → s.restartOwed = false → EventsFinished s →
    exec .entryComplete s = .next { serve s with
      txq := rest, inFlight := none, sig := s.sig.put i { s.sig.at i with tagKnown := true } })
  ∧ (∀ (i : SlotId) (c : Call) (b : Bool) (p : Port) (tag : Nat) (m : SlotMsg) (pinned : Bool) (rest : List Entry) (f : InFlight)
      (s : State), Running s → s.inFlight = some f → s.txq = { msg := .ofSlot i p tag m, pinned := pinned } :: rest →
    m ∈ [SlotMsg.answer, .flash, .digits] → s.slots.at i = .busy c b → c.line = p → (s.lines.at p).state.active = true →
    (∀ e ∈ rest, e.slot? ≠ some i) → (s.sig.at i).owed = none → s.restartOwed = false → EventsFinished s →
    exec .entryComplete s = .next { serve s with
      inFlight := none
      buffers := if m = .digits then s.buffers.put p { s.buffers.at p with lent := 0 } else s.buffers
      lines := s.lines.put p { s.lines.at p with
        answerOwed := false, flashOwed := (s.lines.at p).answerOwed && (s.lines.at p).flashOwed }
      txq := rest ++ (if (s.lines.at p).answerOwed then [{ msg := .ofSlot i p c.tag .answer, pinned := false }]
        else if (s.lines.at p).flashOwed then [{ msg := .ofSlot i p c.tag .flash, pinned := false }]
        else if (s.buffers.at p).digits = [] then []
        else [{ msg := .ofSlot i p c.tag .digits, pinned := false }]) })
  ∧ (∀ (i : SlotId) (former p : Port) (n tag : Nat) (m : SlotMsg) (o : ClearOwed) (b pinned : Bool) (rest : List Entry)
      (f : InFlight) (s : State), Running s → s.inFlight = some f →
    s.txq = { msg := .ofSlot i p tag m, pinned := pinned } :: rest → s.slots.at i = .clearing former n o.side b →
    (s.sig.at i).owed = some o → owedFits o m = true → (∀ e ∈ rest, e.slot? ≠ some i) → s.restartOwed = false → EventsFinished s →
    Answers .entryComplete s fun t =>
      t.txq = rest ++ [{ msg := .ofSlot i former n o.msg, pinned := false }] ∧ (t.sig.at i).owed = none
      ∧ (t.sig.at i).timer = (s.sig.at i).timer
      ∧ (t.sig.at i).tagKnown = (match m with | .seize => true | .offer _ => true | _ => (s.sig.at i).tagKnown)
      ∧ OnlyAt i s.sig t.sig
      ∧ t = { serve s with
          txq := t.txq, inFlight := none, sig := t.sig
          buffers := if m = .digits then s.buffers.put p { s.buffers.at p with lent := 0 } else s.buffers })
  ∧ (∀ (pinned : Bool) (rest : List Entry) (f : InFlight) (s : State), Running s → s.inFlight = some f →
    s.txq = { msg := .ofNone .restart, pinned := pinned } :: rest → s.restartOwed = false → EventsFinished s →
    exec .entryComplete s = .next { serve s with
      txq := rest, inFlight := none
      restartTimer := if s.link = .resync then some (if s.restartRepeat then .again else .first, 2000) else s.restartTimer })
  ∧ (∀ (e : Entry) (rest : List Entry) (f : InFlight) (s : State), Running s → s.inFlight = some f → s.txq = e :: rest →
    e.slot? = none → e.msg ≠ .ofNone .restart → s.link = .resync → s.restartOwed = true →
    (s.txq.filter fun x => decide (x.slot? = none)).length ≤ 4 → EventsFinished s →
    exec .entryComplete s = .next { serve s with
      txq := rest ++ [{ msg := .ofNone .restart, pinned := false }], inFlight := none, restartOwed := false })

/-- An ACCEPT for a RESERVED slot with direction OUT whose tag is known connects the call: the slot is BUSY and joined, its reply timer
stops, a repeat SEIZE leaves the queue, and the line is ACTIVE_OUT; digits that wait become owed and are made. -/
def Obligations.AcceptConnectsTheCall : Prop :=
  ∀ (tag : Byte) (i : SlotId) (c : Call) (b : Bool) (s : State), Running s → s.link.messages = true →
    slotOfTag s tag.toNat = some i → s.slots.at i = .reserved c b → c.direction = .out → (s.sig.at i).tagKnown = true →
    (s.sig.at i).owed = none → (s.lines.at c.line).state = .seizing → (s.lines.at c.line).flashOwed = false →
    EventsFinished s → Room 1 s →
    Answers (.accept tag) s fun t =>
      (t.lines.at c.line).state = .activeOut ∧ (t.lines.at c.line).call = some (i, .out) ∧ t.slots.at i = .busy c b
      ∧ joined t i = some c.line ∧ (t.sig.at i).timer = none
      ∧ t.txq = (s.txq.filter fun e => decide (e.slot? ≠ some i))
          ++ (if (s.buffers.at c.line).digits = [] then [] else [{ msg := .ofSlot i c.line c.tag .digits, pinned := false }])
      ∧ t.inFlight = (if flightSlot s = some i then none else s.inFlight)
      ∧ Made s t [.callEvent c.line .activeOut (.because .normal)]
      ∧ OnlyAt c.line s.lines t.lines ∧ OnlyAt i s.slots t.slots ∧ OnlyAt i s.sig t.sig
      ∧ t.apartFromPort = ({ s with
          lines := t.lines, scan := t.scan, slots := t.slots, sig := t.sig, txq := t.txq, inFlight := t.inFlight } : State).apartFromPort

/-- A REJECT for such a slot parks its line with the reason it carries (a claimed line enters TEST) and releases the slot locally, a
repeat SEIZE leaving the queue and nothing sent. A PROGRESS for a BUSY slot with direction OUT sets its answered field and nothing
else. -/
def Obligations.RejectAndProgress : Prop :=
  (∀ (tag : Byte) (r : Reason) (i : SlotId) (c : Call) (b : Bool) (s : State), Running s → s.link.messages = true →
    slotOfTag s tag.toNat = some i → s.slots.at i = .reserved c b → c.direction = .out → (s.sig.at i).tagKnown = true →
    (s.lines.at c.line).state = .seizing → s.waitQueue = [] →
    EventsFinished s → s.mode ≠ .configPending → Room 2 s →
    Answers (.reject tag r) s fun t =>
      t.lines.at c.line = lineEnded s c.line .parked ∧ t.bus = busEnded s c.line
      ∧ t.slots.at i = released b ∧ t.free = (if b then s.free else s.free ++ [i])
      ∧ t.txq = (s.txq.filter fun e => decide (e.slot? ≠ some i))
      ∧ t.inFlight = (if flightSlot s = some i then none else s.inFlight)
      ∧ Made s t (endReports s c.line .parked r)
      ∧ OnlyAt c.line s.lines t.lines ∧ OnlyAt i s.slots t.slots ∧ OnlyAt i s.sig t.sig
      ∧ t.apartFromPort = ({ s with
          lines := t.lines, scan := t.scan, buffers := t.buffers, slots := t.slots, sig := t.sig, free := t.free
          txq := t.txq, inFlight := t.inFlight, mark := t.mark, bus := t.bus } : State).apartFromPort)
  ∧ (∀ (tag : Byte) (i : SlotId) (c : Call) (b : Bool) (s : State), Running s → s.link.messages = true →
    slotOfTag s tag.toNat = some i → s.slots.at i = .busy c b → c.direction = .out →
    EventsFinished s →
    exec (.progress tag) s = .next { serve s with slots := s.slots.put i (.busy { c with answered := true } b) })

/-- A head CLEAR for a slot in a call whose tag is known ends the call with the reason it carries: the line is PARKED, or IDLE if it was
called, and the slot is given up with a CLEAR_ACK owed; with the test bus CLAIMED for it the line enters TEST instead. For a slot that
awaits the acknowledgement of its own CLEAR it is a clear collision: the slot owes a CLEAR_ACK instead, against the CLEAR where it
stands (Table 8.7). For a slot that owes one already it is discarded. A head CLEAR whose tag no slot holds, or that the head terminal
cannot know, is answered with a CLEAR_ACK that names no slot, where one of the four places is free. -/
def Obligations.HeadClearIsAnswered : Prop :=
  (∀ (tag : Byte) (r : Reason) (i : SlotId) (c : Call) (s : State), Running s → s.link.messages = true →
    slotOfTag s tag.toNat = some i → (s.slots.at i).call? = some c → (s.sig.at i).tagKnown = true →
    (s.lines.at c.line).state.holdsSlot = true → (s.lines.at c.line).state.called = false → s.waitQueue = [] →
    EventsFinished s → Room 2 s →
    Answers (.headClear tag r) s fun t =>
      t.lines.at c.line = lineEnded s c.line .parked ∧ t.bus = busEnded s c.line
      ∧ Superseded i c.line c.tag (s.slots.at i).blockPending .clearAck s t ∧ joined t i = none
      ∧ Made s t (endReports s c.line .parked r)
      ∧ OnlyAt c.line s.lines t.lines ∧ OnlyAt i s.slots t.slots ∧ OnlyAt i s.sig t.sig
      ∧ t.apartFromPort = ({ s with
          lines := t.lines, scan := t.scan, buffers := t.buffers, slots := t.slots, sig := t.sig, txq := t.txq
          holdover := if anyHeld t then s.holdover else none, bus := t.bus } : State).apartFromPort)
  ∧ (∀ (tag : Byte) (r : Reason) (i : SlotId) (c : Call) (b : Bool) (s : State), Running s → s.link.messages = true →
    slotOfTag s tag.toNat = some i → s.slots.at i = .reserved c b → (s.sig.at i).tagKnown = true →
    (s.lines.at c.line).state.called = true → s.waitQueue = [] → s.ringQueue.erase c.line = [] →
    groupState s c.line ≠ .standbyPending → EventsFinished s → Room 2 s →
    Answers (.headClear tag r) s fun t =>
      t.lines.at c.line = lineEnded s c.line .idle ∧ t.bus = busEnded s c.line
      ∧ Superseded i c.line c.tag b .clearAck s t
      ∧ isPlaced t c.line = false ∧ t.ringQueue = [] ∧ t.ringDrive.at c.line = false
      ∧ Made s t (endReports s c.line .idle r)
      ∧ OnlyAt c.line s.lines t.lines ∧ OnlyAt i s.slots t.slots ∧ OnlyAt i s.sig t.sig ∧ OnlyAt c.line s.ringDrive t.ringDrive
      ∧ t.apartFromPort = ({ s with
          lines := t.lines, scan := t.scan, buffers := t.buffers, slots := t.slots, sig := t.sig, txq := t.txq, cells := t.cells
          ringQueue := t.ringQueue, ringDrive := t.ringDrive, bus := t.bus } : State).apartFromPort)
  ∧ (∀ (tag : Byte) (r q : Reason) (i : SlotId) (p : Port) (n : Nat) (b : Bool) (s : State), Running s → s.link.messages = true →
    slotOfTag s tag.toNat = some i → s.slots.at i = .clearing p n (.awaitAck q) b → (s.sig.at i).tagKnown = true →
    EventsFinished s →
    exec (.headClear tag r) s = .next { serve s with
      slots := s.slots.put i (.clearing p n .oweAck b)
      sig := s.sig.put i { s.sig.at i with
        timer := none
        owed := if (queuedEntry s i).isSome then (s.sig.at i).owed
          else if flightSlot s = some i then some .clearAck else (s.sig.at i).owed }
      txq := if (queuedEntry s i).isSome then replaced i .clearAck s.txq
        else if flightSlot s = some i then s.txq
        else s.txq ++ [{ msg := .ofSlot i p n .clearAck, pinned := false }] })
  ∧ (∀ (tag : Byte) (r : Reason) (i : SlotId) (p : Port) (n : Nat) (b : Bool) (s : State), Running s → s.link.messages = true →
    slotOfTag s tag.toNat = some i → s.slots.at i = .clearing p n .oweAck b → EventsFinished s →
    exec (.headClear tag r) s = .next (serve s))
  ∧ (∀ (tag : Byte) (r : Reason) (s : State), Running s → s.link.messages = true →
    (∀ i ∈ slotOfTag s tag.toNat, (s.sig.at i).tagKnown = false ∧ (s.slots.at i).clearSide? ≠ some .oweAck) →
    EventsFinished s →
    exec (.headClear tag r) s = .next
      (if (s.txq.filter fun e => decide (e.slot? = none)).length < 4
       then { serve s with txq := s.txq ++ [{ msg := .ofNone (.clearAck tag), pinned := false }] } else serve s))

/-- A CLEAR_ACK taken for a slot in CLEARING that awaits it, its CLEAR sent, ends the clear exchange: the timer stops, a repeat CLEAR
goes, and the slot leaves CLEARING, for FREE at the list's tail or, with block pending, for BLOCKED. One for a slot whose CLEAR has not
completed is discarded. -/
def Obligations.ClearAckEndsTheExchange : Prop :=
  (∀ (tag : Byte) (i : SlotId) (p : Port) (t : Nat) (r : Reason) (b : Bool) (s : State), Running s → s.link.messages = true →
    slotOfTag s tag.toNat = some i → s.slots.at i = .clearing p t (.awaitAck r) b → (s.sig.at i).clearSent = true →
    s.waitQueue = [] → EventsFinished s → s.mode ≠ .configPending →
    exec (.headClearAck tag) s = .next { serve s with
      sig := s.sig.put i Sig.cleared
      txq := s.txq.filter (fun e => decide (e.slot? ≠ some i))
      inFlight := if flightSlot s = some i then none else s.inFlight
      slots := s.slots.put i (if b then .blocked .cabinet else .free)
      free := if b then s.free else s.free ++ [i]
      mark := if s.mark = some i then none else s.mark })
  ∧ (∀ (tag : Byte) (i : SlotId) (p : Port) (t : Nat) (r : Reason) (b : Bool) (s : State), Running s → s.link.messages = true →
    slotOfTag s tag.toNat = some i → s.slots.at i = .clearing p t (.awaitAck r) b → (s.sig.at i).clearSent = false →
    EventsFinished s →
    exec (.headClearAck tag) s = .next (serve s))

/-- An INCOMING that passes every check of Table 5.6 reserves the slot at the head of the free slot list with the first free tag from
the next tag on, makes the line OFFERED with RING_LIMIT running, and makes its OFFER, ahead of what it can overtake for a PRIORITY line
and at the tail otherwise. A line of a group sampled at the normal rate is handed to the Ring Scheduler. A STANDBY group enters WAKING
with cause INCOMING, reported first, whatever its wake flag, and its line is not handed on. -/
def Obligations.IncomingAdmitsAnIdleLine : Prop :=
  (∀ (ref number : BitVec 16) (p : Port) (i : SlotId) (rest : List SlotId) (s : State), Running s →
    lookup s number.toNat = some p → s.mode = .normal → s.link.inService = true → (s.lines.at p).state = .idle →
    (s.lines.at p).answerOwed = false → s.bus ≠ .claimed p →
    (isOrdinary s p = true → s.link.ordinary = true ∧ activeCount s < s.posture.callLimit) → s.free = i :: rest →
    s.slots.at i = .free → (∃ tag, tagHeld s tag = false ∧ 1 ≤ tag ∧ tag ≤ 255) → s.nextOrder < 65535 → hookSampled s p = true →
    s.waitQueue = [] → s.ringQueue = [] → s.cells.at (cellOf (nextPhase s.phase) (busOf p)) = [] → s.nextPlacement < 65535 →
    EventsFinished s → Room 1 s →
    Answers (.incoming ref number) s fun t =>
      t.lines.at p = { Line.unequipped with
          state := .offered, call := some (i, .inward), timer := some (1000 * s.params.ringLimit)
          faultPresent := (s.lines.at p).faultPresent }
      ∧ (∃ tag, FirstFreeTag s tag ∧ 1 ≤ tag ∧ tag ≤ 255 ∧ t.nextTag = tag % 255 + 1
          ∧ t.slots.at i = .reserved ⟨p, tag, .inward, false, s.nextOrder⟩ false
          ∧ t.txq = queueWith (isPriority s p) { msg := .ofSlot i p tag (.offer ref), pinned := false } s)
      ∧ t.free = s.free.erase i ∧ t.nextOrder = s.nextOrder + 1 ∧ t.sig.at i = Sig.cleared
      ∧ t.cells.at (cellOf (nextPhase s.phase) (busOf p)) = [⟨p, s.nextPlacement⟩]
      ∧ Made s t [.callEvent p .offered (.because .normal)]
      ∧ OnlyAt p s.lines t.lines ∧ OnlyAt i s.slots t.slots ∧ OnlyAt i s.sig t.sig
      ∧ OnlyAt (cellOf (nextPhase s.phase) (busOf p)) s.cells t.cells
      ∧ t.apartFromPort = ({ s with
          lines := t.lines, scan := t.scan, slots := t.slots, sig := t.sig, free := t.free, txq := t.txq, nextTag := t.nextTag
          nextOrder := t.nextOrder, cells := t.cells, nextPlacement := t.nextPlacement } : State).apartFromPort)
  ∧ (∀ (ref number : BitVec 16) (p : Port) (i : SlotId) (rest : List SlotId) (s : State), Running s →
    lookup s number.toNat = some p → s.mode = .normal → s.link.inService = true → (s.lines.at p).state = .idle →
    (s.lines.at p).answerOwed = false → s.bus ≠ .claimed p →
    (isOrdinary s p = true → s.link.ordinary = true ∧ activeCount s < s.posture.callLimit) → s.free = i :: rest →
    s.slots.at i = .free → (∃ tag, tagHeld s tag = false ∧ 1 ≤ tag ∧ tag ≤ 255) → s.nextOrder < 65535 →
    (groupState s p = .standby ∨ groupState s p = .waking) → s.waitQueue = [] → EventsFinished s → Room 2 s →
    Answers (.incoming ref number) s fun t =>
      t.lines.at p = { Line.unequipped with
          state := .offered, call := some (i, .inward), timer := some (1000 * s.params.ringLimit)
          faultPresent := (s.lines.at p).faultPresent }
      ∧ (∃ tag, FirstFreeTag s tag ∧ 1 ≤ tag ∧ tag ≤ 255 ∧ t.nextTag = tag % 255 + 1
          ∧ t.slots.at i = .reserved ⟨p, tag, .inward, false, s.nextOrder⟩ false
          ∧ t.txq = queueWith (isPriority s p) { msg := .ofSlot i p tag (.offer ref), pinned := false } s)
      ∧ (if groupState s p = .standby then
          t.groups.at (groupOf p) = { state := .waking, wake := (s.groups.at (groupOf p)).wake, settle := some 300, slow := none }
            ∧ (∀ q ∈ portsOf (groupOf p),
                (t.scan.at q).openRun = 0 ∧ (t.scan.at q).closedRun = 0 ∧ (t.scan.at q).faultRun = 0)
            ∧ (∀ q, q ∉ portsOf (groupOf p) → t.scan.at q = s.scan.at q)
            ∧ Made s t [.groupEvent (groupOf p) .waking .incoming, .callEvent p .offered (.because .normal)]
        else t.groups = s.groups ∧ OnlyAt p s.scan t.scan ∧ Made s t [.callEvent p .offered (.because .normal)])
      ∧ t.cells = s.cells ∧ t.ringQueue = s.ringQueue ∧ t.ringDrive = s.ringDrive
      ∧ OnlyAt p s.lines t.lines ∧ OnlyAt i s.slots t.slots ∧ OnlyAt i s.sig t.sig ∧ OnlyAt (groupOf p) s.groups t.groups
      ∧ t.apartFromPort = ({ s with
          lines := t.lines, scan := t.scan, slots := t.slots, sig := t.sig, free := t.free, txq := t.txq, nextTag := t.nextTag
          nextOrder := t.nextOrder, groups := t.groups } : State).apartFromPort)

/-- An INCOMING refused changes no line, no slot and no queue but the transmit queue, which takes a REFUSE with its reference where one
of the four places is free: UNKNOWN_LINE for a number that no port holds, else by the first check of Table 5.6 that applies. That the
check of the mode stands before that of the line, so that a line PARKED in CONFIG_PENDING or CONFIG is refused with OUT_OF_SERVICE where
R66 and R76 say BUSY, is the model's choice between the spec's rules (log 32, DEDUCED). -/
def Obligations.IncomingIsRefused : Prop :=
  ∀ (ref number : BitVec 16) (r : Reason) (s : State), Running s → s.link.messages = true →
    EventsFinished s →
    (match lookup s number.toNat with
      | none => some Reason.unknownLine
      | some p =>
        if s.mode ≠ .normal then some .outOfService
        else if s.link = .resync then some .outOfService
        else if (s.lines.at p).state = .test ∨ (s.lines.at p).state = .fault ∨ s.bus = .claimed p then some .outOfService
        else if (s.lines.at p).state ≠ .idle then some .busy
        else if isOrdinary s p = true ∧ ((s.link ≠ .up ∧ s.link ≠ .warned) ∨ s.posture.callLimit ≤ activeCount s) then some .congested
        else if s.free = [] then some .congested
        else none) = some r →
    exec (.incoming ref number) s = .next
      (if (s.txq.filter fun e => decide (e.slot? = none)).length < 4
       then { serve s with txq := s.txq ++ [{ msg := .ofNone (.refuse ref r), pinned := false }] } else serve s)

/-- A RESTART_ACK in RESYNC settles every HELD slot, BUSY where its tag is listed and released where it is not, ends the RESTART
exchange, and takes the link to the grade of its score. Slot by slot in the order of their numbers, a kept call's line returns to
ACTIVE_OUT or ACTIVE_IN by the direction, and another's goes to PARKED with reason OUT_OF_SERVICE, or to TEST where the test bus is
CLAIMED for it; the LINK_EVENT, the end of TRUNK_DOWN and, in IMPAIRED, the beginning of LINK_IMPAIRED are reported behind them. In any
other state it is discarded. -/
def Obligations.RestartAckSettlesHeldCalls : Prop :=
  (∀ (tags : List Byte) (s : State), Running s → s.link = .resync → s.waitQueue = [] →
    LinesNameSlots s → s.mode ≠ .configPending → Room (4 + (linesHeld s).length) s →
    Answers (.restartAck tags) s fun t =>
      t.link = (if s.score < 64 then .up else if s.score < 160 then .warned else .impaired)
      ∧ t.score = s.score ∧ t.restartTimer = none ∧ t.restartOwed = false
      ∧ (∀ e ∈ t.txq.drop (flightCount t), e.msg ≠ .ofNone .restart)
      ∧ (∀ i, t.slots.at i = match s.slots.at i with
          | .held c b => if tags.any (fun x => decide (x.toNat = c.tag)) then .busy c b else if b then .blocked .cabinet else .free
          | sl => sl)
      ∧ (∀ i, ∀ c ∈ (s.slots.at i).call?, (s.slots.at i).isHeld = true →
          if tags.any (fun x => decide (x.toNat = c.tag)) then
            (t.lines.at c.line).state = (if c.direction = .out then .activeOut else .activeIn)
              ∧ (t.lines.at c.line).call = some (i, c.direction) ∧ (t.lines.at c.line).timer = none
          else t.lines.at c.line = lineEnded s c.line .parked)
      ∧ (∀ p, (s.lines.at p).state ≠ .holdover → t.lines.at p = s.lines.at p)
      ∧ Made s t (((allSlots.filter fun i => (s.slots.at i).isHeld).flatMap fun i =>
            match (s.slots.at i).call? with
            | some c =>
              if tags.any (fun x => decide (x.toNat = c.tag)) then
                [.callEvent c.line (if c.direction = .out then .activeOut else .activeIn) (.because .normal)]
              else endReports s c.line .parked .outOfService
            | none => [])
          ++ .linkEvent t.link t.score :: (ended s .trunkDown ++ if t.link = .impaired then begun s .linkImpaired else []))
      ∧ (∀ e ∈ alarmEntry t .trunkDown, e.present = false)
      ∧ (t.link = .impaired → (alarmEntry t .linkImpaired).map (·.present) = some true))
  ∧ (∀ (tags : List Byte) (s : State), Running s → s.link ≠ .resync → EventsFinished s → exec (.restartAck tags) s = .next (serve s))

/-- FLOW acts on the flow state: STOP_AFTER and GO set it, and STOP_NOW with nothing in flight does no more; STOP_NOW that finds the
flow STOPPED changes nothing (with an entry still in flight this is the model's choice, log 34). STOP_NOW abandons the entry in flight:
it stays first, and the digits of a DIGITS return to the head of the line's buffer with none lent. An entry whose slot owes a clear item
becomes that item, none then owed; a SEIZE whose tag the head terminal does not know leaves the queue and its slot is released locally.
A malformed head message changes nothing. -/
def Obligations.FlowActs : Prop :=
  (∀ (f : FlowCommand) (s : State), Running s → s.link.messages = true → (f = .stopNow → s.inFlight = none) →
    EventsFinished s →
    exec (.flow f) s = .next { serve s with flow := if f = .go then .go else .stopped })
  ∧ (∀ s : State, Running s → s.link.messages = true → s.flow = .stopped → EventsFinished s →
    exec (.flow .stopNow) s = .next (serve s))
  ∧ (∀ (i : SlotId) (p : Port) (tag : Nat) (pinned : Bool) (rest : List Entry) (f : InFlight) (s : State), Running s →
    s.link.messages = true → s.flow = .go → s.inFlight = some f →
    s.txq = { msg := .ofSlot i p tag .digits, pinned := pinned } :: rest → 0 < (s.buffers.at p).lent → (s.sig.at i).owed = none →
    EventsFinished s →
    exec (.flow .stopNow) s = .next { serve s with
      flow := .stopped, inFlight := none
      buffers := s.buffers.put p { s.buffers.at p with digits := f.digits ++ (s.buffers.at p).digits, lent := 0 } })
  ∧ (∀ (e : Entry) (rest : List Entry) (f : InFlight) (s : State), Running s → s.link.messages = true → s.flow = .go →
    s.inFlight = some f → s.txq = e :: rest → e.slotMsg? ≠ some .digits → (∀ i ∈ e.slot?, (s.sig.at i).owed = none) →
    EventsFinished s →
    exec (.flow .stopNow) s = .next { serve s with flow := .stopped, inFlight := none })
  ∧ (∀ (i : SlotId) (p : Port) (tag : Nat) (m : SlotMsg) (pinned : Bool) (rest : List Entry) (o : ClearOwed) (f : InFlight) (s : State),
    Running s → s.link.messages = true → s.flow = .go → s.inFlight = some f →
    s.txq = { msg := .ofSlot i p tag m, pinned := pinned } :: rest → (m = .digits → (s.buffers.at p).lent = 0) →
    (s.sig.at i).owed = some o → (m = .seize → (s.sig.at i).tagKnown = true ∨ o = .clearAck) → EventsFinished s →
    exec (.flow .stopNow) s = .next { serve s with
      flow := .stopped, inFlight := none, txq := replaced i o.msg s.txq
      sig := s.sig.put i { s.sig.at i with owed := none } })
  ∧ (∀ (i : SlotId) (former p : Port) (n tag : Nat) (side : ClearSide) (b pinned : Bool) (rest : List Entry) (r : Reason)
      (f : InFlight) (s : State), Running s → s.link.messages = true → s.flow = .go → s.inFlight = some f →
    s.txq = { msg := .ofSlot i p tag .seize, pinned := pinned } :: rest → (s.sig.at i).owed = some (.clear r) →
    (s.sig.at i).tagKnown = false → s.slots.at i = .clearing former n side b → s.waitQueue = [] → s.mode ≠ .configPending →
    EventsFinished s →
    exec (.flow .stopNow) s = .next { serve s with
      flow := .stopped, inFlight := none, txq := s.txq.filter fun e => decide (e.slot? ≠ some i)
      sig := s.sig.put i Sig.cleared, slots := s.slots.put i (released b), free := if b then s.free else s.free ++ [i]
      mark := if s.mark = some i then none else s.mark })
  ∧ (∀ (octets : List Byte) (s : State), exec (.malformedHeadMessage octets) s = .next (serve s))

/-! ## The control port -/

/-- A report that waits while the transmitter is IDLE with no reply to send, as START does after a reset, starts at the next command or
idle step, whatever that is, ahead of its effect; RECORD_COMPLETE, with no record to end, does that alone (log 8). `serve` is what the
transmitter starts so in the other statements, nothing where it is busy or has nothing to send. A line break and a framing error discard
the octets of a partial frame and touch nothing else. The end of a reply empties the reply slot, and the end of a report leaves the
slot; what waits goes next: the oldest request in the buffer is taken as its own row, a waiting reply is sent, and a report only where
neither waits (log 7). With a WARM_RESET taken, the reset is then due (log 18). -/
def Obligations.ReceiverAndTransmitterGoOn : Prop :=
  (∀ s : State, Running s → exec .lineBreak s = .next { serve s with receiver := .hunting })
  ∧ (∀ s : State, Running s → exec .framingError s = .next { serve s with receiver := .hunting })
  ∧ (∀ (lost : Bool) (n : Nat) (q : Request) (rest : List Request) (s : State), Running s → s.tx = .sendingReply lost n →
    s.warm = .none → s.requests = q :: rest →
    exec .recordComplete s = exec (requestRow q.num q.kind q.body) { s with tx := .idle, reply := none })
  ∧ (∀ (lost : Bool) (n : Nat) (r : Report) (rest : List Report) (s : State), Running s → s.tx = .sendingReply lost n →
    s.requests = [] → s.warm = .none → s.reports = r :: rest →
    exec .recordComplete s = .next { s with
      reply := none, tx := .sendingReport r s.reportLost 0, reports := rest, reportLost := false })
  ∧ (∀ (lost : Bool) (n : Nat) (r : Report) (y : Reply) (s : State), Running s → s.tx = .sendingReport r lost n → s.reply = some y →
    exec .recordComplete s = .next { s with tx := .sendingReply s.requestLost 0, requestLost := false })
  ∧ (∀ (lost : Bool) (n : Nat) (s : State), Running s → s.tx = .sendingReply lost n → s.requests = [] → s.reports = [] →
    exec .recordComplete s = .next { s with
      reply := none, tx := .idle, warm := if s.warm = .taken then .due else s.warm })
  ∧ (∀ (c : Instr) (r : Report) (rest : List Report) (s : State), Running s → s.tx = .idle → s.reply = none → s.requests = [] →
    s.warm ≠ .due → s.reports = r :: rest → c ≠ .recordComplete →
    exec c s = exec c { s with tx := .sendingReport r s.reportLost 0, reports := rest, reportLost := false })
  ∧ (∀ (r : Report) (rest : List Report) (s : State), Running s → s.tx = .idle → s.reply = none → s.requests = [] →
    s.warm ≠ .due → s.reports = r :: rest →
    exec .recordComplete s = .next { s with tx := .sendingReport r s.reportLost 0, reports := rest, reportLost := false })
  ∧ (∀ (r : Report) (rest : List Report) (s : State), Running s → s.tx = .idle → s.reply = none → s.requests = [] →
    s.warm ≠ .due → s.reports = r :: rest → s.pending = [] →
    step s = step { s with tx := .sendingReport r s.reportLost 0, reports := rest, reportLost := false })
  ∧ (∀ s : State, s.tx ≠ .idle ∨ (s.reply = none ∧ s.reports = []) → serve s = s)

/-- A report that finds 32 reports waiting is discarded and sets the report-lost flag; the change stands. The report here is that of a
misdial, which makes exactly one. -/
def Obligations.FullReportQueueLosesTheReport : Prop :=
  ∀ (p : Port) (s : State), Running s → decodes s p = true → hookSampled s p = true → (s.scan.at p).overrun = true →
    s.tx ≠ .idle → s.reports.length = 32 →
    Answers (.digitComplete p) s fun t => t.reports = s.reports ∧ t.reportLost = true ∧ t.tx = s.tx ∧ (t.scan.at p).overrun = false

/-- IDENTIFY and the five queries are answered with a picture of the part as it stands when they are taken, and change nothing. -/
def Obligations.QueriesAnswerWithAPicture : Prop :=
  ∀ (num : Byte) (s : State),
    (Takes num 0x01 [] s → Answers (.identify num []) s fun t =>
      Replied t num (.data (.identify s.selfTest s.mode s.posture s.params)) ∧ t.apartFromPort = s.apartFromPort)
    ∧ (∀ p : Port, Takes num 0x0F [byte p.val] s → Answers (.queryLine num [byte p.val]) s fun t =>
      Replied t num (.data (.line {
        port := p, role := s.ports.at p, line := s.lines.at p, buffer := (s.buffers.at p).digits, scan := s.scan.at p
        group := (s.groups.at (groupOf p)).state, wake := (s.groups.at (groupOf p)).wake, bus := s.bus }))
      ∧ t.apartFromPort = s.apartFromPort)
    ∧ (Takes num 0x10 [] s → Answers (.querySlots num []) s fun t =>
      Replied t num (.data (.slots {
        slots := allSlots.map fun i => (s.slots.at i, s.sig.at i), free := s.free, active := activeCount s
        posture := s.posture, mark := s.mark, nextTag := s.nextTag, nextOrder := s.nextOrder }))
      ∧ t.apartFromPort = s.apartFromPort)
    ∧ (Takes num 0x11 [] s → Answers (.queryQueues num []) s fun t =>
      Replied t num (.data (.queues (pictureQueues s))) ∧ t.apartFromPort = s.apartFromPort)
    ∧ (Takes num 0x12 [] s → Answers (.queryLink num []) s fun t =>
      Replied t num (.data (.link {
        link := s.link, score := s.score, align := s.align, run := s.run, releaseFlag := s.releaseFlag
        cabinet := s.params.cabinetRelease, holdoverTime := s.params.holdover, holdover := s.holdover, restart := s.restartTimer }))
      ∧ t.apartFromPort = s.apartFromPort)
    ∧ (Takes num 0x13 [] s → Answers (.queryAlarms num []) s fun t =>
      Replied t num (.data (.alarms s.alarms)) ∧ t.apartFromPort = s.apartFromPort)

/-- These refusals change nothing: a request of no known kind, with UNKNOWN_REQUEST; a PARAM_SET and a MAP_SET whose fields pass the
form check, outside CONFIG, with WRONG_MODE; and a request with an empty body of any kind whose body is not empty, with BAD_VALUE, in
every mode (that the form is checked before the mode is log 21). -/
def Obligations.RefusedRequestsChangeNothing : Prop :=
  (∀ (num kind : Byte) (body : List Byte) (s : State), Takes num kind body s → (kind = 0 ∨ 0x14 < kind.toNat) →
    Answers (.unknownRequest num kind body) s fun t =>
      Replied t num (.refused .unknownRequest) ∧ t.apartFromPort = s.apartFromPort)
  ∧ (∀ (num : Byte) (k v : Nat) (s : State), Takes num 0x05 [byte k, byte (v / 256), byte v] s → k < 8 → v < 65536 →
    (k < 6 ∨ v < 2) → s.mode ≠ .config → Answers (.paramSet num [byte k, byte (v / 256), byte v]) s fun t =>
      Replied t num (.refused .wrongMode) ∧ t.apartFromPort = s.apartFromPort)
  ∧ (∀ (num port role hi lo cls : Byte) (s : State), Takes num 0x04 [port, role, hi, lo, cls] s → role.toNat < 4 →
    (role = 1 → cls.toNat < 3) → s.mode ≠ .config →
    Answers (.mapSet num [port, role, hi, lo, cls]) s fun t =>
      Replied t num (.refused .wrongMode) ∧ t.apartFromPort = s.apartFromPort)
  ∧ (∀ (num kind : Byte) (s : State), Takes num kind [] s →
    kind ∈ ([0x02, 0x04, 0x05, 0x06, 0x07, 0x08, 0x09, 0x0B, 0x0C, 0x0E, 0x0F] : List Byte) →
    Answers (requestRow num kind []) s fun t =>
      Replied t num (.refused .badValue) ∧ t.apartFromPort = s.apartFromPort)

/-! ## Requests that set the part -/

/-- PARAM_SET in CONFIG gives DEBOUNCE, FLASH_MAX, INTERDIGIT, WAIT_LIMIT, RING_LIMIT or HOLDOVER a value in the range of Table 10.2, or
RELEASE_MODE or PREEMPT one of its two, and refuses any other value with BAD_VALUE; no other parameter and nothing else changes. -/
def Obligations.ParamSetTakesAValueInRange : Prop :=
  ∀ (num : Byte) (k v : Nat) (s : State), Takes num 0x05 [byte k, byte (v / 256), byte v] s → k < 8 → v < 65536 → s.mode = .config →
    Answers (.paramSet num [byte k, byte (v / 256), byte v]) s fun t =>
      let range : Nat × Nat := [(8, 32), (300, 1000), (150, 500), (10, 120), (20, 180), (0, 30), (0, 1), (0, 1)].getD k (0, 0)
      let value : Params := match k with
        | 0 => { s.params with debounce := v }
        | 1 => { s.params with flashMax := v }
        | 2 => { s.params with interdigit := v }
        | 3 => { s.params with waitLimit := v }
        | 4 => { s.params with ringLimit := v }
        | 5 => { s.params with holdover := v }
        | 6 => { s.params with cabinetRelease := decide (v = 1) }
        | _ => { s.params with preempt := decide (v = 1) }
      if range.1 ≤ v ∧ v ≤ range.2 then
        Replied t num .done ∧ t.apartFromPort = ({ s with params := value } : State).apartFromPort
      else Replied t num (.refused .badValue) ∧ t.apartFromPort = s.apartFromPort

/-- A MAP_SET in CONFIG that equips an UNEQUIPPED port as an ORDINARY or PRIORITY SUBSCRIBER with a number that no port holds gives it
an IDLE line and fresh sensing and reports it; the same MAP_SET repeated changes nothing. The refusals of R11 and R12 come in their
order. A change of class alone changes the port record alone. Any other change is a remap, to and from every role: the line starts in
IDLE or UNEQUIPPED and, on kept sense states, goes on to FAULT or PARKED; the conditions it ends are reported, then the line's reset,
then that transition; and the port's alarms whose condition is absent leave the list. -/
def Obligations.MapSetEquipsASubscriber : Prop :=
  (∀ (num : Byte) (p : Port) (n : Nat) (priority : Bool) (s : State),
    Takes num 0x04 [byte p.val, 1, byte (n / 256), byte n, flagCode priority] s → s.mode = .config → 1 ≤ n → n ≤ 9999 →
    s.ports.at p = .unequipped → (∀ q, (s.ports.at q).number? ≠ some n) → s.bus = .free → (s.lines.at p).call = none →
    (s.scan.at p).fault = false → (s.scan.at p).contact = .opened → (∀ e ∈ s.alarms, e.present = true) →
    groupState s p ≠ .standbyPending → EventsFinished s → Room 1 s →
    Answers (.mapSet num [byte p.val, 1, byte (n / 256), byte n, flagCode priority]) s fun t =>
      Replied t num .done ∧ t.ports.at p = .subscriber n (if priority then .priority else .ordinary)
      ∧ t.lines.at p = { Line.unequipped with state := .idle } ∧ t.scan.at p = Scanner.initial
      ∧ t.buffers.at p = DigitBuffer.empty ∧ lookup t n = some p
      ∧ Made s t [.callEvent p .idle (.because .config)]
      ∧ OnlyAt p s.ports t.ports ∧ OnlyAt p s.lines t.lines ∧ OnlyAt p s.scan t.scan ∧ OnlyAt p s.buffers t.buffers
      ∧ t.apartFromPort = ({ s with
          ports := t.ports, lines := t.lines, scan := t.scan, buffers := t.buffers } : State).apartFromPort)
  ∧ (∀ (num : Byte) (p : Port) (n : Nat) (priority : Bool) (s : State),
    Takes num 0x04 [byte p.val, 1, byte (n / 256), byte n, flagCode priority] s → s.mode = .config → 1 ≤ n → n ≤ 9999 →
    s.ports.at p = .subscriber n (if priority then .priority else .ordinary) →
    (∀ q, q ≠ p → (s.ports.at q).number? ≠ some n) → s.bus = .free → (s.lines.at p).call = none → EventsFinished s →
    Answers (.mapSet num [byte p.val, 1, byte (n / 256), byte n, flagCode priority]) s fun t =>
      Replied t num .done ∧ t.apartFromPort = s.apartFromPort)
  ∧ (∀ (num port role hi lo cls : Byte) (r : RequestRefusal) (s : State), Takes num 0x04 [port, role, hi, lo, cls] s →
    role.toNat < 4 → (role = 1 → cls.toNat < 3) → s.mode = .config →
    (if 64 ≤ port.toNat ∨ ((role = 1 ∨ role = 2) ∧ (ofTwoBytes hi lo = 0 ∨ 9999 < ofTwoBytes hi lo)) ∨ (role = 1 ∧ cls = 2) then
        some RequestRefusal.badValue
      else if (role = 2 ∧ ¬ (48 ≤ port.toNat ∧ port.toNat ≤ 55)) ∨ (role = 3 ∧ port.toNat < 56) then some .roleNotOffered
      else if (role = 1 ∨ role = 2) ∧ ∃ q : Port, q.val ≠ port.toNat ∧ (s.ports.at q).number? = some (ofTwoBytes hi lo) then
        some .numberInUse
      else if ∃ q : Port, q.val = port.toNat ∧ (s.bus = .claimed q ∨ s.bus = .held q ∨ (s.lines.at q).call.isSome = true) then
        some .portBusy
      else none) = some r →
    Answers (.mapSet num [port, role, hi, lo, cls]) s fun t =>
      Replied t num (.refused r) ∧ t.apartFromPort = s.apartFromPort)
  ∧ (∀ (num : Byte) (p : Port) (n : Nat) (old new : Machine.Class) (s : State), Takes num 0x04 (mapSetBody p (.subscriber n new)) s →
    s.mode = .config → 1 ≤ n → n ≤ 9999 → s.ports.at p = .subscriber n old → (∀ q, q ≠ p → (s.ports.at q).number? ≠ some n) →
    s.bus = .free → (s.lines.at p).call = none → EventsFinished s →
    Answers (.mapSet num (mapSetBody p (.subscriber n new))) s fun t =>
      Replied t num .done ∧ Made s t []
      ∧ t.apartFromPort = ({ s with ports := s.ports.put p (.subscriber n new) } : State).apartFromPort)
  ∧ (∀ (num : Byte) (p : Port) (r : PortRole) (s : State), Takes num 0x04 (mapSetBody p r) s → s.mode = .config →
    offers p r = true → (∀ n ∈ r.number?, 1 ≤ n ∧ n ≤ 9999 ∧ ∀ q, q ≠ p → (s.ports.at q).number? ≠ some n) →
    r ≠ s.ports.at p → ¬ ((s.ports.at p).isSubscriber = true ∧ r.isSubscriber = true ∧ (s.ports.at p).number? = r.number?) →
    s.bus = .free → (s.lines.at p).call = none → (s.alarms.map (·.id)).Nodup → groupState s p ≠ .standbyPending →
    EventsFinished s → Room 4 s →
    Answers (.mapSet num (mapSetBody p r)) s fun t =>
      let c := scanRemapped s p r
      let st := if r.hasLine = false then LineState.unequipped
        else if c.fault = true then .fault else if c.hook = .offHook then .parked else .idle
      Replied t num .done ∧ t.ports = s.ports.put p r
      ∧ t.lines.at p = { Line.unequipped with state := st, faultPresent := r.hasLine && c.fault }
      ∧ t.scan.at p = (if st = .fault then { c with hook := .onHook, openRun := 0, closedRun := 0, heldRun := 0 } else c)
      ∧ t.buffers.at p = DigitBuffer.empty
      ∧ Made s t ((if (s.scan.at p).fault = true ∧ c.fault = false then ended s (.lineFault p) else [])
          ++ (if (s.scan.at p).contact = .closed ∧ c.contact = .opened then ended s (.contact p) else [])
          ++ (if hasLine s p = true ∨ r.hasLine = true then
              [.callEvent p (if r.hasLine then .idle else .unequipped) (.because .config)] else [])
          ++ (if st = .fault then [.callEvent p .fault (.because .lineFault)]
              else if st = .parked then [.callEvent p .parked (.because .config)] else []))
      ∧ t.alarms = (s.alarms.filter fun e =>
          !decide ((e.id = .lineFault p ∨ e.id = .contact p) ∧ (e.present = false
            ∨ (e.id = .lineFault p ∧ (s.scan.at p).fault = true ∧ c.fault = false)
            ∨ (e.id = .contact p ∧ (s.scan.at p).contact = .closed ∧ c.contact = .opened))))
      ∧ OnlyAt p s.lines t.lines ∧ OnlyAt p s.scan t.scan ∧ OnlyAt p s.buffers t.buffers
      ∧ t.apartFromPort = ({ s with
          ports := t.ports, lines := t.lines, scan := t.scan, buffers := t.buffers, alarms := t.alarms } : State).apartFromPort)

/-- POSTURE_SET takes the posture it names, with nothing reported where no line is in a cell to lose its place and none waits for a slot
or a place. At a fall every cell keeps its first lines up to the new ring capacity; each line beyond it leaves its cell with its drive
off, a RINGING one for OFFERED with its call and its timer kept, reported in the order of the placement numbers with reason CONGESTED,
and stands in a cell or the ring queue again. At a rise a line of the ring queue is placed where the next phase's cell now has room, and
the waiting ORDINARY line at the head of the wait queue is admitted where the new limit allows it. -/
def Obligations.PostureSetTakesThePosture : Prop :=
  (∀ (num code : Byte) (s : State), Takes num 0x06 [code] s → code.toNat < 3 → s.waitQueue = [] → s.ringQueue = [] →
    (∀ k, s.cells.at k = []) → EventsFinished s →
    Answers (.postureSet num [code]) s fun t =>
      Replied t num .done ∧ t.posture = (if code = 0 then .mains else if code = 1 then .battery else .reserve)
      ∧ Made s t [] ∧ t.apartFromPort = ({ s with posture := t.posture } : State).apartFromPort)
  ∧ (∀ (num code : Byte) (s : State), Takes num 0x06 [code] s → (code = 1 ∨ code = 2) →
    (postureOfCode code.toNat).rank < s.posture.rank → RingHolds s → EventsFinished s → Room 12 s →
    Answers (.postureSet num [code]) s fun t =>
      Replied t num .done ∧ t.posture = postureOfCode code.toNat
      ∧ (∀ k, ((s.cells.at k).take t.posture.ringCapacity).map (·.port) <+: (t.cells.at k).map (·.port)
          ∧ (t.cells.at k).length ≤ t.posture.ringCapacity)
      ∧ (∀ e ∈ beyondCapacity s t.posture, t.ringDrive.at e.port = false ∧ (isPlaced t e.port = true ∨ e.port ∈ t.ringQueue))
      ∧ (∀ p, t.lines.at p = if (∃ e ∈ beyondCapacity s t.posture, e.port = p) ∧ (s.lines.at p).state = .ringing
          then { s.lines.at p with state := .offered, flashOwed := false } else s.lines.at p)
      ∧ (∀ p, (∀ e ∈ beyondCapacity s t.posture, e.port ≠ p) → t.ringDrive.at p = s.ringDrive.at p ∧ t.scan.at p = s.scan.at p)
      ∧ Made s t (((byNumber (beyondCapacity s t.posture)).filter fun e => decide ((s.lines.at e.port).state = .ringing)).map fun e =>
          .callEvent e.port .offered (.because .congested))
      ∧ t.apartFromPort = ({ s with
          posture := t.posture, cells := t.cells, nextPlacement := t.nextPlacement, ringQueue := t.ringQueue
          ringDrive := t.ringDrive, lines := t.lines, scan := t.scan } : State).apartFromPort)
  ∧ (∀ (num code : Byte) (p : Port) (s : State), Takes num 0x06 [code] s → (code = 0 ∨ code = 1) →
    s.posture.rank < (postureOfCode code.toNat).rank → s.ringQueue = [p] → s.waitQueue = [] →
    (s.cells.at (cellOf (nextPhase s.phase) (busOf p))).length < (postureOfCode code.toNat).ringCapacity → s.nextPlacement < 65535 →
    EventsFinished s →
    Answers (.postureSet num [code]) s fun t =>
      Replied t num .done ∧ Made s t [] ∧ t.posture = postureOfCode code.toNat ∧ t.ringQueue = []
      ∧ t.cells.at (cellOf (nextPhase s.phase) (busOf p))
          = s.cells.at (cellOf (nextPhase s.phase) (busOf p)) ++ [⟨p, s.nextPlacement⟩]
      ∧ OnlyAt (cellOf (nextPhase s.phase) (busOf p)) s.cells t.cells ∧ t.nextPlacement = s.nextPlacement + 1
      ∧ t.apartFromPort = ({ s with
          posture := t.posture, cells := t.cells, nextPlacement := t.nextPlacement, ringQueue := [] } : State).apartFromPort)
  ∧ (∀ (num code : Byte) (p : Port) (i : SlotId) (rest : List SlotId) (s : State), Takes num 0x06 [code] s → (code = 0 ∨ code = 1) →
    s.posture.rank < (postureOfCode code.toNat).rank → s.ringQueue = [] → s.waitQueue = [p] → (s.lines.at p).state = .queued →
    isOrdinary s p = true → s.mode = .normal → s.link.ordinary = true → activeCount s < (postureOfCode code.toNat).callLimit →
    s.free = i :: rest → s.slots.at i = .free → (∃ tag, tagHeld s tag = false ∧ 1 ≤ tag ∧ tag ≤ 255) → s.nextOrder < 65535 →
    EventsFinished s → Room 1 s →
    Answers (.postureSet num [code]) s fun t =>
      Replied t num .done ∧ t.posture = postureOfCode code.toNat ∧ t.waitQueue = [] ∧ t.free = rest
      ∧ (t.lines.at p).state = .seizing ∧ (t.lines.at p).call = some (i, .out) ∧ (t.lines.at p).timer = none
      ∧ (∃ tag, tagHeld s tag = false ∧ 1 ≤ tag ∧ tag ≤ 255
          ∧ t.slots.at i = .reserved ⟨p, tag, .out, false, s.nextOrder⟩ false
          ∧ t.txq = s.txq ++ [{ msg := .ofSlot i p tag .seize, pinned := false }])
      ∧ Made s t [.callEvent p .seizing (.because .normal)]
      ∧ OnlyAt p s.lines t.lines ∧ OnlyAt i s.slots t.slots ∧ OnlyAt i s.sig t.sig)

/-- GROUP_STANDBY sets the wake flag; an ACTIVE group whose ports hold no line but IDLE ones sleeps at once, with every run of its ports
at 0, and one with another line waits in STANDBY_PENDING; in any other state the group's state stands. -/
def Obligations.GroupStandbyActsByTheState : Prop :=
  ∀ (num : Byte) (g : GroupId) (wake : Bool) (s : State), Takes num 0x07 [byte g.val, flagCode wake] s → Room 1 s →
    Answers (.groupStandby num [byte g.val, flagCode wake]) s fun t =>
      Replied t num .done ∧ (t.groups.at g).wake = wake ∧ OnlyAt g s.groups t.groups
      ∧ t.apartFromPort = ({ s with groups := t.groups, scan := t.scan } : State).apartFromPort
      ∧ (if (s.groups.at g).state = .active then
          if ∀ p ∈ portsOf g, hasLine s p = true → (s.lines.at p).state = .idle then
            (t.groups.at g).state = .standby ∧ (t.groups.at g).slow = some 200 ∧ RunsCleared g s t
              ∧ Made s t [.groupEvent g .standby .request]
          else (t.groups.at g).state = .standbyPending ∧ t.scan = s.scan ∧ Made s t [.groupEvent g .standbyPending .request]
        else (t.groups.at g).state = (s.groups.at g).state ∧ (t.groups.at g).settle = (s.groups.at g).settle
          ∧ (t.groups.at g).slow = (s.groups.at g).slow ∧ t.scan = s.scan ∧ Made s t [])

/-- GROUP_WAKE acts by the group's state: STANDBY enters WAKING with every run of the group's ports at 0, STANDBY_PENDING returns to
ACTIVE, and nothing changes in ACTIVE and WAKING. The wake flag is not changed. -/
def Obligations.GroupWakeActsByTheState : Prop :=
  ∀ (num : Byte) (g : GroupId) (s : State), Takes num 0x08 [byte g.val] s → Room 1 s →
    Answers (.groupWake num [byte g.val]) s fun t =>
      Replied t num .done ∧ (t.groups.at g).wake = (s.groups.at g).wake ∧ OnlyAt g s.groups t.groups
      ∧ t.apartFromPort = ({ s with groups := t.groups, scan := t.scan } : State).apartFromPort
      ∧ match (s.groups.at g).state with
        | .standby => (t.groups.at g).state = .waking ∧ (t.groups.at g).settle = some 300 ∧ (t.groups.at g).slow = none
            ∧ RunsCleared g s t ∧ Made s t [.groupEvent g .waking .request]
        | .standbyPending => (t.groups.at g).state = .active ∧ t.scan = s.scan ∧ Made s t [.groupEvent g .active .request]
        | _ => t.groups = s.groups ∧ t.scan = s.scan ∧ Made s t []

/-- A claim of either form on a FREE bus for an IDLE line of an awake group is granted at once: the bus is HELD, the relay is on, the
feed is off. A WAIT claim for a line in a call claims the bus and leaves the line; a FORCE claim takes the line out of its call, its
slot given up with a CLEAR with reason MAINTENANCE owed, or locally in HOLDOVER. -/
def Obligations.TestClaimsAreGranted : Prop :=
  (∀ (num : Byte) (p : Port) (force : Bool) (s : State), Takes num 0x09 [byte p.val, flagCode force] s → hasLine s p = true →
    hookSampled s p = true → s.bus = .free → (s.lines.at p).state = .idle → (s.lines.at p).call = none → EventsFinished s → Room 2 s →
    Answers (if force then .testClaimForce num [byte p.val, 1] else .testClaimWait num [byte p.val, 0]) s fun t =>
      Replied t num .done ∧ t.bus = .held p ∧ relay t p = true ∧ (t.lines.at p).state = .test ∧ feed t p = (.off, .none)
      ∧ Made s t [.callEvent p .test (.because .maintenance), .testEvent p .immediate]
      ∧ OnlyAt p s.lines t.lines ∧ OnlyAt p s.scan t.scan ∧ OnlyAt p s.buffers t.buffers
      ∧ t.apartFromPort = ({ s with
          bus := .held p, lines := t.lines, scan := t.scan, buffers := t.buffers } : State).apartFromPort)
  ∧ (∀ (num : Byte) (p : Port) (s : State), Takes num 0x09 [byte p.val, 0] s → hasLine s p = true →
    hookSampled s p = true → s.bus = .free → (s.lines.at p).state.holdsSlot = true → EventsFinished s →
    Answers (.testClaimWait num [byte p.val, 0]) s fun t =>
      Replied t num .done ∧ t.bus = .claimed p ∧ Made s t []
      ∧ t.apartFromPort = ({ s with bus := .claimed p } : State).apartFromPort)
  ∧ (∀ (num : Byte) (p : Port) (i : SlotId) (c : Call) (d : Direction) (s : State), Takes num 0x09 [byte p.val, 1] s →
    hasLine s p = true → hookSampled s p = true → (s.bus = .free ∨ s.bus = .claimed p) → (s.lines.at p).state.holdsSlot = true →
    (s.lines.at p).state ≠ .holdover → (s.lines.at p).call = some (i, d) → (s.slots.at i).call? = some c → c.line = p →
    OneEntryEach s → s.waitQueue = [] → s.mode ≠ .configPending → EventsFinished s → Room 2 s →
    Answers (.testClaimForce num [byte p.val, 1]) s fun t =>
      Replied t num .done ∧ t.bus = .held p ∧ (t.lines.at p).state = .test ∧ (t.lines.at p).call = none
      ∧ Superseded i p c.tag (s.slots.at i).blockPending (.clear .maintenance) s t
      ∧ Made s t [.callEvent p .test (.because .maintenance), .testEvent p .forced]
      ∧ OnlyAt p s.lines t.lines ∧ OnlyAt i s.slots t.slots ∧ OnlyAt i s.sig t.sig)
  ∧ (∀ (num : Byte) (p : Port) (i : SlotId) (c : Call) (b : Bool) (d : Direction) (s : State), Takes num 0x09 [byte p.val, 1] s →
    hasLine s p = true → hookSampled s p = true → (s.bus = .free ∨ s.bus = .claimed p) → (s.lines.at p).state = .holdover →
    (s.lines.at p).call = some (i, d) → s.slots.at i = .held c b → s.waitQueue = [] → s.mode ≠ .configPending →
    EventsFinished s → Room 2 s →
    Answers (.testClaimForce num [byte p.val, 1]) s fun t =>
      Replied t num .done ∧ t.bus = .held p ∧ (t.lines.at p).state = .test ∧ (t.lines.at p).call = none
      ∧ t.slots.at i = released b ∧ t.free = (if b then s.free else s.free ++ [i]) ∧ t.txq = s.txq
      ∧ Made s t [.callEvent p .test (.because .maintenance), .testEvent p .forced]
      ∧ OnlyAt p s.lines t.lines ∧ OnlyAt i s.slots t.slots ∧ OnlyAt i s.sig t.sig)

/-- TEST_RELEASE acts by the bus state: a HELD line goes to FAULT where its fault is present and to IDLE otherwise, the relay off and
the bus FREE; a claim is cancelled with the line left; a FREE bus is refused with NOT_HELD. -/
def Obligations.TestReleaseActsByTheBus : Prop :=
  ∀ (num : Byte) (s : State), Takes num 0x0A [] s → EventsFinished s → Room 1 s →
    (∀ p, s.bus = .held p → groupState s p ≠ .standbyPending) → (∀ p, s.bus = .held p → (s.lines.at p).state = .test) →
    Answers (.testRelease num []) s fun t =>
      match s.bus with
      | .held p => Replied t num .done ∧ t.bus = .free ∧ relay t p = false
          ∧ (if (s.lines.at p).faultPresent then
              (t.lines.at p).state = .fault ∧ Made s t [.callEvent p .fault (.because .lineFault)]
            else (t.lines.at p).state = .idle ∧ Made s t [.callEvent p .idle (.because .maintenance)])
          ∧ OnlyAt p s.lines t.lines ∧ OnlyAt p s.scan t.scan ∧ OnlyAt p s.buffers t.buffers
          ∧ t.apartFromPort = ({ s with
              bus := .free, lines := t.lines, scan := t.scan, buffers := t.buffers } : State).apartFromPort
      | .claimed _ => Replied t num .done ∧ Made s t [] ∧ t.apartFromPort = ({ s with bus := .free } : State).apartFromPort
      | .free => Replied t num (.refused .notHeld) ∧ Made s t [] ∧ t.apartFromPort = s.apartFromPort

/-- SLOT_BLOCK takes a FREE slot out of the list and blocks it, sets block pending on a slot in use, and leaves a BLOCKED one;
SLOT_UNBLOCK frees a BLOCKED slot at the tail, clears block pending, and leaves a FREE one. -/
def Obligations.SlotBlockAndUnblock : Prop :=
  (∀ (num : Byte) (i : SlotId) (s : State), Takes num 0x0B [byte (slotNo i)] s →
    Answers (.slotBlock num [byte (slotNo i)]) s fun t =>
      Replied t num .done ∧ Made s t []
      ∧ t.apartFromPort = (match s.slots.at i with
        | .free => { s with slots := s.slots.put i (.blocked .cabinet), free := s.free.erase i }
        | .blocked _ => s
        | sl => { s with slots := s.slots.put i (sl.withBlockPending true) } : State).apartFromPort)
  ∧ (∀ (num : Byte) (i : SlotId) (s : State), Takes num 0x0C [byte (slotNo i)] s → s.waitQueue = [] → EventsFinished s →
    s.slots.at i ≠ .blocked .noClearAck →
    Answers (.slotUnblock num [byte (slotNo i)]) s fun t =>
      Replied t num .done ∧ Made s t []
      ∧ t.apartFromPort = (match s.slots.at i with
        | .free => s
        | .blocked _ => { s with slots := s.slots.put i .free, free := s.free ++ [i] }
        | sl => { s with slots := s.slots.put i (sl.withBlockPending false) } : State).apartFromPort)

/-- TRUNK_RELEASE acts by the link state: in DOWN the release flag is set, in RECOVERED the link enters RESYNC, and in every other state
nothing changes. -/
def Obligations.TrunkReleaseActsByTheLink : Prop :=
  ∀ (num : Byte) (s : State), Takes num 0x0D [] s → Room 1 s →
    Answers (.trunkRelease num []) s fun t =>
      Replied t num .done
      ∧ match s.link with
        | .down => Made s t [] ∧ t.apartFromPort = ({ s with releaseFlag := true } : State).apartFromPort
        | .recovered => t.link = .resync ∧ t.score = 0 ∧ t.run = 0 ∧ t.releaseFlag = false ∧ t.holdover = none
            ∧ Made s t [.linkEvent .resync 0]
        | _ => Made s t [] ∧ t.apartFromPort = s.apartFromPort

/-- ALARM_ACK for a LINE_FAULT removes an entry whose condition is absent, and is refused with CONDITION_PRESENT where it is present and
with BAD_VALUE where there is no entry. WARM_RESET is answered with DONE and takes no further request: a request and the octets of a
frame that come behind it are discarded, while its reply is sent and until the reset begins. -/
def Obligations.AlarmAckAndWarmReset : Prop :=
  (∀ (num : Byte) (p : Port) (s : State), Takes num 0x0E [3, byte p.val] s →
    Answers (.alarmAck num [3, byte p.val]) s fun t =>
      match alarmEntry s (.lineFault p) with
      | none => Replied t num (.refused .badValue) ∧ t.apartFromPort = s.apartFromPort
      | some e =>
        if e.present then Replied t num (.refused .conditionPresent) ∧ t.apartFromPort = s.apartFromPort
        else Replied t num .done ∧ t.apartFromPort
          = ({ s with alarms := s.alarms.filter fun e => decide (e.id ≠ .lineFault p) } : State).apartFromPort)
  ∧ (∀ (num : Byte) (s : State), Takes num 0x14 [] s → Answers (.warmReset num []) s fun t =>
      Replied t num .done ∧ t.warm = .taken ∧ t.requests = []
      ∧ t.apartFromPort = ({ s with warm := .taken } : State).apartFromPort)
  ∧ (∀ (num kind : Byte) (body : List Byte) (s : State), Running s →
    ((s.warm = .taken ∧ s.tx ≠ .idle) ∨ (s.warm = .due ∧ s.reply = none)) → exec (requestRow num kind body) s = .next s)
  ∧ (∀ (octets : List Byte) (s : State), Running s → s.warm ≠ .none → exec (.requestReceived octets) s = .next (serve s))

/-- CONFIG_ENTER(ORDERLY) in NORMAL makes the mode CONFIG_PENDING while a slot is in use, and CONFIG at once while none is; it parks
each queued line, in the order of the wait queue, with reason CONFIG, and moves no other line. CONFIG_ENTER(FORCE) ends every call and
makes the mode CONFIG: queued lines and lines in a call go to PARKED, called ones to IDLE, with reason CONFIG, first in the order of the
wait queue and then in that of the ports; each RESERVED or BUSY slot is given up with a CLEAR owed, or locally where its SEIZE was never
sent, and each HELD one locally; the ringing is empty with every drive off. -/
def Obligations.ConfigEnterChangesTheMode : Prop :=
  (∀ (num : Byte) (s : State), Takes num 0x02 [0] s → s.mode = .normal → s.waitQueue.Nodup →
    (∀ p ∈ s.waitQueue, (s.lines.at p).state = .queued ∧ s.bus ≠ .claimed p) → EventsFinished s →
    Room (s.waitQueue.length + 2) s →
    Answers (.configEnterOrderly num [0]) s fun t =>
      Replied t num .done ∧ t.mode = (if anyInUse s then .configPending else .config) ∧ t.waitQueue = []
      ∧ Made s t ([.modeEvent .configPending .request] ++ s.waitQueue.map (fun p => .callEvent p .parked (.because .config))
          ++ (if anyInUse s then [] else [.modeEvent .config .callsEnded]))
      ∧ (∀ p, if p ∈ s.waitQueue then
            t.lines.at p = { Line.unequipped with state := .parked, faultPresent := (s.lines.at p).faultPresent }
              ∧ t.buffers.at p = DigitBuffer.empty
          else t.lines.at p = s.lines.at p ∧ t.buffers.at p = s.buffers.at p ∧ t.scan.at p = s.scan.at p)
      ∧ t.apartFromPort = ({ s with
          mode := t.mode, waitQueue := [], lines := t.lines, scan := t.scan, buffers := t.buffers } : State).apartFromPort)
  ∧ (∀ (num : Byte) (s : State), Takes num 0x02 [1] s → s.mode ≠ .config → QueuesBounded s → CallsAgree s → s.bus = .free →
    (∀ g, (s.groups.at g).state ≠ .standbyPending) →
    Room (s.waitQueue.length + (allPorts.filter fun p => (s.lines.at p).state.holdsSlot).length + 1) s →
    Answers (.configEnterForce num [1]) s fun t =>
      Replied t num .done ∧ t.mode = .config ∧ t.waitQueue = []
      ∧ Made s t (s.waitQueue.map (fun p => .callEvent p .parked (.because .config))
          ++ (allPorts.filter fun p => (s.lines.at p).state.holdsSlot).map (fun p =>
            .callEvent p (if (s.lines.at p).state.called then .idle else .parked) (.because .config))
          ++ [.modeEvent .config .request])
      ∧ (∀ p, t.lines.at p = if (s.lines.at p).state.called = true then
            { Line.unequipped with state := .idle, faultPresent := (s.lines.at p).faultPresent }
          else if (s.lines.at p).state = .queued ∨ (s.lines.at p).state.holdsSlot = true then
            { Line.unequipped with state := .parked, faultPresent := (s.lines.at p).faultPresent }
          else s.lines.at p)
      ∧ (∀ i, (s.slots.at i).call? = none → t.slots.at i = s.slots.at i)
      ∧ (∀ i, ((s.slots.at i).isHeld = true ∨ ((s.slots.at i).call?.isSome = true ∧ UnsentSeize s i)) →
          t.slots.at i = released (s.slots.at i).blockPending ∧ hasEntry t i = false)
      ∧ (∀ i, ∀ c ∈ (s.slots.at i).call?, (s.slots.at i).isHeld = false → ¬ UnsentSeize s i →
          t.slots.at i = .clearing c.line c.tag (.awaitAck .config) (s.slots.at i).blockPending
            ∧ ((∃ e ∈ t.txq, e.slot? = some i ∧ e.slotMsg? = some (.clear .config)) ∨ (t.sig.at i).owed = some (.clear .config)))
      ∧ t.inFlight = s.inFlight ∧ t.holdover = none ∧ t.bus = .free ∧ t.groups = s.groups
      ∧ (∀ k, t.cells.at k = []) ∧ t.ringQueue = [] ∧ (∀ p, t.ringDrive.at p = false)
      ∧ t.apartFromCalls = s.apartFromCalls)

/-- CONFIG_EXIT acts by the mode and the self-test result: from CONFIG to NORMAL unless the result is FAIL, refused with NOT_YET in
CONFIG_PENDING, and DONE with nothing changed in NORMAL. -/
def Obligations.ConfigExitActsByTheMode : Prop :=
  ∀ (num : Byte) (s : State), Takes num 0x03 [] s → s.waitQueue = [] → EventsFinished s → Room 1 s →
    Answers (.configExit num []) s fun t =>
      match s.mode with
      | .config =>
        if s.selfTest = .fail then Replied t num (.refused .selfTestFailed) ∧ Made s t [] ∧ t.apartFromPort = s.apartFromPort
        else Replied t num .done ∧ Made s t [.modeEvent .normal .request]
          ∧ t.apartFromPort = ({ s with mode := .normal } : State).apartFromPort
      | .configPending => Replied t num (.refused .notYet) ∧ Made s t [] ∧ t.apartFromPort = s.apartFromPort
      | .normal => Replied t num .done ∧ Made s t [] ∧ t.apartFromPort = s.apartFromPort

/-! ## The calls in agreement, after every step -/

/-- Every step keeps the calls in agreement: a line names a slot exactly in the states that hold one, and that slot names the line in
the state that goes with it; no two entries of the transmit queue name one slot (so that, with the four that name none, it holds at most
24), and each fits its slot; a reply timer and an owed item stand only where they belong; the test bus names its line. -/
def Obligations.StepKeepsCallsAgree : Prop :=
  ∀ s t : State, FreeListAgrees s → QueuesBounded s → CallsAgree s → step s = .next t → CallsAgree t

end
end

