-- ==== Sys2Proof/Laws/State.lean ====
section
/-! SUPPORT. What each record update leaves and writes, one lemma for each field of the state. -/

namespace Sys2Proof.Machine

section setPort
variable (p : Port) (r : PortRole) (s : State)
@[simp] theorem setPort_pending : (setPort p r s).pending = s.pending := rfl
@[simp] theorem setPort_power : (setPort p r s).power = s.power := rfl
@[simp] theorem setPort_freeIndex : (setPort p r s).freeIndex = s.freeIndex := rfl
@[simp] theorem setPort_hookPin : (setPort p r s).hookPin = s.hookPin := rfl
@[simp] theorem setPort_faultPin : (setPort p r s).faultPin = s.faultPin := rfl
@[simp] theorem setPort_codecIn : (setPort p r s).codecIn = s.codecIn := rfl
@[simp] theorem setPort_ringDrive : (setPort p r s).ringDrive = s.ringDrive := rfl
@[simp] theorem setPort_rxBearer : (setPort p r s).rxBearer = s.rxBearer := rfl
@[simp] theorem setPort_trunkTx : (setPort p r s).trunkTx = s.trunkTx := rfl
@[simp] theorem setPort_ports : (setPort p r s).ports = s.ports.put p r := rfl
@[simp] theorem setPort_scan : (setPort p r s).scan = s.scan := rfl
@[simp] theorem setPort_buffers : (setPort p r s).buffers = s.buffers := rfl
@[simp] theorem setPort_groups : (setPort p r s).groups = s.groups := rfl
@[simp] theorem setPort_oddSample : (setPort p r s).oddSample = s.oddSample := rfl
@[simp] theorem setPort_lines : (setPort p r s).lines = s.lines := rfl
@[simp] theorem setPort_slots : (setPort p r s).slots = s.slots := rfl
@[simp] theorem setPort_free : (setPort p r s).free = s.free := rfl
@[simp] theorem setPort_waitQueue : (setPort p r s).waitQueue = s.waitQueue := rfl
@[simp] theorem setPort_posture : (setPort p r s).posture = s.posture := rfl
@[simp] theorem setPort_mark : (setPort p r s).mark = s.mark := rfl
@[simp] theorem setPort_nextTag : (setPort p r s).nextTag = s.nextTag := rfl
@[simp] theorem setPort_nextOrder : (setPort p r s).nextOrder = s.nextOrder := rfl
@[simp] theorem setPort_phase : (setPort p r s).phase = s.phase := rfl
@[simp] theorem setPort_phaseMs : (setPort p r s).phaseMs = s.phaseMs := rfl
@[simp] theorem setPort_cells : (setPort p r s).cells = s.cells := rfl
@[simp] theorem setPort_nextPlacement : (setPort p r s).nextPlacement = s.nextPlacement := rfl
@[simp] theorem setPort_ringQueue : (setPort p r s).ringQueue = s.ringQueue := rfl
@[simp] theorem setPort_align : (setPort p r s).align = s.align := rfl
@[simp] theorem setPort_badWords : (setPort p r s).badWords = s.badWords := rfl
@[simp] theorem setPort_foundWords : (setPort p r s).foundWords = s.foundWords := rfl
@[simp] theorem setPort_huntAt : (setPort p r s).huntAt = s.huntAt := rfl
@[simp] theorem setPort_lastOctet : (setPort p r s).lastOctet = s.lastOctet := rfl
@[simp] theorem setPort_frameEnd : (setPort p r s).frameEnd = s.frameEnd := rfl
@[simp] theorem setPort_frameHead : (setPort p r s).frameHead = s.frameHead := rfl
@[simp] theorem setPort_score : (setPort p r s).score = s.score := rfl
@[simp] theorem setPort_link : (setPort p r s).link = s.link := rfl
@[simp] theorem setPort_run : (setPort p r s).run = s.run := rfl
@[simp] theorem setPort_releaseFlag : (setPort p r s).releaseFlag = s.releaseFlag := rfl
@[simp] theorem setPort_holdover : (setPort p r s).holdover = s.holdover := rfl
@[simp] theorem setPort_restartTimer : (setPort p r s).restartTimer = s.restartTimer := rfl
@[simp] theorem setPort_restartOwed : (setPort p r s).restartOwed = s.restartOwed := rfl
@[simp] theorem setPort_restartRepeat : (setPort p r s).restartRepeat = s.restartRepeat := rfl
@[simp] theorem setPort_txq : (setPort p r s).txq = s.txq := rfl
@[simp] theorem setPort_inFlight : (setPort p r s).inFlight = s.inFlight := rfl
@[simp] theorem setPort_flow : (setPort p r s).flow = s.flow := rfl
@[simp] theorem setPort_sig : (setPort p r s).sig = s.sig := rfl
@[simp] theorem setPort_assembler : (setPort p r s).assembler = s.assembler := rfl
@[simp] theorem setPort_bus : (setPort p r s).bus = s.bus := rfl
@[simp] theorem setPort_mode : (setPort p r s).mode = s.mode := rfl
@[simp] theorem setPort_params : (setPort p r s).params = s.params := rfl
@[simp] theorem setPort_selfTest : (setPort p r s).selfTest = s.selfTest := rfl
@[simp] theorem setPort_rate : (setPort p r s).rate = s.rate := rfl
@[simp] theorem setPort_receiver : (setPort p r s).receiver = s.receiver := rfl
@[simp] theorem setPort_requests : (setPort p r s).requests = s.requests := rfl
@[simp] theorem setPort_reply : (setPort p r s).reply = s.reply := rfl
@[simp] theorem setPort_tx : (setPort p r s).tx = s.tx := rfl
@[simp] theorem setPort_reports : (setPort p r s).reports = s.reports := rfl
@[simp] theorem setPort_requestLost : (setPort p r s).requestLost = s.requestLost := rfl
@[simp] theorem setPort_reportLost : (setPort p r s).reportLost = s.reportLost := rfl
@[simp] theorem setPort_alarms : (setPort p r s).alarms = s.alarms := rfl
@[simp] theorem setPort_warm : (setPort p r s).warm = s.warm := rfl
end setPort

section setScan
variable (p : Port) (c : Scanner) (s : State)
@[simp] theorem setScan_pending : (setScan p c s).pending = s.pending := rfl
@[simp] theorem setScan_power : (setScan p c s).power = s.power := rfl
@[simp] theorem setScan_freeIndex : (setScan p c s).freeIndex = s.freeIndex := rfl
@[simp] theorem setScan_hookPin : (setScan p c s).hookPin = s.hookPin := rfl
@[simp] theorem setScan_faultPin : (setScan p c s).faultPin = s.faultPin := rfl
@[simp] theorem setScan_codecIn : (setScan p c s).codecIn = s.codecIn := rfl
@[simp] theorem setScan_ringDrive : (setScan p c s).ringDrive = s.ringDrive := rfl
@[simp] theorem setScan_rxBearer : (setScan p c s).rxBearer = s.rxBearer := rfl
@[simp] theorem setScan_trunkTx : (setScan p c s).trunkTx = s.trunkTx := rfl
@[simp] theorem setScan_ports : (setScan p c s).ports = s.ports := rfl
@[simp] theorem setScan_scan : (setScan p c s).scan = s.scan.put p c := rfl
@[simp] theorem setScan_buffers : (setScan p c s).buffers = s.buffers := rfl
@[simp] theorem setScan_groups : (setScan p c s).groups = s.groups := rfl
@[simp] theorem setScan_oddSample : (setScan p c s).oddSample = s.oddSample := rfl
@[simp] theorem setScan_lines : (setScan p c s).lines = s.lines := rfl
@[simp] theorem setScan_slots : (setScan p c s).slots = s.slots := rfl
@[simp] theorem setScan_free : (setScan p c s).free = s.free := rfl
@[simp] theorem setScan_waitQueue : (setScan p c s).waitQueue = s.waitQueue := rfl
@[simp] theorem setScan_posture : (setScan p c s).posture = s.posture := rfl
@[simp] theorem setScan_mark : (setScan p c s).mark = s.mark := rfl
@[simp] theorem setScan_nextTag : (setScan p c s).nextTag = s.nextTag := rfl
@[simp] theorem setScan_nextOrder : (setScan p c s).nextOrder = s.nextOrder := rfl
@[simp] theorem setScan_phase : (setScan p c s).phase = s.phase := rfl
@[simp] theorem setScan_phaseMs : (setScan p c s).phaseMs = s.phaseMs := rfl
@[simp] theorem setScan_cells : (setScan p c s).cells = s.cells := rfl
@[simp] theorem setScan_nextPlacement : (setScan p c s).nextPlacement = s.nextPlacement := rfl
@[simp] theorem setScan_ringQueue : (setScan p c s).ringQueue = s.ringQueue := rfl
@[simp] theorem setScan_align : (setScan p c s).align = s.align := rfl
@[simp] theorem setScan_badWords : (setScan p c s).badWords = s.badWords := rfl
@[simp] theorem setScan_foundWords : (setScan p c s).foundWords = s.foundWords := rfl
@[simp] theorem setScan_huntAt : (setScan p c s).huntAt = s.huntAt := rfl
@[simp] theorem setScan_lastOctet : (setScan p c s).lastOctet = s.lastOctet := rfl
@[simp] theorem setScan_frameEnd : (setScan p c s).frameEnd = s.frameEnd := rfl
@[simp] theorem setScan_frameHead : (setScan p c s).frameHead = s.frameHead := rfl
@[simp] theorem setScan_score : (setScan p c s).score = s.score := rfl
@[simp] theorem setScan_link : (setScan p c s).link = s.link := rfl
@[simp] theorem setScan_run : (setScan p c s).run = s.run := rfl
@[simp] theorem setScan_releaseFlag : (setScan p c s).releaseFlag = s.releaseFlag := rfl
@[simp] theorem setScan_holdover : (setScan p c s).holdover = s.holdover := rfl
@[simp] theorem setScan_restartTimer : (setScan p c s).restartTimer = s.restartTimer := rfl
@[simp] theorem setScan_restartOwed : (setScan p c s).restartOwed = s.restartOwed := rfl
@[simp] theorem setScan_restartRepeat : (setScan p c s).restartRepeat = s.restartRepeat := rfl
@[simp] theorem setScan_txq : (setScan p c s).txq = s.txq := rfl
@[simp] theorem setScan_inFlight : (setScan p c s).inFlight = s.inFlight := rfl
@[simp] theorem setScan_flow : (setScan p c s).flow = s.flow := rfl
@[simp] theorem setScan_sig : (setScan p c s).sig = s.sig := rfl
@[simp] theorem setScan_assembler : (setScan p c s).assembler = s.assembler := rfl
@[simp] theorem setScan_bus : (setScan p c s).bus = s.bus := rfl
@[simp] theorem setScan_mode : (setScan p c s).mode = s.mode := rfl
@[simp] theorem setScan_params : (setScan p c s).params = s.params := rfl
@[simp] theorem setScan_selfTest : (setScan p c s).selfTest = s.selfTest := rfl
@[simp] theorem setScan_rate : (setScan p c s).rate = s.rate := rfl
@[simp] theorem setScan_receiver : (setScan p c s).receiver = s.receiver := rfl
@[simp] theorem setScan_requests : (setScan p c s).requests = s.requests := rfl
@[simp] theorem setScan_reply : (setScan p c s).reply = s.reply := rfl
@[simp] theorem setScan_tx : (setScan p c s).tx = s.tx := rfl
@[simp] theorem setScan_reports : (setScan p c s).reports = s.reports := rfl
@[simp] theorem setScan_requestLost : (setScan p c s).requestLost = s.requestLost := rfl
@[simp] theorem setScan_reportLost : (setScan p c s).reportLost = s.reportLost := rfl
@[simp] theorem setScan_alarms : (setScan p c s).alarms = s.alarms := rfl
@[simp] theorem setScan_warm : (setScan p c s).warm = s.warm := rfl
end setScan

section setBuffer
variable (p : Port) (b : DigitBuffer) (s : State)
@[simp] theorem setBuffer_pending : (setBuffer p b s).pending = s.pending := rfl
@[simp] theorem setBuffer_power : (setBuffer p b s).power = s.power := rfl
@[simp] theorem setBuffer_freeIndex : (setBuffer p b s).freeIndex = s.freeIndex := rfl
@[simp] theorem setBuffer_hookPin : (setBuffer p b s).hookPin = s.hookPin := rfl
@[simp] theorem setBuffer_faultPin : (setBuffer p b s).faultPin = s.faultPin := rfl
@[simp] theorem setBuffer_codecIn : (setBuffer p b s).codecIn = s.codecIn := rfl
@[simp] theorem setBuffer_ringDrive : (setBuffer p b s).ringDrive = s.ringDrive := rfl
@[simp] theorem setBuffer_rxBearer : (setBuffer p b s).rxBearer = s.rxBearer := rfl
@[simp] theorem setBuffer_trunkTx : (setBuffer p b s).trunkTx = s.trunkTx := rfl
@[simp] theorem setBuffer_ports : (setBuffer p b s).ports = s.ports := rfl
@[simp] theorem setBuffer_scan : (setBuffer p b s).scan = s.scan := rfl
@[simp] theorem setBuffer_buffers : (setBuffer p b s).buffers = s.buffers.put p b := rfl
@[simp] theorem setBuffer_groups : (setBuffer p b s).groups = s.groups := rfl
@[simp] theorem setBuffer_oddSample : (setBuffer p b s).oddSample = s.oddSample := rfl
@[simp] theorem setBuffer_lines : (setBuffer p b s).lines = s.lines := rfl
@[simp] theorem setBuffer_slots : (setBuffer p b s).slots = s.slots := rfl
@[simp] theorem setBuffer_free : (setBuffer p b s).free = s.free := rfl
@[simp] theorem setBuffer_waitQueue : (setBuffer p b s).waitQueue = s.waitQueue := rfl
@[simp] theorem setBuffer_posture : (setBuffer p b s).posture = s.posture := rfl
@[simp] theorem setBuffer_mark : (setBuffer p b s).mark = s.mark := rfl
@[simp] theorem setBuffer_nextTag : (setBuffer p b s).nextTag = s.nextTag := rfl
@[simp] theorem setBuffer_nextOrder : (setBuffer p b s).nextOrder = s.nextOrder := rfl
@[simp] theorem setBuffer_phase : (setBuffer p b s).phase = s.phase := rfl
@[simp] theorem setBuffer_phaseMs : (setBuffer p b s).phaseMs = s.phaseMs := rfl
@[simp] theorem setBuffer_cells : (setBuffer p b s).cells = s.cells := rfl
@[simp] theorem setBuffer_nextPlacement : (setBuffer p b s).nextPlacement = s.nextPlacement := rfl
@[simp] theorem setBuffer_ringQueue : (setBuffer p b s).ringQueue = s.ringQueue := rfl
@[simp] theorem setBuffer_align : (setBuffer p b s).align = s.align := rfl
@[simp] theorem setBuffer_badWords : (setBuffer p b s).badWords = s.badWords := rfl
@[simp] theorem setBuffer_foundWords : (setBuffer p b s).foundWords = s.foundWords := rfl
@[simp] theorem setBuffer_huntAt : (setBuffer p b s).huntAt = s.huntAt := rfl
@[simp] theorem setBuffer_lastOctet : (setBuffer p b s).lastOctet = s.lastOctet := rfl
@[simp] theorem setBuffer_frameEnd : (setBuffer p b s).frameEnd = s.frameEnd := rfl
@[simp] theorem setBuffer_frameHead : (setBuffer p b s).frameHead = s.frameHead := rfl
@[simp] theorem setBuffer_score : (setBuffer p b s).score = s.score := rfl
@[simp] theorem setBuffer_link : (setBuffer p b s).link = s.link := rfl
@[simp] theorem setBuffer_run : (setBuffer p b s).run = s.run := rfl
@[simp] theorem setBuffer_releaseFlag : (setBuffer p b s).releaseFlag = s.releaseFlag := rfl
@[simp] theorem setBuffer_holdover : (setBuffer p b s).holdover = s.holdover := rfl
@[simp] theorem setBuffer_restartTimer : (setBuffer p b s).restartTimer = s.restartTimer := rfl
@[simp] theorem setBuffer_restartOwed : (setBuffer p b s).restartOwed = s.restartOwed := rfl
@[simp] theorem setBuffer_restartRepeat : (setBuffer p b s).restartRepeat = s.restartRepeat := rfl
@[simp] theorem setBuffer_txq : (setBuffer p b s).txq = s.txq := rfl
@[simp] theorem setBuffer_inFlight : (setBuffer p b s).inFlight = s.inFlight := rfl
@[simp] theorem setBuffer_flow : (setBuffer p b s).flow = s.flow := rfl
@[simp] theorem setBuffer_sig : (setBuffer p b s).sig = s.sig := rfl
@[simp] theorem setBuffer_assembler : (setBuffer p b s).assembler = s.assembler := rfl
@[simp] theorem setBuffer_bus : (setBuffer p b s).bus = s.bus := rfl
@[simp] theorem setBuffer_mode : (setBuffer p b s).mode = s.mode := rfl
@[simp] theorem setBuffer_params : (setBuffer p b s).params = s.params := rfl
@[simp] theorem setBuffer_selfTest : (setBuffer p b s).selfTest = s.selfTest := rfl
@[simp] theorem setBuffer_rate : (setBuffer p b s).rate = s.rate := rfl
@[simp] theorem setBuffer_receiver : (setBuffer p b s).receiver = s.receiver := rfl
@[simp] theorem setBuffer_requests : (setBuffer p b s).requests = s.requests := rfl
@[simp] theorem setBuffer_reply : (setBuffer p b s).reply = s.reply := rfl
@[simp] theorem setBuffer_tx : (setBuffer p b s).tx = s.tx := rfl
@[simp] theorem setBuffer_reports : (setBuffer p b s).reports = s.reports := rfl
@[simp] theorem setBuffer_requestLost : (setBuffer p b s).requestLost = s.requestLost := rfl
@[simp] theorem setBuffer_reportLost : (setBuffer p b s).reportLost = s.reportLost := rfl
@[simp] theorem setBuffer_alarms : (setBuffer p b s).alarms = s.alarms := rfl
@[simp] theorem setBuffer_warm : (setBuffer p b s).warm = s.warm := rfl
end setBuffer

section setGroup
variable (g : GroupId) (r : Group) (s : State)
@[simp] theorem setGroup_pending : (setGroup g r s).pending = s.pending := rfl
@[simp] theorem setGroup_power : (setGroup g r s).power = s.power := rfl
@[simp] theorem setGroup_freeIndex : (setGroup g r s).freeIndex = s.freeIndex := rfl
@[simp] theorem setGroup_hookPin : (setGroup g r s).hookPin = s.hookPin := rfl
@[simp] theorem setGroup_faultPin : (setGroup g r s).faultPin = s.faultPin := rfl
@[simp] theorem setGroup_codecIn : (setGroup g r s).codecIn = s.codecIn := rfl
@[simp] theorem setGroup_ringDrive : (setGroup g r s).ringDrive = s.ringDrive := rfl
@[simp] theorem setGroup_rxBearer : (setGroup g r s).rxBearer = s.rxBearer := rfl
@[simp] theorem setGroup_trunkTx : (setGroup g r s).trunkTx = s.trunkTx := rfl
@[simp] theorem setGroup_ports : (setGroup g r s).ports = s.ports := rfl
@[simp] theorem setGroup_scan : (setGroup g r s).scan = s.scan := rfl
@[simp] theorem setGroup_buffers : (setGroup g r s).buffers = s.buffers := rfl
@[simp] theorem setGroup_groups : (setGroup g r s).groups = s.groups.put g r := rfl
@[simp] theorem setGroup_oddSample : (setGroup g r s).oddSample = s.oddSample := rfl
@[simp] theorem setGroup_lines : (setGroup g r s).lines = s.lines := rfl
@[simp] theorem setGroup_slots : (setGroup g r s).slots = s.slots := rfl
@[simp] theorem setGroup_free : (setGroup g r s).free = s.free := rfl
@[simp] theorem setGroup_waitQueue : (setGroup g r s).waitQueue = s.waitQueue := rfl
@[simp] theorem setGroup_posture : (setGroup g r s).posture = s.posture := rfl
@[simp] theorem setGroup_mark : (setGroup g r s).mark = s.mark := rfl
@[simp] theorem setGroup_nextTag : (setGroup g r s).nextTag = s.nextTag := rfl
@[simp] theorem setGroup_nextOrder : (setGroup g r s).nextOrder = s.nextOrder := rfl
@[simp] theorem setGroup_phase : (setGroup g r s).phase = s.phase := rfl
@[simp] theorem setGroup_phaseMs : (setGroup g r s).phaseMs = s.phaseMs := rfl
@[simp] theorem setGroup_cells : (setGroup g r s).cells = s.cells := rfl
@[simp] theorem setGroup_nextPlacement : (setGroup g r s).nextPlacement = s.nextPlacement := rfl
@[simp] theorem setGroup_ringQueue : (setGroup g r s).ringQueue = s.ringQueue := rfl
@[simp] theorem setGroup_align : (setGroup g r s).align = s.align := rfl
@[simp] theorem setGroup_badWords : (setGroup g r s).badWords = s.badWords := rfl
@[simp] theorem setGroup_foundWords : (setGroup g r s).foundWords = s.foundWords := rfl
@[simp] theorem setGroup_huntAt : (setGroup g r s).huntAt = s.huntAt := rfl
@[simp] theorem setGroup_lastOctet : (setGroup g r s).lastOctet = s.lastOctet := rfl
@[simp] theorem setGroup_frameEnd : (setGroup g r s).frameEnd = s.frameEnd := rfl
@[simp] theorem setGroup_frameHead : (setGroup g r s).frameHead = s.frameHead := rfl
@[simp] theorem setGroup_score : (setGroup g r s).score = s.score := rfl
@[simp] theorem setGroup_link : (setGroup g r s).link = s.link := rfl
@[simp] theorem setGroup_run : (setGroup g r s).run = s.run := rfl
@[simp] theorem setGroup_releaseFlag : (setGroup g r s).releaseFlag = s.releaseFlag := rfl
@[simp] theorem setGroup_holdover : (setGroup g r s).holdover = s.holdover := rfl
@[simp] theorem setGroup_restartTimer : (setGroup g r s).restartTimer = s.restartTimer := rfl
@[simp] theorem setGroup_restartOwed : (setGroup g r s).restartOwed = s.restartOwed := rfl
@[simp] theorem setGroup_restartRepeat : (setGroup g r s).restartRepeat = s.restartRepeat := rfl
@[simp] theorem setGroup_txq : (setGroup g r s).txq = s.txq := rfl
@[simp] theorem setGroup_inFlight : (setGroup g r s).inFlight = s.inFlight := rfl
@[simp] theorem setGroup_flow : (setGroup g r s).flow = s.flow := rfl
@[simp] theorem setGroup_sig : (setGroup g r s).sig = s.sig := rfl
@[simp] theorem setGroup_assembler : (setGroup g r s).assembler = s.assembler := rfl
@[simp] theorem setGroup_bus : (setGroup g r s).bus = s.bus := rfl
@[simp] theorem setGroup_mode : (setGroup g r s).mode = s.mode := rfl
@[simp] theorem setGroup_params : (setGroup g r s).params = s.params := rfl
@[simp] theorem setGroup_selfTest : (setGroup g r s).selfTest = s.selfTest := rfl
@[simp] theorem setGroup_rate : (setGroup g r s).rate = s.rate := rfl
@[simp] theorem setGroup_receiver : (setGroup g r s).receiver = s.receiver := rfl
@[simp] theorem setGroup_requests : (setGroup g r s).requests = s.requests := rfl
@[simp] theorem setGroup_reply : (setGroup g r s).reply = s.reply := rfl
@[simp] theorem setGroup_tx : (setGroup g r s).tx = s.tx := rfl
@[simp] theorem setGroup_reports : (setGroup g r s).reports = s.reports := rfl
@[simp] theorem setGroup_requestLost : (setGroup g r s).requestLost = s.requestLost := rfl
@[simp] theorem setGroup_reportLost : (setGroup g r s).reportLost = s.reportLost := rfl
@[simp] theorem setGroup_alarms : (setGroup g r s).alarms = s.alarms := rfl
@[simp] theorem setGroup_warm : (setGroup g r s).warm = s.warm := rfl
end setGroup

section setLine
variable (p : Port) (l : Line) (s : State)
@[simp] theorem setLine_pending : (setLine p l s).pending = s.pending := rfl
@[simp] theorem setLine_power : (setLine p l s).power = s.power := rfl
@[simp] theorem setLine_freeIndex : (setLine p l s).freeIndex = s.freeIndex := rfl
@[simp] theorem setLine_hookPin : (setLine p l s).hookPin = s.hookPin := rfl
@[simp] theorem setLine_faultPin : (setLine p l s).faultPin = s.faultPin := rfl
@[simp] theorem setLine_codecIn : (setLine p l s).codecIn = s.codecIn := rfl
@[simp] theorem setLine_ringDrive : (setLine p l s).ringDrive = s.ringDrive := rfl
@[simp] theorem setLine_rxBearer : (setLine p l s).rxBearer = s.rxBearer := rfl
@[simp] theorem setLine_trunkTx : (setLine p l s).trunkTx = s.trunkTx := rfl
@[simp] theorem setLine_ports : (setLine p l s).ports = s.ports := rfl
@[simp] theorem setLine_scan : (setLine p l s).scan = s.scan := rfl
@[simp] theorem setLine_buffers : (setLine p l s).buffers = s.buffers := rfl
@[simp] theorem setLine_groups : (setLine p l s).groups = s.groups := rfl
@[simp] theorem setLine_oddSample : (setLine p l s).oddSample = s.oddSample := rfl
@[simp] theorem setLine_lines : (setLine p l s).lines = s.lines.put p l := rfl
@[simp] theorem setLine_slots : (setLine p l s).slots = s.slots := rfl
@[simp] theorem setLine_free : (setLine p l s).free = s.free := rfl
@[simp] theorem setLine_waitQueue : (setLine p l s).waitQueue = s.waitQueue := rfl
@[simp] theorem setLine_posture : (setLine p l s).posture = s.posture := rfl
@[simp] theorem setLine_mark : (setLine p l s).mark = s.mark := rfl
@[simp] theorem setLine_nextTag : (setLine p l s).nextTag = s.nextTag := rfl
@[simp] theorem setLine_nextOrder : (setLine p l s).nextOrder = s.nextOrder := rfl
@[simp] theorem setLine_phase : (setLine p l s).phase = s.phase := rfl
@[simp] theorem setLine_phaseMs : (setLine p l s).phaseMs = s.phaseMs := rfl
@[simp] theorem setLine_cells : (setLine p l s).cells = s.cells := rfl
@[simp] theorem setLine_nextPlacement : (setLine p l s).nextPlacement = s.nextPlacement := rfl
@[simp] theorem setLine_ringQueue : (setLine p l s).ringQueue = s.ringQueue := rfl
@[simp] theorem setLine_align : (setLine p l s).align = s.align := rfl
@[simp] theorem setLine_badWords : (setLine p l s).badWords = s.badWords := rfl
@[simp] theorem setLine_foundWords : (setLine p l s).foundWords = s.foundWords := rfl
@[simp] theorem setLine_huntAt : (setLine p l s).huntAt = s.huntAt := rfl
@[simp] theorem setLine_lastOctet : (setLine p l s).lastOctet = s.lastOctet := rfl
@[simp] theorem setLine_frameEnd : (setLine p l s).frameEnd = s.frameEnd := rfl
@[simp] theorem setLine_frameHead : (setLine p l s).frameHead = s.frameHead := rfl
@[simp] theorem setLine_score : (setLine p l s).score = s.score := rfl
@[simp] theorem setLine_link : (setLine p l s).link = s.link := rfl
@[simp] theorem setLine_run : (setLine p l s).run = s.run := rfl
@[simp] theorem setLine_releaseFlag : (setLine p l s).releaseFlag = s.releaseFlag := rfl
@[simp] theorem setLine_holdover : (setLine p l s).holdover = s.holdover := rfl
@[simp] theorem setLine_restartTimer : (setLine p l s).restartTimer = s.restartTimer := rfl
@[simp] theorem setLine_restartOwed : (setLine p l s).restartOwed = s.restartOwed := rfl
@[simp] theorem setLine_restartRepeat : (setLine p l s).restartRepeat = s.restartRepeat := rfl
@[simp] theorem setLine_txq : (setLine p l s).txq = s.txq := rfl
@[simp] theorem setLine_inFlight : (setLine p l s).inFlight = s.inFlight := rfl
@[simp] theorem setLine_flow : (setLine p l s).flow = s.flow := rfl
@[simp] theorem setLine_sig : (setLine p l s).sig = s.sig := rfl
@[simp] theorem setLine_assembler : (setLine p l s).assembler = s.assembler := rfl
@[simp] theorem setLine_bus : (setLine p l s).bus = s.bus := rfl
@[simp] theorem setLine_mode : (setLine p l s).mode = s.mode := rfl
@[simp] theorem setLine_params : (setLine p l s).params = s.params := rfl
@[simp] theorem setLine_selfTest : (setLine p l s).selfTest = s.selfTest := rfl
@[simp] theorem setLine_rate : (setLine p l s).rate = s.rate := rfl
@[simp] theorem setLine_receiver : (setLine p l s).receiver = s.receiver := rfl
@[simp] theorem setLine_requests : (setLine p l s).requests = s.requests := rfl
@[simp] theorem setLine_reply : (setLine p l s).reply = s.reply := rfl
@[simp] theorem setLine_tx : (setLine p l s).tx = s.tx := rfl
@[simp] theorem setLine_reports : (setLine p l s).reports = s.reports := rfl
@[simp] theorem setLine_requestLost : (setLine p l s).requestLost = s.requestLost := rfl
@[simp] theorem setLine_reportLost : (setLine p l s).reportLost = s.reportLost := rfl
@[simp] theorem setLine_alarms : (setLine p l s).alarms = s.alarms := rfl
@[simp] theorem setLine_warm : (setLine p l s).warm = s.warm := rfl
end setLine

section setSlot
variable (i : SlotId) (sl : Slot) (s : State)
@[simp] theorem setSlot_pending : (setSlot i sl s).pending = s.pending := rfl
@[simp] theorem setSlot_power : (setSlot i sl s).power = s.power := rfl
@[simp] theorem setSlot_freeIndex : (setSlot i sl s).freeIndex = s.freeIndex := rfl
@[simp] theorem setSlot_hookPin : (setSlot i sl s).hookPin = s.hookPin := rfl
@[simp] theorem setSlot_faultPin : (setSlot i sl s).faultPin = s.faultPin := rfl
@[simp] theorem setSlot_codecIn : (setSlot i sl s).codecIn = s.codecIn := rfl
@[simp] theorem setSlot_ringDrive : (setSlot i sl s).ringDrive = s.ringDrive := rfl
@[simp] theorem setSlot_rxBearer : (setSlot i sl s).rxBearer = s.rxBearer := rfl
@[simp] theorem setSlot_trunkTx : (setSlot i sl s).trunkTx = s.trunkTx := rfl
@[simp] theorem setSlot_ports : (setSlot i sl s).ports = s.ports := rfl
@[simp] theorem setSlot_scan : (setSlot i sl s).scan = s.scan := rfl
@[simp] theorem setSlot_buffers : (setSlot i sl s).buffers = s.buffers := rfl
@[simp] theorem setSlot_groups : (setSlot i sl s).groups = s.groups := rfl
@[simp] theorem setSlot_oddSample : (setSlot i sl s).oddSample = s.oddSample := rfl
@[simp] theorem setSlot_lines : (setSlot i sl s).lines = s.lines := rfl
@[simp] theorem setSlot_slots : (setSlot i sl s).slots = s.slots.put i sl := rfl
@[simp] theorem setSlot_free : (setSlot i sl s).free = s.free := rfl
@[simp] theorem setSlot_waitQueue : (setSlot i sl s).waitQueue = s.waitQueue := rfl
@[simp] theorem setSlot_posture : (setSlot i sl s).posture = s.posture := rfl
@[simp] theorem setSlot_mark : (setSlot i sl s).mark = s.mark := rfl
@[simp] theorem setSlot_nextTag : (setSlot i sl s).nextTag = s.nextTag := rfl
@[simp] theorem setSlot_nextOrder : (setSlot i sl s).nextOrder = s.nextOrder := rfl
@[simp] theorem setSlot_phase : (setSlot i sl s).phase = s.phase := rfl
@[simp] theorem setSlot_phaseMs : (setSlot i sl s).phaseMs = s.phaseMs := rfl
@[simp] theorem setSlot_cells : (setSlot i sl s).cells = s.cells := rfl
@[simp] theorem setSlot_nextPlacement : (setSlot i sl s).nextPlacement = s.nextPlacement := rfl
@[simp] theorem setSlot_ringQueue : (setSlot i sl s).ringQueue = s.ringQueue := rfl
@[simp] theorem setSlot_align : (setSlot i sl s).align = s.align := rfl
@[simp] theorem setSlot_badWords : (setSlot i sl s).badWords = s.badWords := rfl
@[simp] theorem setSlot_foundWords : (setSlot i sl s).foundWords = s.foundWords := rfl
@[simp] theorem setSlot_huntAt : (setSlot i sl s).huntAt = s.huntAt := rfl
@[simp] theorem setSlot_lastOctet : (setSlot i sl s).lastOctet = s.lastOctet := rfl
@[simp] theorem setSlot_frameEnd : (setSlot i sl s).frameEnd = s.frameEnd := rfl
@[simp] theorem setSlot_frameHead : (setSlot i sl s).frameHead = s.frameHead := rfl
@[simp] theorem setSlot_score : (setSlot i sl s).score = s.score := rfl
@[simp] theorem setSlot_link : (setSlot i sl s).link = s.link := rfl
@[simp] theorem setSlot_run : (setSlot i sl s).run = s.run := rfl
@[simp] theorem setSlot_releaseFlag : (setSlot i sl s).releaseFlag = s.releaseFlag := rfl
@[simp] theorem setSlot_holdover : (setSlot i sl s).holdover = s.holdover := rfl
@[simp] theorem setSlot_restartTimer : (setSlot i sl s).restartTimer = s.restartTimer := rfl
@[simp] theorem setSlot_restartOwed : (setSlot i sl s).restartOwed = s.restartOwed := rfl
@[simp] theorem setSlot_restartRepeat : (setSlot i sl s).restartRepeat = s.restartRepeat := rfl
@[simp] theorem setSlot_txq : (setSlot i sl s).txq = s.txq := rfl
@[simp] theorem setSlot_inFlight : (setSlot i sl s).inFlight = s.inFlight := rfl
@[simp] theorem setSlot_flow : (setSlot i sl s).flow = s.flow := rfl
@[simp] theorem setSlot_sig : (setSlot i sl s).sig = s.sig := rfl
@[simp] theorem setSlot_assembler : (setSlot i sl s).assembler = s.assembler := rfl
@[simp] theorem setSlot_bus : (setSlot i sl s).bus = s.bus := rfl
@[simp] theorem setSlot_mode : (setSlot i sl s).mode = s.mode := rfl
@[simp] theorem setSlot_params : (setSlot i sl s).params = s.params := rfl
@[simp] theorem setSlot_selfTest : (setSlot i sl s).selfTest = s.selfTest := rfl
@[simp] theorem setSlot_rate : (setSlot i sl s).rate = s.rate := rfl
@[simp] theorem setSlot_receiver : (setSlot i sl s).receiver = s.receiver := rfl
@[simp] theorem setSlot_requests : (setSlot i sl s).requests = s.requests := rfl
@[simp] theorem setSlot_reply : (setSlot i sl s).reply = s.reply := rfl
@[simp] theorem setSlot_tx : (setSlot i sl s).tx = s.tx := rfl
@[simp] theorem setSlot_reports : (setSlot i sl s).reports = s.reports := rfl
@[simp] theorem setSlot_requestLost : (setSlot i sl s).requestLost = s.requestLost := rfl
@[simp] theorem setSlot_reportLost : (setSlot i sl s).reportLost = s.reportLost := rfl
@[simp] theorem setSlot_alarms : (setSlot i sl s).alarms = s.alarms := rfl
@[simp] theorem setSlot_warm : (setSlot i sl s).warm = s.warm := rfl
end setSlot

section setSig
variable (i : SlotId) (g : Sig) (s : State)
@[simp] theorem setSig_pending : (setSig i g s).pending = s.pending := rfl
@[simp] theorem setSig_power : (setSig i g s).power = s.power := rfl
@[simp] theorem setSig_freeIndex : (setSig i g s).freeIndex = s.freeIndex := rfl
@[simp] theorem setSig_hookPin : (setSig i g s).hookPin = s.hookPin := rfl
@[simp] theorem setSig_faultPin : (setSig i g s).faultPin = s.faultPin := rfl
@[simp] theorem setSig_codecIn : (setSig i g s).codecIn = s.codecIn := rfl
@[simp] theorem setSig_ringDrive : (setSig i g s).ringDrive = s.ringDrive := rfl
@[simp] theorem setSig_rxBearer : (setSig i g s).rxBearer = s.rxBearer := rfl
@[simp] theorem setSig_trunkTx : (setSig i g s).trunkTx = s.trunkTx := rfl
@[simp] theorem setSig_ports : (setSig i g s).ports = s.ports := rfl
@[simp] theorem setSig_scan : (setSig i g s).scan = s.scan := rfl
@[simp] theorem setSig_buffers : (setSig i g s).buffers = s.buffers := rfl
@[simp] theorem setSig_groups : (setSig i g s).groups = s.groups := rfl
@[simp] theorem setSig_oddSample : (setSig i g s).oddSample = s.oddSample := rfl
@[simp] theorem setSig_lines : (setSig i g s).lines = s.lines := rfl
@[simp] theorem setSig_slots : (setSig i g s).slots = s.slots := rfl
@[simp] theorem setSig_free : (setSig i g s).free = s.free := rfl
@[simp] theorem setSig_waitQueue : (setSig i g s).waitQueue = s.waitQueue := rfl
@[simp] theorem setSig_posture : (setSig i g s).posture = s.posture := rfl
@[simp] theorem setSig_mark : (setSig i g s).mark = s.mark := rfl
@[simp] theorem setSig_nextTag : (setSig i g s).nextTag = s.nextTag := rfl
@[simp] theorem setSig_nextOrder : (setSig i g s).nextOrder = s.nextOrder := rfl
@[simp] theorem setSig_phase : (setSig i g s).phase = s.phase := rfl
@[simp] theorem setSig_phaseMs : (setSig i g s).phaseMs = s.phaseMs := rfl
@[simp] theorem setSig_cells : (setSig i g s).cells = s.cells := rfl
@[simp] theorem setSig_nextPlacement : (setSig i g s).nextPlacement = s.nextPlacement := rfl
@[simp] theorem setSig_ringQueue : (setSig i g s).ringQueue = s.ringQueue := rfl
@[simp] theorem setSig_align : (setSig i g s).align = s.align := rfl
@[simp] theorem setSig_badWords : (setSig i g s).badWords = s.badWords := rfl
@[simp] theorem setSig_foundWords : (setSig i g s).foundWords = s.foundWords := rfl
@[simp] theorem setSig_huntAt : (setSig i g s).huntAt = s.huntAt := rfl
@[simp] theorem setSig_lastOctet : (setSig i g s).lastOctet = s.lastOctet := rfl
@[simp] theorem setSig_frameEnd : (setSig i g s).frameEnd = s.frameEnd := rfl
@[simp] theorem setSig_frameHead : (setSig i g s).frameHead = s.frameHead := rfl
@[simp] theorem setSig_score : (setSig i g s).score = s.score := rfl
@[simp] theorem setSig_link : (setSig i g s).link = s.link := rfl
@[simp] theorem setSig_run : (setSig i g s).run = s.run := rfl
@[simp] theorem setSig_releaseFlag : (setSig i g s).releaseFlag = s.releaseFlag := rfl
@[simp] theorem setSig_holdover : (setSig i g s).holdover = s.holdover := rfl
@[simp] theorem setSig_restartTimer : (setSig i g s).restartTimer = s.restartTimer := rfl
@[simp] theorem setSig_restartOwed : (setSig i g s).restartOwed = s.restartOwed := rfl
@[simp] theorem setSig_restartRepeat : (setSig i g s).restartRepeat = s.restartRepeat := rfl
@[simp] theorem setSig_txq : (setSig i g s).txq = s.txq := rfl
@[simp] theorem setSig_inFlight : (setSig i g s).inFlight = s.inFlight := rfl
@[simp] theorem setSig_flow : (setSig i g s).flow = s.flow := rfl
@[simp] theorem setSig_sig : (setSig i g s).sig = s.sig.put i g := rfl
@[simp] theorem setSig_assembler : (setSig i g s).assembler = s.assembler := rfl
@[simp] theorem setSig_bus : (setSig i g s).bus = s.bus := rfl
@[simp] theorem setSig_mode : (setSig i g s).mode = s.mode := rfl
@[simp] theorem setSig_params : (setSig i g s).params = s.params := rfl
@[simp] theorem setSig_selfTest : (setSig i g s).selfTest = s.selfTest := rfl
@[simp] theorem setSig_rate : (setSig i g s).rate = s.rate := rfl
@[simp] theorem setSig_receiver : (setSig i g s).receiver = s.receiver := rfl
@[simp] theorem setSig_requests : (setSig i g s).requests = s.requests := rfl
@[simp] theorem setSig_reply : (setSig i g s).reply = s.reply := rfl
@[simp] theorem setSig_tx : (setSig i g s).tx = s.tx := rfl
@[simp] theorem setSig_reports : (setSig i g s).reports = s.reports := rfl
@[simp] theorem setSig_requestLost : (setSig i g s).requestLost = s.requestLost := rfl
@[simp] theorem setSig_reportLost : (setSig i g s).reportLost = s.reportLost := rfl
@[simp] theorem setSig_alarms : (setSig i g s).alarms = s.alarms := rfl
@[simp] theorem setSig_warm : (setSig i g s).warm = s.warm := rfl
end setSig

section setCell
variable (k : Fin 6) (c : List Placed) (s : State)
@[simp] theorem setCell_pending : (setCell k c s).pending = s.pending := rfl
@[simp] theorem setCell_power : (setCell k c s).power = s.power := rfl
@[simp] theorem setCell_freeIndex : (setCell k c s).freeIndex = s.freeIndex := rfl
@[simp] theorem setCell_hookPin : (setCell k c s).hookPin = s.hookPin := rfl
@[simp] theorem setCell_faultPin : (setCell k c s).faultPin = s.faultPin := rfl
@[simp] theorem setCell_codecIn : (setCell k c s).codecIn = s.codecIn := rfl
@[simp] theorem setCell_ringDrive : (setCell k c s).ringDrive = s.ringDrive := rfl
@[simp] theorem setCell_rxBearer : (setCell k c s).rxBearer = s.rxBearer := rfl
@[simp] theorem setCell_trunkTx : (setCell k c s).trunkTx = s.trunkTx := rfl
@[simp] theorem setCell_ports : (setCell k c s).ports = s.ports := rfl
@[simp] theorem setCell_scan : (setCell k c s).scan = s.scan := rfl
@[simp] theorem setCell_buffers : (setCell k c s).buffers = s.buffers := rfl
@[simp] theorem setCell_groups : (setCell k c s).groups = s.groups := rfl
@[simp] theorem setCell_oddSample : (setCell k c s).oddSample = s.oddSample := rfl
@[simp] theorem setCell_lines : (setCell k c s).lines = s.lines := rfl
@[simp] theorem setCell_slots : (setCell k c s).slots = s.slots := rfl
@[simp] theorem setCell_free : (setCell k c s).free = s.free := rfl
@[simp] theorem setCell_waitQueue : (setCell k c s).waitQueue = s.waitQueue := rfl
@[simp] theorem setCell_posture : (setCell k c s).posture = s.posture := rfl
@[simp] theorem setCell_mark : (setCell k c s).mark = s.mark := rfl
@[simp] theorem setCell_nextTag : (setCell k c s).nextTag = s.nextTag := rfl
@[simp] theorem setCell_nextOrder : (setCell k c s).nextOrder = s.nextOrder := rfl
@[simp] theorem setCell_phase : (setCell k c s).phase = s.phase := rfl
@[simp] theorem setCell_phaseMs : (setCell k c s).phaseMs = s.phaseMs := rfl
@[simp] theorem setCell_cells : (setCell k c s).cells = s.cells.put k c := rfl
@[simp] theorem setCell_nextPlacement : (setCell k c s).nextPlacement = s.nextPlacement := rfl
@[simp] theorem setCell_ringQueue : (setCell k c s).ringQueue = s.ringQueue := rfl
@[simp] theorem setCell_align : (setCell k c s).align = s.align := rfl
@[simp] theorem setCell_badWords : (setCell k c s).badWords = s.badWords := rfl
@[simp] theorem setCell_foundWords : (setCell k c s).foundWords = s.foundWords := rfl
@[simp] theorem setCell_huntAt : (setCell k c s).huntAt = s.huntAt := rfl
@[simp] theorem setCell_lastOctet : (setCell k c s).lastOctet = s.lastOctet := rfl
@[simp] theorem setCell_frameEnd : (setCell k c s).frameEnd = s.frameEnd := rfl
@[simp] theorem setCell_frameHead : (setCell k c s).frameHead = s.frameHead := rfl
@[simp] theorem setCell_score : (setCell k c s).score = s.score := rfl
@[simp] theorem setCell_link : (setCell k c s).link = s.link := rfl
@[simp] theorem setCell_run : (setCell k c s).run = s.run := rfl
@[simp] theorem setCell_releaseFlag : (setCell k c s).releaseFlag = s.releaseFlag := rfl
@[simp] theorem setCell_holdover : (setCell k c s).holdover = s.holdover := rfl
@[simp] theorem setCell_restartTimer : (setCell k c s).restartTimer = s.restartTimer := rfl
@[simp] theorem setCell_restartOwed : (setCell k c s).restartOwed = s.restartOwed := rfl
@[simp] theorem setCell_restartRepeat : (setCell k c s).restartRepeat = s.restartRepeat := rfl
@[simp] theorem setCell_txq : (setCell k c s).txq = s.txq := rfl
@[simp] theorem setCell_inFlight : (setCell k c s).inFlight = s.inFlight := rfl
@[simp] theorem setCell_flow : (setCell k c s).flow = s.flow := rfl
@[simp] theorem setCell_sig : (setCell k c s).sig = s.sig := rfl
@[simp] theorem setCell_assembler : (setCell k c s).assembler = s.assembler := rfl
@[simp] theorem setCell_bus : (setCell k c s).bus = s.bus := rfl
@[simp] theorem setCell_mode : (setCell k c s).mode = s.mode := rfl
@[simp] theorem setCell_params : (setCell k c s).params = s.params := rfl
@[simp] theorem setCell_selfTest : (setCell k c s).selfTest = s.selfTest := rfl
@[simp] theorem setCell_rate : (setCell k c s).rate = s.rate := rfl
@[simp] theorem setCell_receiver : (setCell k c s).receiver = s.receiver := rfl
@[simp] theorem setCell_requests : (setCell k c s).requests = s.requests := rfl
@[simp] theorem setCell_reply : (setCell k c s).reply = s.reply := rfl
@[simp] theorem setCell_tx : (setCell k c s).tx = s.tx := rfl
@[simp] theorem setCell_reports : (setCell k c s).reports = s.reports := rfl
@[simp] theorem setCell_requestLost : (setCell k c s).requestLost = s.requestLost := rfl
@[simp] theorem setCell_reportLost : (setCell k c s).reportLost = s.reportLost := rfl
@[simp] theorem setCell_alarms : (setCell k c s).alarms = s.alarms := rfl
@[simp] theorem setCell_warm : (setCell k c s).warm = s.warm := rfl
end setCell

section setHookPin
variable (p : Port) (closed : Bool) (s : State)
@[simp] theorem setHookPin_pending : (setHookPin p closed s).pending = s.pending := rfl
@[simp] theorem setHookPin_power : (setHookPin p closed s).power = s.power := rfl
@[simp] theorem setHookPin_freeIndex : (setHookPin p closed s).freeIndex = s.freeIndex := rfl
@[simp] theorem setHookPin_hookPin : (setHookPin p closed s).hookPin = s.hookPin.put p closed := rfl
@[simp] theorem setHookPin_faultPin : (setHookPin p closed s).faultPin = s.faultPin := rfl
@[simp] theorem setHookPin_codecIn : (setHookPin p closed s).codecIn = s.codecIn := rfl
@[simp] theorem setHookPin_ringDrive : (setHookPin p closed s).ringDrive = s.ringDrive := rfl
@[simp] theorem setHookPin_rxBearer : (setHookPin p closed s).rxBearer = s.rxBearer := rfl
@[simp] theorem setHookPin_trunkTx : (setHookPin p closed s).trunkTx = s.trunkTx := rfl
@[simp] theorem setHookPin_ports : (setHookPin p closed s).ports = s.ports := rfl
@[simp] theorem setHookPin_scan : (setHookPin p closed s).scan = s.scan := rfl
@[simp] theorem setHookPin_buffers : (setHookPin p closed s).buffers = s.buffers := rfl
@[simp] theorem setHookPin_groups : (setHookPin p closed s).groups = s.groups := rfl
@[simp] theorem setHookPin_oddSample : (setHookPin p closed s).oddSample = s.oddSample := rfl
@[simp] theorem setHookPin_lines : (setHookPin p closed s).lines = s.lines := rfl
@[simp] theorem setHookPin_slots : (setHookPin p closed s).slots = s.slots := rfl
@[simp] theorem setHookPin_free : (setHookPin p closed s).free = s.free := rfl
@[simp] theorem setHookPin_waitQueue : (setHookPin p closed s).waitQueue = s.waitQueue := rfl
@[simp] theorem setHookPin_posture : (setHookPin p closed s).posture = s.posture := rfl
@[simp] theorem setHookPin_mark : (setHookPin p closed s).mark = s.mark := rfl
@[simp] theorem setHookPin_nextTag : (setHookPin p closed s).nextTag = s.nextTag := rfl
@[simp] theorem setHookPin_nextOrder : (setHookPin p closed s).nextOrder = s.nextOrder := rfl
@[simp] theorem setHookPin_phase : (setHookPin p closed s).phase = s.phase := rfl
@[simp] theorem setHookPin_phaseMs : (setHookPin p closed s).phaseMs = s.phaseMs := rfl
@[simp] theorem setHookPin_cells : (setHookPin p closed s).cells = s.cells := rfl
@[simp] theorem setHookPin_nextPlacement : (setHookPin p closed s).nextPlacement = s.nextPlacement := rfl
@[simp] theorem setHookPin_ringQueue : (setHookPin p closed s).ringQueue = s.ringQueue := rfl
@[simp] theorem setHookPin_align : (setHookPin p closed s).align = s.align := rfl
@[simp] theorem setHookPin_badWords : (setHookPin p closed s).badWords = s.badWords := rfl
@[simp] theorem setHookPin_foundWords : (setHookPin p closed s).foundWords = s.foundWords := rfl
@[simp] theorem setHookPin_huntAt : (setHookPin p closed s).huntAt = s.huntAt := rfl
@[simp] theorem setHookPin_lastOctet : (setHookPin p closed s).lastOctet = s.lastOctet := rfl
@[simp] theorem setHookPin_frameEnd : (setHookPin p closed s).frameEnd = s.frameEnd := rfl
@[simp] theorem setHookPin_frameHead : (setHookPin p closed s).frameHead = s.frameHead := rfl
@[simp] theorem setHookPin_score : (setHookPin p closed s).score = s.score := rfl
@[simp] theorem setHookPin_link : (setHookPin p closed s).link = s.link := rfl
@[simp] theorem setHookPin_run : (setHookPin p closed s).run = s.run := rfl
@[simp] theorem setHookPin_releaseFlag : (setHookPin p closed s).releaseFlag = s.releaseFlag := rfl
@[simp] theorem setHookPin_holdover : (setHookPin p closed s).holdover = s.holdover := rfl
@[simp] theorem setHookPin_restartTimer : (setHookPin p closed s).restartTimer = s.restartTimer := rfl
@[simp] theorem setHookPin_restartOwed : (setHookPin p closed s).restartOwed = s.restartOwed := rfl
@[simp] theorem setHookPin_restartRepeat : (setHookPin p closed s).restartRepeat = s.restartRepeat := rfl
@[simp] theorem setHookPin_txq : (setHookPin p closed s).txq = s.txq := rfl
@[simp] theorem setHookPin_inFlight : (setHookPin p closed s).inFlight = s.inFlight := rfl
@[simp] theorem setHookPin_flow : (setHookPin p closed s).flow = s.flow := rfl
@[simp] theorem setHookPin_sig : (setHookPin p closed s).sig = s.sig := rfl
@[simp] theorem setHookPin_assembler : (setHookPin p closed s).assembler = s.assembler := rfl
@[simp] theorem setHookPin_bus : (setHookPin p closed s).bus = s.bus := rfl
@[simp] theorem setHookPin_mode : (setHookPin p closed s).mode = s.mode := rfl
@[simp] theorem setHookPin_params : (setHookPin p closed s).params = s.params := rfl
@[simp] theorem setHookPin_selfTest : (setHookPin p closed s).selfTest = s.selfTest := rfl
@[simp] theorem setHookPin_rate : (setHookPin p closed s).rate = s.rate := rfl
@[simp] theorem setHookPin_receiver : (setHookPin p closed s).receiver = s.receiver := rfl
@[simp] theorem setHookPin_requests : (setHookPin p closed s).requests = s.requests := rfl
@[simp] theorem setHookPin_reply : (setHookPin p closed s).reply = s.reply := rfl
@[simp] theorem setHookPin_tx : (setHookPin p closed s).tx = s.tx := rfl
@[simp] theorem setHookPin_reports : (setHookPin p closed s).reports = s.reports := rfl
@[simp] theorem setHookPin_requestLost : (setHookPin p closed s).requestLost = s.requestLost := rfl
@[simp] theorem setHookPin_reportLost : (setHookPin p closed s).reportLost = s.reportLost := rfl
@[simp] theorem setHookPin_alarms : (setHookPin p closed s).alarms = s.alarms := rfl
@[simp] theorem setHookPin_warm : (setHookPin p closed s).warm = s.warm := rfl
end setHookPin

section setFaultPin
variable (p : Port) (faulty : Bool) (s : State)
@[simp] theorem setFaultPin_pending : (setFaultPin p faulty s).pending = s.pending := rfl
@[simp] theorem setFaultPin_power : (setFaultPin p faulty s).power = s.power := rfl
@[simp] theorem setFaultPin_freeIndex : (setFaultPin p faulty s).freeIndex = s.freeIndex := rfl
@[simp] theorem setFaultPin_hookPin : (setFaultPin p faulty s).hookPin = s.hookPin := rfl
@[simp] theorem setFaultPin_faultPin : (setFaultPin p faulty s).faultPin = s.faultPin.put p faulty := rfl
@[simp] theorem setFaultPin_codecIn : (setFaultPin p faulty s).codecIn = s.codecIn := rfl
@[simp] theorem setFaultPin_ringDrive : (setFaultPin p faulty s).ringDrive = s.ringDrive := rfl
@[simp] theorem setFaultPin_rxBearer : (setFaultPin p faulty s).rxBearer = s.rxBearer := rfl
@[simp] theorem setFaultPin_trunkTx : (setFaultPin p faulty s).trunkTx = s.trunkTx := rfl
@[simp] theorem setFaultPin_ports : (setFaultPin p faulty s).ports = s.ports := rfl
@[simp] theorem setFaultPin_scan : (setFaultPin p faulty s).scan = s.scan := rfl
@[simp] theorem setFaultPin_buffers : (setFaultPin p faulty s).buffers = s.buffers := rfl
@[simp] theorem setFaultPin_groups : (setFaultPin p faulty s).groups = s.groups := rfl
@[simp] theorem setFaultPin_oddSample : (setFaultPin p faulty s).oddSample = s.oddSample := rfl
@[simp] theorem setFaultPin_lines : (setFaultPin p faulty s).lines = s.lines := rfl
@[simp] theorem setFaultPin_slots : (setFaultPin p faulty s).slots = s.slots := rfl
@[simp] theorem setFaultPin_free : (setFaultPin p faulty s).free = s.free := rfl
@[simp] theorem setFaultPin_waitQueue : (setFaultPin p faulty s).waitQueue = s.waitQueue := rfl
@[simp] theorem setFaultPin_posture : (setFaultPin p faulty s).posture = s.posture := rfl
@[simp] theorem setFaultPin_mark : (setFaultPin p faulty s).mark = s.mark := rfl
@[simp] theorem setFaultPin_nextTag : (setFaultPin p faulty s).nextTag = s.nextTag := rfl
@[simp] theorem setFaultPin_nextOrder : (setFaultPin p faulty s).nextOrder = s.nextOrder := rfl
@[simp] theorem setFaultPin_phase : (setFaultPin p faulty s).phase = s.phase := rfl
@[simp] theorem setFaultPin_phaseMs : (setFaultPin p faulty s).phaseMs = s.phaseMs := rfl
@[simp] theorem setFaultPin_cells : (setFaultPin p faulty s).cells = s.cells := rfl
@[simp] theorem setFaultPin_nextPlacement : (setFaultPin p faulty s).nextPlacement = s.nextPlacement := rfl
@[simp] theorem setFaultPin_ringQueue : (setFaultPin p faulty s).ringQueue = s.ringQueue := rfl
@[simp] theorem setFaultPin_align : (setFaultPin p faulty s).align = s.align := rfl
@[simp] theorem setFaultPin_badWords : (setFaultPin p faulty s).badWords = s.badWords := rfl
@[simp] theorem setFaultPin_foundWords : (setFaultPin p faulty s).foundWords = s.foundWords := rfl
@[simp] theorem setFaultPin_huntAt : (setFaultPin p faulty s).huntAt = s.huntAt := rfl
@[simp] theorem setFaultPin_lastOctet : (setFaultPin p faulty s).lastOctet = s.lastOctet := rfl
@[simp] theorem setFaultPin_frameEnd : (setFaultPin p faulty s).frameEnd = s.frameEnd := rfl
@[simp] theorem setFaultPin_frameHead : (setFaultPin p faulty s).frameHead = s.frameHead := rfl
@[simp] theorem setFaultPin_score : (setFaultPin p faulty s).score = s.score := rfl
@[simp] theorem setFaultPin_link : (setFaultPin p faulty s).link = s.link := rfl
@[simp] theorem setFaultPin_run : (setFaultPin p faulty s).run = s.run := rfl
@[simp] theorem setFaultPin_releaseFlag : (setFaultPin p faulty s).releaseFlag = s.releaseFlag := rfl
@[simp] theorem setFaultPin_holdover : (setFaultPin p faulty s).holdover = s.holdover := rfl
@[simp] theorem setFaultPin_restartTimer : (setFaultPin p faulty s).restartTimer = s.restartTimer := rfl
@[simp] theorem setFaultPin_restartOwed : (setFaultPin p faulty s).restartOwed = s.restartOwed := rfl
@[simp] theorem setFaultPin_restartRepeat : (setFaultPin p faulty s).restartRepeat = s.restartRepeat := rfl
@[simp] theorem setFaultPin_txq : (setFaultPin p faulty s).txq = s.txq := rfl
@[simp] theorem setFaultPin_inFlight : (setFaultPin p faulty s).inFlight = s.inFlight := rfl
@[simp] theorem setFaultPin_flow : (setFaultPin p faulty s).flow = s.flow := rfl
@[simp] theorem setFaultPin_sig : (setFaultPin p faulty s).sig = s.sig := rfl
@[simp] theorem setFaultPin_assembler : (setFaultPin p faulty s).assembler = s.assembler := rfl
@[simp] theorem setFaultPin_bus : (setFaultPin p faulty s).bus = s.bus := rfl
@[simp] theorem setFaultPin_mode : (setFaultPin p faulty s).mode = s.mode := rfl
@[simp] theorem setFaultPin_params : (setFaultPin p faulty s).params = s.params := rfl
@[simp] theorem setFaultPin_selfTest : (setFaultPin p faulty s).selfTest = s.selfTest := rfl
@[simp] theorem setFaultPin_rate : (setFaultPin p faulty s).rate = s.rate := rfl
@[simp] theorem setFaultPin_receiver : (setFaultPin p faulty s).receiver = s.receiver := rfl
@[simp] theorem setFaultPin_requests : (setFaultPin p faulty s).requests = s.requests := rfl
@[simp] theorem setFaultPin_reply : (setFaultPin p faulty s).reply = s.reply := rfl
@[simp] theorem setFaultPin_tx : (setFaultPin p faulty s).tx = s.tx := rfl
@[simp] theorem setFaultPin_reports : (setFaultPin p faulty s).reports = s.reports := rfl
@[simp] theorem setFaultPin_requestLost : (setFaultPin p faulty s).requestLost = s.requestLost := rfl
@[simp] theorem setFaultPin_reportLost : (setFaultPin p faulty s).reportLost = s.reportLost := rfl
@[simp] theorem setFaultPin_alarms : (setFaultPin p faulty s).alarms = s.alarms := rfl
@[simp] theorem setFaultPin_warm : (setFaultPin p faulty s).warm = s.warm := rfl
end setFaultPin

section setAlarms
variable (a : List Alarm) (s : State)
@[simp] theorem setAlarms_pending : (setAlarms a s).pending = s.pending := rfl
@[simp] theorem setAlarms_power : (setAlarms a s).power = s.power := rfl
@[simp] theorem setAlarms_freeIndex : (setAlarms a s).freeIndex = s.freeIndex := rfl
@[simp] theorem setAlarms_hookPin : (setAlarms a s).hookPin = s.hookPin := rfl
@[simp] theorem setAlarms_faultPin : (setAlarms a s).faultPin = s.faultPin := rfl
@[simp] theorem setAlarms_codecIn : (setAlarms a s).codecIn = s.codecIn := rfl
@[simp] theorem setAlarms_ringDrive : (setAlarms a s).ringDrive = s.ringDrive := rfl
@[simp] theorem setAlarms_rxBearer : (setAlarms a s).rxBearer = s.rxBearer := rfl
@[simp] theorem setAlarms_trunkTx : (setAlarms a s).trunkTx = s.trunkTx := rfl
@[simp] theorem setAlarms_ports : (setAlarms a s).ports = s.ports := rfl
@[simp] theorem setAlarms_scan : (setAlarms a s).scan = s.scan := rfl
@[simp] theorem setAlarms_buffers : (setAlarms a s).buffers = s.buffers := rfl
@[simp] theorem setAlarms_groups : (setAlarms a s).groups = s.groups := rfl
@[simp] theorem setAlarms_oddSample : (setAlarms a s).oddSample = s.oddSample := rfl
@[simp] theorem setAlarms_lines : (setAlarms a s).lines = s.lines := rfl
@[simp] theorem setAlarms_slots : (setAlarms a s).slots = s.slots := rfl
@[simp] theorem setAlarms_free : (setAlarms a s).free = s.free := rfl
@[simp] theorem setAlarms_waitQueue : (setAlarms a s).waitQueue = s.waitQueue := rfl
@[simp] theorem setAlarms_posture : (setAlarms a s).posture = s.posture := rfl
@[simp] theorem setAlarms_mark : (setAlarms a s).mark = s.mark := rfl
@[simp] theorem setAlarms_nextTag : (setAlarms a s).nextTag = s.nextTag := rfl
@[simp] theorem setAlarms_nextOrder : (setAlarms a s).nextOrder = s.nextOrder := rfl
@[simp] theorem setAlarms_phase : (setAlarms a s).phase = s.phase := rfl
@[simp] theorem setAlarms_phaseMs : (setAlarms a s).phaseMs = s.phaseMs := rfl
@[simp] theorem setAlarms_cells : (setAlarms a s).cells = s.cells := rfl
@[simp] theorem setAlarms_nextPlacement : (setAlarms a s).nextPlacement = s.nextPlacement := rfl
@[simp] theorem setAlarms_ringQueue : (setAlarms a s).ringQueue = s.ringQueue := rfl
@[simp] theorem setAlarms_align : (setAlarms a s).align = s.align := rfl
@[simp] theorem setAlarms_badWords : (setAlarms a s).badWords = s.badWords := rfl
@[simp] theorem setAlarms_foundWords : (setAlarms a s).foundWords = s.foundWords := rfl
@[simp] theorem setAlarms_huntAt : (setAlarms a s).huntAt = s.huntAt := rfl
@[simp] theorem setAlarms_lastOctet : (setAlarms a s).lastOctet = s.lastOctet := rfl
@[simp] theorem setAlarms_frameEnd : (setAlarms a s).frameEnd = s.frameEnd := rfl
@[simp] theorem setAlarms_frameHead : (setAlarms a s).frameHead = s.frameHead := rfl
@[simp] theorem setAlarms_score : (setAlarms a s).score = s.score := rfl
@[simp] theorem setAlarms_link : (setAlarms a s).link = s.link := rfl
@[simp] theorem setAlarms_run : (setAlarms a s).run = s.run := rfl
@[simp] theorem setAlarms_releaseFlag : (setAlarms a s).releaseFlag = s.releaseFlag := rfl
@[simp] theorem setAlarms_holdover : (setAlarms a s).holdover = s.holdover := rfl
@[simp] theorem setAlarms_restartTimer : (setAlarms a s).restartTimer = s.restartTimer := rfl
@[simp] theorem setAlarms_restartOwed : (setAlarms a s).restartOwed = s.restartOwed := rfl
@[simp] theorem setAlarms_restartRepeat : (setAlarms a s).restartRepeat = s.restartRepeat := rfl
@[simp] theorem setAlarms_txq : (setAlarms a s).txq = s.txq := rfl
@[simp] theorem setAlarms_inFlight : (setAlarms a s).inFlight = s.inFlight := rfl
@[simp] theorem setAlarms_flow : (setAlarms a s).flow = s.flow := rfl
@[simp] theorem setAlarms_sig : (setAlarms a s).sig = s.sig := rfl
@[simp] theorem setAlarms_assembler : (setAlarms a s).assembler = s.assembler := rfl
@[simp] theorem setAlarms_bus : (setAlarms a s).bus = s.bus := rfl
@[simp] theorem setAlarms_mode : (setAlarms a s).mode = s.mode := rfl
@[simp] theorem setAlarms_params : (setAlarms a s).params = s.params := rfl
@[simp] theorem setAlarms_selfTest : (setAlarms a s).selfTest = s.selfTest := rfl
@[simp] theorem setAlarms_rate : (setAlarms a s).rate = s.rate := rfl
@[simp] theorem setAlarms_receiver : (setAlarms a s).receiver = s.receiver := rfl
@[simp] theorem setAlarms_requests : (setAlarms a s).requests = s.requests := rfl
@[simp] theorem setAlarms_reply : (setAlarms a s).reply = s.reply := rfl
@[simp] theorem setAlarms_tx : (setAlarms a s).tx = s.tx := rfl
@[simp] theorem setAlarms_reports : (setAlarms a s).reports = s.reports := rfl
@[simp] theorem setAlarms_requestLost : (setAlarms a s).requestLost = s.requestLost := rfl
@[simp] theorem setAlarms_reportLost : (setAlarms a s).reportLost = s.reportLost := rfl
@[simp] theorem setAlarms_alarms : (setAlarms a s).alarms = a := rfl
@[simp] theorem setAlarms_warm : (setAlarms a s).warm = s.warm := rfl
end setAlarms

section setWaitQueue
variable (q : List Port) (s : State)
@[simp] theorem setWaitQueue_pending : (setWaitQueue q s).pending = s.pending := rfl
@[simp] theorem setWaitQueue_power : (setWaitQueue q s).power = s.power := rfl
@[simp] theorem setWaitQueue_freeIndex : (setWaitQueue q s).freeIndex = s.freeIndex := rfl
@[simp] theorem setWaitQueue_hookPin : (setWaitQueue q s).hookPin = s.hookPin := rfl
@[simp] theorem setWaitQueue_faultPin : (setWaitQueue q s).faultPin = s.faultPin := rfl
@[simp] theorem setWaitQueue_codecIn : (setWaitQueue q s).codecIn = s.codecIn := rfl
@[simp] theorem setWaitQueue_ringDrive : (setWaitQueue q s).ringDrive = s.ringDrive := rfl
@[simp] theorem setWaitQueue_rxBearer : (setWaitQueue q s).rxBearer = s.rxBearer := rfl
@[simp] theorem setWaitQueue_trunkTx : (setWaitQueue q s).trunkTx = s.trunkTx := rfl
@[simp] theorem setWaitQueue_ports : (setWaitQueue q s).ports = s.ports := rfl
@[simp] theorem setWaitQueue_scan : (setWaitQueue q s).scan = s.scan := rfl
@[simp] theorem setWaitQueue_buffers : (setWaitQueue q s).buffers = s.buffers := rfl
@[simp] theorem setWaitQueue_groups : (setWaitQueue q s).groups = s.groups := rfl
@[simp] theorem setWaitQueue_oddSample : (setWaitQueue q s).oddSample = s.oddSample := rfl
@[simp] theorem setWaitQueue_lines : (setWaitQueue q s).lines = s.lines := rfl
@[simp] theorem setWaitQueue_slots : (setWaitQueue q s).slots = s.slots := rfl
@[simp] theorem setWaitQueue_free : (setWaitQueue q s).free = s.free := rfl
@[simp] theorem setWaitQueue_waitQueue : (setWaitQueue q s).waitQueue = q := rfl
@[simp] theorem setWaitQueue_posture : (setWaitQueue q s).posture = s.posture := rfl
@[simp] theorem setWaitQueue_mark : (setWaitQueue q s).mark = s.mark := rfl
@[simp] theorem setWaitQueue_nextTag : (setWaitQueue q s).nextTag = s.nextTag := rfl
@[simp] theorem setWaitQueue_nextOrder : (setWaitQueue q s).nextOrder = s.nextOrder := rfl
@[simp] theorem setWaitQueue_phase : (setWaitQueue q s).phase = s.phase := rfl
@[simp] theorem setWaitQueue_phaseMs : (setWaitQueue q s).phaseMs = s.phaseMs := rfl
@[simp] theorem setWaitQueue_cells : (setWaitQueue q s).cells = s.cells := rfl
@[simp] theorem setWaitQueue_nextPlacement : (setWaitQueue q s).nextPlacement = s.nextPlacement := rfl
@[simp] theorem setWaitQueue_ringQueue : (setWaitQueue q s).ringQueue = s.ringQueue := rfl
@[simp] theorem setWaitQueue_align : (setWaitQueue q s).align = s.align := rfl
@[simp] theorem setWaitQueue_badWords : (setWaitQueue q s).badWords = s.badWords := rfl
@[simp] theorem setWaitQueue_foundWords : (setWaitQueue q s).foundWords = s.foundWords := rfl
@[simp] theorem setWaitQueue_huntAt : (setWaitQueue q s).huntAt = s.huntAt := rfl
@[simp] theorem setWaitQueue_lastOctet : (setWaitQueue q s).lastOctet = s.lastOctet := rfl
@[simp] theorem setWaitQueue_frameEnd : (setWaitQueue q s).frameEnd = s.frameEnd := rfl
@[simp] theorem setWaitQueue_frameHead : (setWaitQueue q s).frameHead = s.frameHead := rfl
@[simp] theorem setWaitQueue_score : (setWaitQueue q s).score = s.score := rfl
@[simp] theorem setWaitQueue_link : (setWaitQueue q s).link = s.link := rfl
@[simp] theorem setWaitQueue_run : (setWaitQueue q s).run = s.run := rfl
@[simp] theorem setWaitQueue_releaseFlag : (setWaitQueue q s).releaseFlag = s.releaseFlag := rfl
@[simp] theorem setWaitQueue_holdover : (setWaitQueue q s).holdover = s.holdover := rfl
@[simp] theorem setWaitQueue_restartTimer : (setWaitQueue q s).restartTimer = s.restartTimer := rfl
@[simp] theorem setWaitQueue_restartOwed : (setWaitQueue q s).restartOwed = s.restartOwed := rfl
@[simp] theorem setWaitQueue_restartRepeat : (setWaitQueue q s).restartRepeat = s.restartRepeat := rfl
@[simp] theorem setWaitQueue_txq : (setWaitQueue q s).txq = s.txq := rfl
@[simp] theorem setWaitQueue_inFlight : (setWaitQueue q s).inFlight = s.inFlight := rfl
@[simp] theorem setWaitQueue_flow : (setWaitQueue q s).flow = s.flow := rfl
@[simp] theorem setWaitQueue_sig : (setWaitQueue q s).sig = s.sig := rfl
@[simp] theorem setWaitQueue_assembler : (setWaitQueue q s).assembler = s.assembler := rfl
@[simp] theorem setWaitQueue_bus : (setWaitQueue q s).bus = s.bus := rfl
@[simp] theorem setWaitQueue_mode : (setWaitQueue q s).mode = s.mode := rfl
@[simp] theorem setWaitQueue_params : (setWaitQueue q s).params = s.params := rfl
@[simp] theorem setWaitQueue_selfTest : (setWaitQueue q s).selfTest = s.selfTest := rfl
@[simp] theorem setWaitQueue_rate : (setWaitQueue q s).rate = s.rate := rfl
@[simp] theorem setWaitQueue_receiver : (setWaitQueue q s).receiver = s.receiver := rfl
@[simp] theorem setWaitQueue_requests : (setWaitQueue q s).requests = s.requests := rfl
@[simp] theorem setWaitQueue_reply : (setWaitQueue q s).reply = s.reply := rfl
@[simp] theorem setWaitQueue_tx : (setWaitQueue q s).tx = s.tx := rfl
@[simp] theorem setWaitQueue_reports : (setWaitQueue q s).reports = s.reports := rfl
@[simp] theorem setWaitQueue_requestLost : (setWaitQueue q s).requestLost = s.requestLost := rfl
@[simp] theorem setWaitQueue_reportLost : (setWaitQueue q s).reportLost = s.reportLost := rfl
@[simp] theorem setWaitQueue_alarms : (setWaitQueue q s).alarms = s.alarms := rfl
@[simp] theorem setWaitQueue_warm : (setWaitQueue q s).warm = s.warm := rfl
end setWaitQueue

section setRingQueue
variable (q : List Port) (s : State)
@[simp] theorem setRingQueue_pending : (setRingQueue q s).pending = s.pending := rfl
@[simp] theorem setRingQueue_power : (setRingQueue q s).power = s.power := rfl
@[simp] theorem setRingQueue_freeIndex : (setRingQueue q s).freeIndex = s.freeIndex := rfl
@[simp] theorem setRingQueue_hookPin : (setRingQueue q s).hookPin = s.hookPin := rfl
@[simp] theorem setRingQueue_faultPin : (setRingQueue q s).faultPin = s.faultPin := rfl
@[simp] theorem setRingQueue_codecIn : (setRingQueue q s).codecIn = s.codecIn := rfl
@[simp] theorem setRingQueue_ringDrive : (setRingQueue q s).ringDrive = s.ringDrive := rfl
@[simp] theorem setRingQueue_rxBearer : (setRingQueue q s).rxBearer = s.rxBearer := rfl
@[simp] theorem setRingQueue_trunkTx : (setRingQueue q s).trunkTx = s.trunkTx := rfl
@[simp] theorem setRingQueue_ports : (setRingQueue q s).ports = s.ports := rfl
@[simp] theorem setRingQueue_scan : (setRingQueue q s).scan = s.scan := rfl
@[simp] theorem setRingQueue_buffers : (setRingQueue q s).buffers = s.buffers := rfl
@[simp] theorem setRingQueue_groups : (setRingQueue q s).groups = s.groups := rfl
@[simp] theorem setRingQueue_oddSample : (setRingQueue q s).oddSample = s.oddSample := rfl
@[simp] theorem setRingQueue_lines : (setRingQueue q s).lines = s.lines := rfl
@[simp] theorem setRingQueue_slots : (setRingQueue q s).slots = s.slots := rfl
@[simp] theorem setRingQueue_free : (setRingQueue q s).free = s.free := rfl
@[simp] theorem setRingQueue_waitQueue : (setRingQueue q s).waitQueue = s.waitQueue := rfl
@[simp] theorem setRingQueue_posture : (setRingQueue q s).posture = s.posture := rfl
@[simp] theorem setRingQueue_mark : (setRingQueue q s).mark = s.mark := rfl
@[simp] theorem setRingQueue_nextTag : (setRingQueue q s).nextTag = s.nextTag := rfl
@[simp] theorem setRingQueue_nextOrder : (setRingQueue q s).nextOrder = s.nextOrder := rfl
@[simp] theorem setRingQueue_phase : (setRingQueue q s).phase = s.phase := rfl
@[simp] theorem setRingQueue_phaseMs : (setRingQueue q s).phaseMs = s.phaseMs := rfl
@[simp] theorem setRingQueue_cells : (setRingQueue q s).cells = s.cells := rfl
@[simp] theorem setRingQueue_nextPlacement : (setRingQueue q s).nextPlacement = s.nextPlacement := rfl
@[simp] theorem setRingQueue_ringQueue : (setRingQueue q s).ringQueue = q := rfl
@[simp] theorem setRingQueue_align : (setRingQueue q s).align = s.align := rfl
@[simp] theorem setRingQueue_badWords : (setRingQueue q s).badWords = s.badWords := rfl
@[simp] theorem setRingQueue_foundWords : (setRingQueue q s).foundWords = s.foundWords := rfl
@[simp] theorem setRingQueue_huntAt : (setRingQueue q s).huntAt = s.huntAt := rfl
@[simp] theorem setRingQueue_lastOctet : (setRingQueue q s).lastOctet = s.lastOctet := rfl
@[simp] theorem setRingQueue_frameEnd : (setRingQueue q s).frameEnd = s.frameEnd := rfl
@[simp] theorem setRingQueue_frameHead : (setRingQueue q s).frameHead = s.frameHead := rfl
@[simp] theorem setRingQueue_score : (setRingQueue q s).score = s.score := rfl
@[simp] theorem setRingQueue_link : (setRingQueue q s).link = s.link := rfl
@[simp] theorem setRingQueue_run : (setRingQueue q s).run = s.run := rfl
@[simp] theorem setRingQueue_releaseFlag : (setRingQueue q s).releaseFlag = s.releaseFlag := rfl
@[simp] theorem setRingQueue_holdover : (setRingQueue q s).holdover = s.holdover := rfl
@[simp] theorem setRingQueue_restartTimer : (setRingQueue q s).restartTimer = s.restartTimer := rfl
@[simp] theorem setRingQueue_restartOwed : (setRingQueue q s).restartOwed = s.restartOwed := rfl
@[simp] theorem setRingQueue_restartRepeat : (setRingQueue q s).restartRepeat = s.restartRepeat := rfl
@[simp] theorem setRingQueue_txq : (setRingQueue q s).txq = s.txq := rfl
@[simp] theorem setRingQueue_inFlight : (setRingQueue q s).inFlight = s.inFlight := rfl
@[simp] theorem setRingQueue_flow : (setRingQueue q s).flow = s.flow := rfl
@[simp] theorem setRingQueue_sig : (setRingQueue q s).sig = s.sig := rfl
@[simp] theorem setRingQueue_assembler : (setRingQueue q s).assembler = s.assembler := rfl
@[simp] theorem setRingQueue_bus : (setRingQueue q s).bus = s.bus := rfl
@[simp] theorem setRingQueue_mode : (setRingQueue q s).mode = s.mode := rfl
@[simp] theorem setRingQueue_params : (setRingQueue q s).params = s.params := rfl
@[simp] theorem setRingQueue_selfTest : (setRingQueue q s).selfTest = s.selfTest := rfl
@[simp] theorem setRingQueue_rate : (setRingQueue q s).rate = s.rate := rfl
@[simp] theorem setRingQueue_receiver : (setRingQueue q s).receiver = s.receiver := rfl
@[simp] theorem setRingQueue_requests : (setRingQueue q s).requests = s.requests := rfl
@[simp] theorem setRingQueue_reply : (setRingQueue q s).reply = s.reply := rfl
@[simp] theorem setRingQueue_tx : (setRingQueue q s).tx = s.tx := rfl
@[simp] theorem setRingQueue_reports : (setRingQueue q s).reports = s.reports := rfl
@[simp] theorem setRingQueue_requestLost : (setRingQueue q s).requestLost = s.requestLost := rfl
@[simp] theorem setRingQueue_reportLost : (setRingQueue q s).reportLost = s.reportLost := rfl
@[simp] theorem setRingQueue_alarms : (setRingQueue q s).alarms = s.alarms := rfl
@[simp] theorem setRingQueue_warm : (setRingQueue q s).warm = s.warm := rfl
end setRingQueue

section setTxq
variable (q : List Entry) (s : State)
@[simp] theorem setTxq_pending : (setTxq q s).pending = s.pending := rfl
@[simp] theorem setTxq_power : (setTxq q s).power = s.power := rfl
@[simp] theorem setTxq_freeIndex : (setTxq q s).freeIndex = s.freeIndex := rfl
@[simp] theorem setTxq_hookPin : (setTxq q s).hookPin = s.hookPin := rfl
@[simp] theorem setTxq_faultPin : (setTxq q s).faultPin = s.faultPin := rfl
@[simp] theorem setTxq_codecIn : (setTxq q s).codecIn = s.codecIn := rfl
@[simp] theorem setTxq_ringDrive : (setTxq q s).ringDrive = s.ringDrive := rfl
@[simp] theorem setTxq_rxBearer : (setTxq q s).rxBearer = s.rxBearer := rfl
@[simp] theorem setTxq_trunkTx : (setTxq q s).trunkTx = s.trunkTx := rfl
@[simp] theorem setTxq_ports : (setTxq q s).ports = s.ports := rfl
@[simp] theorem setTxq_scan : (setTxq q s).scan = s.scan := rfl
@[simp] theorem setTxq_buffers : (setTxq q s).buffers = s.buffers := rfl
@[simp] theorem setTxq_groups : (setTxq q s).groups = s.groups := rfl
@[simp] theorem setTxq_oddSample : (setTxq q s).oddSample = s.oddSample := rfl
@[simp] theorem setTxq_lines : (setTxq q s).lines = s.lines := rfl
@[simp] theorem setTxq_slots : (setTxq q s).slots = s.slots := rfl
@[simp] theorem setTxq_free : (setTxq q s).free = s.free := rfl
@[simp] theorem setTxq_waitQueue : (setTxq q s).waitQueue = s.waitQueue := rfl
@[simp] theorem setTxq_posture : (setTxq q s).posture = s.posture := rfl
@[simp] theorem setTxq_mark : (setTxq q s).mark = s.mark := rfl
@[simp] theorem setTxq_nextTag : (setTxq q s).nextTag = s.nextTag := rfl
@[simp] theorem setTxq_nextOrder : (setTxq q s).nextOrder = s.nextOrder := rfl
@[simp] theorem setTxq_phase : (setTxq q s).phase = s.phase := rfl
@[simp] theorem setTxq_phaseMs : (setTxq q s).phaseMs = s.phaseMs := rfl
@[simp] theorem setTxq_cells : (setTxq q s).cells = s.cells := rfl
@[simp] theorem setTxq_nextPlacement : (setTxq q s).nextPlacement = s.nextPlacement := rfl
@[simp] theorem setTxq_ringQueue : (setTxq q s).ringQueue = s.ringQueue := rfl
@[simp] theorem setTxq_align : (setTxq q s).align = s.align := rfl
@[simp] theorem setTxq_badWords : (setTxq q s).badWords = s.badWords := rfl
@[simp] theorem setTxq_foundWords : (setTxq q s).foundWords = s.foundWords := rfl
@[simp] theorem setTxq_huntAt : (setTxq q s).huntAt = s.huntAt := rfl
@[simp] theorem setTxq_lastOctet : (setTxq q s).lastOctet = s.lastOctet := rfl
@[simp] theorem setTxq_frameEnd : (setTxq q s).frameEnd = s.frameEnd := rfl
@[simp] theorem setTxq_frameHead : (setTxq q s).frameHead = s.frameHead := rfl
@[simp] theorem setTxq_score : (setTxq q s).score = s.score := rfl
@[simp] theorem setTxq_link : (setTxq q s).link = s.link := rfl
@[simp] theorem setTxq_run : (setTxq q s).run = s.run := rfl
@[simp] theorem setTxq_releaseFlag : (setTxq q s).releaseFlag = s.releaseFlag := rfl
@[simp] theorem setTxq_holdover : (setTxq q s).holdover = s.holdover := rfl
@[simp] theorem setTxq_restartTimer : (setTxq q s).restartTimer = s.restartTimer := rfl
@[simp] theorem setTxq_restartOwed : (setTxq q s).restartOwed = s.restartOwed := rfl
@[simp] theorem setTxq_restartRepeat : (setTxq q s).restartRepeat = s.restartRepeat := rfl
@[simp] theorem setTxq_txq : (setTxq q s).txq = q := rfl
@[simp] theorem setTxq_inFlight : (setTxq q s).inFlight = s.inFlight := rfl
@[simp] theorem setTxq_flow : (setTxq q s).flow = s.flow := rfl
@[simp] theorem setTxq_sig : (setTxq q s).sig = s.sig := rfl
@[simp] theorem setTxq_assembler : (setTxq q s).assembler = s.assembler := rfl
@[simp] theorem setTxq_bus : (setTxq q s).bus = s.bus := rfl
@[simp] theorem setTxq_mode : (setTxq q s).mode = s.mode := rfl
@[simp] theorem setTxq_params : (setTxq q s).params = s.params := rfl
@[simp] theorem setTxq_selfTest : (setTxq q s).selfTest = s.selfTest := rfl
@[simp] theorem setTxq_rate : (setTxq q s).rate = s.rate := rfl
@[simp] theorem setTxq_receiver : (setTxq q s).receiver = s.receiver := rfl
@[simp] theorem setTxq_requests : (setTxq q s).requests = s.requests := rfl
@[simp] theorem setTxq_reply : (setTxq q s).reply = s.reply := rfl
@[simp] theorem setTxq_tx : (setTxq q s).tx = s.tx := rfl
@[simp] theorem setTxq_reports : (setTxq q s).reports = s.reports := rfl
@[simp] theorem setTxq_requestLost : (setTxq q s).requestLost = s.requestLost := rfl
@[simp] theorem setTxq_reportLost : (setTxq q s).reportLost = s.reportLost := rfl
@[simp] theorem setTxq_alarms : (setTxq q s).alarms = s.alarms := rfl
@[simp] theorem setTxq_warm : (setTxq q s).warm = s.warm := rfl
end setTxq

section setBus
variable (b : TestBus) (s : State)
@[simp] theorem setBus_pending : (setBus b s).pending = s.pending := rfl
@[simp] theorem setBus_power : (setBus b s).power = s.power := rfl
@[simp] theorem setBus_freeIndex : (setBus b s).freeIndex = s.freeIndex := rfl
@[simp] theorem setBus_hookPin : (setBus b s).hookPin = s.hookPin := rfl
@[simp] theorem setBus_faultPin : (setBus b s).faultPin = s.faultPin := rfl
@[simp] theorem setBus_codecIn : (setBus b s).codecIn = s.codecIn := rfl
@[simp] theorem setBus_ringDrive : (setBus b s).ringDrive = s.ringDrive := rfl
@[simp] theorem setBus_rxBearer : (setBus b s).rxBearer = s.rxBearer := rfl
@[simp] theorem setBus_trunkTx : (setBus b s).trunkTx = s.trunkTx := rfl
@[simp] theorem setBus_ports : (setBus b s).ports = s.ports := rfl
@[simp] theorem setBus_scan : (setBus b s).scan = s.scan := rfl
@[simp] theorem setBus_buffers : (setBus b s).buffers = s.buffers := rfl
@[simp] theorem setBus_groups : (setBus b s).groups = s.groups := rfl
@[simp] theorem setBus_oddSample : (setBus b s).oddSample = s.oddSample := rfl
@[simp] theorem setBus_lines : (setBus b s).lines = s.lines := rfl
@[simp] theorem setBus_slots : (setBus b s).slots = s.slots := rfl
@[simp] theorem setBus_free : (setBus b s).free = s.free := rfl
@[simp] theorem setBus_waitQueue : (setBus b s).waitQueue = s.waitQueue := rfl
@[simp] theorem setBus_posture : (setBus b s).posture = s.posture := rfl
@[simp] theorem setBus_mark : (setBus b s).mark = s.mark := rfl
@[simp] theorem setBus_nextTag : (setBus b s).nextTag = s.nextTag := rfl
@[simp] theorem setBus_nextOrder : (setBus b s).nextOrder = s.nextOrder := rfl
@[simp] theorem setBus_phase : (setBus b s).phase = s.phase := rfl
@[simp] theorem setBus_phaseMs : (setBus b s).phaseMs = s.phaseMs := rfl
@[simp] theorem setBus_cells : (setBus b s).cells = s.cells := rfl
@[simp] theorem setBus_nextPlacement : (setBus b s).nextPlacement = s.nextPlacement := rfl
@[simp] theorem setBus_ringQueue : (setBus b s).ringQueue = s.ringQueue := rfl
@[simp] theorem setBus_align : (setBus b s).align = s.align := rfl
@[simp] theorem setBus_badWords : (setBus b s).badWords = s.badWords := rfl
@[simp] theorem setBus_foundWords : (setBus b s).foundWords = s.foundWords := rfl
@[simp] theorem setBus_huntAt : (setBus b s).huntAt = s.huntAt := rfl
@[simp] theorem setBus_lastOctet : (setBus b s).lastOctet = s.lastOctet := rfl
@[simp] theorem setBus_frameEnd : (setBus b s).frameEnd = s.frameEnd := rfl
@[simp] theorem setBus_frameHead : (setBus b s).frameHead = s.frameHead := rfl
@[simp] theorem setBus_score : (setBus b s).score = s.score := rfl
@[simp] theorem setBus_link : (setBus b s).link = s.link := rfl
@[simp] theorem setBus_run : (setBus b s).run = s.run := rfl
@[simp] theorem setBus_releaseFlag : (setBus b s).releaseFlag = s.releaseFlag := rfl
@[simp] theorem setBus_holdover : (setBus b s).holdover = s.holdover := rfl
@[simp] theorem setBus_restartTimer : (setBus b s).restartTimer = s.restartTimer := rfl
@[simp] theorem setBus_restartOwed : (setBus b s).restartOwed = s.restartOwed := rfl
@[simp] theorem setBus_restartRepeat : (setBus b s).restartRepeat = s.restartRepeat := rfl
@[simp] theorem setBus_txq : (setBus b s).txq = s.txq := rfl
@[simp] theorem setBus_inFlight : (setBus b s).inFlight = s.inFlight := rfl
@[simp] theorem setBus_flow : (setBus b s).flow = s.flow := rfl
@[simp] theorem setBus_sig : (setBus b s).sig = s.sig := rfl
@[simp] theorem setBus_assembler : (setBus b s).assembler = s.assembler := rfl
@[simp] theorem setBus_bus : (setBus b s).bus = b := rfl
@[simp] theorem setBus_mode : (setBus b s).mode = s.mode := rfl
@[simp] theorem setBus_params : (setBus b s).params = s.params := rfl
@[simp] theorem setBus_selfTest : (setBus b s).selfTest = s.selfTest := rfl
@[simp] theorem setBus_rate : (setBus b s).rate = s.rate := rfl
@[simp] theorem setBus_receiver : (setBus b s).receiver = s.receiver := rfl
@[simp] theorem setBus_requests : (setBus b s).requests = s.requests := rfl
@[simp] theorem setBus_reply : (setBus b s).reply = s.reply := rfl
@[simp] theorem setBus_tx : (setBus b s).tx = s.tx := rfl
@[simp] theorem setBus_reports : (setBus b s).reports = s.reports := rfl
@[simp] theorem setBus_requestLost : (setBus b s).requestLost = s.requestLost := rfl
@[simp] theorem setBus_reportLost : (setBus b s).reportLost = s.reportLost := rfl
@[simp] theorem setBus_alarms : (setBus b s).alarms = s.alarms := rfl
@[simp] theorem setBus_warm : (setBus b s).warm = s.warm := rfl
end setBus

section setMode
variable (m : Mode) (s : State)
@[simp] theorem setMode_pending : (setMode m s).pending = s.pending := rfl
@[simp] theorem setMode_power : (setMode m s).power = s.power := rfl
@[simp] theorem setMode_freeIndex : (setMode m s).freeIndex = s.freeIndex := rfl
@[simp] theorem setMode_hookPin : (setMode m s).hookPin = s.hookPin := rfl
@[simp] theorem setMode_faultPin : (setMode m s).faultPin = s.faultPin := rfl
@[simp] theorem setMode_codecIn : (setMode m s).codecIn = s.codecIn := rfl
@[simp] theorem setMode_ringDrive : (setMode m s).ringDrive = s.ringDrive := rfl
@[simp] theorem setMode_rxBearer : (setMode m s).rxBearer = s.rxBearer := rfl
@[simp] theorem setMode_trunkTx : (setMode m s).trunkTx = s.trunkTx := rfl
@[simp] theorem setMode_ports : (setMode m s).ports = s.ports := rfl
@[simp] theorem setMode_scan : (setMode m s).scan = s.scan := rfl
@[simp] theorem setMode_buffers : (setMode m s).buffers = s.buffers := rfl
@[simp] theorem setMode_groups : (setMode m s).groups = s.groups := rfl
@[simp] theorem setMode_oddSample : (setMode m s).oddSample = s.oddSample := rfl
@[simp] theorem setMode_lines : (setMode m s).lines = s.lines := rfl
@[simp] theorem setMode_slots : (setMode m s).slots = s.slots := rfl
@[simp] theorem setMode_free : (setMode m s).free = s.free := rfl
@[simp] theorem setMode_waitQueue : (setMode m s).waitQueue = s.waitQueue := rfl
@[simp] theorem setMode_posture : (setMode m s).posture = s.posture := rfl
@[simp] theorem setMode_mark : (setMode m s).mark = s.mark := rfl
@[simp] theorem setMode_nextTag : (setMode m s).nextTag = s.nextTag := rfl
@[simp] theorem setMode_nextOrder : (setMode m s).nextOrder = s.nextOrder := rfl
@[simp] theorem setMode_phase : (setMode m s).phase = s.phase := rfl
@[simp] theorem setMode_phaseMs : (setMode m s).phaseMs = s.phaseMs := rfl
@[simp] theorem setMode_cells : (setMode m s).cells = s.cells := rfl
@[simp] theorem setMode_nextPlacement : (setMode m s).nextPlacement = s.nextPlacement := rfl
@[simp] theorem setMode_ringQueue : (setMode m s).ringQueue = s.ringQueue := rfl
@[simp] theorem setMode_align : (setMode m s).align = s.align := rfl
@[simp] theorem setMode_badWords : (setMode m s).badWords = s.badWords := rfl
@[simp] theorem setMode_foundWords : (setMode m s).foundWords = s.foundWords := rfl
@[simp] theorem setMode_huntAt : (setMode m s).huntAt = s.huntAt := rfl
@[simp] theorem setMode_lastOctet : (setMode m s).lastOctet = s.lastOctet := rfl
@[simp] theorem setMode_frameEnd : (setMode m s).frameEnd = s.frameEnd := rfl
@[simp] theorem setMode_frameHead : (setMode m s).frameHead = s.frameHead := rfl
@[simp] theorem setMode_score : (setMode m s).score = s.score := rfl
@[simp] theorem setMode_link : (setMode m s).link = s.link := rfl
@[simp] theorem setMode_run : (setMode m s).run = s.run := rfl
@[simp] theorem setMode_releaseFlag : (setMode m s).releaseFlag = s.releaseFlag := rfl
@[simp] theorem setMode_holdover : (setMode m s).holdover = s.holdover := rfl
@[simp] theorem setMode_restartTimer : (setMode m s).restartTimer = s.restartTimer := rfl
@[simp] theorem setMode_restartOwed : (setMode m s).restartOwed = s.restartOwed := rfl
@[simp] theorem setMode_restartRepeat : (setMode m s).restartRepeat = s.restartRepeat := rfl
@[simp] theorem setMode_txq : (setMode m s).txq = s.txq := rfl
@[simp] theorem setMode_inFlight : (setMode m s).inFlight = s.inFlight := rfl
@[simp] theorem setMode_flow : (setMode m s).flow = s.flow := rfl
@[simp] theorem setMode_sig : (setMode m s).sig = s.sig := rfl
@[simp] theorem setMode_assembler : (setMode m s).assembler = s.assembler := rfl
@[simp] theorem setMode_bus : (setMode m s).bus = s.bus := rfl
@[simp] theorem setMode_mode : (setMode m s).mode = m := rfl
@[simp] theorem setMode_params : (setMode m s).params = s.params := rfl
@[simp] theorem setMode_selfTest : (setMode m s).selfTest = s.selfTest := rfl
@[simp] theorem setMode_rate : (setMode m s).rate = s.rate := rfl
@[simp] theorem setMode_receiver : (setMode m s).receiver = s.receiver := rfl
@[simp] theorem setMode_requests : (setMode m s).requests = s.requests := rfl
@[simp] theorem setMode_reply : (setMode m s).reply = s.reply := rfl
@[simp] theorem setMode_tx : (setMode m s).tx = s.tx := rfl
@[simp] theorem setMode_reports : (setMode m s).reports = s.reports := rfl
@[simp] theorem setMode_requestLost : (setMode m s).requestLost = s.requestLost := rfl
@[simp] theorem setMode_reportLost : (setMode m s).reportLost = s.reportLost := rfl
@[simp] theorem setMode_alarms : (setMode m s).alarms = s.alarms := rfl
@[simp] theorem setMode_warm : (setMode m s).warm = s.warm := rfl
end setMode

section setLink
variable (l : LinkState) (s : State)
@[simp] theorem setLink_pending : (setLink l s).pending = s.pending := rfl
@[simp] theorem setLink_power : (setLink l s).power = s.power := rfl
@[simp] theorem setLink_freeIndex : (setLink l s).freeIndex = s.freeIndex := rfl
@[simp] theorem setLink_hookPin : (setLink l s).hookPin = s.hookPin := rfl
@[simp] theorem setLink_faultPin : (setLink l s).faultPin = s.faultPin := rfl
@[simp] theorem setLink_codecIn : (setLink l s).codecIn = s.codecIn := rfl
@[simp] theorem setLink_ringDrive : (setLink l s).ringDrive = s.ringDrive := rfl
@[simp] theorem setLink_rxBearer : (setLink l s).rxBearer = s.rxBearer := rfl
@[simp] theorem setLink_trunkTx : (setLink l s).trunkTx = s.trunkTx := rfl
@[simp] theorem setLink_ports : (setLink l s).ports = s.ports := rfl
@[simp] theorem setLink_scan : (setLink l s).scan = s.scan := rfl
@[simp] theorem setLink_buffers : (setLink l s).buffers = s.buffers := rfl
@[simp] theorem setLink_groups : (setLink l s).groups = s.groups := rfl
@[simp] theorem setLink_oddSample : (setLink l s).oddSample = s.oddSample := rfl
@[simp] theorem setLink_lines : (setLink l s).lines = s.lines := rfl
@[simp] theorem setLink_slots : (setLink l s).slots = s.slots := rfl
@[simp] theorem setLink_free : (setLink l s).free = s.free := rfl
@[simp] theorem setLink_waitQueue : (setLink l s).waitQueue = s.waitQueue := rfl
@[simp] theorem setLink_posture : (setLink l s).posture = s.posture := rfl
@[simp] theorem setLink_mark : (setLink l s).mark = s.mark := rfl
@[simp] theorem setLink_nextTag : (setLink l s).nextTag = s.nextTag := rfl
@[simp] theorem setLink_nextOrder : (setLink l s).nextOrder = s.nextOrder := rfl
@[simp] theorem setLink_phase : (setLink l s).phase = s.phase := rfl
@[simp] theorem setLink_phaseMs : (setLink l s).phaseMs = s.phaseMs := rfl
@[simp] theorem setLink_cells : (setLink l s).cells = s.cells := rfl
@[simp] theorem setLink_nextPlacement : (setLink l s).nextPlacement = s.nextPlacement := rfl
@[simp] theorem setLink_ringQueue : (setLink l s).ringQueue = s.ringQueue := rfl
@[simp] theorem setLink_align : (setLink l s).align = s.align := rfl
@[simp] theorem setLink_badWords : (setLink l s).badWords = s.badWords := rfl
@[simp] theorem setLink_foundWords : (setLink l s).foundWords = s.foundWords := rfl
@[simp] theorem setLink_huntAt : (setLink l s).huntAt = s.huntAt := rfl
@[simp] theorem setLink_lastOctet : (setLink l s).lastOctet = s.lastOctet := rfl
@[simp] theorem setLink_frameEnd : (setLink l s).frameEnd = s.frameEnd := rfl
@[simp] theorem setLink_frameHead : (setLink l s).frameHead = s.frameHead := rfl
@[simp] theorem setLink_score : (setLink l s).score = s.score := rfl
@[simp] theorem setLink_link : (setLink l s).link = l := rfl
@[simp] theorem setLink_run : (setLink l s).run = s.run := rfl
@[simp] theorem setLink_releaseFlag : (setLink l s).releaseFlag = s.releaseFlag := rfl
@[simp] theorem setLink_holdover : (setLink l s).holdover = s.holdover := rfl
@[simp] theorem setLink_restartTimer : (setLink l s).restartTimer = s.restartTimer := rfl
@[simp] theorem setLink_restartOwed : (setLink l s).restartOwed = s.restartOwed := rfl
@[simp] theorem setLink_restartRepeat : (setLink l s).restartRepeat = s.restartRepeat := rfl
@[simp] theorem setLink_txq : (setLink l s).txq = s.txq := rfl
@[simp] theorem setLink_inFlight : (setLink l s).inFlight = s.inFlight := rfl
@[simp] theorem setLink_flow : (setLink l s).flow = s.flow := rfl
@[simp] theorem setLink_sig : (setLink l s).sig = s.sig := rfl
@[simp] theorem setLink_assembler : (setLink l s).assembler = s.assembler := rfl
@[simp] theorem setLink_bus : (setLink l s).bus = s.bus := rfl
@[simp] theorem setLink_mode : (setLink l s).mode = s.mode := rfl
@[simp] theorem setLink_params : (setLink l s).params = s.params := rfl
@[simp] theorem setLink_selfTest : (setLink l s).selfTest = s.selfTest := rfl
@[simp] theorem setLink_rate : (setLink l s).rate = s.rate := rfl
@[simp] theorem setLink_receiver : (setLink l s).receiver = s.receiver := rfl
@[simp] theorem setLink_requests : (setLink l s).requests = s.requests := rfl
@[simp] theorem setLink_reply : (setLink l s).reply = s.reply := rfl
@[simp] theorem setLink_tx : (setLink l s).tx = s.tx := rfl
@[simp] theorem setLink_reports : (setLink l s).reports = s.reports := rfl
@[simp] theorem setLink_requestLost : (setLink l s).requestLost = s.requestLost := rfl
@[simp] theorem setLink_reportLost : (setLink l s).reportLost = s.reportLost := rfl
@[simp] theorem setLink_alarms : (setLink l s).alarms = s.alarms := rfl
@[simp] theorem setLink_warm : (setLink l s).warm = s.warm := rfl
end setLink

section setFree
variable (f : List SlotId) (s : State)
@[simp] theorem setFree_pending : (setFree f s).pending = s.pending := rfl
@[simp] theorem setFree_power : (setFree f s).power = s.power := rfl
@[simp] theorem setFree_freeIndex : (setFree f s).freeIndex = s.freeIndex := rfl
@[simp] theorem setFree_hookPin : (setFree f s).hookPin = s.hookPin := rfl
@[simp] theorem setFree_faultPin : (setFree f s).faultPin = s.faultPin := rfl
@[simp] theorem setFree_codecIn : (setFree f s).codecIn = s.codecIn := rfl
@[simp] theorem setFree_ringDrive : (setFree f s).ringDrive = s.ringDrive := rfl
@[simp] theorem setFree_rxBearer : (setFree f s).rxBearer = s.rxBearer := rfl
@[simp] theorem setFree_trunkTx : (setFree f s).trunkTx = s.trunkTx := rfl
@[simp] theorem setFree_ports : (setFree f s).ports = s.ports := rfl
@[simp] theorem setFree_scan : (setFree f s).scan = s.scan := rfl
@[simp] theorem setFree_buffers : (setFree f s).buffers = s.buffers := rfl
@[simp] theorem setFree_groups : (setFree f s).groups = s.groups := rfl
@[simp] theorem setFree_oddSample : (setFree f s).oddSample = s.oddSample := rfl
@[simp] theorem setFree_lines : (setFree f s).lines = s.lines := rfl
@[simp] theorem setFree_slots : (setFree f s).slots = s.slots := rfl
@[simp] theorem setFree_free : (setFree f s).free = f := rfl
@[simp] theorem setFree_waitQueue : (setFree f s).waitQueue = s.waitQueue := rfl
@[simp] theorem setFree_posture : (setFree f s).posture = s.posture := rfl
@[simp] theorem setFree_mark : (setFree f s).mark = s.mark := rfl
@[simp] theorem setFree_nextTag : (setFree f s).nextTag = s.nextTag := rfl
@[simp] theorem setFree_nextOrder : (setFree f s).nextOrder = s.nextOrder := rfl
@[simp] theorem setFree_phase : (setFree f s).phase = s.phase := rfl
@[simp] theorem setFree_phaseMs : (setFree f s).phaseMs = s.phaseMs := rfl
@[simp] theorem setFree_cells : (setFree f s).cells = s.cells := rfl
@[simp] theorem setFree_nextPlacement : (setFree f s).nextPlacement = s.nextPlacement := rfl
@[simp] theorem setFree_ringQueue : (setFree f s).ringQueue = s.ringQueue := rfl
@[simp] theorem setFree_align : (setFree f s).align = s.align := rfl
@[simp] theorem setFree_badWords : (setFree f s).badWords = s.badWords := rfl
@[simp] theorem setFree_foundWords : (setFree f s).foundWords = s.foundWords := rfl
@[simp] theorem setFree_huntAt : (setFree f s).huntAt = s.huntAt := rfl
@[simp] theorem setFree_lastOctet : (setFree f s).lastOctet = s.lastOctet := rfl
@[simp] theorem setFree_frameEnd : (setFree f s).frameEnd = s.frameEnd := rfl
@[simp] theorem setFree_frameHead : (setFree f s).frameHead = s.frameHead := rfl
@[simp] theorem setFree_score : (setFree f s).score = s.score := rfl
@[simp] theorem setFree_link : (setFree f s).link = s.link := rfl
@[simp] theorem setFree_run : (setFree f s).run = s.run := rfl
@[simp] theorem setFree_releaseFlag : (setFree f s).releaseFlag = s.releaseFlag := rfl
@[simp] theorem setFree_holdover : (setFree f s).holdover = s.holdover := rfl
@[simp] theorem setFree_restartTimer : (setFree f s).restartTimer = s.restartTimer := rfl
@[simp] theorem setFree_restartOwed : (setFree f s).restartOwed = s.restartOwed := rfl
@[simp] theorem setFree_restartRepeat : (setFree f s).restartRepeat = s.restartRepeat := rfl
@[simp] theorem setFree_txq : (setFree f s).txq = s.txq := rfl
@[simp] theorem setFree_inFlight : (setFree f s).inFlight = s.inFlight := rfl
@[simp] theorem setFree_flow : (setFree f s).flow = s.flow := rfl
@[simp] theorem setFree_sig : (setFree f s).sig = s.sig := rfl
@[simp] theorem setFree_assembler : (setFree f s).assembler = s.assembler := rfl
@[simp] theorem setFree_bus : (setFree f s).bus = s.bus := rfl
@[simp] theorem setFree_mode : (setFree f s).mode = s.mode := rfl
@[simp] theorem setFree_params : (setFree f s).params = s.params := rfl
@[simp] theorem setFree_selfTest : (setFree f s).selfTest = s.selfTest := rfl
@[simp] theorem setFree_rate : (setFree f s).rate = s.rate := rfl
@[simp] theorem setFree_receiver : (setFree f s).receiver = s.receiver := rfl
@[simp] theorem setFree_requests : (setFree f s).requests = s.requests := rfl
@[simp] theorem setFree_reply : (setFree f s).reply = s.reply := rfl
@[simp] theorem setFree_tx : (setFree f s).tx = s.tx := rfl
@[simp] theorem setFree_reports : (setFree f s).reports = s.reports := rfl
@[simp] theorem setFree_requestLost : (setFree f s).requestLost = s.requestLost := rfl
@[simp] theorem setFree_reportLost : (setFree f s).reportLost = s.reportLost := rfl
@[simp] theorem setFree_alarms : (setFree f s).alarms = s.alarms := rfl
@[simp] theorem setFree_warm : (setFree f s).warm = s.warm := rfl
end setFree

section setMark
variable (m : Option SlotId) (s : State)
@[simp] theorem setMark_pending : (setMark m s).pending = s.pending := rfl
@[simp] theorem setMark_power : (setMark m s).power = s.power := rfl
@[simp] theorem setMark_freeIndex : (setMark m s).freeIndex = s.freeIndex := rfl
@[simp] theorem setMark_hookPin : (setMark m s).hookPin = s.hookPin := rfl
@[simp] theorem setMark_faultPin : (setMark m s).faultPin = s.faultPin := rfl
@[simp] theorem setMark_codecIn : (setMark m s).codecIn = s.codecIn := rfl
@[simp] theorem setMark_ringDrive : (setMark m s).ringDrive = s.ringDrive := rfl
@[simp] theorem setMark_rxBearer : (setMark m s).rxBearer = s.rxBearer := rfl
@[simp] theorem setMark_trunkTx : (setMark m s).trunkTx = s.trunkTx := rfl
@[simp] theorem setMark_ports : (setMark m s).ports = s.ports := rfl
@[simp] theorem setMark_scan : (setMark m s).scan = s.scan := rfl
@[simp] theorem setMark_buffers : (setMark m s).buffers = s.buffers := rfl
@[simp] theorem setMark_groups : (setMark m s).groups = s.groups := rfl
@[simp] theorem setMark_oddSample : (setMark m s).oddSample = s.oddSample := rfl
@[simp] theorem setMark_lines : (setMark m s).lines = s.lines := rfl
@[simp] theorem setMark_slots : (setMark m s).slots = s.slots := rfl
@[simp] theorem setMark_free : (setMark m s).free = s.free := rfl
@[simp] theorem setMark_waitQueue : (setMark m s).waitQueue = s.waitQueue := rfl
@[simp] theorem setMark_posture : (setMark m s).posture = s.posture := rfl
@[simp] theorem setMark_mark : (setMark m s).mark = m := rfl
@[simp] theorem setMark_nextTag : (setMark m s).nextTag = s.nextTag := rfl
@[simp] theorem setMark_nextOrder : (setMark m s).nextOrder = s.nextOrder := rfl
@[simp] theorem setMark_phase : (setMark m s).phase = s.phase := rfl
@[simp] theorem setMark_phaseMs : (setMark m s).phaseMs = s.phaseMs := rfl
@[simp] theorem setMark_cells : (setMark m s).cells = s.cells := rfl
@[simp] theorem setMark_nextPlacement : (setMark m s).nextPlacement = s.nextPlacement := rfl
@[simp] theorem setMark_ringQueue : (setMark m s).ringQueue = s.ringQueue := rfl
@[simp] theorem setMark_align : (setMark m s).align = s.align := rfl
@[simp] theorem setMark_badWords : (setMark m s).badWords = s.badWords := rfl
@[simp] theorem setMark_foundWords : (setMark m s).foundWords = s.foundWords := rfl
@[simp] theorem setMark_huntAt : (setMark m s).huntAt = s.huntAt := rfl
@[simp] theorem setMark_lastOctet : (setMark m s).lastOctet = s.lastOctet := rfl
@[simp] theorem setMark_frameEnd : (setMark m s).frameEnd = s.frameEnd := rfl
@[simp] theorem setMark_frameHead : (setMark m s).frameHead = s.frameHead := rfl
@[simp] theorem setMark_score : (setMark m s).score = s.score := rfl
@[simp] theorem setMark_link : (setMark m s).link = s.link := rfl
@[simp] theorem setMark_run : (setMark m s).run = s.run := rfl
@[simp] theorem setMark_releaseFlag : (setMark m s).releaseFlag = s.releaseFlag := rfl
@[simp] theorem setMark_holdover : (setMark m s).holdover = s.holdover := rfl
@[simp] theorem setMark_restartTimer : (setMark m s).restartTimer = s.restartTimer := rfl
@[simp] theorem setMark_restartOwed : (setMark m s).restartOwed = s.restartOwed := rfl
@[simp] theorem setMark_restartRepeat : (setMark m s).restartRepeat = s.restartRepeat := rfl
@[simp] theorem setMark_txq : (setMark m s).txq = s.txq := rfl
@[simp] theorem setMark_inFlight : (setMark m s).inFlight = s.inFlight := rfl
@[simp] theorem setMark_flow : (setMark m s).flow = s.flow := rfl
@[simp] theorem setMark_sig : (setMark m s).sig = s.sig := rfl
@[simp] theorem setMark_assembler : (setMark m s).assembler = s.assembler := rfl
@[simp] theorem setMark_bus : (setMark m s).bus = s.bus := rfl
@[simp] theorem setMark_mode : (setMark m s).mode = s.mode := rfl
@[simp] theorem setMark_params : (setMark m s).params = s.params := rfl
@[simp] theorem setMark_selfTest : (setMark m s).selfTest = s.selfTest := rfl
@[simp] theorem setMark_rate : (setMark m s).rate = s.rate := rfl
@[simp] theorem setMark_receiver : (setMark m s).receiver = s.receiver := rfl
@[simp] theorem setMark_requests : (setMark m s).requests = s.requests := rfl
@[simp] theorem setMark_reply : (setMark m s).reply = s.reply := rfl
@[simp] theorem setMark_tx : (setMark m s).tx = s.tx := rfl
@[simp] theorem setMark_reports : (setMark m s).reports = s.reports := rfl
@[simp] theorem setMark_requestLost : (setMark m s).requestLost = s.requestLost := rfl
@[simp] theorem setMark_reportLost : (setMark m s).reportLost = s.reportLost := rfl
@[simp] theorem setMark_alarms : (setMark m s).alarms = s.alarms := rfl
@[simp] theorem setMark_warm : (setMark m s).warm = s.warm := rfl
end setMark

section setNextTag
variable (n : Nat) (s : State)
@[simp] theorem setNextTag_pending : (setNextTag n s).pending = s.pending := rfl
@[simp] theorem setNextTag_power : (setNextTag n s).power = s.power := rfl
@[simp] theorem setNextTag_freeIndex : (setNextTag n s).freeIndex = s.freeIndex := rfl
@[simp] theorem setNextTag_hookPin : (setNextTag n s).hookPin = s.hookPin := rfl
@[simp] theorem setNextTag_faultPin : (setNextTag n s).faultPin = s.faultPin := rfl
@[simp] theorem setNextTag_codecIn : (setNextTag n s).codecIn = s.codecIn := rfl
@[simp] theorem setNextTag_ringDrive : (setNextTag n s).ringDrive = s.ringDrive := rfl
@[simp] theorem setNextTag_rxBearer : (setNextTag n s).rxBearer = s.rxBearer := rfl
@[simp] theorem setNextTag_trunkTx : (setNextTag n s).trunkTx = s.trunkTx := rfl
@[simp] theorem setNextTag_ports : (setNextTag n s).ports = s.ports := rfl
@[simp] theorem setNextTag_scan : (setNextTag n s).scan = s.scan := rfl
@[simp] theorem setNextTag_buffers : (setNextTag n s).buffers = s.buffers := rfl
@[simp] theorem setNextTag_groups : (setNextTag n s).groups = s.groups := rfl
@[simp] theorem setNextTag_oddSample : (setNextTag n s).oddSample = s.oddSample := rfl
@[simp] theorem setNextTag_lines : (setNextTag n s).lines = s.lines := rfl
@[simp] theorem setNextTag_slots : (setNextTag n s).slots = s.slots := rfl
@[simp] theorem setNextTag_free : (setNextTag n s).free = s.free := rfl
@[simp] theorem setNextTag_waitQueue : (setNextTag n s).waitQueue = s.waitQueue := rfl
@[simp] theorem setNextTag_posture : (setNextTag n s).posture = s.posture := rfl
@[simp] theorem setNextTag_mark : (setNextTag n s).mark = s.mark := rfl
@[simp] theorem setNextTag_nextTag : (setNextTag n s).nextTag = n := rfl
@[simp] theorem setNextTag_nextOrder : (setNextTag n s).nextOrder = s.nextOrder := rfl
@[simp] theorem setNextTag_phase : (setNextTag n s).phase = s.phase := rfl
@[simp] theorem setNextTag_phaseMs : (setNextTag n s).phaseMs = s.phaseMs := rfl
@[simp] theorem setNextTag_cells : (setNextTag n s).cells = s.cells := rfl
@[simp] theorem setNextTag_nextPlacement : (setNextTag n s).nextPlacement = s.nextPlacement := rfl
@[simp] theorem setNextTag_ringQueue : (setNextTag n s).ringQueue = s.ringQueue := rfl
@[simp] theorem setNextTag_align : (setNextTag n s).align = s.align := rfl
@[simp] theorem setNextTag_badWords : (setNextTag n s).badWords = s.badWords := rfl
@[simp] theorem setNextTag_foundWords : (setNextTag n s).foundWords = s.foundWords := rfl
@[simp] theorem setNextTag_huntAt : (setNextTag n s).huntAt = s.huntAt := rfl
@[simp] theorem setNextTag_lastOctet : (setNextTag n s).lastOctet = s.lastOctet := rfl
@[simp] theorem setNextTag_frameEnd : (setNextTag n s).frameEnd = s.frameEnd := rfl
@[simp] theorem setNextTag_frameHead : (setNextTag n s).frameHead = s.frameHead := rfl
@[simp] theorem setNextTag_score : (setNextTag n s).score = s.score := rfl
@[simp] theorem setNextTag_link : (setNextTag n s).link = s.link := rfl
@[simp] theorem setNextTag_run : (setNextTag n s).run = s.run := rfl
@[simp] theorem setNextTag_releaseFlag : (setNextTag n s).releaseFlag = s.releaseFlag := rfl
@[simp] theorem setNextTag_holdover : (setNextTag n s).holdover = s.holdover := rfl
@[simp] theorem setNextTag_restartTimer : (setNextTag n s).restartTimer = s.restartTimer := rfl
@[simp] theorem setNextTag_restartOwed : (setNextTag n s).restartOwed = s.restartOwed := rfl
@[simp] theorem setNextTag_restartRepeat : (setNextTag n s).restartRepeat = s.restartRepeat := rfl
@[simp] theorem setNextTag_txq : (setNextTag n s).txq = s.txq := rfl
@[simp] theorem setNextTag_inFlight : (setNextTag n s).inFlight = s.inFlight := rfl
@[simp] theorem setNextTag_flow : (setNextTag n s).flow = s.flow := rfl
@[simp] theorem setNextTag_sig : (setNextTag n s).sig = s.sig := rfl
@[simp] theorem setNextTag_assembler : (setNextTag n s).assembler = s.assembler := rfl
@[simp] theorem setNextTag_bus : (setNextTag n s).bus = s.bus := rfl
@[simp] theorem setNextTag_mode : (setNextTag n s).mode = s.mode := rfl
@[simp] theorem setNextTag_params : (setNextTag n s).params = s.params := rfl
@[simp] theorem setNextTag_selfTest : (setNextTag n s).selfTest = s.selfTest := rfl
@[simp] theorem setNextTag_rate : (setNextTag n s).rate = s.rate := rfl
@[simp] theorem setNextTag_receiver : (setNextTag n s).receiver = s.receiver := rfl
@[simp] theorem setNextTag_requests : (setNextTag n s).requests = s.requests := rfl
@[simp] theorem setNextTag_reply : (setNextTag n s).reply = s.reply := rfl
@[simp] theorem setNextTag_tx : (setNextTag n s).tx = s.tx := rfl
@[simp] theorem setNextTag_reports : (setNextTag n s).reports = s.reports := rfl
@[simp] theorem setNextTag_requestLost : (setNextTag n s).requestLost = s.requestLost := rfl
@[simp] theorem setNextTag_reportLost : (setNextTag n s).reportLost = s.reportLost := rfl
@[simp] theorem setNextTag_alarms : (setNextTag n s).alarms = s.alarms := rfl
@[simp] theorem setNextTag_warm : (setNextTag n s).warm = s.warm := rfl
end setNextTag

section setNextOrder
variable (n : Nat) (s : State)
@[simp] theorem setNextOrder_pending : (setNextOrder n s).pending = s.pending := rfl
@[simp] theorem setNextOrder_power : (setNextOrder n s).power = s.power := rfl
@[simp] theorem setNextOrder_freeIndex : (setNextOrder n s).freeIndex = s.freeIndex := rfl
@[simp] theorem setNextOrder_hookPin : (setNextOrder n s).hookPin = s.hookPin := rfl
@[simp] theorem setNextOrder_faultPin : (setNextOrder n s).faultPin = s.faultPin := rfl
@[simp] theorem setNextOrder_codecIn : (setNextOrder n s).codecIn = s.codecIn := rfl
@[simp] theorem setNextOrder_ringDrive : (setNextOrder n s).ringDrive = s.ringDrive := rfl
@[simp] theorem setNextOrder_rxBearer : (setNextOrder n s).rxBearer = s.rxBearer := rfl
@[simp] theorem setNextOrder_trunkTx : (setNextOrder n s).trunkTx = s.trunkTx := rfl
@[simp] theorem setNextOrder_ports : (setNextOrder n s).ports = s.ports := rfl
@[simp] theorem setNextOrder_scan : (setNextOrder n s).scan = s.scan := rfl
@[simp] theorem setNextOrder_buffers : (setNextOrder n s).buffers = s.buffers := rfl
@[simp] theorem setNextOrder_groups : (setNextOrder n s).groups = s.groups := rfl
@[simp] theorem setNextOrder_oddSample : (setNextOrder n s).oddSample = s.oddSample := rfl
@[simp] theorem setNextOrder_lines : (setNextOrder n s).lines = s.lines := rfl
@[simp] theorem setNextOrder_slots : (setNextOrder n s).slots = s.slots := rfl
@[simp] theorem setNextOrder_free : (setNextOrder n s).free = s.free := rfl
@[simp] theorem setNextOrder_waitQueue : (setNextOrder n s).waitQueue = s.waitQueue := rfl
@[simp] theorem setNextOrder_posture : (setNextOrder n s).posture = s.posture := rfl
@[simp] theorem setNextOrder_mark : (setNextOrder n s).mark = s.mark := rfl
@[simp] theorem setNextOrder_nextTag : (setNextOrder n s).nextTag = s.nextTag := rfl
@[simp] theorem setNextOrder_nextOrder : (setNextOrder n s).nextOrder = n := rfl
@[simp] theorem setNextOrder_phase : (setNextOrder n s).phase = s.phase := rfl
@[simp] theorem setNextOrder_phaseMs : (setNextOrder n s).phaseMs = s.phaseMs := rfl
@[simp] theorem setNextOrder_cells : (setNextOrder n s).cells = s.cells := rfl
@[simp] theorem setNextOrder_nextPlacement : (setNextOrder n s).nextPlacement = s.nextPlacement := rfl
@[simp] theorem setNextOrder_ringQueue : (setNextOrder n s).ringQueue = s.ringQueue := rfl
@[simp] theorem setNextOrder_align : (setNextOrder n s).align = s.align := rfl
@[simp] theorem setNextOrder_badWords : (setNextOrder n s).badWords = s.badWords := rfl
@[simp] theorem setNextOrder_foundWords : (setNextOrder n s).foundWords = s.foundWords := rfl
@[simp] theorem setNextOrder_huntAt : (setNextOrder n s).huntAt = s.huntAt := rfl
@[simp] theorem setNextOrder_lastOctet : (setNextOrder n s).lastOctet = s.lastOctet := rfl
@[simp] theorem setNextOrder_frameEnd : (setNextOrder n s).frameEnd = s.frameEnd := rfl
@[simp] theorem setNextOrder_frameHead : (setNextOrder n s).frameHead = s.frameHead := rfl
@[simp] theorem setNextOrder_score : (setNextOrder n s).score = s.score := rfl
@[simp] theorem setNextOrder_link : (setNextOrder n s).link = s.link := rfl
@[simp] theorem setNextOrder_run : (setNextOrder n s).run = s.run := rfl
@[simp] theorem setNextOrder_releaseFlag : (setNextOrder n s).releaseFlag = s.releaseFlag := rfl
@[simp] theorem setNextOrder_holdover : (setNextOrder n s).holdover = s.holdover := rfl
@[simp] theorem setNextOrder_restartTimer : (setNextOrder n s).restartTimer = s.restartTimer := rfl
@[simp] theorem setNextOrder_restartOwed : (setNextOrder n s).restartOwed = s.restartOwed := rfl
@[simp] theorem setNextOrder_restartRepeat : (setNextOrder n s).restartRepeat = s.restartRepeat := rfl
@[simp] theorem setNextOrder_txq : (setNextOrder n s).txq = s.txq := rfl
@[simp] theorem setNextOrder_inFlight : (setNextOrder n s).inFlight = s.inFlight := rfl
@[simp] theorem setNextOrder_flow : (setNextOrder n s).flow = s.flow := rfl
@[simp] theorem setNextOrder_sig : (setNextOrder n s).sig = s.sig := rfl
@[simp] theorem setNextOrder_assembler : (setNextOrder n s).assembler = s.assembler := rfl
@[simp] theorem setNextOrder_bus : (setNextOrder n s).bus = s.bus := rfl
@[simp] theorem setNextOrder_mode : (setNextOrder n s).mode = s.mode := rfl
@[simp] theorem setNextOrder_params : (setNextOrder n s).params = s.params := rfl
@[simp] theorem setNextOrder_selfTest : (setNextOrder n s).selfTest = s.selfTest := rfl
@[simp] theorem setNextOrder_rate : (setNextOrder n s).rate = s.rate := rfl
@[simp] theorem setNextOrder_receiver : (setNextOrder n s).receiver = s.receiver := rfl
@[simp] theorem setNextOrder_requests : (setNextOrder n s).requests = s.requests := rfl
@[simp] theorem setNextOrder_reply : (setNextOrder n s).reply = s.reply := rfl
@[simp] theorem setNextOrder_tx : (setNextOrder n s).tx = s.tx := rfl
@[simp] theorem setNextOrder_reports : (setNextOrder n s).reports = s.reports := rfl
@[simp] theorem setNextOrder_requestLost : (setNextOrder n s).requestLost = s.requestLost := rfl
@[simp] theorem setNextOrder_reportLost : (setNextOrder n s).reportLost = s.reportLost := rfl
@[simp] theorem setNextOrder_alarms : (setNextOrder n s).alarms = s.alarms := rfl
@[simp] theorem setNextOrder_warm : (setNextOrder n s).warm = s.warm := rfl
end setNextOrder

end Sys2Proof.Machine
end

