-- ==== Sys2Proof/Laws/Frames.lean ====
section
/-! SUPPORT. What the shared operations leave alone: each keeps the state apart from the blocks it acts on. From
`op_calls : (op s).apartFromCalls = s.apartFromCalls` one field follows by `congrArg State.link`. -/

namespace Sys2Proof.Machine

/-! ## Lists of actions -/

/-- What every action of a list keeps, the list keeps. -/
theorem inTurn_keeps {α β : Type} (g : State → β) (f : α → State → State) (h : ∀ x t, g (f x t) = g t) (xs : List α)
    (s : State) : g (inTurn xs f s) = g s := by
  unfold inTurn
  induction xs generalizing s with
  | nil => rfl
  | cons x xs ih => rw [List.foldl_cons, ih, h]

/-- A property that every action of a list keeps, the list keeps. -/
theorem inTurn_induct {α : Type} (I : State → Prop) (f : α → State → State) (xs : List α)
    (h : ∀ x ∈ xs, ∀ t, I t → I (f x t)) (s : State) (hs : I s) : I (inTurn xs f s) := by
  unfold inTurn
  induction xs generalizing s with
  | nil => exact hs
  | cons x xs ih =>
    rw [List.foldl_cons]
    exact ih (fun y hy => h y (List.mem_cons_of_mem x hy)) _ (h x List.mem_cons_self s hs)

/-! ## From the narrower to the wider -/

theorem lines_of_port {s t : State} (h : t.apartFromPort = s.apartFromPort) : t.apartFromLines = s.apartFromLines := by
  unfold State.apartFromLines; rw [h]

theorem calls_of_lines {s t : State} (h : t.apartFromLines = s.apartFromLines) : t.apartFromCalls = s.apartFromCalls := by
  unfold State.apartFromCalls; rw [h]

theorem calls_of_port {s t : State} (h : t.apartFromPort = s.apartFromPort) : t.apartFromCalls = s.apartFromCalls :=
  calls_of_lines (lines_of_port h)

/-! ## The sending side of the control port -/

@[simp] theorem serve_port (s : State) : (serve s).apartFromPort = s.apartFromPort := by
  unfold serve; repeat' split
  all_goals rfl
@[simp] theorem queueReport_port (r : Report) (s : State) : (queueReport r s).apartFromPort = s.apartFromPort := by
  unfold queueReport; split <;> rfl
@[simp] theorem report_port (r : Report) (s : State) : (report r s).apartFromPort = s.apartFromPort := by
  unfold report; rw [serve_port, queueReport_port]
@[simp] theorem callEvent_port (p : Port) (st : LineState) (r : Reason) (s : State) :
    (callEvent p st r s).apartFromPort = s.apartFromPort := report_port _ s
@[simp] theorem noteEvent_port (p : Port) (n : Note) (s : State) :
    (noteEvent p n s).apartFromPort = s.apartFromPort := report_port _ s
@[simp] theorem answer_port (num : Byte) (o : ReplyOutcome) (s : State) :
    (answer num o s).apartFromPort = s.apartFromPort := by unfold answer; rw [serve_port]; rfl
@[simp] theorem joinRequests_port (r : Request) (s : State) : (joinRequests r s).apartFromPort = s.apartFromPort := by
  unfold joinRequests; split <;> rfl
@[simp] theorem linkEvent_port (s : State) : (linkEvent s).apartFromPort = s.apartFromPort := report_port _ s

/-! ## Reports made -/

/-- The transmitter starting a record makes no report and loses none. -/
@[simp] theorem serve_unsent (s : State) : unsent (serve s) = unsent s := by
  unfold serve unsent; repeat' split
  all_goals simp_all

/-- The transmitter takes at most one report out of the queue. -/
theorem serve_reports (s : State) : (serve s).reports.length ≤ s.reports.length := by
  unfold serve; repeat' split
  all_goals simp_all

/-- A report made with room joins the unsent reports at their end. -/
theorem report_unsent (r : Report) (s : State) (h : Room 1 s) : unsent (report r s) = unsent s ++ [r] := by
  unfold report Room at *
  rw [serve_unsent]
  unfold queueReport unsent
  rw [if_pos (by omega)]
  dsimp only
  split <;> simp

/-- A report takes at most the one place it needs. -/
theorem report_room {n : Nat} (r : Report) (s : State) (h : Room (n + 1) s) : Room n (report r s) := by
  have h' := serve_reports (queueReport r s)
  have hq : (queueReport r s).reports.length ≤ s.reports.length + 1 := by
    unfold queueReport; split <;> simp
  unfold report Room at *
  omega

/-- No queue outgrows its size by a report. -/
theorem report_bounded (r : Report) (s : State) (h : s.reports.length ≤ Config.reportPlaces) :
    (report r s).reports.length ≤ Config.reportPlaces := by
  have h' := serve_reports (queueReport r s)
  have hq : (queueReport r s).reports.length ≤ Config.reportPlaces := by
    unfold queueReport; split
    · simp; omega
    · exact h
  unfold report
  omega

/-! ## Lines -/

@[simp] theorem setScan_lines' (p : Port) (c : Scanner) (s : State) : (setScan p c s).apartFromLines = s.apartFromLines := rfl
@[simp] theorem setBuffer_lines' (p : Port) (b : DigitBuffer) (s : State) : (setBuffer p b s).apartFromLines = s.apartFromLines := rfl
@[simp] theorem setLine_lines' (p : Port) (l : Line) (s : State) : (setLine p l s).apartFromLines = s.apartFromLines := rfl
@[simp] theorem setGroup_lines' (g : GroupId) (r : Group) (s : State) : (setGroup g r s).apartFromLines = s.apartFromLines := rfl
@[simp] theorem setWaitQueue_lines' (q : List Port) (s : State) : (setWaitQueue q s).apartFromLines = s.apartFromLines := rfl
@[simp] theorem setRingQueue_lines' (q : List Port) (s : State) : (setRingQueue q s).apartFromLines = s.apartFromLines := rfl
@[simp] theorem setCell_lines' (k : Fin 6) (c : List Placed) (s : State) : (setCell k c s).apartFromLines = s.apartFromLines := rfl
@[simp] theorem setBus_lines' (b : TestBus) (s : State) : (setBus b s).apartFromLines = s.apartFromLines := rfl
@[simp] theorem report_lines' (r : Report) (s : State) : (report r s).apartFromLines = s.apartFromLines :=
  lines_of_port (report_port r s)
@[simp] theorem callEvent_lines' (p : Port) (st : LineState) (r : Reason) (s : State) :
    (callEvent p st r s).apartFromLines = s.apartFromLines := report_lines' _ s
@[simp] theorem emptyBuffer_lines' (p : Port) (s : State) : (emptyBuffer p s).apartFromLines = s.apartFromLines := rfl
@[simp] theorem clearRuns_lines' (g : GroupId) (s : State) : (clearRuns g s).apartFromLines = s.apartFromLines :=
  inTurn_keeps State.apartFromLines (fun p t => setScan p (t.scan.at p).runsCleared t) (fun _ _ => rfl) _ s
@[simp] theorem enterStandby_lines' (g : GroupId) (c : GroupCause) (s : State) :
    (enterStandby g c s).apartFromLines = s.apartFromLines := by unfold enterStandby; simp
@[simp] theorem enterWaking_lines' (g : GroupId) (c : GroupCause) (s : State) :
    (enterWaking g c s).apartFromLines = s.apartFromLines := by unfold enterWaking; simp
@[simp] theorem groupIdle_lines' (g : GroupId) (s : State) : (groupIdle g s).apartFromLines = s.apartFromLines := by
  unfold groupIdle; split <;> simp
@[simp] theorem leaveRing_lines' (p : Port) (s : State) : (leaveRing p s).apartFromLines = s.apartFromLines := rfl
@[simp] theorem advancePlacement_lines' (s : State) : (advancePlacement s).apartFromLines = s.apartFromLines := by
  unfold advancePlacement; split <;> rfl
@[simp] theorem placeIn_lines' (k : Fin 6) (p : Port) (s : State) : (placeIn k p s).apartFromLines = s.apartFromLines := by
  unfold placeIn; simp
@[simp] theorem handOn_lines' (p : Port) (s : State) : (handOn p s).apartFromLines = s.apartFromLines := by
  unfold handOn; split <;> simp
@[simp] theorem scanOne_lines' (p : Port) (s : State) : (scanOne p s).apartFromLines = s.apartFromLines := by
  unfold scanOne; split <;> simp
@[simp] theorem scanRing_lines' (s : State) : (scanRing s).apartFromLines = s.apartFromLines :=
  inTurn_keeps State.apartFromLines _ scanOne_lines' _ s
@[simp] theorem emptyRing_lines' (s : State) : (emptyRing s).apartFromLines = s.apartFromLines := rfl
@[simp] theorem moveLine_lines' (p : Port) (st : LineState) (call : Option (SlotId × Direction)) (timer : Option Nat)
    (s : State) : (moveLine p st call timer s).apartFromLines = s.apartFromLines := by
  unfold moveLine; dsimp only; repeat' split
  all_goals simp
@[simp] theorem grantBus_lines' (p : Port) (g : Grant) (s : State) : (grantBus p g s).apartFromLines = s.apartFromLines := by
  unfold grantBus; simp
@[simp] theorem enterLine_lines' (p : Port) (st : LineState) (call : Option (SlotId × Direction)) (timer : Option Nat)
    (r : Reason) (s : State) : (enterLine p st call timer r s).apartFromLines = s.apartFromLines := by
  unfold enterLine; dsimp only; repeat' split
  all_goals simp
@[simp] theorem enterBare_lines' (p : Port) (st : LineState) (r : Reason) (s : State) :
    (enterBare p st r s).apartFromLines = s.apartFromLines := enterLine_lines' p st none none r s

/-! ## Calls -/

@[simp] theorem setSlot_calls (i : SlotId) (sl : Slot) (s : State) : (setSlot i sl s).apartFromCalls = s.apartFromCalls := rfl
@[simp] theorem setSig_calls (i : SlotId) (g : Sig) (s : State) : (setSig i g s).apartFromCalls = s.apartFromCalls := rfl
@[simp] theorem setTxq_calls (q : List Entry) (s : State) : (setTxq q s).apartFromCalls = s.apartFromCalls := rfl
@[simp] theorem setFree_calls (f : List SlotId) (s : State) : (setFree f s).apartFromCalls = s.apartFromCalls := rfl
@[simp] theorem setMark_calls (m : Option SlotId) (s : State) : (setMark m s).apartFromCalls = s.apartFromCalls := rfl
@[simp] theorem setMode_calls (m : Mode) (s : State) : (setMode m s).apartFromCalls = s.apartFromCalls := rfl
@[simp] theorem setLine_calls (p : Port) (l : Line) (s : State) : (setLine p l s).apartFromCalls = s.apartFromCalls := rfl
@[simp] theorem report_calls (r : Report) (s : State) : (report r s).apartFromCalls = s.apartFromCalls :=
  calls_of_port (report_port r s)
@[simp] theorem enterLine_calls (p : Port) (st : LineState) (call : Option (SlotId × Direction)) (timer : Option Nat)
    (r : Reason) (s : State) : (enterLine p st call timer r s).apartFromCalls = s.apartFromCalls :=
  calls_of_lines (enterLine_lines' p st call timer r s)
@[simp] theorem enterBare_calls (p : Port) (st : LineState) (r : Reason) (s : State) :
    (enterBare p st r s).apartFromCalls = s.apartFromCalls := enterLine_calls p st none none r s
@[simp] theorem scanRing_calls (s : State) : (scanRing s).apartFromCalls = s.apartFromCalls := calls_of_lines (scanRing_lines' s)
@[simp] theorem addEntry_calls (u : Bool) (m : Msg) (s : State) : (addEntry u m s).apartFromCalls = s.apartFromCalls := by
  unfold addEntry; dsimp only; split <;> rfl
@[simp] theorem addFreeEntry_calls (m : FreeMsg) (s : State) : (addFreeEntry m s).apartFromCalls = s.apartFromCalls := by
  unfold addFreeEntry; split <;> simp
@[simp] theorem makeRestart_calls (s : State) : (makeRestart s).apartFromCalls = s.apartFromCalls := by
  unfold makeRestart; split
  · exact addEntry_calls _ _ s
  · rfl
@[simp] theorem addSlotEntry_calls (u : Bool) (i : SlotId) (m : SlotMsg) (s : State) :
    (addSlotEntry u i m s).apartFromCalls = s.apartFromCalls := by unfold addSlotEntry; split <;> simp
@[simp] theorem removeEntries_calls (i : SlotId) (s : State) : (removeEntries i s).apartFromCalls = s.apartFromCalls := rfl
@[simp] theorem convertEntry_calls (i : SlotId) (m : SlotMsg) (s : State) :
    (convertEntry i m s).apartFromCalls = s.apartFromCalls := rfl
@[simp] theorem stopReplyTimer_calls (i : SlotId) (s : State) : (stopReplyTimer i s).apartFromCalls = s.apartFromCalls := rfl
@[simp] theorem setClearOwed_calls (i : SlotId) (o : Option ClearOwed) (s : State) :
    (setClearOwed i o s).apartFromCalls = s.apartFromCalls := rfl
@[simp] theorem makeLineOwed_calls (i : SlotId) (p : Port) (s : State) :
    (makeLineOwed i p s).apartFromCalls = s.apartFromCalls := by
  unfold makeLineOwed; dsimp only; repeat' split
  all_goals simp
@[simp] theorem makeOwed_calls (i : SlotId) (s : State) : (makeOwed i s).apartFromCalls = s.apartFromCalls := by
  unfold makeOwed; repeat' split
  all_goals simp
@[simp] theorem clearMarkOf_calls (i : SlotId) (s : State) : (clearMarkOf i s).apartFromCalls = s.apartFromCalls := rfl
@[simp] theorem freeSlot_calls (i : SlotId) (s : State) : (freeSlot i s).apartFromCalls = s.apartFromCalls := by
  unfold freeSlot; dsimp only; repeat' split
  all_goals simp
@[simp] theorem supersede_calls (i : SlotId) (o : ClearOwed) (s : State) :
    (supersede i o s).apartFromCalls = s.apartFromCalls := by
  unfold supersede; repeat' split
  all_goals simp
@[simp] theorem releaseOwing_calls (i : SlotId) (o : ClearOwed) (s : State) :
    (releaseOwing i o s).apartFromCalls = s.apartFromCalls := by unfold releaseOwing; split <;> simp
@[simp] theorem releaseLineOwing_calls (p : Port) (o : ClearOwed) (s : State) :
    (releaseLineOwing p o s).apartFromCalls = s.apartFromCalls := by unfold releaseLineOwing; split <;> simp
@[simp] theorem releaseLineLocally_calls (p : Port) (s : State) :
    (releaseLineLocally p s).apartFromCalls = s.apartFromCalls := by unfold releaseLineLocally; split <;> simp
@[simp] theorem releaseLine_calls (p : Port) (r : Reason) (s : State) :
    (releaseLine p r s).apartFromCalls = s.apartFromCalls := by unfold releaseLine; split <;> simp
@[simp] theorem endLine_calls (p : Port) (st : LineState) (r : Reason) (s : State) :
    (endLine p st r s).apartFromCalls = s.apartFromCalls := by unfold endLine; simp
@[simp] theorem setNextTag_calls (n : Nat) (s : State) : (setNextTag n s).apartFromCalls = s.apartFromCalls := rfl
@[simp] theorem advanceOrder_calls (s : State) : (advanceOrder s).apartFromCalls = s.apartFromCalls := by
  unfold advanceOrder; split <;> rfl
@[simp] theorem reserve_calls (i : SlotId) (p : Port) (d : Direction) (s : State) :
    (reserve i p d s).apartFromCalls = s.apartFromCalls := by
  unfold reserve; simp
@[simp] theorem admitLine_calls (p : Port) (i : SlotId) (s : State) : (admitLine p i s).apartFromCalls = s.apartFromCalls := by
  unfold admitLine; simp
@[simp] theorem admitHeads_calls (n : Nat) (s : State) : (admitHeads n s).apartFromCalls = s.apartFromCalls := by
  induction n generalizing s with
  | zero => rfl
  | succ n ih => unfold admitHeads; split <;> (try split) <;> simp [ih]
@[simp] theorem preempt_calls (i : SlotId) (p : Port) (s : State) : (preempt i p s).apartFromCalls = s.apartFromCalls := by
  unfold preempt; dsimp only; split <;> simp
@[simp] theorem attemptRound_calls (s : State) : (attemptRound s).1.apartFromCalls = s.apartFromCalls := by
  unfold attemptRound; dsimp only; repeat' split
  all_goals simp
@[simp] theorem attemptRounds_calls (n : Nat) (s : State) : (attemptRounds n s).apartFromCalls = s.apartFromCalls := by
  induction n generalizing s with
  | zero => rfl
  | succ n ih => rw [attemptRounds]; split <;> simp [ih]
@[simp] theorem attempt_calls (s : State) : (attempt s).apartFromCalls = s.apartFromCalls := attemptRounds_calls 21 s
@[simp] theorem stopHoldover_calls (s : State) : (stopHoldover s).apartFromCalls = s.apartFromCalls := by
  unfold stopHoldover; split <;> rfl
@[simp] theorem endPending_calls (s : State) : (endPending s).apartFromCalls = s.apartFromCalls := by
  unfold endPending; split <;> simp

/-- The end of an event writes nothing but what admissions, lines, slots, the transmit queue and the mode take. -/
@[simp] theorem finish_calls (old new : State) : (finish old new).apartFromCalls = new.apartFromCalls := by
  unfold finish; dsimp only; repeat' split
  all_goals simp

end Sys2Proof.Machine
end

