-- ==== Sys2Proof/Laws/Tables.lean ====
section
/-! SUPPORT. What a table holds after one record is replaced. -/

namespace Sys2Proof

@[simp] theorem Table.at_put_same {n : Nat} {α : Type} (t : Table n α) (i : Fin n) (a : α) : (t.put i a).at i = a := by
  simp [Table.at, Table.put]
@[simp] theorem Table.at_put_other {n : Nat} {α : Type} (t : Table n α) {i j : Fin n} (a : α) (h : j ≠ i) :
    (t.put i a).at j = t.at j := by
  simp [Table.at, Table.put, Fin.val_ne_of_ne h.symm]
theorem Table.at_put {n : Nat} {α : Type} (t : Table n α) (i j : Fin n) (a : α) :
    (t.put i a).at j = if j = i then a else t.at j := by
  split
  · next h => subst h; exact Table.at_put_same t j a
  · next h => exact Table.at_put_other t a h
@[simp] theorem Table.at_all {n : Nat} {α : Type} (a : α) (i : Fin n) : (Table.all n a).at i = a := by
  simp [Table.at, Table.all]
@[simp] theorem Table.put_at {n : Nat} {α : Type} (t : Table n α) (i : Fin n) : t.put i (t.at i) = t := by
  simp [Table.at, Table.put]
theorem Table.ext_at {n : Nat} {α : Type} {t u : Table n α} (h : ∀ i, t.at i = u.at i) : t = u :=
  Vector.ext fun k hk => h ⟨k, hk⟩

end Sys2Proof
end

