-- ==== Sys2Proof/Laws/Operations.lean ====
section
/-! SUPPORT. What the shared operations do, in the words of the statements: the transmit queue after an entry is made, a slot given up,
a request taken, and the end of an event that brings nothing with it. -/

namespace Sys2Proof.Machine

/-! ## The transmit queue -/

/-- An entry that can overtake, in the words of the queue. -/
theorem canOvertake_iff (s : State) (p : Port) :
    canOvertake s (some p) = true ↔ (∀ x ∈ s.txq, x.pinned = false) ∧ ∀ x ∈ queuedEntries s, x.line? ≠ some p := by
  unfold canOvertake
  simp

/-- Making an entry of a slot writes the transmit queue alone, as R155 gives. -/
theorem addEntry_eq (urgent : Bool) (i : SlotId) (p : Port) (tag : Nat) (m : SlotMsg) (s : State) :
    addEntry urgent (.ofSlot i p tag m) s
      = { s with txq := queueWith urgent { msg := .ofSlot i p tag m, pinned := false } s } := by
  by_cases h : urgent = true ∧ canOvertake s (some p) = true
  · have hq : queueWith urgent { msg := .ofSlot i p tag m, pinned := false } s
        = s.txq.take (flightCount s) ++ { msg := .ofSlot i p tag m, pinned := false } :: (queuedEntries s).map Entry.pin :=
      if_pos ⟨h.1, (canOvertake_iff s p).mp h.2⟩
    rw [hq]
    exact if_pos (by simpa [Entry.line?] using h)
  · have hq : queueWith urgent { msg := .ofSlot i p tag m, pinned := false } s
        = s.txq ++ [{ msg := .ofSlot i p tag m, pinned := false }] :=
      if_neg fun hc => h ⟨hc.1, (canOvertake_iff s p).mpr hc.2⟩
    rw [hq]
    exact if_neg (by simpa [Entry.line?] using h)

/-- An entry made for a slot names the slot's line and tag. -/
theorem addSlotEntry_eq (urgent : Bool) (i : SlotId) (m : SlotMsg) (s : State) {p : Port} {tag : Nat}
    (h : (s.slots.at i).party? = some (p, tag)) :
    addSlotEntry urgent i m s = { s with txq := queueWith urgent { msg := .ofSlot i p tag m, pinned := false } s } := by
  unfold addSlotEntry
  rw [h]
  exact addEntry_eq urgent i p tag m s

/-- An entry that is not urgent stands at the tail. -/
@[simp] theorem queueWith_false (e : Entry) (s : State) : queueWith false e s = s.txq ++ [e] := by
  simp [queueWith]

/-! ## A slot given up -/

/-- A slot with an unsent SEIZE has a queued entry. -/
theorem UnsentSeize.queued {s : State} {i : SlotId} (h : UnsentSeize s i) :
    ∃ e, queuedEntry s i = some e ∧ e.slotMsg? = some .seize := by
  obtain ⟨⟨e, he, hm⟩, -⟩ := h
  exact ⟨e, he, hm⟩

/-- With an unsent SEIZE the slot's entries go and the slot is released locally. -/
theorem supersede_unsent (i : SlotId) (o : ClearOwed) {s : State} (h : UnsentSeize s i) :
    supersede i o s = freeSlot i (removeEntries i s) := by
  obtain ⟨e, he, hm⟩ := h.queued
  unfold supersede
  rw [he]
  exact if_pos ⟨hm, h.2⟩

/-- With any other queued entry the entry becomes the clear item. -/
theorem supersede_queued (i : SlotId) (o : ClearOwed) {s : State} (h : ¬ UnsentSeize s i)
    (hq : (queuedEntry s i).isSome = true) : supersede i o s = convertEntry i o.msg s := by
  obtain ⟨e, he⟩ := Option.isSome_iff_exists.mp hq
  unfold supersede
  rw [he]
  exact if_neg fun hc => h ⟨⟨e, he, hc.1⟩, hc.2⟩

/-- With no queued entry the item waits behind the entry in flight, or is made. -/
theorem supersede_none (i : SlotId) (o : ClearOwed) {s : State} (hq : (queuedEntry s i).isSome = false) :
    supersede i o s = if flightSlot s = some i then setClearOwed i (some o) s else addSlotEntry false i o.msg s := by
  unfold supersede
  rw [Option.isSome_eq_false_iff.mp hq |> Option.isNone_iff_eq_none.mp]

/-- The entry in flight is not queued where each slot has one entry at most. -/
theorem flightSlot_ne {s : State} {i : SlotId} (he : OneEntryEach s) (hq : (queuedEntry s i).isSome = true) :
    flightSlot s ≠ some i := by
  intro hf
  obtain ⟨e, hq⟩ := Option.isSome_iff_exists.mp hq
  unfold flightSlot at hf
  split at hf
  · next hfl =>
    obtain ⟨x, hx, hxi⟩ := Option.bind_eq_some_iff.mp hf
    obtain ⟨rest, htxq⟩ : ∃ rest, s.txq = x :: rest := by
      cases hs : s.txq with
      | nil => rw [hs] at hx; exact nomatch hx
      | cons y ys => rw [hs] at hx; exact ⟨ys, by rw [Option.some.inj hx]⟩
    have hmem : e ∈ rest := by
      have := List.mem_of_find?_eq_some hq
      unfold queuedEntries flightCount at this
      rw [if_pos hfl, htxq] at this
      exact this
    have hei : e.slot? = some i := by simpa using List.find?_some hq
    have hn : (x :: rest).filterMap Entry.slot? = i :: rest.filterMap Entry.slot? := List.filterMap_cons_some hxi
    unfold OneEntryEach at he
    rw [htxq, hn, List.nodup_cons] at he
    exact he.1 (List.mem_filterMap.mpr ⟨e, hmem, hei⟩)
  · exact nomatch hf

/-- A slot in a call that its line gives up goes as Table 8.6 says. -/
theorem releaseOwing_superseded (i : SlotId) (o : ClearOwed) {s : State} {c : Call} (hc : (s.slots.at i).call? = some c)
    (he : OneEntryEach s) :
    Superseded i c.line c.tag (s.slots.at i).blockPending o s (releaseOwing i o s) := by
  let u := stopReplyTimer i (setSlot i (.clearing c.line c.tag o.side (s.slots.at i).blockPending) s)
  have hr : releaseOwing i o s = supersede i o u := by unfold releaseOwing; rw [hc]
  have hslot : u.slots.at i = .clearing c.line c.tag o.side (s.slots.at i).blockPending := Table.at_put_same _ _ _
  have hsig : u.sig.at i = { s.sig.at i with timer := none } := Table.at_put_same _ _ _
  have howed : (u.sig.at i).owed = (s.sig.at i).owed := by rw [hsig]
  have hqe : queuedEntry u i = queuedEntry s i := rfl
  have hun : UnsentSeize u i ↔ UnsentSeize s i := by unfold UnsentSeize; rw [hsig, hqe]
  rw [hr]
  by_cases h : UnsentSeize s i
  · obtain ⟨e, hq, -⟩ := h.queued
    have hfl : flightSlot s ≠ some i := flightSlot_ne he (by rw [hq]; rfl)
    rw [supersede_unsent i o (hun.mpr h)]
    have hin : (removeEntries i u).inFlight = s.inFlight := if_neg hfl
    have hs : (removeEntries i u).slots.at i = .clearing c.line c.tag o.side (s.slots.at i).blockPending := hslot
    have htxq : (removeEntries i u).txq = s.txq.filter fun e => decide (e.slot? ≠ some i) := rfl
    have hfree : (removeEntries i u).free = s.free := rfl
    generalize removeEntries i u = v at hin hs htxq hfree
    have hu : (v.slots.at i).inUse = true := by rw [hs]; rfl
    have hb : (v.slots.at i).blockPending = (s.slots.at i).blockPending := by rw [hs]; rfl
    unfold freeSlot
    rw [if_pos hu, hb]
    cases hbp : (s.slots.at i).blockPending
    all_goals
      refine ⟨?_, ?_, fun _ => ⟨?_, ?_, ?_⟩, fun hn => absurd h hn⟩
      all_goals simp [released, hin, htxq, hfree, Sig.cleared, clearMarkOf, setMark, setSig, setSlot, setFree]
  · by_cases hq : (queuedEntry s i).isSome = true
    · rw [supersede_queued i o (fun hn => h (hun.mp hn)) (by rw [hqe]; exact hq)]
      refine ⟨?_, rfl, fun hn => absurd hn h, fun _ => ⟨hslot, rfl, ?_⟩⟩
      · exact congrArg Sig.timer hsig
      · rw [if_pos hq]
        exact ⟨rfl, howed⟩
    · have hq' : (queuedEntry s i).isSome = false := by simpa using hq
      rw [supersede_none i o (by rw [hqe]; exact hq')]
      have hflu : flightSlot u = flightSlot s := rfl
      rw [hflu]
      split
      · next hf =>
        refine ⟨?_, rfl, fun hn => absurd hn h, fun _ => ⟨hslot, rfl, ?_⟩⟩
        · simp [setClearOwed, setSig, hsig]
        · rw [if_neg hq, if_pos hf]
          exact ⟨rfl, by simp [setClearOwed, setSig]⟩
      · next hf =>
        rw [addSlotEntry_eq false i o.msg u (p := c.line) (tag := c.tag) (by rw [hslot]; rfl), queueWith_false]
        refine ⟨congrArg Sig.timer hsig, rfl, fun hn => absurd hn h, fun _ => ⟨hslot, rfl, ?_⟩⟩
        rw [if_neg hq, if_neg hf]
        exact ⟨rfl, howed⟩

/-! ## Requests -/

/-- The transmitter that has nothing to start stands. -/
theorem serve_eq_self {s : State} (h : s.tx ≠ .idle ∨ (s.reply = none ∧ (s.requests ≠ [] ∨ s.warm = .due ∨ s.reports = []))) :
    serve s = s := by
  unfold serve
  split
  · next hp =>
    rcases h with h | ⟨hr, h⟩
    · exact absurd hp.2 h
    · rw [hr]
      dsimp only
      split
      · rfl
      · next hn =>
        have hrep : s.reports = [] := by
          rcases h with h | h | h
          · exact absurd (Or.inl h) hn
          · exact absurd (Or.inr h) hn
          · exact h
        rw [hrep]
  · rfl

/-- The transmitter starting a record takes no request, gives no reply and touches no warm reset. -/
theorem serve_keeps (s : State) : (serve s).requests = s.requests ∧ (serve s).reply = s.reply ∧ (serve s).warm = s.warm := by
  unfold serve; repeat' split
  all_goals exact ⟨rfl, rfl, rfl⟩

/-- The transmitter starts one thing at a time: what it has started leaves nothing to start. -/
theorem serve_serve (s : State) : serve (serve s) = serve s := by
  by_cases h : s.tx ≠ .idle ∨ (s.reply = none ∧ (s.requests ≠ [] ∨ s.warm = .due ∨ s.reports = []))
  · rw [serve_eq_self h, serve_eq_self h]
  · by_cases hp : s.power = .running
    · apply serve_eq_self
      left
      unfold serve
      simp only [not_or, not_and] at h
      rcases hr : s.reply with _ | y
      · obtain ⟨h1, h2, h3⟩ := h.2 hr
        rcases hq : s.reports with _ | ⟨r, rest⟩
        · exact absurd hq h3
        · simp_all
      · simp_all
    · have hn : ∀ t : State, t.power ≠ .running → serve t = t := fun t ht => by unfold serve; rw [if_neg (fun x => ht x.1)]
      rw [hn s hp, hn s hp]

/-- The transmitter does not touch the power state. -/
theorem serve_power (s : State) : (serve s).power = s.power := by
  unfold serve; repeat' split
  all_goals rfl

/-- An event finds what the transmitter could start already started (R192). -/
theorem whileRunning_serve (f : State → State) (s : State) : whileRunning f (serve s) = whileRunning f s := by
  unfold whileRunning; rw [serve_power]
  split
  · rw [serve_serve]
  · next h => unfold serve; rw [if_neg (fun x => h x.1)]

/-- An event of the running part is its effect on what the transmitter leaves. -/
theorem whileRunning_of_running {f : State → State} {s : State} (h : s.power = .running) : whileRunning f s = f (serve s) := by
  unfold whileRunning; rw [if_pos h]

/-- A request that can be taken is taken. -/
theorem takeRequest_of_takes {r : Request} {s : State} (judge : State → ReplyOutcome) (effect : State → State)
    (h : Takes r.num r.kind r.body s) : takeRequest r judge effect s = takeNow r judge effect (serve s) := by
  obtain ⟨hp, hw, hr, hq⟩ := h
  have hcan : canTake r (serve s) = true := by
    unfold canTake
    simp only [(serve_keeps s).2.1, (serve_keeps s).1, hr, Option.isNone_none, Bool.true_and, Bool.or_eq_true, decide_eq_true_eq,
      List.isEmpty_iff]
    exact hq
  unfold takeRequest whileRunning
  rw [if_pos hp]
  simp only [(serve_keeps s).2.2, hw, ne_eq, not_true_eq_false, if_false, hcan, if_true]

/-! ## The end of a line's call -/

/-- What a line's change of state makes of the line records, the bus and the unsent reports. -/
theorem moveLine_lines (p : Port) (st : LineState) (call : Option (SlotId × Direction)) (timer : Option Nat) (s : State) :
    (moveLine p st call timer s).lines = s.lines.put p ((s.lines.at p).moved st call timer) := by
  unfold moveLine leaveRing emptyBuffer; dsimp only; repeat' split
  all_goals rfl

theorem moveLine_bus (p : Port) (st : LineState) (call : Option (SlotId × Direction)) (timer : Option Nat) (s : State) :
    (moveLine p st call timer s).bus = s.bus := by
  unfold moveLine leaveRing emptyBuffer; dsimp only; repeat' split
  all_goals rfl

theorem moveLine_unsent (p : Port) (st : LineState) (call : Option (SlotId × Direction)) (timer : Option Nat) (s : State) :
    unsent (moveLine p st call timer s) = unsent s ∧ (moveLine p st call timer s).reports = s.reports := by
  have h : (moveLine p st call timer s).reports = s.reports ∧ (moveLine p st call timer s).tx = s.tx := by
    unfold moveLine leaveRing emptyBuffer; dsimp only; repeat' split
    all_goals exact ⟨rfl, rfl⟩
  unfold unsent; rw [h.1, h.2]; exact ⟨rfl, rfl⟩

theorem moveLine_groups (p : Port) (st : LineState) (call : Option (SlotId × Direction)) (timer : Option Nat) (s : State) :
    (moveLine p st call timer s).groups = s.groups := by
  unfold moveLine leaveRing emptyBuffer; dsimp only; repeat' split
  all_goals rfl

/-- A report changes no line record, no bus and no group. -/
theorem report_records (r : Report) (s : State) :
    (report r s).lines = s.lines ∧ (report r s).bus = s.bus ∧ (report r s).groups = s.groups := by
  have hl : (report r s).apartFromPort.lines = s.apartFromPort.lines := by rw [report_port]
  have hb : (report r s).apartFromPort.bus = s.apartFromPort.bus := by rw [report_port]
  have hg : (report r s).apartFromPort.groups = s.apartFromPort.groups := by rw [report_port]
  exact ⟨hl, hb, hg⟩

/-- A group that enters STANDBY changes no line record and no bus. -/
theorem groupIdle_records (g : GroupId) (s : State) : (groupIdle g s).lines = s.lines ∧ (groupIdle g s).bus = s.bus := by
  have hl : (clearRuns g s).lines = s.lines := by
    unfold clearRuns; rw [inTurn_keeps State.lines]; intro _ _; rfl
  have hb : (clearRuns g s).bus = s.bus := by
    unfold clearRuns; rw [inTurn_keeps State.bus]; intro _ _; rfl
  unfold groupIdle; split
  · unfold enterStandby
    rw [(report_records _ _).1, (report_records _ _).2.1]; exact ⟨hl, hb⟩
  · exact ⟨rfl, rfl⟩

/-- A line whose call ends is in its bare state, or in TEST where the bus is CLAIMED for it (R74). -/
theorem enterBare_lines (p : Port) {st : LineState} (r : Reason) (s : State) (h : st.endsCall = true) :
    (enterBare p st r s).lines = s.lines.put p (lineEnded s p st) := by
  unfold enterBare enterLine lineEnded
  by_cases hb : s.bus = .claimed p
  · rw [if_pos ⟨h, hb⟩, if_pos hb]
    unfold grantBus callEvent
    rw [(report_records _ _).1, (report_records _ _).1]
    exact (moveLine_lines p .test none none s).trans (by simp [Line.moved, LineState.mayOweAnswer, LineState.called,
      LineState.active, Line.unequipped])
  · rw [if_neg (fun x => hb x.2), if_neg hb]
    have moved : (s.lines.at p).moved st none none
        = { Line.unequipped with state := st, faultPresent := (s.lines.at p).faultPresent } := by
      cases st <;> simp_all [LineState.endsCall, Line.moved, LineState.mayOweAnswer, LineState.called, LineState.active,
        Line.unequipped]
    dsimp only
    split
    · rw [(groupIdle_records _ _).1]; unfold callEvent; rw [(report_records _ _).1, moveLine_lines, moved]
    · unfold callEvent; rw [(report_records _ _).1, moveLine_lines, moved]

/-- The bus is HELD for a claimed line whose call ends, and stands otherwise (R74). -/
theorem enterBare_bus (p : Port) {st : LineState} (r : Reason) (s : State) (h : st.endsCall = true) :
    (enterBare p st r s).bus = busEnded s p := by
  unfold enterBare enterLine busEnded
  by_cases hb : s.bus = .claimed p
  · rw [if_pos ⟨h, hb⟩, if_pos hb]
    unfold grantBus callEvent
    rw [(report_records _ _).2.1, (report_records _ _).2.1]; rfl
  · rw [if_neg (fun x => hb x.2), if_neg hb]
    dsimp only
    split
    · rw [(groupIdle_records _ _).2]; unfold callEvent; rw [(report_records _ _).2.1, moveLine_bus]
    · unfold callEvent; rw [(report_records _ _).2.1, moveLine_bus]

/-- The reports of a line whose call ends, where no group enters STANDBY by it. -/
theorem enterBare_unsent (p : Port) {st : LineState} (r : Reason) (s : State) (h : st.endsCall = true)
    (hg : (s.groups.at (groupOf p)).state ≠ .standbyPending) (hr : Room 2 s) :
    unsent (enterBare p st r s) = unsent s ++ endReports s p st r := by
  have one (st' : LineState) (r' : Reason) :
      unsent (callEvent p st' r' (moveLine p st' none none s)) = unsent s ++ [.callEvent p st' (.because r')] := by
    unfold callEvent
    rw [report_unsent, (moveLine_unsent p st' none none s).1]
    unfold Room at *; rw [(moveLine_unsent p st' none none s).2]; omega
  unfold enterBare enterLine endReports
  by_cases hb : s.bus = .claimed p
  · rw [if_pos ⟨h, hb⟩, if_pos hb]
    unfold grantBus callEvent
    have room : Room 2 (setBus (.held p) (moveLine p .test none none s)) := by
      unfold Room at *
      show (moveLine p .test none none s).reports.length + 2 ≤ _
      rw [(moveLine_unsent p .test none none s).2]; exact hr
    rw [report_unsent _ _ (report_room _ _ room), report_unsent _ _ (by unfold Room at *; omega)]
    show unsent (moveLine p .test none none s) ++ _ ++ _ = _
    rw [(moveLine_unsent p .test none none s).1]; simp
  · rw [if_neg (fun x => hb x.2), if_neg hb]
    dsimp only
    split
    · unfold groupIdle
      rw [if_neg]
      · exact one st r
      · unfold callEvent; rw [(report_records _ _).2.2, moveLine_groups]; exact fun x => hg x.1
    · exact one st r

/-! ## Alarm conditions -/

/-- The report of a condition that begins is made where the condition was not present. -/
theorem beginCondition_unsent (a : AlarmId) (s : State) (hr : Room 1 s) :
    unsent (beginCondition a s) = unsent s ++ begun s a := by
  unfold beginCondition begun
  rcases h : alarmEntry s a with _ | e
  · simp only [Option.any_none, Bool.false_eq_true, if_false]; exact report_unsent _ _ hr
  · by_cases hp : e.present = true
    · simp [hp]
    · simp only [Option.any_some, hp, Bool.false_eq_true, if_false]; exact report_unsent _ _ hr

/-- The report of a condition that ends is made where the condition was present. -/
theorem endCondition_unsent (a : AlarmId) (s : State) (hr : Room 1 s) :
    unsent (endCondition a s) = unsent s ++ ended s a := by
  unfold endCondition ended
  rcases h : alarmEntry s a with _ | e
  · simp
  · by_cases hp : e.present = true
    · simp only [Option.any_some, hp, if_true]; exact report_unsent _ _ hr
    · simp [hp]

/-! ## The end of an event -/

/-- An event that gains no room for ringing and causes no attempt ends as it stands, where what the end of an event brings about has come
about already. -/
theorem finish_eq_self {old new : State} (hr : roomGained old new = false) (ha : attemptCaused old new = false)
    (he : EventsFinished new) : finish old new = new := by
  obtain ⟨hh, hm⟩ := he
  have stop : stopHoldover new = new := by
    unfold stopHoldover
    split
    · rfl
    · next h =>
      rcases hh with hh | hh
      · cases new; simp_all
      · exact absurd hh h
  unfold finish
  simp only [hr, ha, Bool.false_eq_true, if_false, stop]
  unfold endPending
  split
  · next h => rw [hm h.1] at h; exact absurd h.2 (by decide)
  · rfl

end Sys2Proof.Machine
end

