-- ==== Sys2Proof/Tests/Slice0.lean ====
section
/-! SUPPORT. Checks of this model on fixed values: ill-formed terms, octets written out by hand, a concrete state that meets the
hypotheses of each statement, and the examples of the spec. -/

namespace Sys2Proof.Tests

set_option Elab.async false
open Sys2Proof.Machine

/-! ## Small states -/

/-- A part in NORMAL with its link UP, nothing waiting, and three ports equipped: an ORDINARY subscriber 1200 on port 0, a PRIORITY
subscriber 1201 on port 1, and a MONITOR port 57. -/
def ready : State :=
  { State.reset with
    ports := ((State.reset.ports.put 0 (.subscriber 1200 .ordinary)).put 1 (.subscriber 1201 .priority)).put 57 .monitor
    lines := (State.reset.lines.put 0 { Line.unequipped with state := .idle }).put 1 { Line.unequipped with state := .idle }
    mode := .normal, link := .up, score := 0, reports := [] }

/-- A call of line 0 with tag 1. -/
def call (d : Direction) : Call := { line := 0, tag := 1, direction := d, answered := false, order := 1 }

/-- Line 0 in a state that holds slot 1, and that slot. -/
def inCall (st : LineState) (sl : Slot) : State :=
  setSlot 0 sl (setLine 0 { Line.unequipped with state := st, call := some (0, (sl.call?.map (·.direction)).getD .out) }
    { ready with free := allSlots.erase 0, nextTag := 2, nextOrder := 2 })

/-- An idle trunk frame: silence in every bearer octet and idle signalling octets. -/
def idleFrame : List Byte := trunkFrameOf (List.replicate 20 Config.silence) Config.idleOctet Config.idleOctet

theorem test_ResetsBringThePartUp_hypotheses :
    (∃ (s : State) (high : Bool) (low : Bool), s.power = .held)
    ∧ (∃ (s : State) (left : Nat), s.power = .selfTest left)
    ∧ (∃ (s : State), Running s ∧ s.warm = .due)
    ∧ (∃ (s : State) (high : Bool) (low : Bool), s.power = .held) :=
  ⟨⟨{ ready with power := .held }, false, true, by decide +kernel⟩,
    ⟨{ ready with power := .selfTest 50 }, 50, by decide +kernel⟩,
    ⟨{ ready with warm := .due }, by decide +kernel⟩,
    ⟨{ ready with power := .held }, true, false, by decide +kernel⟩⟩

theorem test_ReceivedFramesJoinTheBuffer_hypotheses :
    (∃ (num : Byte) (kind : Byte) (body : List Byte) (s : State), Running s ∧ s.warm = .none ∧ s.receiver = .hunting
      ∧ body.length ≤ 14 ∧ s.reply ≠ none ∧ s.tx ≠ .idle)
    ∧ (∃ (num : Byte) (kind : Byte) (body : List Byte) (s : State), Running s ∧ s.warm = .none ∧ s.receiver = .hunting
      ∧ body.length ≤ 14 ∧ s.reply ≠ none ∧ s.tx ≠ .idle)
    ∧ (∃ (num : Byte) (kind : Byte) (body : List Byte) (s : State), Running s ∧ s.warm = .none ∧ s.receiver = .hunting
      ∧ body.length ≤ 14 ∧ s.reply = none ∧ s.requests = []) :=
  ⟨⟨9, 1, [], { ready with reply := some ⟨8, .done⟩, tx := .sendingReply false 0 }, by decide +kernel⟩,
    ⟨9, 1, List.replicate 14 0,
    { ready with reply := some ⟨8, .done⟩, tx := .sendingReply false 0, requests := [⟨1, 1, []⟩, ⟨2, 1, []⟩] }, by
    decide +kernel⟩,
    ⟨9, 1, [], ready, by decide +kernel⟩⟩

theorem test_OffHookOnAnIdleLine_hypotheses :
    (∃ (p : Port) (s : State), Running s ∧ hasLine s p = true ∧ hookSampled s p = true ∧ (s.lines.at p).state =
      .idle ∧ s.mode = .normal ∧ s.free = [] ∧ (s.params.preempt = false ∨ s.mark ≠ none ∨ NoneToPreempt s) ∧
      EventsFinished s ∧ Room 1 s)
    ∧ (∃ (p : Port) (s : State), Running s ∧ hasLine s p = true ∧ hookSampled s p = true ∧ (s.lines.at p).state =
      .idle ∧ s.mode = .normal ∧ s.free = [] ∧ (s.params.preempt = false ∨ s.mark ≠ none ∨ NoneToPreempt s) ∧
      EventsFinished s ∧ Room 1 s)
    ∧ (∃ (p : Port) (s : State), Running s ∧ hasLine s p = true ∧ hookSampled s p = true ∧ (s.lines.at p).state =
      .idle ∧ s.mode ≠ .normal ∧ s.bus ≠ .claimed p ∧ EventsFinished s ∧ Room 1 s)
    ∧ (∃ (p : Port) (i : SlotId) (rest : List SlotId) (s : State), Running s ∧ hasLine s p = true ∧ hookSampled s p =
      true ∧ (s.lines.at p).state = .idle ∧ s.mode = .normal ∧ s.waitQueue = [] ∧ s.free = i :: rest ∧ s.slots.at i =
      .free ∧ (if isPriority s p = true then s.link.inService = true else s.link.ordinary = true ∧ activeCount s <
      s.posture.callLimit) ∧ (∃ tag, tagHeld s tag = false ∧ 1 ≤ tag ∧ tag ≤ 255) ∧ s.nextOrder < 65535 ∧
      EventsFinished s ∧ Room 2 s)
    ∧ (∃ (p : Port) (i : SlotId) (rest : List SlotId) (s : State), Running s ∧ hasLine s p = true ∧ hookSampled s p =
      true ∧ (s.lines.at p).state = .idle ∧ s.mode = .normal ∧ s.waitQueue = [] ∧ s.free = i :: rest ∧ s.slots.at i =
      .free ∧ (if isPriority s p = true then s.link.inService = true else s.link.ordinary = true ∧ activeCount s <
      s.posture.callLimit) ∧ (∃ tag, tagHeld s tag = false ∧ 1 ≤ tag ∧ tag ≤ 255) ∧ s.nextOrder < 65535 ∧
      EventsFinished s ∧ Room 2 s)
    ∧ (∃ (p : Port) (v : SlotId) (c : Call) (s : State), Running s ∧ hasLine s p = true ∧ hookSampled s p = true ∧
      (s.lines.at p).state = .idle ∧ s.mode = .normal ∧ isPriority s p = true ∧ s.waitQueue = [] ∧ s.free = [] ∧
      s.link.inService = true ∧ s.params.preempt = true ∧ s.mark = none ∧ ChosenVictim s v c ∧ ¬ UnsentSeize s v ∧
      groupState s c.line ≠ .standbyPending ∧ EventsFinished s ∧ Room 3 s)
    ∧ (∃ (p : Port) (v : SlotId) (c : Call) (s : State), Running s ∧ hasLine s p = true ∧ hookSampled s p = true ∧
      (s.lines.at p).state = .idle ∧ s.mode = .normal ∧ isPriority s p = true ∧ s.waitQueue = [] ∧ s.free = [] ∧
      s.link.inService = true ∧ s.params.preempt = true ∧ s.mark = none ∧ ChosenVictim s v c ∧ ¬ UnsentSeize s v ∧
      groupState s c.line ≠ .standbyPending ∧ EventsFinished s ∧ Room 3 s)
    ∧ (∃ (p : Port) (v : SlotId) (c : Call) (s : State), Running s ∧ hasLine s p = true ∧ hookSampled s p = true ∧
      (s.lines.at p).state = .idle ∧ s.mode = .normal ∧ isPriority s p = true ∧ s.waitQueue = [] ∧ s.free = [] ∧
      s.link.inService = true ∧ s.params.preempt = true ∧ s.mark = none ∧ ChosenVictim s v c ∧ s.slots.at v =
      .reserved c false ∧ UnsentSeize s v ∧ OneEntryEach s ∧ (s.lines.at c.line).state = .seizing ∧ (∃ tag, tagHeld s
      tag = false ∧ 1 ≤ tag ∧ tag ≤ 255) ∧ s.nextOrder < 65535 ∧ EventsFinished s ∧ Room 4 s)
    ∧ (∃ (p : Port) (i : SlotId) (rest : List SlotId) (s : State), Running s ∧ hasLine s p = true ∧ hookSampled s p =
      true ∧ (s.lines.at p).state = .idle ∧ s.mode = .normal ∧ s.waitQueue = [] ∧ s.free = i :: rest ∧ s.slots.at i =
      .free ∧ (if isPriority s p = true then s.link.inService = true else s.link.ordinary = true ∧ activeCount s <
      s.posture.callLimit) ∧ s.nextOrder = 65535 ∧ (∀ j, ∀ c ∈ (s.slots.at j).call?, c.order < 65535) ∧ EventsFinished
      s ∧ Room 2 s)
    ∧ (∃ (p : Port) (i : SlotId) (rest : List SlotId) (s : State), Running s ∧ hasLine s p = true ∧ hookSampled s p =
      true ∧ (s.lines.at p).state = .idle ∧ s.mode = .normal ∧ s.waitQueue = [] ∧ s.free = i :: rest ∧ s.slots.at i =
      .free ∧ (if isPriority s p = true then s.link.inService = true else s.link.ordinary = true ∧ activeCount s <
      s.posture.callLimit) ∧ s.nextOrder = 65535 ∧ (∀ j, ∀ c ∈ (s.slots.at j).call?, c.order < 65535) ∧ EventsFinished
      s ∧ Room 2 s) :=
  ⟨⟨0, { ready with free := [] }, by decide +kernel⟩,
    ⟨1, { ready with free := [], waitQueue := [0] }, by decide +kernel⟩,
    ⟨0, { ready with mode := .config }, by decide +kernel⟩,
    ⟨0, 0, allSlots.erase 0, ready, by
      refine ⟨?_, ?_, ?_, ?_, ?_, ?_, ?_, ?_, ?_, ⟨9, by decide +kernel⟩,
        ?_, ?_, ?_⟩
        <;> decide +kernel⟩,
    ⟨1, 0, allSlots.erase 0, { ready with link := .impaired, score := 200 }, by
      refine ⟨?_, ?_, ?_, ?_, ?_, ?_, ?_, ?_, ?_, ⟨9, by decide +kernel⟩,
        ?_, ?_, ?_⟩
        <;> decide +kernel⟩,
    ⟨1, 0, call .out, { inCall .activeOut (.busy (call .out) false) with free := [], params.preempt := true }, by
    decide +kernel⟩,
    ⟨1, 0, call .inward, { inCall .ringing (.reserved (call .inward) false) with free := [], params.preempt := true },
    by decide +kernel⟩,
    ⟨1, 0, call .out,
    { inCall .seizing (.reserved (call .out) false) with free := [], params.preempt := true, txq := [⟨.ofSlot 0 0 1 .seize, false⟩] },
    by
      refine ⟨?_, ?_, ?_, ?_, ?_, ?_, ?_, ?_, ?_, ?_, ?_, ?_, ?_, ?_, ?_, ?_, ⟨9, by decide +kernel⟩,
        ?_, ?_, ?_⟩
        <;> decide +kernel⟩,
    ⟨0, 0, allSlots.erase 0, { ready with nextOrder := 65535 }, by decide +kernel⟩,
    ⟨0, 1, allSlots.drop 2,
    { setSlot 0 (.busy { call .out with line := 1, order := 65534 } false) ready with free := allSlots.drop 1, nextOrder := 65535 },
    by decide +kernel⟩⟩

theorem test_OffHookAnswersACalledLine_hypotheses :
    (∃ (p : Port) (i : SlotId) (c : Call) (b : Bool) (d : Direction) (s : State), Running s ∧ hasLine s p = true ∧
      hookSampled s p = true ∧ (s.lines.at p).state.called = true ∧ (s.lines.at p).call = some (i, d) ∧ s.slots.at i =
      .reserved c b ∧ c.line = p ∧ (s.sig.at i).owed = none ∧ s.waitQueue = [] ∧ s.ringQueue.erase p = [] ∧
      EventsFinished s ∧ Room 1 s)
    ∧ (∃ (p : Port) (i : SlotId) (c : Call) (b : Bool) (d : Direction) (s : State), Running s ∧ hasLine s p = true ∧
      hookSampled s p = true ∧ (s.lines.at p).state.called = true ∧ (s.lines.at p).call = some (i, d) ∧ s.slots.at i =
      .reserved c b ∧ c.line = p ∧ (s.sig.at i).owed = none ∧ s.waitQueue = [] ∧ s.ringQueue.erase p = [] ∧
      EventsFinished s ∧ Room 1 s) :=
  ⟨⟨0, 0, call .inward, false, .inward, inCall .offered (.reserved (call .inward) false), by decide +kernel⟩,
    ⟨0, 0, call .inward, false, .inward, { inCall .ringing (.reserved (call .inward) false) with ringQueue := [0] },
    by decide +kernel⟩⟩

theorem test_OnHooksEndCalls_hypotheses :
    (∃ (p : Port) (s : State), Running s ∧ hasLine s p = true ∧ groupState s p = .active ∧ (s.lines.at p).state =
      .parked ∧ (s.lines.at p).call = none ∧ s.bus ≠ .claimed p ∧ EventsFinished s ∧ Room 1 s)
    ∧ (∃ (p : Port) (i : SlotId) (c : Call) (d : Direction) (s : State), Running s ∧ decodes s p = true ∧ groupState s
      p = .active ∧ (s.lines.at p).call = some (i, d) ∧ (s.slots.at i).call? = some c ∧ c.line = p ∧ (s.slots.at
      i).isHeld = false ∧ s.mark ≠ some i ∧ OneEntryEach s ∧ s.waitQueue = [] ∧ s.mode ≠ .configPending ∧
      EventsFinished s ∧ Room 2 s)
    ∧ (∃ (p : Port) (i : SlotId) (c : Call) (d : Direction) (s : State), Running s ∧ decodes s p = true ∧ groupState s
      p = .active ∧ (s.lines.at p).call = some (i, d) ∧ (s.slots.at i).call? = some c ∧ c.line = p ∧ (s.slots.at
      i).isHeld = false ∧ s.mark ≠ some i ∧ OneEntryEach s ∧ s.waitQueue = [] ∧ s.mode ≠ .configPending ∧
      EventsFinished s ∧ Room 2 s)
    ∧ (∃ (p : Port) (i : SlotId) (c : Call) (d : Direction) (s : State), Running s ∧ decodes s p = true ∧ groupState s
      p = .active ∧ (s.lines.at p).call = some (i, d) ∧ (s.slots.at i).call? = some c ∧ c.line = p ∧ (s.slots.at
      i).isHeld = false ∧ s.mark ≠ some i ∧ OneEntryEach s ∧ s.waitQueue = [] ∧ s.mode ≠ .configPending ∧
      EventsFinished s ∧ Room 2 s)
    ∧ (∃ (p : Port) (i : SlotId) (c : Call) (d : Direction) (s : State), Running s ∧ decodes s p = true ∧ groupState s
      p = .active ∧ (s.lines.at p).call = some (i, d) ∧ (s.slots.at i).call? = some c ∧ c.line = p ∧ (s.slots.at
      i).isHeld = false ∧ s.mark ≠ some i ∧ OneEntryEach s ∧ s.waitQueue = [] ∧ s.mode ≠ .configPending ∧
      EventsFinished s ∧ Room 2 s)
    ∧ (∃ (p : Port) (s : State), Running s ∧ hasLine s p = true ∧ groupState s p = .standbyPending ∧ (s.lines.at
      p).state = .parked ∧ (s.lines.at p).call = none ∧ s.bus ≠ .claimed p ∧ EventsFinished s ∧ Room 2 s) :=
  ⟨⟨0, setLine 0 { Line.unequipped with state := .parked } ready, by decide +kernel⟩,
    ⟨0, 0, call .out, .out, { inCall .activeOut (.busy (call .out) true) with bus := .claimed 0 }, by decide +kernel⟩,
    ⟨0, 0, call .out, .out, inCall .activeOut (.busy (call .out) true), by decide +kernel⟩,
    ⟨0, 0, call .out, .out,
    { inCall .seizing (.reserved (call .out) false) with txq := [⟨.ofSlot 0 0 1 .seize, false⟩] }, by decide +kernel⟩,
    ⟨0, 0, call .out, .out,
    { inCall .seizing (.reserved (call .out) true) with txq := [⟨.ofSlot 0 0 1 .seize, false⟩], inFlight := some ⟨[0], []⟩ },
    by decide +kernel⟩,
    ⟨0, setGroup 0 { Group.initial with state := .standbyPending } (setLine 0
    { Line.unequipped with state := .parked } ready), by decide +kernel⟩⟩

theorem test_PulseIsCounted_hypotheses :
    (∃ (p : Port) (ms : Nat) (s : State), Running s ∧ decodes s p = true ∧ hookSampled s p = true ∧ 20 ≤ ms ∧ ms ≤
      100 ∧ ms ≤ s.params.flashMax)
    ∧ (∃ (p : Port) (ms : Nat) (s : State), Running s ∧ decodes s p = true ∧ hookSampled s p = true ∧ 20 ≤ ms ∧ ms ≤
      100 ∧ ms ≤ s.params.flashMax) :=
  ⟨⟨0, 20, setLine 0 { Line.unequipped with state := .queued, timer := some 40000 } ready, by decide +kernel⟩,
    ⟨0, 100, setLine 0 { Line.unequipped with state := .queued, timer := some 40000 } ready, by decide +kernel⟩⟩

theorem test_OtherBreaksAreClassified_hypotheses :
    (∃ (p : Port) (ms : Nat) (s : State), Running s ∧ decodes s p = true ∧ hookSampled s p = true ∧ 0 < ms ∧ ms < 20
      ∧ ms ≤ s.params.flashMax)
    ∧ (∃ (p : Port) (ms : Nat) (i : SlotId) (c : Call) (b : Bool) (d : Direction) (s : State), Running s ∧ decodes s p
      = true ∧ hookSampled s p = true ∧ 100 < ms ∧ ms ≤ s.params.flashMax ∧ (s.lines.at p).state.active = true ∧
      (s.lines.at p).call = some (i, d) ∧ s.slots.at i = .busy c b ∧ c.line = p ∧ hasEntry s i = false ∧ (s.sig.at
      i).owed = none ∧ (s.buffers.at p).digits = [] ∧ (s.lines.at p).flashOwed = false ∧ (s.lines.at p).answerOwed =
      false)
    ∧ (∃ (p : Port) (ms : Nat) (s : State), Running s ∧ decodes s p = true ∧ hookSampled s p = true ∧ 100 < ms ∧ ms ≤
      s.params.flashMax ∧ (s.lines.at p).state.active = false ∧ Room 1 s)
    ∧ (∃ (p : Port) (ms : Nat) (s : State), Running s ∧ decodes s p = true ∧ hookSampled s p = true ∧ 100 < ms ∧ ms ≤
      s.params.flashMax ∧ (s.lines.at p).state.active = false ∧ Room 1 s) :=
  ⟨⟨0, 18, setLine 0 { Line.unequipped with state := .queued, timer := some 40000 } ready, by decide +kernel⟩,
    ⟨0, 102, 0, call .out, true, .out, inCall .activeOut (.busy (call .out) true), by decide +kernel⟩,
    ⟨0, 102, setLine 0 { Line.unequipped with state := .queued, timer := some 40000 } ready, by decide +kernel⟩,
    ⟨0, 600, setLine 0 { Line.unequipped with state := .queued, timer := some 40000 } ready, by decide +kernel⟩⟩

theorem test_DigitCompletes_hypotheses :
    (∃ (p : Port) (s : State), Running s ∧ decodes s p = true ∧ hookSampled s p = true ∧ (s.lines.at p).call = none
      ∧ Room 1 s ∧ 0 < (s.scan.at p).pulses ∧ (s.scan.at p).pulses ≤ 10)
    ∧ (∃ (p : Port) (s : State), Running s ∧ decodes s p = true ∧ hookSampled s p = true ∧ (s.lines.at p).call = none
      ∧ Room 1 s ∧ 0 < (s.scan.at p).pulses ∧ (s.scan.at p).pulses ≤ 10)
    ∧ (∃ (p : Port) (s : State), Running s ∧ decodes s p = true ∧ hookSampled s p = true ∧ (s.lines.at p).call = none
      ∧ Room 1 s ∧ 0 < (s.scan.at p).pulses ∧ (s.scan.at p).pulses ≤ 10)
    ∧ (∃ (p : Port) (s : State), Running s ∧ decodes s p = true ∧ hookSampled s p = true ∧ (s.lines.at p).call = none
      ∧ Room 1 s ∧ 0 < (s.scan.at p).pulses ∧ (s.scan.at p).pulses ≤ 10) :=
  ⟨⟨0, setScan 0 { Scanner.initial with pulses := 1 } (setLine 0
    { Line.unequipped with state := .queued, timer := some 40000 } ready), by decide +kernel⟩,
    ⟨0, setScan 0 { Scanner.initial with pulses := 10 } (setLine 0
    { Line.unequipped with state := .queued, timer := some 40000 } ready), by decide +kernel⟩,
    ⟨0, setScan 0 { Scanner.initial with pulses := 10, overrun := true } (setLine 0
    { Line.unequipped with state := .queued, timer := some 40000 } ready), by decide +kernel⟩,
    ⟨0, setScan 0 { Scanner.initial with pulses := 3 } (setBuffer 0 { DigitBuffer.empty with lent := 4 } (setLine 0
    { Line.unequipped with state := .queued, timer := some 40000 } ready)), by decide +kernel⟩⟩

theorem test_FaultAndItsEnd_hypotheses :
    (∃ (p : Port) (s : State), Running s ∧ hasLine s p = true ∧ hookSampled s p = true ∧ (s.scan.at p).fault = false
      ∧ (s.lines.at p).state = .idle ∧ (s.lines.at p).call = none ∧ s.bus ≠ .claimed p ∧ alarmEntry s (.lineFault p) =
      none ∧ EventsFinished s ∧ Room 2 s)
    ∧ (∃ (p : Port) (s : State), Running s ∧ hasLine s p = true ∧ groupState s p = .standby ∧ (s.scan.at p).fault =
      false ∧ (s.lines.at p).state = .idle ∧ (s.lines.at p).call = none ∧ s.bus ≠ .claimed p ∧ alarmEntry s
      (.lineFault p) = none ∧ EventsFinished s ∧ Room 3 s)
    ∧ (∃ (p : Port) (i : SlotId) (c : Call) (d : Direction) (s : State), Running s ∧ hasLine s p = true ∧ groupState s
      p ≠ .standby ∧ (s.scan.at p).fault = false ∧ (s.lines.at p).state.holdsSlot = true ∧ (s.lines.at p).state ≠
      .holdover ∧ (s.lines.at p).call = some (i, d) ∧ (s.slots.at i).call? = some c ∧ c.line = p ∧ (s.slots.at
      i).isHeld = false ∧ s.mark ≠ some i ∧ OneEntryEach s ∧ s.waitQueue = [] ∧ s.ringQueue.erase p = [] ∧ alarmEntry
      s (.lineFault p) = none ∧ s.mode ≠ .configPending ∧ EventsFinished s ∧ Room 3 s)
    ∧ (∃ (p : Port) (i : SlotId) (c : Call) (d : Direction) (s : State), Running s ∧ hasLine s p = true ∧ groupState s
      p ≠ .standby ∧ (s.scan.at p).fault = false ∧ (s.lines.at p).state.holdsSlot = true ∧ (s.lines.at p).state ≠
      .holdover ∧ (s.lines.at p).call = some (i, d) ∧ (s.slots.at i).call? = some c ∧ c.line = p ∧ (s.slots.at
      i).isHeld = false ∧ s.mark ≠ some i ∧ OneEntryEach s ∧ s.waitQueue = [] ∧ s.ringQueue.erase p = [] ∧ alarmEntry
      s (.lineFault p) = none ∧ s.mode ≠ .configPending ∧ EventsFinished s ∧ Room 3 s)
    ∧ (∃ (p : Port) (s : State), Running s ∧ hasLine s p = true ∧ groupState s p = .active ∧ (s.scan.at p).fault =
      true ∧ (s.lines.at p).state = .fault ∧ s.bus ≠ .claimed p ∧ alarmEntry s (.lineFault p) = some ⟨.lineFault p,
      true⟩ ∧ EventsFinished s ∧ Room 2 s)
    ∧ (∃ (p : Port) (s : State), Running s ∧ hasLine s p = true ∧ groupState s p ≠ .standby ∧ (s.scan.at p).fault =
      false ∧ (s.lines.at p).state = .test ∧ alarmEntry s (.lineFault p) = none ∧ EventsFinished s ∧ Room 1 s)
    ∧ (∃ (p : Port) (s : State), Running s ∧ hasLine s p = true ∧ groupState s p ≠ .standby ∧ (s.scan.at p).fault =
      true ∧ (s.lines.at p).state = .test ∧ alarmEntry s (.lineFault p) = some ⟨.lineFault p, true⟩ ∧ EventsFinished s
      ∧ Room 1 s) :=
  ⟨⟨0, ready, by decide +kernel⟩,
    ⟨0, setGroup 0 { Group.initial with state := .standby, slow := some 200 } ready, by decide +kernel⟩,
    ⟨0, 0, call .out, .out, inCall .activeOut (.busy (call .out) true), by decide +kernel⟩,
    ⟨0, 0, call .inward, .inward, inCall .ringing (.reserved (call .inward) false), by decide +kernel⟩,
    ⟨0, setScan 0 { Scanner.initial with fault := true } (setAlarms [⟨.lineFault 0, true⟩] (setLine 0
    { Line.unequipped with state := .fault, faultPresent := true } ready)), by decide +kernel⟩,
    ⟨0, { setLine 0 { Line.unequipped with state := .test } ready with bus := .held 0 }, by decide +kernel⟩,
    ⟨0, setScan 0 { Scanner.initial with fault := true } (setAlarms [⟨.lineFault 0, true⟩]
    { setLine 0 { Line.unequipped with state := .test, faultPresent := true } ready with bus := .held 0 }), by
    decide +kernel⟩⟩

theorem test_ContactChangesAreReported_hypotheses :
    (∃ (p : Port) (s : State), Running s ∧ isMonitor s p = true ∧ hookSampled s p = true ∧ (s.scan.at p).contact =
      .opened ∧ alarmEntry s (.contact p) = none ∧ Room 2 s)
    ∧ (∃ (p : Port) (s : State), Running s ∧ isMonitor s p = true ∧ hookSampled s p = true ∧ (s.scan.at p).contact =
      .closed ∧ alarmEntry s (.contact p) = some ⟨.contact p, true⟩ ∧ Room 2 s) :=
  ⟨⟨57, ready, by decide +kernel⟩,
    ⟨57, setScan 57 { Scanner.initial with contact := .closed } (setAlarms [⟨.contact 57, true⟩] ready), by
    decide +kernel⟩⟩

theorem test_SlowSampleWakesByTheFlag_hypotheses :
    (∃ (g : GroupId) (closed : BitVec 8) (p : Port) (s : State), Running s ∧ (s.groups.at g).state = .standby ∧ p ∈
      portsOf g ∧ hasLine s p = true ∧ levelOf closed p = true ∧ (∀ q ∈ portsOf g, isMonitor s q = false) ∧
      EventsFinished s ∧ Room 1 s)
    ∧ (∃ (g : GroupId) (closed : BitVec 8) (p : Port) (s : State), Running s ∧ (s.groups.at g).state = .standby ∧ p ∈
      portsOf g ∧ hasLine s p = true ∧ levelOf closed p = true ∧ (∀ q ∈ portsOf g, isMonitor s q = false) ∧
      EventsFinished s ∧ Room 1 s)
    ∧ (∃ (g : GroupId) (closed : BitVec 8) (faulty : BitVec 8) (p : Port) (s : State), Running s ∧ (s.groups.at
      g).state = .standby ∧ p ∈ portsOf g ∧ hasLine s p = true ∧ levelOf faulty p = true ∧ (s.scan.at p).fault = false
      ∧ (∀ q ∈ portsOf g, q ≠ p → levelOf faulty q = false) ∧ (∀ q ∈ portsOf g, isMonitor s q = false) ∧ (s.lines.at
      p).state = .idle ∧ (s.lines.at p).call = none ∧ s.bus ≠ .claimed p ∧ alarmEntry s (.lineFault p) = none ∧
      EventsFinished s ∧ Room 3 s)
    ∧ (∃ (g : GroupId) (closed : BitVec 8) (faulty : BitVec 8) (p : Port) (s : State), Running s ∧ (s.groups.at
      g).state = .standby ∧ p ∈ portsOf g ∧ isMonitor s p = true ∧ (s.scan.at p).contact = .opened ∧ levelOf closed p
      = true ∧ (∀ q ∈ portsOf g, q ≠ p → hasLine s q = false ∧ isMonitor s q = false) ∧ alarmEntry s (.contact p) =
      none ∧ EventsFinished s ∧ Room 2 s) :=
  ⟨⟨0, 1, 0, setGroup 0 { Group.initial with state := .standby, wake := true, slow := some 200 } ready, by
    decide +kernel⟩,
    ⟨0, 1, 0, setGroup 0 { Group.initial with state := .standby, wake := false, slow := some 200 } ready, by
    decide +kernel⟩,
    ⟨0, 255, 1, 0, setGroup 0 { Group.initial with state := .standby, wake := false, slow := some 200 } ready, by
    decide +kernel⟩,
    ⟨7, 2, 0, 57, setGroup 7 { Group.initial with state := .standby, slow := some 200 } ready, by decide +kernel⟩⟩

theorem test_SettleEndsInActive_hypotheses :
    (∃ (g : GroupId) (s : State), Running s ∧ (s.groups.at g).state = .waking ∧ (∀ p ∈ portsOf g, (s.lines.at
      p).state ≠ .offered) ∧ Room 1 s)
    ∧ (∃ (g : GroupId) (p : Port) (s : State), Running s ∧ (s.groups.at g).state = .waking ∧ p ∈ portsOf g ∧
      (s.lines.at p).state = .offered ∧ isPlaced s p = false ∧ p ∉ s.ringQueue ∧ (∀ q ∈ portsOf g, q ≠ p → (s.lines.at
      q).state ≠ .offered) ∧ s.nextPlacement < 65535 ∧ Room 1 s)
    ∧ (∃ (g : GroupId) (p : Port) (s : State), Running s ∧ (s.groups.at g).state = .waking ∧ p ∈ portsOf g ∧
      (s.lines.at p).state = .offered ∧ isPlaced s p = false ∧ p ∉ s.ringQueue ∧ (∀ q ∈ portsOf g, q ≠ p → (s.lines.at
      q).state ≠ .offered) ∧ s.nextPlacement < 65535 ∧ Room 1 s) :=
  ⟨⟨0, setGroup 0 { Group.initial with state := .waking, settle := some 300 } ready, by decide +kernel⟩,
    ⟨0, 0, setGroup 0 { Group.initial with state := .waking, settle := some 1 } (inCall .offered (.reserved (call
    .inward) false)), by decide +kernel⟩,
    ⟨0, 0,
    { setGroup 0 { Group.initial with state := .waking, settle := some 1 } (inCall .offered (.reserved (call .inward) false)) with mode := .configPending },
    by decide +kernel⟩⟩

theorem test_LineTimersExpire_hypotheses :
    (∃ (p : Port) (ms : Nat) (s : State), Running s ∧ (s.lines.at p).state = .queued ∧ (s.lines.at p).timer = some
      ms ∧ s.waitQueue = [p] ∧ s.bus ≠ .claimed p ∧ EventsFinished s ∧ Room 1 s)
    ∧ (∃ (p : Port) (ms : Nat) (i : SlotId) (c : Call) (b : Bool) (d : Direction) (s : State), Running s ∧ (s.lines.at
      p).state.called = true ∧ (s.lines.at p).timer = some ms ∧ (s.lines.at p).call = some (i, d) ∧ s.slots.at i =
      .reserved c b ∧ c.line = p ∧ s.mark ≠ some i ∧ OneEntryEach s ∧ s.waitQueue = [] ∧ s.ringQueue.erase p = [] ∧
      groupState s p ≠ .standbyPending ∧ s.mode ≠ .configPending ∧ EventsFinished s ∧ Room 2 s)
    ∧ (∃ (p : Port) (ms : Nat) (i : SlotId) (c : Call) (b : Bool) (d : Direction) (s : State), Running s ∧ (s.lines.at
      p).state.called = true ∧ (s.lines.at p).timer = some ms ∧ (s.lines.at p).call = some (i, d) ∧ s.slots.at i =
      .reserved c b ∧ c.line = p ∧ s.mark ≠ some i ∧ OneEntryEach s ∧ s.waitQueue = [] ∧ s.ringQueue.erase p = [] ∧
      groupState s p ≠ .standbyPending ∧ s.mode ≠ .configPending ∧ EventsFinished s ∧ Room 2 s) :=
  ⟨⟨0, 40000,
    { setLine 0 { Line.unequipped with state := .queued, timer := some 40000 } ready with waitQueue := [0] }, by
    decide +kernel⟩,
    ⟨0, 60000, 0, call .inward, false, .inward, setLine 0
    { Line.unequipped with state := .ringing, call := some (0, .inward), timer := some 60000 } (inCall .ringing
    (.reserved (call .inward) false)), by decide +kernel⟩,
    ⟨0, 60000, 0, call .inward, true, .inward,
    { inCall .ringing (.reserved (call .inward) true) with lines := (setLine 0 { Line.unequipped with state := .ringing, call := some (0, .inward), timer := some 60000 } (inCall .ringing (.reserved (call .inward) false))).lines, bus := .claimed 0 },
    by decide +kernel⟩⟩

theorem test_PhaseBegins_hypotheses :
    (∃ (s : State), Running s) :=
  ⟨setCell 1 [⟨0, 1⟩] (setLine 0
    { Line.unequipped with state := .ringing, call := some (0, .inward), timer := some 60000 } (inCall .ringing
    (.reserved (call .inward) false))), by decide +kernel⟩

theorem test_RecoveryRunCountsAndEnds_hypotheses :
    (∃ (octets : List Byte) (s : State), Running s ∧ s.link = .down ∧ (goodFrame s octets = true → s.run + 1 < 512)
      ∧ EventsFinished s)
    ∧ (∃ (octets : List Byte) (s : State), Running s ∧ s.link = .down ∧ (goodFrame s octets = true → s.run + 1 < 512)
      ∧ EventsFinished s)
    ∧ (∃ (octets : List Byte) (s : State), Running s ∧ s.link = .down ∧ s.score = 255 ∧ s.run = 511 ∧ goodFrame s
      octets = true ∧ s.txq = [] ∧ s.mode ≠ .configPending ∧ Room 1 s)
    ∧ (∃ (octets : List Byte) (s : State), Running s ∧ s.link = .down ∧ s.score = 255 ∧ s.run = 511 ∧ goodFrame s
      octets = true ∧ s.txq = [] ∧ s.mode ≠ .configPending ∧ Room 1 s)
    ∧ (∃ (octets : List Byte) (s : State), Running s ∧ s.link = .recovered ∧ s.score = 255 ∧ EventsFinished s ∧ Room 1
      s)
    ∧ (∃ (octets : List Byte) (s : State), Running s ∧ s.link = .recovered ∧ s.score = 255 ∧ EventsFinished s ∧ Room 1
      s) :=
  ⟨⟨idleFrame, { ready with link := .down, score := 255, run := 510 }, by decide +kernel⟩,
    ⟨[], { ready with link := .down, score := 255, run := 510 }, by decide +kernel⟩,
    ⟨idleFrame,
    { ready with link := .down, score := 255, run := 511, align := .aligned, params.cabinetRelease := false }, by
    decide +kernel⟩,
    ⟨idleFrame,
    { ready with link := .down, score := 255, run := 511, align := .aligned, params.cabinetRelease := true }, by
    decide +kernel⟩,
    ⟨idleFrame, { ready with link := .recovered, score := 255, run := 512, align := .aligned }, by decide +kernel⟩,
    ⟨[], { ready with link := .recovered, score := 255, run := 512, align := .aligned }, by decide +kernel⟩⟩

theorem test_ScoreCountsInService_hypotheses :
    (∃ (octets : List Byte) (s : State), Running s ∧ s.link.inService = true ∧ frameMessage octets s = none ∧ (if
      goodFrame s octets then s.score - 1 else s.score + 4) < 255)
    ∧ (∃ (octets : List Byte) (s : State), Running s ∧ s.link.inService = true ∧ frameMessage octets s = none ∧ (if
      goodFrame s octets then s.score - 1 else s.score + 4) < 255)
    ∧ (∃ (octets : List Byte) (s : State), Running s)
    ∧ (∃ (octets : List Byte) (s : State), Running s)
    ∧ (∃ (p : Port) (s : State), LinesNameSlots s)
    ∧ (∃ (p : Port) (s : State), LinesNameSlots s)
    ∧ (∃ (octets : List Byte) (i : Instr) (s : State), Running s ∧ frameMessage octets s = some i)
    ∧ (∃ (octets : List Byte) (held : List Byte) (message : List Byte) (i : Instr) (o1 : Byte) (o2 : Byte) (s :
      State), Running s ∧ s.link.messages = true ∧ goodFrame s octets = true ∧ (frameOf s octets)[22]? = some o1 ∧
      (frameOf s octets)[23]? = some o2 ∧ s.assembler = .assembling held ∧ held ≠ [] ∧ WellFormed i = true ∧
      encodeHeadMessage i = some message ∧ (message = held ++ [o1] ∨ message = held ++ [o1, o2]))
    ∧ (∃ (octets : List Byte) (held : List Byte) (message : List Byte) (i : Instr) (o1 : Byte) (o2 : Byte) (s :
      State), Running s ∧ s.link.messages = true ∧ goodFrame s octets = true ∧ (frameOf s octets)[22]? = some o1 ∧
      (frameOf s octets)[23]? = some o2 ∧ s.assembler = .assembling held ∧ held ≠ [] ∧ WellFormed i = true ∧
      encodeHeadMessage i = some message ∧ (message = held ++ [o1] ∨ message = held ++ [o1, o2]))
    ∧ (∃ (octets : List Byte) (s : State), Running s ∧ s.align = .aligned ∧ s.frameHead.length + s.frameEnd = 25)
    ∧ (∃ (octets : List Byte) (s : State), Running s ∧ s.align = .aligned ∧ s.frameHead.length + s.frameEnd = 25)
    ∧ (∃ (octets : List Byte) (s : State), Running s ∧ s.align = .hunting ∧ s.foundWords = 0)
    ∧ (∃ (octets : List Byte) (s : State), Running s ∧ s.align = .hunting ∧ s.foundWords = 0)
    ∧ (∃ (octets : List Byte) (s : State), Running s ∧ s.align = .hunting ∧ s.foundWords = 1)
    ∧ (∃ (octets : List Byte) (s : State), Running s ∧ s.align = .hunting ∧ s.foundWords = 1)
    ∧ (∃ (octets : List Byte) (s : State), Running s ∧ s.link.inService = true ∧ frameMessage octets s = none ∧ (if
      goodFrame s octets then s.score - 1 else s.score + 4) < 255 ∧ s.waitQueue = [] ∧ EventsFinished s ∧ Room 2 s)
    ∧ (∃ (octets : List Byte) (s : State), Running s ∧ s.link.inService = true ∧ frameMessage octets s = none ∧ (if
      goodFrame s octets then s.score - 1 else s.score + 4) < 255 ∧ s.waitQueue = [] ∧ EventsFinished s ∧ Room 2 s)
    ∧ (∃ (octets : List Byte) (s : State), Running s ∧ s.link = .resync ∧ frameMessage octets s = none ∧ (if goodFrame
      s octets then s.score - 1 else s.score + 4) < 255 ∧ EventsFinished s) :=
  ⟨⟨idleFrame, { ready with align := .aligned, score := 254, link := .impaired }, by decide +kernel⟩,
    ⟨[], { ready with score := 250, link := .impaired }, by decide +kernel⟩,
    ⟨idleFrame, { ready with align := .aligned }, by decide +kernel⟩,
    ⟨[], ready, by decide +kernel⟩,
    ⟨0, inCall .activeOut (.busy (call .out) false), by decide +kernel⟩,
    ⟨1, ready, by decide +kernel⟩,
    ⟨trunkFrameOf (List.replicate 20 Config.silence) 0xE9 0, .flow .stopAfter,
    { ready with align := .aligned, assembler := .assembling ([0xE7, 0x16, 1, 0]) }, by decide +kernel⟩,
    ⟨trunkFrameOf (List.replicate 20 Config.silence) 0xE9 0, [0xE7, 0x16, 1, 0], [0xE7, 0x16, 1, 0, 0xE9], .flow
    .stopAfter, 0xE9, 0, { ready with align := .aligned, assembler := .assembling ([0xE7, 0x16, 1, 0]) }, by
    decide +kernel⟩,
    ⟨trunkFrameOf (List.replicate 20 Config.silence) 0 0xE9, [0xE7, 0x16, 1], [0xE7, 0x16, 1, 0, 0xE9], .flow
    .stopAfter, 0, 0xE9, { ready with align := .aligned, assembler := .assembling ([0xE7, 0x16, 1]) }, by
    decide +kernel⟩,
    ⟨idleFrame, { ready with align := .aligned, badWords := 2 }, by decide +kernel⟩,
    ⟨List.replicate 25 0, { ready with align := .aligned, badWords := 2 }, by decide +kernel⟩,
    ⟨idleFrame, { ready with align := .hunting }, by decide +kernel⟩,
    ⟨List.replicate 25 0, { ready with align := .hunting }, by decide +kernel⟩,
    ⟨idleFrame, { ready with align := .hunting, foundWords := 1, huntAt := 1 }, by decide +kernel⟩,
    ⟨List.replicate 25 0, { ready with align := .hunting, foundWords := 1, huntAt := 24 }, by decide +kernel⟩,
    ⟨[], { ready with score := 156, link := .warned }, by decide +kernel⟩,
    ⟨idleFrame, { ready with align := .aligned, score := 160, link := .impaired, alarms := [⟨.linkImpaired, true⟩] },
    by decide +kernel⟩,
    ⟨[], { ready with score := 250, link := .resync }, by decide +kernel⟩⟩

theorem test_ScoreOf255EntersDown_hypotheses :
    (∃ (octets : List Byte) (s : State), Running s ∧ (s.link.inService = true ∨ s.link = .resync) ∧ goodFrame s
      octets = false ∧ 251 ≤ s.score)
    ∧ (∃ (octets : List Byte) (s : State), Running s ∧ (s.link.inService = true ∨ s.link = .resync) ∧ goodFrame s
      octets = false ∧ 251 ≤ s.score)
    ∧ (∃ (octets : List Byte) (s : State), Running s ∧ (s.link.inService = true ∨ s.link = .resync) ∧ goodFrame s
      octets = false ∧ 251 ≤ s.score ∧ (∀ g, (s.groups.at g).state ≠ .standbyPending) ∧ s.mode ≠ .configPending ∧ Room
      (4 + (allPorts.filter fun p => (stateAtDown s p).isSome).length) s)
    ∧ (∃ (octets : List Byte) (s : State), Running s ∧ (s.link.inService = true ∨ s.link = .resync) ∧ goodFrame s
      octets = false ∧ 251 ≤ s.score ∧ (∀ g, (s.groups.at g).state ≠ .standbyPending) ∧ s.mode ≠ .configPending ∧ Room
      (4 + (allPorts.filter fun p => (stateAtDown s p).isSome).length) s) :=
  ⟨⟨[], { inCall .activeOut (.busy (call .out) true) with score := 251, link := .impaired }, by decide +kernel⟩,
    ⟨[], { inCall .activeOut (.busy (call .out) true) with score := 254, link := .resync }, by decide +kernel⟩,
    ⟨[], { inCall .activeOut (.busy (call .out) true) with score := 251, link := .impaired }, by decide +kernel⟩,
    ⟨[], { inCall .ringing (.reserved (call .inward) false) with score := 254, link := .resync, bus := .claimed 0 },
    by decide +kernel⟩⟩

theorem test_HoldoverExpiryReleasesHeldCalls_hypotheses :
    (∃ (ms : Nat) (s : State), Running s ∧ (s.link = .down ∨ s.link = .recovered) ∧ s.holdover = some ms ∧ s.txq =
      [] ∧ s.mode ≠ .configPending ∧ Room (1 + (allPorts.filter fun p => decide ((s.lines.at p).state =
      .holdover)).length) s)
    ∧ (∃ (ms : Nat) (s : State), Running s ∧ (s.link = .down ∨ s.link = .recovered) ∧ s.holdover = some ms ∧ s.txq =
      [] ∧ s.mode ≠ .configPending ∧ Room (1 + (allPorts.filter fun p => decide ((s.lines.at p).state =
      .holdover)).length) s)
    ∧ (∃ (ms : Nat) (s : State), Running s ∧ (s.link = .down ∨ s.link = .recovered) ∧ s.holdover = some ms ∧ s.txq =
      [] ∧ s.mode ≠ .configPending ∧ Room (1 + (allPorts.filter fun p => decide ((s.lines.at p).state =
      .holdover)).length) s) :=
  ⟨⟨1, { inCall .holdover (.held (call .out) false) with link := .down, score := 255, holdover := some 1 }, by
    decide +kernel⟩,
    ⟨1, { inCall .holdover (.held (call .out) false) with link := .recovered, score := 255, holdover := some 1 }, by
    decide +kernel⟩,
    ⟨1,
    { { inCall .holdover (.held (call .out) false) with link := .down, score := 255, holdover := some 1 } with bus := .claimed 0 },
    by decide +kernel⟩⟩

theorem test_RestartReplyExpires_hypotheses :
    (∃ (ms : Nat) (s : State), Running s ∧ s.link = .resync ∧ s.restartTimer = some (.first, ms) ∧ freePlace s =
      true ∧ EventsFinished s)
    ∧ (∃ (ms : Nat) (s : State), Running s ∧ s.link = .resync ∧ s.restartTimer = some (.again, ms) ∧ s.waitQueue = []
      ∧ LinesNameSlots s ∧ s.mode ≠ .configPending ∧ Room (4 + (linesHeld s).length) s)
    ∧ (∃ (ms : Nat) (s : State), Running s ∧ s.link = .resync ∧ s.restartTimer = some (.again, ms) ∧ s.waitQueue = []
      ∧ LinesNameSlots s ∧ s.mode ≠ .configPending ∧ Room (4 + (linesHeld s).length) s) :=
  ⟨⟨2000, { inCall .holdover (.held (call .out) false) with link := .resync, restartTimer := some (.first, 2000) },
    by decide +kernel⟩,
    ⟨2000, { inCall .holdover (.held (call .out) false) with link := .resync, restartTimer := some (.again, 2000) },
    by decide +kernel⟩,
    ⟨2000,
    { { inCall .holdover (.held (call .out) false) with link := .resync, restartTimer := some (.again, 2000) } with bus := .claimed 0 },
    by decide +kernel⟩⟩

theorem test_SlotReplyTimersExpire_hypotheses :
    (∃ (i : SlotId) (ms : Nat) (c : Call) (b : Bool) (s : State), Running s ∧ s.slots.at i = .reserved c b ∧
      (s.sig.at i).timer = some ⟨.seize, .first, ms⟩ ∧ EventsFinished s)
    ∧ (∃ (i : SlotId) (ms : Nat) (c : Call) (b : Bool) (s : State), Running s ∧ s.slots.at i = .reserved c b ∧
      (s.sig.at i).timer = some ⟨.seize, .again, ms⟩ ∧ (s.lines.at c.line).state = .seizing ∧ s.mark ≠ some i ∧
      OneEntryEach s ∧ s.waitQueue = [] ∧ s.mode ≠ .configPending ∧ EventsFinished s ∧ Room 2 s)
    ∧ (∃ (i : SlotId) (ms : Nat) (p : Port) (tag : Nat) (r : Reason) (b : Bool) (s : State), Running s ∧ s.slots.at i
      = .clearing p tag (.awaitAck r) b ∧ (s.sig.at i).timer = some ⟨.clear, .first, ms⟩ ∧ EventsFinished s)
    ∧ (∃ (i : SlotId) (ms : Nat) (p : Port) (tag : Nat) (r : Reason) (b : Bool) (s : State), Running s ∧ s.slots.at i
      = .clearing p tag (.awaitAck r) b ∧ (s.sig.at i).timer = some ⟨.clear, .again, ms⟩ ∧ alarmEntry s (.slotSuspect
      i) = none ∧ s.waitQueue = [] ∧ EventsFinished s ∧ s.mode ≠ .configPending ∧ Room 1 s) :=
  ⟨⟨0, 2000, call .out, false, setSig 0 { Sig.cleared with tagKnown := true, timer := some ⟨.seize, .first, 2000⟩ }
    (inCall .seizing (.reserved (call .out) false)), by decide +kernel⟩,
    ⟨0, 2000, call .out, false, setSig 0 { Sig.cleared with tagKnown := true, timer := some ⟨.seize, .again, 2000⟩ }
    (inCall .seizing (.reserved (call .out) false)), by decide +kernel⟩,
    ⟨0, 2000, 0, 1, .normal, false, setSig 0
    { Sig.cleared with clearSent := true, timer := some ⟨.clear, .first, 2000⟩ } (setSlot 0 (.clearing 0 1 (.awaitAck
    .normal) false) ready), by decide +kernel⟩,
    ⟨0, 2000, 0, 1, .normal, false, setSig 0
    { Sig.cleared with clearSent := true, timer := some ⟨.clear, .again, 2000⟩ } (setSlot 0 (.clearing 0 1 (.awaitAck
    .normal) false) ready), by decide +kernel⟩⟩

theorem test_FirstEntryStarts_hypotheses :
    (∃ (e : Entry) (rest : List Entry) (s : State), Running s ∧ s.flow = .go ∧ s.inFlight = none ∧ s.link.messages =
      true ∧ s.txq = e :: rest ∧ e.slotMsg? ≠ some .digits)
    ∧ (∃ (i : SlotId) (p : Port) (tag : Nat) (pinned : Bool) (rest : List Entry) (s : State), Running s ∧ s.flow = .go
      ∧ s.inFlight = none ∧ s.link.messages = true ∧ s.txq = { msg := .ofSlot i p tag .digits, pinned := pinned } ::
      rest ∧ (s.buffers.at p).digits ≠ []) :=
  ⟨⟨⟨.ofSlot 0 0 1 .seize, false⟩, [],
    { inCall .seizing (.reserved (call .out) false) with txq := [⟨.ofSlot 0 0 1 .seize, false⟩] }, by decide +kernel⟩,
    ⟨0, 0, 1, false, [], setBuffer 0 { DigitBuffer.empty with digits := [1, 2, 3, 4] }
    { inCall .activeOut (.busy (call .out) true) with txq := [⟨.ofSlot 0 0 1 .digits, false⟩] }, by decide +kernel⟩⟩

theorem test_EntryCompletes_hypotheses :
    (∃ (i : SlotId) (c : Call) (b : Bool) (tag : Nat) (p : Port) (pinned : Bool) (rest : List Entry) (f : InFlight)
      (s : State), Running s ∧ s.inFlight = some f ∧ s.txq = { msg := .ofSlot i p tag .seize, pinned := pinned } ::
      rest ∧ s.slots.at i = .reserved c b ∧ c.direction = .out ∧ (s.sig.at i).owed = none ∧ s.restartOwed = false ∧
      EventsFinished s)
    ∧ (∃ (i : SlotId) (former : Port) (p : Port) (t : Nat) (tag : Nat) (r : Reason) (r' : Reason) (b : Bool) (pinned :
      Bool) (rest : List Entry) (f : InFlight) (s : State), Running s ∧ s.inFlight = some f ∧ s.txq =
      { msg := .ofSlot i p tag (.clear r'), pinned := pinned } :: rest ∧ s.slots.at i = .clearing former t (.awaitAck
      r) b ∧ (s.sig.at i).owed = none ∧ s.restartOwed = false ∧ EventsFinished s)
    ∧ (∃ (i : SlotId) (former : Port) (p : Port) (t : Nat) (tag : Nat) (pinned : Bool) (rest : List Entry) (f :
      InFlight) (s : State), Running s ∧ s.inFlight = some f ∧ s.txq =
      { msg := .ofSlot i p tag .clearAck, pinned := pinned } :: rest ∧ s.slots.at i = .clearing former t .oweAck false
      ∧ s.restartOwed = false ∧ s.waitQueue = [] ∧ EventsFinished s ∧ s.mode ≠ .configPending)
    ∧ (∃ (i : SlotId) (p : Port) (tag : Nat) (ref : BitVec 16) (pinned : Bool) (rest : List Entry) (f : InFlight) (s :
      State), Running s ∧ s.inFlight = some f ∧ s.txq = { msg := .ofSlot i p tag (.offer ref), pinned := pinned } ::
      rest ∧ (s.slots.at i).call?.isSome = true ∧ joined s i = none ∧ (s.sig.at i).owed = none ∧ s.restartOwed = false
      ∧ EventsFinished s)
    ∧ (∃ (i : SlotId) (c : Call) (b : Bool) (p : Port) (tag : Nat) (m : SlotMsg) (pinned : Bool) (rest : List Entry)
      (f : InFlight) (s : State), Running s ∧ s.inFlight = some f ∧ s.txq =
      { msg := .ofSlot i p tag m, pinned := pinned } :: rest ∧ m ∈ [SlotMsg.answer, .flash, .digits] ∧ s.slots.at i =
      .busy c b ∧ c.line = p ∧ (s.lines.at p).state.active = true ∧ (∀ e ∈ rest, e.slot? ≠ some i) ∧ (s.sig.at i).owed
      = none ∧ s.restartOwed = false ∧ EventsFinished s)
    ∧ (∃ (i : SlotId) (former : Port) (p : Port) (n : Nat) (tag : Nat) (m : SlotMsg) (o : ClearOwed) (b : Bool)
      (pinned : Bool) (rest : List Entry) (f : InFlight) (s : State), Running s ∧ s.inFlight = some f ∧ s.txq =
      { msg := .ofSlot i p tag m, pinned := pinned } :: rest ∧ s.slots.at i = .clearing former n o.side b ∧ (s.sig.at
      i).owed = some o ∧ owedFits o m = true ∧ (∀ e ∈ rest, e.slot? ≠ some i) ∧ s.restartOwed = false ∧ EventsFinished
      s)
    ∧ (∃ (i : SlotId) (former : Port) (p : Port) (n : Nat) (tag : Nat) (m : SlotMsg) (o : ClearOwed) (b : Bool)
      (pinned : Bool) (rest : List Entry) (f : InFlight) (s : State), Running s ∧ s.inFlight = some f ∧ s.txq =
      { msg := .ofSlot i p tag m, pinned := pinned } :: rest ∧ s.slots.at i = .clearing former n o.side b ∧ (s.sig.at
      i).owed = some o ∧ owedFits o m = true ∧ (∀ e ∈ rest, e.slot? ≠ some i) ∧ s.restartOwed = false ∧ EventsFinished
      s)
    ∧ (∃ (pinned : Bool) (rest : List Entry) (f : InFlight) (s : State), Running s ∧ s.inFlight = some f ∧ s.txq =
      { msg := .ofNone .restart, pinned := pinned } :: rest ∧ s.restartOwed = false ∧ EventsFinished s)
    ∧ (∃ (e : Entry) (rest : List Entry) (f : InFlight) (s : State), Running s ∧ s.inFlight = some f ∧ s.txq = e ::
      rest ∧ e.slot? = none ∧ e.msg ≠ .ofNone .restart ∧ s.link = .resync ∧ s.restartOwed = true ∧ (s.txq.filter fun x
      => decide (x.slot? = none)).length ≤ 4 ∧ EventsFinished s) :=
  ⟨⟨0, call .out, false, 1, 0, false, [], ⟨[0], []⟩,
    { inCall .seizing (.reserved (call .out) false) with txq := [⟨.ofSlot 0 0 1 .seize, false⟩], inFlight := some ⟨[0], []⟩ },
    by decide +kernel⟩,
    ⟨0, 0, 0, 1, 1, .normal, .normal, false, false, [], ⟨[0], []⟩,
    { setSlot 0 (.clearing 0 1 (.awaitAck .normal) false) ready with txq := [⟨.ofSlot 0 0 1 (.clear .normal), false⟩], inFlight := some ⟨[0], []⟩ },
    by decide +kernel⟩,
    ⟨0, 0, 0, 1, 1, false, [], ⟨[0], []⟩,
    { setSlot 0 (.clearing 0 1 .oweAck false) ready with txq := [⟨.ofSlot 0 0 1 .clearAck, false⟩], inFlight := some ⟨[0], []⟩ },
    by decide +kernel⟩,
    ⟨0, 0, 1, 5, true, [], ⟨[0], []⟩,
    { inCall .offered (.reserved (call .inward) false) with txq := [⟨.ofSlot 0 0 1 (.offer 5), true⟩], inFlight := some ⟨[0], []⟩ },
    by decide +kernel⟩,
    ⟨0, call .out, true, 0, 1, .digits, false, [], ⟨[0], [3]⟩, setBuffer 0 ⟨[4], 1, false⟩
    { inCall .activeOut (.busy (call .out) true) with txq := [⟨.ofSlot 0 0 1 .digits, false⟩], inFlight := some ⟨[0], [3]⟩ },
    by decide +kernel⟩,
    ⟨0, 0, 0, 1, 1, .seize, .clear .normal, false, false, [], ⟨[0], []⟩, setSig 0
    { Sig.cleared with owed := some (.clear .normal) }
    { setSlot 0 (.clearing 0 1 (.awaitAck .normal) false) ready with txq := [⟨.ofSlot 0 0 1 .seize, false⟩], inFlight := some ⟨[0], []⟩ },
    by decide +kernel⟩,
    ⟨0, 0, 0, 1, 1, .clear .normal, .clearAck, false, false, [], ⟨[0], []⟩, setSig 0
    { Sig.cleared with owed := some .clearAck }
    { setSlot 0 (.clearing 0 1 .oweAck false) ready with txq := [⟨.ofSlot 0 0 1 (.clear .normal), false⟩], inFlight := some ⟨[0], []⟩ },
    by decide +kernel⟩,
    ⟨false, [], ⟨[0], []⟩,
    { ready with link := .resync, txq := [⟨.ofNone .restart, false⟩], inFlight := some ⟨[0], []⟩ }, by decide +kernel⟩,
    ⟨⟨.ofNone (.clearAck 9), false⟩, List.replicate 3 ⟨.ofNone (.clearAck 9), false⟩, ⟨[0], []⟩,
    { ready with link := .resync, restartOwed := true, txq := List.replicate 4 ⟨.ofNone (.clearAck 9), false⟩, inFlight := some ⟨[0], []⟩ },
    by decide +kernel⟩⟩

theorem test_AcceptConnectsTheCall_hypotheses :
    (∃ (tag : Byte) (i : SlotId) (c : Call) (b : Bool) (s : State), Running s ∧ s.link.messages = true ∧ slotOfTag s
      tag.toNat = some i ∧ s.slots.at i = .reserved c b ∧ c.direction = .out ∧ (s.sig.at i).tagKnown = true ∧
      (s.sig.at i).owed = none ∧ (s.lines.at c.line).state = .seizing ∧ (s.lines.at c.line).flashOwed = false ∧
      EventsFinished s ∧ Room 1 s) :=
  ⟨1, 0, call .out, false, setSig 0 { Sig.cleared with tagKnown := true, timer := some ⟨.seize, .first, 2000⟩ }
    (inCall .seizing (.reserved (call .out) false)), by decide +kernel⟩

theorem test_RejectAndProgress_hypotheses :
    (∃ (tag : Byte) (r : Reason) (i : SlotId) (c : Call) (b : Bool) (s : State), Running s ∧ s.link.messages = true
      ∧ slotOfTag s tag.toNat = some i ∧ s.slots.at i = .reserved c b ∧ c.direction = .out ∧ (s.sig.at i).tagKnown =
      true ∧ (s.lines.at c.line).state = .seizing ∧ s.waitQueue = [] ∧ EventsFinished s ∧ s.mode ≠ .configPending ∧
      Room 2 s)
    ∧ (∃ (tag : Byte) (r : Reason) (i : SlotId) (c : Call) (b : Bool) (s : State), Running s ∧ s.link.messages = true
      ∧ slotOfTag s tag.toNat = some i ∧ s.slots.at i = .reserved c b ∧ c.direction = .out ∧ (s.sig.at i).tagKnown =
      true ∧ (s.lines.at c.line).state = .seizing ∧ s.waitQueue = [] ∧ EventsFinished s ∧ s.mode ≠ .configPending ∧
      Room 2 s)
    ∧ (∃ (tag : Byte) (i : SlotId) (c : Call) (b : Bool) (s : State), Running s ∧ s.link.messages = true ∧ slotOfTag s
      tag.toNat = some i ∧ s.slots.at i = .busy c b ∧ c.direction = .out ∧ EventsFinished s) :=
  ⟨⟨1, .busy, 0, call .out, false, setSig 0 { Sig.cleared with tagKnown := true } (inCall .seizing (.reserved (call
    .out) false)), by decide +kernel⟩,
    ⟨1, .busy, 0, call .out, true, setSig 0 { Sig.cleared with tagKnown := true } (inCall .seizing (.reserved (call
    .out) true)), by decide +kernel⟩,
    ⟨1, 0, call .out, true, inCall .activeOut (.busy (call .out) true), by decide +kernel⟩⟩

theorem test_HeadClearIsAnswered_hypotheses :
    (∃ (tag : Byte) (r : Reason) (i : SlotId) (c : Call) (s : State), Running s ∧ s.link.messages = true ∧ slotOfTag
      s tag.toNat = some i ∧ (s.slots.at i).call? = some c ∧ (s.sig.at i).tagKnown = true ∧ (s.lines.at
      c.line).state.holdsSlot = true ∧ (s.lines.at c.line).state.called = false ∧ s.waitQueue = [] ∧ EventsFinished s
      ∧ Room 2 s)
    ∧ (∃ (tag : Byte) (r : Reason) (i : SlotId) (c : Call) (s : State), Running s ∧ s.link.messages = true ∧ slotOfTag
      s tag.toNat = some i ∧ (s.slots.at i).call? = some c ∧ (s.sig.at i).tagKnown = true ∧ (s.lines.at
      c.line).state.holdsSlot = true ∧ (s.lines.at c.line).state.called = false ∧ s.waitQueue = [] ∧ EventsFinished s
      ∧ Room 2 s)
    ∧ (∃ (tag : Byte) (r : Reason) (i : SlotId) (c : Call) (b : Bool) (s : State), Running s ∧ s.link.messages = true
      ∧ slotOfTag s tag.toNat = some i ∧ s.slots.at i = .reserved c b ∧ (s.sig.at i).tagKnown = true ∧ (s.lines.at
      c.line).state.called = true ∧ s.waitQueue = [] ∧ s.ringQueue.erase c.line = [] ∧ groupState s c.line ≠
      .standbyPending ∧ EventsFinished s ∧ Room 2 s)
    ∧ (∃ (tag : Byte) (r : Reason) (q : Reason) (i : SlotId) (p : Port) (n : Nat) (b : Bool) (s : State), Running s ∧
      s.link.messages = true ∧ slotOfTag s tag.toNat = some i ∧ s.slots.at i = .clearing p n (.awaitAck q) b ∧
      (s.sig.at i).tagKnown = true ∧ EventsFinished s)
    ∧ (∃ (tag : Byte) (r : Reason) (q : Reason) (i : SlotId) (p : Port) (n : Nat) (b : Bool) (s : State), Running s ∧
      s.link.messages = true ∧ slotOfTag s tag.toNat = some i ∧ s.slots.at i = .clearing p n (.awaitAck q) b ∧
      (s.sig.at i).tagKnown = true ∧ EventsFinished s)
    ∧ (∃ (tag : Byte) (r : Reason) (i : SlotId) (p : Port) (n : Nat) (b : Bool) (s : State), Running s ∧
      s.link.messages = true ∧ slotOfTag s tag.toNat = some i ∧ s.slots.at i = .clearing p n .oweAck b ∧
      EventsFinished s)
    ∧ (∃ (tag : Byte) (r : Reason) (s : State), Running s ∧ s.link.messages = true ∧ (∀ i ∈ slotOfTag s tag.toNat,
      (s.sig.at i).tagKnown = false ∧ (s.slots.at i).clearSide? ≠ some .oweAck) ∧ EventsFinished s)
    ∧ (∃ (tag : Byte) (r : Reason) (s : State), Running s ∧ s.link.messages = true ∧ (∀ i ∈ slotOfTag s tag.toNat,
      (s.sig.at i).tagKnown = false ∧ (s.slots.at i).clearSide? ≠ some .oweAck) ∧ EventsFinished s)
    ∧ (∃ (tag : Byte) (r : Reason) (s : State), Running s ∧ s.link.messages = true ∧ (∀ i ∈ slotOfTag s tag.toNat,
      (s.sig.at i).tagKnown = false ∧ (s.slots.at i).clearSide? ≠ some .oweAck) ∧ EventsFinished s) :=
  ⟨⟨1, .normal, 0, call .out, setSig 0 { Sig.cleared with tagKnown := true } (inCall .activeOut (.busy (call .out)
    true)), by decide +kernel⟩,
    ⟨1, .normal, 0, call .out,
    { setSig 0 { Sig.cleared with tagKnown := true } (inCall .holdover (.held (call .out) false)) with link := .resync },
    by decide +kernel⟩,
    ⟨1, .normal, 0, call .inward, true, setSig 0 { Sig.cleared with tagKnown := true } (inCall .ringing (.reserved
    (call .inward) true)), by decide +kernel⟩,
    ⟨1, .normal, .busy, 0, 0, 1, false, setSig 0 { Sig.cleared with tagKnown := true } (setSlot 0 (.clearing 0 1
    (.awaitAck .busy) false) ready), by decide +kernel⟩,
    ⟨1, .normal, .busy, 0, 0, 1, false,
    { setSig 0 { Sig.cleared with tagKnown := true } (setSlot 0 (.clearing 0 1 (.awaitAck .busy) false) ready) with txq := [⟨.ofSlot 0 0 1 (.clear .busy), false⟩], inFlight := some ⟨[0], []⟩ },
    by decide +kernel⟩,
    ⟨1, .normal, 0, 0, 1, false, setSlot 0 (.clearing 0 1 .oweAck false) ready, by decide +kernel⟩,
    ⟨7, .normal, ready, by decide +kernel⟩,
    ⟨7, .normal, { ready with txq := List.replicate 4 ⟨.ofNone (.clearAck 9), false⟩ }, by decide +kernel⟩,
    ⟨1, .normal, inCall .seizing (.reserved (call .out) false), by decide +kernel⟩⟩

theorem test_ClearAckEndsTheExchange_hypotheses :
    (∃ (tag : Byte) (i : SlotId) (p : Port) (t : Nat) (r : Reason) (b : Bool) (s : State), Running s ∧
      s.link.messages = true ∧ slotOfTag s tag.toNat = some i ∧ s.slots.at i = .clearing p t (.awaitAck r) b ∧
      (s.sig.at i).clearSent = true ∧ s.waitQueue = [] ∧ EventsFinished s ∧ s.mode ≠ .configPending)
    ∧ (∃ (tag : Byte) (i : SlotId) (p : Port) (t : Nat) (r : Reason) (b : Bool) (s : State), Running s ∧
      s.link.messages = true ∧ slotOfTag s tag.toNat = some i ∧ s.slots.at i = .clearing p t (.awaitAck r) b ∧
      (s.sig.at i).clearSent = true ∧ s.waitQueue = [] ∧ EventsFinished s ∧ s.mode ≠ .configPending)
    ∧ (∃ (tag : Byte) (i : SlotId) (p : Port) (t : Nat) (r : Reason) (b : Bool) (s : State), Running s ∧
      s.link.messages = true ∧ slotOfTag s tag.toNat = some i ∧ s.slots.at i = .clearing p t (.awaitAck r) b ∧
      (s.sig.at i).clearSent = false ∧ EventsFinished s) :=
  ⟨⟨1, 0, 0, 1, .normal, false, setSig 0 { Sig.cleared with clearSent := true, timer := some ⟨.clear, .first, 2000⟩ }
    (setSlot 0 (.clearing 0 1 (.awaitAck .normal) false) ready), by decide +kernel⟩,
    ⟨1, 0, 0, 1, .normal, true, setSlot 0 (.clearing 0 1 (.awaitAck .normal) true) (setSig 0
    { Sig.cleared with clearSent := true, timer := some ⟨.clear, .first, 2000⟩ } (setSlot 0 (.clearing 0 1 (.awaitAck
    .normal) false) ready)), by decide +kernel⟩,
    ⟨1, 0, 0, 1, .normal, false, setSlot 0 (.clearing 0 1 (.awaitAck .normal) false) ready, by decide +kernel⟩⟩

theorem test_IncomingAdmitsAnIdleLine_hypotheses :
    (∃ (ref : BitVec 16) (number : BitVec 16) (p : Port) (i : SlotId) (rest : List SlotId) (s : State), Running s ∧
      lookup s number.toNat = some p ∧ s.mode = .normal ∧ s.link.inService = true ∧ (s.lines.at p).state = .idle ∧
      (s.lines.at p).answerOwed = false ∧ s.bus ≠ .claimed p ∧ (isOrdinary s p = true → s.link.ordinary = true ∧
      activeCount s < s.posture.callLimit) ∧ s.free = i :: rest ∧ s.slots.at i = .free ∧ (∃ tag, tagHeld s tag = false
      ∧ 1 ≤ tag ∧ tag ≤ 255) ∧ s.nextOrder < 65535 ∧ hookSampled s p = true ∧ s.waitQueue = [] ∧ s.ringQueue = [] ∧
      s.cells.at (cellOf (nextPhase s.phase) (busOf p)) = [] ∧ s.nextPlacement < 65535 ∧ EventsFinished s ∧ Room 1 s)
    ∧ (∃ (ref : BitVec 16) (number : BitVec 16) (p : Port) (i : SlotId) (rest : List SlotId) (s : State), Running s ∧
      lookup s number.toNat = some p ∧ s.mode = .normal ∧ s.link.inService = true ∧ (s.lines.at p).state = .idle ∧
      (s.lines.at p).answerOwed = false ∧ s.bus ≠ .claimed p ∧ (isOrdinary s p = true → s.link.ordinary = true ∧
      activeCount s < s.posture.callLimit) ∧ s.free = i :: rest ∧ s.slots.at i = .free ∧ (∃ tag, tagHeld s tag = false
      ∧ 1 ≤ tag ∧ tag ≤ 255) ∧ s.nextOrder < 65535 ∧ (groupState s p = .standby ∨ groupState s p = .waking) ∧
      s.waitQueue = [] ∧ EventsFinished s ∧ Room 2 s)
    ∧ (∃ (ref : BitVec 16) (number : BitVec 16) (p : Port) (i : SlotId) (rest : List SlotId) (s : State), Running s ∧
      lookup s number.toNat = some p ∧ s.mode = .normal ∧ s.link.inService = true ∧ (s.lines.at p).state = .idle ∧
      (s.lines.at p).answerOwed = false ∧ s.bus ≠ .claimed p ∧ (isOrdinary s p = true → s.link.ordinary = true ∧
      activeCount s < s.posture.callLimit) ∧ s.free = i :: rest ∧ s.slots.at i = .free ∧ (∃ tag, tagHeld s tag = false
      ∧ 1 ≤ tag ∧ tag ≤ 255) ∧ s.nextOrder < 65535 ∧ (groupState s p = .standby ∨ groupState s p = .waking) ∧
      s.waitQueue = [] ∧ EventsFinished s ∧ Room 2 s) :=
  ⟨⟨5, 1200, 0, 0, allSlots.erase 0, ready, by
      refine ⟨?_, ?_, ?_, ?_, ?_, ?_, ?_, ?_, ?_, ?_, ⟨9, by decide +kernel⟩,
        ?_, ?_, ?_, ?_, ?_, ?_, ?_, ?_⟩
        <;> decide +kernel⟩,
    ⟨5, 1200, 0, 0, allSlots.erase 0, setGroup 0 { Group.initial with state := .standby, slow := some 200 } ready, by
      refine ⟨?_, ?_, ?_, ?_, ?_, ?_, ?_, ?_, ?_, ?_, ⟨9, by decide +kernel⟩,
        ?_, ?_, ?_, ?_, ?_⟩
        <;> decide +kernel⟩,
    ⟨5, 1201, 1, 0, allSlots.erase 0, setGroup 0 { Group.initial with state := .waking, settle := some 300 }
    { ready with nextTag := 255 }, by
      refine ⟨?_, ?_, ?_, ?_, ?_, ?_, ?_, ?_, ?_, ?_, ⟨9, by decide +kernel⟩,
        ?_, ?_, ?_, ?_, ?_⟩
        <;> decide +kernel⟩⟩

theorem test_IncomingIsRefused_hypotheses :
    (∃ (ref : BitVec 16) (number : BitVec 16) (r : Reason) (s : State),
      Running s ∧ s.link.messages = true ∧ EventsFinished s ∧ (match lookup s number.toNat with
      | none => some Reason.unknownLine
      | some p =>
        if s.mode ≠ .normal then some .outOfService
        else if s.link = .resync then some .outOfService
        else if (s.lines.at p).state = .test ∨ (s.lines.at p).state = .fault ∨ s.bus = .claimed p then some .outOfService
        else if (s.lines.at p).state ≠ .idle then some .busy
        else if isOrdinary s p = true ∧ ((s.link ≠ .up ∧ s.link ≠ .warned) ∨ s.posture.callLimit ≤ activeCount s) then some .congested
        else if s.free = [] then some .congested
        else none) = some r)
    ∧ (∃ (ref : BitVec 16) (number : BitVec 16) (r : Reason) (s : State),
      Running s ∧ s.link.messages = true ∧ EventsFinished s ∧ (match lookup s number.toNat with
      | none => some Reason.unknownLine
      | some p =>
        if s.mode ≠ .normal then some .outOfService
        else if s.link = .resync then some .outOfService
        else if (s.lines.at p).state = .test ∨ (s.lines.at p).state = .fault ∨ s.bus = .claimed p then some .outOfService
        else if (s.lines.at p).state ≠ .idle then some .busy
        else if isOrdinary s p = true ∧ ((s.link ≠ .up ∧ s.link ≠ .warned) ∨ s.posture.callLimit ≤ activeCount s) then some .congested
        else if s.free = [] then some .congested
        else none) = some r)
    ∧ (∃ (ref : BitVec 16) (number : BitVec 16) (r : Reason) (s : State),
      Running s ∧ s.link.messages = true ∧ EventsFinished s ∧ (match lookup s number.toNat with
      | none => some Reason.unknownLine
      | some p =>
        if s.mode ≠ .normal then some .outOfService
        else if s.link = .resync then some .outOfService
        else if (s.lines.at p).state = .test ∨ (s.lines.at p).state = .fault ∨ s.bus = .claimed p then some .outOfService
        else if (s.lines.at p).state ≠ .idle then some .busy
        else if isOrdinary s p = true ∧ ((s.link ≠ .up ∧ s.link ≠ .warned) ∨ s.posture.callLimit ≤ activeCount s) then some .congested
        else if s.free = [] then some .congested
        else none) = some r)
    ∧ (∃ (ref : BitVec 16) (number : BitVec 16) (r : Reason) (s : State),
      Running s ∧ s.link.messages = true ∧ EventsFinished s ∧ (match lookup s number.toNat with
      | none => some Reason.unknownLine
      | some p =>
        if s.mode ≠ .normal then some .outOfService
        else if s.link = .resync then some .outOfService
        else if (s.lines.at p).state = .test ∨ (s.lines.at p).state = .fault ∨ s.bus = .claimed p then some .outOfService
        else if (s.lines.at p).state ≠ .idle then some .busy
        else if isOrdinary s p = true ∧ ((s.link ≠ .up ∧ s.link ≠ .warned) ∨ s.posture.callLimit ≤ activeCount s) then some .congested
        else if s.free = [] then some .congested
        else none) = some r)
    ∧ (∃ (ref : BitVec 16) (number : BitVec 16) (r : Reason) (s : State),
      Running s ∧ s.link.messages = true ∧ EventsFinished s ∧ (match lookup s number.toNat with
      | none => some Reason.unknownLine
      | some p =>
        if s.mode ≠ .normal then some .outOfService
        else if s.link = .resync then some .outOfService
        else if (s.lines.at p).state = .test ∨ (s.lines.at p).state = .fault ∨ s.bus = .claimed p then some .outOfService
        else if (s.lines.at p).state ≠ .idle then some .busy
        else if isOrdinary s p = true ∧ ((s.link ≠ .up ∧ s.link ≠ .warned) ∨ s.posture.callLimit ≤ activeCount s) then some .congested
        else if s.free = [] then some .congested
        else none) = some r)
    ∧ (∃ (ref : BitVec 16) (number : BitVec 16) (r : Reason) (s : State),
      Running s ∧ s.link.messages = true ∧ EventsFinished s ∧ (match lookup s number.toNat with
      | none => some Reason.unknownLine
      | some p =>
        if s.mode ≠ .normal then some .outOfService
        else if s.link = .resync then some .outOfService
        else if (s.lines.at p).state = .test ∨ (s.lines.at p).state = .fault ∨ s.bus = .claimed p then some .outOfService
        else if (s.lines.at p).state ≠ .idle then some .busy
        else if isOrdinary s p = true ∧ ((s.link ≠ .up ∧ s.link ≠ .warned) ∨ s.posture.callLimit ≤ activeCount s) then some .congested
        else if s.free = [] then some .congested
        else none) = some r)
    ∧ (∃ (ref : BitVec 16) (number : BitVec 16) (r : Reason) (s : State),
      Running s ∧ s.link.messages = true ∧ EventsFinished s ∧ (match lookup s number.toNat with
      | none => some Reason.unknownLine
      | some p =>
        if s.mode ≠ .normal then some .outOfService
        else if s.link = .resync then some .outOfService
        else if (s.lines.at p).state = .test ∨ (s.lines.at p).state = .fault ∨ s.bus = .claimed p then some .outOfService
        else if (s.lines.at p).state ≠ .idle then some .busy
        else if isOrdinary s p = true ∧ ((s.link ≠ .up ∧ s.link ≠ .warned) ∨ s.posture.callLimit ≤ activeCount s) then some .congested
        else if s.free = [] then some .congested
        else none) = some r) :=
  ⟨⟨5, 7, .unknownLine, ready, by decide +kernel⟩,
    ⟨5, 1200, .outOfService, { ready with mode := .config }, by decide +kernel⟩,
    ⟨5, 1200, .outOfService, { ready with link := .resync }, by decide +kernel⟩,
    ⟨5, 1200, .outOfService, { ready with bus := .claimed 0 }, by decide +kernel⟩,
    ⟨5, 1200, .busy, inCall .activeOut (.busy (call .out) true), by decide +kernel⟩,
    ⟨5, 1200, .congested, { ready with link := .impaired, score := 200 }, by decide +kernel⟩,
    ⟨5, 1201, .congested, { ready with free := [] }, by decide +kernel⟩⟩

theorem test_RestartAckSettlesHeldCalls_hypotheses :
    (∃ (tags : List Byte) (s : State), Running s ∧ s.link = .resync ∧ s.waitQueue = [] ∧ LinesNameSlots s ∧ s.mode ≠
      .configPending ∧ Room (4 + (linesHeld s).length) s)
    ∧ (∃ (tags : List Byte) (s : State), Running s ∧ s.link = .resync ∧ s.waitQueue = [] ∧ LinesNameSlots s ∧ s.mode ≠
      .configPending ∧ Room (4 + (linesHeld s).length) s)
    ∧ (∃ (tags : List Byte) (s : State), Running s ∧ s.link ≠ .resync ∧ EventsFinished s) :=
  ⟨⟨[1], { inCall .holdover (.held (call .out) false) with link := .resync, restartTimer := some (.first, 2000) }, by
    decide +kernel⟩,
    ⟨[], { inCall .holdover (.held (call .out) false) with link := .resync, restartTimer := some (.first, 2000) }, by
    decide +kernel⟩,
    ⟨[1], ready, by decide +kernel⟩⟩

theorem test_FlowActs_hypotheses :
    (∃ (f : FlowCommand) (s : State), Running s ∧ s.link.messages = true ∧ (f = .stopNow → s.inFlight = none) ∧
      EventsFinished s)
    ∧ (∃ (f : FlowCommand) (s : State), Running s ∧ s.link.messages = true ∧ (f = .stopNow → s.inFlight = none) ∧
      EventsFinished s)
    ∧ (∃ (s : State), Running s ∧ s.link.messages = true ∧ s.flow = .stopped ∧ EventsFinished s)
    ∧ (∃ (i : SlotId) (p : Port) (tag : Nat) (pinned : Bool) (rest : List Entry) (f : InFlight) (s : State), Running s
      ∧ s.link.messages = true ∧ s.flow = .go ∧ s.inFlight = some f ∧ s.txq =
      { msg := .ofSlot i p tag .digits, pinned := pinned } :: rest ∧ 0 < (s.buffers.at p).lent ∧ (s.sig.at i).owed =
      none ∧ EventsFinished s)
    ∧ (∃ (e : Entry) (rest : List Entry) (f : InFlight) (s : State), Running s ∧ s.link.messages = true ∧ s.flow = .go
      ∧ s.inFlight = some f ∧ s.txq = e :: rest ∧ e.slotMsg? ≠ some .digits ∧ (∀ i ∈ e.slot?, (s.sig.at i).owed =
      none) ∧ EventsFinished s)
    ∧ (∃ (i : SlotId) (p : Port) (tag : Nat) (m : SlotMsg) (pinned : Bool) (rest : List Entry) (o : ClearOwed) (f :
      InFlight) (s : State), Running s ∧ s.link.messages = true ∧ s.flow = .go ∧ s.inFlight = some f ∧ s.txq =
      { msg := .ofSlot i p tag m, pinned := pinned } :: rest ∧ (m = .digits → (s.buffers.at p).lent = 0) ∧ (s.sig.at
      i).owed = some o ∧ (m = .seize → (s.sig.at i).tagKnown = true ∨ o = .clearAck) ∧ EventsFinished s)
    ∧ (∃ (i : SlotId) (p : Port) (tag : Nat) (m : SlotMsg) (pinned : Bool) (rest : List Entry) (o : ClearOwed) (f :
      InFlight) (s : State), Running s ∧ s.link.messages = true ∧ s.flow = .go ∧ s.inFlight = some f ∧ s.txq =
      { msg := .ofSlot i p tag m, pinned := pinned } :: rest ∧ (m = .digits → (s.buffers.at p).lent = 0) ∧ (s.sig.at
      i).owed = some o ∧ (m = .seize → (s.sig.at i).tagKnown = true ∨ o = .clearAck) ∧ EventsFinished s)
    ∧ (∃ (i : SlotId) (former : Port) (p : Port) (n : Nat) (tag : Nat) (side : ClearSide) (b : Bool) (pinned : Bool)
      (rest : List Entry) (r : Reason) (f : InFlight) (s : State), Running s ∧ s.link.messages = true ∧ s.flow = .go ∧
      s.inFlight = some f ∧ s.txq = { msg := .ofSlot i p tag .seize, pinned := pinned } :: rest ∧ (s.sig.at i).owed =
      some (.clear r) ∧ (s.sig.at i).tagKnown = false ∧ s.slots.at i = .clearing former n side b ∧ s.waitQueue = [] ∧
      s.mode ≠ .configPending ∧ EventsFinished s) :=
  ⟨⟨.stopNow, ready, by decide +kernel⟩,
    ⟨.go, { ready with inFlight := some ⟨[0], []⟩ }, by decide +kernel⟩,
    ⟨{ ready with flow := .stopped, txq := [⟨.ofNone .restart, false⟩], inFlight := some ⟨[0], []⟩ }, by
    decide +kernel⟩,
    ⟨0, 0, 1, false, [], ⟨[0], [1]⟩, setBuffer 0 { DigitBuffer.empty with lent := 1 }
    { inCall .activeOut (.busy (call .out) true) with txq := [⟨.ofSlot 0 0 1 .digits, false⟩], inFlight := some ⟨[0], [1]⟩ },
    by decide +kernel⟩,
    ⟨⟨.ofSlot 0 0 1 .seize, false⟩, [], ⟨[0], []⟩,
    { inCall .seizing (.reserved (call .out) false) with txq := [⟨.ofSlot 0 0 1 .seize, false⟩], inFlight := some ⟨[0], []⟩ },
    by decide +kernel⟩,
    ⟨0, 0, 1, .flash, false, [], .clear .normal, ⟨[0], []⟩, setSig 0
    { Sig.cleared with owed := some (.clear .normal) }
    { setSlot 0 (.clearing 0 1 (.awaitAck .normal) false) ready with txq := [⟨.ofSlot 0 0 1 .flash, false⟩], inFlight := some ⟨[0], []⟩ },
    by decide +kernel⟩,
    ⟨0, 0, 1, .seize, false, [], .clearAck, ⟨[0], []⟩, setSig 0 { Sig.cleared with owed := some .clearAck }
    { setSlot 0 (.clearing 0 1 .oweAck false) ready with txq := [⟨.ofSlot 0 0 1 .seize, false⟩], inFlight := some ⟨[0], []⟩ },
    by decide +kernel⟩,
    ⟨0, 0, 0, 1, 1, .awaitAck .normal, false, false, [], .normal, ⟨[0], []⟩, setSig 0
    { Sig.cleared with owed := some (.clear .normal) }
    { setSlot 0 (.clearing 0 1 (.awaitAck .normal) false) ready with txq := [⟨.ofSlot 0 0 1 .seize, false⟩], inFlight := some ⟨[0], []⟩ },
    by decide +kernel⟩⟩

theorem test_ReceiverAndTransmitterGoOn_hypotheses :
    (∃ (s : State), Running s)
    ∧ (∃ (s : State), Running s)
    ∧ (∃ (lost : Bool) (n : Nat) (q : Request) (rest : List Request) (s : State), Running s ∧ s.tx = .sendingReply
      lost n ∧ s.warm = .none ∧ s.requests = q :: rest)
    ∧ (∃ (lost : Bool) (n : Nat) (r : Report) (rest : List Report) (s : State), Running s ∧ s.tx = .sendingReply lost
      n ∧ s.requests = [] ∧ s.warm = .none ∧ s.reports = r :: rest)
    ∧ (∃ (lost : Bool) (n : Nat) (r : Report) (y : Reply) (s : State), Running s ∧ s.tx = .sendingReport r lost n ∧
      s.reply = some y)
    ∧ (∃ (lost : Bool) (n : Nat) (s : State), Running s ∧ s.tx = .sendingReply lost n ∧ s.requests = [] ∧ s.reports =
      [])
    ∧ (∃ (c : Instr) (r : Report) (rest : List Report) (s : State), Running s ∧ s.tx = .idle ∧ s.reply = none ∧
      s.requests = [] ∧ s.warm ≠ .due ∧ s.reports = r :: rest ∧ c ≠ .recordComplete)
    ∧ (∃ (c : Instr) (r : Report) (rest : List Report) (s : State), Running s ∧ s.tx = .idle ∧ s.reply = none ∧
      s.requests = [] ∧ s.warm ≠ .due ∧ s.reports = r :: rest ∧ c ≠ .recordComplete)
    ∧ (∃ (r : Report) (rest : List Report) (s : State), Running s ∧ s.tx = .idle ∧ s.reply = none ∧ s.requests = [] ∧
      s.warm ≠ .due ∧ s.reports = r :: rest)
    ∧ (∃ (r : Report) (rest : List Report) (s : State), Running s ∧ s.tx = .idle ∧ s.reply = none ∧ s.requests = [] ∧
      s.warm ≠ .due ∧ s.reports = r :: rest ∧ s.pending = [])
    ∧ (∃ (s : State), (s.tx ≠ .idle ∨ (s.reply = none ∧ s.reports = []))) :=
  ⟨⟨ready, by decide +kernel⟩,
    ⟨ready, by decide +kernel⟩,
    ⟨true, 3, ⟨9, 1, []⟩, [],
    { ready with tx := .sendingReply true 3, reply := some ⟨8, .done⟩, requests := [⟨9, 1, []⟩] }, by decide +kernel⟩,
    ⟨true, 3, .linkEvent .up 0, [], { ready with tx := .sendingReply true 3, reports := [.linkEvent .up 0] }, by
    decide +kernel⟩,
    ⟨true, 3, .linkEvent .up 0, ⟨9, .done⟩,
    { ready with tx := .sendingReport (.linkEvent .up 0) true 3, reply := some ⟨9, .done⟩ }, by decide +kernel⟩,
    ⟨true, 3, { ready with tx := .sendingReply true 3, warm := .taken }, by decide +kernel⟩,
    ⟨.phaseBegin, .start .notRun .cold, [], { ready with reports := [.start .notRun .cold] }, by decide +kernel⟩,
    ⟨.offHook 0, .start .notRun .cold, [.linkEvent .up 0],
    { ready with reports := [.start .notRun .cold, .linkEvent .up 0] }, by decide +kernel⟩,
    ⟨.start .notRun .cold, [], { ready with reports := [.start .notRun .cold] }, by decide +kernel⟩,
    ⟨.start .notRun .cold, [], { ready with reports := [.start .notRun .cold] }, by decide +kernel⟩,
    ⟨ready, by decide +kernel⟩⟩

theorem test_FullReportQueueLosesTheReport_hypotheses :
    (∃ (p : Port) (s : State), Running s ∧ decodes s p = true ∧ hookSampled s p = true ∧ (s.scan.at p).overrun =
      true ∧ s.tx ≠ .idle ∧ s.reports.length = 32) :=
  ⟨0, setScan 0 { Scanner.initial with pulses := 10, overrun := true }
    { setLine 0 { Line.unequipped with state := .queued, timer := some 40000 } ready with tx := .sendingReply false 0, reports := List.replicate 32 (.linkEvent .up 0) },
    by decide +kernel⟩

theorem test_QueriesAnswerWithAPicture_hypotheses :
    (∃ (num : Byte) (s : State), Takes num 0x01 [] s)
    ∧ (∃ (num : Byte) (s : State) (p : Port), Takes num 0x0F [byte p.val] s)
    ∧ (∃ (num : Byte) (s : State), Takes num 0x10 [] s)
    ∧ (∃ (num : Byte) (s : State), Takes num 0x11 [] s)
    ∧ (∃ (num : Byte) (s : State), Takes num 0x12 [] s)
    ∧ (∃ (num : Byte) (s : State), Takes num 0x13 [] s) :=
  ⟨⟨9, ready, by decide +kernel⟩,
    ⟨9, ready, 63, by decide +kernel⟩,
    ⟨9, ready, by decide +kernel⟩,
    ⟨9, ready, by decide +kernel⟩,
    ⟨9, ready, by decide +kernel⟩,
    ⟨9, ready, by decide +kernel⟩⟩

theorem test_RefusedRequestsChangeNothing_hypotheses :
    (∃ (num : Byte) (kind : Byte) (body : List Byte) (s : State), Takes num kind body s ∧ (kind = 0 ∨ 0x14 <
      kind.toNat))
    ∧ (∃ (num : Byte) (kind : Byte) (body : List Byte) (s : State), Takes num kind body s ∧ (kind = 0 ∨ 0x14 <
      kind.toNat))
    ∧ (∃ (num : Byte) (k : Nat) (v : Nat) (s : State), Takes num 0x05 [byte k, byte (v / 256), byte v] s ∧ k < 8 ∧ v <
      65536 ∧ (k < 6 ∨ v < 2) ∧ s.mode ≠ .config)
    ∧ (∃ (num : Byte) (k : Nat) (v : Nat) (s : State), Takes num 0x05 [byte k, byte (v / 256), byte v] s ∧ k < 8 ∧ v <
      65536 ∧ (k < 6 ∨ v < 2) ∧ s.mode ≠ .config)
    ∧ (∃ (num : Byte) (port : Byte) (role : Byte) (hi : Byte) (lo : Byte) (cls : Byte) (s : State), Takes num 0x04
      [port, role, hi, lo, cls] s ∧ role.toNat < 4 ∧ (role = 1 → cls.toNat < 3) ∧ s.mode ≠ .config)
    ∧ (∃ (num : Byte) (port : Byte) (role : Byte) (hi : Byte) (lo : Byte) (cls : Byte) (s : State), Takes num 0x04
      [port, role, hi, lo, cls] s ∧ role.toNat < 4 ∧ (role = 1 → cls.toNat < 3) ∧ s.mode ≠ .config)
    ∧ (∃ (num : Byte) (kind : Byte) (s : State), Takes num kind [] s ∧ kind ∈ ([0x02, 0x04, 0x05, 0x06, 0x07, 0x08,
      0x09, 0x0B, 0x0C, 0x0E, 0x0F] : List Byte))
    ∧ (∃ (num : Byte) (kind : Byte) (s : State), Takes num kind [] s ∧ kind ∈ ([0x02, 0x04, 0x05, 0x06, 0x07, 0x08,
      0x09, 0x0B, 0x0C, 0x0E, 0x0F] : List Byte)) :=
  ⟨⟨9, 0x15, [], ready, by decide +kernel⟩,
    ⟨9, 0, [1], ready, by decide +kernel⟩,
    ⟨9, 5, 65535, ready, by decide +kernel⟩,
    ⟨9, 7, 1, ready, by decide +kernel⟩,
    ⟨9, 63, 1, 0, 1, 2, ready, by decide +kernel⟩,
    ⟨9, 255, 3, 0, 0, 255, ready, by decide +kernel⟩,
    ⟨9, 0x02, ready, by decide +kernel⟩,
    ⟨9, 0x0F, { ready with mode := .config }, by decide +kernel⟩⟩

theorem test_ParamSetTakesAValueInRange_hypotheses :
    (∃ (num : Byte) (k : Nat) (v : Nat) (s : State), Takes num 0x05 [byte k, byte (v / 256), byte v] s ∧ k < 8 ∧ v <
      65536 ∧ s.mode = .config)
    ∧ (∃ (num : Byte) (k : Nat) (v : Nat) (s : State), Takes num 0x05 [byte k, byte (v / 256), byte v] s ∧ k < 8 ∧ v <
      65536 ∧ s.mode = .config)
    ∧ (∃ (num : Byte) (k : Nat) (v : Nat) (s : State), Takes num 0x05 [byte k, byte (v / 256), byte v] s ∧ k < 8 ∧ v <
      65536 ∧ s.mode = .config) :=
  ⟨⟨9, 0, 8, { ready with mode := .config }, by decide +kernel⟩,
    ⟨9, 7, 1, { ready with mode := .config }, by decide +kernel⟩,
    ⟨9, 5, 31, { ready with mode := .config }, by decide +kernel⟩⟩

theorem test_MapSetEquipsASubscriber_hypotheses :
    (∃ (num : Byte) (p : Port) (n : Nat) (priority : Bool) (s : State), Takes num 0x04 [byte p.val, 1, byte (n /
      256), byte n, flagCode priority] s ∧ s.mode = .config ∧ 1 ≤ n ∧ n ≤ 9999 ∧ s.ports.at p = .unequipped ∧ (∀ q,
      (s.ports.at q).number? ≠ some n) ∧ s.bus = .free ∧ (s.lines.at p).call = none ∧ (s.scan.at p).fault = false ∧
      (s.scan.at p).contact = .opened ∧ (∀ e ∈ s.alarms, e.present = true) ∧ groupState s p ≠ .standbyPending ∧
      EventsFinished s ∧ Room 1 s)
    ∧ (∃ (num : Byte) (p : Port) (n : Nat) (priority : Bool) (s : State), Takes num 0x04 [byte p.val, 1, byte (n /
      256), byte n, flagCode priority] s ∧ s.mode = .config ∧ 1 ≤ n ∧ n ≤ 9999 ∧ s.ports.at p = .unequipped ∧ (∀ q,
      (s.ports.at q).number? ≠ some n) ∧ s.bus = .free ∧ (s.lines.at p).call = none ∧ (s.scan.at p).fault = false ∧
      (s.scan.at p).contact = .opened ∧ (∀ e ∈ s.alarms, e.present = true) ∧ groupState s p ≠ .standbyPending ∧
      EventsFinished s ∧ Room 1 s)
    ∧ (∃ (num : Byte) (p : Port) (n : Nat) (priority : Bool) (s : State), Takes num 0x04 [byte p.val, 1, byte (n /
      256), byte n, flagCode priority] s ∧ s.mode = .config ∧ 1 ≤ n ∧ n ≤ 9999 ∧ s.ports.at p = .subscriber n (if
      priority then .priority else .ordinary) ∧ (∀ q, q ≠ p → (s.ports.at q).number? ≠ some n) ∧ s.bus = .free ∧
      (s.lines.at p).call = none ∧ EventsFinished s)
    ∧ (∃ (num : Byte) (port : Byte) (role : Byte) (hi : Byte) (lo : Byte) (cls : Byte) (r : RequestRefusal) (s :
      State), Takes num 0x04 [port, role, hi, lo, cls] s ∧ role.toNat < 4 ∧ (role = 1 → cls.toNat < 3) ∧ s.mode =
      .config ∧ (if 64 ≤ port.toNat ∨ ((role = 1 ∨ role = 2) ∧ (ofTwoBytes hi lo = 0 ∨ 9999 < ofTwoBytes hi lo)) ∨
      (role = 1 ∧ cls = 2) then some RequestRefusal.badValue else if (role = 2 ∧ ¬ (48 ≤ port.toNat ∧ port.toNat ≤
      55)) ∨ (role = 3 ∧ port.toNat < 56) then some .roleNotOffered else if (role = 1 ∨ role = 2) ∧ ∃ q : Port, q.val
      ≠ port.toNat ∧ (s.ports.at q).number? = some (ofTwoBytes hi lo) then some .numberInUse else if ∃ q : Port, q.val
      = port.toNat ∧ (s.bus = .claimed q ∨ s.bus = .held q ∨ (s.lines.at q).call.isSome = true) then some .portBusy
      else none) = some r)
    ∧ (∃ (num : Byte) (port : Byte) (role : Byte) (hi : Byte) (lo : Byte) (cls : Byte) (r : RequestRefusal) (s :
      State), Takes num 0x04 [port, role, hi, lo, cls] s ∧ role.toNat < 4 ∧ (role = 1 → cls.toNat < 3) ∧ s.mode =
      .config ∧ (if 64 ≤ port.toNat ∨ ((role = 1 ∨ role = 2) ∧ (ofTwoBytes hi lo = 0 ∨ 9999 < ofTwoBytes hi lo)) ∨
      (role = 1 ∧ cls = 2) then some RequestRefusal.badValue else if (role = 2 ∧ ¬ (48 ≤ port.toNat ∧ port.toNat ≤
      55)) ∨ (role = 3 ∧ port.toNat < 56) then some .roleNotOffered else if (role = 1 ∨ role = 2) ∧ ∃ q : Port, q.val
      ≠ port.toNat ∧ (s.ports.at q).number? = some (ofTwoBytes hi lo) then some .numberInUse else if ∃ q : Port, q.val
      = port.toNat ∧ (s.bus = .claimed q ∨ s.bus = .held q ∨ (s.lines.at q).call.isSome = true) then some .portBusy
      else none) = some r)
    ∧ (∃ (num : Byte) (port : Byte) (role : Byte) (hi : Byte) (lo : Byte) (cls : Byte) (r : RequestRefusal) (s :
      State), Takes num 0x04 [port, role, hi, lo, cls] s ∧ role.toNat < 4 ∧ (role = 1 → cls.toNat < 3) ∧ s.mode =
      .config ∧ (if 64 ≤ port.toNat ∨ ((role = 1 ∨ role = 2) ∧ (ofTwoBytes hi lo = 0 ∨ 9999 < ofTwoBytes hi lo)) ∨
      (role = 1 ∧ cls = 2) then some RequestRefusal.badValue else if (role = 2 ∧ ¬ (48 ≤ port.toNat ∧ port.toNat ≤
      55)) ∨ (role = 3 ∧ port.toNat < 56) then some .roleNotOffered else if (role = 1 ∨ role = 2) ∧ ∃ q : Port, q.val
      ≠ port.toNat ∧ (s.ports.at q).number? = some (ofTwoBytes hi lo) then some .numberInUse else if ∃ q : Port, q.val
      = port.toNat ∧ (s.bus = .claimed q ∨ s.bus = .held q ∨ (s.lines.at q).call.isSome = true) then some .portBusy
      else none) = some r)
    ∧ (∃ (num : Byte) (port : Byte) (role : Byte) (hi : Byte) (lo : Byte) (cls : Byte) (r : RequestRefusal) (s :
      State), Takes num 0x04 [port, role, hi, lo, cls] s ∧ role.toNat < 4 ∧ (role = 1 → cls.toNat < 3) ∧ s.mode =
      .config ∧ (if 64 ≤ port.toNat ∨ ((role = 1 ∨ role = 2) ∧ (ofTwoBytes hi lo = 0 ∨ 9999 < ofTwoBytes hi lo)) ∨
      (role = 1 ∧ cls = 2) then some RequestRefusal.badValue else if (role = 2 ∧ ¬ (48 ≤ port.toNat ∧ port.toNat ≤
      55)) ∨ (role = 3 ∧ port.toNat < 56) then some .roleNotOffered else if (role = 1 ∨ role = 2) ∧ ∃ q : Port, q.val
      ≠ port.toNat ∧ (s.ports.at q).number? = some (ofTwoBytes hi lo) then some .numberInUse else if ∃ q : Port, q.val
      = port.toNat ∧ (s.bus = .claimed q ∨ s.bus = .held q ∨ (s.lines.at q).call.isSome = true) then some .portBusy
      else none) = some r)
    ∧ (∃ (num : Byte) (port : Byte) (role : Byte) (hi : Byte) (lo : Byte) (cls : Byte) (r : RequestRefusal) (s :
      State), Takes num 0x04 [port, role, hi, lo, cls] s ∧ role.toNat < 4 ∧ (role = 1 → cls.toNat < 3) ∧ s.mode =
      .config ∧ (if 64 ≤ port.toNat ∨ ((role = 1 ∨ role = 2) ∧ (ofTwoBytes hi lo = 0 ∨ 9999 < ofTwoBytes hi lo)) ∨
      (role = 1 ∧ cls = 2) then some RequestRefusal.badValue else if (role = 2 ∧ ¬ (48 ≤ port.toNat ∧ port.toNat ≤
      55)) ∨ (role = 3 ∧ port.toNat < 56) then some .roleNotOffered else if (role = 1 ∨ role = 2) ∧ ∃ q : Port, q.val
      ≠ port.toNat ∧ (s.ports.at q).number? = some (ofTwoBytes hi lo) then some .numberInUse else if ∃ q : Port, q.val
      = port.toNat ∧ (s.bus = .claimed q ∨ s.bus = .held q ∨ (s.lines.at q).call.isSome = true) then some .portBusy
      else none) = some r)
    ∧ (∃ (num : Byte) (port : Byte) (role : Byte) (hi : Byte) (lo : Byte) (cls : Byte) (r : RequestRefusal) (s :
      State), Takes num 0x04 [port, role, hi, lo, cls] s ∧ role.toNat < 4 ∧ (role = 1 → cls.toNat < 3) ∧ s.mode =
      .config ∧ (if 64 ≤ port.toNat ∨ ((role = 1 ∨ role = 2) ∧ (ofTwoBytes hi lo = 0 ∨ 9999 < ofTwoBytes hi lo)) ∨
      (role = 1 ∧ cls = 2) then some RequestRefusal.badValue else if (role = 2 ∧ ¬ (48 ≤ port.toNat ∧ port.toNat ≤
      55)) ∨ (role = 3 ∧ port.toNat < 56) then some .roleNotOffered else if (role = 1 ∨ role = 2) ∧ ∃ q : Port, q.val
      ≠ port.toNat ∧ (s.ports.at q).number? = some (ofTwoBytes hi lo) then some .numberInUse else if ∃ q : Port, q.val
      = port.toNat ∧ (s.bus = .claimed q ∨ s.bus = .held q ∨ (s.lines.at q).call.isSome = true) then some .portBusy
      else none) = some r)
    ∧ (∃ (num : Byte) (p : Port) (n : Nat) (old : Machine.Class) (new : Machine.Class) (s : State), Takes num 0x04
      (mapSetBody p (.subscriber n new)) s ∧ s.mode = .config ∧ 1 ≤ n ∧ n ≤ 9999 ∧ s.ports.at p = .subscriber n old ∧
      (∀ q, q ≠ p → (s.ports.at q).number? ≠ some n) ∧ s.bus = .free ∧ (s.lines.at p).call = none ∧ EventsFinished s)
    ∧ (∃ (num : Byte) (p : Port) (r : PortRole) (s : State), Takes num 0x04 (mapSetBody p r) s ∧ s.mode = .config ∧
      offers p r = true ∧ (∀ n ∈ r.number?, 1 ≤ n ∧ n ≤ 9999 ∧ ∀ q, q ≠ p → (s.ports.at q).number? ≠ some n) ∧ r ≠
      s.ports.at p ∧ ¬ ((s.ports.at p).isSubscriber = true ∧ r.isSubscriber = true ∧ (s.ports.at p).number? =
      r.number?) ∧ s.bus = .free ∧ (s.lines.at p).call = none ∧ (s.alarms.map (·.id)).Nodup ∧ groupState s p ≠
      .standbyPending ∧ EventsFinished s ∧ Room 4 s)
    ∧ (∃ (num : Byte) (p : Port) (r : PortRole) (s : State), Takes num 0x04 (mapSetBody p r) s ∧ s.mode = .config ∧
      offers p r = true ∧ (∀ n ∈ r.number?, 1 ≤ n ∧ n ≤ 9999 ∧ ∀ q, q ≠ p → (s.ports.at q).number? ≠ some n) ∧ r ≠
      s.ports.at p ∧ ¬ ((s.ports.at p).isSubscriber = true ∧ r.isSubscriber = true ∧ (s.ports.at p).number? =
      r.number?) ∧ s.bus = .free ∧ (s.lines.at p).call = none ∧ (s.alarms.map (·.id)).Nodup ∧ groupState s p ≠
      .standbyPending ∧ EventsFinished s ∧ Room 4 s)
    ∧ (∃ (num : Byte) (p : Port) (r : PortRole) (s : State), Takes num 0x04 (mapSetBody p r) s ∧ s.mode = .config ∧
      offers p r = true ∧ (∀ n ∈ r.number?, 1 ≤ n ∧ n ≤ 9999 ∧ ∀ q, q ≠ p → (s.ports.at q).number? ≠ some n) ∧ r ≠
      s.ports.at p ∧ ¬ ((s.ports.at p).isSubscriber = true ∧ r.isSubscriber = true ∧ (s.ports.at p).number? =
      r.number?) ∧ s.bus = .free ∧ (s.lines.at p).call = none ∧ (s.alarms.map (·.id)).Nodup ∧ groupState s p ≠
      .standbyPending ∧ EventsFinished s ∧ Room 4 s)
    ∧ (∃ (num : Byte) (p : Port) (r : PortRole) (s : State), Takes num 0x04 (mapSetBody p r) s ∧ s.mode = .config ∧
      offers p r = true ∧ (∀ n ∈ r.number?, 1 ≤ n ∧ n ≤ 9999 ∧ ∀ q, q ≠ p → (s.ports.at q).number? ≠ some n) ∧ r ≠
      s.ports.at p ∧ ¬ ((s.ports.at p).isSubscriber = true ∧ r.isSubscriber = true ∧ (s.ports.at p).number? =
      r.number?) ∧ s.bus = .free ∧ (s.lines.at p).call = none ∧ (s.alarms.map (·.id)).Nodup ∧ groupState s p ≠
      .standbyPending ∧ EventsFinished s ∧ Room 4 s) :=
  ⟨⟨9, 2, 1, true, { ready with mode := .config }, by decide +kernel⟩,
    ⟨9, 2, 9999, false, { ready with mode := .config }, by decide +kernel⟩,
    ⟨9, 0, 1200, false, { ready with mode := .config }, by decide +kernel⟩,
    ⟨9, 64, 1, 0, 1, 0, .badValue, { ready with mode := .config }, by decide +kernel⟩,
    ⟨9, 2, 1, 39, 16, 0, .badValue, { ready with mode := .config }, by decide +kernel⟩,
    ⟨9, 47, 2, 0, 1, 0, .roleNotOffered, { ready with mode := .config }, by decide +kernel⟩,
    ⟨9, 55, 3, 0, 1, 0, .roleNotOffered, { ready with mode := .config }, by decide +kernel⟩,
    ⟨9, 2, 1, 4, 176, 0, .numberInUse, { ready with mode := .config }, by decide +kernel⟩,
    ⟨9, 1, 0, 0, 0, 0, .portBusy, { ready with mode := .config, bus := .held 1 }, by decide +kernel⟩,
    ⟨9, 0, 1200, .ordinary, .priority, { ready with mode := .config }, by decide +kernel⟩,
    ⟨9, 0, .unequipped, setScan 0 { Scanner.initial with fault := true } (setAlarms [⟨.lineFault 0, true⟩] (setLine 0
    { Line.unequipped with state := .fault, faultPresent := true } { ready with mode := .config })), by
    decide +kernel⟩,
    ⟨9, 0, .subscriber 1202 .ordinary, setScan 0 { Scanner.initial with hook := .offHook } (setLine 0
    { Line.unequipped with state := .parked } { ready with mode := .config }), by decide +kernel⟩,
    ⟨9, 48, .hotline 9999, { ready with mode := .config }, by decide +kernel⟩,
    ⟨9, 57, .subscriber 1 .priority, setScan 57 { Scanner.initial with contact := .closed } (setAlarms [⟨.contact 57,
    true⟩] { ready with mode := .config }), by decide +kernel⟩⟩

theorem test_PostureSetTakesThePosture_hypotheses :
    (∃ (num : Byte) (code : Byte) (s : State), Takes num 0x06 [code] s ∧ code.toNat < 3 ∧ s.waitQueue = [] ∧
      s.ringQueue = [] ∧ (∀ k, s.cells.at k = []) ∧ EventsFinished s)
    ∧ (∃ (num : Byte) (code : Byte) (s : State), Takes num 0x06 [code] s ∧ code.toNat < 3 ∧ s.waitQueue = [] ∧
      s.ringQueue = [] ∧ (∀ k, s.cells.at k = []) ∧ EventsFinished s)
    ∧ (∃ (num : Byte) (code : Byte) (s : State), Takes num 0x06 [code] s ∧ (code = 1 ∨ code = 2) ∧ (postureOfCode
      code.toNat).rank < s.posture.rank ∧ RingHolds s ∧ EventsFinished s ∧ Room 12 s)
    ∧ (∃ (num : Byte) (code : Byte) (s : State), Takes num 0x06 [code] s ∧ (code = 1 ∨ code = 2) ∧ (postureOfCode
      code.toNat).rank < s.posture.rank ∧ RingHolds s ∧ EventsFinished s ∧ Room 12 s)
    ∧ (∃ (num : Byte) (code : Byte) (p : Port) (s : State), Takes num 0x06 [code] s ∧ (code = 0 ∨ code = 1) ∧
      s.posture.rank < (postureOfCode code.toNat).rank ∧ s.ringQueue = [p] ∧ s.waitQueue = [] ∧ (s.cells.at (cellOf
      (nextPhase s.phase) (busOf p))).length < (postureOfCode code.toNat).ringCapacity ∧ s.nextPlacement < 65535 ∧
      EventsFinished s)
    ∧ (∃ (num : Byte) (code : Byte) (p : Port) (i : SlotId) (rest : List SlotId) (s : State), Takes num 0x06 [code] s
      ∧ (code = 0 ∨ code = 1) ∧ s.posture.rank < (postureOfCode code.toNat).rank ∧ s.ringQueue = [] ∧ s.waitQueue =
      [p] ∧ (s.lines.at p).state = .queued ∧ isOrdinary s p = true ∧ s.mode = .normal ∧ s.link.ordinary = true ∧
      activeCount s < (postureOfCode code.toNat).callLimit ∧ s.free = i :: rest ∧ s.slots.at i = .free ∧ (∃ tag,
      tagHeld s tag = false ∧ 1 ≤ tag ∧ tag ≤ 255) ∧ s.nextOrder < 65535 ∧ EventsFinished s ∧ Room 1 s) :=
  ⟨⟨9, 0, ready, by decide +kernel⟩,
    ⟨9, 2, ready, by decide +kernel⟩,
    ⟨9, 1, setCell 1 [⟨2, 1⟩, ⟨3, 2⟩, ⟨0, 3⟩] (setLine 2
    { Line.unequipped with state := .offered, call := some (1, .inward) } (setLine 3
    { Line.unequipped with state := .offered, call := some (2, .inward) } (inCall .ringing (.reserved (call .inward)
    false)))), by decide +kernel⟩,
    ⟨9, 2, setCell 1 [⟨2, 1⟩, ⟨3, 2⟩, ⟨0, 3⟩] (setLine 2
    { Line.unequipped with state := .offered, call := some (1, .inward) } (setLine 3
    { Line.unequipped with state := .offered, call := some (2, .inward) } (inCall .ringing (.reserved (call .inward)
    false)))), by decide +kernel⟩,
    ⟨9, 0, 0, { inCall .offered (.reserved (call .inward) false) with posture := .reserve, ringQueue := [0] }, by
    decide +kernel⟩,
    ⟨9, 1, 0, 0, allSlots.erase 0,
    { setLine 0 { Line.unequipped with state := .queued, timer := some 40000 } ready with posture := .reserve, waitQueue := [0] },
    by
      refine ⟨?_, ?_, ?_, ?_, ?_, ?_, ?_, ?_, ?_, ?_, ?_, ?_, ⟨9, by decide +kernel⟩,
        ?_, ?_, ?_⟩
        <;> decide +kernel⟩⟩

theorem test_GroupStandbyActsByTheState_hypotheses :
    (∃ (num : Byte) (g : GroupId) (wake : Bool) (s : State), Takes num 0x07 [byte g.val, flagCode wake] s ∧ Room 1
      s)
    ∧ (∃ (num : Byte) (g : GroupId) (wake : Bool) (s : State), Takes num 0x07 [byte g.val, flagCode wake] s ∧ Room 1
      s)
    ∧ (∃ (num : Byte) (g : GroupId) (wake : Bool) (s : State), Takes num 0x07 [byte g.val, flagCode wake] s ∧ Room 1
      s) :=
  ⟨⟨9, 0, true, ready, by decide +kernel⟩,
    ⟨9, 0, false, setLine 0 { Line.unequipped with state := .parked } ready, by decide +kernel⟩,
    ⟨9, 0, true, setGroup 0 { Group.initial with state := .waking } ready, by decide +kernel⟩⟩

theorem test_GroupWakeActsByTheState_hypotheses :
    (∃ (num : Byte) (g : GroupId) (s : State), Takes num 0x08 [byte g.val] s ∧ Room 1 s)
    ∧ (∃ (num : Byte) (g : GroupId) (s : State), Takes num 0x08 [byte g.val] s ∧ Room 1 s)
    ∧ (∃ (num : Byte) (g : GroupId) (s : State), Takes num 0x08 [byte g.val] s ∧ Room 1 s) :=
  ⟨⟨9, 0, setGroup 0 { Group.initial with state := .standby } ready, by decide +kernel⟩,
    ⟨9, 0, setGroup 0 { Group.initial with state := .standbyPending } ready, by decide +kernel⟩,
    ⟨9, 0, ready, by decide +kernel⟩⟩

theorem test_TestClaimsAreGranted_hypotheses :
    (∃ (num : Byte) (p : Port) (force : Bool) (s : State), Takes num 0x09 [byte p.val, flagCode force] s ∧ hasLine s
      p = true ∧ hookSampled s p = true ∧ s.bus = .free ∧ (s.lines.at p).state = .idle ∧ (s.lines.at p).call = none ∧
      EventsFinished s ∧ Room 2 s)
    ∧ (∃ (num : Byte) (p : Port) (force : Bool) (s : State), Takes num 0x09 [byte p.val, flagCode force] s ∧ hasLine s
      p = true ∧ hookSampled s p = true ∧ s.bus = .free ∧ (s.lines.at p).state = .idle ∧ (s.lines.at p).call = none ∧
      EventsFinished s ∧ Room 2 s)
    ∧ (∃ (num : Byte) (p : Port) (s : State), Takes num 0x09 [byte p.val, 0] s ∧ hasLine s p = true ∧ hookSampled s p
      = true ∧ s.bus = .free ∧ (s.lines.at p).state.holdsSlot = true ∧ EventsFinished s)
    ∧ (∃ (num : Byte) (p : Port) (i : SlotId) (c : Call) (d : Direction) (s : State), Takes num 0x09 [byte p.val, 1] s
      ∧ hasLine s p = true ∧ hookSampled s p = true ∧ (s.bus = .free ∨ s.bus = .claimed p) ∧ (s.lines.at
      p).state.holdsSlot = true ∧ (s.lines.at p).state ≠ .holdover ∧ (s.lines.at p).call = some (i, d) ∧ (s.slots.at
      i).call? = some c ∧ c.line = p ∧ OneEntryEach s ∧ s.waitQueue = [] ∧ s.mode ≠ .configPending ∧ EventsFinished s
      ∧ Room 2 s)
    ∧ (∃ (num : Byte) (p : Port) (i : SlotId) (c : Call) (d : Direction) (s : State), Takes num 0x09 [byte p.val, 1] s
      ∧ hasLine s p = true ∧ hookSampled s p = true ∧ (s.bus = .free ∨ s.bus = .claimed p) ∧ (s.lines.at
      p).state.holdsSlot = true ∧ (s.lines.at p).state ≠ .holdover ∧ (s.lines.at p).call = some (i, d) ∧ (s.slots.at
      i).call? = some c ∧ c.line = p ∧ OneEntryEach s ∧ s.waitQueue = [] ∧ s.mode ≠ .configPending ∧ EventsFinished s
      ∧ Room 2 s)
    ∧ (∃ (num : Byte) (p : Port) (i : SlotId) (c : Call) (b : Bool) (d : Direction) (s : State), Takes num 0x09 [byte
      p.val, 1] s ∧ hasLine s p = true ∧ hookSampled s p = true ∧ (s.bus = .free ∨ s.bus = .claimed p) ∧ (s.lines.at
      p).state = .holdover ∧ (s.lines.at p).call = some (i, d) ∧ s.slots.at i = .held c b ∧ s.waitQueue = [] ∧ s.mode
      ≠ .configPending ∧ EventsFinished s ∧ Room 2 s) :=
  ⟨⟨9, 0, true, ready, by decide +kernel⟩,
    ⟨9, 0, false, ready, by decide +kernel⟩,
    ⟨9, 0, inCall .activeOut (.busy (call .out) true), by decide +kernel⟩,
    ⟨9, 0, 0, call .out, .out, inCall .activeOut (.busy (call .out) true), by decide +kernel⟩,
    ⟨9, 0, 0, call .inward, .inward, { inCall .ringing (.reserved (call .inward) false) with bus := .claimed 0 }, by
    decide +kernel⟩,
    ⟨9, 0, 0, call .out, false, .out, { inCall .holdover (.held (call .out) false) with link := .resync }, by
    decide +kernel⟩⟩

theorem test_TestReleaseActsByTheBus_hypotheses :
    (∃ (num : Byte) (s : State), Takes num 0x0A [] s ∧ EventsFinished s ∧ Room 1 s ∧ (∀ p, s.bus = .held p →
      groupState s p ≠ .standbyPending) ∧ (∀ p, s.bus = .held p → (s.lines.at p).state = .test))
    ∧ (∃ (num : Byte) (s : State), Takes num 0x0A [] s ∧ EventsFinished s ∧ Room 1 s ∧ (∀ p, s.bus = .held p →
      groupState s p ≠ .standbyPending) ∧ (∀ p, s.bus = .held p → (s.lines.at p).state = .test))
    ∧ (∃ (num : Byte) (s : State), Takes num 0x0A [] s ∧ EventsFinished s ∧ Room 1 s ∧ (∀ p, s.bus = .held p →
      groupState s p ≠ .standbyPending) ∧ (∀ p, s.bus = .held p → (s.lines.at p).state = .test)) :=
  ⟨⟨9, ready, by decide +kernel⟩,
    ⟨9, { ready with bus := .claimed 0 }, by decide +kernel⟩,
    ⟨9, { setLine 0 { Line.unequipped with state := .test } ready with bus := .held 0 }, by decide +kernel⟩⟩

theorem test_SlotBlockAndUnblock_hypotheses :
    (∃ (num : Byte) (i : SlotId) (s : State), Takes num 0x0B [byte (slotNo i)] s)
    ∧ (∃ (num : Byte) (i : SlotId) (s : State), Takes num 0x0B [byte (slotNo i)] s)
    ∧ (∃ (num : Byte) (i : SlotId) (s : State), Takes num 0x0B [byte (slotNo i)] s)
    ∧ (∃ (num : Byte) (i : SlotId) (s : State), Takes num 0x0C [byte (slotNo i)] s ∧ s.waitQueue = [] ∧ EventsFinished
      s ∧ s.slots.at i ≠ .blocked .noClearAck)
    ∧ (∃ (num : Byte) (i : SlotId) (s : State), Takes num 0x0C [byte (slotNo i)] s ∧ s.waitQueue = [] ∧ EventsFinished
      s ∧ s.slots.at i ≠ .blocked .noClearAck)
    ∧ (∃ (num : Byte) (i : SlotId) (s : State), Takes num 0x0C [byte (slotNo i)] s ∧ s.waitQueue = [] ∧ EventsFinished
      s ∧ s.slots.at i ≠ .blocked .noClearAck) :=
  ⟨⟨9, 0, ready, by decide +kernel⟩,
    ⟨9, 19, ready, by decide +kernel⟩,
    ⟨9, 0, inCall .activeOut (.busy (call .out) true), by decide +kernel⟩,
    ⟨9, 0, ready, by decide +kernel⟩,
    ⟨9, 19, setSlot 19 (.blocked .cabinet) ready, by decide +kernel⟩,
    ⟨9, 0, inCall .activeOut (.busy (call .out) true), by decide +kernel⟩⟩

theorem test_TrunkReleaseActsByTheLink_hypotheses :
    (∃ (num : Byte) (s : State), Takes num 0x0D [] s ∧ Room 1 s)
    ∧ (∃ (num : Byte) (s : State), Takes num 0x0D [] s ∧ Room 1 s)
    ∧ (∃ (num : Byte) (s : State), Takes num 0x0D [] s ∧ Room 1 s) :=
  ⟨⟨9, ready, by decide +kernel⟩,
    ⟨9, { ready with link := .down, score := 255 }, by decide +kernel⟩,
    ⟨9, { ready with link := .recovered, score := 255 }, by decide +kernel⟩⟩

theorem test_AlarmAckAndWarmReset_hypotheses :
    (∃ (num : Byte) (p : Port) (s : State), Takes num 0x0E [3, byte p.val] s)
    ∧ (∃ (num : Byte) (p : Port) (s : State), Takes num 0x0E [3, byte p.val] s)
    ∧ (∃ (num : Byte) (s : State), Takes num 0x14 [] s)
    ∧ (∃ (num : Byte) (kind : Byte) (body : List Byte) (s : State), Running s ∧ ((s.warm = .taken ∧ s.tx ≠ .idle) ∨
      (s.warm = .due ∧ s.reply = none)))
    ∧ (∃ (num : Byte) (kind : Byte) (body : List Byte) (s : State), Running s ∧ ((s.warm = .taken ∧ s.tx ≠ .idle) ∨
      (s.warm = .due ∧ s.reply = none)))
    ∧ (∃ (octets : List Byte) (s : State), Running s ∧ s.warm ≠ .none) :=
  ⟨⟨9, 0, ready, by decide +kernel⟩,
    ⟨9, 63, setAlarms [⟨.lineFault 63, false⟩] ready, by decide +kernel⟩,
    ⟨9, ready, by decide +kernel⟩,
    ⟨9, 1, [], { ready with warm := .taken, tx := .sendingReply false 0 }, by decide +kernel⟩,
    ⟨9, 1, [], { ready with warm := .due }, by decide +kernel⟩,
    ⟨[0xC3], { ready with warm := .taken }, by decide +kernel⟩⟩

theorem test_ConfigEnterChangesTheMode_hypotheses :
    (∃ (num : Byte) (s : State), Takes num 0x02 [0] s ∧ s.mode = .normal ∧ s.waitQueue.Nodup ∧ (∀ p ∈ s.waitQueue,
      (s.lines.at p).state = .queued ∧ s.bus ≠ .claimed p) ∧ EventsFinished s ∧ Room (s.waitQueue.length + 2) s)
    ∧ (∃ (num : Byte) (s : State), Takes num 0x02 [0] s ∧ s.mode = .normal ∧ s.waitQueue.Nodup ∧ (∀ p ∈ s.waitQueue,
      (s.lines.at p).state = .queued ∧ s.bus ≠ .claimed p) ∧ EventsFinished s ∧ Room (s.waitQueue.length + 2) s)
    ∧ (∃ (num : Byte) (s : State), Takes num 0x02 [1] s ∧ s.mode ≠ .config ∧ QueuesBounded s ∧ CallsAgree s ∧ s.bus =
      .free ∧ (∀ g, (s.groups.at g).state ≠ .standbyPending) ∧ Room (s.waitQueue.length + (allPorts.filter fun p =>
      (s.lines.at p).state.holdsSlot).length + 1) s)
    ∧ (∃ (num : Byte) (s : State), Takes num 0x02 [1] s ∧ s.mode ≠ .config ∧ QueuesBounded s ∧ CallsAgree s ∧ s.bus =
      .free ∧ (∀ g, (s.groups.at g).state ≠ .standbyPending) ∧ Room (s.waitQueue.length + (allPorts.filter fun p =>
      (s.lines.at p).state.holdsSlot).length + 1) s)
    ∧ (∃ (num : Byte) (s : State), Takes num 0x02 [1] s ∧ s.mode ≠ .config ∧ QueuesBounded s ∧ CallsAgree s ∧ s.bus =
      .free ∧ (∀ g, (s.groups.at g).state ≠ .standbyPending) ∧ Room (s.waitQueue.length + (allPorts.filter fun p =>
      (s.lines.at p).state.holdsSlot).length + 1) s) :=
  ⟨⟨9, ready, by decide +kernel⟩,
    ⟨9,
    { setLine 0 { Line.unequipped with state := .queued, timer := some 40000 } (setSlot 0 (.busy { call .out with line := 1 } false) ready) with waitQueue := [0] },
    by decide +kernel⟩,
    ⟨9, ready, by
      refine ⟨?_, ?_, ?_, ?_, ?_, ?_, ?_⟩
        <;> decide +kernel⟩,
    ⟨9, inCall .ringing (.reserved (call .inward) false), by
      refine ⟨?_, ?_, ?_, ?_, ?_, ?_, ?_⟩
        <;> decide +kernel⟩,
    ⟨9, inCall .activeOut (.busy (call .out) true), by
      refine ⟨?_, ?_, ?_, ?_, ?_, ?_, ?_⟩
        <;> decide +kernel⟩⟩

theorem test_ConfigExitActsByTheMode_hypotheses :
    (∃ (num : Byte) (s : State), Takes num 0x03 [] s ∧ s.waitQueue = [] ∧ EventsFinished s ∧ Room 1 s)
    ∧ (∃ (num : Byte) (s : State), Takes num 0x03 [] s ∧ s.waitQueue = [] ∧ EventsFinished s ∧ Room 1 s)
    ∧ (∃ (num : Byte) (s : State), Takes num 0x03 [] s ∧ s.waitQueue = [] ∧ EventsFinished s ∧ Room 1 s) :=
  ⟨⟨9, ready, by decide +kernel⟩,
    ⟨9, { ready with mode := .config, selfTest := .fail }, by decide +kernel⟩,
    ⟨9, { inCall .activeOut (.busy (call .out) true) with mode := .configPending }, by decide +kernel⟩⟩

/-! ## A state that meets the premise of each invariant -/

/-- A step whose next state is written out. -/
theorem test_a_step_of_ready :
    step (ready.withCommand .framingError) = .next { ready with receiver := .hunting } := by rfl

theorem test_invariants_hold_of_ready :
    QueuesBounded ready ∧ ScoreAgrees ready ∧ RingHolds ready ∧ EventsFinished ready ∧ FreeListAgrees ready := by decide +kernel

/-- A call with its SEIZE in the transmit queue. -/
def seizing : State := { inCall .seizing (.reserved (call .out) false) with txq := [⟨.ofSlot 0 0 1 .seize, false⟩] }

theorem test_TagsDistinct_holds_of_a_call : TagsDistinct seizing := by
  have tags : ∀ i, seizing.slots.at i = if i = 0 then .reserved (call .out) false else .free := by decide +kernel
  have held : ∀ i t, (seizing.slots.at i).tag? = some t → i = 0 ∧ t = 1 := by
    intro i t h
    rw [tags] at h
    split at h
    · next e => exact ⟨e, (Option.some.inj h).symm⟩
    · exact nomatch h
  refine ⟨by decide +kernel, by decide +kernel, fun i t h => ?_, fun i j t h k => ?_⟩
  · rw [(held i t h).2]; decide
  · rw [(held i t h).1, (held j t k).1]

theorem test_PortMapHolds_of_a_call : PortMapHolds seizing := by decide +kernel

theorem test_CallsAgree_holds_of_a_call :
    FreeListAgrees seizing ∧ QueuesBounded seizing ∧ LinesNameSlots seizing ∧ EntriesFitSlots seizing ∧ BusNamesItsLine seizing := by
  refine ⟨?_, ?_, ?_, ?_, ?_⟩ <;> decide +kernel

/-- Each clause about a step with no command waiting is met by a state: a held part, one in self-test, one with a warm reset due, one
with an entry that may start, and one that lets a millisecond pass. -/
theorem test_EveryStepAnswers_hypotheses :
    (∃ s : State, s.pending = [] ∧ s.power = .held)
    ∧ (∃ (left : Nat) (s : State), s.pending = [] ∧ s.power = .selfTest left)
    ∧ (∃ s : State, s.pending = [] ∧ Running s ∧ (s.tx ≠ .idle ∨ (s.reply = none ∧ s.reports = [])) ∧ s.warm = .due)
    ∧ (∃ s : State, s.pending = [] ∧ Running s ∧ (s.tx ≠ .idle ∨ (s.reply = none ∧ s.reports = [])) ∧ s.warm ≠ .due ∧ s.flow = .go
      ∧ s.inFlight = none ∧ s.link.messages = true ∧ s.txq ≠ [])
    ∧ (∃ s : State, s.pending = [] ∧ Running s ∧ (s.tx ≠ .idle ∨ (s.reply = none ∧ s.reports = [])) ∧ s.warm ≠ .due
      ∧ (s.flow = .stopped ∨ s.inFlight.isSome = true ∨ s.link.messages = false ∨ s.txq = [])) :=
  ⟨⟨{ ready with power := .held }, by decide +kernel⟩, ⟨1, { ready with power := .selfTest 1 }, by decide +kernel⟩,
    ⟨{ ready with warm := .due }, by decide +kernel⟩, ⟨seizing, by decide +kernel⟩, ⟨ready, by decide +kernel⟩⟩

/-- Some well-formed command encodes. -/
theorem test_HeadMessagesDecodeAsEncoded_hypotheses :
    ∃ (i : Instr) (octets : List Byte), WellFormed i = true ∧ encodeHeadMessage i = some octets :=
  ⟨.flow .stopAfter, [0xE7, 0x16, 0x01, 0x00, 0xE9], by decide +kernel⟩

/-- A step is that of the command at the front of the queue, and the next command is then at the front. -/
theorem test_commands_are_taken_in_order :
    step { ready with pending := [.lineBreak, .framingError] } = .next { ready with pending := [.framingError] } := by rfl

/-! ## Ill-formed terms -/

theorem test_a_break_has_a_length : WellFormed (.breakEnd 0 0) = false := by decide +kernel
theorem test_a_break_is_even : WellFormed (.breakEnd 0 21) = false ∧ WellFormed (.breakEnd 0 20) = true := by decide +kernel
theorem test_low_ports_have_no_contact :
    WellFormed (.contactChange 55 .closed) = false ∧ WellFormed (.contactChange 56 .closed) = true := by decide +kernel
theorem test_a_frame_has_25_octets :
    WellFormed (.trunkFrame (List.replicate 24 0)) = false ∧ WellFormed (.trunkFrame idleFrame) = true := by decide +kernel
theorem test_tag_zero_is_no_tag :
    WellFormed (.accept 0) = false ∧ WellFormed (.reject 0 .busy) = false ∧ WellFormed (.progress 0) = false
      ∧ WellFormed (.headClear 0 .normal) = false ∧ WellFormed (.headClearAck 0) = false := by decide +kernel
theorem test_restartAck_lists_at_most_20_tags :
    WellFormed (.restartAck (List.replicate 21 1)) = false ∧ WellFormed (.restartAck (List.replicate 20 1)) = true := by decide +kernel
theorem test_a_good_message_is_not_malformed :
    WellFormed (.malformedHeadMessage [0xE7, 0x11, 0x01, 0x35, 0xB9]) = false
      ∧ WellFormed (.malformedHeadMessage [0xE7, 0x11, 0x01, 0x35, 0xB8]) = true := by decide +kernel
theorem test_a_body_fits_its_frame :
    WellFormed (.identify 1 (List.replicate 15 0)) = false ∧ WellFormed (.identify 1 (List.replicate 14 0)) = true := by decide +kernel
theorem test_a_form_belongs_to_its_row :
    WellFormed (.configEnterOrderly 1 [1]) = false ∧ WellFormed (.configEnterForce 1 [0]) = false
      ∧ WellFormed (.testClaimWait 1 [0, 1]) = false ∧ WellFormed (.testClaimForce 1 [0, 0]) = false := by decide +kernel
theorem test_a_known_kind_is_no_unknown_request :
    WellFormed (.unknownRequest 1 0x14 []) = false ∧ WellFormed (.unknownRequest 1 0x15 []) = true := by decide +kernel
theorem test_every_other_request_fits :
    [Instr.configExit 1 (List.replicate 15 0), .mapSet 1 (List.replicate 15 0), .paramSet 1 (List.replicate 15 0),
      .postureSet 1 (List.replicate 15 0), .groupStandby 1 (List.replicate 15 0), .groupWake 1 (List.replicate 15 0),
      .testRelease 1 (List.replicate 15 0), .slotBlock 1 (List.replicate 15 0), .slotUnblock 1 (List.replicate 15 0),
      .trunkRelease 1 (List.replicate 15 0), .alarmAck 1 (List.replicate 15 0), .queryLine 1 (List.replicate 15 0),
      .querySlots 1 (List.replicate 15 0), .queryQueues 1 (List.replicate 15 0), .queryLink 1 (List.replicate 15 0),
      .queryAlarms 1 (List.replicate 15 0), .warmReset 1 (List.replicate 15 0)].all (fun i => !WellFormed i) = true := by
  decide +kernel

/-! ## Octets written out from Tables 12.1 to 12.4 -/

/-- The table gives no row any bits. -/
theorem test_no_word_spells_a_command : decodeTableWord 8 0 = none := rfl
theorem test_accept_octets :
    decodeHeadMessage [0xE7, 0x11, 0x01, 0x35, 0xB9] = some (.accept 0x35) := by decide +kernel
theorem test_incoming_octets :
    decodeHeadMessage [0xE7, 0x14, 0x04, 0x01, 0x36, 0x04, 0xD2, 0xDB] = some (.incoming 0x0136 1234) := by decide +kernel
theorem test_flow_octets :
    decodeHeadMessage [0xE7, 0x16, 0x01, 0x02, 0xE7] = some (.flow .go) := by decide +kernel
theorem test_reject_octets :
    decodeHeadMessage [0xE7, 0x12, 0x02, 0x35, 0x06, 0xB1] = some (.reject 0x35 .busy) := by decide +kernel
theorem test_other_octets_are_discarded :
    decodeHeadMessage [0xE7, 0x11, 0x01, 0x35, 0xBA] = none ∧ decodeHeadMessage [0xE7, 0x11, 0x01, 0x00, 0xEE] = none
      ∧ decodeHeadMessage [0xE7, 0x16, 0x01, 0x03, 0xE6] = none ∧ decodeHeadMessage [0xE7, 0x01, 0x01, 0x35, 0xC9] = none := by
  decide +kernel
/-- An IDENTIFY with request number 9 as it stands on the control port. -/
theorem test_identify_frame : controlFrame 9 1 [] = [0xC3, 0x00, 0x02, 0x09, 0x01, 0x40, 0x19] := by decide +kernel
/-! ## Single steps -/

/-- The state that a command answers. -/
def after (c : Instr) (s : State) : State :=
  match exec c s with
  | .next t => t
  | _ => s

/-- The IDENTIFY frame above is taken at once where the reply slot is empty, and joins the request buffer behind a reply. -/
theorem test_identify_is_received :
    ((after (.requestReceived (controlFrame 9 1 [])) ready).reply.map fun r => r.num) = some 9
      ∧ (after (.requestReceived (controlFrame 9 1 [])) { ready with reply := some ⟨8, .done⟩, tx := .sendingReply false 0 }).requests
        = [⟨9, 1, []⟩] := by decide +kernel
/-- Of three frames in one arrival on an idle port, the first is taken and the other two wait; a fourth is lost. -/
theorem test_three_requests_in_one_arrival :
    (let frame : Byte → List Byte := fun n => controlFrame n 1 []
    let t := after (.requestReceived (frame 1 ++ frame 2 ++ frame 3)) ready
    (t.reply.map (·.num)) = some 1 ∧ t.requests = [⟨2, 1, []⟩, ⟨3, 1, []⟩] ∧ t.requestLost = false
      ∧ (after (.requestReceived (frame 4)) t).requestLost = true) := by decide +kernel
/-- The end of a reply takes the next request. -/
theorem test_end_of_a_reply_takes_the_next_request :
    (let t := after .recordComplete { ready with reply := some ⟨8, .done⟩, tx := .sendingReply false 0, requests := [⟨9, 1, []⟩] }
    (t.reply.map (·.num)) = some 9 ∧ t.requests = [] ∧ t.tx = .sendingReply false 0) := by decide +kernel
/-- A request that arrives first after reset does not go ahead of START. -/
theorem test_START_goes_first :
    (let t := after (.requestReceived (controlFrame 9 1 [])) State.reset
    t.tx = .sendingReport (.start .notRun .cold) false 0 ∧ (t.reply.map (·.num)) = some 9) := by decide +kernel
/-- START starts at any step after a reset: at a command that acts elsewhere, and at the end of no record. -/
theorem test_START_starts_at_any_step :
    [Instr.phaseBegin, .lineBreak, .recordComplete, .malformedHeadMessage [0], .selfTestEnd true, .warmResetBegin,
        .resetPinRelease false false false, .trunkFrame idleFrame].all
      (fun c => decide ((after c State.reset).tx = .sendingReport (.start .notRun .cold) false 0
        ∧ (after c State.reset).reports = [])) = true := by decide +kernel
/-- A fault whose debounce completes in the millisecond in which settle expires is accepted behind the end of settle. -/
theorem test_fault_as_settle_expires :
    (let s := setGroup 0 { Group.initial with state := .waking, settle := some 1 } (setScan 0 { Scanner.initial with faultRun := 48 }
      { ready with oddSample := true, faultPin := ready.faultPin.put 0 true })
    (match step s with
      | .next t =>
        let u := after (.fault 0) (after (.settleExpiry 0) t)
        decide (t.pending = [.settleExpiry 0, .fault 0] ∧ (u.groups.at 0).state = .active ∧ (u.lines.at 0).state = .fault)
      | _ => false) = true) := by decide +kernel
/-- A break that ends after its line was parked still ends the open run. -/
theorem test_break_end_on_a_parked_line :
    (let s := setScan 0 { Scanner.initial with hook := .offHook, openRun := 20 }
      (setLine 0 { Line.unequipped with state := .parked } ready)
    let t := after (.breakEnd 0 40) s
    (t.scan.at 0).openRun = 0 ∧ (t.lines.at 0).state = .parked) := by decide +kernel
/-- An alignment regained inside a period is judged at the place it was found: the boundary of the next frame is there. -/
theorem test_alignment_is_judged_where_found :
    (let stream := idleFrame.drop 20 ++ idleFrame.take 20
    let found := { ready with align := .hunting, foundWords := 1, huntAt := 6, lastOctet := idleFrame[19]? }
    let t := after (.trunkFrame stream) (after (.trunkFrame stream) found)
    t.align = .aligned ∧ t.badWords = 0 ∧ goodFrame t stream = true ∧ goodFrame t idleFrame = false) := by decide +kernel
/-- An off-hook with a FREE slot reserves slot 1 with tag 1, and a SEIZE is made at the tail. -/
theorem test_offHook_seizes :
    (let t := after (.offHook 0) ready
    (t.lines.at 0).state = .seizing ∧ t.slots.at 0 = .reserved (call .out) false
      ∧ t.txq = [⟨.ofSlot 0 0 1 .seize, false⟩]
      ∧ unsent t = [.callEvent 0 .queued (.because .normal), .callEvent 0 .seizing (.because .normal)]) := by decide +kernel
/-- With no FREE slot an ORDINARY line waits 40 s. -/
theorem test_offHook_waits :
    (after (.offHook 0) { ready with free := [] }).lines.at 0
      = { Line.unequipped with state := .queued, timer := some 40000 } := by decide +kernel
/-- A FORCE claim is refused while another port has the bus. -/
theorem test_second_claim_is_refused :
    (after (.testClaimForce 9 [0, 1]) { ready with bus := .held 1 }).reply = some ⟨9, .refused .testBusy⟩ := by decide +kernel
/-- The third bad word in a row loses the alignment, and the second does not. -/
theorem test_third_bad_word_loses_alignment :
    (after (.trunkFrame (List.replicate 25 0)) { ready with align := .aligned, badWords := 1 }).align = .aligned
      ∧ (after (.trunkFrame (List.replicate 25 0)) { ready with align := .aligned, badWords := 2 }).align = .hunting := by
  decide +kernel
/-- The sample at which the closed run of an IDLE line reaches the debounce time puts OFF_HOOK into the queue. -/
theorem test_a_sample_debounces_off_hook :
    (match step (setScan 0 { Scanner.initial with closedRun := ready.params.debounce - 2 }
        { ready with oddSample := true, hookPin := ready.hookPin.put 0 true }) with
      | .next t => decide (t.pending = [.offHook 0] ∧ (t.scan.at 0).closedRun = ready.params.debounce)
      | _ => false) = true := by decide +kernel
/-- An error frame at 252 brings the link DOWN. -/
theorem test_error_frame_takes_the_link_down :
    (let t := after (.trunkFrame []) { ready with score := 252, link := .impaired }
    t.link = .down ∧ t.score = 255) := by decide +kernel
/-- An error frame at 60 takes the link to WARNED, with a report. -/
theorem test_error_frame_warns :
    (let t := after (.trunkFrame []) { ready with score := 60 }
    t.link = .warned ∧ t.score = 64 ∧ unsent t = [.linkEvent .warned 64]) := by decide +kernel
/-- Nothing waits: START starts in the first step after reset, and 9.6 bits of it go in that millisecond. -/
theorem test_start_is_sent :
    (match core.step core.reset with
      | .next t => decide (t.tx = .sendingReport (.start .notRun .cold) false 96)
      | _ => false) = true := by decide +kernel

end Sys2Proof.Tests
end

