-- ==== Sys2Proof/Proofs/Pulses.lean ====
section
/-! PROOF. A break on a decoding line is handed to the classifier (R24), and a break of 20 ms to 100 ms counts one pulse (R26). -/

namespace Sys2Proof.Machine

/-! ## What the transmitter's start leaves alone -/

@[simp] theorem serve_scan (s : State) : (serve s).scan = s.scan :=
  (congrArg State.scan (serve_port s) :)
@[simp] theorem serve_hookPin (s : State) : (serve s).hookPin = s.hookPin :=
  (congrArg State.hookPin (serve_port s) :)
@[simp] theorem serve_params (s : State) : (serve s).params = s.params :=
  (congrArg State.params (serve_port s) :)
@[simp] theorem decodes_serve (s : State) (p : Port) : decodes (serve s) p = decodes s p :=
  (congrArg (decodes · p) (serve_port s) :)
@[simp] theorem hookSampled_serve (s : State) (p : Port) : hookSampled (serve s) p = hookSampled s p :=
  (congrArg (hookSampled · p) (serve_port s) :)

/-! ## The pulse counter (R26) -/

theorem Scanner.pulse_of_overrun {c : Scanner} (h : c.overrun = true) : c.pulse = c := if_pos h

theorem Scanner.pulse_of_room {c : Scanner} (ho : c.overrun = false) (h : c.pulses < 10) :
    c.pulse = { c with pulses := c.pulses + 1 } := by
  unfold Scanner.pulse
  rw [if_neg (by simp [ho]), if_pos h]

theorem Scanner.pulse_of_full {c : Scanner} (ho : c.overrun = false) (h : 10 ≤ c.pulses) :
    c.pulse = { c with overrun := true } := by
  unfold Scanner.pulse
  rw [if_neg (by simp [ho]), if_neg (Nat.not_lt.mpr h)]

/-- A pulse writes the count and overrun, each by one rule for the three cases of R26. -/
theorem Scanner.pulse_eq (c : Scanner) :
    c.pulse = { c with
      pulses := if c.overrun = false ∧ c.pulses < 10 then c.pulses + 1 else c.pulses
      overrun := c.overrun || decide (10 ≤ c.pulses) } := by
  cases ho : c.overrun
  case true =>
    rw [Scanner.pulse_of_overrun ho]
    cases c
    cases ho
    rfl
  case false =>
    by_cases h : c.pulses < 10
    · rw [Scanner.pulse_of_room ho h]
      simp [h, ho]
    · rw [Scanner.pulse_of_full ho (Nat.not_lt.mp h)]
      simp [h, Nat.not_lt.mp h]

/-! ## The end of a break (R24, Table 2.4) -/

/-- A break from 20 ms to 100 ms writes the line's scanner alone. -/
theorem classifyBreak_of_pulse (p : Port) {ms : Nat} (s : State) (hmin : 20 ≤ ms) (hmax : ms ≤ 100) :
    classifyBreak p ms s = setScan p (s.scan.at p).breakTaken.pulse s := by
  have hlow : ¬ ms < Config.pulseMin := Nat.not_lt.mpr hmin
  have hhigh : ms ≤ Config.pulseMax := hmax
  unfold classifyBreak
  simp only [if_neg hlow, if_pos hhigh]

/-- The closed sample that ends a break not longer than FLASH_MAX on a decoding line sets the hook pin and classifies the break. -/
theorem exec_breakEnd_of_decodes {p : Port} {ms : Nat} {s : State} (hrun : Running s) (hdec : decodes s p = true)
    (hsam : hookSampled s p = true) (hpos : 0 < ms) (hflash : ms ≤ s.params.flashMax) :
    exec (.breakEnd p ms) s = .next (classifyBreak p ms (setHookPin p true (serve s))) := by
  have hend : endBreak p ms (serve s) = classifyBreak p ms (setHookPin p true (serve s)) := by
    unfold endBreak
    simp [hdec, hsam, hpos, hflash]
  show Host.Outcome.next (whileRunning (endBreak p ms) s) = _
  rw [whileRunning_of_running hrun, hend]

/-- Settles O19: the break is classified as a pulse, which writes the line's scanner and hook pin alone. -/
theorem pulseIsCounted : Obligations.PulseIsCounted := by
  intro p ms s hrun hdec hsam hmin hmax hflash
  have hexec : exec (.breakEnd p ms) s
      = .next (setScan p (s.scan.at p).breakTaken.pulse (setHookPin p true (serve s))) := by
    rw [exec_breakEnd_of_decodes hrun hdec hsam (by omega) hflash, classifyBreak_of_pulse p _ hmin hmax]
    simp
  have hscan : (setScan p (s.scan.at p).breakTaken.pulse (setHookPin p true (serve s))).scan.at p = _ :=
    (Table.at_put_same _ p _).trans (Scanner.pulse_eq _)
  refine ⟨_, hexec, congrArg Scanner.pulses hscan, congrArg Scanner.overrun hscan, congrArg Scanner.closedRun hscan,
    congrArg Scanner.openRun hscan, (congrArg Scanner.hook hscan :), fun q hq => ?_, fun q hq => ?_, rfl⟩
  · simp [hq]
  · simp [hq]

end Sys2Proof.Machine
end

