-- ==== Sys2Proof/Proofs/ConfigExit.lean ====
section
/-! PROOF. CONFIG_EXIT by the mode and the self-test result (R180): a request that is taken and answered, and an event that ends with no
line waiting. -/

namespace Sys2Proof.Machine

/-! ## Facts apart from the control port's sending side -/

theorem mode_of_port {s t : State} (h : t.apartFromPort = s.apartFromPort) : t.mode = s.mode :=
  (congrArg State.mode h :)

theorem selfTest_of_port {s t : State} (h : t.apartFromPort = s.apartFromPort) : t.selfTest = s.selfTest :=
  (congrArg State.selfTest h :)

theorem waitQueue_of_port {s t : State} (h : t.apartFromPort = s.apartFromPort) : t.waitQueue = s.waitQueue :=
  (congrArg State.waitQueue h :)

theorem power_of_port {s t : State} (h : t.apartFromPort = s.apartFromPort) : t.power = s.power :=
  (congrArg State.power h :)

theorem cells_of_port {s t : State} (h : t.apartFromPort = s.apartFromPort) : t.cells = s.cells :=
  (congrArg State.cells h :)

theorem posture_of_port {s t : State} (h : t.apartFromPort = s.apartFromPort) : t.posture = s.posture :=
  (congrArg State.posture h :)

theorem eventsFinished_of_port {s t : State} (h : t.apartFromPort = s.apartFromPort) (he : EventsFinished s) :
    EventsFinished t := by
  have he' : EventsFinished s.apartFromPort := he
  rw [← h] at he'
  exact he'

theorem setMode_of_port (m : Mode) {s t : State} (h : t.apartFromPort = s.apartFromPort) :
    (setMode m t).apartFromPort = (setMode m s).apartFromPort :=
  congrArg (setMode m) h

/-! ## A request taken and answered (R191) -/

/-- The part right after a request is taken: it has left the buffer, and its reply is in the reply slot. -/
def taken (num : Byte) (o : ReplyOutcome) (s : State) : State :=
  answer num o { serve s with requests := (serve s).requests.tail }

theorem serve_reply (s : State) : (serve s).reply = s.reply := by
  obtain ⟨-, hreply, -⟩ := serve_keeps s
  exact hreply

theorem report_reply (r : Report) (s : State) : (report r s).reply = s.reply := by
  have hq : (queueReport r s).reply = s.reply := by
    unfold queueReport
    split <;> rfl
  unfold report
  rw [serve_reply, hq]

theorem taken_replied (num : Byte) (o : ReplyOutcome) (s : State) : Replied (taken num o s) num o :=
  serve_reply _

theorem taken_port (num : Byte) (o : ReplyOutcome) (s : State) : (taken num o s).apartFromPort = s.apartFromPort :=
  (answer_port num o _).trans (serve_port s)

theorem taken_made (num : Byte) (o : ReplyOutcome) (s : State) : Made s (taken num o s) [] := by
  have popped : unsent { serve s with requests := (serve s).requests.tail, reply := some ⟨num, o⟩ } = unsent (serve s) := rfl
  unfold Made taken answer
  rw [serve_unsent, popped, serve_unsent, List.append_nil]

theorem taken_room {n : Nat} (num : Byte) (o : ReplyOutcome) {s : State} (h : Room n s) : Room n (taken num o s) := by
  have hans : (taken num o s).reports.length ≤ (serve s).reports.length := serve_reports _
  have hserve := serve_reports s
  unfold Room at *
  omega

/-- The transmitter has started already what the reply lets it start. -/
theorem serve_taken (num : Byte) (o : ReplyOutcome) (s : State) : serve (taken num o s) = taken num o s :=
  serve_serve _

/-- A request that is taken and refused has no effect. -/
theorem takeRequest_refused {r : Request} {s : State} {judge : State → ReplyOutcome} {why : RequestRefusal}
    (effect : State → State) (h : Takes r.num r.kind r.body s)
    (hj : judge { serve s with requests := (serve s).requests.tail } = .refused why) :
    takeRequest r judge effect s = taken r.num (.refused why) s := by
  rw [takeRequest_of_takes judge effect h]
  unfold takeNow
  simp only [hj]
  rfl

/-- A request that is taken and done has its effect on the part that has answered it, and the event then ends. -/
theorem takeRequest_done {r : Request} {s : State} {judge : State → ReplyOutcome} (f : State → State)
    (h : Takes r.num r.kind r.body s) (hj : judge { serve s with requests := (serve s).requests.tail } = .done) :
    takeRequest r judge (act f) s = finish (taken r.num .done s) (f (taken r.num .done s)) := by
  have hrun : Running (taken r.num .done s) := (power_of_port (taken_port _ _ s)).trans h.1
  have hact : act f (taken r.num .done s) = finish (taken r.num .done s) (f (taken r.num .done s)) := by
    unfold act
    rw [whileRunning_of_running hrun, serve_taken]
  rw [takeRequest_of_takes judge (act f) h, ← hact]
  unfold takeNow
  simp only [hj]
  rfl

/-! ## The end of an event with no line waiting -/

/-- With no line waiting, a round of an attempt admits none and preempts none (R90, R97). -/
theorem attemptRound_of_nobody {s : State} (hq : s.waitQueue = []) : attemptRound s = (s, false) := by
  have hadmit : admitHeads s.free.length s = s := by
    cases s.free.length with
    | zero => rfl
    | succ n => unfold admitHeads; rw [hq]
  have hpre : mayPreempt s = false := by
    unfold mayPreempt
    simp [hq]
  unfold attemptRound
  simp [hadmit, hpre]

theorem attempt_of_nobody {s : State} (hq : s.waitQueue = []) : attempt s = s := by
  unfold attempt
  rw [attemptRounds, attemptRound_of_nobody hq]
  rfl

/-- No room for ringing is gained where the cells and the posture stand. -/
theorem roomGained_of_same {old new : State} (hc : new.cells = old.cells) (hp : new.posture = old.posture) :
    roomGained old new = false := by
  have hall : allPlaced new = allPlaced old := by
    unfold allPlaced
    rw [hc]
  have stays : ∀ e ∈ allPlaced old, (!isPlaced new e.port) = false := by
    intro e he
    unfold isPlaced
    rw [hall, Bool.not_eq_false', List.any_eq_true]
    exact ⟨e, he, decide_eq_true rfl⟩
  unfold roomGained
  rw [List.any_eq_false.mpr fun e he => by simp [stays e he], hp]
  simp

/-- An event that changes no record starts no attempt. -/
theorem attemptCaused_self (s : State) : attemptCaused s s = false := by
  have link : (decide (s.link = .resync) && s.link.inService) = false := by
    cases s.link <;> rfl
  have mark : (s.mark.isSome && s.mark.isNone) = false := by
    cases s.mark <;> rfl
  unfold attemptCaused
  cases s.waitQueue with
  | nil => simp [link, mark]
  | cons p ps =>
    have tail : ∀ q ∈ ps, ¬q = p → q ∈ ps := fun _ hq _ => hq
    simpa [link, mark] using tail

/-- An event that changes nothing ends as it stands. -/
theorem finish_self {s : State} (he : EventsFinished s) : finish s s = s :=
  finish_eq_self (roomGained_of_same rfl rfl) (attemptCaused_self s) he

/-- With no line waiting, an event that gains no room for ringing ends as it stands: an attempt it causes finds nobody (R90). -/
theorem finish_of_nobody {old new : State} (hr : roomGained old new = false) (hq : new.waitQueue = [])
    (he : EventsFinished new) : finish old new = new := by
  have same : finish old new = finish new new := by
    unfold finish
    simp [hr, roomGained_of_same, attempt_of_nobody hq]
  exact same.trans (finish_self he)

/-! ## CONFIG_EXIT (R180) -/

/-- The refusal is the same on two states that differ on the sending side of the control port alone. -/
theorem configExitRefusal_of_port (body : List Byte) {s t : State} (h : t.apartFromPort = s.apartFromPort) :
    configExitRefusal body t = configExitRefusal body s := by
  unfold configExitRefusal
  rw [mode_of_port h, selfTest_of_port h]

/-- The answer of CONFIG_EXIT is judged on the part as it stood when the request came. -/
theorem configExit_judged (s : State) :
    doneUnless (configExitRefusal [] { serve s with requests := (serve s).requests.tail })
      = doneUnless (configExitRefusal [] s) :=
  congrArg doneUnless (configExitRefusal_of_port [] (serve_port s))

/-- A CONFIG_EXIT that is refused changes nothing but the sending side of the control port. -/
theorem exec_configExit_refused {num : Byte} {s : State} {why : RequestRefusal} (ht : Takes num 0x03 [] s)
    (hj : configExitRefusal [] s = some why) : exec (.configExit num []) s = .next (taken num (.refused why) s) := by
  have hjudge := configExit_judged s
  rw [hj] at hjudge
  exact congrArg Host.Outcome.next
    (takeRequest_refused (r := ⟨num, 0x03, []⟩) (judge := fun t => doneUnless (configExitRefusal [] t)) _ ht hjudge)

/-- A CONFIG_EXIT that is not refused has its effect on the part that has answered it. -/
theorem exec_configExit_done {num : Byte} {s : State} (ht : Takes num 0x03 [] s) (hj : configExitRefusal [] s = none) :
    exec (.configExit num []) s = .next (finish (taken num .done s) (exitConfig (taken num .done s))) := by
  have hjudge := configExit_judged s
  rw [hj] at hjudge
  exact congrArg Host.Outcome.next
    (takeRequest_done (r := ⟨num, 0x03, []⟩) (judge := fun t => doneUnless (configExitRefusal [] t)) _ ht hjudge)

/-- In CONFIG the mode becomes NORMAL with its report, and the attempt this causes finds no line waiting. -/
theorem finish_exitConfig_of_config {s : State} (hm : s.mode = .config) (hq : s.waitQueue = []) (he : EventsFinished s) :
    finish s (exitConfig s) = report (.modeEvent .normal .request) (setMode .normal s) := by
  have hport := report_port (.modeEvent .normal .request) (setMode .normal s)
  have hroom : roomGained s (report (.modeEvent .normal .request) (setMode .normal s)) = false :=
    roomGained_of_same ((cells_of_port hport).trans (setMode_cells _ s)) ((posture_of_port hport).trans (setMode_posture _ s))
  have hqueue := (waitQueue_of_port hport).trans ((setMode_waitQueue _ s).trans hq)
  have hnormal : EventsFinished (setMode .normal s) := ⟨he.1, fun h => nomatch h⟩
  have hexit : exitConfig s = report (.modeEvent .normal .request) (setMode .normal s) := if_pos hm
  rw [hexit, finish_of_nobody hroom hqueue (eventsFinished_of_port hport hnormal)]

/-- In every mode but CONFIG nothing is left to do. -/
theorem finish_exitConfig_of_other {s : State} (hm : s.mode ≠ .config) (he : EventsFinished s) :
    finish s (exitConfig s) = s := by
  have hexit : exitConfig s = s := if_neg hm
  rw [hexit, finish_self he]

theorem exec_configExit_config {num : Byte} {s : State} (ht : Takes num 0x03 [] s) (hq : s.waitQueue = [])
    (he : EventsFinished s) (hm : s.mode = .config) (hf : s.selfTest ≠ .fail) :
    exec (.configExit num []) s = .next (report (.modeEvent .normal .request) (setMode .normal (taken num .done s))) := by
  have hport := taken_port num .done s
  rw [exec_configExit_done ht (by simp [configExitRefusal, emptyBody, hm, hf]),
    finish_exitConfig_of_config ((mode_of_port hport).trans hm) ((waitQueue_of_port hport).trans hq)
      (eventsFinished_of_port hport he)]

theorem exec_configExit_normal {num : Byte} {s : State} (ht : Takes num 0x03 [] s) (he : EventsFinished s)
    (hm : s.mode = .normal) : exec (.configExit num []) s = .next (taken num .done s) := by
  have hport := taken_port num .done s
  have hother : (taken num .done s).mode ≠ .config := by
    rw [mode_of_port hport, hm]
    decide
  rw [exec_configExit_done ht (by simp [configExitRefusal, emptyBody, hm]),
    finish_exitConfig_of_other hother (eventsFinished_of_port hport he)]

/-- Settles O59, by the mode: CONFIG with each self-test result, CONFIG_PENDING, NORMAL. -/
theorem configExitActsByTheMode : Obligations.ConfigExitActsByTheMode := by
  intro num s ht hq he hroom
  cases hm : s.mode with
  | config =>
    by_cases hf : s.selfTest = .fail
    · have hwhy : configExitRefusal [] s = some .selfTestFailed := by simp [configExitRefusal, emptyBody, hm, hf]
      refine ⟨_, exec_configExit_refused ht hwhy, ?_⟩
      dsimp only
      rw [if_pos hf]
      exact ⟨taken_replied _ _ s, taken_made _ _ s, taken_port _ _ s⟩
    · have hroom' : Room 1 (setMode .normal (taken num .done s)) := by
        rw [Room, setMode_reports]
        exact taken_room num .done hroom
      have hmade : unsent (setMode .normal (taken num .done s)) = unsent s ++ [] := taken_made num .done s
      refine ⟨_, exec_configExit_config ht hq he hm hf, ?_⟩
      dsimp only
      rw [if_neg hf]
      refine ⟨?_, ?_, ?_⟩
      · rw [Replied, report_reply, setMode_reply, taken_replied]
      · rw [Made, report_unsent _ _ hroom', hmade, List.append_nil]
      · exact (report_port _ _).trans (setMode_of_port .normal (taken_port num .done s))
  | configPending =>
    have hwhy : configExitRefusal [] s = some .notYet := by simp [configExitRefusal, emptyBody, hm]
    exact ⟨_, exec_configExit_refused ht hwhy, taken_replied _ _ s, taken_made _ _ s, taken_port _ _ s⟩
  | normal =>
    exact ⟨_, exec_configExit_normal ht he hm, taken_replied _ _ s, taken_made _ _ s, taken_port _ _ s⟩

end Sys2Proof.Machine
end

