-- ==== Sys2Proof/Proofs/Changes.lean ====
section
/-! PROOF. What a step can do, said once: every step is a sequence of changes, each one an effect of the table's rows with the end of its
event, an effect without one, or a change that writes nothing an invariant speaks of. The invariants are then proved change by change. -/

namespace Sys2Proof.Machine

/-! ## What the invariants do not speak of -/

/-- The state with everything forgotten that no invariant of the queues, the slots, the port map or the ringing speaks of: of a line it
keeps the state and the call, of a slot all but the order, and of a placed line the port. -/
def State.core (s : State) : State :=
  { State.reset with
    ports := s.ports
    lines := s.lines.map fun l => { Line.unequipped with state := l.state, call := l.call }
    slots := s.slots.map (Slot.withOrder fun _ => 0)
    free := s.free, waitQueue := s.waitQueue, posture := s.posture, mark := s.mark, nextTag := s.nextTag
    cells := s.cells.map fun c => c.map fun e => { e with number := 0 }
    ringQueue := s.ringQueue, score := s.score, link := s.link, txq := s.txq, mode := s.mode
    requests := s.requests, reply := s.reply, warm := s.warm, reports := s.reports, alarms := s.alarms, power := s.power, pending := s.pending }

/-! ## The effects -/

/-- The effects that an event ends (`act`): what each such row does to the part before the end of its event. -/
inductive Effect : State → State → Prop
  | offHook (p : Port) (s : State) : Effect s (takeOffHook p (offHookSample p s))
  | onHook (p : Port) (run : Nat) (s : State) (h : awaitsOnHook s p = true ∨ decodes s p = true) : Effect s (takeOnHook p (onHookSample p run s))
  | fault (p : Port) (s : State) : Effect s (takeFault p (wakeForFault p s))
  | faultClear (p : Port) (s : State) : Effect s (takeFaultClear p s)
  | slowSample (g : GroupId) (closed faulty : BitVec 8) (s : State) : Effect s (slowSample g closed faulty s)
  | waitLimit (p : Port) (s : State) (h : (s.lines.at p).state = .queued) : Effect s (enterBare p .parked .congested s)
  | ringLimit (p : Port) (s : State) (h : (s.lines.at p).state.called = true) : Effect s (endLine p .idle .noAnswer s)
  | judged (octets : List Byte) (s : State) : Effect s (judgeFrame octets s)
  | holdover (s : State) : Effect s (expireHoldover s)
  | restart (s : State) (h : s.link = .resync) : Effect s (expireRestart s)
  | seizeReply (i : SlotId) (s : State) : Effect s (expireSeize i s)
  | clearReply (i : SlotId) (s : State) : Effect s (expireClear i s)
  | completed (s : State) (h : s.inFlight.isSome = true) : Effect s (completeEntry s)
  | accept (tag : Byte) (s : State) : Effect s (takeAccept tag s)
  | reject (tag : Byte) (r : Reason) (s : State) : Effect s (takeReject tag r s)
  | progress (tag : Byte) (s : State) : Effect s (takeProgress tag s)
  | headClear (tag : Byte) (r : Reason) (s : State) : Effect s (takeHeadClear tag r s)
  | headClearAck (tag : Byte) (s : State) : Effect s (takeHeadClearAck tag s)
  | incoming (ref number : BitVec 16) (s : State) : Effect s (takeIncoming ref number s)
  | restartAck (tags : List Byte) (s : State) : Effect s (takeRestartAck tags s)
  | flow (f : FlowCommand) (s : State) : Effect s (takeFlow f s)
  | orderly (s : State) : Effect s (enterOrderly s)
  | forced (s : State) : Effect s (enterForced s)
  | exit (s : State) : Effect s (exitConfig s)
  | mapSet (body : List Byte) (s : State) (h : mapSetRefusal body s = none) : Effect s (setMap body s)
  | posture (body : List Byte) (s : State) : Effect s (setPosture body s)
  | claim (body : List Byte) (s : State) : Effect s (setClaim body s)
  | forcedClaim (body : List Byte) (s : State) : Effect s (setForcedClaim body s)
  | busRelease (s : State) : Effect s (releaseBus s)
  | unblock (body : List Byte) (s : State) : Effect s (setUnblock body s)
  | nothing (s : State) : Effect s s

/-- The effects that no end of an event follows (`actQuietly`, and the requests that free nothing). -/
inductive Bare : State → State → Prop
  | breakEnd (p : Port) (ms : Nat) (s : State) : Bare s (endBreak p ms s)
  | digit (p : Port) (s : State) : Bare s (completeDigit p (setHookPin p true s))
  | contact (p : Port) (c : ContactState) (s : State) : Bare s (takeContact p c (contactSample p c s))
  | settled (g : GroupId) (s : State) : Bare s (endSettle g s)
  | phase (s : State) : Bare s (beginPhase s)
  | started (s : State) (h : maySend s = true) : Bare s (startSending s.txq s)
  | param (body : List Byte) (s : State) : Bare s (setParam body s)
  | standby (body : List Byte) (s : State) : Bare s (setStandby body s)
  | wake (body : List Byte) (s : State) : Bare s (setAwake body s)
  | block (body : List Byte) (s : State) : Bare s (setBlock body s)
  | trunkRelease (s : State) : Bare s (releaseTrunk s)
  | acknowledged (body : List Byte) (s : State) : Bare s (setAcknowledged body s)
  | dropPartial (s : State) : Bare s (dropPartial s)

/-- The part after a reset has begun or ended. -/
inductive Fresh : State → Prop
  | up (k : ResetKind) (r : SelfTest) (s : State) : Fresh (comeUp k r s)
  | held (s : State) : Fresh (holdReset s)

/-- How far the changes go: inside the running part, besides to resets, besides to the requests, or besides to the clock. -/
inductive Scope where
  | inner | apart | whole | clock
  deriving DecidableEq

/-- One change of a step: an effect with the end of its event, an effect without one, or a start of the transmitter; a reset; the taking or
joining of a request; and, with no command waiting, a millisecond or what is due put into the queue. -/
inductive Change (scope : Scope) : State → State → Prop
  | event {s t : State} (h : Effect s t) : Change scope s (finish s t)
  | bare {s t : State} (h : Bare s t) : Change scope s t
  | served (s : State) : Change scope s (serve s)
  | fresh (hb : scope ≠ .inner) {s t : State} (h : Fresh t) (hq : t.pending = s.pending) : Change scope s t
  | outside (hb : scope ≠ .inner) (s : State) (power : Power) (rate : Rate) : Change scope s { s with power := power, rate := rate }
  | port (hp : scope = .whole ∨ scope = .clock) (s : State) (requests : List Request) (reply : Option Reply) (warm : Warm) (tx : Transmitter)
      (lost : Bool) (receiver : Assembler) :
      Change scope s { s with
        requests := requests, reply := reply, warm := warm, tx := tx, requestLost := lost, receiver := receiver }
  | ticked (hc : scope = .clock) (s : State) : Change scope s (tick s)
  | waiting (hc : scope = .clock) (s : State) (power : Power) (pending : List Instr) (freeIndex : Nat) :
      Change scope s { s with power := power, pending := pending, freeIndex := freeIndex }

/-- A sequence of changes. -/
abbrev Changes (scope : Scope) : State → State → Prop := Relation.ReflTransGen (Change scope)

/-- What every change keeps, a sequence of changes keeps. -/
theorem Changes.keeps {b : Scope} {I : State → Prop} (h : ∀ s t, Change b s t → I s → I t) {s t : State} (hst : Changes b s t) (hs : I s) : I t := by
  induction hst with
  | refl => exact hs
  | tail _ hc ih => exact h _ _ hc ih

/-! ## The rows, one by one -/

theorem changes_served {b : Scope} (s : State) : Changes b s (serve s) := .single (.served s)

/-- An event of the running part is the start of the transmitter and then its effect. -/
theorem whileRunning_changes {b : Scope} {f : State → State} (s : State) (h : ∀ t, Changes b t (f t)) : Changes b s (whileRunning f s) := by
  unfold whileRunning
  split
  · exact (changes_served s).trans (h _)
  · exact .refl

theorem act_changes {b : Scope} {f : State → State} (s : State) (h : ∀ t, Effect t (f t)) : Changes b s (act f s) :=
  whileRunning_changes s fun t => .single (.event (h t))

theorem bare_changes {b : Scope} {f : State → State} (s : State) (h : ∀ t, f t = t ∨ Bare t (f t)) : Changes b s (actQuietly f s) :=
  whileRunning_changes s fun t => by
    rcases h t with h | h
    · rw [h]
    · exact .single (.bare h)

/-- An effect under a condition, and none where it fails. -/
theorem Effect.ite {c : Prop} [Decidable c] {s t : State} (h : c → Effect s t) : Effect s (if c then t else s) := by
  split
  · next hc => exact h hc
  · exact .nothing s

theorem Bare.ite {c : Prop} [Decidable c] {s t : State} (h : c → Bare s t) :
    (if c then t else s) = s ∨ Bare s (if c then t else s) := by
  split
  · next hc => exact .inr (h hc)
  · exact .inl rfl

theorem takeMessage_changes {b : Scope} {f : State → State} (s : State) (h : ∀ t, Effect t (f t)) : Changes b s (takeMessage f s) :=
  act_changes s fun t => Effect.ite fun _ => h t

/-- A message of the head terminal is taken as its own row. -/
theorem takeHead_changes {b : Scope} (i : Instr) (s : State) : Changes b s (takeHead i s) := by
  unfold takeHead
  split
  case h_1 tag => exact takeMessage_changes s (.accept tag)
  case h_2 tag r => exact takeMessage_changes s (.reject tag r)
  case h_3 tag => exact takeMessage_changes s (.progress tag)
  case h_4 tag r => exact takeMessage_changes s (.headClear tag r)
  case h_5 tag => exact takeMessage_changes s (.headClearAck tag)
  case h_6 ref number => exact takeMessage_changes s (.incoming ref number)
  case h_7 tags => exact takeMessage_changes s (.restartAck tags)
  case h_8 f => exact takeMessage_changes s (.flow f)
  case h_9 => exact .refl

/-- A frame is judged, and a message that it completes is taken. -/
theorem takeFrame_changes {b : Scope} (octets : List Byte) (s : State) : Changes b s (takeFrame octets s) := by
  have judged : Changes b s (act (judgeFrame octets) s) := act_changes s (.judged octets)
  unfold takeFrame
  dsimp only
  split
  · exact judged.trans (takeHead_changes _ _)
  · exact judged

/-! ## Requests -/

theorem answer_changes (num : Byte) (o : ReplyOutcome) (s : State) : Changes .whole s (answer num o s) :=
  (Relation.ReflTransGen.single (.port (.inl rfl) s s.requests (some ⟨num, o⟩) s.warm s.tx s.requestLost s.receiver)).trans
    (changes_served _)

theorem joinRequests_changes (r : Request) (s : State) : Changes .whole s (joinRequests r s) := by
  unfold joinRequests
  split
  · exact .single (.port (.inl rfl) s (s.requests ++ [r]) s.reply s.warm s.tx s.requestLost s.receiver)
  · exact .single (.port (.inl rfl) s s.requests s.reply s.warm s.tx true s.receiver)

/-- What follows where a request's judge does not refuse it is a sequence of changes that leave the control port alone. -/
abbrev Follows (r : Request) (judge : State → ReplyOutcome) (effect : State → State) : Prop :=
  ∀ t o, judge t = o → (∀ why, o ≠ .refused why) → Changes .inner (answer r.num o t) (effect (answer r.num o t))

/-- A row that takes requests: it takes one in the way that all rows do, and its effect is a sequence of changes or a WARM_RESET. -/
def RequestRow (r : Request) (f : State → State) : Prop :=
  ∃ judge effect, f = takeRequest r judge effect ∧ (Follows r judge effect ∨ effect = takeWarmReset)

theorem RequestRow.of_act {r : Request} (judge : State → ReplyOutcome) {f : State → State} (h : ∀ t, Effect t (f t)) :
    RequestRow r (takeRequest r judge (act f)) := ⟨_, _, rfl, .inl fun _ _ _ _ => act_changes _ h⟩

theorem RequestRow.of_bare {r : Request} (judge : State → ReplyOutcome) {f : State → State} (h : ∀ t, Bare t (f t)) :
    RequestRow r (takeRequest r judge f) := ⟨_, _, rfl, .inl fun _ _ _ _ => .single (.bare (h _))⟩

theorem RequestRow.of_id {r : Request} (judge : State → ReplyOutcome) : RequestRow r (takeRequest r judge id) :=
  ⟨_, _, rfl, .inl fun _ _ _ _ => .refl⟩

/-- The refusal of a MAP_SET does not look at the sending side of the control port. -/
theorem mapSetRefusal_of_port (body : List Byte) {s t : State} (h : t.apartFromPort = s.apartFromPort) :
    mapSetRefusal body t = mapSetRefusal body s :=
  (congrArg (mapSetRefusal body) h :)

theorem mapSet_row (num : Byte) (body : List Byte) : RequestRow ⟨num, 0x04, body⟩ (runMapSet num body) := by
  refine ⟨_, _, rfl, .inl fun t o hj ho => ?_⟩
  have accepted : mapSetRefusal body t = none := by
    cases hr : mapSetRefusal body t with
    | none => rfl
    | some why => exact absurd (hj.symm.trans (congrArg doneUnless hr)) (ho why)
  have still (u : State) (hu : u.apartFromPort = t.apartFromPort) : Changes .inner u (finish u (setMap body u)) :=
    .single (.event (.mapSet body u ((mapSetRefusal_of_port body hu).trans accepted)))
  unfold act whileRunning
  split
  · exact (changes_served _).trans (still _ ((serve_port _).trans (answer_port num o t)))
  · exact .refl

/-- Every request command is the taking of its request. -/
theorem runRequest_row (i : Instr) {num kind : Byte} {body : List Byte} (h : requestCode i = some (num, kind, body)) :
    RequestRow ⟨num, kind, body⟩ (runRequest i) := by
  cases i <;> simp only [requestCode, Option.some.injEq, Prod.mk.injEq, reduceCtorEq] at h <;> obtain ⟨rfl, rfl, rfl⟩ := h
  case identify => exact .of_id _
  case configEnterOrderly => exact .of_act _ .orderly
  case configEnterForce => exact .of_act _ .forced
  case configExit => exact .of_act _ .exit
  case mapSet => exact mapSet_row _ _
  case paramSet => exact .of_bare _ (.param _)
  case postureSet => exact .of_act _ (.posture _)
  case groupStandby => exact .of_bare _ (.standby _)
  case groupWake => exact .of_bare _ (.wake _)
  case testClaimWait => exact .of_act _ (.claim _)
  case testClaimForce => exact .of_act _ (.forcedClaim _)
  case testRelease => exact .of_act _ .busRelease
  case slotBlock => exact .of_bare _ (.block _)
  case slotUnblock => exact .of_act _ (.unblock _)
  case trunkRelease => exact .of_bare _ .trunkRelease
  case alarmAck => exact .of_bare _ (.acknowledged _)
  case queryLine => exact .of_id _
  case querySlots => exact .of_id _
  case queryQueues => exact .of_id _
  case queryLink => exact .of_id _
  case queryAlarms => exact .of_id _
  case warmReset => exact ⟨_, _, rfl, .inr rfl⟩
  case unknownRequest => exact .of_id _

/-- The meaning of a request command is the running of its row. -/
theorem exec_request (i : Instr) {x : Byte × Byte × List Byte} (h : requestCode i = some x) (s : State) :
    exec i s = .next (runRequest i s) := by
  cases i <;> simp only [requestCode, reduceCtorEq] at h <;> rfl

/-- The row that a received request goes to is the row of its number, kind and body. -/
theorem requestCode_requestRow (num kind : Byte) (body : List Byte) :
    requestCode (requestRow num kind body) = some (num, kind, body) := by
  have code (n : Nat) (h : kind.toNat = n) : kind = byte n := by
    unfold byte
    rw [← h, BitVec.ofNat_toNat, BitVec.setWidth_eq]
  unfold requestRow
  split
  case h_2 h => rw [code _ h]; split <;> rfl
  case h_9 h => rw [code _ h]; split <;> rfl
  case h_21 => rfl
  all_goals next h => rw [code _ h]; rfl

/-- A change inside the running part is one of any scope. -/
theorem Changes.widen {b : Scope} {s t : State} (h : Changes .inner s t) : Changes b s t :=
  Relation.ReflTransGen.mono (fun _ _ hc => by
    cases hc with
    | event he => exact .event he
    | bare hb => exact .bare hb
    | served => exact .served _
    | fresh hb => exact absurd rfl hb
    | outside hb => exact absurd rfl hb
    | port hp => exact (by decide : ¬ (Scope.inner = .whole ∨ Scope.inner = .clock)).elim hp
    | ticked hc => exact nomatch hc
    | waiting hc => exact nomatch hc) _ _ h

/-- A change of any scope is one of the widest. -/
theorem Changes.toClock {b : Scope} {s t : State} (h : Changes b s t) : Changes .clock s t :=
  Relation.ReflTransGen.mono (fun _ _ hc => by
    cases hc with
    | event he => exact .event he
    | bare hb => exact .bare hb
    | served => exact .served _
    | fresh _ hf hq => exact .fresh (by decide) hf hq
    | outside => exact .outside (by decide) _ _ _
    | port => exact .port (.inr rfl) _ _ _ _ _ _ _
    | ticked => exact .ticked rfl _
    | waiting => exact .waiting rfl _ _ _ _) _ _ h

/-- A request that is taken leaves the buffer and is answered; unless it is refused its effect follows. -/
theorem RequestRow.changes {r : Request} {f : State → State} (h : RequestRow r f) (s : State) : Changes .whole s (f s) := by
  obtain ⟨judge, effect, rfl, heff⟩ := h
  have left (t : State) : Changes .whole t { t with requests := t.requests.tail } :=
    .single (.port (.inl rfl) t t.requests.tail t.reply t.warm t.tx t.requestLost t.receiver)
  have follows (t : State) (o : ReplyOutcome) (hj : judge t = o) (ho : ∀ why, o ≠ .refused why) :
      Changes .whole (answer r.num o t) (effect (answer r.num o t)) := by
    rcases heff with heff | rfl
    · exact (heff t o hj ho).widen
    · exact .single (.port (.inl rfl) _ [] _ .taken _ _ _)
  refine whileRunning_changes s fun t => ?_
  split
  · exact .refl
  · split
    · unfold takeNow
      dsimp only
      split
      · exact (left t).trans (answer_changes _ _ _)
      · next hne => exact (left t).trans ((answer_changes _ _ _).trans (follows _ _ rfl fun why hw => hne why hw))
    · exact joinRequests_changes r t

theorem takeOldest_changes (s : State) : Changes .whole s (takeOldest s) := by
  unfold takeOldest
  split
  · split
    · exact (runRequest_row _ (requestCode_requestRow _ _ _)).changes s
    · exact .refl
  · exact .refl

theorem takeOctet_changes (o : Byte) (s : State) : Changes .whole s (takeOctet o s) := by
  have received : Changes .whole s { s with receiver := (receiveOctet s.receiver o).1 } :=
    .single (.port (.inl rfl) s s.requests s.reply s.warm s.tx s.requestLost _)
  unfold takeOctet
  split
  · dsimp only
    split
    · exact received.trans ((joinRequests_changes _ _).trans (takeOldest_changes _))
    · exact received
  · exact .refl

theorem inTurn_changes {b : Scope} {α : Type} {f : α → State → State} (h : ∀ x t, Changes b t (f x t)) (xs : List α) (s : State) :
    Changes b s (inTurn xs f s) :=
  inTurn_induct (Changes b s) f xs (fun x _ t ht => ht.trans (h x t)) s .refl

/-! ## Records, resets and the clock -/

theorem endRecord_changes (s : State) : Changes .whole s (endRecord s) := by
  unfold endRecord
  split
  · exact changes_served s
  · exact (Relation.ReflTransGen.single (.port (.inl rfl) s s.requests none _ .idle s.requestLost s.receiver)).trans
      ((changes_served _).trans (takeOldest_changes _))
  · exact (Relation.ReflTransGen.single (.port (.inl rfl) s s.requests s.reply s.warm .idle s.requestLost s.receiver)).trans (changes_served _)

theorem changes_fresh {s t : State} (h : Fresh t) (hq : t.pending = s.pending) : Changes .apart s t := .single (.fresh (by decide) h hq)

/-- The idle step of the part: due at once, or one millisecond. -/
theorem idle_changes (s : State) : Changes .clock s (idle s) := by
  unfold idle
  split
  · exact .refl
  · unfold tickSelfTest
    split
    · exact .single (.waiting rfl s (.selfTest 0) _ (s.freeIndex + 1))
    · exact .single (.waiting rfl s (.selfTest _) s.pending s.freeIndex)
  · unfold idleRunning
    dsimp only
    split
    · exact (changes_served s).trans (.single (.ticked rfl _))
    · exact (changes_served s).trans (.single (.waiting rfl _ _ _ _))

/-- The commands that use the control port's receiving side or end a record of it. -/
def usesPort : Instr → Bool
  | .requestReceived _ => true
  | .recordComplete => true
  | i => (requestCode i).isSome

/-- How far the changes of a command go. -/
def scopeOf (c : Instr) : Scope := if usesPort c = true then .whole else .apart

/-- What a command does is a sequence of changes. -/
theorem exec_changes (c : Instr) (s : State) : ∃ t, exec c s = .next t ∧ Changes (scopeOf c) s t := by
  cases c
  case resetPinAssert => exact ⟨_, rfl, changes_fresh (.held s) rfl⟩
  case resetPinRelease testStrap rateHigh rateLow =>
    by_cases h : s.power = .held
    · cases testStrap
      · exact ⟨_, if_pos h, changes_fresh (.up _ _ _) rfl⟩
      · exact ⟨_, if_pos h, .single (.outside (show Scope.apart ≠ .inner by decide) s (.selfTest Config.selfTestTime) (rateOfStraps rateHigh rateLow))⟩
    · exact ⟨_, if_neg h, whileRunning_changes s fun _ => .refl⟩
  case selfTestEnd pass =>
    refine ⟨_, rfl, ?_⟩
    split
    · exact changes_fresh (.up _ _ _) rfl
    · exact whileRunning_changes s fun _ => .refl
  case warmResetBegin =>
    refine ⟨_, rfl, ?_⟩
    split
    · exact changes_fresh (.up _ _ _) rfl
    · exact whileRunning_changes s fun _ => .refl
  case offHook p => exact ⟨_, rfl, act_changes s fun t => Effect.ite fun _ => .offHook p t⟩
  case onHook p => exact ⟨_, rfl, act_changes s fun t => Effect.ite fun h => .onHook p _ t (.inl (Bool.and_eq_true_iff.mp h).1)⟩
  case decodingOnHook p => exact ⟨_, rfl, act_changes s fun t => Effect.ite fun h => .onHook p _ t (.inr (Bool.and_eq_true_iff.mp h).1)⟩
  case breakEnd p ms => exact ⟨_, rfl, bare_changes s fun t => .inr (.breakEnd p ms t)⟩
  case digitComplete p => exact ⟨_, rfl, bare_changes s fun t => Bare.ite fun _ => .digit p t⟩
  case fault p => exact ⟨_, rfl, act_changes s fun t => Effect.ite fun _ => .fault p t⟩
  case faultClear p => exact ⟨_, rfl, act_changes s fun t => Effect.ite fun _ => .faultClear p t⟩
  case contactChange p c => exact ⟨_, rfl, bare_changes s fun t => Bare.ite fun _ => .contact p c t⟩
  case slowScan g closed faulty => exact ⟨_, rfl, act_changes s fun t => Effect.ite fun _ => .slowSample g closed faulty t⟩
  case settleExpiry g => exact ⟨_, rfl, bare_changes s fun t => Bare.ite fun _ => .settled g t⟩
  case waitLimitExpiry p => exact ⟨_, rfl, act_changes s fun t => Effect.ite fun h => .waitLimit p t h.1⟩
  case ringLimitExpiry p => exact ⟨_, rfl, act_changes s fun t => Effect.ite fun h => .ringLimit p t h.1⟩
  case phaseBegin => exact ⟨_, rfl, bare_changes s fun t => .inr (.phase t)⟩
  case trunkFrame octets => exact ⟨_, rfl, whileRunning_changes s fun t => takeFrame_changes octets t⟩
  case holdoverExpiry => exact ⟨_, rfl, act_changes s fun t => Effect.ite fun _ => .holdover t⟩
  case restartReplyExpiry => exact ⟨_, rfl, act_changes s fun t => Effect.ite fun h => .restart t h⟩
  case seizeReplyExpiry i => exact ⟨_, rfl, act_changes s (.seizeReply i)⟩
  case clearReplyExpiry i => exact ⟨_, rfl, act_changes s (.clearReply i)⟩
  case entryStart => exact ⟨_, rfl, bare_changes s fun t => Bare.ite fun h => .started t (Bool.and_eq_true_iff.mp h).1⟩
  case entryComplete => exact ⟨_, rfl, act_changes s fun t => Effect.ite fun h => .completed t h⟩
  case accept tag => exact ⟨_, rfl, takeMessage_changes s (.accept tag)⟩
  case reject tag r => exact ⟨_, rfl, takeMessage_changes s (.reject tag r)⟩
  case progress tag => exact ⟨_, rfl, takeMessage_changes s (.progress tag)⟩
  case headClear tag r => exact ⟨_, rfl, takeMessage_changes s (.headClear tag r)⟩
  case headClearAck tag => exact ⟨_, rfl, takeMessage_changes s (.headClearAck tag)⟩
  case incoming ref number => exact ⟨_, rfl, takeMessage_changes s (.incoming ref number)⟩
  case restartAck tags => exact ⟨_, rfl, takeMessage_changes s (.restartAck tags)⟩
  case flow f => exact ⟨_, rfl, takeMessage_changes s (.flow f)⟩
  case malformedHeadMessage => exact ⟨_, rfl, whileRunning_changes s fun _ => .refl⟩
  case requestReceived octets =>
    exact ⟨_, rfl, whileRunning_changes s fun t => inTurn_changes (fun o u => takeOctet_changes o u) octets t⟩
  case lineBreak => exact ⟨_, rfl, whileRunning_changes s fun t => .single (.bare (.dropPartial t))⟩
  case framingError => exact ⟨_, rfl, whileRunning_changes s fun t => .single (.bare (.dropPartial t))⟩
  case recordComplete =>
    refine ⟨_, rfl, ?_⟩
    split
    · exact endRecord_changes s
    · exact .refl
  case identify num body => exact ⟨_, rfl, (runRequest_row (.identify num body) rfl).changes s⟩
  case configEnterOrderly num body => exact ⟨_, rfl, (runRequest_row (.configEnterOrderly num body) rfl).changes s⟩
  case configEnterForce num body => exact ⟨_, rfl, (runRequest_row (.configEnterForce num body) rfl).changes s⟩
  case configExit num body => exact ⟨_, rfl, (runRequest_row (.configExit num body) rfl).changes s⟩
  case mapSet num body => exact ⟨_, rfl, (runRequest_row (.mapSet num body) rfl).changes s⟩
  case paramSet num body => exact ⟨_, rfl, (runRequest_row (.paramSet num body) rfl).changes s⟩
  case postureSet num body => exact ⟨_, rfl, (runRequest_row (.postureSet num body) rfl).changes s⟩
  case groupStandby num body => exact ⟨_, rfl, (runRequest_row (.groupStandby num body) rfl).changes s⟩
  case groupWake num body => exact ⟨_, rfl, (runRequest_row (.groupWake num body) rfl).changes s⟩
  case testClaimWait num body => exact ⟨_, rfl, (runRequest_row (.testClaimWait num body) rfl).changes s⟩
  case testClaimForce num body => exact ⟨_, rfl, (runRequest_row (.testClaimForce num body) rfl).changes s⟩
  case testRelease num body => exact ⟨_, rfl, (runRequest_row (.testRelease num body) rfl).changes s⟩
  case slotBlock num body => exact ⟨_, rfl, (runRequest_row (.slotBlock num body) rfl).changes s⟩
  case slotUnblock num body => exact ⟨_, rfl, (runRequest_row (.slotUnblock num body) rfl).changes s⟩
  case trunkRelease num body => exact ⟨_, rfl, (runRequest_row (.trunkRelease num body) rfl).changes s⟩
  case alarmAck num body => exact ⟨_, rfl, (runRequest_row (.alarmAck num body) rfl).changes s⟩
  case queryLine num body => exact ⟨_, rfl, (runRequest_row (.queryLine num body) rfl).changes s⟩
  case querySlots num body => exact ⟨_, rfl, (runRequest_row (.querySlots num body) rfl).changes s⟩
  case queryQueues num body => exact ⟨_, rfl, (runRequest_row (.queryQueues num body) rfl).changes s⟩
  case queryLink num body => exact ⟨_, rfl, (runRequest_row (.queryLink num body) rfl).changes s⟩
  case queryAlarms num body => exact ⟨_, rfl, (runRequest_row (.queryAlarms num body) rfl).changes s⟩
  case warmReset num body => exact ⟨_, rfl, (runRequest_row (.warmReset num body) rfl).changes s⟩
  case unknownRequest num kind body => exact ⟨_, rfl, (runRequest_row (.unknownRequest num kind body) rfl).changes s⟩

/-- What a step does is a sequence of changes. -/
theorem step_changes {s t : State} (h : step s = .next t) : Changes .clock s t := by
  unfold step at h
  split at h
  · next c rest _ =>
    obtain ⟨u, hu, hc⟩ := exec_changes c { s with pending := rest }
    rw [hu] at h
    cases h
    exact (Relation.ReflTransGen.single (.waiting rfl s s.power rest s.freeIndex)).trans hc.toClock
  · cases h
    exact idle_changes s

/-- What every change keeps, every step keeps. -/
theorem step_keeps {I : State → Prop} (h : ∀ s t, Change .clock s t → I s → I t) {s t : State} (hs : I s) (hst : step s = .next t) : I t :=
  (step_changes hst).keeps h hs

end Sys2Proof.Machine
end

