-- ==== Sys2Proof/Proofs/Keeps.lean ====
section
/-! PROOF. The walk through the operations, made once: a property that the few writing operations keep, each in the setting it is used
in, is kept by every effect and by the end of every event. -/

namespace Sys2Proof.Machine

/-- A record of a slot in use or BLOCKED that takes the place of another one and is as far as the invariants of the slots go: it is FREE
where the other one was, it holds no tag but that of the other one, and stays in CLEARING. -/
structure SlotFollows (old new : Slot) : Prop where
  free : new = .free ↔ old = .free
  tag : ∀ t ∈ new.tag?, t ∈ old.tag?
  clearing : old.clearSide?.isSome = true → new.clearSide?.isSome = true

/-- Whether a line may take a call with a called state: it names a slot, or keeps what it named as a called line. -/
def CallKept (st : LineState) (call : Option (SlotId × Direction)) (l : Line) : Prop :=
  st.called = true → call.isSome = true ∨ (l.state.called = true ∧ call = l.call)

/-- How many entries of a queue name no slot. -/
def unnamed (q : List Entry) : Nat := (q.filter fun e => decide (e.slot? = none)).length

/-- The line stands in no cell and not in the ring queue. -/
def OffRing (s : State) (p : Port) : Prop := isPlaced s p = false ∧ p ∉ s.ringQueue

/-- A property is kept by the writing operations of lines, slots and queues, each in the setting it is used in. -/
structure KeepsOps (I : State → Prop) : Prop where
  quiet : ∀ {s t : State}, t.core = s.core → I s → I t
  reports : ∀ {s : State} {q : List Report},
    q.length ≤ s.reports.length ∨ q.length ≤ Config.reportPlaces → I s → I { s with reports := q }
  alarms : ∀ {s : State} {a : List Alarm},
    ((s.alarms.map (·.id)).Nodup → (a.map (·.id)).Nodup) → I s → I (setAlarms a s)
  txq : ∀ {s : State} {q : List Entry},
    (unnamed s.txq ≤ Config.noSlotPlaces → unnamed q ≤ Config.noSlotPlaces) → I s → I (setTxq q s)
  slot : ∀ {s : State} {i : SlotId} {sl : Slot}, SlotFollows (s.slots.at i) sl → I s → I (setSlot i sl s)
  freed : ∀ {s : State} {i : SlotId}, I s → I (freeSlot i s)
  failed : ∀ {s : State} {i : SlotId}, (s.slots.at i).inUse = true → I s →
    I (setSlot i (.blocked .noClearAck) (clearMarkOf i s))
  blocked : ∀ {s : State} {i : SlotId}, s.slots.at i = .free → I s → I (setSlot i (.blocked .cabinet) (setFree (s.free.erase i) s))
  unblocked : ∀ {s : State} {i : SlotId} {why : BlockedReason}, s.slots.at i = .blocked why → I s →
    I (setFree (s.free ++ [i]) (setSlot i .free s))
  reserved : ∀ {s : State} {i : SlotId} {rest : List SlotId} {p : Port} {d : Direction}, s.free = i :: rest → I s → I (reserve i p d s)
  marked : ∀ {s : State} {i : SlotId} {c : Call} {side : ClearSide} {b : Bool}, (s.slots.at i).call? = some c → I s →
    I (setSlot i (.clearing c.line c.tag side b) (setMark (some i) s))
  unmarked : ∀ {s : State}, I s → I (setMark none s)
  port : ∀ {s : State} {p : Port} {r : PortRole}, offers p r = true → (∀ n ∈ r.number?, 1 ≤ n ∧ n ≤ 9999) →
    numberTaken s p r = false → I s → I (setPort p r s)
  moved : ∀ {s : State} {p : Port} {st : LineState} {call : Option (SlotId × Direction)} {timer : Option Nat}, st ≠ .queued →
    CallKept st call (s.lines.at p) → I s → I (moveLine p st call timer s)
  joined : ∀ {s : State} {p : Port} {timer : Option Nat}, (s.lines.at p).state = .idle → s.mode = .normal → I s →
    I (moveLine p .queued none timer (setWaitQueue (joinByClass s p s.waitQueue) s))
  remapped : ∀ {s : State} {p : Port} {c : Scanner} {r : PortRole}, s.mode = .config → (s.lines.at p).call = none → I s →
    I (setLine p (remappedLine c r) s)
  silenced : ∀ {s : State}, I s → I (emptyRing s)
  handed : ∀ {s u : State} {p : Port}, (s.lines.at p).state.called = true →
    (OffRing s p ∨ (I u ∧ (u.lines.at p).state.called = false ∧ u.cells = s.cells ∧ u.ringQueue = s.ringQueue)) → I s → I (handOn p s)
  scanned : ∀ {s : State}, I s → I (scanRing s)
  raised : ∀ {s : State} {p : Posture}, s.posture.rank ≤ p.rank → I s → I { s with posture := p }
  normal : ∀ {s : State}, s.mode = .config → I s → I (setMode .normal s)
  config : ∀ {s : State}, s.mode = .configPending → I s → I (setMode .config s)

/-- A slot with a call that goes to CLEARING keeps its tag. -/
theorem SlotFollows.clearing_of_call {sl : Slot} {c : Call} (hc : sl.call? = some c) (side : ClearSide) (b : Bool) :
    SlotFollows sl (.clearing c.line c.tag side b) := by
  cases sl <;> simp_all [Slot.call?]
  all_goals exact ⟨by simp, fun t ht => by simpa [Slot.tag?, Slot.call?] using ht, fun _ => rfl⟩

/-- The entry that a slot's message replaces names the slot as before. -/
theorem convert_slot (i : SlotId) (m : SlotMsg) (e : Entry) :
    (if e.slot? = some i then e.withSlotMsg m else e).slot? = e.slot? := by
  split
  · obtain ⟨msg, pinned⟩ := e
    cases msg <;> rfl
  · rfl

/-- The call that preemption chooses is one that it may clear. -/
theorem victim_call {s : State} {i : SlotId} {c : Call} (h : victim s = some (i, c)) :
    candidate s i = some c := by
  have step (l : List SlotId) : ∀ best, (∀ x ∈ best, candidate s x.1 = some x.2) →
      ∀ x ∈ l.foldl (fun best i => laterOf best ((candidate s i).map fun c => (i, c))) best, candidate s x.1 = some x.2 := by
    induction l with
    | nil => exact fun best hb => hb
    | cons j l ih =>
      intro best hb
      refine ih _ fun x hx => ?_
      dsimp only [laterOf] at hx
      cases hcand : candidate s j with
      | none =>
        rw [hcand] at hx
        cases best <;> exact hb x hx
      | some d =>
        rw [hcand] at hx
        cases best with
        | none =>
          cases hx
          exact hcand
        | some y =>
          simp only [Option.map_some] at hx
          split at hx
          · cases hx
            exact hcand
          · exact hb x hx
  exact step allSlots none (by simp) (i, c) h

/-- A bare state that ends a call is no called state. -/
theorem LineState.not_called_of_endsCall {st : LineState} (h : st.endsCall = true) : st.called = false := by
  cases st <;> simp_all [LineState.endsCall, LineState.called]

/-- A property is kept, besides, by the effects that take a line, a mode or the link through states that not every
property allows. -/
structure Keeps (I : State → Prop) : Prop extends KeepsOps I where
  shed : ∀ {s : State} {p : Posture}, p.rank < s.posture.rank → I s → I (shedRinging { s with posture := p })
  orderly : ∀ {s : State}, I s → I (enterOrderly s)
  forced : ∀ {s : State}, I s → I (enterForced s)
  judged : ∀ {s : State} (good : Bool), I s → I (judgeLink good s)
  service : ∀ {s : State}, s.link = .resync → I s → I (enterService s)
  resync : ∀ {s : State}, s.link = .recovered → I s → I (enterResync s)

namespace KeepsOps
variable {I : State → Prop} (k : KeepsOps I)
include k

/-! ## Reports, alarms and groups -/

theorem serve {s : State} (h : I s) : I (serve s) := by
  have hc : (Machine.serve s).core = { s with reports := (Machine.serve s).reports }.core := by
    unfold Machine.serve; repeat' split
    all_goals rfl
  exact k.quiet hc (k.reports (.inl (serve_reports s)) h)

theorem report {s : State} (r : Report) (h : I s) : I (report r s) := by
  unfold Machine.report queueReport
  split
  · next hr => exact k.serve (k.reports (.inr (by rw [List.length_append]; exact hr)) h)
  · exact k.serve (k.quiet (s := s) rfl h)

theorem callEvent {s : State} (p : Port) (st : LineState) (r : Reason) (h : I s) : I (callEvent p st r s) := k.report _ h

theorem noteEvent {s : State} (p : Port) (n : Note) (h : I s) : I (noteEvent p n s) := k.report _ h

theorem markAlarm {s : State} (a : AlarmId) (present : Bool) (h : I s) : I (markAlarm a present s) := by
  have ids : (s.alarms.map fun e => if e.id = a then { e with present := present } else e).map (·.id) = s.alarms.map (·.id) := by
    rw [List.map_map]
    refine List.map_congr_left fun e _ => ?_
    dsimp only [Function.comp]
    split <;> rfl
  exact k.alarms (fun hn => by rw [ids]; exact hn) h

theorem beginCondition {s : State} (a : AlarmId) (h : I s) : I (beginCondition a s) := by
  unfold Machine.beginCondition
  split
  · next he =>
    have fresh : a ∉ s.alarms.map (·.id) := fun hm => by
      obtain ⟨e, hmem, hid⟩ := List.mem_map.mp hm
      have := List.find?_eq_none.mp he e hmem
      simp [hid] at this
    refine k.report _ (k.alarms (fun hn => ?_) h)
    rw [List.map_append, List.nodup_append]
    exact ⟨hn, List.nodup_singleton _, fun x hx y hy hxy => fresh (by simp_all)⟩
  · split
    · exact h
    · exact k.report _ (k.markAlarm a true h)

theorem endCondition {s : State} (a : AlarmId) (h : I s) : I (endCondition a s) := by
  unfold Machine.endCondition
  split
  · split
    · exact k.report _ (k.markAlarm a false h)
    · exact h
  · exact h

theorem dropAlarms {s : State} (f : Alarm → Bool) (h : I s) : I (setAlarms (s.alarms.filter f) s) :=
  k.alarms (fun hn => hn.sublist (List.filter_sublist.map _)) h

omit k in
theorem inTurn {α : Type} {f : α → State → State} {s : State} (xs : List α) (hf : ∀ x t, I t → I (f x t)) (h : I s) :
    I (inTurn xs f s) := inTurn_induct I f xs (fun x _ t ht => hf x t ht) s h

theorem setScan {s : State} (p : Port) (c : Scanner) (h : I s) : I (setScan p c s) := k.quiet (s := s) rfl h

theorem setBuffer {s : State} (p : Port) (b : DigitBuffer) (h : I s) : I (setBuffer p b s) := k.quiet (s := s) rfl h

theorem setGroup {s : State} (g : GroupId) (r : Group) (h : I s) : I (setGroup g r s) := k.quiet (s := s) rfl h

theorem setSig {s : State} (i : SlotId) (g : Sig) (h : I s) : I (setSig i g s) := k.quiet (s := s) rfl h

theorem setHookPin {s : State} (p : Port) (b : Bool) (h : I s) : I (setHookPin p b s) := k.quiet (s := s) rfl h

theorem setFaultPin {s : State} (p : Port) (b : Bool) (h : I s) : I (setFaultPin p b s) := k.quiet (s := s) rfl h

theorem setBus {s : State} (b : TestBus) (h : I s) : I (setBus b s) := k.quiet (s := s) rfl h

/-- A line record with its state and its call as they were. -/
theorem setLine {s : State} (p : Port) (l : Line) (hs : l.state = (s.lines.at p).state) (hc : l.call = (s.lines.at p).call)
    (h : I s) : I (setLine p l s) := by
  have lines : ((s.lines.put p l).map fun l => { Line.unequipped with state := l.state, call := l.call })
      = s.lines.map fun l => { Line.unequipped with state := l.state, call := l.call } := by
    refine Table.ext_at fun q => ?_
    by_cases hq : q = p
    · subst hq
      simp only [Table.at, Table.put, Vector.getElem_map, Vector.getElem_set_self] at *
      rw [hs, hc]
    · have := Fin.val_ne_of_ne (Ne.symm hq)
      simp [Table.at, Table.put, this]
  refine k.quiet (s := s) ?_ h
  unfold State.core
  simp only [setLine_lines, lines]
  rfl

theorem clearRuns {s : State} (g : GroupId) (h : I s) : I (clearRuns g s) := KeepsOps.inTurn _ (fun _ _ ht => k.setScan _ _ ht) h

theorem enterStandby {s : State} (g : GroupId) (c : GroupCause) (h : I s) : I (enterStandby g c s) :=
  k.report _ (k.setGroup _ _ (k.clearRuns g h))

theorem enterWaking {s : State} (g : GroupId) (c : GroupCause) (h : I s) : I (enterWaking g c s) :=
  k.report _ (k.setGroup _ _ (k.clearRuns g h))

theorem groupIdle {s : State} (g : GroupId) (h : I s) : I (groupIdle g s) := by
  unfold Machine.groupIdle
  split
  · exact k.enterStandby g _ h
  · exact h

/-! ## Lines -/

theorem grantBus {s : State} (p : Port) (g : Grant) (h : I s) : I (grantBus p g s) :=
  k.report _ (k.callEvent _ _ _ (k.setBus _ (k.moved (by decide) (fun hc => nomatch hc) h)))

theorem enterLine {s : State} (p : Port) (st : LineState) (call : Option (SlotId × Direction)) (timer : Option Nat) (r : Reason)
    (hq : st ≠ .queued) (hc : CallKept st call (s.lines.at p)) (h : I s) : I (enterLine p st call timer r s) := by
  have moved := k.callEvent p st r (k.moved (timer := timer) hq hc h)
  unfold Machine.enterLine
  split
  · exact k.grantBus p _ h
  · dsimp only
    split
    · exact k.groupIdle _ moved
    · exact moved

theorem enterBare {s : State} (p : Port) (st : LineState) (r : Reason) (he : st.endsCall = true) (h : I s) :
    I (enterBare p st r s) := by
  refine k.enterLine p st none none r ?_ ?_ h
  · intro hq; rw [hq] at he; exact nomatch he
  · intro hc
    rw [LineState.not_called_of_endsCall he] at hc
    exact nomatch hc

/-! ## The transmit queue -/

theorem addEntry {s : State} (u : Bool) (i : SlotId) (p : Port) (tag : Nat) (m : SlotMsg) (h : I s) :
    I (addEntry u (.ofSlot i p tag m) s) := by
  have pinned (q : List Entry) : (q.map Entry.pin).filter (fun e => decide (e.slot? = none))
      = (q.filter fun e => decide (e.slot? = none)).map Entry.pin := List.filter_map
  unfold Machine.addEntry
  dsimp only
  split
  · refine k.txq (fun hn => ?_) h
    have hsplit : unnamed s.txq = unnamed (s.txq.take (flightCount s)) + unnamed (queuedEntries s) := by
      unfold unnamed queuedEntries
      rw [← List.length_append, ← List.filter_append, List.take_append_drop]
    rw [hsplit] at hn
    unfold unnamed at *
    rw [List.filter_append, List.filter_cons_of_neg (by simp [Entry.slot?]), pinned, List.length_append, List.length_map]
    exact hn
  · refine k.txq (fun hn => ?_) h
    unfold unnamed at *
    rw [List.filter_append, List.filter_cons_of_neg (by simp [Entry.slot?]), List.filter_nil, List.append_nil]
    exact hn

theorem addFreeEntry {s : State} (m : FreeMsg) (h : I s) : I (addFreeEntry m s) := by
  unfold Machine.addFreeEntry
  split
  · next hp =>
    unfold freePlace at hp
    rw [decide_eq_true_eq] at hp
    refine k.txq (fun _ => ?_) h
    unfold unnamed
    rw [List.filter_append, List.length_append]
    have : (List.filter (fun e => decide (e.slot? = none)) [({ msg := .ofNone m, pinned := false } : Entry)]).length = 1 := rfl
    omega
  · exact h

theorem makeRestart {s : State} (h : I s) : I (makeRestart s) := by
  unfold Machine.makeRestart
  split
  · next hc =>
    have added := k.addFreeEntry .restart h
    unfold Machine.addFreeEntry at added
    rw [if_pos hc.2.2] at added
    exact k.quiet (s := Machine.addEntry false (.ofNone .restart) s) rfl added
  · exact h

theorem addSlotEntry {s : State} (u : Bool) (i : SlotId) (m : SlotMsg) (h : I s) : I (addSlotEntry u i m s) := by
  unfold Machine.addSlotEntry
  split
  · exact k.addEntry _ _ _ _ _ h
  · exact h

/-- Entries that leave the queue leave no more of those that name no slot. -/
theorem filterTxq {s : State} (f : Entry → Bool) (h : I s) : I (setTxq (s.txq.filter f) s) :=
  k.txq (fun hn => Nat.le_trans ((List.filter_sublist.filter _).length_le) hn) h

theorem removeEntries {s : State} (i : SlotId) (h : I s) : I (removeEntries i s) :=
  k.quiet (s := setTxq (s.txq.filter fun e => decide (e.slot? ≠ some i)) s) rfl (k.filterTxq _ h)

theorem convertEntry {s : State} (i : SlotId) (m : SlotMsg) (h : I s) : I (convertEntry i m s) := by
  refine k.txq (fun hn => ?_) h
  unfold unnamed at *
  rw [List.filter_map, List.length_map]
  simpa only [Function.comp_def, convert_slot] using hn

theorem setClearOwed {s : State} (i : SlotId) (o : Option ClearOwed) (h : I s) : I (setClearOwed i o s) := k.setSig _ _ h

theorem stopReplyTimer {s : State} (i : SlotId) (h : I s) : I (stopReplyTimer i s) := k.setSig _ _ h

theorem makeLineOwed {s : State} (i : SlotId) (p : Port) (h : I s) : I (makeLineOwed i p s) := by
  unfold Machine.makeLineOwed
  dsimp only
  split
  · exact k.addSlotEntry _ _ _ (k.setLine _ _ rfl rfl h)
  · split
    · exact k.addSlotEntry _ _ _ (k.setLine _ _ rfl rfl h)
    · split
      · exact k.addSlotEntry _ _ _ h
      · exact h

theorem makeOwed {s : State} (i : SlotId) (h : I s) : I (makeOwed i s) := by
  unfold Machine.makeOwed
  split
  · exact h
  · split
    · exact k.addSlotEntry _ _ _ (k.setClearOwed _ _ h)
    · split
      · exact k.makeLineOwed _ _ h
      · exact h

/-! ## Slots leaving their calls -/

theorem supersede {s : State} (i : SlotId) (o : ClearOwed) (h : I s) : I (supersede i o s) := by
  unfold Machine.supersede
  split
  · split
    · exact k.freed (k.removeEntries i h)
    · exact k.convertEntry _ _ h
  · split
    · exact k.setClearOwed _ _ h
    · exact k.addSlotEntry _ _ _ h

theorem releaseOwing {s : State} (i : SlotId) (o : ClearOwed) (h : I s) : I (releaseOwing i o s) := by
  unfold Machine.releaseOwing
  split
  · next c hc => exact k.supersede i o (k.stopReplyTimer i (k.slot (SlotFollows.clearing_of_call hc _ _) h))
  · exact h

theorem releaseLine {s : State} (p : Port) (r : Reason) (h : I s) : I (releaseLine p r s) := by
  unfold Machine.releaseLine releaseLineLocally releaseLineOwing
  split
  · split
    · exact k.freed h
    · exact h
  · split
    · exact k.releaseOwing _ _ h
    · exact h

theorem endLine {s : State} (p : Port) (st : LineState) (r : Reason) (he : st.endsCall = true) (h : I s) : I (endLine p st r s) :=
  k.enterBare p st r he (k.releaseLine p r h)

/-! ## The end of an event -/

theorem admitLine {s : State} {p : Port} {i : SlotId} {rest : List SlotId} (hf : s.free = i :: rest) (h : I s) :
    I (admitLine p i s) :=
  k.addSlotEntry _ _ _ (k.enterLine p .seizing _ _ _ (by decide) (fun hc => nomatch hc) (k.reserved hf h))

theorem admitHeads (n : Nat) {s : State} (h : I s) : I (admitHeads n s) := by
  induction n generalizing s with
  | zero => exact h
  | succ n ih =>
    unfold Machine.admitHeads
    split
    · next hf =>
      split
      · exact ih (k.admitLine hf h)
      · exact h
    · exact h

theorem preempt {s : State} {i : SlotId} {c : Call} (p : Port) (hc : (s.slots.at i).call? = some c) (h : I s) : I (preempt i p s) := by
  have marked : I (Machine.releaseOwing i (.clear .preempted) (setMark (some i) s)) := by
    unfold Machine.releaseOwing
    simp only [setMark_slots, hc]
    exact k.supersede i _ (k.stopReplyTimer i (k.marked hc h))
  have ended := fun st r he => k.enterBare p st r he marked
  unfold Machine.preempt
  dsimp only
  split
  · exact k.scanned (ended _ _ (by split <;> rfl))
  · exact ended _ _ (by split <;> rfl)

theorem attemptRound {s : State} (h : I s) : I (attemptRound s).1 := by
  have admitted := k.admitHeads s.free.length h
  unfold Machine.attemptRound
  dsimp only
  split
  · split
    · next i c hv =>
      have hcand := victim_call hv
      have hcall : ((Machine.admitHeads s.free.length s).slots.at i).call? = some c := by
        unfold candidate at hcand
        exact (Option.filter_eq_some_iff.mp hcand).1
      exact k.preempt c.line hcall admitted
    · exact admitted
  · exact admitted

theorem attempt {s : State} (h : I s) : I (attempt s) := by
  have rounds (n : Nat) : ∀ {s}, I s → I (attemptRounds n s) := by
    induction n with
    | zero => exact fun h => h
    | succ n ih =>
      intro s h
      unfold attemptRounds
      dsimp only
      split
      · exact ih (k.attemptRound h)
      · exact k.attemptRound h
  exact rounds 21 h

theorem stopHoldover {s : State} (h : I s) : I (stopHoldover s) := by
  unfold Machine.stopHoldover
  split
  · exact h
  · exact k.quiet (s := s) rfl h

theorem endPending {s : State} (h : I s) : I (endPending s) := by
  unfold Machine.endPending
  split
  · next hc => exact k.report _ (k.config hc.1 h)
  · exact h

/-- What the operations keep, the end of an event keeps. -/
theorem finish {s t : State} (h : I t) : I (finish s t) := by
  unfold Machine.finish
  dsimp only
  refine k.endPending (k.stopHoldover ?_)
  have room : I (if roomGained s t = true then scanRing t else t) := by
    split
    · exact k.scanned h
    · exact h
  split
  · exact k.attempt room
  · exact room

end KeepsOps

end Sys2Proof.Machine
end

