-- ==== Sys2Proof/Proofs/KeepsEffects.lean ====
section
/-! PROOF. What the writing operations keep, every effect and every change keeps. -/

namespace Sys2Proof.Machine

/-! ## Slot records that follow one another -/

theorem SlotFollows.busy_of_call (c d : Call) (b : Bool) (ht : d.tag = c.tag) {sl : Slot} (hs : sl.call? = some c) :
    SlotFollows sl (.busy d b) := by
  refine ⟨?_, ?_, ?_⟩
  · cases sl <;> simp_all [Slot.call?]
  · cases sl <;> simp_all [Slot.call?, Slot.tag?]
  · cases sl <;> simp_all [Slot.call?, Slot.clearSide?]

theorem SlotFollows.held_of_busy (c : Call) (b : Bool) : SlotFollows (.busy c b) (.held c b) :=
  ⟨by simp, fun t ht => by simpa [Slot.tag?, Slot.call?] using ht, fun h => nomatch h⟩

theorem SlotFollows.turned (p : Port) (t : Nat) (a side : ClearSide) (b b' : Bool) :
    SlotFollows (.clearing p t a b) (.clearing p t side b') :=
  ⟨by simp, fun _ h => h, fun _ => rfl⟩

theorem SlotFollows.withBlockPending (b : Bool) (sl : Slot) : SlotFollows sl (sl.withBlockPending b) := by
  have same : (sl.withBlockPending b).tag? = sl.tag? := by cases sl <;> rfl
  refine ⟨?_, fun t ht => same ▸ ht, fun h => ?_⟩
  · cases sl <;> simp [Slot.withBlockPending]
  · cases sl <;> exact h

theorem checkWord_core (frame : List Byte) (s : State) : (checkWord frame s).core = s.core := by
  unfold checkWord
  repeat' split
  all_goals rfl

theorem huntFrom_core (stream : List (Option Byte)) (n : Nat) (s : State) : (huntFrom stream n s).core = s.core := by
  unfold huntFrom
  split <;> rfl

theorem trackAlignment_core (octets : List Byte) (s : State) : (trackAlignment octets s).core = s.core := by
  have last (t : State) (o : Option Byte) : ({ t with lastOctet := o } : State).core = t.core := rfl
  have head (t : State) (f : List Byte) : ({ t with frameHead := f } : State).core = t.core := rfl
  unfold trackAlignment
  dsimp only
  rw [last]
  split
  · rw [head]
    split
    · exact checkWord_core _ s
    · rfl
  · split
    · exact huntFrom_core _ _ s
    · split
      · rfl
      · exact huntFrom_core _ _ s

/-- The judgement of a frame writes of itself only alignment, bearer octets and the assembler. -/
theorem judged_core (octets : List Byte) (s : State) (a : Assembler) (good : Bool) (frame : List Byte) :
    (takeBearer good frame (trackAlignment octets { s with assembler := a })).core = s.core := by
  have bearer (t : State) : (takeBearer good frame t).core = t.core := by
    unfold takeBearer State.core
    rfl
  rw [bearer, trackAlignment_core]
  rfl

theorem countTimers_core (s : State) : (countTimers s).core = s.core := by
  have lines : (countTimers s).core.lines = s.core.lines := Vector.map_map ..
  have rest : (countTimers s).core = { s.core with lines := (countTimers s).core.lines } := rfl
  rw [rest, lines]

/-- One millisecond writes no field that an invariant of the queues, slots, ports or ringing speaks of. -/
theorem tick_core (s : State) : (tick s).core = { s with pending := eventsOfMs s }.core := by
  have sent (t : State) : (transmitFrame t).core = t.core := rfl
  have carried (t : State) : (carryRecord t).core = t.core := rfl
  have sampled (t : State) : (sampleAll t).core = t.core := rfl
  have waiting (t : State) (q : List Instr) : ({ t with pending := q } : State).core = { t.core with pending := q } := rfl
  unfold tick
  rw [waiting, waiting s, sampled, carried, sent, countTimers_core]

/-- A line that is not called and enters a state other than IDLE, with no claim to grant, leaves the ringing as it is. -/
theorem enterLine_ring {s : State} {p : Port} {st : LineState} (call : Option (SlotId × Direction)) (timer : Option Nat) (r : Reason)
    (he : st.endsCall = false) (hc : (s.lines.at p).state.called = false) :
    (enterLine p st call timer r s).cells = s.cells ∧ (enterLine p st call timer r s).ringQueue = s.ringQueue := by
  have hidle : st ≠ .idle := by rintro rfl; exact nomatch he
  have hm : (moveLine p st call timer s).cells = s.cells ∧ (moveLine p st call timer s).ringQueue = s.ringQueue := by
    unfold moveLine
    simp only [hc, Bool.false_eq_true, false_and, if_false]
    repeat' split
    all_goals exact ⟨rfl, rfl⟩
  unfold enterLine
  simp only [he, Bool.false_eq_true, false_and, if_false, hidle]
  exact ⟨(congrArg State.cells (callEvent_port p st r (moveLine p st call timer s)) :).trans hm.1,
    (congrArg State.ringQueue (callEvent_port p st r (moveLine p st call timer s)) :).trans hm.2⟩

/-- A line that enters a called state is in it. -/
theorem enterLine_called {s : State} {p : Port} {st : LineState} (call : Option (SlotId × Direction)) (timer : Option Nat) (r : Reason)
    (hc : st.called = true) : ((enterLine p st call timer r s).lines.at p).state.called = true := by
  have he : st.endsCall = false := by cases st <;> first | rfl | exact nomatch hc
  have hidle : st ≠ .idle := by rintro rfl; exact nomatch hc
  unfold enterLine
  simp only [he, Bool.false_eq_true, false_and, if_false, hidle]
  unfold callEvent
  rw [(report_records _ _).1, moveLine_lines, Table.at_put_same]
  exact hc

theorem reserve_lines (i : SlotId) (p : Port) (d : Direction) (s : State) : (reserve i p d s).lines = s.lines := by
  have order (t : State) : (advanceOrder t).lines = t.lines := by
    unfold advanceOrder
    split <;> rfl
  exact order _

theorem clearRuns_lines (g : GroupId) (s : State) : (clearRuns g s).lines = s.lines :=
  inTurn_keeps State.lines (fun p t => setScan p (t.scan.at p).runsCleared t) (fun _ _ => rfl) _ s

theorem wakeForIncoming_lines (p : Port) (s : State) : (wakeForIncoming p s).lines = s.lines := by
  unfold wakeForIncoming enterWaking
  split
  · rw [(report_records _ _).1, setGroup_lines, clearRuns_lines]
  · rfl

/-- An entry made for a slot writes the transmit queue alone. -/
theorem addSlotEntry_txq (u : Bool) (i : SlotId) (m : SlotMsg) (s : State) : ∃ q, addSlotEntry u i m s = setTxq q s := by
  unfold addSlotEntry addEntry
  dsimp only
  split
  · split
    · exact ⟨_, rfl⟩
    · exact ⟨_, rfl⟩
  · exact ⟨s.txq, rfl⟩

/-- An INCOMING that is not refused is for an IDLE line. -/
theorem idle_of_incomingRefusal {s : State} {p : Port} (h : incomingRefusal s p = none) : (s.lines.at p).state = .idle := by
  unfold incomingRefusal at h
  by_contra hs
  simp only [ne_eq, hs, not_false_eq_true, if_true] at h
  repeat' split at h
  all_goals exact nomatch h

/-- A MAP_SET that is accepted comes in CONFIG, for a role that the port offers, a number that no other port has and a port that is not
busy. -/
theorem mapSet_accepted {body : List Byte} {s : State} {p : Port} {r : PortRole} (ha : mapSetRefusal body s = none)
    (ht : mapSetTarget body = some (p, r)) :
    s.mode = .config ∧ offers p r = true ∧ numberTaken s p r = false ∧ portBusy s p = false := by
  unfold mapSetRefusal at ha
  rw [ht] at ha
  split at ha
  · exact nomatch ha
  · split at ha
    · exact nomatch ha
    · next hm =>
      dsimp only at ha
      simp only [Decidable.not_not] at hm
      cases ho : offers p r <;> cases hn : numberTaken s p r <;> cases hb : portBusy s p <;> simp_all

/-- The number of a role that a MAP_SET names is from 1 to 9999. -/
theorem mapSetTarget_number {body : List Byte} {p : Port} {r : PortRole} (ht : mapSetTarget body = some (p, r)) :
    ∀ n ∈ r.number?, 1 ≤ n ∧ n ≤ 9999 := by
  unfold mapSetTarget at ht
  split at ht
  · next role number cls _ =>
    obtain ⟨q, -, hq⟩ := Option.bind_eq_some_iff.mp ht
    obtain ⟨r', hr, he⟩ := Option.map_eq_some_iff.mp hq
    cases he
    unfold mapSetRole at hr
    split at hr
    · cases hr; exact fun n hn => nomatch hn
    · split at hr
      · next hb =>
        split at hr <;> cases hr <;> (intro n hn; cases hn; exact hb)
      · exact nomatch hr
    · split at hr
      · next hb => cases hr; intro n hn; cases hn; exact hb
      · exact nomatch hr
    · cases hr; exact fun n hn => nomatch hn
    · exact nomatch hr
  · exact nomatch ht

/-- The link stands while the held calls are lost or settled. -/
theorem releaseHeld_calls (s : State) : (releaseHeld s).apartFromCalls = s.apartFromCalls := by
  refine inTurn_keeps State.apartFromCalls _ (fun i t => ?_) _ s
  split
  · exact freeSlot_calls i t
  · rfl

theorem loseHeld_calls (r : Reason) (p : Port) (s : State) : (loseHeld r p s).apartFromCalls = s.apartFromCalls := by
  unfold loseHeld
  split <;> simp

theorem lostHeld_link (r : Reason) (ps : List Port) (s : State) : (inTurn ps (loseHeld r) (releaseHeld s)).link = s.link := by
  have h := (inTurn_keeps State.apartFromCalls _ (loseHeld_calls r) ps (releaseHeld s)).trans (releaseHeld_calls s)
  exact (congrArg State.link h :)

theorem settleSlot_calls (tags : List Byte) (i : SlotId) (s : State) : (settleSlot tags i s).apartFromCalls = s.apartFromCalls := by
  unfold settleSlot
  split
  · split <;> simp
  · rfl

theorem settled_link (tags : List Byte) (s : State) :
    (removeQueuedRestart (inTurn allSlots (settleSlot tags) s)).link = s.link := by
  have removed (t : State) : (removeQueuedRestart t).link = t.link := rfl
  have settled := inTurn_keeps State.apartFromCalls _ (settleSlot_calls tags) allSlots s
  have link (t : State) : t.apartFromCalls.link = t.link := rfl
  rw [removed, ← link, settled, link]

namespace KeepsOps
variable {I : State → Prop} (k : KeepsOps I)
include k

/-! ## Hook, fault and contacts -/

theorem offHookSample {s : State} (p : Port) (h : I s) : I (offHookSample p s) := k.setHookPin _ _ (k.setScan _ _ h)

theorem onHookSample {s : State} (p : Port) (run : Nat) (h : I s) : I (onHookSample p run s) :=
  k.setHookPin _ _ (k.setScan _ _ h)

theorem queueLine {s : State} {p : Port} (hs : (s.lines.at p).state = .idle) (hm : s.mode = .normal) (h : I s) :
    I (queueLine p s) := by
  unfold Machine.queueLine Machine.enterLine
  rw [if_neg (fun hc => nomatch hc.1)]
  exact k.callEvent _ _ _ (k.joined hs hm h)

theorem answerCall {s : State} (p : Port) (h : I s) : I (answerCall p s) := by
  unfold Machine.answerCall
  split
  · next i _ =>
    split
    · next c b hi =>
      exact k.makeOwed _ (k.enterLine _ _ _ _ _ (by decide) (fun hc => nomatch hc)
        (k.setLine _ _ rfl rfl (k.slot (.busy_of_call c { c with answered := true } b rfl (congrArg Slot.call? hi)) h)))
    · exact h
  · exact h

theorem takeOffHook {s : State} (p : Port) (h : I s) : I (takeOffHook p s) := by
  unfold Machine.takeOffHook
  split
  · next hs =>
    split
    · next hm => exact k.queueLine hs hm h
    · exact k.enterBare _ _ _ rfl h
  · exact k.answerCall p h
  · exact k.answerCall p h
  · exact h

theorem acceptFault {s : State} (p : Port) (present : Bool) (h : I s) : I (acceptFault p present s) :=
  k.setLine _ _ rfl rfl (k.setFaultPin _ _ (k.setScan _ _ h))

theorem takeFault {s : State} (p : Port) (h : I s) : I (takeFault p s) := by
  have accepted := k.acceptFault p true (k.beginCondition (.lineFault p) h)
  unfold Machine.takeFault faultLine
  split
  · exact accepted
  · exact k.endLine _ _ _ rfl accepted

theorem wakeForFault {s : State} (p : Port) (h : I s) : I (wakeForFault p s) := by
  unfold Machine.wakeForFault
  split
  · exact k.enterWaking _ _ h
  · exact h

theorem takeFaultClear {s : State} (p : Port) (h : I s) : I (takeFaultClear p s) := by
  have accepted := k.acceptFault p false (k.endCondition (.lineFault p) h)
  unfold Machine.takeFaultClear
  dsimp only
  split
  · exact k.enterBare _ _ _ rfl accepted
  · exact accepted

theorem takeContact {s : State} (p : Port) (c : ContactState) (h : I s) : I (takeContact p c s) := by
  unfold Machine.takeContact
  cases c
  · exact k.endCondition _ (k.report _ h)
  · exact k.beginCondition _ (k.report _ h)

theorem slowContact {s : State} (closed : BitVec 8) (p : Port) (h : I s) : I (slowContact closed p s) := by
  unfold Machine.slowContact
  dsimp only
  split
  · exact k.takeContact _ _ (k.setScan _ _ h)
  · exact h

theorem slowSample {s : State} (g : GroupId) (closed faulty : BitVec 8) (h : I s) : I (slowSample g closed faulty s) := by
  have contacts : I (Machine.inTurn (portsOf g) (Machine.slowContact closed) (nextSlowSample g (sampledPins g closed faulty s))) := by
    refine KeepsOps.inTurn _ (fun p _ ht => k.slowContact closed p ht) ?_
    exact k.setGroup _ _ (KeepsOps.inTurn _ (fun _ _ ht => k.setFaultPin _ _ (k.setHookPin _ _ ht)) h)
  unfold Machine.slowSample
  dsimp only
  split
  · exact KeepsOps.inTurn _ (fun p _ ht => k.takeFault p ht) (k.enterWaking _ _ contacts)
  · split
    · exact k.enterWaking _ _ contacts
    · exact contacts

theorem takeFlash {s : State} (p : Port) (h : I s) : I (takeFlash p s) := by
  have owed := k.setLine p { s.lines.at p with flashOwed := true } rfl rfl h
  unfold Machine.takeFlash
  split
  · dsimp only
    split
    · exact k.makeOwed _ owed
    · exact owed
  · exact k.noteEvent _ _ h

theorem endBreak {s : State} (p : Port) (ms : Nat) (h : I s) : I (endBreak p ms s) := by
  unfold Machine.endBreak classifyBreak endOpenRun
  dsimp only
  split
  · split
    · split
      · exact k.setScan _ _ (k.setHookPin _ _ h)
      · split
        · exact k.setScan _ _ (k.setHookPin _ _ h)
        · exact k.takeFlash _ (k.setScan _ _ (k.setHookPin _ _ h))
    · exact h
  · split
    · exact k.setHookPin _ _ (k.setScan _ _ h)
    · exact h

theorem completeDigit {s : State} (p : Port) (h : I s) : I (completeDigit p s) := by
  unfold Machine.completeDigit offerDigit
  dsimp only
  split
  · exact k.noteEvent _ _ (k.setScan _ _ h)
  · split
    · split
      · exact k.makeOwed _ (k.setBuffer _ _ (k.setScan _ _ h))
      · exact k.setBuffer _ _ (k.setScan _ _ h)
    · exact k.noteEvent _ _ (k.setBuffer _ _ (k.setScan _ _ h))

/-! ## Ringing -/

theorem handOnSettled {s : State} (p : Port) (h : I s) : I (handOnSettled p s) := by
  unfold Machine.handOnSettled
  split
  · next hc => exact k.handed (u := s) (by rw [hc.1]; rfl) (.inl hc.2) h
  · exact h

theorem endSettle {s : State} (g : GroupId) (h : I s) : I (endSettle g s) :=
  KeepsOps.inTurn _ (fun p _ ht => k.handOnSettled p ht) (k.report _ (k.setGroup _ _ (k.clearRuns g h)))

theorem ringLine {s : State} (e : Placed) (h : I s) : I (ringLine e s) := by
  unfold Machine.ringLine
  dsimp only
  split
  · next hs => exact k.enterLine _ _ _ _ _ (by decide) (fun _ => .inr ⟨by rw [hs]; rfl, rfl⟩) h
  · exact h

theorem beginPhase {s : State} (h : I s) : I (beginPhase s) := by
  have driven (t : State) (ht : I t) : I (driveRunningPhase t) :=
    k.quiet (s := t) (by unfold driveRunningPhase State.core; rfl) ht
  unfold Machine.beginPhase
  exact KeepsOps.inTurn _ (fun e _ ht => k.ringLine e ht) (driven _ (k.quiet (s := s) rfl h))

/-! ## The link -/

theorem linkEvent {s : State} (h : I s) : I (linkEvent s) := k.report _ h

theorem takeGrade {s : State} (hl : I (setLink (gradeOf s.score) s)) (h : I s) : I (takeGrade s) := by
  have told := k.linkEvent hl
  unfold Machine.takeGrade
  dsimp only
  split
  · exact h
  · split
    · exact k.beginCondition _ told
    · split
      · exact k.endCondition _ told
      · exact told

theorem enterService {s : State} (h : I (setLink (gradeOf s.score) s)) : I (enterService s) := by
  have told : I (Machine.linkEvent (setLink (gradeOf s.score) { s with restartTimer := none, restartOwed := false })) :=
    k.linkEvent (k.quiet (s := setLink (gradeOf s.score) s) rfl h)
  unfold Machine.enterService
  dsimp only
  split
  · exact k.beginCondition _ (k.endCondition _ told)
  · exact k.endCondition _ told

theorem oweRestart {s : State} (again : Bool) (h : I s) : I (oweRestart again s) := k.makeRestart (k.quiet (s := s) rfl h)

theorem enterResync {s : State} (h : I (setLink .resync { s with score := 0 })) : I (enterResync s) :=
  k.oweRestart _ (k.linkEvent (k.quiet (s := setLink .resync { s with score := 0 }) rfl h))

theorem clearSignalling {s : State} (h : I s) : I (clearSignalling s) :=
  k.quiet (s := setTxq [] s) rfl (k.txq (fun _ => Nat.zero_le _) h)

theorem downSlot {s : State} (i : SlotId) (h : I s) : I (downSlot i s) := by
  unfold Machine.downSlot
  split
  · next c b hi =>
    split
    · exact k.freed h
    · exact k.slot (by rw [hi]; exact .held_of_busy c b) h
  · exact k.freed h
  · exact k.freed h
  · exact h

theorem downLine {s : State} (p : Port) (h : I s) : I (downLine p s) := by
  have held : I (Machine.enterLine p .holdover (s.lines.at p).call none .outOfService s) :=
    k.enterLine _ _ _ _ _ (by decide) (fun hc => nomatch hc) h
  unfold Machine.downLine
  dsimp only
  split
  · split
    · exact k.enterBare _ _ _ rfl h
    · exact held
  · split
    · exact k.enterBare _ _ _ rfl h
    · exact held
  all_goals first | exact k.enterBare _ _ _ rfl h | exact h

theorem enterDown {s : State} (h : I (setLink .down { s with score := Config.scoreTop })) : I (enterDown s) := by
  have told : I (Machine.linkEvent (setLink .down { s with score := Config.scoreTop, run := 0 })) :=
    k.linkEvent (k.quiet (s := setLink .down { s with score := Config.scoreTop }) rfl h)
  have slots := KeepsOps.inTurn allSlots (fun i _ ht => k.downSlot i ht)
    (k.clearSignalling (k.beginCondition .trunkDown (k.endCondition .linkImpaired told)))
  have lines := KeepsOps.inTurn allPorts (fun p _ ht => k.downLine p ht) (k.silenced (k.unmarked slots))
  have timed (t : State) (ht : I t) : I (startHoldover t) := k.quiet (s := t) rfl ht
  exact timed _ lines

theorem releaseHeld {s : State} (h : I s) : I (releaseHeld s) := by
  refine KeepsOps.inTurn _ (fun i t ht => ?_) h
  split
  · exact k.freed ht
  · exact ht

theorem loseHeld {s : State} (r : Reason) (p : Port) (h : I s) : I (loseHeld r p s) := by
  unfold Machine.loseHeld
  split
  · exact k.enterBare _ _ _ rfl h
  · exact h

theorem expireHoldover {s : State} (h : I s) : I (expireHoldover s) :=
  KeepsOps.inTurn _ (fun p _ ht => k.loseHeld _ p ht) (k.releaseHeld (k.quiet (s := s) rfl h))

theorem settleSlot {s : State} (tags : List Byte) (i : SlotId) (h : I s) : I (settleSlot tags i s) := by
  unfold Machine.settleSlot
  split
  · next c b hi =>
    split
    · refine k.enterLine _ _ _ _ _ ?_ ?_ (k.slot (.busy_of_call c c b rfl (by rw [hi]; rfl)) h)
      · cases c.direction <;> simp [restoredState]
      · intro hc; cases hd : c.direction <;> rw [hd] at hc <;> exact nomatch hc
    · exact k.enterBare _ _ _ rfl (k.freed h)
  · exact h

/-! ## Signalling -/

theorem expireSeize {s : State} (i : SlotId) (h : I s) : I (expireSeize i s) := by
  unfold Machine.expireSeize
  split
  · split
    · exact k.addSlotEntry _ _ _ (k.stopReplyTimer _ h)
    · split
      · exact k.enterBare _ _ _ rfl (k.releaseOwing _ _ h)
      · exact h
  · exact h

theorem expireClear {s : State} (i : SlotId) (h : I s) : I (expireClear i s) := by
  unfold Machine.expireClear failClear
  split
  · next hi =>
    split
    · exact k.addSlotEntry _ _ _ (k.stopReplyTimer _ h)
    · split
      · refine k.beginCondition _ (k.failed ?_ (k.setSig _ _ h))
        rw [setSig_slots, hi]
        rfl
      · exact h
  · exact h

theorem messageSent {s : State} (m : Msg) (h : I s) : I (messageSent m s) := by
  unfold Machine.messageSent
  split
  · unfold seizeSent startReplyTimer
    dsimp only
    split
    · split
      · exact k.setSig _ _ (k.setSig _ _ h)
      · exact k.setSig _ _ h
    · exact k.setSig _ _ h
  · exact k.setSig _ _ h
  · exact k.setBuffer _ _ h
  · unfold clearSentNow startReplyTimer
    dsimp only
    split
    · exact k.setSig _ _ (k.setSig _ _ h)
    · exact k.setSig _ _ h
  · unfold clearAckSent
    split
    · exact k.freed h
    · exact h
  · unfold restartSent
    split
    · exact k.quiet (s := s) rfl h
    · exact h
  · exact h

theorem completeEntry {s : State} (h : I s) : I (completeEntry s) := by
  unfold Machine.completeEntry makeNext
  split
  · next e rest hq =>
    have left : I { s with txq := rest, inFlight := none } := by
      refine k.quiet (s := setTxq rest s) rfl (k.txq (fun hn => Nat.le_trans ?_ hn) h)
      unfold unnamed
      rw [hq]
      exact ((List.sublist_cons_self e rest).filter _).length_le
    refine k.makeRestart ?_
    split
    · exact k.makeOwed _ (k.messageSent _ left)
    · exact k.messageSent _ left
  · exact h

theorem startSending {s : State} (q : List Entry) (hq : unnamed q ≤ unnamed s.txq) (h : I s) : I (startSending q s) := by
  induction q with
  | nil => exact k.txq (fun _ => Nat.zero_le _) h
  | cons e rest ih =>
    unfold Machine.startSending
    split
    · exact ih (Nat.le_trans ((List.sublist_cons_self e rest).filter _).length_le hq)
    · have queue : I (setTxq (e :: rest) s) := k.txq (fun hn => Nat.le_trans hq hn) h
      unfold startEntry lendDigits
      dsimp only
      split
      · exact k.quiet (s := setTxq (e :: rest) s) rfl queue
      · exact k.quiet (s := setTxq (e :: rest) s) rfl queue

theorem takeAccept {s : State} (tag : Byte) (h : I s) : I (takeAccept tag s) := by
  unfold Machine.takeAccept
  split
  · next i c b ha =>
    have hi : (s.slots.at i).call? = some c := by
      unfold awaitingReply at ha
      split at ha
      · split at ha
        · split at ha
          · simp_all [Slot.call?]
          · exact nomatch ha
        · exact nomatch ha
      · exact nomatch ha
    refine k.makeOwed _ (k.enterLine _ _ _ _ _ (by decide) (fun hc => nomatch hc)
      (k.slot (.busy_of_call c c b rfl ?_) (k.removeEntries _ (k.stopReplyTimer _ h))))
    exact hi
  · exact h

theorem takeReject {s : State} (tag : Byte) (r : Reason) (h : I s) : I (takeReject tag r s) := by
  unfold Machine.takeReject
  split
  · exact k.enterBare _ _ _ rfl (k.freed (k.removeEntries _ (k.stopReplyTimer _ h)))
  · exact h

theorem takeProgress {s : State} (tag : Byte) (h : I s) : I (takeProgress tag s) := by
  unfold Machine.takeProgress
  split
  · split
    · next c b hi =>
      split
      · exact k.slot (.busy_of_call c { c with answered := true } b rfl (congrArg Slot.call? hi)) h
      · exact h
    · exact h
  · exact h

theorem collide {s : State} {i : SlotId} {p : Port} {tag : Nat} {side : ClearSide} {b : Bool}
    (hi : s.slots.at i = .clearing p tag side b) (h : I s) : I (collide i p tag b s) := by
  have turned : I (Machine.stopReplyTimer i (setSlot i (.clearing p tag .oweAck b) s)) :=
    k.stopReplyTimer i (k.slot (by rw [hi]; exact .turned p tag side .oweAck b b) h)
  unfold Machine.collide
  dsimp only
  split
  · exact k.convertEntry _ _ turned
  · split
    · exact k.setClearOwed _ _ turned
    · exact k.addSlotEntry _ _ _ turned

theorem clearCall {s : State} (i : SlotId) (c : Call) (r : Reason) (h : I s) : I (clearCall i c r s) := by
  refine k.enterBare _ _ _ ?_ (k.releaseOwing _ _ h)
  unfold clearedState
  split <;> rfl

theorem takeHeadClear {s : State} (tag : Byte) (r : Reason) (h : I s) : I (takeHeadClear tag r s) := by
  unfold Machine.takeHeadClear
  cases hb : (slotOfTag s tag.toNat).bind fun i => clearBySlot i r s with
  | none => exact k.addFreeEntry _ h
  | some t =>
    obtain ⟨i, -, ht⟩ := Option.bind_eq_some_iff.mp hb
    unfold clearBySlot at ht
    show I t
    split at ht
    · cases ht; exact h
    · next hi =>
      split at ht
      · cases ht; exact k.collide hi h
      · exact nomatch ht
    case h_6 => exact nomatch ht
    all_goals
      split at ht
      · cases ht; exact k.clearCall _ _ _ h
      · exact nomatch ht

theorem takeHeadClearAck {s : State} (tag : Byte) (h : I s) : I (takeHeadClearAck tag s) := by
  unfold Machine.takeHeadClearAck
  split
  · split
    · split
      · exact k.freed (k.removeEntries _ h)
      · exact h
    · exact h
  · exact h

theorem takeFlow {s : State} (f : FlowCommand) (h : I s) : I (takeFlow f s) := by
  have stopped : I { s with flow := .stopped, inFlight := none } := k.quiet (s := s) rfl h
  have returned (m : Msg) (ds : List Digit) : I (returnDigits m ds { s with flow := .stopped, inFlight := none }) := by
    unfold returnDigits
    split
    · dsimp only
      split
      · exact k.setBuffer _ _ stopped
      · exact stopped
    · exact stopped
  unfold Machine.takeFlow
  cases f with
  | stopAfter => exact k.quiet (s := s) rfl h
  | go => exact k.quiet (s := s) rfl h
  | stopNow =>
    dsimp only
    split
    · unfold stopNow
      dsimp only
      split
      · unfold returnEntry
        dsimp only
        split
        · unfold meetOwed
          split
          · split
            · exact k.freed (k.removeEntries _ (returned _ _))
            · exact k.convertEntry _ _ (k.setClearOwed _ _ (returned _ _))
          · exact k.convertEntry _ _ (k.setClearOwed _ _ (returned _ _))
          · exact returned _ _
        · exact returned _ _
      · exact k.quiet (s := s) rfl h
    · exact h

/-! ## INCOMING -/

theorem wakeForIncoming {s : State} (p : Port) (h : I s) : I (wakeForIncoming p s) := by
  unfold Machine.wakeForIncoming
  split
  · exact k.enterWaking _ _ h
  · exact h

theorem admitIncoming {s : State} {p : Port} {i : SlotId} {rest : List SlotId} (ref : BitVec 16)
    (hs : (s.lines.at p).state = .idle) (hf : s.free = i :: rest) (h : I s) : I (admitIncoming p i ref s) := by
  have woken := k.wakeForIncoming p (k.reserved (p := p) (d := .inward) hf h)
  have idle : ((Machine.wakeForIncoming p (reserve i p .inward s)).lines.at p).state.called = false := by
    rw [wakeForIncoming_lines, reserve_lines, hs]
    rfl
  unfold Machine.admitIncoming
  generalize Machine.wakeForIncoming p (reserve i p .inward s) = u at woken idle
  dsimp only
  have offered := k.enterLine p .offered (some (i, .inward)) (some (1000 * s.params.ringLimit)) .normal (by decide)
    (fun _ => .inl rfl) woken
  have ring := enterLine_ring (some (i, .inward)) (some (1000 * s.params.ringLimit)) .normal (st := .offered) rfl idle
  have called := enterLine_called (some (i, .inward)) (some (1000 * s.params.ringLimit)) .normal (s := u) (p := p) (st := .offered) rfl
  have made := k.addSlotEntry (isPriority s p) i (.offer ref) offered
  obtain ⟨q, hq⟩ := addSlotEntry_txq (isPriority s p) i (.offer ref)
    (Machine.enterLine p .offered (some (i, .inward)) (some (1000 * s.params.ringLimit)) .normal u)
  unfold handOnAtOnce
  split
  · refine k.handed (u := u) ?_ (.inr ⟨woken, idle, ?_, ?_⟩) made
    · rw [hq]; exact called
    · rw [hq]; exact ring.1.symm
    · rw [hq]; exact ring.2.symm
  · exact made

theorem takeIncoming {s : State} (ref number : BitVec 16) (h : I s) : I (takeIncoming ref number s) := by
  unfold Machine.takeIncoming
  split
  · exact k.addFreeEntry _ h
  · next p _ =>
    split
    · exact k.addFreeEntry _ h
    · next hr =>
      unfold offerCall
      split
      · next hf => exact k.admitIncoming ref (idle_of_incomingRefusal hr) hf h
      · exact h

/-! ## Requests -/

theorem remap {s : State} {p : Port} {r : PortRole} (hm : s.mode = .config) (hc : (s.lines.at p).call = none)
    (hp : I (setPort p r s)) : I (remap p r s) := by
  have line := k.setBuffer p DigitBuffer.empty (k.remapped (p := p) (c := (s.scan.at p).remapped (s.ports.at p) r) (r := r)
    (s := Machine.setScan p ((s.scan.at p).remapped (s.ports.at p) r) (setPort p r s)) hm hc (k.setScan _ _ hp))
  have alarms : ∀ {t} (old new : Scanner), I t → I (remapAlarms p old new t) := by
    intro t old new ht
    have first : I (if old.fault && !new.fault then Machine.endCondition (.lineFault p) t else t) := by
      split
      · exact k.endCondition _ ht
      · exact ht
    unfold remapAlarms
    dsimp only
    refine k.dropAlarms _ ?_
    split
    · exact k.endCondition _ first
    · exact first
  have moved : ∀ {t} (c : Scanner), I t → I (remapTransition p c r t) := by
    intro t c ht
    unfold remapTransition
    split
    · exact k.enterBare _ _ _ rfl ht
    · split
      · exact k.enterBare _ _ _ rfl ht
      · exact k.groupIdle _ ht
  unfold Machine.remap
  dsimp only
  refine moved _ ?_
  split
  · exact k.callEvent _ _ _ (alarms _ _ line)
  · exact alarms _ _ line

theorem setMap {s : State} (body : List Byte) (ha : mapSetRefusal body s = none) (h : I s) : I (setMap body s) := by
  unfold Machine.setMap
  split
  · next p r ht =>
    obtain ⟨hm, ho, hn, hb⟩ := mapSet_accepted ha ht
    have hcall : (s.lines.at p).call = none := by
      unfold portBusy at hb
      simp only [Bool.or_eq_false_iff, Option.isSome_eq_false_iff, Option.isNone_iff_eq_none] at hb
      exact hb.2
    have port := k.port ho (mapSetTarget_number ht) hn h
    split
    · exact h
    · split
      · exact port
      · exact k.remap hm hcall port
  · exact h

theorem setStandby {s : State} (body : List Byte) (h : I s) : I (setStandby body s) := by
  unfold Machine.setStandby requestStandby
  split
  · dsimp only
    split
    · split
      · exact k.enterStandby _ _ (k.setGroup _ _ h)
      · exact k.report _ (k.setGroup _ _ (k.setGroup _ _ h))
    · exact k.setGroup _ _ h
  · exact h

theorem setAwake {s : State} (body : List Byte) (h : I s) : I (setAwake body s) := by
  unfold Machine.setAwake wakeGroup
  split
  · split
    · exact k.enterWaking _ _ h
    · exact k.report _ (k.setGroup _ _ h)
    · exact h
  · exact h

theorem setClaim {s : State} (body : List Byte) (h : I s) : I (setClaim body s) := by
  unfold Machine.setClaim claimWaiting
  split
  · split
    · split
      · exact k.grantBus _ _ h
      · split
        · exact k.setBus _ h
        · exact h
    · exact h
  · exact h

theorem setForcedClaim {s : State} (body : List Byte) (h : I s) : I (setForcedClaim body s) := by
  unfold Machine.setForcedClaim claimForced
  split
  · split
    · exact k.grantBus _ _ h
    · split
      · exact k.grantBus _ _ (k.releaseLine _ _ h)
      · exact h
  · exact h

theorem releaseBus {s : State} (h : I s) : I (releaseBus s) := by
  unfold Machine.releaseBus
  split
  · exact h
  · exact k.setBus _ h
  · split
    · exact k.enterBare _ _ _ rfl (k.setBus _ h)
    · exact k.enterBare _ _ _ rfl (k.setBus _ h)

theorem setBlock {s : State} (body : List Byte) (h : I s) : I (setBlock body s) := by
  unfold Machine.setBlock blockSlot
  split
  · split
    · next hi => exact k.blocked hi h
    · exact h
    · exact k.slot (.withBlockPending true _) h
  · exact h

theorem setUnblock {s : State} (body : List Byte) (h : I s) : I (setUnblock body s) := by
  unfold Machine.setUnblock unblockSlot
  split
  · split
    · exact h
    · next hi =>
      dsimp only
      split
      · exact k.endCondition _ (k.unblocked hi h)
      · exact k.unblocked hi h
    · exact k.slot (.withBlockPending false _) h
  · exact h

theorem setParam {s : State} (body : List Byte) (h : I s) : I (setParam body s) := by
  unfold Machine.setParam
  split
  · exact k.quiet (s := s) rfl h
  · exact h

theorem setAcknowledged {s : State} (body : List Byte) (h : I s) : I (setAcknowledged body s) := by
  unfold Machine.setAcknowledged
  split
  · exact k.dropAlarms _ h
  · exact h

theorem exitConfig {s : State} (h : I s) : I (exitConfig s) := by
  unfold Machine.exitConfig
  split
  · next hm => exact k.report _ (k.normal hm h)
  · exact h

end KeepsOps

/-! ## Every effect -/

namespace Keeps
variable {I : State → Prop} (k : Keeps I)
include k

theorem setPosture {s : State} (body : List Byte) (h : I s) : I (setPosture body s) := by
  unfold Machine.setPosture takePosture
  split
  · split
    · exact h
    · dsimp only
      split
      · next hr => exact k.shed hr h
      · next hr => exact k.raised (Nat.not_lt.mp hr) h
  · exact h


theorem judgeFrame {s : State} (octets : List Byte) (h : I s) : I (judgeFrame octets s) :=
  k.judged _ (k.quiet (judged_core octets s _ _ _) h)

theorem expireRestart {s : State} (hl : s.link = .resync) (h : I s) : I (expireRestart s) := by
  unfold Machine.expireRestart
  split
  · exact k.oweRestart _ (k.quiet (s := s) rfl h)
  · exact k.service (by rw [lostHeld_link]; exact hl) (KeepsOps.inTurn _ (fun p _ ht => k.loseHeld _ p ht) (k.releaseHeld h))
  · exact h

theorem takeRestartAck {s : State} (tags : List Byte) (h : I s) : I (takeRestartAck tags s) := by
  have settled := KeepsOps.inTurn allSlots (fun i _ ht => k.settleSlot tags i ht) h
  unfold Machine.takeRestartAck
  split
  · next hl =>
    refine k.service ((settled_link tags s).trans hl) (k.txq (fun hn => Nat.le_trans ?_ hn) settled)
    refine (List.Sublist.filter _ ?_).length_le
    refine (List.Sublist.append (List.Sublist.refl _) List.filter_sublist).trans ?_
    unfold queuedEntries
    rw [List.take_append_drop]
  · exact h

theorem releaseTrunk {s : State} (h : I s) : I (releaseTrunk s) := by
  unfold Machine.releaseTrunk
  split
  · exact k.quiet (s := s) rfl h
  · next hl => exact k.resync hl h
  · exact h

/-- What the writing operations keep, every effect that an event ends keeps. -/
theorem effect {s t : State} (he : Effect s t) (h : I s) : I t := by
  cases he with
  | offHook p => exact k.takeOffHook p (k.offHookSample p h)
  | onHook p run => exact k.endLine _ _ _ rfl (k.onHookSample p run h)
  | fault p => exact k.takeFault p (k.wakeForFault p h)
  | faultClear p => exact k.takeFaultClear p h
  | slowSample g closed faulty => exact k.slowSample g closed faulty h
  | waitLimit p => exact k.enterBare _ _ _ rfl h
  | ringLimit p => exact k.endLine _ _ _ rfl h
  | judged octets => exact k.judgeFrame octets h
  | holdover => exact k.expireHoldover h
  | restart _ hl => exact k.expireRestart hl h
  | seizeReply i => exact k.expireSeize i h
  | clearReply i => exact k.expireClear i h
  | completed => exact k.completeEntry h
  | accept tag => exact k.takeAccept tag h
  | reject tag r => exact k.takeReject tag r h
  | progress tag => exact k.takeProgress tag h
  | headClear tag r => exact k.takeHeadClear tag r h
  | headClearAck tag => exact k.takeHeadClearAck tag h
  | incoming ref number => exact k.takeIncoming ref number h
  | restartAck tags => exact k.takeRestartAck tags h
  | flow f => exact k.takeFlow f h
  | orderly => exact k.orderly h
  | forced => exact k.forced h
  | exit => exact k.exitConfig h
  | mapSet body _ ha => exact k.setMap body ha h
  | posture body => exact k.setPosture body h
  | claim body => exact k.setClaim body h
  | forcedClaim body => exact k.setForcedClaim body h
  | busRelease => exact k.releaseBus h
  | unblock body => exact k.setUnblock body h
  | nothing => exact h

/-- What the writing operations keep, every effect without the end of an event keeps. -/
theorem bare {s t : State} (hb : Bare s t) (h : I s) : I t := by
  cases hb with
  | breakEnd p ms => exact k.endBreak p ms h
  | digit p => exact k.completeDigit p (k.setHookPin _ _ h)
  | contact p c => exact k.takeContact p c (k.setHookPin _ _ (k.setScan _ _ h))
  | settled g => exact k.endSettle g h
  | phase => exact k.beginPhase h
  | started => exact k.startSending _ (Nat.le_refl _) h
  | param body => exact k.setParam body h
  | standby body => exact k.setStandby body h
  | wake body => exact k.setAwake body h
  | block body => exact k.setBlock body h
  | trunkRelease => exact k.releaseTrunk h
  | acknowledged body => exact k.setAcknowledged body h
  | dropPartial => exact k.quiet (s := s) rfl h

/-- What the writing operations keep, every change inside the running part keeps. -/
theorem change_inner {s t : State} (hc : Change .inner s t) (h : I s) : I t := by
  cases hc with
  | event he => exact k.finish (k.effect he h)
  | bare hb => exact k.bare hb h
  | served => exact k.serve h
  | fresh hb => exact absurd rfl hb
  | outside hb => exact absurd rfl hb
  | port hp => exact (by decide : ¬ (Scope.inner = .whole ∨ Scope.inner = .clock)).elim hp
  | ticked hc => exact nomatch hc
  | waiting hc => exact nomatch hc

/-- A property that holds after a reset and looks neither at the power nor at the queues of commands and requests, besides, every change
keeps. -/
theorem change (fresh : ∀ t, Fresh t → I t)
    (outside : ∀ {s} (power : Power) (pending : List Instr), I s → I { s with power := power, pending := pending })
    (port : ∀ {s} (requests : List Request) (reply : Option Reply) (warm : Warm), I s →
      I { s with requests := requests, reply := reply, warm := warm })
    {s t : State} (hc : Change .clock s t) (h : I s) : I t := by
  cases hc with
  | event he => exact k.finish (k.effect he h)
  | bare hb => exact k.bare hb h
  | served => exact k.serve h
  | fresh _ hf => exact fresh _ hf
  | outside _ _ power rate => exact k.quiet (s := { s with power := power, pending := s.pending }) rfl (outside power s.pending h)
  | port _ _ requests reply warm tx lost receiver =>
    exact k.quiet (s := { s with requests := requests, reply := reply, warm := warm }) rfl (port requests reply warm h)
  | ticked => exact k.quiet (s := { s with power := s.power, pending := eventsOfMs s }) (tick_core s) (outside s.power _ h)
  | waiting _ _ power pending freeIndex => exact k.quiet (s := { s with power := power, pending := pending }) rfl (outside power pending h)

end Keeps

end Sys2Proof.Machine
end

