-- ==== Sys2Proof/Proofs/KeepsViews.lean ====
section
/-! PROOF. The two halves of the walk: a property of the slots, the queues and the port map alone need not look at the lines and the
ringing, and a property of the lines and the ringing alone need not look at the slots. -/

namespace Sys2Proof.Machine

/-! ## Effects that pass through any state -/

namespace KeepsOps
variable {I : State → Prop} (k : KeepsOps I)
include k

theorem parkQueued {s : State} (h : I s) : I (parkQueued s) :=
  KeepsOps.inTurn _ (fun _ _ ht => k.enterBare _ _ _ rfl ht) h

theorem forceLine {s : State} (p : Port) (h : I s) : I (forceLine p s) := by
  unfold Machine.forceLine
  split
  all_goals first | exact k.endLine _ _ _ rfl h | exact h

/-- A property that the mode does not enter passes through both forms of CONFIG_ENTER. -/
theorem orderly_of_mode (mode : ∀ m {s}, I s → I (setMode m s)) {s : State} (h : I s) : I (enterOrderly s) := by
  unfold enterOrderly
  split
  · exact k.parkQueued (k.report _ (mode _ h))
  · exact h

theorem forced_of_mode (mode : ∀ m {s}, I s → I (setMode m s)) {s : State} (h : I s) : I (enterForced s) := by
  unfold enterForced
  split
  · exact h
  · exact k.report _ (mode _ (k.silenced (KeepsOps.inTurn _ (fun p _ ht => k.forceLine p ht) (k.parkQueued h))))

theorem demote {s : State} (e : Placed) (h : I s) : I (demote e s) := by
  have off : I { s with ringDrive := s.ringDrive.put e.port false } := k.quiet (s := s) (by unfold State.core; rfl) h
  unfold Machine.demote
  dsimp only
  split
  · next hs => exact k.enterLine _ _ _ _ _ (by decide) (fun _ => .inr ⟨by show (s.lines.at e.port).state.called = true; rw [hs]; rfl, rfl⟩) off
  · exact off

/-- A property that the ringing does not enter passes through the fall of the posture. -/
theorem shed_of_ring (ring : ∀ {s : State} (cells : Table 6 (List Placed)) (q : List Port) (p : Posture), I s →
      I { s with cells := cells, ringQueue := q, posture := p })
    {s : State} {p : Posture} (h : I s) : I (shedRinging { s with posture := p }) := by
  unfold shedRinging
  dsimp only
  refine k.scanned ?_
  have out := KeepsOps.inTurn (byNumber (allCells.flatMap fun c => (s.cells.at c).drop p.ringCapacity)) (fun e _ ht => k.demote e ht)
    (ring (s.cells.map fun c => c.take p.ringCapacity) s.ringQueue p h)
  exact ring _ _ _ out

/-- A property that the link and the score do not enter passes through every judgement. -/
theorem judged_of_link (link : ∀ {s : State} (l : LinkState) (n : Nat), I s → I { s with link := l, score := n })
    {s : State} (good : Bool) (h : I s) : I (Machine.judgeLink good s) := by
  have told {t : State} (ht : I t) (l : LinkState) : I (Machine.linkEvent (setLink l t)) := k.linkEvent (link l t.score ht)
  unfold Machine.judgeLink
  split
  · unfold countRun endRun
    dsimp only
    split
    · have run : I { s with run := s.run + 1 } := k.quiet (s := s) rfl h
      split
      · exact run
      · split
        · exact k.enterResync (link (s := { s with run := s.run + 1 }) _ _ run)
        · exact told run _
    · exact k.quiet (s := s) rfl h
  · split
    · exact h
    · have run : I { s with run := 0 } := k.quiet (s := s) rfl h
      exact told run _
  · have scored : I { s with score := scoreAfter good s.score } := link s.link _ h
    unfold countScore
    dsimp only
    split
    · exact k.enterDown (link (s := { s with score := scoreAfter good s.score }) _ _ scored)
    · split
      · exact k.takeGrade (link (s := { s with score := scoreAfter good s.score }) _ _ scored) scored
      · exact scored

/-- A property that neither the mode, the ringing nor the link enters passes through everything. -/
theorem keeps (mode : ∀ m {s}, I s → I (setMode m s))
    (link : ∀ {s : State} (l : LinkState) (n : Nat), I s → I { s with link := l, score := n })
    (shed : ∀ {s : State} {p : Posture}, p.rank < s.posture.rank → I s → I (shedRinging { s with posture := p })) : Keeps I where
  toKeepsOps := k
  shed := shed
  orderly := k.orderly_of_mode mode
  forced := k.forced_of_mode mode
  judged := k.judged_of_link link
  service := fun {s} _ h => k.enterService (link (s := s) _ _ h)
  resync := fun {s} _ h => k.enterResync (link (s := s) _ _ h)

end KeepsOps

/-! ## Slots, queues and the port map -/

/-- The state with everything forgotten but the slots, the queues, the requests, the alarms and the port map. -/
def State.slotCore (s : State) : State :=
  { s.core with
    lines := State.reset.lines, waitQueue := [], posture := .mains, cells := State.reset.cells, ringQueue := [], mode := .config
    link := .down, score := 255 }

section
variable (p : Port) (s : State)
@[simp] theorem setLine_slotCore (l : Line) : (setLine p l s).slotCore = s.slotCore := rfl
@[simp] theorem setScan_slotCore (c : Scanner) : (setScan p c s).slotCore = s.slotCore := rfl
@[simp] theorem setWaitQueue_slotCore (q : List Port) : (setWaitQueue q s).slotCore = s.slotCore := rfl
@[simp] theorem leaveRing_slotCore : (leaveRing p s).slotCore = s.slotCore := rfl
@[simp] theorem emptyBuffer_slotCore : (emptyBuffer p s).slotCore = s.slotCore := rfl
@[simp] theorem moveLine_slotCore (st : LineState) (call : Option (SlotId × Direction)) (timer : Option Nat) :
    (moveLine p st call timer s).slotCore = s.slotCore := by
  unfold moveLine
  dsimp only
  repeat' split
  all_goals simp
end

theorem placeIn_slotCore (c : Fin 6) (p : Port) (s : State) : (placeIn c p s).slotCore = s.slotCore := by
  unfold placeIn advancePlacement
  split <;> rfl

theorem handOn_slotCore (p : Port) (s : State) : (handOn p s).slotCore = s.slotCore := by
  unfold handOn
  split
  · exact placeIn_slotCore _ _ _
  · rfl

theorem scanRing_slotCore (s : State) : (scanRing s).slotCore = s.slotCore := by
  refine inTurn_keeps State.slotCore _ (fun p t => ?_) _ s
  unfold scanOne
  split
  · exact placeIn_slotCore _ _ _
  · rfl

/-- A property of the slots, the queues, the requests, the alarms and the port map alone. -/
structure KeepsSlots (I : State → Prop) : Prop where
  quiet : ∀ {s t : State}, t.slotCore = s.slotCore → I s → I t
  reports : ∀ {s : State} {q : List Report},
    q.length ≤ s.reports.length ∨ q.length ≤ Config.reportPlaces → I s → I { s with reports := q }
  alarms : ∀ {s : State} {a : List Alarm},
    ((s.alarms.map (·.id)).Nodup → (a.map (·.id)).Nodup) → I s → I (setAlarms a s)
  txq : ∀ {s : State} {q : List Entry},
    (unnamed s.txq ≤ Config.noSlotPlaces → unnamed q ≤ Config.noSlotPlaces) → I s → I (setTxq q s)
  slot : ∀ {s : State} {i : SlotId} {sl : Slot}, SlotFollows (s.slots.at i) sl → I s → I (setSlot i sl s)
  freed : ∀ {s : State} {i : SlotId}, I s → I (freeSlot i s)
  failed : ∀ {s : State} {i : SlotId}, (s.slots.at i).inUse = true → I s →
    I (setSlot i (.blocked .noClearAck) (clearMarkOf i s))
  blocked : ∀ {s : State} {i : SlotId}, s.slots.at i = .free → I s → I (setSlot i (.blocked .cabinet) (setFree (s.free.erase i) s))
  unblocked : ∀ {s : State} {i : SlotId} {why : BlockedReason}, s.slots.at i = .blocked why → I s →
    I (setFree (s.free ++ [i]) (setSlot i .free s))
  reserved : ∀ {s : State} {i : SlotId} {rest : List SlotId} {p : Port} {d : Direction}, s.free = i :: rest → I s → I (reserve i p d s)
  marked : ∀ {s : State} {i : SlotId} {c : Call} {side : ClearSide} {b : Bool}, (s.slots.at i).call? = some c → I s →
    I (setSlot i (.clearing c.line c.tag side b) (setMark (some i) s))
  unmarked : ∀ {s : State}, I s → I (setMark none s)
  port : ∀ {s : State} {p : Port} {r : PortRole}, offers p r = true → (∀ n ∈ r.number?, 1 ≤ n ∧ n ≤ 9999) →
    numberTaken s p r = false → I s → I (setPort p r s)

theorem slotCore_of_core {s t : State} (h : t.core = s.core) : t.slotCore = s.slotCore := by
  unfold State.slotCore
  rw [h]

/-- A property of the slots and queues that the writing operations keep, everything keeps. -/
theorem KeepsSlots.keeps {I : State → Prop} (k : KeepsSlots I) : Keeps I := by
  have ops : KeepsOps I :=
    { quiet := fun h => k.quiet (slotCore_of_core h)
      reports := k.reports, alarms := k.alarms, txq := k.txq, slot := k.slot, freed := k.freed, failed := k.failed
      blocked := k.blocked, unblocked := k.unblocked, reserved := k.reserved, marked := k.marked, unmarked := k.unmarked
      port := k.port
      moved := fun _ _ h => k.quiet (moveLine_slotCore ..) h
      joined := fun {s} _ _ _ _ h => k.quiet (s := s) (by simp) h
      remapped := fun _ _ h => k.quiet (by rfl) h
      silenced := fun h => k.quiet (by rfl) h
      handed := fun _ _ h => k.quiet (handOn_slotCore ..) h
      scanned := fun h => k.quiet (scanRing_slotCore _) h
      raised := fun {s} _ _ h => k.quiet (s := s) (by rfl) h
      normal := fun _ h => k.quiet (by rfl) h
      config := fun _ h => k.quiet (by rfl) h }
  have ring {s : State} (cells : Table 6 (List Placed)) (q : List Port) (p : Posture) (h : I s) :
      I { s with cells := cells, ringQueue := q, posture := p } := k.quiet (s := s) (by rfl) h
  exact ops.keeps (fun _ _ h => k.quiet (by rfl) h) (fun {s} _ _ h => k.quiet (s := s) (by rfl) h) fun _ h => ops.shed_of_ring ring h

/-! ## Lines and ringing -/

/-- The state with everything forgotten but the lines, the ringing and the mode. -/
def State.lineCore (s : State) : State :=
  { State.reset with
    lines := s.core.lines, waitQueue := s.core.waitQueue, posture := s.core.posture, cells := s.core.cells
    ringQueue := s.core.ringQueue, mode := s.core.mode }

theorem lineCore_of_core {s t : State} (h : t.core = s.core) : t.lineCore = s.lineCore := by
  unfold State.lineCore
  rw [h]

/-- A property of the lines, the ringing and the mode alone. -/
structure KeepsLines (I : State → Prop) : Prop where
  quiet : ∀ {s t : State}, t.lineCore = s.lineCore → I s → I t
  moved : ∀ {s : State} {p : Port} {st : LineState} {call : Option (SlotId × Direction)} {timer : Option Nat}, st ≠ .queued →
    CallKept st call (s.lines.at p) → I s → I (moveLine p st call timer s)
  joined : ∀ {s : State} {p : Port} {timer : Option Nat}, (s.lines.at p).state = .idle → s.mode = .normal → I s →
    I (moveLine p .queued none timer (setWaitQueue (joinByClass s p s.waitQueue) s))
  remapped : ∀ {s : State} {p : Port} {c : Scanner} {r : PortRole}, s.mode = .config → (s.lines.at p).call = none → I s →
    I (setLine p (remappedLine c r) s)
  silenced : ∀ {s : State}, I s → I (emptyRing s)
  handed : ∀ {s u : State} {p : Port}, (s.lines.at p).state.called = true →
    (OffRing s p ∨ (I u ∧ (u.lines.at p).state.called = false ∧ u.cells = s.cells ∧ u.ringQueue = s.ringQueue)) → I s → I (handOn p s)
  scanned : ∀ {s : State}, I s → I (scanRing s)
  raised : ∀ {s : State} {p : Posture}, s.posture.rank ≤ p.rank → I s → I { s with posture := p }
  normal : ∀ {s : State}, s.mode = .config → I s → I (setMode .normal s)
  config : ∀ {s : State}, s.mode = .configPending → I s → I (setMode .config s)

theorem freeSlot_lineCore (i : SlotId) (s : State) : (freeSlot i s).lineCore = s.lineCore := by
  have slot (sl : Slot) (t : State) : (setSlot i sl t).lineCore = t.lineCore := rfl
  have cleared (t : State) : (clearMarkOf i (setSig i Sig.cleared t)).lineCore = t.lineCore := rfl
  have listed (f : List SlotId) (t : State) : (setFree f t).lineCore = t.lineCore := rfl
  unfold freeSlot
  dsimp only
  repeat' split
  · exact (slot _ _).trans (cleared s)
  · exact (listed _ _).trans ((slot _ _).trans (cleared s))
  · rfl

theorem reserve_lineCore (i : SlotId) (p : Port) (d : Direction) (s : State) : (reserve i p d s).lineCore = s.lineCore := by
  have order (t : State) : (advanceOrder t).lineCore = t.lineCore := by
    unfold advanceOrder
    split <;> rfl
  unfold reserve
  rw [order]
  rfl

/-- A property of the lines and the ringing looks at no slot, queue of messages or alarm. -/
theorem KeepsLines.ops {I : State → Prop} (k : KeepsLines I) : KeepsOps I where
  quiet h := k.quiet (lineCore_of_core h)
  reports {s} _ _ h := k.quiet (s := s) (by rfl) h
  alarms _ h := k.quiet (by rfl) h
  txq _ h := k.quiet (by rfl) h
  slot _ h := k.quiet (by rfl) h
  freed h := k.quiet (freeSlot_lineCore ..) h
  failed _ h := k.quiet (by rfl) h
  blocked _ h := k.quiet (by rfl) h
  unblocked _ h := k.quiet (by rfl) h
  reserved _ h := k.quiet (reserve_lineCore ..) h
  marked _ h := k.quiet (by rfl) h
  unmarked h := k.quiet (by rfl) h
  port _ _ _ h := k.quiet (by rfl) h
  moved := k.moved
  joined := k.joined
  remapped := k.remapped
  silenced := k.silenced
  handed := k.handed
  scanned := k.scanned
  raised := k.raised
  normal := k.normal
  config := k.config

theorem KeepsLines.link {I : State → Prop} (k : KeepsLines I) {s : State} (l : LinkState) (n : Nat) (h : I s) :
    I { s with link := l, score := n } := k.quiet (s := s) (by rfl) h

end Sys2Proof.Machine
end

