-- ==== Sys2Proof/Proofs/SlotInvariants.lean ====
section
/-! PROOF. The invariants of the free slot list, the tags and the port map, each shown of the few writing operations (O9, O10). -/

namespace Sys2Proof.Machine

/-! ## What the free slot list, the mark and the tags see of a slot -/

@[simp] theorem withOrder_eq_free (f : Nat → Nat) (sl : Slot) : sl.withOrder f = .free ↔ sl = .free := by
  cases sl <;> simp [Slot.withOrder]

@[simp] theorem withOrder_tag (f : Nat → Nat) (sl : Slot) : (sl.withOrder f).tag? = sl.tag? := by
  cases sl <;> rfl

@[simp] theorem withOrder_clearSide (f : Nat → Nat) (sl : Slot) : (sl.withOrder f).clearSide? = sl.clearSide? := by
  cases sl <;> rfl

/-- What the slots' invariants see of a slot. -/
structure SlotAlike (old new : Slot) : Prop where
  free : new = .free ↔ old = .free
  tag : new.tag? = old.tag?
  clearing : new.clearSide? = old.clearSide?

theorem SlotAlike.withOrder (f : Nat → Nat) (sl : Slot) : SlotAlike sl (sl.withOrder f) := ⟨by simp, by simp, by simp⟩

theorem SlotAlike.of_withOrder {f : Nat → Nat} {old new : Slot} (h : new.withOrder f = old.withOrder f) : SlotAlike old new := by
  refine ⟨?_, ?_, ?_⟩
  · rw [← withOrder_eq_free f, h, withOrder_eq_free]
  · rw [← withOrder_tag f, h, withOrder_tag]
  · rw [← withOrder_clearSide f, h, withOrder_clearSide]

theorem slotAlike_of_slotCore {s t : State} (h : t.slotCore = s.slotCore) (i : SlotId) : SlotAlike (s.slots.at i) (t.slots.at i) := by
  have slots : t.slots.map (Slot.withOrder fun _ => 0) = s.slots.map (Slot.withOrder fun _ => 0) := (congrArg State.slots h :)
  have at_i := congrArg (fun v => Table.at v i) slots
  simp only [Table.at, Vector.getElem_map] at at_i
  exact .of_withOrder at_i

theorem advanceOrder_fields (s : State) :
    (advanceOrder s).free = s.free ∧ (advanceOrder s).mark = s.mark ∧ (advanceOrder s).ports = s.ports
      ∧ (advanceOrder s).nextTag = s.nextTag := by
  unfold advanceOrder
  split <;> exact ⟨rfl, rfl, rfl, rfl⟩

theorem advanceOrder_slots (s : State) (j : SlotId) : SlotAlike (s.slots.at j) ((advanceOrder s).slots.at j) := by
  unfold advanceOrder
  split
  · exact ⟨Iff.rfl, rfl, rfl⟩
  · dsimp only
    rw [setNextOrder_slots]
    unfold Table.at
    rw [Vector.getElem_map]
    exact .withOrder _ _

theorem reserve_fields (i : SlotId) (p : Port) (d : Direction) (s : State) :
    (reserve i p d s).free = s.free.erase i ∧ (reserve i p d s).mark = s.mark ∧ (reserve i p d s).ports = s.ports
      ∧ (reserve i p d s).nextTag = freshTag s % Config.lastTag + 1 := by
  unfold reserve
  obtain ⟨free, mark, ports, tag⟩ := advanceOrder_fields (setNextTag ((newCall s p d).tag % Config.lastTag + 1)
    (setSig i Sig.cleared (setSlot i (.reserved (newCall s p d) false) (setFree (s.free.erase i) s))))
  exact ⟨free, mark, ports, tag⟩

/-- A reservation changes the slot reserved, and of the others the order at most. -/
theorem reserve_slots (i j : SlotId) (p : Port) (d : Direction) (s : State) :
    SlotAlike ((s.slots.put i (.reserved (newCall s p d) false)).at j) ((reserve i p d s).slots.at j) := by
  unfold reserve
  exact advanceOrder_slots (setNextTag ((newCall s p d).tag % Config.lastTag + 1)
    (setSig i Sig.cleared (setSlot i (.reserved (newCall s p d) false) (setFree (s.free.erase i) s)))) j

/-- A slot freed is FREE at the tail of the list or BLOCKED, its mark cleared, where it was in use. -/
theorem freeSlot_fields (i : SlotId) (s : State) :
    freeSlot i s = s ∨ ((s.slots.at i).inUse = true ∧ (freeSlot i s).mark = (if s.mark = some i then none else s.mark)
      ∧ (freeSlot i s).ports = s.ports ∧ (freeSlot i s).nextTag = s.nextTag
      ∧ (((freeSlot i s).slots = s.slots.put i .free ∧ (freeSlot i s).free = s.free ++ [i])
        ∨ ((freeSlot i s).slots = s.slots.put i (.blocked .cabinet) ∧ (freeSlot i s).free = s.free))) := by
  unfold freeSlot
  split
  · next hu =>
    refine .inr ⟨hu, ?_⟩
    dsimp only
    split
    · exact ⟨rfl, rfl, rfl, .inr ⟨rfl, rfl⟩⟩
    · exact ⟨rfl, rfl, rfl, .inl ⟨rfl, rfl⟩⟩
  · exact .inl rfl

/-! ## The free slot list (O9) -/

/-- The free slot list and the mark agree with the slots. -/
structure FreeList (slots : Table 20 Slot) (free : List SlotId) (mark : Option SlotId) : Prop where
  nodup : free.Nodup
  mem : ∀ i, i ∈ free ↔ slots.at i = .free
  mark : ∀ i ∈ mark, ((slots.at i).clearSide?).isSome = true

theorem freeListAgrees_iff (s : State) : FreeListAgrees s ↔ FreeList s.slots s.free s.mark :=
  ⟨fun ⟨h1, h2, h3⟩ => ⟨h1, h2, h3⟩, fun ⟨h1, h2, h3⟩ => ⟨h1, h2, h3⟩⟩

namespace FreeList
variable {slots : Table 20 Slot} {free : List SlotId} {mark : Option SlotId}

theorem alike {slots' : Table 20 Slot} (ha : ∀ i, SlotAlike (slots.at i) (slots'.at i)) (h : FreeList slots free mark) :
    FreeList slots' free mark where
  nodup := h.nodup
  mem i := by rw [h.mem, (ha i).free]
  mark i hi := by rw [(ha i).clearing]; exact h.mark i hi

theorem put {i : SlotId} {sl : Slot} (hf : sl = .free ↔ slots.at i = .free)
    (hc : ∀ j ∈ mark, j = i → sl.clearSide?.isSome = true) (h : FreeList slots free mark) : FreeList (slots.put i sl) free mark where
  nodup := h.nodup
  mem j := by
    by_cases hj : j = i
    · subst hj; rw [h.mem, Table.at_put_same, hf]
    · rw [h.mem, Table.at_put_other _ _ hj]
  mark j hm := by
    by_cases hj : j = i
    · subst hj; rw [Table.at_put_same]; exact hc j hm rfl
    · rw [Table.at_put_other _ _ hj]; exact h.mark j hm

theorem unmark (i : SlotId) (h : FreeList slots free mark) :
    FreeList slots free (if mark = some i then none else mark) where
  nodup := h.nodup
  mem := h.mem
  mark j hj := by
    split at hj
    · exact nomatch hj
    · exact h.mark j hj

theorem not_marked (i : SlotId) : ∀ j ∈ (if mark = some i then none else mark), j ≠ i := by
  rintro j hj rfl
  split at hj
  · exact nomatch hj
  · next hne => exact hne hj

/-- A slot that was not FREE becomes FREE at the tail. -/
theorem push {i : SlotId} (hi : slots.at i ≠ .free) (hm : ∀ j ∈ mark, j ≠ i) (h : FreeList slots free mark) :
    FreeList (slots.put i .free) (free ++ [i]) mark where
  nodup := by
    refine List.nodup_append.mpr ⟨h.nodup, List.nodup_singleton i, fun a ha b hb hab => ?_⟩
    rw [List.mem_singleton] at hb
    subst hb hab
    exact hi ((h.mem a).mp ha)
  mem j := by
    rw [List.mem_append, List.mem_singleton]
    by_cases hj : j = i
    · subst hj; simp
    · rw [Table.at_put_other _ _ hj, h.mem]; simp [hj]
  mark j hj := by rw [Table.at_put_other _ _ (hm j hj)]; exact h.mark j hj

/-- A FREE slot leaves the list. -/
theorem pop {i : SlotId} {sl : Slot} (hi : slots.at i = .free) (hs : sl ≠ .free) (h : FreeList slots free mark) :
    FreeList (slots.put i sl) (free.erase i) mark where
  nodup := h.nodup.erase i
  mem j := by
    rw [h.nodup.mem_erase_iff]
    by_cases hj : j = i
    · subst hj; simp [hs]
    · rw [Table.at_put_other _ _ hj, h.mem]; simp [hj]
  mark j hj := by
    have hne : j ≠ i := by
      rintro rfl
      have := h.mark j hj
      rw [hi] at this
      exact nomatch this
    rw [Table.at_put_other _ _ hne]
    exact h.mark j hj

end FreeList

theorem ne_free_of_inUse {sl : Slot} (h : sl.inUse = true) : sl ≠ .free := by
  rintro rfl
  exact nomatch h

theorem freeListAgrees_kept : KeepsSlots FreeListAgrees where
  quiet {s t} hc h := by
    have free : t.free = s.free := (congrArg State.free hc :)
    have mark : t.mark = s.mark := (congrArg State.mark hc :)
    rw [freeListAgrees_iff] at h ⊢
    rw [free, mark]
    exact h.alike (slotAlike_of_slotCore hc)
  reports _ h := h
  alarms _ h := h
  txq _ h := h
  slot {s i sl} hf h := by
    rw [freeListAgrees_iff] at h ⊢
    exact h.put hf.free fun j hj hji => hf.clearing (hji ▸ h.mark j hj)
  freed {s i} h := by
    rcases freeSlot_fields i s with he | ⟨hu, hm, -, -, ⟨hs, hf⟩ | ⟨hs, hf⟩⟩
    · rw [he]; exact h
    all_goals
      rw [freeListAgrees_iff] at h ⊢
      rw [hm, hs, hf]
    · exact (h.unmark i).push (ne_free_of_inUse hu) (FreeList.not_marked i)
    · exact (h.unmark i).put (by simp [ne_free_of_inUse hu]) fun j hj hji => absurd hji (FreeList.not_marked i j hj)
  failed {s i} hu h := by
    rw [freeListAgrees_iff] at h ⊢
    exact (h.unmark i).put (by simp [clearMarkOf, ne_free_of_inUse hu]) fun j hj hji => absurd hji (FreeList.not_marked i j hj)
  blocked hi h := by
    rw [freeListAgrees_iff] at h ⊢
    exact h.pop hi (by simp)
  unblocked {s i why} hi h := by
    rw [freeListAgrees_iff] at h ⊢
    refine h.push (by rw [hi]; simp) ?_
    rintro j hj rfl
    have := h.mark j hj
    rw [hi] at this
    exact nomatch this
  reserved {s i rest p d} hf h := by
    obtain ⟨free, mark, -, -⟩ := reserve_fields i p d s
    rw [freeListAgrees_iff] at h ⊢
    rw [free, mark]
    exact (h.pop ((h.mem i).mp (by rw [hf]; exact List.mem_cons_self)) (by simp)).alike fun j => reserve_slots i j p d s
  marked {s i c side b} hc h := by
    rw [freeListAgrees_iff] at h ⊢
    have busy : s.slots.at i ≠ .free := by intro hi; rw [hi] at hc; exact nomatch hc
    have unmarked : FreeList s.slots s.free none := ⟨h.nodup, h.mem, fun _ hj => absurd hj (by simp)⟩
    have cleared := unmarked.put (i := i) (sl := .clearing c.line c.tag side b) (by simp [busy]) fun _ hj => absurd hj (by simp)
    refine ⟨cleared.nodup, cleared.mem, fun j hj => ?_⟩
    obtain rfl := Option.mem_some.mp hj
    simp only [setSlot_slots, setMark_slots, Table.at_put_same]
    rfl
  unmarked h := by
    rw [freeListAgrees_iff] at h ⊢
    exact ⟨h.nodup, h.mem, fun _ hj => absurd hj (by simp)⟩
  port _ _ _ h := h

/-- What the end of a reset and its beginning leave of every field but the power, the reports and what is outside. -/
theorem Fresh.slots {t : State} (h : Fresh t) : t.slots = State.reset.slots ∧ t.free = allSlots ∧ t.mark = none ∧ t.nextTag = 1
    ∧ t.ports = State.reset.ports := by
  cases h <;> exact ⟨rfl, rfl, rfl, rfl, rfl⟩

theorem slots_reset (i : SlotId) : State.reset.slots.at i = .free := Vector.getElem_replicate ..

theorem freeListAgrees_fresh {t : State} (h : Fresh t) : FreeListAgrees t := by
  obtain ⟨slots, free, mark, -⟩ := h.slots
  rw [freeListAgrees_iff, slots, free, mark]
  exact ⟨List.nodup_finRange 20, fun i => by simp [allSlots, slots_reset], fun _ hj => absurd hj (by simp)⟩

/-- Settles O9: the writing operations of the slots keep the free slot list, and every step is made of them. -/
theorem stepKeepsFreeListAgrees : Obligations.StepKeepsFreeListAgrees := fun _ _ h hst =>
  step_keeps (fun _ _ hc => freeListAgrees_kept.keeps.change (fun _ => freeListAgrees_fresh) (fun _ _ h => h) (fun _ _ _ h => h) hc) h hst

end Sys2Proof.Machine
end

