-- ==== Sys2Proof/Proofs/TagInvariants.lean ====
section
/-! PROOF. There is always a free tag, so the tags stay distinct, and the port map stands (O10). -/

namespace Sys2Proof.Machine

/-! ## The tag of a reservation -/

theorem tagHeld_iff (s : State) (t : Nat) : tagHeld s t = true ↔ ∃ i, t ∈ (s.slots.at i).tag? := by
  simp [tagHeld, allSlots, Option.mem_def]

theorem tagCount_nodup (s : State) : (tagCount s).Nodup := by
  refine List.Nodup.map_on (fun a ha b hb hab => ?_) List.nodup_range
  rw [List.mem_range] at ha hb
  unfold Config.lastTag at *
  omega

/-- Of the 255 tags the 20 slots cannot hold all. -/
theorem exists_tag_free (s : State) : ∃ t ∈ tagCount s, tagHeld s t = false := by
  by_contra hall
  have held : tagCount s ⊆ allSlots.filterMap fun i => (s.slots.at i).tag? := fun t ht => by
    have : tagHeld s t = true := by
      by_contra hf
      exact hall ⟨t, ht, Bool.eq_false_of_not_eq_true hf⟩
    obtain ⟨i, hi⟩ := (tagHeld_iff s t).mp this
    exact List.mem_filterMap.mpr ⟨i, List.mem_finRange i, hi⟩
  have few := ((tagCount_nodup s).subperm held).length_le.trans (List.length_filterMap_le _ _)
  simp [tagCount, allSlots, Config.lastTag] at few

/-- The tag of the next reservation is the first of the count that no slot holds. -/
theorem freshTag_first (s : State) : FirstFreeTag s (freshTag s) := by
  obtain ⟨t, ht, hfree⟩ := exists_tag_free s
  have some : ((tagCount s).find? fun t => !tagHeld s t).isSome = true :=
    List.find?_isSome.mpr ⟨t, ht, by simp [hfree]⟩
  obtain ⟨u, hu⟩ := Option.isSome_iff_exists.mp some
  have fresh : freshTag s = u := by unfold freshTag; rw [hu]; rfl
  rw [fresh]
  have free := List.find?_some hu
  refine ⟨by simpa using free, ?_⟩
  unfold tagCount at hu
  rw [List.find?_map] at hu
  obtain ⟨d, hd, rfl⟩ := Option.map_eq_some_iff.mp hu
  obtain ⟨-, hmem, hfirst⟩ := List.find?_range_eq_some.mp hd
  exact ⟨d, List.mem_range.mp hmem, rfl, fun k hk => by simpa using hfirst k hk⟩

theorem freshTag_range (s : State) : 1 ≤ freshTag s ∧ freshTag s ≤ Config.lastTag := by
  obtain ⟨-, d, -, h, -⟩ := freshTag_first s
  unfold Config.lastTag at *
  omega

theorem freshTag_free (s : State) (i : SlotId) : freshTag s ∉ (s.slots.at i).tag? := fun h => by
  have := (tagHeld_iff s _).mpr ⟨i, h⟩
  rw [(freshTag_first s).1] at this
  exact nomatch this

/-! ## The tags (O10) -/

/-- The tags of the slots are distinct and in range. -/
structure Tags (slots : Table 20 Slot) : Prop where
  range : ∀ i, ∀ t ∈ (slots.at i).tag?, 1 ≤ t ∧ t ≤ Config.lastTag
  distinct : ∀ i j, ∀ t ∈ (slots.at i).tag?, t ∈ (slots.at j).tag? → i = j

theorem tagsDistinct_iff (s : State) : TagsDistinct s ↔ (1 ≤ s.nextTag ∧ s.nextTag ≤ Config.lastTag) ∧ Tags s.slots :=
  ⟨fun ⟨h1, h2, h3, h4⟩ => ⟨⟨h1, h2⟩, h3, h4⟩, fun ⟨⟨h1, h2⟩, h3, h4⟩ => ⟨h1, h2, h3, h4⟩⟩

namespace Tags
variable {slots : Table 20 Slot}

theorem alike {slots' : Table 20 Slot} (ha : ∀ i, SlotAlike (slots.at i) (slots'.at i)) (h : Tags slots) : Tags slots' where
  range i t ht := h.range i t (by rwa [(ha i).tag] at ht)
  distinct i j t hi hj := h.distinct i j t (by rwa [(ha i).tag] at hi) (by rwa [(ha j).tag] at hj)

/-- A slot written keeps its tag, has none, or takes one that no slot holds. -/
theorem put {i : SlotId} {sl : Slot}
    (hs : ∀ t ∈ sl.tag?, t ∈ (slots.at i).tag? ∨ ((1 ≤ t ∧ t ≤ Config.lastTag) ∧ ∀ j, t ∉ (slots.at j).tag?)) (h : Tags slots) :
    Tags (slots.put i sl) where
  range j t ht := by
    by_cases hj : j = i
    · subst hj
      rw [Table.at_put_same] at ht
      rcases hs t ht with h' | h'
      · exact h.range j t h'
      · exact h'.1
    · rw [Table.at_put_other _ _ hj] at ht
      exact h.range j t ht
  distinct j k t hj hk := by
    have apart {m : SlotId} (hm : m ≠ i) (ht : t ∈ sl.tag?) (h' : t ∈ (slots.at m).tag?) : False := by
      rcases hs t ht with hi | hi
      · exact hm (h.distinct m i t h' hi)
      · exact hi.2 m h'
    by_cases hji : j = i <;> by_cases hki : k = i
    · rw [hji, hki]
    · subst hji
      rw [Table.at_put_same] at hj
      rw [Table.at_put_other _ _ hki] at hk
      exact (apart hki hj hk).elim
    · subst hki
      rw [Table.at_put_same] at hk
      rw [Table.at_put_other _ _ hji] at hj
      exact (apart hji hk hj).elim
    · rw [Table.at_put_other _ _ hji] at hj
      rw [Table.at_put_other _ _ hki] at hk
      exact h.distinct j k t hj hk

/-- A slot that takes no tag. -/
theorem put_none {i : SlotId} {sl : Slot} (hs : sl.tag? = none) (h : Tags slots) : Tags (slots.put i sl) :=
  h.put fun t ht => by rw [hs] at ht; exact absurd ht (by simp)

end Tags

theorem tagsDistinct_kept : KeepsSlots TagsDistinct where
  quiet {s t} hc h := by
    have next : t.nextTag = s.nextTag := (congrArg State.nextTag hc :)
    rw [tagsDistinct_iff] at h ⊢
    rw [next]
    exact ⟨h.1, h.2.alike (slotAlike_of_slotCore hc)⟩
  reports _ h := h
  alarms _ h := h
  txq _ h := h
  slot hf h := by
    rw [tagsDistinct_iff] at h ⊢
    exact ⟨h.1, h.2.put fun t ht => .inl (hf.tag t ht)⟩
  freed {s i} h := by
    rcases freeSlot_fields i s with he | ⟨-, -, -, hn, ⟨hs, -⟩ | ⟨hs, -⟩⟩
    · rw [he]; exact h
    all_goals
      rw [tagsDistinct_iff] at h ⊢
      rw [hn, hs]
      exact ⟨h.1, h.2.put_none rfl⟩
  failed _ h := by
    rw [tagsDistinct_iff] at h ⊢
    exact ⟨h.1, h.2.put_none rfl⟩
  blocked _ h := by
    rw [tagsDistinct_iff] at h ⊢
    exact ⟨h.1, h.2.put_none rfl⟩
  unblocked _ h := by
    rw [tagsDistinct_iff] at h ⊢
    exact ⟨h.1, h.2.put_none rfl⟩
  reserved {s i rest p d} _ h := by
    obtain ⟨-, -, -, next⟩ := reserve_fields i p d s
    rw [tagsDistinct_iff] at h ⊢
    rw [next]
    refine ⟨?_, (h.2.put fun t ht => .inr ?_).alike fun j => reserve_slots i j p d s⟩
    · unfold Config.lastTag; omega
    · obtain rfl := Option.mem_some.mp ht
      exact ⟨freshTag_range s, freshTag_free s⟩
  marked {s i c side b} hc h := by
    rw [tagsDistinct_iff] at h ⊢
    exact ⟨h.1, h.2.put fun t ht => .inl ((SlotFollows.clearing_of_call hc side b).tag t ht)⟩
  unmarked h := h
  port _ _ _ h := h

theorem tagsDistinct_fresh {t : State} (h : Fresh t) : TagsDistinct t := by
  obtain ⟨slots, -, -, next, -⟩ := h.slots
  rw [tagsDistinct_iff, slots, next]
  have untagged (i : SlotId) (t : Nat) : t ∉ (State.reset.slots.at i).tag? := by rw [slots_reset]; simp [Slot.tag?, Slot.call?]
  exact ⟨by decide, fun i t ht => absurd ht (untagged i t), fun i _ t ht _ => absurd ht (untagged i t)⟩

/-! ## The port map (O10) -/

theorem numberTaken_eq_false {s : State} {p : Port} {r : PortRole} (h : numberTaken s p r = false) :
    ∀ n ∈ r.number?, ∀ q, q ≠ p → (s.ports.at q).number? ≠ some n := by
  intro n hn q hq hnum
  unfold numberTaken at h
  rw [Option.mem_def.mp hn] at h
  have := List.any_eq_false.mp h q (List.mem_finRange q)
  simp [hq, hnum] at this

/-- A port takes a role that it offers, with a number in range that no other port has. -/
theorem PortMapHolds.setPort {s : State} {p : Port} {r : PortRole} (ho : offers p r = true)
    (hn : ∀ n ∈ r.number?, 1 ≤ n ∧ n ≤ 9999) (ht : numberTaken s p r = false) (h : PortMapHolds s) : PortMapHolds (setPort p r s) := by
  obtain ⟨roles, numbers⟩ := h
  have free := numberTaken_eq_false ht
  refine ⟨fun q => ?_, fun q q' hsome heq => ?_⟩
  · rw [setPort_ports]
    by_cases hq : q = p
    · subst hq; rw [Table.at_put_same]; exact ⟨ho, hn⟩
    · rw [Table.at_put_other _ _ hq]; exact roles q
  · rw [setPort_ports] at hsome heq
    by_cases hq : q = p <;> by_cases hq' : q' = p
    · rw [hq, hq']
    · subst hq
      rw [Table.at_put_same] at hsome heq
      rw [Table.at_put_other _ _ hq'] at heq
      obtain ⟨n, hnum⟩ := Option.isSome_iff_exists.mp hsome
      exact absurd (heq.symm.trans hnum) (free n hnum q' hq')
    · subst hq'
      rw [Table.at_put_other _ _ hq] at hsome heq
      rw [Table.at_put_same] at heq
      obtain ⟨n, hnum⟩ := Option.isSome_iff_exists.mp hsome
      exact absurd hnum (free n (heq ▸ hnum) q hq)
    · rw [Table.at_put_other _ _ hq] at hsome heq
      rw [Table.at_put_other _ _ hq'] at heq
      exact numbers q q' hsome heq

theorem PortMapHolds.of_ports {s t : State} (hp : t.ports = s.ports) (h : PortMapHolds s) : PortMapHolds t := by
  unfold PortMapHolds at *
  rw [hp]
  exact h

theorem portMapHolds_kept : KeepsSlots PortMapHolds where
  quiet hc h := h.of_ports (congrArg State.ports hc :)
  reports _ h := h
  alarms _ h := h
  txq _ h := h
  slot _ h := h
  freed {s i} h := by
    rcases freeSlot_fields i s with he | ⟨-, -, hp, -⟩
    · rw [he]; exact h
    · exact h.of_ports hp
  failed _ h := h
  blocked _ h := h
  unblocked _ h := h
  reserved {s i _ p d} _ h := h.of_ports (reserve_fields i p d s).2.2.1
  marked _ h := h
  unmarked h := h
  port := PortMapHolds.setPort

theorem portMapHolds_fresh {t : State} (h : Fresh t) : PortMapHolds t := by
  obtain ⟨-, -, -, -, ports⟩ := h.slots
  have role (p : Port) : t.ports.at p = .unequipped := by rw [ports]; exact Vector.getElem_replicate ..
  refine ⟨fun p => ?_, fun p q hs _ => ?_⟩
  · rw [role]; exact ⟨rfl, fun _ hn => absurd hn (by simp [PortRole.number?])⟩
  · rw [role] at hs; exact nomatch hs

/-- Settles O10: a reservation takes a tag that no slot holds, of which there is always one, and a port takes a role and a number that
MAP_SET has checked. -/
theorem stepKeepsTagsDistinct : Obligations.StepKeepsTagsDistinct :=
  ⟨fun _ _ h hst =>
    step_keeps (fun _ _ hc => tagsDistinct_kept.keeps.change (fun _ => tagsDistinct_fresh) (fun _ _ h => h) (fun _ _ _ h => h) hc) h hst,
   fun _ _ h hst =>
    step_keeps (fun _ _ hc => portMapHolds_kept.keeps.change (fun _ => portMapHolds_fresh) (fun _ _ h => h) (fun _ _ _ h => h) hc) h hst⟩

end Sys2Proof.Machine
end

