-- ==== Sys2Proof/Proofs/QueueInvariants.lean ====
section
/-! PROOF. The bounds of the queues, the requests behind the reply slot and the wait queue (O7): three invariants, each of a part of the
state that the others do not look at. -/

namespace Sys2Proof.Machine

/-! ## The sizes of the queues and the alarm list -/

/-- The report queue and the places for entries that name no slot keep their sizes, and the alarm list holds each alarm once. -/
structure QueueSizes (s : State) : Prop where
  reports : s.reports.length ≤ Config.reportPlaces
  free : unnamed s.txq ≤ Config.noSlotPlaces
  alarms : (s.alarms.map (·.id)).Nodup

theorem QueueSizes.of_same {s t : State} (hr : t.reports = s.reports) (hq : t.txq = s.txq) (ha : t.alarms = s.alarms)
    (h : QueueSizes s) : QueueSizes t :=
  ⟨hr ▸ h.reports, hq ▸ h.free, ha ▸ h.alarms⟩

theorem freeSlot_queues (i : SlotId) (s : State) :
    (freeSlot i s).reports = s.reports ∧ (freeSlot i s).txq = s.txq ∧ (freeSlot i s).alarms = s.alarms
      ∧ (freeSlot i s).requests = s.requests ∧ (freeSlot i s).reply = s.reply ∧ (freeSlot i s).warm = s.warm
      ∧ (freeSlot i s).power = s.power := by
  unfold freeSlot clearMarkOf
  dsimp only
  repeat' split
  all_goals simp

theorem advanceOrder_queues (s : State) :
    (advanceOrder s).reports = s.reports ∧ (advanceOrder s).txq = s.txq ∧ (advanceOrder s).alarms = s.alarms
      ∧ (advanceOrder s).requests = s.requests ∧ (advanceOrder s).reply = s.reply ∧ (advanceOrder s).warm = s.warm
      ∧ (advanceOrder s).power = s.power := by
  unfold advanceOrder
  split <;> exact ⟨rfl, rfl, rfl, rfl, rfl, rfl, rfl⟩

theorem reserve_queues (i : SlotId) (p : Port) (d : Direction) (s : State) :
    (reserve i p d s).reports = s.reports ∧ (reserve i p d s).txq = s.txq ∧ (reserve i p d s).alarms = s.alarms
      ∧ (reserve i p d s).requests = s.requests ∧ (reserve i p d s).reply = s.reply ∧ (reserve i p d s).warm = s.warm
      ∧ (reserve i p d s).power = s.power :=
  advanceOrder_queues (setNextTag ((newCall s p d).tag % Config.lastTag + 1)
    (setSig i Sig.cleared (setSlot i (.reserved (newCall s p d) false) (setFree (s.free.erase i) s))))

theorem queueSizes_kept : KeepsSlots QueueSizes where
  quiet {s t} hc h := by
    have reports : t.reports = s.reports := (congrArg State.reports hc :)
    have txq : t.txq = s.txq := (congrArg State.txq hc :)
    have alarms : t.alarms = s.alarms := (congrArg State.alarms hc :)
    exact h.of_same reports txq alarms
  reports {s q} hq h := by
    refine ⟨?_, h.free, h.alarms⟩
    rcases hq with hq | hq
    · exact hq.trans h.reports
    · exact hq
  alarms ha h := ⟨h.reports, h.free, ha h.alarms⟩
  txq hq h := ⟨h.reports, hq h.free, h.alarms⟩
  slot _ h := ⟨h.reports, h.free, h.alarms⟩
  freed {s i} h := by
    obtain ⟨reports, txq, alarms, -⟩ := freeSlot_queues i s
    exact h.of_same reports txq alarms
  failed _ h := ⟨h.reports, h.free, h.alarms⟩
  blocked _ h := ⟨h.reports, h.free, h.alarms⟩
  unblocked _ h := ⟨h.reports, h.free, h.alarms⟩
  reserved {s i _ p d} _ h := by
    obtain ⟨reports, txq, alarms, -⟩ := reserve_queues i p d s
    exact h.of_same reports txq alarms
  marked _ h := ⟨h.reports, h.free, h.alarms⟩
  unmarked h := ⟨h.reports, h.free, h.alarms⟩
  port _ _ _ h := ⟨h.reports, h.free, h.alarms⟩

theorem queueSizes_fresh {t : State} (h : Fresh t) : QueueSizes t := by
  cases h
  · exact ⟨by show 1 ≤ 32; decide, Nat.zero_le _, List.nodup_nil⟩
  · exact ⟨Nat.zero_le _, Nat.zero_le _, List.nodup_nil⟩

theorem step_keeps_queueSizes {s t : State} (h : QueueSizes s) (hst : step s = .next t) : QueueSizes t :=
  step_keeps (fun _ _ hc => queueSizes_kept.keeps.change (fun _ => queueSizes_fresh)
    (fun _ _ h => ⟨h.reports, h.free, h.alarms⟩) (fun _ _ _ h => ⟨h.reports, h.free, h.alarms⟩) hc) h hst

/-! ## The requests behind the reply slot -/

/-- The request buffer keeps its size, and no request waits at an empty reply slot or behind a WARM_RESET. -/
structure RequestsHold (s : State) : Prop where
  bound : s.requests.length ≤ Config.requestPlaces
  reply : s.reply = none → s.requests = []
  warm : s.warm ≠ .none → s.requests = []

/-- What the taking of a request looks at: the buffer, the reply slot, a WARM_RESET and the power. -/
def State.requestSide (s : State) : List Request × Option Reply × Warm × Power := (s.requests, s.reply, s.warm, s.power)

theorem requestSide_fields {s t : State} (h : t.requestSide = s.requestSide) :
    t.requests = s.requests ∧ t.reply = s.reply ∧ t.warm = s.warm ∧ t.power = s.power := by
  unfold State.requestSide at h
  simpa only [Prod.mk.injEq] using h

theorem requestSide_of_fields {s t : State} (hq : t.requests = s.requests) (hr : t.reply = s.reply) (hw : t.warm = s.warm)
    (hp : t.power = s.power) : t.requestSide = s.requestSide := by
  unfold State.requestSide
  rw [hq, hr, hw, hp]

theorem requestSide_kept (x : List Request × Option Reply × Warm × Power) : KeepsSlots fun s => s.requestSide = x where
  quiet {s t} hc h := by
    have same : t.requestSide = s.requestSide := (congrArg State.requestSide hc :)
    exact same.trans h
  reports _ h := h
  alarms _ h := h
  txq _ h := h
  slot _ h := h
  freed {s i} h := by
    obtain ⟨-, -, -, requests, reply, warm, power⟩ := freeSlot_queues i s
    exact (requestSide_of_fields requests reply warm power).trans h
  failed _ h := h
  blocked _ h := h
  unblocked _ h := h
  reserved {s i _ p d} _ h := by
    obtain ⟨-, -, -, requests, reply, warm, power⟩ := reserve_queues i p d s
    exact (requestSide_of_fields requests reply warm power).trans h
  marked _ h := h
  unmarked h := h
  port _ _ _ h := h

/-- Changes inside the running part take no request and touch neither the reply slot nor the power. -/
theorem Changes.requestSide {s t : State} (h : Changes .inner s t) : t.requestSide = s.requestSide :=
  h.keeps (fun _ _ hc => (requestSide_kept _).keeps.change_inner hc) rfl

theorem serve_requestSide (s : State) : (serve s).requestSide = s.requestSide := (changes_served s).requestSide

theorem RequestsHold.of_side {s t : State} (hs : t.requestSide = s.requestSide) (h : RequestsHold s) : RequestsHold t := by
  obtain ⟨requests, reply, warm, -⟩ := requestSide_fields hs
  exact ⟨requests ▸ h.bound, fun hr => requests ▸ h.reply (reply ▸ hr), fun hw => requests ▸ h.warm (warm ▸ hw)⟩

theorem Fresh.requests {t : State} (h : Fresh t) : t.requests = [] := by cases h <;> rfl

theorem requestsHold_of_nil {t : State} (h : t.requests = []) : RequestsHold t :=
  ⟨by rw [h]; exact Nat.zero_le _, fun _ => h, fun _ => h⟩

/-- Changes apart from the requests keep them. -/
theorem Changes.requestsHold {s t : State} (h : Changes .apart s t) (hs : RequestsHold s) : RequestsHold t := by
  refine h.keeps (fun u v hc hu => ?_) hs
  cases hc with
  | event he => exact hu.of_side (Changes.requestSide (.single (.event he)))
  | bare hb => exact hu.of_side (Changes.requestSide (.single (.bare hb)))
  | served => exact hu.of_side (serve_requestSide _)
  | fresh _ hf => exact requestsHold_of_nil hf.requests
  | outside => exact ⟨hu.bound, hu.reply, hu.warm⟩
  | port hp => exact (by decide : ¬ (Scope.apart = .whole ∨ Scope.apart = .clock)).elim hp
  | ticked hc => exact nomatch hc
  | waiting hc => exact nomatch hc

theorem tick_requestSide (s : State) : (tick s).requestSide = s.requestSide := (congrArg State.requestSide (tick_core s) :)

/-- With no command waiting no request is taken either. -/
theorem idle_requestsHold {s : State} (h : RequestsHold s) : RequestsHold (idle s) := by
  have served : RequestsHold (serve s) := h.of_side (serve_requestSide s)
  unfold idle
  split
  · exact h
  · unfold tickSelfTest
    split
    · exact ⟨h.bound, h.reply, h.warm⟩
    · exact ⟨h.bound, h.reply, h.warm⟩
  · unfold idleRunning
    dsimp only
    split
    · exact served.of_side (tick_requestSide _)
    · exact ⟨served.bound, served.reply, served.warm⟩

/-- A request that can be taken at once: it heads the buffer at an empty reply slot of the running part. -/
structure HeadsBuffer (r : Request) (s : State) : Prop where
  running : Running s
  warm : s.warm = .none
  reply : s.reply = none
  head : s.requests.head? = some r
  bound : s.requests.length ≤ Config.requestPlaces

theorem HeadsBuffer.of_side {r : Request} {s t : State} (hs : t.requestSide = s.requestSide) (h : HeadsBuffer r s) : HeadsBuffer r t := by
  obtain ⟨requests, reply, warm, power⟩ := requestSide_fields hs
  exact ⟨power.trans h.running, warm.trans h.warm, reply.trans h.reply, requests ▸ h.head, requests ▸ h.bound⟩

theorem takeNow_requests {r : Request} {judge : State → ReplyOutcome} {effect : State → State} {s : State}
    (heff : Follows r judge effect ∨ effect = takeWarmReset) (hw : s.warm = .none) (hb : s.requests.length ≤ Config.requestPlaces) :
    RequestsHold (takeNow r judge effect s) ∧ (takeNow r judge effect s).power = s.power := by
  have answered (o : ReplyOutcome) : RequestsHold (answer r.num o { s with requests := s.requests.tail })
      ∧ (answer r.num o { s with requests := s.requests.tail }).power = s.power := by
    have side := serve_requestSide { s with requests := s.requests.tail, reply := some { num := r.num, outcome := o } }
    obtain ⟨requests, reply, warm, power⟩ := requestSide_fields side
    refine ⟨⟨?_, fun hr => ?_, fun hn => absurd (warm.trans hw) hn⟩, power⟩
    · rw [show (answer r.num o { s with requests := s.requests.tail }).requests = s.requests.tail from requests, List.length_tail]
      omega
    · exact nomatch reply.symm.trans hr
  unfold takeNow
  dsimp only
  split
  · exact answered _
  · next hne =>
    obtain ⟨hold, power⟩ := answered (judge { s with requests := s.requests.tail })
    rcases heff with heff | rfl
    · have side := (heff _ _ rfl fun why hw => hne why hw).requestSide
      exact ⟨hold.of_side side, (requestSide_fields side).2.2.2.trans power⟩
    · exact ⟨requestsHold_of_nil rfl, power⟩

/-- A row that takes requests keeps those that wait, and takes the one that heads the buffer. -/
theorem RequestRow.requests {r : Request} {f : State → State} (hf : RequestRow r f) {s : State}
    (h : RequestsHold s ∨ HeadsBuffer r s) : RequestsHold (f s) ∧ (f s).power = s.power := by
  obtain ⟨judge, effect, rfl, heff⟩ := hf
  unfold takeRequest whileRunning
  split
  · obtain ⟨requests, reply, warm, power⟩ := requestSide_fields (serve_requestSide s)
    replace h : RequestsHold (serve s) ∨ HeadsBuffer r (serve s) :=
      h.imp (·.of_side (serve_requestSide s)) (·.of_side (serve_requestSide s))
    rw [← power]
    generalize serve s = t at h
    dsimp only
    split
    · next hw =>
      rcases h with h | h
      · exact ⟨h, rfl⟩
      · exact absurd h.warm hw
    · next hw =>
      have hwarm : t.warm = .none := Decidable.not_not.mp hw
      split
      · exact takeNow_requests heff hwarm (h.elim (·.bound) (·.bound))
      · next hcan =>
        have hr : t.reply ≠ none := by
          intro hr
          apply hcan
          unfold canTake
          rcases h with h | h
          · simp [hr, h.reply hr]
          · simp [hr, h.head]
        unfold joinRequests
        split
        · next hl =>
          refine ⟨⟨?_, fun hn => absurd hn hr, fun hn => absurd hwarm hn⟩, rfl⟩
          rw [List.length_append]
          exact hl
        · rcases h with h | h
          · exact ⟨⟨h.bound, h.reply, h.warm⟩, rfl⟩
          · exact absurd h.reply hr
  · next hp =>
    rcases h with h | h
    · exact ⟨h, rfl⟩
    · exact absurd h.running hp

/-- The oldest request of the buffer is taken at an empty reply slot. -/
theorem takeOldest_requests {s : State}
    (h : RequestsHold s ∨ (Running s ∧ s.warm = .none ∧ s.reply = none ∧ s.requests.length ≤ Config.requestPlaces)) :
    RequestsHold (takeOldest s) ∧ (takeOldest s).power = s.power := by
  unfold takeOldest
  split
  · next r rest hq =>
    split
    · refine (runRequest_row _ (requestCode_requestRow r.num r.kind r.body)).requests (h.imp id fun ⟨hp, hw, hr, hb⟩ => ?_)
      exact ⟨hp, hw, hr, by rw [hq]; rfl, hb⟩
    · next hr =>
      rcases h with h | ⟨-, -, h, -⟩
      · exact ⟨h, rfl⟩
      · rw [h] at hr; exact absurd rfl hr
  · next hq => exact ⟨requestsHold_of_nil hq, rfl⟩

/-- A received octet keeps the requests, and the part running. -/
theorem takeOctet_requests (o : Byte) {s : State} (hp : Running s) (h : RequestsHold s) :
    RequestsHold (takeOctet o s) ∧ Running (takeOctet o s) := by
  unfold takeOctet
  split
  · next hw =>
    dsimp only
    split
    · next q _ =>
      have taken : ∀ u, u.power = s.power →
          (RequestsHold u ∨ (Running u ∧ u.warm = .none ∧ u.reply = none ∧ u.requests.length ≤ Config.requestPlaces)) →
          RequestsHold (takeOldest u) ∧ Running (takeOldest u) := fun u hu hq => by
        obtain ⟨hold, power⟩ := takeOldest_requests hq
        exact ⟨hold, power.trans (hu.trans hp)⟩
      unfold joinRequests
      dsimp only
      split
      · next hl =>
        have bound : (s.requests ++ [q]).length ≤ Config.requestPlaces := by rw [List.length_append]; exact hl
        refine taken _ rfl ?_
        by_cases hr : s.reply = none
        · exact .inr ⟨hp, hw, hr, bound⟩
        · exact .inl ⟨bound, fun hn => absurd hn hr, fun hn => absurd hw hn⟩
      · exact taken _ rfl (.inl ⟨h.bound, h.reply, h.warm⟩)
    · exact ⟨⟨h.bound, h.reply, h.warm⟩, hp⟩
  · exact ⟨h, hp⟩

/-- The end of a record keeps the requests: the oldest is taken as the reply leaves. -/
theorem endRecord_requests {s : State} (hp : Running s) (h : RequestsHold s) : RequestsHold (endRecord s) := by
  unfold endRecord
  split
  · exact h.of_side (serve_requestSide s)
  · unfold endReply
    have side := serve_requestSide { s with tx := .idle, reply := none, warm := if s.warm = .taken then .due else s.warm }
    obtain ⟨requests, reply, warm, power⟩ := requestSide_fields side
    refine (takeOldest_requests ?_).1
    by_cases hq : s.requests = []
    · exact .inl (requestsHold_of_nil (requests.trans hq))
    · have hw : s.warm = .none := by
        by_contra hw
        exact hq (h.warm hw)
      refine .inr ⟨power.trans hp, ?_, reply, ?_⟩
      · rw [warm]
        show (if s.warm = .taken then Warm.due else s.warm) = .none
        rw [hw]
        rfl
      · rw [requests]
        exact h.bound
  · exact RequestsHold.of_side (serve_requestSide { s with tx := .idle }) ⟨h.bound, h.reply, h.warm⟩

/-- Every command keeps the requests. -/
theorem exec_requestsHold (c : Instr) {s t : State} (h : RequestsHold s) (he : exec c s = .next t) : RequestsHold t := by
  by_cases hu : usesPort c = true
  · cases hc : requestCode c with
    | some x =>
      rw [exec_request c hc] at he
      cases he
      exact ((runRequest_row c hc).requests (.inl h)).1
    | none =>
      cases c <;> simp only [usesPort, hc, Option.isSome_none, Bool.false_eq_true] at hu
      case requestReceived octets =>
        obtain rfl : whileRunning (inTurn octets takeOctet) s = t := Host.Outcome.next.inj he
        unfold whileRunning
        split
        · next hp =>
          have start : RequestsHold (serve s) ∧ Running (serve s) :=
            ⟨h.of_side (serve_requestSide s), (serve_power s).trans hp⟩
          exact (inTurn_induct (fun u => RequestsHold u ∧ Running u) takeOctet octets
            (fun o _ u hu => takeOctet_requests o hu.2 hu.1) _ start).1
        · exact h
      case recordComplete =>
        obtain rfl : (if s.power = .running then endRecord s else s) = t := Host.Outcome.next.inj he
        split
        · next hp => exact endRecord_requests hp h
        · exact h
      all_goals exact nomatch hc
  · obtain ⟨u, hu', hch⟩ := exec_changes c s
    rw [he] at hu'
    cases hu'
    unfold scopeOf at hch
    rw [if_neg hu] at hch
    exact hch.requestsHold h

theorem step_keeps_requestsHold {s t : State} (h : RequestsHold s) (hst : step s = .next t) : RequestsHold t := by
  unfold step at hst
  split at hst
  · next c rest _ => exact exec_requestsHold c (s := { s with pending := rest }) ⟨h.bound, h.reply, h.warm⟩ hst
  · cases hst
    exact idle_requestsHold h

end Sys2Proof.Machine
end

