-- ==== Sys2Proof/Proofs/WaitInvariant.lean ====
section
/-! PROOF. The wait queue holds the QUEUED lines, each once, and none outside NORMAL (O7). -/

namespace Sys2Proof.Machine

/-! ## What a line's change of state does to the wait queue -/

theorem moveLine_waitQueue (p : Port) (st : LineState) (call : Option (SlotId × Direction)) (timer : Option Nat) (s : State) :
    (moveLine p st call timer s).waitQueue
      = if (s.lines.at p).state = .queued ∧ st ≠ .queued then s.waitQueue.erase p else s.waitQueue := by
  unfold moveLine leaveRing emptyBuffer
  dsimp only
  repeat' split
  all_goals simp

theorem report_waitQueue (r : Report) (s : State) : (report r s).waitQueue = s.waitQueue :=
  (congrArg State.waitQueue (report_port r s) :)

theorem groupIdle_waitQueue (g : GroupId) (s : State) : (groupIdle g s).waitQueue = s.waitQueue := by
  unfold groupIdle enterStandby clearRuns
  split
  · rw [report_waitQueue, setGroup_waitQueue, inTurn_keeps State.waitQueue]
    exact fun _ _ => rfl
  · rfl

theorem enterBare_waitQueue (p : Port) {st : LineState} (r : Reason) (s : State) (h : st.endsCall = true) :
    (enterBare p st r s).waitQueue = if (s.lines.at p).state = .queued then s.waitQueue.erase p else s.waitQueue := by
  have hq : st ≠ .queued := by rintro rfl; exact nomatch h
  unfold enterBare enterLine
  split
  · unfold grantBus callEvent
    simp [report_waitQueue, moveLine_waitQueue]
  · dsimp only
    unfold callEvent
    split
    · simp [groupIdle_waitQueue, report_waitQueue, moveLine_waitQueue, hq]
    · simp [report_waitQueue, moveLine_waitQueue, hq]

theorem lineEnded_not_queued {s : State} {p : Port} {st : LineState} (h : st.endsCall = true) : (lineEnded s p st).state ≠ .queued := by
  unfold lineEnded
  dsimp only
  split
  · decide
  · rintro rfl; exact nomatch h

/-! ## The invariant -/

/-- The wait queue holds exactly the QUEUED lines, each once. -/
structure QueuedLines (lines : Table 64 Line) (waitQueue : List Port) : Prop where
  nodup : waitQueue.Nodup
  mem : ∀ p, p ∈ waitQueue ↔ (lines.at p).state = .queued

/-- It holds none outside NORMAL. -/
structure WaitHolds (s : State) : Prop extends QueuedLines s.lines s.waitQueue where
  normal : s.mode ≠ .normal → s.waitQueue = []

namespace QueuedLines
variable {lines : Table 64 Line} {waitQueue : List Port}

/-- A line that is not QUEUED afterwards has left the queue. -/
theorem leave {p : Port} {l : Line} (hl : l.state ≠ .queued) (h : QueuedLines lines waitQueue) :
    QueuedLines (lines.put p l) (if (lines.at p).state = .queued then waitQueue.erase p else waitQueue) where
  nodup := by
    split
    · exact h.nodup.erase p
    · exact h.nodup
  mem q := by
    by_cases hq : q = p
    · subst hq
      rw [Table.at_put_same]
      split
      · simp [h.nodup.mem_erase_iff, hl]
      · next hn => simp [h.mem, hn, hl]
    · rw [Table.at_put_other _ _ hq, ← h.mem q]
      split
      · rw [h.nodup.mem_erase_iff]; simp [hq]
      · exact Iff.rfl

/-- A line that was not QUEUED joins the queue. -/
theorem join {p : Port} {l : Line} {q : List Port} (hl : l.state = .queued) (hp : (lines.at p).state ≠ .queued)
    (hq : q.Perm (p :: waitQueue)) (h : QueuedLines lines waitQueue) : QueuedLines (lines.put p l) q where
  nodup := hq.nodup_iff.mpr (List.nodup_cons.mpr ⟨fun hm => hp ((h.mem p).mp hm), h.nodup⟩)
  mem r := by
    rw [hq.mem_iff, List.mem_cons]
    by_cases hr : r = p
    · subst hr; rw [Table.at_put_same]; simp [hl]
    · rw [Table.at_put_other _ _ hr, h.mem]; simp [hr]

/-- A line that was and is not QUEUED. -/
theorem other {p : Port} {l : Line} (hl : l.state ≠ .queued) (hp : (lines.at p).state ≠ .queued) (h : QueuedLines lines waitQueue) :
    QueuedLines (lines.put p l) waitQueue := by
  have := h.leave (p := p) hl
  rwa [if_neg hp] at this

end QueuedLines

theorem joinByClass_perm (s : State) (p : Port) (q : List Port) : (joinByClass s p q).Perm (p :: q) := by
  unfold joinByClass
  split
  · refine List.perm_middle.trans ?_
    rw [List.takeWhile_append_dropWhile]
  · exact List.perm_append_singleton p q

/-- What the invariant looks at. -/
def State.waitSide (s : State) : Table 64 Line × List Port × Mode := (s.lines, s.waitQueue, s.mode)

theorem waitHolds_of_side {s t : State} (h : t.waitSide = s.waitSide) (hs : WaitHolds s) : WaitHolds t := by
  unfold State.waitSide at h
  simp only [Prod.mk.injEq] at h
  obtain ⟨lines, queue, mode⟩ := h
  refine ⟨?_, ?_⟩
  · rw [lines, queue]; exact hs.toQueuedLines
  · rw [queue, mode]; exact hs.normal

theorem placeIn_waitSide (k : Fin 6) (p : Port) (s : State) : (placeIn k p s).waitSide = s.waitSide := by
  unfold placeIn advancePlacement
  split <;> rfl

theorem handOn_waitSide (p : Port) (s : State) : (handOn p s).waitSide = s.waitSide := by
  unfold handOn
  split
  · exact placeIn_waitSide _ _ _
  · rfl

theorem scanRing_waitSide (s : State) : (scanRing s).waitSide = s.waitSide := by
  refine inTurn_keeps State.waitSide _ (fun p t => ?_) _ s
  unfold scanOne
  split
  · exact placeIn_waitSide _ _ _
  · rfl

theorem moveLine_mode (p : Port) (st : LineState) (call : Option (SlotId × Direction)) (timer : Option Nat) (s : State) :
    (moveLine p st call timer s).mode = s.mode := (congrArg State.mode (moveLine_lines' p st call timer s) :)

/-- What the lines' invariants see of two states of the same lines, ringing and mode. -/
theorem lineCore_fields {s t : State} (hc : t.lineCore = s.lineCore) :
    (∀ p, (t.lines.at p).state = (s.lines.at p).state ∧ (t.lines.at p).call.isSome = (s.lines.at p).call.isSome)
      ∧ t.waitQueue = s.waitQueue ∧ t.mode = s.mode := by
  have lines : t.lines.map (fun l => { Line.unequipped with state := l.state, call := l.call })
      = s.lines.map fun l => { Line.unequipped with state := l.state, call := l.call } := (congrArg State.lines hc :)
  have waitQueue : t.waitQueue = s.waitQueue := (congrArg State.waitQueue hc :)
  have mode : t.mode = s.mode := (congrArg State.mode hc :)
  refine ⟨fun p => ?_, waitQueue, mode⟩
  have line := congrArg (fun v => Table.at v p) lines
  simp only [Table.at, Vector.getElem_map, Line.mk.injEq] at line
  exact ⟨line.1, congrArg Option.isSome line.2.1⟩

theorem QueuedLines.of_states {lines lines' : Table 64 Line} {q : List Port} (hl : ∀ p, (lines'.at p).state = (lines.at p).state)
    (h : QueuedLines lines q) : QueuedLines lines' q := ⟨h.nodup, fun p => by rw [hl, h.mem]⟩

theorem waitHolds_kept : KeepsLines WaitHolds where
  quiet {s t} hc h := by
    obtain ⟨lines, queue, mode⟩ := lineCore_fields hc
    refine ⟨?_, ?_⟩
    · rw [queue]; exact h.toQueuedLines.of_states fun p => (lines p).1
    · rw [queue, mode]; exact h.normal
  moved {s p st call timer} hq _ h := by
    refine ⟨?_, ?_⟩
    · rw [moveLine_lines, moveLine_waitQueue]
      simp only [hq, ne_eq, not_false_eq_true, and_true]
      exact h.toQueuedLines.leave hq
    · rw [moveLine_mode, moveLine_waitQueue]
      intro hm
      rw [h.normal hm]
      split <;> rfl
  joined {s p timer} hp hm h := by
    refine ⟨?_, ?_⟩
    · rw [moveLine_lines, moveLine_waitQueue, if_neg (fun hn => hn.2 rfl)]
      refine h.toQueuedLines.join rfl ?_ (joinByClass_perm s p s.waitQueue)
      rw [setWaitQueue_lines, hp]; decide
    · rw [moveLine_mode]
      exact fun hn => absurd hm hn
  remapped {s p c r} hm _ h := by
    have empty : s.waitQueue = [] := h.normal (by rw [hm]; decide)
    refine ⟨h.toQueuedLines.other ?_ ?_, h.normal⟩
    · unfold remappedLine
      dsimp only
      split <;> decide
    · exact fun hq => absurd ((h.mem p).mpr hq) (by rw [empty]; exact List.not_mem_nil)
  silenced h := ⟨h.toQueuedLines, h.normal⟩
  handed _ _ h := waitHolds_of_side (handOn_waitSide ..) h
  scanned h := waitHolds_of_side (scanRing_waitSide _) h
  raised _ h := ⟨h.toQueuedLines, h.normal⟩
  normal _ h := ⟨h.toQueuedLines, fun hn => absurd rfl hn⟩
  config hm h := ⟨h.toQueuedLines, fun _ => h.normal (by rw [hm]; decide)⟩

/-! ## CONFIG_ENTER empties the wait queue -/

/-- No line is QUEUED and none waits. -/
abbrev NoneWaits (s : State) : Prop := QueuedLines s.lines s.waitQueue ∧ s.waitQueue = []

theorem NoneWaits.waitHolds {s : State} (h : NoneWaits s) : WaitHolds s := ⟨h.1, fun _ => h.2⟩

theorem NoneWaits.of_lineCore {s t : State} (hc : t.lineCore = s.lineCore) (h : NoneWaits s) : NoneWaits t := by
  obtain ⟨lines, queue, -⟩ := lineCore_fields hc
  refine ⟨?_, queue.trans h.2⟩
  rw [queue]
  exact h.1.of_states fun p => (lines p).1

theorem enterBare_queuedLines {s : State} {p : Port} {st : LineState} {r : Reason} (he : st.endsCall = true)
    (h : QueuedLines s.lines s.waitQueue) : QueuedLines (enterBare p st r s).lines (enterBare p st r s).waitQueue := by
  rw [enterBare_lines p r s he, enterBare_waitQueue p r s he]
  exact h.leave (lineEnded_not_queued he)

theorem enterBare_noneWaits {s : State} {p : Port} {st : LineState} {r : Reason} (he : st.endsCall = true) (h : NoneWaits s) :
    NoneWaits (enterBare p st r s) := by
  refine ⟨enterBare_queuedLines he h.1, ?_⟩
  rw [enterBare_waitQueue p r s he, h.2]
  split <;> rfl

/-- The QUEUED lines go to PARKED one by one, from the head. -/
theorem parkQueued_noneWaits {s : State} (h : QueuedLines s.lines s.waitQueue) : NoneWaits (parkQueued s) := by
  suffices park : ∀ (ps : List Port) (t : State), QueuedLines t.lines t.waitQueue → t.waitQueue = ps →
      NoneWaits (inTurn ps (fun p u => enterBare p .parked .config u) t) from park _ s h rfl
  intro ps
  induction ps with
  | nil => exact fun t ht hq => ⟨ht, hq⟩
  | cons p ps ih =>
    intro t ht hq
    refine ih _ (enterBare_queuedLines rfl ht) ?_
    have queued : (t.lines.at p).state = .queued := (ht.mem p).mp (by rw [hq]; exact List.mem_cons_self)
    rw [enterBare_waitQueue p .config t rfl, if_pos queued, hq]
    simp

theorem addSlotEntry_lineCore (u : Bool) (i : SlotId) (m : SlotMsg) (s : State) :
    (addSlotEntry u i m s).lineCore = s.lineCore := by
  obtain ⟨q, hq⟩ := addSlotEntry_txq u i m s
  rw [hq]
  rfl

theorem supersede_lineCore (i : SlotId) (o : ClearOwed) (s : State) : (supersede i o s).lineCore = s.lineCore := by
  have removed (t : State) : (removeEntries i t).lineCore = t.lineCore := rfl
  have converted (t : State) (m : SlotMsg) : (convertEntry i m t).lineCore = t.lineCore := rfl
  have owed (t : State) (x : Option ClearOwed) : (setClearOwed i x t).lineCore = t.lineCore := rfl
  unfold supersede
  repeat' split
  · rw [freeSlot_lineCore, removed]
  · rw [converted]
  · rw [owed]
  · rw [addSlotEntry_lineCore]

theorem releaseOwing_lineCore (i : SlotId) (o : ClearOwed) (s : State) : (releaseOwing i o s).lineCore = s.lineCore := by
  have stopped (t : State) : (stopReplyTimer i t).lineCore = t.lineCore := rfl
  have slot (t : State) (sl : Slot) : (setSlot i sl t).lineCore = t.lineCore := rfl
  unfold releaseOwing
  split
  · rw [supersede_lineCore, stopped, slot]
  · rfl

/-- A line's slot that is given up changes no line. -/
theorem releaseLine_lineCore (p : Port) (r : Reason) (s : State) : (releaseLine p r s).lineCore = s.lineCore := by
  unfold releaseLine releaseLineLocally releaseLineOwing
  repeat' split
  · exact freeSlot_lineCore _ s
  · rfl
  · exact releaseOwing_lineCore _ _ s
  · rfl

theorem forceLine_noneWaits (p : Port) {s : State} (h : NoneWaits s) : NoneWaits (forceLine p s) := by
  have ended (st : LineState) (he : st.endsCall = true) : NoneWaits (endLine p st .config s) :=
    enterBare_noneWaits he (h.of_lineCore (releaseLine_lineCore p .config s))
  unfold forceLine
  split
  all_goals first | exact ended _ rfl | exact h

theorem enterOrderly_waitHolds {s : State} (h : WaitHolds s) : WaitHolds (enterOrderly s) := by
  unfold enterOrderly
  split
  · refine (parkQueued_noneWaits ?_).waitHolds
    rw [report_waitQueue, (report_records _ _).1]
    exact h.toQueuedLines
  · exact h

theorem enterForced_waitHolds {s : State} (h : WaitHolds s) : WaitHolds (enterForced s) := by
  have forced : NoneWaits (inTurn allPorts forceLine (parkQueued s)) :=
    inTurn_induct NoneWaits forceLine _ (fun p _ _ ht => forceLine_noneWaits p ht) _ (parkQueued_noneWaits h.toQueuedLines)
  unfold enterForced
  generalize inTurn allPorts forceLine (parkQueued s) = u at forced ⊢
  split
  · exact h
  · refine NoneWaits.waitHolds ⟨?_, ?_⟩
    · rw [report_waitQueue, (report_records _ _).1]
      exact forced.1
    · rw [report_waitQueue]
      exact forced.2

theorem waitHolds_keeps : Keeps WaitHolds :=
  have ops := waitHolds_kept.ops
  { toKeepsOps := ops
    shed := fun _ h => ops.shed_of_ring (fun _ _ _ h => ⟨h.toQueuedLines, h.normal⟩) h
    orderly := enterOrderly_waitHolds
    forced := enterForced_waitHolds
    judged := ops.judged_of_link waitHolds_kept.link
    service := fun {s} _ h => ops.enterService (waitHolds_kept.link (s := s) _ _ h)
    resync := fun {s} _ h => ops.enterResync (waitHolds_kept.link (s := s) _ _ h) }

theorem Fresh.lines {t : State} (h : Fresh t) : t.lines = State.reset.lines ∧ t.waitQueue = [] ∧ t.mode = .config := by
  cases h <;> exact ⟨rfl, rfl, rfl⟩

theorem lines_reset (p : Port) : State.reset.lines.at p = Line.unequipped := Vector.getElem_replicate ..

theorem waitHolds_fresh {t : State} (h : Fresh t) : WaitHolds t := by
  obtain ⟨lines, queue, -⟩ := h.lines
  refine ⟨?_, fun _ => queue⟩
  rw [lines, queue]
  refine ⟨List.nodup_nil, fun p => ?_⟩
  rw [lines_reset]
  simp [Line.unequipped]

theorem step_keeps_waitHolds {s t : State} (h : WaitHolds s) (hst : step s = .next t) : WaitHolds t :=
  step_keeps (fun _ _ hc => waitHolds_keeps.change (fun _ => waitHolds_fresh)
    (fun _ _ h => ⟨h.toQueuedLines, h.normal⟩) (fun _ _ _ h => ⟨h.toQueuedLines, h.normal⟩) hc) h hst

/-! ## All the queues -/

theorem queuesBounded_iff (s : State) : QueuesBounded s ↔ QueueSizes s ∧ RequestsHold s ∧ WaitHolds s :=
  ⟨fun ⟨reports, requests, free, reply, warm, alarms, nodup, mem, normal⟩ =>
    ⟨⟨reports, free, alarms⟩, ⟨requests, reply, warm⟩, ⟨⟨nodup, mem⟩, normal⟩⟩,
   fun ⟨⟨reports, free, alarms⟩, ⟨requests, reply, warm⟩, ⟨⟨nodup, mem⟩, normal⟩⟩ =>
    ⟨reports, requests, free, reply, warm, alarms, nodup, mem, normal⟩⟩

/-- Settles O7: the sizes of the queues, the requests behind the reply slot and the wait queue are kept each by itself. -/
theorem stepKeepsQueuesBounded : Obligations.StepKeepsQueuesBounded := fun s t h hst => by
  obtain ⟨sizes, requests, waits⟩ := (queuesBounded_iff s).mp h
  exact (queuesBounded_iff t).mpr
    ⟨step_keeps_queueSizes sizes hst, step_keeps_requestsHold requests hst, step_keeps_waitHolds waits hst⟩

end Sys2Proof.Machine
end

