-- ==== Sys2Proof/Proofs/ScoreInvariant.lean ====
section
/-! PROOF. The score is at most 255, and 255 exactly in DOWN and RECOVERED (O8): the judgement of a frame, the entries to service and to
RESYNC write both together, and nothing else writes either. -/

namespace Sys2Proof.Machine

/-- What the invariant looks at. -/
def State.scoreSide (s : State) : Nat × LinkState := (s.score, s.link)

/-- The score agrees with the link. -/
def ScoreOf (x : Nat × LinkState) : Prop := x.1 ≤ Config.scoreTop ∧ (x.1 = Config.scoreTop ↔ x.2 = .down ∨ x.2 = .recovered)

theorem scoreSide_of_calls {s t : State} (h : t.apartFromCalls = s.apartFromCalls) : t.scoreSide = s.scoreSide :=
  (congrArg State.scoreSide h :)

theorem scoreSide_of_lines {s t : State} (h : t.apartFromLines = s.apartFromLines) : t.scoreSide = s.scoreSide :=
  scoreSide_of_calls (calls_of_lines h)

/-- Outside DOWN and RECOVERED the score is below its top. -/
theorem ScoreOf.below {n : Nat} {l : LinkState} (hd : l ≠ .down) (hr : l ≠ .recovered) (h : n < Config.scoreTop) : ScoreOf (n, l) :=
  ⟨Nat.le_of_lt h, by simp [hd, hr, Nat.ne_of_lt h]⟩

theorem ScoreOf.lt {n : Nat} {l : LinkState} (h : ScoreOf (n, l)) (hd : l ≠ .down) (hr : l ≠ .recovered) : n < Config.scoreTop :=
  Nat.lt_of_le_of_ne h.1 fun hn => (h.2.mp hn).elim hd hr

theorem scoreOf_resync : ScoreOf (0, .resync) := .below (by decide) (by decide) (by decide)

theorem scoreOf_down : ScoreOf (Config.scoreTop, .down) := ⟨Nat.le_refl _, iff_of_true rfl (.inl rfl)⟩

theorem gradeOf_ne (n : Nat) : gradeOf n ≠ .down ∧ gradeOf n ≠ .recovered := by
  unfold gradeOf
  repeat' split
  all_goals decide

theorem scoreAgrees_ops : KeepsOps fun s => ScoreOf s.scoreSide where
  quiet {s t} hc h := by
    have same : t.scoreSide = s.scoreSide := (congrArg State.scoreSide hc :)
    rwa [same]
  reports _ h := h
  alarms _ h := h
  txq _ h := h
  slot _ h := h
  freed h := by rwa [scoreSide_of_calls (freeSlot_calls ..)]
  failed _ h := h
  blocked _ h := h
  unblocked _ h := h
  reserved _ h := by rwa [scoreSide_of_calls (reserve_calls ..)]
  marked _ h := h
  unmarked h := h
  port _ _ _ h := h
  moved _ _ h := by rwa [scoreSide_of_lines (moveLine_lines' ..)]
  joined {s} _ _ _ _ h := by
    rw [scoreSide_of_lines (moveLine_lines' ..)]
    exact h
  remapped _ _ h := h
  silenced h := h
  handed _ _ h := by rwa [scoreSide_of_lines (handOn_lines' ..)]
  scanned h := by rwa [scoreSide_of_lines (scanRing_lines' ..)]
  raised _ h := h
  normal _ h := h
  config _ h := h

/-- A judgement keeps the score in agreement with the link. -/
theorem judgeLink_score (good : Bool) {s : State} (h : ScoreOf s.scoreSide) : ScoreOf (judgeLink good s).scoreSide := by
  have k := scoreAgrees_ops
  have resync (t : State) : ScoreOf (enterResync t).scoreSide := k.enterResync (s := t) scoreOf_resync
  have down (t : State) : ScoreOf (enterDown t).scoreSide := k.enterDown (s := t) scoreOf_down
  unfold judgeLink
  split
  · next hl =>
    have top : s.score = Config.scoreTop := h.2.mpr (.inl hl)
    unfold countRun
    split
    · dsimp only
      split
      · exact h
      · unfold endRun
        split
        · exact resync _
        · exact k.linkEvent (s := setLink .recovered { s with run := s.run + 1 })
            ⟨h.1, iff_of_true top (.inr rfl)⟩
    · exact h
  · next hl =>
    split
    · exact h
    · exact k.linkEvent (s := setLink .down { s with run := 0 }) ⟨h.1, iff_of_true (h.2.mpr (.inr hl)) (.inl rfl)⟩
  · next hd hr =>
    have low : s.score < Config.scoreTop := h.lt hd hr
    unfold countScore
    dsimp only
    split
    · exact down _
    · next hn =>
      have after : scoreAfter good s.score < Config.scoreTop := by
        have le : scoreAfter good s.score ≤ Config.scoreTop := by
          unfold scoreAfter
          split
          · omega
          · exact Nat.min_le_left _ _
        omega
      have stays : ScoreOf ({ s with score := scoreAfter good s.score } : State).scoreSide := .below hd hr after
      split
      · exact k.takeGrade (s := { s with score := scoreAfter good s.score }) (.below (gradeOf_ne _).1 (gradeOf_ne _).2 after) stays
      · exact stays

theorem scoreAgrees_keeps : Keeps fun s => ScoreOf s.scoreSide :=
  have k := scoreAgrees_ops
  { toKeepsOps := k
    shed := fun _ h => k.shed_of_ring (fun _ _ _ h => h) h
    orderly := k.orderly_of_mode fun _ _ h => h
    forced := k.forced_of_mode fun _ _ h => h
    judged := fun good h => judgeLink_score good h
    service := fun {s} hl h => k.enterService (s := s)
      (.below (gradeOf_ne _).1 (gradeOf_ne _).2 (h.lt (by rw [hl]; decide) (by rw [hl]; decide)))
    resync := fun {s} _ _ => k.enterResync (s := s) scoreOf_resync }

theorem scoreAgrees_fresh {t : State} (h : Fresh t) : ScoreOf t.scoreSide := by
  cases h <;> exact scoreOf_down

/-- Settles O8: a score is judged, and the link takes its grade or DOWN with it, and every entry to RESYNC sets it to 0. -/
theorem stepKeepsScoreAgrees : Obligations.StepKeepsScoreAgrees := fun _ _ h hst =>
  step_keeps (I := fun s => ScoreOf s.scoreSide)
    (fun _ _ hc => scoreAgrees_keeps.change (fun _ => scoreAgrees_fresh) (fun _ _ h => h) (fun _ _ _ h => h) hc) h hst

end Sys2Proof.Machine
end

