-- ==== Sys2Proof/Proofs/FinishInvariant.lean ====
section
/-! PROOF. The end of every event stops the holdover timer where no slot is HELD and ends CONFIG_PENDING where none is in use, and what no
end of an event follows keeps both (O12). -/

namespace Sys2Proof.Machine

/-! ## The end of an event brings it about -/

theorem report_slots (r : Report) (s : State) : (report r s).slots = s.slots := (congrArg State.slots (report_port r s) :)
theorem report_holdover (r : Report) (s : State) : (report r s).holdover = s.holdover := (congrArg State.holdover (report_port r s) :)
theorem report_mode (r : Report) (s : State) : (report r s).mode = s.mode := (congrArg State.mode (report_port r s) :)

theorem anyHeld_of_slots {s t : State} (h : t.slots = s.slots) : anyHeld t = anyHeld s := by unfold anyHeld; rw [h]

theorem anyInUse_of_slots {s t : State} (h : t.slots = s.slots) : anyInUse t = anyInUse s := by unfold anyInUse; rw [h]

theorem stopHoldover_holds (s : State) : (stopHoldover s).holdover = none ∨ anyHeld (stopHoldover s) = true := by
  unfold stopHoldover
  split
  · next h => exact .inr h
  · exact .inl rfl

theorem endPending_finished {s : State} (h : s.holdover = none ∨ anyHeld s = true) : EventsFinished (endPending s) := by
  unfold endPending
  split
  · refine ⟨?_, fun hm => ?_⟩
    · rw [report_holdover, anyHeld_of_slots ((report_slots _ _).trans (setMode_slots _ _))]
      exact h
    · rw [report_mode] at hm
      exact nomatch hm
  · next hn =>
    refine ⟨h, fun hm => ?_⟩
    by_contra hu
    exact hn ⟨hm, Bool.eq_false_of_not_eq_true hu⟩

theorem finish_finished (s t : State) : EventsFinished (finish s t) := endPending_finished (stopHoldover_holds _)

/-! ## What no end of an event follows keeps it -/

/-- What the invariant looks at. -/
def State.finishSide (s : State) : Table 20 Slot × Option Nat × Mode := (s.slots, s.holdover, s.mode)

theorem EventsFinished.of_side {s t : State} (hs : t.finishSide = s.finishSide) (h : EventsFinished s) : EventsFinished t := by
  unfold State.finishSide at hs
  simp only [Prod.mk.injEq] at hs
  obtain ⟨slots, holdover, mode⟩ := hs
  unfold EventsFinished
  rw [anyHeld_of_slots slots, anyInUse_of_slots slots, holdover, mode]
  exact h

theorem finishSide_of_lines {s t : State} (h : t.apartFromLines = s.apartFromLines) : t.finishSide = s.finishSide :=
  (congrArg State.finishSide h :)

section
variable (s : State)
@[simp] theorem setScan_finishSide (p : Port) (c : Scanner) : (setScan p c s).finishSide = s.finishSide := rfl
@[simp] theorem setHookPin_finishSide (p : Port) (b : Bool) : (setHookPin p b s).finishSide = s.finishSide := rfl
@[simp] theorem setBuffer_finishSide (p : Port) (b : DigitBuffer) : (setBuffer p b s).finishSide = s.finishSide := rfl
@[simp] theorem setLine_finishSide (p : Port) (l : Line) : (setLine p l s).finishSide = s.finishSide := rfl
@[simp] theorem setGroup_finishSide (g : GroupId) (r : Group) : (setGroup g r s).finishSide = s.finishSide := rfl
@[simp] theorem setTxq_finishSide (q : List Entry) : (setTxq q s).finishSide = s.finishSide := rfl
@[simp] theorem setSig_finishSide (i : SlotId) (g : Sig) : (setSig i g s).finishSide = s.finishSide := rfl
@[simp] theorem setClearOwed_finishSide (i : SlotId) (o : Option ClearOwed) : (setClearOwed i o s).finishSide = s.finishSide := rfl
@[simp] theorem setAlarms_finishSide (a : List Alarm) : (setAlarms a s).finishSide = s.finishSide := rfl
@[simp] theorem setLink_finishSide (l : LinkState) : (setLink l s).finishSide = s.finishSide := rfl
@[simp] theorem report_finishSide (r : Report) : (report r s).finishSide = s.finishSide := finishSide_of_lines (report_lines' r s)
@[simp] theorem noteEvent_finishSide (p : Port) (n : Note) : (noteEvent p n s).finishSide = s.finishSide := report_finishSide s _
@[simp] theorem enterLine_finishSide (p : Port) (st : LineState) (call : Option (SlotId × Direction)) (timer : Option Nat) (r : Reason) :
    (enterLine p st call timer r s).finishSide = s.finishSide := finishSide_of_lines (enterLine_lines' p st call timer r s)
@[simp] theorem enterStandby_finishSide (g : GroupId) (c : GroupCause) : (enterStandby g c s).finishSide = s.finishSide :=
  finishSide_of_lines (enterStandby_lines' g c s)
@[simp] theorem enterWaking_finishSide (g : GroupId) (c : GroupCause) : (enterWaking g c s).finishSide = s.finishSide :=
  finishSide_of_lines (enterWaking_lines' g c s)
@[simp] theorem clearRuns_finishSide (g : GroupId) : (clearRuns g s).finishSide = s.finishSide :=
  finishSide_of_lines (clearRuns_lines' g s)
@[simp] theorem handOn_finishSide (p : Port) : (handOn p s).finishSide = s.finishSide := finishSide_of_lines (handOn_lines' p s)

@[simp] theorem addSlotEntry_finishSide (u : Bool) (i : SlotId) (m : SlotMsg) : (addSlotEntry u i m s).finishSide = s.finishSide := by
  obtain ⟨q, hq⟩ := addSlotEntry_txq u i m s
  rw [hq, setTxq_finishSide]

@[simp] theorem makeOwed_finishSide (i : SlotId) : (makeOwed i s).finishSide = s.finishSide := by
  unfold makeOwed makeLineOwed
  dsimp only
  repeat' split
  all_goals simp

@[simp] theorem makeRestart_finishSide : (makeRestart s).finishSide = s.finishSide := by
  have entry (t : State) : (addEntry false (.ofNone .restart) t).finishSide = t.finishSide := by
    unfold addEntry
    dsimp only
    split <;> rfl
  have paid (t : State) : ({ t with restartOwed := false } : State).finishSide = t.finishSide := rfl
  unfold makeRestart
  split
  · rw [paid, entry]
  · rfl

theorem takeFlash_finishSide (p : Port) : (takeFlash p s).finishSide = s.finishSide := by
  unfold takeFlash
  dsimp only
  repeat' split
  all_goals simp

theorem endBreak_finishSide (p : Port) (ms : Nat) : (endBreak p ms s).finishSide = s.finishSide := by
  unfold endBreak classifyBreak endOpenRun
  dsimp only
  repeat' split
  all_goals simp [takeFlash_finishSide]

theorem completeDigit_finishSide (p : Port) : (completeDigit p s).finishSide = s.finishSide := by
  unfold completeDigit offerDigit
  dsimp only
  repeat' split
  all_goals simp

theorem beginCondition_finishSide (a : AlarmId) : (beginCondition a s).finishSide = s.finishSide := by
  unfold beginCondition markAlarm
  repeat' split
  all_goals simp

theorem endCondition_finishSide (a : AlarmId) : (endCondition a s).finishSide = s.finishSide := by
  unfold endCondition markAlarm
  repeat' split
  all_goals simp

theorem takeContact_finishSide (p : Port) (c : ContactState) : (takeContact p c s).finishSide = s.finishSide := by
  unfold takeContact
  cases c <;> simp [beginCondition_finishSide, endCondition_finishSide]

theorem endSettle_finishSide (g : GroupId) : (endSettle g s).finishSide = s.finishSide := by
  unfold endSettle
  dsimp only
  rw [inTurn_keeps State.finishSide handOnSettled]
  · simp
  · intro p t
    unfold handOnSettled
    split <;> simp

theorem beginPhase_finishSide : (beginPhase s).finishSide = s.finishSide := by
  have driven (t : State) : (driveRunningPhase t).finishSide = t.finishSide := by
    unfold driveRunningPhase State.finishSide
    rfl
  unfold beginPhase
  dsimp only
  rw [inTurn_keeps State.finishSide ringLine, driven]
  · rfl
  · intro e t
    unfold ringLine
    dsimp only
    split <;> simp

theorem startSending_finishSide (q : List Entry) : (startSending q s).finishSide = s.finishSide := by
  induction q with
  | nil => rfl
  | cons e rest ih =>
    unfold startSending
    split
    · exact ih
    · unfold startEntry lendDigits
      dsimp only
      split <;> rfl

theorem setStandby_finishSide (body : List Byte) : (setStandby body s).finishSide = s.finishSide := by
  unfold setStandby requestStandby
  dsimp only
  repeat' split
  all_goals simp

theorem setAwake_finishSide (body : List Byte) : (setAwake body s).finishSide = s.finishSide := by
  unfold setAwake wakeGroup
  repeat' split
  all_goals simp

theorem setParam_finishSide (body : List Byte) : (setParam body s).finishSide = s.finishSide := by
  unfold setParam
  split <;> rfl

theorem setAcknowledged_finishSide (body : List Byte) : (setAcknowledged body s).finishSide = s.finishSide := by
  unfold setAcknowledged
  split <;> rfl
end

/-- A slot that is not FREE is blocked or marked for it: it is HELD and in use as before. -/
theorem blockSlot_finished (i : SlotId) {s : State} (h : EventsFinished s) : EventsFinished (blockSlot i s) := by
  have put {sl : Slot} {t : State} (ht : t.slots = s.slots.put i sl) (hh : t.holdover = s.holdover) (hm : t.mode = s.mode)
      (held : sl.isHeld = (s.slots.at i).isHeld) (used : sl.inUse = (s.slots.at i).inUse) : EventsFinished t := by
    have same (f : Slot → Bool) (hf : f sl = f (s.slots.at i)) : (allSlots.any fun j => f (t.slots.at j))
        = allSlots.any fun j => f (s.slots.at j) := by
      congr 1
      funext j
      rw [ht]
      by_cases hj : j = i
      · rw [hj, Table.at_put_same, hf]
      · rw [Table.at_put_other _ _ hj]
    have heldSame : anyHeld t = anyHeld s := same Slot.isHeld held
    have usedSame : anyInUse t = anyInUse s := same Slot.inUse used
    unfold EventsFinished
    rw [heldSame, usedSame, hh, hm]
    exact h
  unfold blockSlot
  split
  · next hs => exact put (sl := .blocked .cabinet) rfl rfl rfl (by rw [hs]; rfl) (by rw [hs]; rfl)
  · exact h
  · refine put (sl := (s.slots.at i).withBlockPending true) rfl rfl rfl ?_ ?_
    all_goals cases s.slots.at i <;> rfl

theorem enterResync_finished {s : State} (h : EventsFinished s) : EventsFinished (enterResync s) := by
  refine EventsFinished.of_side (s := { s with holdover := none }) ?_ ⟨.inl rfl, h.2⟩
  have owed (t : State) : (oweRestart false t).finishSide = t.finishSide := makeRestart_finishSide _
  unfold enterResync linkEvent
  rw [owed, report_finishSide, setLink_finishSide]
  rfl

/-- A millisecond takes one from the holdover timer where it runs. -/
theorem tick_finished {s : State} (h : EventsFinished s) : EventsFinished (tick s) := by
  have holdover : (tick s).holdover = countDown s.holdover := rfl
  have slots : (tick s).slots = s.slots := rfl
  have mode : (tick s).mode = s.mode := rfl
  unfold EventsFinished
  rw [anyHeld_of_slots slots, anyInUse_of_slots slots, holdover, mode]
  refine ⟨h.1.imp_left fun hn => ?_, h.2⟩
  rw [hn]
  rfl

theorem bare_finished {s t : State} (hb : Bare s t) (h : EventsFinished s) : EventsFinished t := by
  cases hb with
  | breakEnd p ms => exact h.of_side (endBreak_finishSide s p ms)
  | digit p => exact h.of_side (completeDigit_finishSide (setHookPin p true s) p)
  | contact p c => exact h.of_side (takeContact_finishSide (contactSample p c s) p c)
  | settled g => exact h.of_side (endSettle_finishSide s g)
  | phase => exact h.of_side (beginPhase_finishSide s)
  | started => exact h.of_side (startSending_finishSide s s.txq)
  | param body => exact h.of_side (setParam_finishSide s body)
  | standby body => exact h.of_side (setStandby_finishSide s body)
  | wake body => exact h.of_side (setAwake_finishSide s body)
  | block body =>
    unfold setBlock
    split
    · exact blockSlot_finished _ h
    · exact h
  | trunkRelease =>
    unfold releaseTrunk
    split
    · exact h
    · exact enterResync_finished h
    · exact h
  | acknowledged body => exact h.of_side (setAcknowledged_finishSide s body)
  | dropPartial => exact h

theorem serve_finishSide (s : State) : (serve s).finishSide = s.finishSide := (congrArg State.finishSide (serve_port s) :)

/-- Settles O12: the end of an event brings it about whatever the event was, and every other change keeps it. -/
theorem stepKeepsEventsFinished : Obligations.StepKeepsEventsFinished := fun _ _ h hst =>
  step_keeps (fun _ _ hc hs => by
    cases hc with
    | event => exact finish_finished _ _
    | bare hb => exact bare_finished hb hs
    | served => exact hs.of_side (serve_finishSide _)
    | fresh _ hf => cases hf <;> exact ⟨.inl rfl, fun hm => nomatch hm⟩
    | outside => exact hs
    | port => exact hs
    | ticked => exact tick_finished hs
    | waiting => exact hs) h hst

end Sys2Proof.Machine
end

