-- ==== Sys2Proof/Proofs/RingInvariant.lean ====
section
/-! PROOF. The ring phase table and the ring queue (O11): said of the ports that stand in them, so that a renumbering changes nothing, and
shown of each operation that writes them. -/

namespace Sys2Proof.Machine

/-! ## The invariant, of ports -/

/-- The ports that stand in the cells. -/
abbrev placedPorts (cells : Fin 6 → List Port) : List Port := allCells.flatMap cells

/-- The ringing holds: of the ports in each cell and in the ring queue, the ring capacity, and the lines that are called and that name a
slot. -/
structure RingOf (cells : Fin 6 → List Port) (queue : List Port) (capacity : Nat) (called named : Port → Bool) : Prop where
  room : ∀ k, (cells k).length ≤ capacity
  bus : ∀ k, ∀ p ∈ cells k, k.val / 3 = (busOf p).val
  once : (placedPorts cells ++ queue).Nodup
  rung : ∀ p ∈ placedPorts cells ++ queue, called p = true
  slot : ∀ p, called p = true → named p = true

/-- The ports of each cell. -/
def cellPorts (s : State) (k : Fin 6) : List Port := (s.cells.at k).map (·.port)

/-- Whether the line of a port is called. -/
def calledAt (s : State) (p : Port) : Bool := (s.lines.at p).state.called

/-- Whether the line of a port names a slot. -/
def namedAt (s : State) (p : Port) : Bool := (s.lines.at p).call.isSome

theorem allPlaced_ports (s : State) : (allPlaced s).map (·.port) = placedPorts (cellPorts s) := List.map_flatMap

theorem ringHolds_iff (s : State) :
    RingHolds s ↔ RingOf (cellPorts s) s.ringQueue s.posture.ringCapacity (calledAt s) (namedAt s) := by
  constructor
  · rintro ⟨cell, once, called, named⟩
    rw [allPlaced_ports] at once called
    refine ⟨fun k => ?_, fun k p hp => ?_, once, called, named⟩
    · unfold cellPorts; rw [List.length_map]; exact (cell k).1
    · obtain ⟨e, he, rfl⟩ := List.mem_map.mp hp
      exact (cell k).2 e he
  · rintro ⟨room, bus, once, called, named⟩
    unfold RingHolds
    rw [allPlaced_ports]
    refine ⟨fun k => ⟨?_, fun e he => bus k e.port (List.mem_map.mpr ⟨e, he, rfl⟩)⟩, once, called, named⟩
    have := room k
    unfold cellPorts at this
    rwa [List.length_map] at this

theorem isPlaced_iff (s : State) (p : Port) : isPlaced s p = true ↔ p ∈ placedPorts (cellPorts s) := by
  rw [← allPlaced_ports]
  unfold isPlaced
  simp

/-! ## Joining and leaving -/

/-- One cell takes a port at its tail. -/
def joinedCell (cells : Fin 6 → List Port) (k : Fin 6) (p : Port) (j : Fin 6) : List Port := if j = k then cells j ++ [p] else cells j

theorem flatMap_joinedCell (cells : Fin 6 → List Port) (k : Fin 6) (p : Port) {l : List (Fin 6)} (hn : l.Nodup) (hk : k ∈ l) :
    (l.flatMap (joinedCell cells k p)).Perm (p :: l.flatMap cells) := by
  induction l with
  | nil => exact absurd hk List.not_mem_nil
  | cons j l ih =>
    obtain ⟨hj, hl⟩ := List.nodup_cons.mp hn
    rw [List.flatMap_cons, List.flatMap_cons]
    by_cases hjk : j = k
    · subst hjk
      have rest : l.flatMap (joinedCell cells j p) = l.flatMap cells :=
        List.flatMap_congr fun i hi => if_neg fun (h : i = j) => hj (h ▸ hi)
      rw [rest]
      unfold joinedCell
      rw [if_pos rfl, List.append_assoc]
      exact List.perm_middle
    · have tail := ih hl ((List.mem_cons.mp hk).resolve_left (Ne.symm hjk))
      unfold joinedCell at tail ⊢
      rw [if_neg hjk]
      exact (List.Perm.append_left _ tail).trans List.perm_middle

theorem placedPorts_joinedCell (cells : Fin 6 → List Port) (k : Fin 6) (p : Port) :
    (placedPorts (joinedCell cells k p)).Perm (p :: placedPorts cells) :=
  flatMap_joinedCell cells k p (List.nodup_finRange 6) (List.mem_finRange k)

theorem placedPorts_nil : placedPorts (fun _ => []) = [] := List.flatMap_eq_nil_iff.mpr fun _ _ => rfl

namespace RingOf
variable {cells : Fin 6 → List Port} {queue : List Port} {capacity : Nat} {called named : Port → Bool}

theorem not_mem_of_not_called {p : Port} (h : RingOf cells queue capacity called named) (hp : called p = false) :
    p ∉ placedPorts cells ++ queue := fun hm => by
  have := h.rung p hm
  rw [hp] at this
  exact nomatch this

/-- The lines change, and those that ring stay called. -/
theorem relined {called' named' : Port → Bool} (hc : ∀ p ∈ placedPorts cells ++ queue, called' p = true)
    (hn : ∀ p, called' p = true → named' p = true) (h : RingOf cells queue capacity called named) :
    RingOf cells queue capacity called' named' := ⟨h.room, h.bus, h.once, hc, hn⟩

theorem reordered {queue' : List Port} (hq : queue'.Perm queue) (h : RingOf cells queue capacity called named) :
    RingOf cells queue' capacity called named where
  room := h.room
  bus := h.bus
  once := ((List.Perm.append_left _ hq).nodup_iff).mpr h.once
  rung p hp := h.rung p ((List.Perm.append_left _ hq).mem_iff.mp hp)
  slot := h.slot

/-- A called line that does not ring yet joins the ring queue. -/
theorem queued {p : Port} (hc : called p = true) (hp : p ∉ placedPorts cells ++ queue) (h : RingOf cells queue capacity called named) :
    RingOf cells (p :: queue) capacity called named where
  room := h.room
  bus := h.bus
  once := List.perm_middle.nodup_iff.mpr (List.nodup_cons.mpr ⟨hp, h.once⟩)
  rung q hq := by
    rcases List.mem_cons.mp (List.perm_middle.mem_iff.mp hq) with rfl | hq
    · exact hc
    · exact h.rung q hq
  slot := h.slot

/-- A queued line is placed in a cell of its bus with room. -/
theorem placed {p : Port} {k : Fin 6} (hr : (cells k).length < capacity) (hb : k.val / 3 = (busOf p).val)
    (h : RingOf cells (p :: queue) capacity called named) : RingOf (joinedCell cells k p) queue capacity called named := by
  have perm : (placedPorts (joinedCell cells k p) ++ queue).Perm (placedPorts cells ++ p :: queue) :=
    ((placedPorts_joinedCell cells k p).append_right queue).trans List.perm_middle.symm
  refine ⟨fun j => ?_, fun j q hq => ?_, perm.nodup_iff.mpr h.once, fun q hq => h.rung q (perm.mem_iff.mp hq), h.slot⟩
  · unfold joinedCell
    split
    · next hj => subst hj; rw [List.length_append]; exact hr
    · exact h.room j
  · unfold joinedCell at hq
    split at hq
    · next hj =>
      subst hj
      rcases List.mem_append.mp hq with hq | hq
      · exact h.bus j q hq
      · rw [List.mem_singleton.mp hq]; exact hb
    · exact h.bus j q hq

theorem erase_queue {p : Port} (h : RingOf cells queue capacity called named) :
    queue.erase p = queue.filter fun q => decide (q ≠ p) := by
  rw [(h.once.sublist (List.sublist_append_right _ _)).erase_eq_filter]
  exact List.filter_congr fun q _ => by by_cases hq : q = p <;> simp [hq]

/-- A line leaves the cells and the ring queue. -/
theorem left (p : Port) (h : RingOf cells queue capacity called named) :
    RingOf (fun k => (cells k).filter fun q => decide (q ≠ p)) (queue.erase p) capacity (fun q => if q = p then false else called q)
      named := by
  have ring : placedPorts (fun k => (cells k).filter fun q => decide (q ≠ p)) ++ queue.erase p
      = (placedPorts cells ++ queue).filter fun q => decide (q ≠ p) := by
    rw [h.erase_queue, List.filter_append, List.filter_flatMap]
  refine ⟨fun k => (List.length_filter_le _ _).trans (h.room k), fun k q hq => h.bus k q (List.mem_of_mem_filter hq), ?_, ?_, ?_⟩
  · rw [ring]; exact h.once.filter _
  · intro q hq
    rw [ring, List.mem_filter, decide_eq_true_eq] at hq
    rw [if_neg hq.2]
    exact h.rung q hq.1
  · intro q hq
    split at hq
    · exact nomatch hq
    · exact h.slot q hq

theorem emptied (h : RingOf cells queue capacity called named) : RingOf (fun _ => []) [] capacity called named where
  room _ := Nat.zero_le _
  bus _ _ hp := absurd hp List.not_mem_nil
  once := by rw [placedPorts_nil]; exact List.nodup_nil
  rung p hp := by rw [placedPorts_nil] at hp; exact absurd hp List.not_mem_nil
  slot := h.slot

theorem widened {capacity' : Nat} (hc : capacity ≤ capacity') (h : RingOf cells queue capacity called named) :
    RingOf cells queue capacity' called named := ⟨fun k => (h.room k).trans hc, h.bus, h.once, h.rung, h.slot⟩

end RingOf

/-! ## The operations on the ringing -/

/-- What the invariant looks at. -/
def State.ringSide (s : State) : (Fin 6 → List Port) × List Port × Nat × (Port → Bool) × (Port → Bool) :=
  (cellPorts s, s.ringQueue, s.posture.ringCapacity, calledAt s, namedAt s)

/-- The ringing holds in what the invariant looks at. -/
abbrev RingIn (x : (Fin 6 → List Port) × List Port × Nat × (Port → Bool) × (Port → Bool)) : Prop :=
  RingOf x.1 x.2.1 x.2.2.1 x.2.2.2.1 x.2.2.2.2

theorem ringHolds_side (s : State) : RingHolds s ↔ RingIn s.ringSide := ringHolds_iff s

theorem RingHolds.of_side {s t : State} (hs : t.ringSide = s.ringSide) (h : RingHolds s) : RingHolds t := by
  rw [ringHolds_side] at h ⊢
  rwa [hs]

theorem ringSide_of_lineCore {s t : State} (hc : t.lineCore = s.lineCore) : t.ringSide = s.ringSide := by
  have cells : t.cells.map (fun c => c.map fun e => { e with number := 0 }) = s.cells.map fun c => c.map fun e => { e with number := 0 } :=
    (congrArg State.cells hc :)
  have queue : t.ringQueue = s.ringQueue := (congrArg State.ringQueue hc :)
  have posture : t.posture = s.posture := (congrArg State.posture hc :)
  have lines := (lineCore_fields hc).1
  unfold State.ringSide
  rw [queue, posture]
  refine Prod.ext (funext fun k => ?_) (Prod.ext rfl (Prod.ext rfl (Prod.ext (funext fun p => ?_) (funext fun p => ?_))))
  · have cell := congrArg (fun v => (Table.at v k).map (·.port)) cells
    unfold cellPorts
    simpa only [Table.at, Vector.getElem_map, List.map_map, Function.comp_def] using cell
  · exact congrArg LineState.called (lines p).1
  · exact (lines p).2

theorem advancePlacement_ringSide (s : State) : (advancePlacement s).ringSide = s.ringSide := by
  unfold advancePlacement
  split
  · rfl
  · refine Prod.ext (funext fun k => ?_) rfl
    show (Table.at (s.cells.map fun (c : List Placed) => c.map (renumbered (allPlaced s))) k).map (·.port) = cellPorts s k
    unfold cellPorts Table.at
    rw [Vector.getElem_map, List.map_map]
    rfl

theorem placeIn_ringSide (k : Fin 6) (p : Port) (s : State) :
    (placeIn k p s).ringSide = (joinedCell (cellPorts s) k p, s.ringSide.2) := by
  unfold placeIn
  rw [advancePlacement_ringSide]
  refine Prod.ext (funext fun j => ?_) rfl
  show ((s.cells.put k (s.cells.at k ++ [{ port := p, number := s.nextPlacement }])).at j).map (·.port) = joinedCell (cellPorts s) k p j
  unfold joinedCell
  split
  · next hj => subst hj; rw [Table.at_put_same, List.map_append]; rfl
  · next hj => rw [Table.at_put_other _ _ hj]; rfl

/-- The cell found for a port is on its bus and has room. -/
theorem roomFor_some {s : State} {p : Port} {k : Fin 6} (h : roomFor s p = some k) :
    (cellPorts s k).length < s.posture.ringCapacity ∧ k.val / 3 = (busOf p).val := by
  unfold roomFor at h
  refine ⟨?_, ?_⟩
  · have room := List.find?_some h
    unfold hasRoom at room
    unfold cellPorts
    rw [List.length_map]
    simpa using room
  · have onBus (c : Fin 3) : (cellOf c (busOf p)).val / 3 = (busOf p).val := by
      unfold cellOf
      dsimp only
      omega
    have mem := List.mem_of_find?_eq_some h
    unfold trialOrder at mem
    simp only [List.mem_cons, List.not_mem_nil, or_false] at mem
    rcases mem with rfl | rfl | rfl
    all_goals exact onBus _

/-- The ports that ring or wait to ring. -/
abbrev ringPorts (s : State) : List Port := placedPorts (cellPorts s) ++ s.ringQueue

/-- A called line that does not ring yet is handed to the Ring Scheduler. -/
theorem handOn_ringHolds {s : State} {p : Port} (hc : (s.lines.at p).state.called = true) (hp : p ∉ ringPorts s) (h : RingHolds s) :
    RingHolds (handOn p s) := by
  rw [ringHolds_side] at h ⊢
  have joined := RingOf.queued hc hp h
  unfold handOn
  split
  · next k hk =>
    rw [placeIn_ringSide]
    exact joined.placed (roomFor_some hk).1 (roomFor_some hk).2
  · exact joined.reordered (joinByClass_perm s p s.ringQueue)

/-- A line of the ring queue is placed, or stays. -/
theorem scanOne_ringHolds {s : State} {p : Port} (hp : p ∈ s.ringQueue) (h : RingHolds s) :
    RingHolds (scanOne p s) ∧ ∀ q, q ≠ p → q ∈ s.ringQueue → q ∈ (scanOne p s).ringQueue := by
  unfold scanOne
  split
  · next k hk =>
    have side := placeIn_ringSide k p (setRingQueue (s.ringQueue.erase p) s)
    have queue : (placeIn k p (setRingQueue (s.ringQueue.erase p) s)).ringQueue = s.ringQueue.erase p :=
      (congrArg (fun x => x.2.1) side :)
    refine ⟨?_, fun q hq hm => ?_⟩
    · rw [ringHolds_side] at h ⊢
      rw [side]
      exact (RingOf.reordered (List.perm_cons_erase hp).symm h).placed (roomFor_some hk).1 (roomFor_some hk).2
    · rw [queue]; exact (List.mem_erase_of_ne hq).mpr hm
  · exact ⟨h, fun _ _ hm => hm⟩

theorem scanRing_ringHolds {s : State} (h : RingHolds s) : RingHolds (scanRing s) := by
  suffices scan : ∀ (ps : List Port) (t : State), ps.Nodup → (∀ p ∈ ps, p ∈ t.ringQueue) → RingHolds t → RingHolds (inTurn ps scanOne t) by
    have once : s.ringQueue.Nodup := ((ringHolds_iff s).mp h).once.sublist (List.sublist_append_right _ _)
    exact scan s.ringQueue s once (fun _ hp => hp) h
  intro ps
  induction ps with
  | nil => exact fun _ _ _ ht => ht
  | cons p ps ih =>
    intro t hn hq ht
    obtain ⟨hp, hn⟩ := List.nodup_cons.mp hn
    obtain ⟨holds, stays⟩ := scanOne_ringHolds (hq p List.mem_cons_self) ht
    exact ih (scanOne p t) hn (fun q hm => stays q (fun he => hp (he ▸ hm)) (hq q (List.mem_cons_of_mem _ hm))) holds

/-! ## The operations on the lines -/

theorem leaveRing_ringSide (p : Port) (s : State) :
    (leaveRing p s).ringSide
      = (fun k => (cellPorts s k).filter fun q => decide (q ≠ p), s.ringQueue.erase p, s.ringSide.2.2) := by
  refine Prod.ext (funext fun k => ?_) rfl
  show (Table.at (s.cells.map fun (c : List Placed) => c.filter fun (e : Placed) => decide (e.port ≠ p)) k).map (·.port) = _
  unfold cellPorts Table.at
  rw [Vector.getElem_map]
  dsimp only
  rw [List.filter_map]
  rfl

/-- The lines that are called after one of them is written. -/
theorem calledAt_put {s t : State} {p : Port} {l : Line} (ht : t.lines = s.lines.put p l) :
    calledAt t = (fun q => if q = p then l.state.called else calledAt s q)
      ∧ namedAt t = fun q => if q = p then l.call.isSome else namedAt s q := by
  refine ⟨funext fun q => ?_, funext fun q => ?_⟩
  · unfold calledAt
    rw [ht, Table.at_put]
    split <;> rfl
  · unfold namedAt
    rw [ht, Table.at_put]
    split <;> rfl

/-- Whether a line's change of state takes it out of the ringing. -/
abbrev LeavesRing (p : Port) (st : LineState) (s : State) : Prop := (s.lines.at p).state.called = true ∧ ¬ st.called = true

theorem moveLine_cells (p : Port) (st : LineState) (call : Option (SlotId × Direction)) (timer : Option Nat) (s : State) :
    (moveLine p st call timer s).cells = if LeavesRing p st s then (leaveRing p s).cells else s.cells := by
  unfold moveLine leaveRing emptyBuffer
  dsimp only
  repeat' split
  all_goals simp

theorem moveLine_ringQueue (p : Port) (st : LineState) (call : Option (SlotId × Direction)) (timer : Option Nat) (s : State) :
    (moveLine p st call timer s).ringQueue = if LeavesRing p st s then s.ringQueue.erase p else s.ringQueue := by
  unfold moveLine leaveRing emptyBuffer
  dsimp only
  repeat' split
  all_goals simp

theorem moveLine_posture (p : Port) (st : LineState) (call : Option (SlotId × Direction)) (timer : Option Nat) (s : State) :
    (moveLine p st call timer s).posture = s.posture := (congrArg State.posture (moveLine_lines' p st call timer s) :)

/-- A line changes state: one that is called no longer has left the ringing, and one that is called names its slot. -/
theorem moveLine_ringHolds {s : State} {p : Port} {st : LineState} {call : Option (SlotId × Direction)} {timer : Option Nat}
    (hc : CallKept st call (s.lines.at p)) (h : RingHolds s) : RingHolds (moveLine p st call timer s) := by
  rw [ringHolds_iff] at h ⊢
  obtain ⟨called, named⟩ := calledAt_put (moveLine_lines p st call timer s)
  have cells : cellPorts (moveLine p st call timer s)
      = if LeavesRing p st s then fun k => (cellPorts s k).filter fun q => decide (q ≠ p) else cellPorts s := by
    have left : cellPorts (leaveRing p s) = fun k => (cellPorts s k).filter fun q => decide (q ≠ p) :=
      congrArg Prod.fst (leaveRing_ringSide p s)
    rw [← left]
    unfold cellPorts
    rw [moveLine_cells]
    split <;> rfl
  rw [cells, moveLine_ringQueue, moveLine_posture, called, named]
  dsimp only [Line.moved]
  have slot (q : Port) (hq : (if q = p then st.called else calledAt s q) = true) :
      (if q = p then call.isSome else namedAt s q) = true := by
    split at hq
    · next hqp =>
      subst hqp
      rw [if_pos rfl]
      rcases hc hq with hs | ⟨old, same⟩
      · exact hs
      · rw [same]; exact h.slot q old
    · next hqp => rw [if_neg hqp]; exact h.slot q hq
  by_cases hl : LeavesRing p st s
  · rw [if_pos hl, if_pos hl]
    have left := h.left p
    refine RingOf.relined (fun q hq => ?_) slot left
    have := left.rung q hq
    split at this
    · exact nomatch this
    · next hqp => rw [if_neg hqp]; exact this
  · rw [if_neg hl, if_neg hl]
    refine h.relined (fun q hq => ?_) slot
    have rung := h.rung q hq
    split
    · next hqp =>
      subst hqp
      by_contra hn
      exact hl ⟨rung, hn⟩
    · exact rung

theorem ringHolds_kept : KeepsLines RingHolds where
  quiet hc h := h.of_side (ringSide_of_lineCore hc)
  moved _ hc h := moveLine_ringHolds hc h
  joined _ _ h := moveLine_ringHolds (fun hc => nomatch hc) (RingHolds.of_side rfl h)
  remapped {s p c r} _ hc h := by
    rw [ringHolds_iff] at h ⊢
    obtain ⟨called, named⟩ := calledAt_put (s := s) (t := setLine p (remappedLine c r) s) rfl
    have uncalled : (remappedLine c r).state.called = false := by
      unfold remappedLine
      dsimp only
      split <;> rfl
    have silent : calledAt s p = false := by
      by_contra hn
      have := h.slot p (Bool.eq_true_of_not_eq_false hn)
      unfold namedAt at this
      rw [hc] at this
      exact nomatch this
    rw [called, named]
    refine h.relined (fun q hq => ?_) fun q hq => ?_
    · have rung := h.rung q hq
      split
      · next hqp => rw [hqp, silent] at rung; exact nomatch rung
      · exact rung
    · split at hq
      · rw [uncalled] at hq; exact nomatch hq
      · next hqp => rw [if_neg hqp]; exact h.slot q hq
  silenced {s} h := by
    rw [ringHolds_iff] at h ⊢
    have cells : cellPorts (emptyRing s) = fun _ => [] := by
      funext k
      show ((Table.all 6 ([] : List Placed)).at k).map (·.port) = []
      rw [Table.at_all]
      rfl
    rw [cells]
    exact h.emptied
  handed {s u p} hc hu h := by
    refine handOn_ringHolds hc ?_ h
    rcases hu with ⟨hp, hq⟩ | ⟨hu, hcu, cells, queue⟩
    · rw [← Bool.not_eq_true, isPlaced_iff] at hp
      exact fun hm => (List.mem_append.mp hm).elim hp hq
    · have ring : ringPorts s = ringPorts u := by
        unfold ringPorts cellPorts
        rw [cells, queue]
      rw [ring]
      exact ((ringHolds_iff u).mp hu).not_mem_of_not_called hcu
  scanned := scanRing_ringHolds
  raised {s p} hr h := by
    rw [ringHolds_iff] at h ⊢
    refine RingOf.widened (capacity := s.posture.ringCapacity) ?_ h
    revert hr
    show s.posture.rank ≤ p.rank → s.posture.ringCapacity ≤ p.ringCapacity
    cases s.posture <;> cases p <;> decide
  normal _ h := h
  config _ h := h

/-! ## The fall of the posture -/

theorem insertByNumber_perm (e : Placed) (l : List Placed) : (insertByNumber e l).Perm (e :: l) := by
  induction l with
  | nil => exact .refl _
  | cons f l ih =>
    unfold insertByNumber
    split
    · exact .refl _
    · exact (ih.cons f).trans (.swap e f l)

theorem byNumber_perm (l : List Placed) : (byNumber l).Perm l := by
  induction l with
  | nil => exact .refl _
  | cons e l ih => exact (insertByNumber_perm e _).trans (ih.cons e)

theorem rejoin_perm (s : State) (out q : List Port) : (rejoin s out q).Perm (out ++ q) := by
  have parted : (out.filter (isPriority s) ++ out.filter fun p => !isPriority s p).Perm out := List.filter_append_perm _ out
  have whole : q.takeWhile (isPriority s) ++ q.dropWhile (isPriority s) = q := List.takeWhile_append_dropWhile
  unfold rejoin
  calc out.filter (isPriority s) ++ q.takeWhile (isPriority s) ++ (out.filter (fun p => !isPriority s p) ++ q.dropWhile (isPriority s))
    _ = out.filter (isPriority s) ++ (q.takeWhile (isPriority s) ++ out.filter (fun p => !isPriority s p) ++ q.dropWhile (isPriority s)) := by
        simp only [List.append_assoc]
    _ |>.Perm (out.filter (isPriority s) ++ (out.filter (fun p => !isPriority s p) ++ q.takeWhile (isPriority s) ++ q.dropWhile (isPriority s))) :=
        .append_left _ (.append_right _ List.perm_append_comm)
    _ = (out.filter (isPriority s) ++ out.filter fun p => !isPriority s p) ++ (q.takeWhile (isPriority s) ++ q.dropWhile (isPriority s)) := by
        simp only [List.append_assoc]
    _ |>.Perm (out ++ q) := by rw [whole]; exact parted.append_right q

/-- A line taken out of its cell stays called and keeps its slot. -/
theorem demote_ringSide (e : Placed) (s : State) : (demote e s).ringSide = s.ringSide := by
  have reported (r : Report) (t : State) : (report r t).ringSide = t.ringSide := (congrArg State.ringSide (report_port r t) :)
  have off : ({ s with ringDrive := s.ringDrive.put e.port false } : State).ringSide = s.ringSide := rfl
  unfold demote
  dsimp only
  split
  · next hl =>
    generalize ht : ({ s with ringDrive := s.ringDrive.put e.port false } : State) = t at off ⊢
    have line : t.lines.at e.port = s.lines.at e.port := by rw [← ht]
    rw [← line] at hl ⊢
    rw [← off]
    have stays : ¬ LeavesRing e.port .offered t := fun hn => hn.2 rfl
    obtain ⟨called, named⟩ := calledAt_put (moveLine_lines e.port .offered (t.lines.at e.port).call (t.lines.at e.port).timer t)
    unfold enterLine callEvent
    rw [if_neg (fun hn => nomatch hn.1)]
    dsimp only
    rw [if_neg (by decide), reported]
    unfold State.ringSide
    rw [moveLine_ringQueue, if_neg stays, moveLine_posture, called, named]
    refine Prod.ext (funext fun k => ?_) (Prod.ext rfl (Prod.ext rfl (Prod.ext (funext fun q => ?_) (funext fun q => ?_))))
    · show cellPorts _ k = cellPorts t k
      unfold cellPorts
      rw [moveLine_cells, if_neg stays]
    · dsimp only [Line.moved]
      split
      · next hq => subst hq; unfold calledAt; rw [hl]; rfl
      · rfl
    · dsimp only [Line.moved]
      split
      · next hq => subst hq; rfl
      · rfl
  · exact off

/-- The lines beyond a capacity leave their cells for the ring queue. -/
theorem RingOf.cut {cells : Fin 6 → List Port} {queue : List Port} {capacity capacity' : Nat} {called named : Port → Bool}
    (h : RingOf cells queue capacity called named) :
    RingOf (fun k => (cells k).take capacity') ((allCells.flatMap fun k => (cells k).drop capacity') ++ queue) capacity' called named := by
  have cut (l : List (Fin 6)) : (l.flatMap (fun k => (cells k).take capacity') ++ l.flatMap fun k => (cells k).drop capacity').Perm
      (l.flatMap cells) := by
    refine (List.flatMap_append_perm l _ _).trans (.of_eq (List.flatMap_congr fun k _ => ?_))
    exact List.take_append_drop capacity' (cells k)
  have perm : (placedPorts (fun k => (cells k).take capacity') ++ ((allCells.flatMap fun k => (cells k).drop capacity') ++ queue)).Perm
      (placedPorts cells ++ queue) := by
    rw [← List.append_assoc]
    exact (cut allCells).append_right queue
  exact ⟨fun k => List.length_take_le _ _, fun k p hp => h.bus k p (List.mem_of_mem_take hp), perm.nodup_iff.mpr h.once,
    fun p hp => h.rung p (perm.mem_iff.mp hp), h.slot⟩

theorem shedRinging_ringHolds {s : State} (p : Posture) (h : RingHolds s) : RingHolds (shedRinging { s with posture := p }) := by
  have cells : cellPorts { s with posture := p, cells := s.cells.map fun c => c.take p.ringCapacity }
      = fun k => (cellPorts s k).take p.ringCapacity := by
    funext k
    show (Table.at (s.cells.map fun (c : List Placed) => c.take p.ringCapacity) k).map (·.port) = _
    unfold cellPorts Table.at
    rw [Vector.getElem_map, List.map_take]
  have outPorts : ((byNumber (allCells.flatMap fun k => (s.cells.at k).drop p.ringCapacity)).map (·.port)).Perm
      (allCells.flatMap fun k => (cellPorts s k).drop p.ringCapacity) := by
    refine ((byNumber_perm _).map _).trans (.of_eq ?_)
    rw [List.map_flatMap]
    exact List.flatMap_congr fun k _ => List.map_drop
  unfold shedRinging
  dsimp only
  refine scanRing_ringHolds ?_
  have side := inTurn_keeps State.ringSide demote demote_ringSide
    (byNumber (allCells.flatMap fun k => (s.cells.at k).drop p.ringCapacity))
    { s with posture := p, cells := s.cells.map fun c => c.take p.ringCapacity }
  generalize inTurn _ demote _ = t at side
  have queue : t.ringQueue = s.ringQueue := (congrArg (fun x => x.2.1) side :)
  have rejoined (q : List Port) : (setRingQueue q t).ringSide = (t.ringSide.1, q, t.ringSide.2.2) := rfl
  have perm := (rejoin_perm t _ t.ringQueue).trans (outPorts.append_right t.ringQueue)
  rw [ringHolds_side, rejoined, side]
  rw [ringHolds_side] at h
  rw [queue] at perm ⊢
  have cut := (RingOf.cut (capacity' := p.ringCapacity) h).reordered perm
  unfold State.ringSide
  rw [cells]
  exact cut

theorem ringHolds_keeps : Keeps RingHolds :=
  have k := ringHolds_kept.ops
  { toKeepsOps := k
    shed := fun _ h => shedRinging_ringHolds _ h
    orderly := k.orderly_of_mode fun _ _ h => h
    forced := k.forced_of_mode fun _ _ h => h
    judged := k.judged_of_link ringHolds_kept.link
    service := fun {s} _ h => k.enterService (ringHolds_kept.link (s := s) _ _ h)
    resync := fun {s} _ h => k.enterResync (ringHolds_kept.link (s := s) _ _ h) }

theorem Fresh.ringing {t : State} (h : Fresh t) : t.cells = State.reset.cells ∧ t.ringQueue = [] := by
  cases h <;> exact ⟨rfl, rfl⟩

theorem ringHolds_fresh {t : State} (h : Fresh t) : RingHolds t := by
  obtain ⟨cells, queue⟩ := h.ringing
  have lines := h.lines.1
  have empty : cellPorts t = fun _ => [] := by
    funext k
    unfold cellPorts
    rw [cells]
    show ((Table.all 6 ([] : List Placed)).at k).map (·.port) = []
    rw [Table.at_all]
    rfl
  rw [ringHolds_iff, empty, queue]
  refine ⟨fun _ => Nat.zero_le _, fun _ _ hp => absurd hp List.not_mem_nil, ?_, fun p hp => ?_, fun p hp => ?_⟩
  · rw [placedPorts_nil]; exact List.nodup_nil
  · rw [placedPorts_nil] at hp; exact absurd hp List.not_mem_nil
  · unfold calledAt at hp
    rw [lines, lines_reset] at hp
    exact nomatch hp

/-- Settles O11: a line joins the ringing only where it does not stand there, a cell takes one only on its bus with room, a line that is
called no longer has left, and a fall of the posture moves what is beyond the capacity to the ring queue. -/
theorem stepKeepsRingHolds : Obligations.StepKeepsRingHolds := fun _ _ h hst =>
  step_keeps (fun _ _ hc => ringHolds_keeps.change (fun _ => ringHolds_fresh) (fun _ _ h => h) (fun _ _ _ h => h) hc) h hst

end Sys2Proof.Machine
end

