-- ==== Sys2Proof/Proofs/Resets.lean ====
section
/-! PROOF. The step, the part after a reset and while one lasts (O1, O3, O5, O6), and the class order of a queue (O16). -/

namespace Sys2Proof.Machine

/-- Settles O1: the front command leaves the queue and is executed. -/
theorem stepTakesTheFrontCommand : Obligations.StepTakesTheFrontCommand := fun _ _ => rfl

/-! ## The part as it comes up -/

/-- The part comes up with its reset values, whatever it was before. -/
theorem comesUp_comeUp (k : ResetKind) (r : SelfTest) (s : State) : ComesUp k r s.rate (comeUp k r s) := by
  have all {n : Nat} {α : Type} (a : α) (i : Fin n) : (Table.all n a).at i = a := Table.at_all a i
  exact ⟨⟨rfl, rfl, rfl, rfl, rfl, rfl⟩, fun p => ⟨all _ p, all _ p, all _ p, all _ p, all _ p⟩, fun g => all _ g,
    fun i => ⟨all _ i, all _ i⟩, ⟨rfl, rfl, rfl, rfl, rfl⟩, ⟨rfl, rfl, fun c => all _ c, rfl, rfl⟩,
    ⟨rfl, rfl, rfl, rfl, rfl, rfl, rfl, rfl, rfl⟩, ⟨rfl, rfl, rfl, rfl, rfl, rfl⟩, ⟨rfl, rfl, rfl, rfl, rfl, rfl, rfl, rfl⟩⟩

theorem reset_eq_comeUp : State.reset = comeUp .cold .notRun State.reset := rfl

/-- Settles O3: the state after reset is the part come up from a cold reset with the straps low. -/
theorem stateAfterReset : Obligations.StateAfterReset := comesUp_comeUp .cold .notRun State.reset

/-- Settles O5: a part held in reset drives nothing and has nothing to send. -/
theorem resetPinAssertHoldsThePart : Obligations.ResetPinAssertHoldsThePart := fun s =>
  ⟨holdReset s, rfl, rfl, rfl, rfl, rfl, rfl, rfl, rfl, rfl, rfl, fun p =>
    ⟨if_pos nofun, rfl, Table.at_all false p, fun i => by
      have free : (holdReset s).slots.at i = .free := slots_reset i
      unfold joined
      rw [free]⟩⟩

/-- Settles O6: by the way the reset ends. -/
theorem resetsBringThePartUp : Obligations.ResetsBringThePartUp := by
  refine ⟨fun s high low hp => ?_, fun s left hp => ?_, fun s hrun hw => ?_, fun s high low hp => ?_⟩
  · exact ⟨_, if_pos hp, comesUp_comeUp .cold .notRun { s with rate := rateOfStraps high low }⟩
  · have testing : s.power.testing = true := by rw [hp]; rfl
    exact ⟨⟨_, congrArg Host.Outcome.next (if_pos testing), comesUp_comeUp .cold .pass s⟩,
      ⟨_, congrArg Host.Outcome.next (if_pos testing), comesUp_comeUp .cold .fail s⟩⟩
  · have ready : warmResetReady s = true := by unfold warmResetReady; simp [hrun, hw]
    exact ⟨_, congrArg Host.Outcome.next (if_pos ready), comesUp_comeUp .warm s.selfTest s⟩
  · exact if_pos hp

/-! ## The class order of a queue -/

/-- Settles O16: the PRIORITY lines are the longest such stretch at the head. -/
theorem queuesKeepClassOrder : Obligations.QueuesKeepClassOrder := by
  intro s p priority ordinary hpri hord
  have head : (priority ++ ordinary).takeWhile (isPriority s) = priority := by
    rw [List.takeWhile_append_of_pos hpri]
    cases ordinary with
    | nil => simp
    | cons q _ => simp [hord q List.mem_cons_self]
  have tail : (priority ++ ordinary).dropWhile (isPriority s) = ordinary := by
    rw [List.dropWhile_append_of_pos hpri]
    cases ordinary with
    | nil => rfl
    | cons q _ => simp [hord q List.mem_cons_self]
  unfold joinByClass
  rw [head, tail]

end Sys2Proof.Machine
end

