-- ==== Sys2Proof/Proofs/Clock.lean ====
section
/-! PROOF. Every step answers, no command touches the queue of commands, and what a step does with none waiting (O2). -/

namespace Sys2Proof.Machine

theorem exec_total (c : Instr) (s : State) : ∃ t, exec c s = .next t := by
  obtain ⟨t, ht, -⟩ := exec_changes c s
  exact ⟨t, ht⟩

theorem step_total (s : State) : ∃ t, step s = .next t := by
  unfold step
  split
  · exact exec_total _ _
  · exact ⟨_, rfl⟩

theorem freeSlot_pending (i : SlotId) (s : State) : (freeSlot i s).pending = s.pending :=
  (congrArg State.pending (freeSlot_calls i s) :)

theorem advanceOrder_pending (s : State) : (advanceOrder s).pending = s.pending := by
  unfold advanceOrder
  split <;> rfl

theorem reserve_pending (i : SlotId) (p : Port) (d : Direction) (s : State) : (reserve i p d s).pending = s.pending := by
  unfold reserve
  rw [advanceOrder_pending]
  rfl

theorem pending_kept (q : List Instr) : KeepsSlots fun s => s.pending = q where
  quiet {s t} hc h := by
    have same : t.pending = s.pending := (congrArg State.pending hc :)
    exact same.trans h
  reports _ h := h
  alarms _ h := h
  txq _ h := h
  slot _ h := h
  freed h := (freeSlot_pending _ _).trans h
  failed _ h := h
  blocked _ h := h
  unblocked _ h := h
  reserved _ h := (reserve_pending _ _ _ _).trans h
  marked _ h := h
  unmarked h := h
  port _ _ _ h := h

theorem Changes.pending {b : Scope} (hb : b ≠ .clock) {s t : State} (h : Changes b s t) : t.pending = s.pending := by
  refine h.keeps (I := fun u => u.pending = s.pending) (fun u v hc hu => ?_) rfl
  have inner {x : State} (hx : Change .inner u x) : x.pending = s.pending := (pending_kept _).keeps.change_inner hx hu
  cases hc with
  | event he => exact inner (.event he)
  | bare h => exact inner (.bare h)
  | served => exact inner (.served _)
  | fresh _ _ hq => exact hq.trans hu
  | outside => exact hu
  | port => exact hu
  | ticked hc => exact absurd hc hb
  | waiting hc => exact absurd hc hb

theorem exec_pending (c : Instr) (s : State) : Answers c s fun t => t.pending = s.pending := by
  obtain ⟨t, ht, hc⟩ := exec_changes c s
  refine ⟨t, ht, hc.pending ?_⟩
  unfold scopeOf
  split <;> decide

/-! ## With no command waiting -/

theorem step_idle {s : State} (hq : s.pending = []) : step s = .next (idle s) := by
  unfold step
  rw [hq]

section
variable {s : State} (hrun : Running s) (ht : s.tx ≠ .idle ∨ (s.reply = none ∧ s.reports = []))
include hrun ht

/-- The running part with nothing to start lets a millisecond pass where nothing is due. -/
theorem idle_of_nothing_due (hd : dueNow s = []) : idle s = tick s := by
  have served : serve s = s := serve_eq_self (ht.imp_right fun h => ⟨h.1, .inr (.inr h.2)⟩)
  unfold idle
  rw [hrun]
  unfold idleRunning
  simp only [served, hd]

theorem idle_of_due {c : Instr} (hd : dueNow s = [c]) : idle s = { s with pending := [c] } := by
  have served : serve s = s := serve_eq_self (ht.imp_right fun h => ⟨h.1, .inr (.inr h.2)⟩)
  unfold idle
  rw [hrun]
  unfold idleRunning
  simp only [served, hd, hrun]
end

theorem maySend_iff (s : State) : maySend s = true ↔ s.flow = .go ∧ s.inFlight = none ∧ s.link.messages = true := by
  unfold maySend
  simp [and_assoc]

/-! ## What a millisecond brings about -/

theorem runsOut_iff (t : Option Nat) : runsOut t = true ↔ ∃ ms ∈ t, ms ≤ 1 := by
  cases t <;> simp [runsOut]

theorem mem_groupExpiries (s : State) (g : GroupId) (c : Instr) :
    c ∈ groupExpiries s g ↔ (c = .settleExpiry g ∧ ∃ ms ∈ (s.groups.at g).settle, ms ≤ 1)
      ∨ (c = .slowScan g (groupLevels s.hookPin g) (groupLevels s.faultPin g) ∧ ∃ ms ∈ (s.groups.at g).slow, ms ≤ 1) := by
  unfold groupExpiries
  rw [← runsOut_iff, ← runsOut_iff]
  by_cases hs : runsOut (s.groups.at g).settle = true <;> by_cases hw : runsOut (s.groups.at g).slow = true <;> simp [hs, hw]

theorem lineExpiry_eq_some (s : State) (p : Port) (c : Instr) :
    lineExpiry s p = some c
      ↔ (c = .waitLimitExpiry p ∧ (s.lines.at p).state = .queued ∧ ∃ ms ∈ (s.lines.at p).timer, ms ≤ 1)
        ∨ (c = .ringLimitExpiry p ∧ (s.lines.at p).state ≠ .queued ∧ ∃ ms ∈ (s.lines.at p).timer, ms ≤ 1) := by
  unfold lineExpiry
  rw [← runsOut_iff]
  by_cases hr : runsOut (s.lines.at p).timer = true <;> by_cases hq : (s.lines.at p).state = .queued <;> simp [hr, hq, eq_comm]

theorem slotExpiry_eq_some (s : State) (i : SlotId) (c : Instr) :
    slotExpiry s i = some c
      ↔ (c = .seizeReplyExpiry i ∧ ∃ x ∈ (s.sig.at i).timer, x.kind = .seize ∧ x.left ≤ 1)
        ∨ (c = .clearReplyExpiry i ∧ ∃ x ∈ (s.sig.at i).timer, x.kind = .clear ∧ x.left ≤ 1) := by
  unfold slotExpiry
  cases (s.sig.at i).timer with
  | none => simp
  | some x => by_cases hl : x.left ≤ 1 <;> cases hk : x.kind <;> simp [hl, hk, eq_comm]

/-- What runs out within a millisecond. -/
@[simp] theorem mem_expiries (s : State) (c : Instr) :
    c ∈ expiries s ↔ (c = .phaseBegin ∧ 999 ≤ s.phaseMs)
      ∨ (∃ g, c = .settleExpiry g ∧ ∃ ms ∈ (s.groups.at g).settle, ms ≤ 1)
      ∨ (∃ g, c = .slowScan g (groupLevels s.hookPin g) (groupLevels s.faultPin g) ∧ ∃ ms ∈ (s.groups.at g).slow, ms ≤ 1)
      ∨ (∃ p, c = .waitLimitExpiry p ∧ (s.lines.at p).state = .queued ∧ ∃ ms ∈ (s.lines.at p).timer, ms ≤ 1)
      ∨ (∃ p, c = .ringLimitExpiry p ∧ (s.lines.at p).state ≠ .queued ∧ ∃ ms ∈ (s.lines.at p).timer, ms ≤ 1)
      ∨ (c = .holdoverExpiry ∧ ∃ ms ∈ s.holdover, ms ≤ 1)
      ∨ (c = .restartReplyExpiry ∧ ∃ x ∈ s.restartTimer, x.2 ≤ 1)
      ∨ (∃ i, c = .seizeReplyExpiry i ∧ ∃ x ∈ (s.sig.at i).timer, x.kind = .seize ∧ x.left ≤ 1)
      ∨ ∃ i, c = .clearReplyExpiry i ∧ ∃ x ∈ (s.sig.at i).timer, x.kind = .clear ∧ x.left ≤ 1 := by
  have phase : c ∈ (if s.phaseMs + 1 < Config.phaseTime then [] else [Instr.phaseBegin]) ↔ c = .phaseBegin ∧ 999 ≤ s.phaseMs := by
    by_cases h : s.phaseMs + 1 < Config.phaseTime
    · rw [if_pos h]
      unfold Config.phaseTime at h
      simp
      omega
    · rw [if_neg h]
      unfold Config.phaseTime at h
      simp
      omega
  have holdover : c ∈ (if runsOut s.holdover = true then [Instr.holdoverExpiry] else []) ↔ c = .holdoverExpiry ∧ ∃ ms ∈ s.holdover, ms ≤ 1 := by
    rw [← runsOut_iff]
    by_cases h : runsOut s.holdover = true <;> simp [h]
  have restart : c ∈ (if runsOut (s.restartTimer.map (·.2)) = true then [Instr.restartReplyExpiry] else [])
      ↔ c = .restartReplyExpiry ∧ ∃ x ∈ s.restartTimer, x.2 ≤ 1 := by
    have out : runsOut (s.restartTimer.map (·.2)) = true ↔ ∃ x ∈ s.restartTimer, x.2 ≤ 1 := by
      rw [runsOut_iff]
      cases s.restartTimer <;> simp
    rw [← out]
    by_cases h : runsOut (s.restartTimer.map (·.2)) = true <;> simp [h]
  unfold expiries
  simp only [List.mem_append, List.mem_flatMap, List.mem_filterMap, phase, holdover, restart, mem_groupExpiries, lineExpiry_eq_some,
    slotExpiry_eq_some, allGroups, allPorts, allSlots, List.mem_finRange, true_and, exists_or, or_assoc]

@[simp] theorem mem_entryEnds (s : State) (c : Instr) : c ∈ entryEnds s ↔ c = .entryComplete ∧ ∃ f ∈ s.inFlight, f.octets.length ≤ 2 := by
  unfold entryEnds
  cases s.inFlight with
  | none => simp
  | some f => by_cases hl : f.octets.length ≤ 2 <;> simp [hl]

@[simp] theorem mem_recordEnds (s : State) (c : Instr) :
    c ∈ recordEnds s ↔ c = .recordComplete ∧ s.tx ≠ .idle ∧ 100 * (sendingOctets s).length ≤ recordSent s.tx + s.rate.tenthsPerMs := by
  unfold recordEnds
  by_cases hi : s.tx = .idle
  · simp [hi]
  · by_cases hl : recordSent s.tx + s.rate.tenthsPerMs < 100 * (sendingOctets s).length
    · simp [hi, hl]
    · simp [hi, hl, Nat.not_lt.mp hl]

/-! ## What a sample brings about -/

theorem not_monitor_of_hasLine {s : State} {p : Port} (h : hasLine s p = true) : isMonitor s p = false := by
  unfold hasLine at h
  unfold isMonitor
  cases hr : s.ports.at p <;> rw [hr] at h <;> simp_all [PortRole.hasLine]

theorem hasLine_of_decodes {s : State} {p : Port} (h : decodes s p = true) : hasLine s p = true := by
  unfold decodes decodesIn at h
  unfold hasLine
  cases hr : s.ports.at p <;> rw [hr] at h <;> simp_all [PortRole.hasLine, PortRole.isSubscriber]

theorem not_decodes_of_awaitsOffHook {s : State} {p : Port} (h : awaitsOffHook s p = true) : decodes s p = false := by
  unfold awaitsOffHook at h
  unfold decodes decodesIn
  cases hst : (s.lines.at p).state <;> rw [hst] at h <;> simp_all [LineState.offHookCall, LineState.called]

theorem not_decodes_of_awaitsOnHook {s : State} {p : Port} (h : awaitsOnHook s p = true) : decodes s p = false := by
  unfold awaitsOnHook at h
  unfold decodes decodesIn
  cases hst : (s.lines.at p).state <;> rw [hst] at h <;> simp_all [LineState.offHookCall]

theorem hasLine_of_awaitsOffHook {s : State} {p : Port} (h : awaitsOffHook s p = true) : hasLine s p = true := by
  unfold awaitsOffHook at h
  exact (Bool.and_eq_true_iff.mp h).1

theorem hasLine_of_awaitsOnHook {s : State} {p : Port} (h : awaitsOnHook s p = true) : hasLine s p = true := by
  unfold awaitsOnHook at h
  exact (Bool.and_eq_true_iff.mp h).1

@[simp] theorem mem_contactEvents (s : State) (p : Port) (c : Instr) :
    c ∈ contactEvents s p
      ↔ (c = .contactChange p .closed ∧ s.hookPin.at p = true ∧ (s.scan.at p).contact = .opened ∧ s.params.debounce ≤ (s.scan.at p).closedRun + 2)
        ∨ (c = .contactChange p .opened ∧ s.hookPin.at p = false ∧ (s.scan.at p).contact = .closed
          ∧ s.params.debounce ≤ (s.scan.at p).openRun + 2) := by
  unfold contactEvents
  dsimp only
  cases s.hookPin.at p with
  | true =>
    by_cases h : (s.scan.at p).contact = .opened ∧ s.params.debounce ≤ (s.scan.at p).closedRun + 2 <;> simp [h]
  | false =>
    by_cases h : (s.scan.at p).contact = .closed ∧ s.params.debounce ≤ (s.scan.at p).openRun + 2 <;> simp [h]

theorem makeRun_eq (s : State) (p : Port) : makeRun s p = closedRunNow (s.scan.at p) := rfl

@[simp] theorem mem_closedEvents (s : State) (p : Port) (c : Instr) :
    c ∈ closedEvents s p
      ↔ (c = .breakEnd p (s.scan.at p).openRun ∧ decodes s p = true ∧ 0 < (s.scan.at p).openRun)
        ∨ (c = .digitComplete p ∧ decodes s p = true ∧ (0 < (s.scan.at p).pulses ∨ (s.scan.at p).overrun = true)
          ∧ s.params.interdigit ≤ closedRunNow (s.scan.at p))
        ∨ (c = .offHook p ∧ awaitsOffHook s p = true ∧ s.params.debounce ≤ (s.scan.at p).closedRun + 2) := by
  unfold closedEvents
  dsimp only
  rw [makeRun_eq]
  by_cases hd : decodes s p = true
  · have ha : awaitsOffHook s p = false := by
      by_contra ha
      rw [not_decodes_of_awaitsOffHook (Bool.eq_true_of_not_eq_false ha)] at hd
      exact nomatch hd
    rw [if_pos hd, List.mem_append]
    by_cases hb : 0 < (s.scan.at p).openRun
    · by_cases hg : (0 < (s.scan.at p).pulses ∨ (s.scan.at p).overrun = true) ∧ s.params.interdigit ≤ closedRunNow (s.scan.at p)
      · simp [hb, hg, hd, ha]
      · simp [hb, hg, hd, ha]
    · by_cases hg : (0 < (s.scan.at p).pulses ∨ (s.scan.at p).overrun = true) ∧ s.params.interdigit ≤ closedRunNow (s.scan.at p)
      · simp [hb, hg, hd, ha]
      · simp [hb, hg, hd, ha]
  · rw [if_neg hd]
    by_cases ho : awaitsOffHook s p = true ∧ s.params.debounce ≤ (s.scan.at p).closedRun + 2
    · simp [ho, hd]
    · simp [ho, hd]

@[simp] theorem mem_openEvents (s : State) (p : Port) (c : Instr) :
    c ∈ openEvents s p
      ↔ (c = .decodingOnHook p ∧ decodes s p = true ∧ s.params.flashMax < (s.scan.at p).openRun + 2)
        ∨ (c = .onHook p ∧ awaitsOnHook s p = true ∧ s.params.debounce ≤ (s.scan.at p).openRun + 2) := by
  unfold openEvents
  dsimp only
  by_cases hd : decodes s p = true
  · have ha : awaitsOnHook s p = false := by
      by_contra ha
      rw [not_decodes_of_awaitsOnHook (Bool.eq_true_of_not_eq_false ha)] at hd
      exact nomatch hd
    rw [if_pos hd]
    by_cases hf : s.params.flashMax < (s.scan.at p).openRun + 2 <;> simp [hf, hd, ha]
  · rw [if_neg hd]
    by_cases ho : awaitsOnHook s p = true ∧ s.params.debounce ≤ (s.scan.at p).openRun + 2 <;> simp [ho, hd]

theorem not_monitor_of_closedEvents {s : State} {p : Port} {c : Instr} (h : c ∈ closedEvents s p) : isMonitor s p = false := by
  refine not_monitor_of_hasLine ?_
  rcases (mem_closedEvents s p c).mp h with ⟨-, hd, -⟩ | ⟨-, hd, -⟩ | ⟨-, ha, -⟩
  · exact hasLine_of_decodes hd
  · exact hasLine_of_decodes hd
  · exact hasLine_of_awaitsOffHook ha

theorem not_monitor_of_openEvents {s : State} {p : Port} {c : Instr} (h : c ∈ openEvents s p) : isMonitor s p = false := by
  refine not_monitor_of_hasLine ?_
  rcases (mem_openEvents s p c).mp h with ⟨-, hd, -⟩ | ⟨-, ha, -⟩
  · exact hasLine_of_decodes hd
  · exact hasLine_of_awaitsOnHook ha

/-- What a hook sample brings about: a MONITOR port has no line, so the two readings stand apart. -/
@[simp] theorem mem_hookEvents (s : State) (p : Port) (c : Instr) :
    c ∈ hookEvents s p ↔ hookSampled s p = true
      ∧ ((isMonitor s p = true ∧ c ∈ contactEvents s p) ∨ (s.hookPin.at p = true ∧ c ∈ closedEvents s p)
        ∨ (s.hookPin.at p = false ∧ c ∈ openEvents s p)) := by
  have closed := @not_monitor_of_closedEvents s p c
  have opened := @not_monitor_of_openEvents s p c
  unfold hookEvents
  cases hs : hookSampled s p <;> cases hm : isMonitor s p <;> cases hp : s.hookPin.at p <;> simp_all

@[simp] theorem mem_faultEvents (s : State) (p : Port) (c : Instr) :
    c ∈ faultEvents s p ↔ (hasLine s p = true ∧ groupState s p ≠ .standby ∧ 50 ≤ (s.scan.at p).faultRun + 2)
      ∧ ((c = .fault p ∧ (s.scan.at p).fault = false ∧ s.faultPin.at p = true)
        ∨ (c = .faultClear p ∧ (s.scan.at p).fault = true ∧ s.faultPin.at p = false)) := by
  unfold faultEvents Config.faultDebounce
  dsimp only
  by_cases hl : hasLine s p = true <;> by_cases hg : groupState s p = .standby <;>
    by_cases hr : 50 ≤ (s.scan.at p).faultRun + 2 <;> cases (s.scan.at p).fault <;> cases s.faultPin.at p <;> simp [hl, hg, hr]

@[simp] theorem mem_sampleEvents (s : State) (c : Instr) :
    c ∈ sampleEvents s ↔ s.oddSample = true ∧ ∃ p, c ∈ hookEvents s p ∨ c ∈ faultEvents s p := by
  unfold sampleEvents
  cases s.oddSample <;> simp [allPorts]

@[simp] theorem mem_eventsOfMs (s : State) (c : Instr) :
    c ∈ eventsOfMs s ↔ c ∈ expiries s ∨ c ∈ entryEnds s ∨ c ∈ recordEnds s ∨ c ∈ sampleEvents s := by
  unfold eventsOfMs
  simp only [List.mem_append, or_assoc]

/-! ## The levels of a group -/

theorem getLsbD_levels (pins : Table 64 Bool) (l : List Port) (k : Nat) (hk : k < 8) :
    (l.foldr (fun p (acc : BitVec 8) => (acc <<< 1) ||| (if pins.at p then 1 else 0)) 0).getLsbD k
      = (l[k]?.map pins.at).getD false := by
  induction l generalizing k with
  | nil => simp
  | cons p l ih =>
    rw [List.foldr_cons, BitVec.getLsbD_or, BitVec.getLsbD_shiftLeft]
    cases k with
    | zero => by_cases hp : pins.at p = true <;> simp [hp]
    | succ k =>
      have bit : (if pins.at p then 1 else 0 : BitVec 8).getLsbD (k + 1) = false := by
        split
        · simp
        · simp
      rw [bit, Bool.or_false, List.getElem?_cons_succ, ← ih k (by omega)]
      simp [hk]

/-- The levels of a group are those of its eight pins, each in its place. -/
theorem eq_groupLevels_iff (pins : Table 64 Bool) (g : GroupId) (levels : BitVec 8) :
    levels = groupLevels pins g ↔ ∀ p ∈ portsOf g, levelOf levels p = pins.at p := by
  have bit (k : Fin 8) : (groupLevels pins g).getLsbD k.val = pins.at ⟨8 * g.val + k.val, by omega⟩ := by
    unfold groupLevels
    rw [getLsbD_levels pins _ _ k.isLt]
    unfold portsOf
    simp
  have place (k : Fin 8) : (8 * g.val + k.val) % 8 = k.val := by omega
  unfold portsOf levelOf
  simp only [List.mem_map, List.mem_finRange, true_and, forall_exists_index, forall_apply_eq_imp_iff, place]
  constructor
  · rintro rfl k
    exact bit k
  · intro h
    refine BitVec.eq_of_getLsbD_eq fun i hi => ?_
    exact (h ⟨i, hi⟩).trans (bit ⟨i, hi⟩).symm

/-! ## A millisecond -/

theorem at_map {n : Nat} {α β : Type} (f : α → β) (t : Table n α) (i : Fin n) : Table.at (Vector.map f t) i = f (t.at i) := by
  unfold Table.at
  exact Vector.getElem_map ..

/-- The sense inputs are read as they were before the millisecond counted. -/
theorem sampleScan_ticked (s : State) (p : Port) :
    sampleScan (carryRecord (transmitFrame (countTimers s))) p = sampleScan s p := by
  have line : ((carryRecord (transmitFrame (countTimers s))).lines.at p).state = (s.lines.at p).state := by
    have lines : (carryRecord (transmitFrame (countTimers s))).lines = s.lines.map fun l => { l with timer := countDown l.timer } := rfl
    rw [lines, at_map]
  have group : groupState (carryRecord (transmitFrame (countTimers s))) p = groupState s p := by
    have groups : (carryRecord (transmitFrame (countTimers s))).groups
        = s.groups.map fun g => { g with settle := countDown g.settle, slow := countDown g.slow } := rfl
    unfold groupState
    rw [groups, at_map]
  unfold sampleScan faultRunOf hookRuns closedSample countsHook decodes hookSampled
  rw [line, group]
  rfl

theorem tick_scan (s : State) :
    (s.oddSample = false → (tick s).scan = s.scan) ∧ (s.oddSample = true → ∀ p, (tick s).scan.at p = sampleScan s p) := by
  have scan : (tick s).scan = if s.oddSample = true then Vector.ofFn (sampleScan (carryRecord (transmitFrame (countTimers s)))) else s.scan :=
    rfl
  rw [scan]
  refine ⟨fun h => by rw [h]; rfl, fun h p => ?_⟩
  rw [if_pos h]
  unfold Table.at
  rw [Vector.getElem_ofFn]
  exact sampleScan_ticked s p

/-- A sample counts one more in the runs it reaches. -/
theorem sampleScan_eq (s : State) (p : Port) :
    sampleScan s p = { s.scan.at p with
      openRun :=
        if hookCounts s p = false then (s.scan.at p).openRun
        else if s.hookPin.at p = false then (s.scan.at p).openRun + 2
        else if decodes s p = true then (s.scan.at p).openRun
        else 0
      closedRun :=
        if hookCounts s p = false then (s.scan.at p).closedRun
        else if s.hookPin.at p = false then 0
        else if decodes s p = true ∧ 0 < (s.scan.at p).openRun then (s.scan.at p).closedRun
        else (s.scan.at p).closedRun + 2
      heldRun :=
        if hookCounts s p = false then (s.scan.at p).heldRun
        else if s.hookPin.at p = false then
          if (s.scan.at p).openRun = 0 then (s.scan.at p).closedRun else (s.scan.at p).heldRun
        else if decodes s p = true ∧ 0 < (s.scan.at p).openRun then (s.scan.at p).heldRun
        else 0
      faultRun :=
        if hasLine s p = false ∨ groupState s p = .standby then (s.scan.at p).faultRun
        else if s.faultPin.at p = (s.scan.at p).fault then 0
        else min ((s.scan.at p).faultRun + 2) 50 } := by
  have counts : (countsHook s p || (hookSampled s p && isMonitor s p)) = hookCounts s p := by
    have suspended : (s.lines.at p).state.suspended = decide ((s.lines.at p).state = .test ∨ (s.lines.at p).state = .fault) := by
      cases (s.lines.at p).state <;> rfl
    unfold countsHook hookCounts
    rw [suspended]
    cases hookSampled s p <;> cases isMonitor s p <;> simp
  have fault (c : Scanner) (hf : c.fault = (s.scan.at p).fault) (hr : c.faultRun = (s.scan.at p).faultRun) : faultRunOf s p c = { c with
      faultRun :=
        if hasLine s p = false ∨ groupState s p = .standby then (s.scan.at p).faultRun
        else if s.faultPin.at p = (s.scan.at p).fault then 0
        else min ((s.scan.at p).faultRun + 2) 50 } := by
    unfold faultRunOf Config.faultDebounce
    rw [← hf, ← hr]
    by_cases hl : hasLine s p = true
    · by_cases hg : groupState s p = .standby
      · simp [hl, hg]
      · by_cases hp : s.faultPin.at p = c.fault <;> simp [hl, hg, hp]
    · simp [hl]
  unfold sampleScan hookRuns closedSample openSample
  rw [counts]
  cases hc : hookCounts s p
  · rw [if_neg (by decide), fault _ rfl rfl]
    simp
  · rw [if_pos rfl]
    cases hh : s.hookPin.at p
    · rw [if_neg (by decide), fault]
      · simp
      · rfl
      · rfl
    · rw [if_pos rfl]
      by_cases hd : decodes s p = true
      · by_cases ho : 0 < (s.scan.at p).openRun
        · rw [if_pos (by simp [hd, ho]), fault _ rfl rfl]
          simp [hd, ho]
        · rw [if_neg (by simp [ho]), fault]
          · simp [hd, ho]
            omega
          · rfl
          · rfl
      · rw [if_neg (by simp [hd]), fault]
        · simp [hd]
        · rfl
        · rfl

/-! ## Each event of a millisecond -/

section
variable (s : State) (p : Port) (g : GroupId) (i : SlotId)

theorem phaseBegin_due : Instr.phaseBegin ∈ eventsOfMs s ↔ 999 ≤ s.phaseMs := by
  simp

theorem waitLimitExpiry_due : Instr.waitLimitExpiry p ∈ eventsOfMs s
    ↔ (s.lines.at p).state = .queued ∧ ∃ ms ∈ (s.lines.at p).timer, ms ≤ 1 := by
  simp

theorem ringLimitExpiry_due : Instr.ringLimitExpiry p ∈ eventsOfMs s
    ↔ (s.lines.at p).state ≠ .queued ∧ ∃ ms ∈ (s.lines.at p).timer, ms ≤ 1 := by
  simp

theorem settleExpiry_due : Instr.settleExpiry g ∈ eventsOfMs s ↔ ∃ ms ∈ (s.groups.at g).settle, ms ≤ 1 := by
  simp

theorem seizeReplyExpiry_due : Instr.seizeReplyExpiry i ∈ eventsOfMs s
    ↔ ∃ x ∈ (s.sig.at i).timer, x.kind = .seize ∧ x.left ≤ 1 := by
  simp

theorem clearReplyExpiry_due : Instr.clearReplyExpiry i ∈ eventsOfMs s
    ↔ ∃ x ∈ (s.sig.at i).timer, x.kind = .clear ∧ x.left ≤ 1 := by
  simp

theorem holdoverExpiry_due : Instr.holdoverExpiry ∈ eventsOfMs s ↔ ∃ ms ∈ s.holdover, ms ≤ 1 := by
  simp

theorem restartReplyExpiry_due : Instr.restartReplyExpiry ∈ eventsOfMs s ↔ ∃ x ∈ s.restartTimer, x.2 ≤ 1 := by
  simp

theorem entryComplete_due : Instr.entryComplete ∈ eventsOfMs s ↔ ∃ f ∈ s.inFlight, f.octets.length ≤ 2 := by
  simp

theorem recordComplete_due : Instr.recordComplete ∈ eventsOfMs s
    ↔ s.tx ≠ .idle ∧ 100 * (sendingOctets s).length ≤ recordSent s.tx + s.rate.tenthsPerMs := by
  simp

theorem offHook_due : Instr.offHook p ∈ eventsOfMs s ↔ s.oddSample = true ∧ hookSampled s p = true ∧ awaitsOffHook s p = true
    ∧ s.hookPin.at p = true ∧ s.params.debounce ≤ (s.scan.at p).closedRun + 2 := by
  simp
  tauto

theorem onHook_due : Instr.onHook p ∈ eventsOfMs s ↔ s.oddSample = true ∧ hookSampled s p = true ∧ awaitsOnHook s p = true
    ∧ s.hookPin.at p = false ∧ s.params.debounce ≤ (s.scan.at p).openRun + 2 := by
  simp
  tauto

theorem slowScan_due : ∀ closed faulty, Instr.slowScan g closed faulty ∈ eventsOfMs s ↔ (∃ ms ∈ (s.groups.at g).slow, ms ≤ 1)
    ∧ ∀ p ∈ portsOf g, levelOf closed p = s.hookPin.at p ∧ levelOf faulty p = s.faultPin.at p := by
  simp [eq_groupLevels_iff, forall_and]
  tauto

theorem decodingOnHook_due : Instr.decodingOnHook p ∈ eventsOfMs s ↔ s.oddSample = true ∧ hookSampled s p = true ∧ decodes s p = true
    ∧ s.hookPin.at p = false ∧ s.params.flashMax < (s.scan.at p).openRun + 2 := by
  simp
  tauto

theorem breakEnd_due : ∀ ms, Instr.breakEnd p ms ∈ eventsOfMs s ↔ s.oddSample = true ∧ hookSampled s p = true ∧ decodes s p = true
    ∧ s.hookPin.at p = true ∧ 0 < (s.scan.at p).openRun ∧ ms = (s.scan.at p).openRun := by
  simp
  tauto

theorem digitComplete_due : Instr.digitComplete p ∈ eventsOfMs s ↔ s.oddSample = true ∧ hookSampled s p = true ∧ decodes s p = true
    ∧ s.hookPin.at p = true ∧ (0 < (s.scan.at p).pulses ∨ (s.scan.at p).overrun = true)
    ∧ s.params.interdigit ≤ closedRunNow (s.scan.at p) := by
  simp
  tauto

theorem fault_due : Instr.fault p ∈ eventsOfMs s ↔ s.oddSample = true ∧ hasLine s p = true ∧ groupState s p ≠ .standby
    ∧ (s.scan.at p).fault = false ∧ s.faultPin.at p = true ∧ 50 ≤ (s.scan.at p).faultRun + 2 := by
  simp
  tauto

theorem faultClear_due : Instr.faultClear p ∈ eventsOfMs s ↔ s.oddSample = true ∧ hasLine s p = true ∧ groupState s p ≠ .standby
    ∧ (s.scan.at p).fault = true ∧ s.faultPin.at p = false ∧ 50 ≤ (s.scan.at p).faultRun + 2 := by
  simp
  tauto

theorem contactClosed_due : Instr.contactChange p .closed ∈ eventsOfMs s ↔ s.oddSample = true ∧ hookSampled s p = true ∧ isMonitor s p = true
    ∧ (s.scan.at p).contact = .opened ∧ s.hookPin.at p = true ∧ s.params.debounce ≤ (s.scan.at p).closedRun + 2 := by
  simp
  tauto

theorem contactOpened_due : Instr.contactChange p .opened ∈ eventsOfMs s ↔ s.oddSample = true ∧ hookSampled s p = true ∧ isMonitor s p = true
    ∧ (s.scan.at p).contact = .closed ∧ s.hookPin.at p = false ∧ s.params.debounce ≤ (s.scan.at p).openRun + 2 := by
  simp
  tauto

end

/-! ## What a millisecond sends -/

theorem tick_trunkTx (s : State) : (tick s).trunkTx = [0x4D, 0xB2] ++ (allSlots.map (bearerOut s) ++ signallingOctets s)
    ++ [crc8 (allSlots.map (bearerOut s) ++ signallingOctets s)] := by
  have frame : (tick s).trunkTx = nextFrame s := rfl
  have octets : signallingOctets s = [(flightOctets s)[0]?.getD Config.idleOctet, (flightOctets s)[1]?.getD Config.idleOctet] := by
    unfold signallingOctets flightOctets
    cases s.inFlight <;> rfl
  rw [frame, octets]
  rfl

theorem tick_tx (s : State) : match s.tx with
    | .idle => (tick s).tx = .idle
    | .sendingReply lost n => (tick s).tx = .sendingReply lost (n + s.rate.tenthsPerMs)
    | .sendingReport r lost n => (tick s).tx = .sendingReport r lost (n + s.rate.tenthsPerMs) := by
  have sent : (tick s).tx = s.tx.advance s.rate.tenthsPerMs := rfl
  rw [sent]
  cases s.tx <;> rfl

theorem dueNow_eq_nil {s : State} (hw : s.warm ≠ .due)
    (hs : s.flow = .stopped ∨ s.inFlight.isSome = true ∨ s.link.messages = false ∨ s.txq = []) : dueNow s = [] := by
  have waits : (maySend s && !s.txq.isEmpty) = false := by
    by_contra hn
    obtain ⟨hm, hq⟩ := Bool.and_eq_true_iff.mp (Bool.eq_true_of_not_eq_false hn)
    obtain ⟨flow, flight, messages⟩ := (maySend_iff s).mp hm
    rcases hs with h | h | h | h
    · rw [flow] at h; exact nomatch h
    · rw [flight] at h; exact nomatch h
    · rw [messages] at h; exact nomatch h
    · rw [h] at hq; exact nomatch hq
  unfold dueNow
  rw [if_neg hw, waits]
  rfl

/-! ## What a millisecond counts -/

section
variable (s : State)

theorem tick_phaseMs : (tick s).phaseMs = s.phaseMs + 1 := rfl
theorem tick_holdover : (tick s).holdover = s.holdover.map (· - 1) := rfl
theorem tick_restartTimer : (tick s).restartTimer = s.restartTimer.map fun x => (x.1, x.2 - 1) := rfl
theorem tick_oddSample : (tick s).oddSample = !s.oddSample := rfl
theorem tick_inFlight : (tick s).inFlight = s.inFlight.map fun f => { f with octets := f.octets.drop 2 } := rfl
theorem tick_pending : (tick s).pending = eventsOfMs s := rfl

theorem tick_lines (p : Port) : (tick s).lines.at p = { s.lines.at p with timer := (s.lines.at p).timer.map (· - 1) } := by
  have lines : (tick s).lines = s.lines.map fun l => { l with timer := countDown l.timer } := rfl
  rw [lines, at_map]
  rfl

theorem tick_groups (g : GroupId) : (tick s).groups.at g = { s.groups.at g with
    settle := (s.groups.at g).settle.map (· - 1), slow := (s.groups.at g).slow.map (· - 1) } := by
  have groups : (tick s).groups = s.groups.map fun g => { g with settle := countDown g.settle, slow := countDown g.slow } := rfl
  rw [groups, at_map]
  rfl

theorem tick_sig (i : SlotId) : (tick s).sig.at i
    = { s.sig.at i with timer := (s.sig.at i).timer.map fun x => { x with left := x.left - 1 } } := by
  have sig : (tick s).sig = s.sig.map fun g => { g with timer := g.timer.map fun t => { t with left := t.left - 1 } } := rfl
  rw [sig, at_map]

end

/-- `s` with everything that a millisecond may write taken from `t`. -/
def State.timedAs (t s : State) : State :=
  { s with
    pending := t.pending, phaseMs := t.phaseMs, lines := t.lines, groups := t.groups, holdover := t.holdover
    restartTimer := t.restartTimer, sig := t.sig, oddSample := t.oddSample, scan := t.scan, trunkTx := t.trunkTx
    inFlight := t.inFlight, tx := t.tx }

theorem countTimers_rest (z s : State) : z.timedAs (countTimers s) = z.timedAs s := rfl
theorem transmitFrame_rest (z s : State) : z.timedAs (transmitFrame s) = z.timedAs s := rfl
theorem carryRecord_rest (z s : State) : z.timedAs (carryRecord s) = z.timedAs s := rfl
theorem sampleAll_rest (z s : State) : z.timedAs (sampleAll s) = z.timedAs s := rfl
theorem setPending_rest (z s : State) (q : List Instr) : z.timedAs { s with pending := q } = z.timedAs s := rfl

theorem tick_rest (z s : State) : z.timedAs (tick s) = z.timedAs s := by
  unfold tick
  rw [setPending_rest, sampleAll_rest, carryRecord_rest, transmitFrame_rest, countTimers_rest]

theorem timedAs_self (s : State) : s.timedAs s = s := rfl

theorem tick_frame (s : State) : tick s = (tick s).timedAs s :=
  (timedAs_self _).symm.trans (tick_rest _ s)

/-- Settles O2: each command has an outcome, and the idle step is the reset's standstill, the self-test's count, what is due, or the
millisecond. -/
theorem everyStepAnswers : Obligations.EveryStepAnswers := by
  refine ⟨step_total, exec_pending, fun s hq hp => ?_, fun left s hq hp => ?_, fun s hq hrun ht hw => ?_,
    fun s hq hrun ht hw hf hi hm hx => ?_, fun s hq hrun ht hw hs => ?_⟩
  · rw [step_idle hq]
    unfold idle
    rw [hp]
  · rw [step_idle hq]
    unfold idle
    rw [hp]
    rfl
  · rw [step_idle hq, idle_of_due hrun ht (if_pos hw)]
  · have send : (maySend s && !s.txq.isEmpty) = true := by
      rw [(maySend_iff s).mpr ⟨hf, hi, hm⟩]
      simpa using hx
    have due : dueNow s = [.entryStart] := by
      unfold dueNow
      rw [if_neg hw, if_pos send]
    rw [step_idle hq, idle_of_due hrun ht due]
  · refine ⟨tick s, by rw [step_idle hq, idle_of_nothing_due hrun ht (dueNow_eq_nil hw hs)], tick_phaseMs s, tick_lines s,
      tick_groups s, tick_holdover s, tick_restartTimer s, tick_sig s, tick_oddSample s, (tick_scan s).1,
      fun ho p => ((tick_scan s).2 ho p).trans (sampleScan_eq s p), tick_inFlight s, tick_trunkTx s, tick_tx s, ?_⟩
    have pending := tick_pending s
    have frame := tick_frame s
    generalize tick s = t at pending frame ⊢
    rw [pending]
    rw [State.timedAs, pending] at frame
    exact ⟨phaseBegin_due s, waitLimitExpiry_due s, ringLimitExpiry_due s, settleExpiry_due s, seizeReplyExpiry_due s,
      clearReplyExpiry_due s, holdoverExpiry_due s, restartReplyExpiry_due s, entryComplete_due s, recordComplete_due s, offHook_due s,
      onHook_due s, slowScan_due s, decodingOnHook_due s, breakEnd_due s, digitComplete_due s, fault_due s, faultClear_due s,
      contactClosed_due s, contactOpened_due s, frame⟩

end Sys2Proof.Machine
end

