-- ==== Sys2Proof/Proofs/Codec.lean ====
section
/-! PROOF. The octets of messages and frames, taken apart as they were put together (O13, O14). -/

namespace Sys2Proof.Machine

/-! ## Head messages -/

theorem octetSum_append (a b : List Byte) : octetSum (a ++ b) = octetSum a + octetSum b := by
  have from_ (l : List Byte) : ∀ x : Byte, l.foldl (· + ·) x = x + octetSum l := by
    unfold octetSum
    induction l with
    | nil => exact fun x => (BitVec.add_zero x).symm
    | cons o l ih =>
      intro x
      have zero : 0 + o = o := BitVec.zero_add o
      rw [List.foldl_cons, List.foldl_cons, ih, ih (0 + o), zero, BitVec.add_assoc]
  unfold octetSum
  rw [List.foldl_append]
  exact from_ b _

theorem octetSum_checked (l : List Byte) : octetSum (l ++ [-(octetSum l)]) = 0 := by
  have one (o : Byte) : octetSum [o] = o := BitVec.zero_add o
  rw [octetSum_append, one, BitVec.add_right_neg]
  rfl

/-- A trunk message with a body that its length can count is taken apart into its kind and its body. -/
theorem decodeHeadMessage_trunkMessage (kind : Byte) {body : List Byte} (h : body.length ≤ 80) :
    decodeHeadMessage (trunkMessage kind body) = headMessage kind body := by
  have length : (byte body.length).toNat = body.length := by
    unfold byte
    rw [BitVec.toNat_ofNat]
    omega
  have sum : octetSum (kind :: byte body.length :: (body ++ [-(octetSum (kind :: byte body.length :: body))])) = 0 :=
    octetSum_checked (kind :: byte body.length :: body)
  unfold trunkMessage decodeHeadMessage
  dsimp only
  rw [length, if_pos ⟨rfl, h, by rw [List.length_append]; rfl, sum⟩, List.take_left]

theorem reasonOfCode_code (r : Reason) : reasonOfCode r.code = some r := by cases r <;> rfl

theorem flowOfCode_code (f : FlowCommand) : flowOfCode f.code = some f := by cases f <;> rfl

theorem ofTwoBytes_of_lt {n : Nat} (h : n < 65536) : ofTwoBytes (byte (n / 256)) (byte n) = n := by
  unfold ofTwoBytes byte
  rw [BitVec.toNat_ofNat, BitVec.toNat_ofNat]
  omega

/-- The kind and the body of a well-formed head message name it. -/
theorem headMessage_headCode {i : Instr} (hw : WellFormed i = true) {kind : Byte} {body : List Byte} (h : headCode i = some (kind, body)) :
    headMessage kind body = some i ∧ body.length ≤ 80 := by
  cases i <;> simp only [headCode, Option.some.injEq, Prod.mk.injEq, reduceCtorEq] at h <;> obtain ⟨rfl, rfl⟩ := h
  case accept tag =>
    have ht : tag ≠ 0#8 := of_decide_eq_true hw
    simp [headMessage, ht]
  case reject tag r =>
    have ht : tag ≠ 0#8 := of_decide_eq_true hw
    simp [headMessage, ht, reasonOfCode_code]
  case progress tag =>
    have ht : tag ≠ 0#8 := of_decide_eq_true hw
    simp [headMessage, ht]
  case headClear tag r =>
    have ht : tag ≠ 0#8 := of_decide_eq_true hw
    simp [headMessage, ht, reasonOfCode_code]
  case headClearAck tag =>
    have ht : tag ≠ 0#8 := of_decide_eq_true hw
    simp [headMessage, ht]
  case incoming ref number =>
    simp [headMessage, twoBytes, ofTwoBytes_of_lt ref.isLt, ofTwoBytes_of_lt number.isLt]
  case restartAck tags =>
    have ht : tags.length ≤ 20 := of_decide_eq_true hw
    simp [headMessage, ht]
    omega
  case flow f => simp [headMessage, flowOfCode_code]

/-- Settles O13: the message is taken apart into the kind and the body it was made of, and these name the command. -/
theorem headMessagesDecodeAsEncoded : Obligations.HeadMessagesDecodeAsEncoded := by
  intro i octets hw he
  unfold encodeHeadMessage at he
  obtain ⟨⟨kind, body⟩, hc, rfl⟩ := Option.map_eq_some_iff.mp he
  obtain ⟨message, short⟩ := headMessage_headCode hw hc
  rw [decodeHeadMessage_trunkMessage kind short, message]

/-! ## Control port frames -/

/-- The octets of a frame behind the start octet and before the check. -/
def coveredOctets (num kind : Byte) (body : List Byte) : List Byte := twoBytes (body.length + 2) ++ num :: kind :: body

theorem controlFrame_eq (num kind : Byte) (body : List Byte) :
    controlFrame num kind body
      = Config.startOctet :: (coveredOctets num kind body ++ twoBytes (crc16 (coveredOctets num kind body)).toNat) := rfl

theorem length_controlFrame (num kind : Byte) (body : List Byte) : (controlFrame num kind body).length = body.length + 7 := by
  simp [controlFrame, twoBytes]

/-- A frame is the request it was made of. -/
theorem requestOfFrame_controlFrame (num kind : Byte) (body : List Byte) :
    requestOfFrame (controlFrame num kind body) = some ⟨num, kind, body⟩ := by
  rw [controlFrame_eq]
  unfold requestOfFrame
  have short : (coveredOctets num kind body ++ twoBytes (crc16 (coveredOctets num kind body)).toNat).length - 2
      = (coveredOctets num kind body).length := by simp [twoBytes]
  dsimp only
  rw [short, List.take_left, List.drop_left, if_pos rfl]
  rfl

/-- The receiver goes on with each octet of a frame that fits, up to its last. -/
theorem receiveOctet_of_frame {num kind : Byte} {body held rest : List Byte} {o : Byte} (hb : body.length ≤ 14) (hh : held ≠ [])
    (hf : controlFrame num kind body = held ++ o :: rest) :
    receiveOctet (.assembling held) o
      = if rest = [] then (.hunting, some (controlFrame num kind body)) else (.assembling (held ++ [o]), none) := by
  have frame : controlFrame num kind body = (held ++ [o]) ++ rest := by rw [hf]; simp
  have length : (held ++ [o]).length + rest.length = body.length + 7 := by
    rw [← List.length_append, ← frame, length_controlFrame]
  have octet (k : Nat) (hk : k < (held ++ [o]).length) : (held ++ [o])[k]? = (controlFrame num kind body)[k]? := by
    rw [frame, List.getElem?_append_left hk]
  have count : ofTwoBytes (byte ((body.length + 2) / 256)) (byte (body.length + 2)) = body.length + 2 := ofTwoBytes_of_lt (by omega)
  unfold receiveOctet
  dsimp only
  by_cases h3 : 3 ≤ (held ++ [o]).length
  · have hi : (held ++ [o])[1]? = some (byte ((body.length + 2) / 256)) := (octet 1 (by omega)).trans rfl
    have lo : (held ++ [o])[2]? = some (byte (body.length + 2)) := (octet 2 (by omega)).trans rfl
    rw [hi, lo]
    dsimp only
    rw [count, if_neg (by omega)]
    cases rest with
    | nil =>
      rw [if_neg (by simp at length ⊢; omega), if_pos rfl, frame, List.append_nil]
    | cons x xs => rw [if_pos (by simp at length ⊢; omega), if_neg (by simp)]
  · have nonempty : rest ≠ [] := by
      rintro rfl
      simp at length h3
      omega
    have lo : (held ++ [o])[2]? = none := List.getElem?_eq_none (by omega)
    rw [lo, if_neg nonempty]
    split
    · next h => exact nomatch h
    · rfl

/-- The octets of a frame are held one by one until the last completes it. -/
theorem takeOctets_of_frame {num kind : Byte} {body : List Byte} (hb : body.length ≤ 14) (todo : List Byte) :
    ∀ (held : List Byte) (s : State), held ≠ [] → todo ≠ [] → controlFrame num kind body = held ++ todo → s.warm = .none →
      s.receiver = .assembling held →
      inTurn todo takeOctet s = takeOldest (joinRequests ⟨num, kind, body⟩ { s with receiver := .hunting }) := by
  induction todo with
  | nil => exact fun _ _ _ hn => absurd rfl hn
  | cons o rest ih =>
    intro held s hh _ hf hw hr
    have received := receiveOctet_of_frame hb hh hf
    have turn : inTurn (o :: rest) takeOctet s = inTurn rest takeOctet (takeOctet o s) := rfl
    rw [turn]
    unfold takeOctet
    rw [if_pos hw, hr]
    dsimp only
    rw [received]
    by_cases hrest : rest = []
    · subst hrest
      rw [if_pos rfl]
      simp only [Option.bind_some, requestOfFrame_controlFrame]
      rfl
    · rw [if_neg hrest]
      simp only [Option.bind_none]
      exact ih (held ++ [o]) { s with receiver := .assembling (held ++ [o]) } (by simp) hrest (by rw [hf]; simp) hw rfl

/-- A frame that fits, received by a receiver that hunts, is a request that joins the buffer, and the oldest is taken. -/
theorem takeOctets_controlFrame {num kind : Byte} {body : List Byte} (hb : body.length ≤ 14) {s : State} (hw : s.warm = .none)
    (hr : s.receiver = .hunting) :
    inTurn (controlFrame num kind body) takeOctet s = takeOldest (joinRequests ⟨num, kind, body⟩ s) := by
  have started : takeOctet Config.startOctet s = { s with receiver := .assembling [Config.startOctet] } := by
    unfold takeOctet
    rw [if_pos hw, hr]
    rfl
  have turn (todo : List Byte) : inTurn (Config.startOctet :: todo) takeOctet s = inTurn todo takeOctet (takeOctet Config.startOctet s) := rfl
  have same : ({ s with receiver := .hunting } : State) = s := by rw [← hr]
  have held := takeOctets_of_frame (num := num) (kind := kind) hb
    (coveredOctets num kind body ++ twoBytes (crc16 (coveredOctets num kind body)).toNat) [Config.startOctet]
    { s with receiver := .assembling [Config.startOctet] } (by simp) (by simp [coveredOctets, twoBytes]) (controlFrame_eq num kind body) hw rfl
  rw [controlFrame_eq, turn, started, held]
  exact congrArg (fun u => takeOldest (joinRequests _ u)) same

theorem serve_receiver (s : State) : (serve s).receiver = s.receiver := (congrArg State.receiver (serve_port s) :)

/-- A request row at an empty reply slot takes its request alike from the buffer and as it completes. -/
theorem RequestRow.of_buffer {r : Request} {f : State → State} (hf : RequestRow r f) {s : State} (hrun : Running s) (hw : s.warm = .none)
    (hr : s.reply = none) (hq : s.requests = []) : f { serve s with requests := [r] } = f s := by
  obtain ⟨judge, effect, rfl, -⟩ := hf
  obtain ⟨requests, reply, warm⟩ := serve_keeps s
  have joined : Takes r.num r.kind r.body { serve s with requests := [r] } :=
    ⟨(serve_power s).trans hrun, warm.trans hw, reply.trans hr, .inr rfl⟩
  have fresh : Takes r.num r.kind r.body s := ⟨hrun, hw, hr, .inl hq⟩
  have stands : serve { serve s with requests := [r] } = { serve s with requests := [r] } :=
    serve_eq_self (.inr ⟨reply.trans hr, .inl (by simp)⟩)
  have popped : ({ serve s with requests := [] } : State) = { serve s with requests := (serve s).requests.tail } := by
    rw [requests, hq]
    rfl
  rw [takeRequest_of_takes judge effect joined, takeRequest_of_takes judge effect fresh, stands]
  unfold takeNow
  dsimp only [List.tail_cons]
  rw [popped]

/-- Settles O14: behind a reply the request joins the buffer or is lost, and at an empty reply slot it is taken as its row takes it. -/
theorem receivedFramesJoinTheBuffer : Obligations.ReceivedFramesJoinTheBuffer := by
  refine ⟨fun num kind body s hrun hw hr hb hreply htx => ?_, fun num kind body s hrun hw hr hb hreply hq => ?_⟩
  · have exec_eq : exec (.requestReceived (controlFrame num kind body)) s
        = .next (whileRunning (inTurn (controlFrame num kind body) takeOctet) s) := rfl
    rw [exec_eq, whileRunning_of_running hrun, serve_eq_self (.inl htx), takeOctets_controlFrame hb hw hr]
    have waits (t : State) (ht : t.reply = s.reply) : takeOldest t = t := by
      have full : t.reply.isNone = false := by rw [ht]; cases h : s.reply <;> simp_all
      unfold takeOldest
      split
      · rw [full]; rfl
      · rfl
    have joins : joinRequests ⟨num, kind, body⟩ s
        = if s.requests.length < 2 then { s with requests := s.requests ++ [⟨num, kind, body⟩] } else { s with requestLost := true } := rfl
    rw [waits _ (by unfold joinRequests; split <;> rfl), joins]
  · obtain ⟨requests, reply, warm⟩ := serve_keeps s
    have exec_eq : exec (.requestReceived (controlFrame num kind body)) s
        = .next (whileRunning (inTurn (controlFrame num kind body) takeOctet) s) := rfl
    have joins : joinRequests ⟨num, kind, body⟩ (serve s) = { serve s with requests := [⟨num, kind, body⟩] } := by
      unfold joinRequests
      rw [requests, hq]
      rfl
    have row := requestCode_requestRow num kind body
    rw [exec_eq, whileRunning_of_running hrun, takeOctets_controlFrame hb (warm.trans hw) ((serve_receiver s).trans hr), joins,
      exec_request _ row]
    have taken : takeOldest { serve s with requests := [⟨num, kind, body⟩] }
        = runRequest (requestRow num kind body) { serve s with requests := [⟨num, kind, body⟩] } := by
      unfold takeOldest
      simp [reply, hreply]
    rw [taken, (runRequest_row _ row).of_buffer hrun hw hreply hq]

end Sys2Proof.Machine
end

