-- ==== Sys2Proof/Proofs/Events.lean ====
section
/-! PROOF. How an event is followed through: the sending side of the control port is carried along while the rest of the part goes through
the operations, and the end of the event finds nothing to do. -/

namespace Sys2Proof.Machine

/-! ## The sending side, carried along -/

/-- The sending side of the control port and its request buffer. -/
structure PortSide where
  requests : List Request
  reply : Option Reply
  tx : Transmitter
  reports : List Report
  requestLost : Bool
  reportLost : Bool

/-- The sending side of a part. -/
def State.portSide (s : State) : PortSide := ⟨s.requests, s.reply, s.tx, s.reports, s.requestLost, s.reportLost⟩

/-- A part with another sending side. -/
def State.withPort (s : State) (y : PortSide) : State :=
  { s with
    requests := y.requests, reply := y.reply, tx := y.tx, reports := y.reports, requestLost := y.requestLost, reportLost := y.reportLost }

theorem eq_withPort {s t : State} (h : t.apartFromPort = s.apartFromPort) : t = s.withPort t.portSide :=
  (congrArg (fun u => u.withPort t.portSide) h :)

/-- A part that is `u` with the sending side that `s` has after making reports. -/
structure Comes (s : State) (rs : List Report) (u t : State) : Prop where
  port : t.apartFromPort = u.apartFromPort
  made : Made s t rs
  room : t.reports.length ≤ s.reports.length + rs.length
  reply : t.reply = s.reply

namespace Comes
variable {s u t : State} {rs : List Report}

theorem eq (h : Comes s rs u t) : t = u.withPort t.portSide := eq_withPort h.port

theorem refl (s : State) : Comes s [] s s := ⟨rfl, (List.append_nil _).symm, Nat.le_refl _, rfl⟩

/-- The transmitter starts what it can ahead of the event. -/
theorem served (s : State) : Comes s [] s (serve s) :=
  ⟨serve_port s, (serve_unsent s).trans (List.append_nil _).symm, serve_reports s, serve_reply s⟩

/-- An operation that does not look at the sending side. -/
theorem map (f : State → State) (h : Comes s rs u t) (hf : ∀ x y, f (x.withPort y) = (f x).withPort y) : Comes s rs (f u) (f t) := by
  have after : f t = (f u).withPort t.portSide := (congrArg f h.eq).trans (hf u t.portSide)
  rw [after]
  exact ⟨rfl, h.made, h.room, h.reply⟩

/-- A report that has room is made. -/
theorem report {n : Nat} (h : Comes s rs u t) (r : Report) (hr : Room n s) (hn : rs.length < n) : Comes s (rs ++ [r]) u (report r t) where
  port := (report_port r t).trans h.port
  made := by
    have room : Room 1 t := by have := h.room; unfold Room at *; omega
    unfold Made
    rw [report_unsent r t room, h.made, List.append_assoc]
  room := by
    have served := serve_reports (queueReport r t)
    have queued : (queueReport r t).reports.length ≤ t.reports.length + 1 := by
      unfold queueReport
      split <;> simp
    have := h.room
    unfold Machine.report
    rw [List.length_append, List.length_singleton]
    omega
  reply := (report_reply r t).trans h.reply

/-- The same part, said otherwise. -/
theorem restate {v : State} (h : Comes s rs u t) (hv : v.apartFromPort = u.apartFromPort) : Comes s rs v t :=
  ⟨h.port.trans hv.symm, h.made, h.room, h.reply⟩

theorem reports_eq {rs' : List Report} (h : Comes s rs u t) (he : rs = rs') : Comes s rs' u t := he ▸ h

end Comes

/-- A command answers with the part that comes of it, whatever its sending side has become. -/
theorem Answers.of_comes {c : Instr} {s u t : State} {rs : List Report} {P : State → Prop} (he : exec c s = .next t) (h : Comes s rs u t)
    (hp : ∀ y, Made s (u.withPort y) rs → (u.withPort y).reply = s.reply → P (u.withPort y)) : Answers c s P := by
  have eq := h.eq
  exact ⟨t, he, eq ▸ hp t.portSide (eq ▸ h.made) (eq ▸ h.reply)⟩

/-! ## Events -/

/-- A command whose meaning is an event finds the transmitter started. -/
theorem act_running {f : State → State} {s : State} (hrun : Running s) : act f s = finish (serve s) (f (serve s)) :=
  whileRunning_of_running hrun

theorem actQuietly_running {f : State → State} {s : State} (hrun : Running s) : actQuietly f s = f (serve s) :=
  whileRunning_of_running hrun

/-! ## The end of an event that brings nothing -/

/-- No attempt is caused where nothing that R90 names changes. -/
theorem attemptCaused_of_same {old new : State} (hw : new.waitQueue = old.waitQueue) (hf : new.free = old.free)
    (hc : activeCount new = activeCount old) (hl : new.link = old.link) (hp : new.posture = old.posture) (hm : new.mode = old.mode)
    (hk : new.mark = old.mark) : attemptCaused old new = false := by
  rw [← attemptCaused_self old]
  unfold attemptCaused
  rw [hw, hf, hc, hl, hp, hm, hk]

theorem activeCount_of_slots {s t : State} (h : t.slots = s.slots) : activeCount t = activeCount s := by
  unfold activeCount
  rw [h]

theorem scanRing_of_nobody {s : State} (h : s.ringQueue = []) : scanRing s = s := by
  unfold scanRing
  rw [h]
  rfl

/-- With nobody waiting for a slot or for ringing, an event ends as it stands. -/
theorem finish_of_empty {old new : State} (hq : new.waitQueue = []) (hr : new.ringQueue = []) (he : EventsFinished new) :
    finish old new = new := by
  have same : finish old new = finish new new := by
    unfold finish
    simp [scanRing_of_nobody hr, attempt_of_nobody hq]
  exact same.trans (finish_self he)

/-- With no FREE slot no line of the wait queue is admitted. -/
theorem admitHeads_of_full (n : Nat) {s : State} (hf : s.free = []) : admitHeads n s = s := by
  cases n with
  | zero => rfl
  | succ n =>
    unfold admitHeads
    rw [hf]
    cases s.waitQueue <;> rfl

/-- What preemption may choose is a call that it may clear. -/
theorem candidate_iff (s : State) (i : SlotId) (c : Call) :
    candidate s i = some c ↔ (s.slots.at i).call? = some c ∧ Preemptible s c := by
  unfold candidate Preemptible
  rw [Option.filter_eq_some_iff]
  refine and_congr_right fun _ => ?_
  rw [Bool.and_eq_true_iff]
  refine and_congr_right fun _ => ?_
  cases (s.lines.at c.line).state <;> simp [LineState.called]

theorem victim_of_none {s : State} (h : NoneToPreempt s) : victim s = none := by
  cases hv : victim s with
  | none => rfl
  | some x =>
    obtain ⟨hc, hp⟩ := (candidate_iff s x.1 x.2).mp (victim_call hv)
    exact absurd hp (h x.1 x.2 hc)

/-- With no FREE slot and no preemption an attempt does nothing. -/
theorem attempt_of_full {s : State} (hf : s.free = []) (hp : s.params.preempt = false ∨ s.mark ≠ none ∨ NoneToPreempt s) :
    attempt s = s := by
  have round : attemptRound s = (s, false) := by
    unfold attemptRound
    rw [admitHeads_of_full _ hf]
    dsimp only
    rcases hp with hp | hp | hp
    · have no : mayPreempt s = false := by unfold mayPreempt; rw [hp]; rfl
      rw [no]; rfl
    · have no : mayPreempt s = false := by
        unfold mayPreempt
        cases hm : s.mark with
        | none => exact absurd hm hp
        | some _ => simp
      rw [no]; rfl
    · rw [victim_of_none hp]; split <;> rfl
  unfold attempt
  rw [attemptRounds, round]
  rfl

/-- An attempt that finds nobody to take in or to preempt leaves the event as it stands. -/
theorem finish_of_attempt {old new : State} (hr : roomGained old new = false) (ha : attempt new = new) (he : EventsFinished new) :
    finish old new = new := by
  have same : finish old new = finish new new := by
    unfold finish
    simp [hr, roomGained_of_same, ha]
  exact same.trans (finish_self he)

/-- What the end of an event looks at is the same. -/
theorem EventsFinished.of_same {s t : State} (hs : t.slots = s.slots) (hh : t.holdover = s.holdover) (hm : t.mode = s.mode)
    (h : EventsFinished s) : EventsFinished t := h.of_side (by unfold State.finishSide; rw [hs, hh, hm])

end Sys2Proof.Machine
end

