-- ==== Sys2Proof/Proofs/Owed.lean ====
section
/-! PROOF. What a slot owes, made into its next entry: an equation for each case (R73, R151). -/

namespace Sys2Proof.Machine

theorem makeOwed_of_entry {s : State} {i : SlotId} (h : hasEntry s i = true) : makeOwed i s = s := by
  unfold makeOwed
  rw [if_pos h]

theorem makeOwed_of_line {s : State} {i : SlotId} {c : Call} {b : Bool} (he : hasEntry s i = false) (ho : (s.sig.at i).owed = none)
    (hs : s.slots.at i = .busy c b) : makeOwed i s = makeLineOwed i c.line s := by
  unfold makeOwed
  rw [if_neg (by rw [he]; decide), ho, hs]

theorem makeOwed_of_owed {s : State} {i : SlotId} {o : ClearOwed} (he : hasEntry s i = false) (ho : (s.sig.at i).owed = some o) :
    makeOwed i s = addSlotEntry false i o.msg (setClearOwed i none s) := by
  unfold makeOwed
  rw [if_neg (by rw [he]; decide), ho]

/-- A slot that is not BUSY and owes no clear item owes nothing. -/
theorem makeOwed_of_nothing {s : State} {i : SlotId} (ho : (s.sig.at i).owed = none) (hs : ∀ c b, s.slots.at i ≠ .busy c b) :
    makeOwed i s = s := by
  unfold makeOwed
  rw [ho]
  split
  · rfl
  · cases hsl : s.slots.at i
    case busy c b => exact absurd hsl (hs c b)
    all_goals rfl

theorem makeLineOwed_answer {s : State} {i : SlotId} {p : Port} (h : (s.lines.at p).answerOwed = true) :
    makeLineOwed i p s = addSlotEntry false i .answer (setLine p { s.lines.at p with answerOwed := false } s) := by
  unfold makeLineOwed
  dsimp only
  rw [if_pos h]

theorem makeLineOwed_flash {s : State} {i : SlotId} {p : Port} (ha : (s.lines.at p).answerOwed = false)
    (h : (s.lines.at p).flashOwed = true) :
    makeLineOwed i p s = addSlotEntry false i .flash (setLine p { s.lines.at p with flashOwed := false } s) := by
  unfold makeLineOwed
  dsimp only
  rw [if_neg (by rw [ha]; decide), if_pos h]

theorem makeLineOwed_digits {s : State} {i : SlotId} {p : Port} (ha : (s.lines.at p).answerOwed = false)
    (hf : (s.lines.at p).flashOwed = false) (h : (s.lines.at p).state.active = true ∧ (s.buffers.at p).digits ≠ []) :
    makeLineOwed i p s = addSlotEntry false i .digits s := by
  unfold makeLineOwed
  dsimp only
  rw [if_neg (by rw [ha]; decide), if_neg (by rw [hf]; decide), if_pos h]

theorem makeLineOwed_nothing {s : State} {i : SlotId} {p : Port} (ha : (s.lines.at p).answerOwed = false)
    (hf : (s.lines.at p).flashOwed = false) (h : ¬ ((s.lines.at p).state.active = true ∧ (s.buffers.at p).digits ≠ [])) :
    makeLineOwed i p s = s := by
  unfold makeLineOwed
  dsimp only
  rw [if_neg (by rw [ha]; decide), if_neg (by rw [hf]; decide), if_neg h]

/-- An entry that is not urgent is made at the tail. -/
theorem addSlotEntry_tail (i : SlotId) (m : SlotMsg) {s : State} {p : Port} {tag : Nat} (h : (s.slots.at i).party? = some (p, tag)) :
    addSlotEntry false i m s = setTxq (s.txq ++ [{ msg := .ofSlot i p tag m, pinned := false }]) s := by
  rw [addSlotEntry_eq false i m s h, queueWith_false]
  rfl

theorem hasEntryOf_of_hasEntry {s : State} {i : SlotId} (m : SlotMsg) (h : hasEntry s i = false) : hasEntryOf s i m = false := by
  unfold hasEntry at h
  unfold hasEntryOf
  rw [List.any_eq_false] at h ⊢
  intro e he
  have := h e he
  simp_all

/-- One record of a table replaced twice. -/
theorem put_put {n : Nat} {α : Type} (t : Table n α) (i : Fin n) (a b : α) : (t.put i a).put i b = t.put i b :=
  Table.ext_at fun j => by rw [Table.at_put, Table.at_put, Table.at_put]; split <;> rfl

end Sys2Proof.Machine
end

