-- ==== Sys2Proof/Proofs/Breaks.lean ====
section
/-! PROOF. Breaks that are no pulse, completed digits and contact changes (O20, O21, O23): events without an end. -/

namespace Sys2Proof.Machine

/-! ## Breaks (Table 2.4) -/

theorem classifyBreak_of_short (p : Port) {ms : Nat} (s : State) (h : ms < 20) :
    classifyBreak p ms s = setScan p ((s.scan.at p).breakIgnored ms) s := if_pos h

theorem classifyBreak_of_long (p : Port) {ms : Nat} (s : State) (h : 100 < ms) :
    classifyBreak p ms s = takeFlash p (setScan p (s.scan.at p).breakTaken.trainCleared s) := by
  have hlow : ¬ ms < Config.pulseMin := by unfold Config.pulseMin; omega
  have hhigh : ¬ ms ≤ Config.pulseMax := by unfold Config.pulseMax; omega
  unfold classifyBreak
  simp only [if_neg hlow, if_neg hhigh]

theorem takeFlash_ignored {p : Port} {s : State} (h : (s.lines.at p).state.active = false) : takeFlash p s = noteEvent p .flashIgnored s := by
  have not : flashActedOn s p = false := by simp [flashActedOn, h]
  unfold takeFlash
  rw [not]
  rfl

/-- A flash on a connected line with nothing waiting makes its FLASH entry, and the line record is as before. -/
theorem takeFlash_made {p : Port} {i : SlotId} {d : Direction} {c : Call} {b : Bool} {s : State} (hact : (s.lines.at p).state.active = true)
    (hcall : (s.lines.at p).call = some (i, d)) (hslot : s.slots.at i = .busy c b) (hp : c.line = p) (he : hasEntry s i = false)
    (ho : (s.sig.at i).owed = none) (hd : (s.buffers.at p).digits = []) (hf : (s.lines.at p).flashOwed = false)
    (ha : (s.lines.at p).answerOwed = false) :
    takeFlash p s = setTxq (s.txq ++ [{ msg := .ofSlot i p c.tag .flash, pinned := false }]) s := by
  have acts : flashActedOn s p = true := by
    unfold flashActedOn
    dsimp only
    rw [hact, hd, hf, hcall]
    simp [hasEntryOf_of_hasEntry _ he]
  have named : slotOfLine s p = some i := by unfold slotOfLine; rw [hcall]; rfl
  unfold takeFlash
  rw [if_pos acts, named]
  dsimp only
  have line : (setLine p { s.lines.at p with flashOwed := true } s).lines.at p = { s.lines.at p with flashOwed := true } :=
    Table.at_put_same _ _ _
  rw [makeOwed_of_line (s := setLine p { s.lines.at p with flashOwed := true } s) (c := c) (b := b) he ho hslot, hp, makeLineOwed_flash (by rw [line]; exact ha) (by rw [line]), line,
    addSlotEntry_tail i .flash (p := p) (tag := c.tag) (by show (s.slots.at i).party? = _; rw [hslot, ← hp]; rfl)]
  have same : ({ s.lines.at p with flashOwed := false } : Line) = s.lines.at p := by rw [← hf]
  unfold setTxq setLine
  dsimp only
  rw [put_put, same, Table.put_at]

/-- Settles O20: a short break is ignored, a long one is a flash that the line acts on or that is reported. -/
theorem otherBreaksAreClassified : Obligations.OtherBreaksAreClassified := by
  refine ⟨fun p ms s hrun hdec hsam hpos hms hflash => ?_, fun p ms i c b d s hrun hdec hsam hms hflash hact hcall hslot hp he ho hd hf ha => ?_,
    fun p ms s hrun hdec hsam hms hflash hact hr => ?_⟩
  · refine ⟨_, exec_breakEnd_of_decodes hrun hdec hsam hpos hflash, ?_⟩
    rw [classifyBreak_of_short p _ hms]
    refine ⟨?_, ?_, fun q hq => ?_, fun q hq => ?_, rfl⟩
    all_goals simp_all [Scanner.breakIgnored]
  · refine ⟨_, exec_breakEnd_of_decodes hrun hdec hsam (by omega) hflash, ?_⟩
    rw [classifyBreak_of_long p _ hms]
    obtain ⟨y, hy⟩ : ∃ y, serve s = s.withPort y := ⟨_, eq_withPort (serve_port s)⟩
    rw [hy, takeFlash_made (s := setScan p ((setHookPin p true (s.withPort y)).scan.at p).breakTaken.trainCleared
      (setHookPin p true (s.withPort y))) (i := i) (d := d) (c := c) (b := b) hact hcall hslot hp he ho hd hf ha]
    refine ⟨?_, ?_, rfl, rfl, fun q hq => ?_, fun q hq => ?_, rfl⟩
    all_goals simp_all [State.withPort, Scanner.trainCleared]
  · have sampled := ((Comes.served s).map (setHookPin p true) fun _ _ => rfl).map
      (fun x => setScan p (x.scan.at p).breakTaken.trainCleared x) fun _ _ => rfl
    have told := sampled.report (.callEvent p (s.lines.at p).state .flashIgnored) hr (by decide)
    have exec_eq := exec_breakEnd_of_decodes hrun hdec hsam (by omega) hflash
    have line : ((setScan p ((setHookPin p true (serve s)).scan.at p).breakTaken.trainCleared (setHookPin p true (serve s))).lines.at p).state
        = (s.lines.at p).state := congrArg (fun l => (Table.at l p).state) (congrArg State.lines sampled.port :)
    rw [classifyBreak_of_long p _ hms, takeFlash_ignored (by rw [line]; exact hact)] at exec_eq
    unfold noteEvent at exec_eq
    rw [line] at exec_eq
    refine .of_comes exec_eq told fun y made _ => ⟨?_, ?_, made, fun q hq => ?_, fun q hq => ?_, rfl⟩
    · simp [State.withPort, Scanner.trainCleared]
    · simp [State.withPort, Scanner.trainCleared]
    · simp [State.withPort, hq]
    · simp [State.withPort, hq]

/-! ## An alarm's condition, followed through -/

/-- The alarm list as it is after the beginning of a condition. -/
def conditionBegun (a : AlarmId) (s : State) : State :=
  match alarmEntry s a with
  | none => setAlarms (s.alarms ++ [{ id := a, present := true }]) s
  | some e => if e.present then s else markAlarm a true s

/-- The alarm list as it is after the end of a condition. -/
def conditionEnded (a : AlarmId) (s : State) : State :=
  match alarmEntry s a with
  | some e => if e.present then markAlarm a false s else s
  | none => s

section
variable {s : State} {a : AlarmId}

theorem begun_of_none (h : alarmEntry s a = none) : begun s a = [.alarmEvent a .raised] := by
  unfold begun
  rw [h]
  rfl

theorem begun_of_some {e : Alarm} (h : alarmEntry s a = some e) : begun s a = if e.present then [] else [.alarmEvent a .raised] := by
  unfold begun
  rw [h]
  rfl

theorem ended_of_none (h : alarmEntry s a = none) : ended s a = [] := by
  unfold ended
  rw [h]
  rfl

theorem ended_of_some {e : Alarm} (h : alarmEntry s a = some e) (hp : e.present = true) : ended s a = [.alarmEvent a .conditionEnded] := by
  unfold ended
  rw [h]
  exact if_pos hp

theorem conditionBegun_of_none (h : alarmEntry s a = none) :
    conditionBegun a s = setAlarms (s.alarms ++ [{ id := a, present := true }]) s := by
  unfold conditionBegun
  rw [h]

theorem conditionEnded_of_none (h : alarmEntry s a = none) : conditionEnded a s = s := by
  unfold conditionEnded
  rw [h]

theorem conditionEnded_of_some {e : Alarm} (h : alarmEntry s a = some e) (hp : e.present = true) :
    conditionEnded a s = markAlarm a false s := by
  unfold conditionEnded
  rw [h]
  exact if_pos hp
end

namespace Comes
variable {s u t : State} {rs : List Report} {n : Nat}

/-- The beginning of a condition is reported where it was not present. -/
theorem begins (h : Comes s rs u t) (a : AlarmId) (hr : Room n s) (hn : rs.length < n) :
    Comes s (rs ++ begun u a) (conditionBegun a u) (beginCondition a t) := by
  have entry : alarmEntry t a = alarmEntry u a := (congrArg (fun x => alarmEntry x a) h.port :)
  unfold beginCondition conditionBegun
  rw [entry]
  cases hu : alarmEntry u a with
  | none =>
    rw [begun_of_none hu]
    exact (h.map (fun x => setAlarms (x.alarms ++ [{ id := a, present := true }]) x) fun _ _ => rfl).report _ hr hn
  | some e =>
    rw [begun_of_some hu]
    dsimp only
    cases e.present with
    | true =>
      simp only [if_true, List.append_nil]
      exact h
    | false => exact (h.map (markAlarm a true) fun _ _ => rfl).report _ hr hn

/-- The end of a condition is reported where it was present. -/
theorem ends (h : Comes s rs u t) (a : AlarmId) (hr : Room n s) (hn : rs.length < n) :
    Comes s (rs ++ ended u a) (conditionEnded a u) (endCondition a t) := by
  have entry : alarmEntry t a = alarmEntry u a := (congrArg (fun x => alarmEntry x a) h.port :)
  unfold endCondition conditionEnded
  rw [entry]
  cases hu : alarmEntry u a with
  | none =>
    rw [ended_of_none hu, List.append_nil]
    exact h
  | some e =>
    dsimp only
    cases hp : e.present with
    | true =>
      rw [ended_of_some hu hp]
      exact (h.map (markAlarm a false) fun _ _ => rfl).report _ hr hn
    | false =>
      have quiet : ended u a = [] := by
        unfold ended
        rw [hu]
        exact if_neg (by rw [Option.any_some, hp]; decide)
      rw [quiet, List.append_nil]
      exact h

end Comes

/-! ## Digits (R27, R28, R30) -/

theorem exec_digitComplete_of_decodes {p : Port} {s : State} (hrun : Running s) (hdec : decodes s p = true) (hsam : hookSampled s p = true)
    (hdue : 0 < (s.scan.at p).pulses ∨ (s.scan.at p).overrun = true) :
    exec (.digitComplete p) s = .next (completeDigit p (setHookPin p true (serve s))) := by
  have taken : actQuietly (fun s => if decodes s p && hookSampled s p && (decide (0 < (s.scan.at p).pulses) || (s.scan.at p).overrun)
      then completeDigit p (setHookPin p true s) else s) s = completeDigit p (setHookPin p true (serve s)) := by
    rw [actQuietly_running hrun]
    refine if_pos ?_
    rw [decodes_serve, hookSampled_serve, serve_scan, hdec, hsam, Bool.true_and, Bool.true_and, Bool.or_eq_true, decide_eq_true_eq]
    exact hdue
  exact congrArg Host.Outcome.next taken

/-- The sample that completes a digit. -/
def digitSample (p : Port) (s : State) : State :=
  setScan p ((s.scan.at p).closedFor (wholeSamples s.params.interdigit)).trainCleared (setHookPin p true s)

theorem digitSample_comes (p : Port) (s : State) : Comes s [] (digitSample p s) (digitSample p (serve s)) :=
  (Comes.served s).map (digitSample p) fun _ _ => rfl

theorem completeDigit_of_overrun {p : Port} {s : State} (h : (s.scan.at p).overrun = true) :
    completeDigit p (setHookPin p true s) = noteEvent p .misdial (digitSample p s) := by
  unfold completeDigit
  exact if_pos h

theorem completeDigit_of_count {p : Port} {s : State} (h : (s.scan.at p).overrun = false) :
    completeDigit p (setHookPin p true s) = offerDigit p (digitOf (s.scan.at p).pulses) (digitSample p s) := by
  unfold completeDigit
  exact if_neg (by show ¬ (s.scan.at p).overrun = true; rw [h]; decide)

/-- The digit joins the buffer of a line without a call where its places leave room. -/
theorem offerDigit_of_room {p : Port} (d : Digit) {s : State} (hcall : (s.lines.at p).call = none)
    (h : (s.buffers.at p).digits.length + (s.buffers.at p).lent < 4) :
    offerDigit p d s = setBuffer p { s.buffers.at p with digits := (s.buffers.at p).digits ++ [d] } s := by
  have named : slotOfLine s p = none := by unfold slotOfLine; rw [hcall]; rfl
  unfold offerDigit
  dsimp only
  rw [if_pos (show _ < Config.digitPlaces from h)]
  rw [named]

theorem offerDigit_of_full {p : Port} (d : Digit) {s : State}
    (h : ¬ (s.buffers.at p).digits.length + (s.buffers.at p).lent < 4) :
    offerDigit p d s = noteEvent p .digitLost (setBuffer p { s.buffers.at p with lost := true } s) := if_neg h

/-- Settles O21, by what the train and the buffer give: a misdial, a digit, a digit lost. -/
theorem digitCompletes : Obligations.DigitCompletes := by
  intro p s hrun hdec hsam hcall hroom hpulses hten
  have exec_eq := exec_digitComplete_of_decodes hrun hdec hsam (.inl hpulses)
  have sampled := digitSample_comes p s
  have line : (digitSample p (serve s)).lines = s.lines := (congrArg State.lines sampled.port :)
  have buffers : (digitSample p (serve s)).buffers = s.buffers := (congrArg State.buffers sampled.port :)
  by_cases ho : (s.scan.at p).overrun = true
  · rw [completeDigit_of_overrun (s := serve s) (by rw [serve_scan]; exact ho)] at exec_eq
    unfold noteEvent at exec_eq
    rw [line] at exec_eq
    refine .of_comes exec_eq (sampled.report _ hroom (by decide)) fun y made _ => ⟨?_, ?_, fun q hq => ?_, fun q hq => ?_, fun _ _ => rfl, rfl, ?_⟩
    · simp [State.withPort, digitSample, Scanner.trainCleared]
    · simp [State.withPort, digitSample, Scanner.trainCleared]
    · simp [State.withPort, digitSample, hq]
    · simp [State.withPort, digitSample, hq]
    · rw [if_pos ho]
      exact ⟨rfl, made⟩
  · have hno := Bool.eq_false_of_not_eq_true ho
    rw [completeDigit_of_count (s := serve s) (by rw [serve_scan]; exact hno), serve_scan] at exec_eq
    by_cases hr : (s.buffers.at p).digits.length + (s.buffers.at p).lent < 4
    · rw [offerDigit_of_room _ (by rw [line]; exact hcall) (by rw [buffers]; exact hr)] at exec_eq
      have offered := sampled.map (fun x => setBuffer p { x.buffers.at p with
        digits := (x.buffers.at p).digits ++ [digitOf (s.scan.at p).pulses] } x) fun _ _ => rfl
      refine .of_comes exec_eq offered fun y made _ => ⟨?_, ?_, fun q hq => ?_, fun q hq => ?_, fun q hq => ?_, rfl, ?_⟩
      · simp [State.withPort, digitSample, Scanner.trainCleared]
      · simp [State.withPort, digitSample, Scanner.trainCleared]
      · simp [State.withPort, digitSample, hq]
      · simp [State.withPort, digitSample, hq]
      · simp [State.withPort, digitSample, hq]
      · rw [if_neg ho, if_pos hr]
        refine ⟨⟨digitOf (s.scan.at p).pulses, rfl, ?_⟩, ?_, ?_, made⟩
        · simp [State.withPort, digitSample]
        · simp [State.withPort, digitSample]
        · simp [State.withPort, digitSample]
    · rw [offerDigit_of_full _ (by rw [buffers]; exact hr)] at exec_eq
      have lost := sampled.map (fun x => setBuffer p { x.buffers.at p with lost := true } x) fun _ _ => rfl
      have told := lost.report (.callEvent p (s.lines.at p).state .digitLost) hroom (by decide)
      unfold noteEvent at exec_eq
      rw [setBuffer_lines, line] at exec_eq
      refine .of_comes exec_eq told fun y made _ => ⟨?_, ?_, fun q hq => ?_, fun q hq => ?_, fun q hq => ?_, rfl, ?_⟩
      · simp [State.withPort, digitSample, Scanner.trainCleared]
      · simp [State.withPort, digitSample, Scanner.trainCleared]
      · simp [State.withPort, digitSample, hq]
      · simp [State.withPort, digitSample, hq]
      · simp [State.withPort, digitSample, hq]
      · rw [if_neg ho, if_neg hr]
        refine ⟨?_, ?_, ?_, made⟩
        · simp [State.withPort, digitSample]
        · simp [State.withPort, digitSample]
        · simp [State.withPort, digitSample]

/-! ## Contacts (R37, R38) -/

theorem exec_contactChange_of_monitor {p : Port} {c : ContactState} {s : State} (hrun : Running s) (hmon : isMonitor s p = true)
    (hsam : hookSampled s p = true) (hc : (s.scan.at p).contact ≠ c) :
    exec (.contactChange p c) s = .next (takeContact p c (contactSample p c (serve s))) := by
  have awake : groupState s p ≠ .waking := by
    intro h
    unfold hookSampled at hsam
    rw [h] at hsam
    exact nomatch hsam
  have monitor : isMonitor (serve s) p = true := (congrArg (fun x => isMonitor x p) (serve_port s) :).trans hmon
  have group : groupState (serve s) p = groupState s p := (congrArg (fun x => groupState x p) (serve_port s) :)
  have taken : actQuietly (fun s =>
      if isMonitor s p && decide ((s.scan.at p).contact ≠ c) && decide (groupState s p ≠ .waking)
      then takeContact p c (contactSample p c s) else s) s = takeContact p c (contactSample p c (serve s)) := by
    rw [actQuietly_running hrun]
    refine if_pos ?_
    rw [monitor, serve_scan, decide_eq_true hc, decide_eq_true (group ▸ awake)]
    rfl
  exact congrArg Host.Outcome.next taken

theorem contactSample_comes (p : Port) (c : ContactState) (s : State) : Comes s [] (contactSample p c s) (contactSample p c (serve s)) :=
  (Comes.served s).map (contactSample p c) fun _ _ => rfl

theorem contactSample_contact (p : Port) (c : ContactState) (s : State) : ((contactSample p c s).scan.at p).contact = c := by
  unfold contactSample Scanner.contactTaken
  split <;> cases c <;> simp

theorem contactSample_only (p : Port) (c : ContactState) (s : State) :
    OnlyAt p s.scan (contactSample p c s).scan ∧ OnlyAt p s.hookPin (contactSample p c s).hookPin := by
  unfold contactSample
  exact ⟨fun q hq => by simp [hq], fun q hq => by simp [hq]⟩

/-- Settles O23: the MONITOR_EVENT, and behind it the alarm that begins or ends. -/
theorem contactChangesAreReported : Obligations.ContactChangesAreReported := by
  refine ⟨fun p s hrun hmon hsam hc ha hroom => ?_, fun p s hrun hmon hsam hc ha hroom => ?_⟩
  · have told := ((contactSample_comes p .closed s).report (.monitorEvent p .closed) hroom (by decide)).begins (.contact p) hroom (by simp)
    have none : alarmEntry (contactSample p .closed s) (.contact p) = none := ha
    rw [begun_of_none none, conditionBegun_of_none none] at told
    refine .of_comes (exec_contactChange_of_monitor hrun hmon hsam (by rw [hc]; decide)) told fun y made _ =>
      ⟨contactSample_contact p .closed s, rfl, made, (contactSample_only p .closed s).1, (contactSample_only p .closed s).2, rfl⟩
  · have told := ((contactSample_comes p .opened s).report (.monitorEvent p .opened) hroom (by decide)).ends (.contact p) hroom (by simp)
    have some : alarmEntry (contactSample p .opened s) (.contact p) = some ⟨.contact p, true⟩ := ha
    rw [ended_of_some some rfl, conditionEnded_of_some some rfl] at told
    refine .of_comes (exec_contactChange_of_monitor hrun hmon hsam (by rw [hc]; decide)) told fun y made _ =>
      ⟨contactSample_contact p .opened s, rfl, made, (contactSample_only p .opened s).1, (contactSample_only p .opened s).2, rfl⟩

end Sys2Proof.Machine
end

