-- ==== Sys2Proof/Proofs/Moves.lean ====
section
/-! PROOF. A line's change of state and a slot given up, as record updates, and followed through with the reports they make. -/

namespace Sys2Proof.Machine

/-! ## A line's change of state -/

section
variable (p : Port) (st : LineState) (call : Option (SlotId × Direction)) (timer : Option Nat) (s : State)

theorem moveLine_scan : (moveLine p st call timer s).scan
    = s.scan.put p ((s.scan.at p).lineMoved (s.ports.at p) (s.lines.at p).state st) := by
  unfold moveLine leaveRing emptyBuffer
  dsimp only
  repeat' split
  all_goals rfl

theorem moveLine_buffers : (moveLine p st call timer s).buffers
    = if st.emptiesBuffer = true then s.buffers.put p DigitBuffer.empty else s.buffers := by
  unfold moveLine leaveRing emptyBuffer
  dsimp only
  repeat' split
  all_goals simp

theorem moveLine_ringDrive : (moveLine p st call timer s).ringDrive
    = if LeavesRing p st s then s.ringDrive.put p false else s.ringDrive := by
  unfold moveLine leaveRing emptyBuffer
  dsimp only
  repeat' split
  all_goals simp

/-- What a line's change of state may write. -/
theorem moveLine_frame : moveLine p st call timer s = { s with
    lines := (moveLine p st call timer s).lines, scan := (moveLine p st call timer s).scan
    buffers := (moveLine p st call timer s).buffers, waitQueue := (moveLine p st call timer s).waitQueue
    cells := (moveLine p st call timer s).cells, ringQueue := (moveLine p st call timer s).ringQueue
    ringDrive := (moveLine p st call timer s).ringDrive } := by
  unfold moveLine leaveRing emptyBuffer
  dsimp only
  repeat' split
  all_goals rfl

/-- A line's change of state, said field by field. -/
theorem moveLine_eq : moveLine p st call timer s = { s with
    lines := s.lines.put p ((s.lines.at p).moved st call timer)
    scan := s.scan.put p ((s.scan.at p).lineMoved (s.ports.at p) (s.lines.at p).state st)
    buffers := if st.emptiesBuffer = true then s.buffers.put p DigitBuffer.empty else s.buffers
    waitQueue := if (s.lines.at p).state = .queued ∧ st ≠ .queued then s.waitQueue.erase p else s.waitQueue
    cells := if LeavesRing p st s then (leaveRing p s).cells else s.cells
    ringQueue := if LeavesRing p st s then s.ringQueue.erase p else s.ringQueue
    ringDrive := if LeavesRing p st s then s.ringDrive.put p false else s.ringDrive } := by
  rw [← moveLine_lines p st call timer, ← moveLine_scan p st call timer, ← moveLine_buffers p st call timer,
    ← moveLine_waitQueue p st call timer, ← moveLine_cells p st call timer, ← moveLine_ringQueue p st call timer,
    ← moveLine_ringDrive p st call timer]
  exact moveLine_frame p st call timer s

/-- The change to a state that is not called, not QUEUED and empties the digit buffer. -/
theorem moveLine_bare {p : Port} {st : LineState} {s : State} (hq : st ≠ .queued) (hc : ¬ st.called = true) (he : st.emptiesBuffer = true) :
    moveLine p st none none s = { s with
      lines := s.lines.put p ((s.lines.at p).moved st none none)
      scan := s.scan.put p ((s.scan.at p).lineMoved (s.ports.at p) (s.lines.at p).state st)
      buffers := s.buffers.put p DigitBuffer.empty
      waitQueue := if (s.lines.at p).state = .queued then s.waitQueue.erase p else s.waitQueue
      cells := if (s.lines.at p).state.called = true then (leaveRing p s).cells else s.cells
      ringQueue := if (s.lines.at p).state.called = true then s.ringQueue.erase p else s.ringQueue
      ringDrive := if (s.lines.at p).state.called = true then s.ringDrive.put p false else s.ringDrive } := by
  have leaves : LeavesRing p st s ↔ (s.lines.at p).state.called = true := and_iff_left hc
  have left : (s.lines.at p).state = .queued ∧ st ≠ .queued ↔ (s.lines.at p).state = .queued := and_iff_left hq
  rw [moveLine_eq, if_pos he]
  simp only [leaves, left]

theorem moveLine_withPort (y : PortSide) : moveLine p st call timer (s.withPort y) = (moveLine p st call timer s).withPort y := by
  rw [moveLine_eq, moveLine_eq p st call timer s]
  rfl
end

theorem Scanner.lineMoved_hook (c : Scanner) (r : PortRole) (old st : LineState) :
    (c.lineMoved r old st).hook = if st.suspended = true then .onHook else c.hook := by
  unfold Scanner.lineMoved Scanner.suspended Scanner.trainCleared
  dsimp only
  split <;> split <;> rfl

theorem Scanner.lineMoved_fault (c : Scanner) (r : PortRole) (old st : LineState) : (c.lineMoved r old st).fault = c.fault := by
  unfold Scanner.lineMoved Scanner.suspended Scanner.trainCleared
  dsimp only
  split <;> split <;> rfl

/-! ## The end of a line's call (R74) -/

/-- The part after a line is sent to a bare state at the end of its call, its reports apart: a claim for it is granted instead. -/
def lineEnds (p : Port) (st : LineState) (s : State) : State :=
  if s.bus = .claimed p then setBus (.held p) (moveLine p .test none none s) else moveLine p st none none s

section
variable (p : Port) {st : LineState} (s : State)

theorem moved_bare (h : st.endsCall = true) (l : Line) : l.moved st none none = { Line.unequipped with state := st, faultPresent := l.faultPresent } := by
  cases st <;> simp_all [LineState.endsCall, Line.moved, LineState.mayOweAnswer, LineState.called, LineState.active, Line.unequipped]

theorem moved_test (l : Line) : l.moved .test none none = { Line.unequipped with state := .test, faultPresent := l.faultPresent } := by
  simp [Line.moved, LineState.mayOweAnswer, LineState.called, LineState.active, Line.unequipped]

theorem emptiesBuffer_of_endsCall (h : st.endsCall = true) : st.emptiesBuffer = true := by
  cases st <;> first | rfl | exact nomatch h

theorem called_of_endsCall (h : st.endsCall = true) : ¬ st.called = true := by
  cases st <;> first | decide | exact nomatch h

theorem not_queued_of_endsCall (h : st.endsCall = true) : st ≠ .queued := by
  rintro rfl
  exact nomatch h

theorem lineEnds_lines (h : st.endsCall = true) : (lineEnds p st s).lines = s.lines.put p (lineEnded s p st) := by
  unfold lineEnds lineEnded
  split
  · exact (moveLine_lines ..).trans (by rw [moved_test])
  · rw [moveLine_lines, moved_bare h]

theorem lineEnds_eq (h : st.endsCall = true) : lineEnds p st s = { s with
    lines := s.lines.put p (lineEnded s p st)
    scan := s.scan.put p ((s.scan.at p).lineMoved (s.ports.at p) (s.lines.at p).state (lineEnded s p st).state)
    buffers := s.buffers.put p DigitBuffer.empty
    waitQueue := if (s.lines.at p).state = .queued then s.waitQueue.erase p else s.waitQueue
    cells := if (s.lines.at p).state.called = true then (leaveRing p s).cells else s.cells
    ringQueue := if (s.lines.at p).state.called = true then s.ringQueue.erase p else s.ringQueue
    ringDrive := if (s.lines.at p).state.called = true then s.ringDrive.put p false else s.ringDrive
    bus := busEnded s p } := by
  unfold lineEnds lineEnded busEnded
  by_cases hb : s.bus = .claimed p
  · simp only [if_pos hb]
    rw [moveLine_bare (by decide) (by decide) rfl, moved_test]
    rfl
  · simp only [if_neg hb]
    rw [moveLine_bare (not_queued_of_endsCall h) (called_of_endsCall h) (emptiesBuffer_of_endsCall h), moved_bare h]

theorem lineEnds_withPort (y : PortSide) : lineEnds p st (s.withPort y) = (lineEnds p st s).withPort y := by
  unfold lineEnds
  rw [moveLine_withPort, moveLine_withPort]
  have bus : (s.withPort y).bus = s.bus := rfl
  rw [bus]
  split <;> rfl
end

namespace Comes
variable {s u t : State} {rs : List Report} {n : Nat}

theorem callEvent (h : Comes s rs u t) (p : Port) (st : LineState) (r : Reason) (hr : Room n s) (hn : rs.length < n) :
    Comes s (rs ++ [.callEvent p st (.because r)]) u (callEvent p st r t) := h.report _ hr hn

/-- A group that is not waiting to sleep does not sleep. -/
theorem groupIdle (h : Comes s rs u t) {g : GroupId} (hg : (u.groups.at g).state ≠ .standbyPending) : Comes s rs u (groupIdle g t) := by
  have groups : t.groups = u.groups := (congrArg State.groups h.port :)
  unfold Machine.groupIdle
  rw [groups, if_neg fun x => hg x.1]
  exact h

/-- A line enters a state with its report, where no claim and no sleeping group comes into it. -/
theorem enterLine (h : Comes s rs u t) (p : Port) {st : LineState} (call : Option (SlotId × Direction)) (timer : Option Nat) (r : Reason)
    (hst : st.endsCall = false) (hr : Room n s) (hn : rs.length < n) :
    Comes s (rs ++ [.callEvent p st (.because r)]) (moveLine p st call timer u) (enterLine p st call timer r t) := by
  have idle : st ≠ .idle := by rintro rfl; exact nomatch hst
  unfold Machine.enterLine
  rw [if_neg (by rw [hst]; exact fun x => nomatch x.1)]
  dsimp only
  rw [if_neg idle]
  exact (h.map (moveLine p st call timer) fun x y => moveLine_withPort p st call timer x y).callEvent p st r hr hn

theorem grantBus (h : Comes s rs u t) (p : Port) (g : Grant) (hr : Room n s) (hn : rs.length + 2 ≤ n) :
    Comes s (rs ++ [.callEvent p .test (.because .maintenance), .testEvent p g]) (setBus (.held p) (moveLine p .test none none u))
      (grantBus p g t) := by
  have moved := (h.map (fun x => setBus (.held p) (moveLine p .test none none x)) fun x y =>
    congrArg (setBus (.held p)) (moveLine_withPort p .test none none x y)).callEvent p .test .maintenance hr (by omega)
  have granted := moved.report (.testEvent p g) hr (by rw [List.length_append, List.length_singleton]; omega)
  rw [List.append_assoc] at granted
  exact granted

/-- A line is sent to a bare state with its reports. -/
theorem enterBare (h : Comes s rs u t) (p : Port) {st : LineState} (r : Reason) (hst : st.endsCall = true)
    (hg : st = .idle → (u.groups.at (groupOf p)).state ≠ .standbyPending) (hr : Room n s)
    (hn : rs.length + (endReports u p st r).length ≤ n) :
    Comes s (rs ++ endReports u p st r) (lineEnds p st u) (enterBare p st r t) := by
  have bus : t.bus = u.bus := (congrArg State.bus h.port :)
  unfold Machine.enterBare Machine.enterLine
  unfold endReports at hn ⊢
  unfold lineEnds
  rw [bus]
  by_cases hb : u.bus = .claimed p
  · rw [if_pos hb] at hn
    rw [if_pos hb, if_pos hb, if_pos (And.intro hst hb)]
    exact h.grantBus p .callEnd hr hn
  · rw [if_neg hb] at hn
    rw [if_neg hb, if_neg hb, if_neg fun x => hb x.2]
    have moved := (h.map (moveLine p st none none) fun x y => moveLine_withPort p st none none x y).callEvent p st r hr hn
    dsimp only
    split
    · next hi => exact moved.groupIdle (by rw [moveLine_groups]; exact hg hi)
    · exact moved

end Comes

end Sys2Proof.Machine
end

