-- ==== Sys2Proof/Proofs/Slots.lean ====
section
/-! PROOF. A slot freed, and a slot given up with a clear item owed, as record updates that do not look at the sending side. -/

namespace Sys2Proof.Machine

/-! ## A slot freed -/

theorem freeSlot_eq {i : SlotId} {s : State} (h : (s.slots.at i).inUse = true) : freeSlot i s = { s with
    slots := s.slots.put i (released (s.slots.at i).blockPending), sig := s.sig.put i Sig.cleared
    free := if (s.slots.at i).blockPending = true then s.free else s.free ++ [i]
    mark := if s.mark = some i then none else s.mark } := by
  unfold freeSlot released
  rw [if_pos h]
  cases (s.slots.at i).blockPending <;> rfl

theorem inUse_of_call {sl : Slot} {c : Call} (h : sl.call? = some c) : sl.inUse = true := by
  cases sl <;> first | rfl | exact nomatch h

section
variable (i : SlotId) (s : State) (y : PortSide)

theorem freeSlot_withPort : freeSlot i (s.withPort y) = (freeSlot i s).withPort y := by
  have slots : (s.withPort y).slots = s.slots := rfl
  unfold freeSlot
  rw [slots]
  dsimp only
  split
  · split <;> rfl
  · rfl

theorem addSlotEntry_withPort (u : Bool) (m : SlotMsg) : addSlotEntry u i m (s.withPort y) = (addSlotEntry u i m s).withPort y := by
  have slots : (s.withPort y).slots = s.slots := rfl
  unfold addSlotEntry addEntry
  rw [slots]
  split
  · next p tag _ =>
    have can : canOvertake (s.withPort y) = canOvertake s := rfl
    rw [can]
    dsimp only
    split <;> rfl
  · rfl

theorem supersede_withPort (o : ClearOwed) : supersede i o (s.withPort y) = (supersede i o s).withPort y := by
  have queued : queuedEntry (s.withPort y) i = queuedEntry s i := rfl
  have sig : (s.withPort y).sig = s.sig := rfl
  have flight : flightSlot (s.withPort y) = flightSlot s := rfl
  unfold supersede
  rw [queued, sig, flight]
  split
  · split
    · exact freeSlot_withPort i (removeEntries i s) y
    · rfl
  · split
    · rfl
    · exact addSlotEntry_withPort i s y false o.msg

theorem releaseOwing_withPort (o : ClearOwed) : releaseOwing i o (s.withPort y) = (releaseOwing i o s).withPort y := by
  have slots : (s.withPort y).slots = s.slots := rfl
  unfold releaseOwing
  rw [slots]
  split
  · next c _ =>
    exact supersede_withPort i (stopReplyTimer i (setSlot i (.clearing c.line c.tag o.side (s.slots.at i).blockPending) s)) y o
  · rfl

theorem releaseLine_withPort (p : Port) (r : Reason) : releaseLine p r (s.withPort y) = (releaseLine p r s).withPort y := by
  have line : (s.withPort y).lines = s.lines := rfl
  have named : slotOfLine (s.withPort y) p = slotOfLine s p := rfl
  unfold releaseLine releaseLineLocally releaseLineOwing
  rw [line, named]
  split
  · split
    · exact freeSlot_withPort ..
    · rfl
  · split
    · exact releaseOwing_withPort ..
    · rfl
end

/-! ## A slot given up -/

/-- What the end of a slot's call may write. -/
def State.slotsAs (t s : State) : State :=
  { s with slots := t.slots, sig := t.sig, free := t.free, mark := t.mark, txq := t.txq, inFlight := t.inFlight }

section
variable (i : SlotId) (z s : State)

theorem slotsAs_self : s.slotsAs s = s := rfl

theorem freeSlot_rest : z.slotsAs (freeSlot i s) = z.slotsAs s := by
  by_cases h : (s.slots.at i).inUse = true
  · rw [freeSlot_eq h]
    rfl
  · unfold freeSlot
    rw [if_neg h]

theorem removeEntries_rest : z.slotsAs (removeEntries i s) = z.slotsAs s := rfl
theorem setTxq_rest (q : List Entry) : z.slotsAs (setTxq q s) = z.slotsAs s := rfl
theorem setSlot_rest (sl : Slot) : z.slotsAs (setSlot i sl s) = z.slotsAs s := rfl
theorem setSig_rest (g : Sig) : z.slotsAs (setSig i g s) = z.slotsAs s := rfl

theorem addSlotEntry_rest (u : Bool) (m : SlotMsg) : z.slotsAs (addSlotEntry u i m s) = z.slotsAs s := by
  obtain ⟨q, hq⟩ := addSlotEntry_txq u i m s
  rw [hq, setTxq_rest]

theorem supersede_rest (o : ClearOwed) : z.slotsAs (supersede i o s) = z.slotsAs s := by
  unfold supersede
  split
  · split
    · rw [freeSlot_rest, removeEntries_rest]
    · exact setTxq_rest ..
  · split
    · exact setSig_rest ..
    · exact addSlotEntry_rest ..

theorem releaseOwing_rest (o : ClearOwed) : z.slotsAs (releaseOwing i o s) = z.slotsAs s := by
  unfold releaseOwing stopReplyTimer
  split
  · rw [supersede_rest, setSig_rest, setSlot_rest]
  · rfl

theorem releaseOwing_frame (o : ClearOwed) : releaseOwing i o s = (releaseOwing i o s).slotsAs s :=
  (slotsAs_self _).symm.trans (releaseOwing_rest i _ s o)
end

theorem releaseLine_rest (p : Port) (r : Reason) (z s : State) : z.slotsAs (releaseLine p r s) = z.slotsAs s := by
  unfold releaseLine releaseLineLocally releaseLineOwing
  split
  · split
    · exact freeSlot_rest ..
    · rfl
  · split
    · exact releaseOwing_rest ..
    · rfl

theorem releaseLine_frame (p : Port) (r : Reason) (s : State) : releaseLine p r s = (releaseLine p r s).slotsAs s :=
  (slotsAs_self _).symm.trans (releaseLine_rest p r _ s)

/-- The slot given up is the only one whose records change, and the mark stands where it names another. -/
structure GivenUp (i : SlotId) (s t : State) : Prop where
  slots : OnlyAt i s.slots t.slots
  sig : OnlyAt i s.sig t.sig
  mark : s.mark ≠ some i → t.mark = s.mark

namespace GivenUp
variable {i : SlotId} {s t u : State}

theorem trans (h : GivenUp i s t) (h' : GivenUp i t u) : GivenUp i s u where
  slots j hj := (h'.slots j hj).trans (h.slots j hj)
  sig j hj := (h'.sig j hj).trans (h.sig j hj)
  mark hm := (h'.mark (by rw [h.mark hm]; exact hm)).trans (h.mark hm)

theorem of_same (h1 : t.slots = s.slots) (h2 : t.sig = s.sig) (h3 : t.mark = s.mark) : GivenUp i s t :=
  ⟨fun j _ => by rw [h1], fun j _ => by rw [h2], fun _ => h3⟩
end GivenUp

section
variable (i : SlotId) (s : State)

theorem freeSlot_givenUp : GivenUp i s (freeSlot i s) := by
  by_cases h : (s.slots.at i).inUse = true
  · rw [freeSlot_eq h]
    exact ⟨fun j hj => Table.at_put_other _ _ hj, fun j hj => Table.at_put_other _ _ hj, fun hm => if_neg hm⟩
  · unfold freeSlot
    rw [if_neg h]
    exact .of_same rfl rfl rfl

theorem setSlot_givenUp (sl : Slot) : GivenUp i s (setSlot i sl s) := ⟨fun _ hj => Table.at_put_other _ _ hj, fun _ _ => rfl, fun _ => rfl⟩
theorem setSig_givenUp (g : Sig) : GivenUp i s (setSig i g s) := ⟨fun _ _ => rfl, fun _ hj => Table.at_put_other _ _ hj, fun _ => rfl⟩

theorem supersede_givenUp (o : ClearOwed) : GivenUp i s (supersede i o s) := by
  unfold supersede
  split
  · split
    · exact (GivenUp.of_same (s := s) (t := removeEntries i s) rfl rfl rfl).trans (freeSlot_givenUp i _)
    · exact .of_same rfl rfl rfl
  · split
    · exact setSig_givenUp i s _
    · obtain ⟨q, hq⟩ := addSlotEntry_txq false i o.msg s
      rw [hq]
      exact .of_same rfl rfl rfl

theorem releaseOwing_givenUp (o : ClearOwed) : GivenUp i s (releaseOwing i o s) := by
  unfold releaseOwing stopReplyTimer
  split
  · exact ((setSlot_givenUp i s _).trans (setSig_givenUp i _ _)).trans (supersede_givenUp i _ o)
  · exact .of_same rfl rfl rfl
end

/-- A slot in a call that is given up, as a record update. -/
theorem releaseOwing_given (i : SlotId) (o : ClearOwed) {s : State} {c : Call} (hc : (s.slots.at i).call? = some c) (he : OneEntryEach s)
    (hm : s.mark ≠ some i) :
    ∃ slots sig free txq, releaseOwing i o s = { s with slots := slots, sig := sig, free := free, txq := txq }
      ∧ Superseded i c.line c.tag (s.slots.at i).blockPending o s { s with slots := slots, sig := sig, free := free, txq := txq }
      ∧ OnlyAt i s.slots slots ∧ OnlyAt i s.sig sig := by
  have given := releaseOwing_givenUp i s o
  have superseded := releaseOwing_superseded i o hc he
  have frame := releaseOwing_frame i s o
  have mark := given.mark hm
  have flight := superseded.2.1
  generalize releaseOwing i o s = t at *
  rw [State.slotsAs, mark, flight] at frame
  exact ⟨t.slots, t.sig, t.free, t.txq, frame, by rw [← frame]; exact superseded, given.slots, given.sig⟩

/-- A slot given up is no longer in a call. -/
theorem Superseded.call_eq_none {i : SlotId} {p : Port} {tag : Nat} {b : Bool} {o : ClearOwed} {s t : State} (h : Superseded i p tag b o s t) :
    (t.slots.at i).call? = none := by
  by_cases hu : UnsentSeize s i
  · rw [(h.2.2.1 hu).1]
    cases b <;> rfl
  · rw [(h.2.2.2 hu).1]
    rfl

theorem Superseded.joined_eq_none {i : SlotId} {p : Port} {tag : Nat} {b : Bool} {o : ClearOwed} {s t : State} (h : Superseded i p tag b o s t) :
    joined t i = none := by
  unfold joined
  by_cases hu : UnsentSeize s i
  · rw [(h.2.2.1 hu).1]
    cases b <;> rfl
  · rw [(h.2.2.2 hu).1]

theorem releaseLine_of_call {p : Port} {i : SlotId} {d : Direction} {r : Reason} {s : State} (hs : (s.lines.at p).state ≠ .holdover)
    (hc : (s.lines.at p).call = some (i, d)) : releaseLine p r s = releaseOwing i (.clear r) s := by
  have named : slotOfLine s p = some i := by unfold slotOfLine; rw [hc]; rfl
  unfold releaseLine releaseLineOwing
  rw [if_neg hs, named]

theorem releaseLine_of_none {p : Port} {r : Reason} {s : State} (hc : (s.lines.at p).call = none) : releaseLine p r s = s := by
  have named : slotOfLine s p = none := by unfold slotOfLine; rw [hc]; rfl
  unfold releaseLine releaseLineOwing releaseLineLocally
  rw [named]
  split <;> rfl

theorem releaseLine_of_holdover {p : Port} {i : SlotId} {d : Direction} {r : Reason} {s : State} (hs : (s.lines.at p).state = .holdover)
    (hc : (s.lines.at p).call = some (i, d)) : releaseLine p r s = freeSlot i s := by
  have named : slotOfLine s p = some i := by unfold slotOfLine; rw [hc]; rfl
  unfold releaseLine releaseLineLocally
  rw [if_pos hs, named]

/-! ## The end of an event that ends a call -/

theorem anyHeld_iff (s : State) : anyHeld s = true ↔ ∃ i, (s.slots.at i).isHeld = true := by
  unfold anyHeld
  simp [allSlots]

/-- Where the slot that leaves its call was not HELD, the holdover timer has its cause still. -/
theorem EventsFinished.of_givenUp {i : SlotId} {s t : State} (h : OnlyAt i s.slots t.slots) (hi : (s.slots.at i).isHeld = false)
    (hh : t.holdover = s.holdover) (hm : t.mode = s.mode) (hp : s.mode ≠ .configPending) (he : EventsFinished s) : EventsFinished t := by
  refine ⟨?_, fun hc => absurd (hm ▸ hc) hp⟩
  rw [hh]
  refine he.1.imp_right fun held => ?_
  obtain ⟨j, hj⟩ := (anyHeld_iff s).mp held
  have other : j ≠ i := by
    rintro rfl
    rw [hi] at hj
    exact nomatch hj
  exact (anyHeld_iff t).mpr ⟨j, by rw [h j other]; exact hj⟩

end Sys2Proof.Machine
end

