-- ==== Sys2Proof/Proofs/Groups.lean ====
section
/-! PROOF. A scan group that falls asleep or wakes: its runs cleared, its record and its report. -/

namespace Sys2Proof.Machine

/-! ## The runs of a group cleared (R45, R50) -/

theorem runsCleared_twice (c : Scanner) : c.runsCleared.runsCleared = c.runsCleared := rfl

/-- Ports whose runs are cleared one by one. -/
theorem runs_clearedIn (ps : List Port) (s : State) (q : Port) :
    (inTurn ps (fun p t => setScan p (t.scan.at p).runsCleared t) s).scan.at q
      = if q ∈ ps then (s.scan.at q).runsCleared else s.scan.at q := by
  induction ps generalizing s with
  | nil => rfl
  | cons p ps ih =>
    have first : (setScan p (s.scan.at p).runsCleared s).scan.at q = if q = p then (s.scan.at q).runsCleared else s.scan.at q := by
      rw [setScan_scan, Table.at_put]
      split
      · next h => rw [h]
      · rfl
    refine (ih _).trans ?_
    rw [first]
    by_cases hp : q = p <;> by_cases hm : q ∈ ps <;> simp [hp, hm, runsCleared_twice]

theorem clearRuns_scan (g : GroupId) (s : State) (q : Port) :
    (clearRuns g s).scan.at q = if q ∈ portsOf g then (s.scan.at q).runsCleared else s.scan.at q :=
  runs_clearedIn (portsOf g) s q

theorem clearRuns_frame (g : GroupId) (s : State) : clearRuns g s = { s with scan := (clearRuns g s).scan } := by
  suffices frame : ∀ (ps : List Port) (t : State), ({ inTurn ps (fun p t => setScan p (t.scan.at p).runsCleared t) t with
      scan := s.scan } : State) = { t with scan := s.scan } from
    (congrArg (fun t : State => { t with scan := (clearRuns g s).scan }) (frame (portsOf g) s) :)
  intro ps
  induction ps with
  | nil => exact fun _ => rfl
  | cons p ps ih => exact fun t => ih _

theorem clearRuns_withPort (g : GroupId) (s : State) (y : PortSide) : clearRuns g (s.withPort y) = (clearRuns g s).withPort y := by
  have scan : (clearRuns g (s.withPort y)).scan = (clearRuns g s).scan := Table.ext_at fun q => by
    rw [clearRuns_scan, clearRuns_scan]
    rfl
  rw [clearRuns_frame, scan, clearRuns_frame g s]
  rfl

theorem runsCleared_clearRuns (g : GroupId) (s : State) : RunsCleared g s (clearRuns g s) :=
  ⟨fun q hq => by rw [clearRuns_scan, if_pos hq]; rfl, fun q hq => by rw [clearRuns_scan, if_neg hq]⟩

theorem RunsCleared.of_scan {g : GroupId} {s t : State} (h : t.scan = (clearRuns g s).scan) : RunsCleared g s t := by
  unfold RunsCleared
  rw [h]
  exact runsCleared_clearRuns g s

theorem mem_portsOf (p : Port) (g : GroupId) : p ∈ portsOf g ↔ groupOf p = g := by
  unfold portsOf groupOf
  constructor
  · intro h
    obtain ⟨k, -, rfl⟩ := List.mem_map.mp h
    ext
    simp only
    omega
  · rintro rfl
    refine List.mem_map.mpr ⟨⟨p.val % 8, Nat.mod_lt _ (by decide)⟩, List.mem_finRange _, ?_⟩
    ext
    simp only
    omega

/-! ## A group asleep, a group waking -/

/-- The part after a group falls asleep, its report apart. -/
def asleep (g : GroupId) (s : State) : State :=
  setGroup g { s.groups.at g with state := .standby, settle := none, slow := some 200 } (clearRuns g s)

/-- The part after a group begins to wake, its report apart. -/
def waking (g : GroupId) (s : State) : State :=
  setGroup g { s.groups.at g with state := .waking, settle := some 300, slow := none } (clearRuns g s)

section
variable (g : GroupId) (s : State)

theorem asleep_eq : asleep g s = { s with
    scan := (clearRuns g s).scan
    groups := s.groups.put g { s.groups.at g with state := .standby, settle := none, slow := some 200 } } := by
  unfold asleep
  rw [clearRuns_frame]
  rfl

theorem waking_eq : waking g s = { s with
    scan := (clearRuns g s).scan
    groups := s.groups.put g { s.groups.at g with state := .waking, settle := some 300, slow := none } } := by
  unfold waking
  rw [clearRuns_frame]
  rfl

theorem asleep_withPort (y : PortSide) : asleep g (s.withPort y) = (asleep g s).withPort y := by
  unfold asleep
  rw [clearRuns_withPort]
  rfl

theorem waking_withPort (y : PortSide) : waking g (s.withPort y) = (waking g s).withPort y := by
  unfold waking
  rw [clearRuns_withPort]
  rfl
end

namespace Comes
variable {s u t : State} {rs : List Report} {n : Nat}

theorem sleeps (h : Comes s rs u t) (g : GroupId) (c : GroupCause) (hr : Room n s) (hn : rs.length < n) :
    Comes s (rs ++ [.groupEvent g .standby c]) (asleep g u) (enterStandby g c t) :=
  (h.map (asleep g) fun x y => asleep_withPort g x y).report _ hr hn

theorem wakes (h : Comes s rs u t) (g : GroupId) (c : GroupCause) (hr : Room n s) (hn : rs.length < n) :
    Comes s (rs ++ [.groupEvent g .waking c]) (waking g u) (enterWaking g c t) :=
  (h.map (waking g) fun x y => waking_withPort g x y).report _ hr hn

/-- A group waiting to sleep does, once its lines are IDLE. -/
theorem groupSleeps (h : Comes s rs u t) (g : GroupId) (hg : (u.groups.at g).state = .standbyPending) (hr : Room n s) (hn : rs.length < n) :
    if groupQuiet u g = true then Comes s (rs ++ [.groupEvent g .standby .linesIdle]) (asleep g u) (Machine.groupIdle g t)
    else Comes s rs u (Machine.groupIdle g t) := by
  have groups : t.groups = u.groups := (congrArg State.groups h.port :)
  have quiet : groupQuiet t g = groupQuiet u g := (congrArg (fun x => groupQuiet x g) h.port :)
  unfold Machine.groupIdle
  rw [groups, quiet]
  by_cases hq : groupQuiet u g = true
  · rw [if_pos hq, if_pos ⟨hg, hq⟩]
    exact h.sleeps g .linesIdle hr hn
  · rw [if_neg hq, if_neg fun x => hq x.2]
    exact h

end Comes

end Sys2Proof.Machine
end

