-- ==== Sys2Proof/Proofs/OnHook.lean ====
section
/-! PROOF. The end of a call from the line's side (O18): an event followed through from its command to its end. -/

namespace Sys2Proof.Machine

/-! ## An event from its command to its end -/

/-- The end of an event that took `s` to `u`, whatever their sending sides, finds nothing to do. -/
def Settles (s u : State) : Prop := ∀ y z : PortSide, finish (s.withPort y) (u.withPort z) = u.withPort z

namespace Settles
variable {s u : State}

theorem of_nobody (hc : u.cells = s.cells) (hp : u.posture = s.posture) (hq : u.waitQueue = []) (he : EventsFinished u) : Settles s u :=
  fun _ _ => finish_of_nobody (roomGained_of_same hc hp) hq he

theorem of_empty (hq : u.waitQueue = []) (hr : u.ringQueue = []) (he : EventsFinished u) : Settles s u :=
  fun _ _ => finish_of_empty hq hr he

theorem of_quiet (hc : u.cells = s.cells) (hp : u.posture = s.posture) (ha : attemptCaused s u = false) (he : EventsFinished u) : Settles s u :=
  fun _ _ => finish_eq_self (roomGained_of_same hc hp) ha he

/-- What the end of an event looks at. -/
structure EndSide where
  waitQueue : List Port
  free : List SlotId
  slots : Table 20 Slot
  mark : Option SlotId
  link : LinkState
  posture : Posture
  mode : Mode
  cells : Table 6 (List Placed)
  holdover : Option Nat

/-- What the end of an event looks at in a part. -/
def endSide (s : State) : EndSide := ⟨s.waitQueue, s.free, s.slots, s.mark, s.link, s.posture, s.mode, s.cells, s.holdover⟩

/-- An event that leaves all of it ends as it stands. -/
theorem of_same (h : endSide u = endSide s) (he : EventsFinished s) : Settles s u := by
  simp only [endSide, EndSide.mk.injEq] at h
  obtain ⟨wait, free, slots, mark, link, posture, mode, cells, holdover⟩ := h
  exact of_quiet cells posture (attemptCaused_of_same wait free (activeCount_of_slots slots) link posture mode mark)
    (he.of_same slots holdover mode)

end Settles

/-- A command whose event comes to `u` answers with `u`, where the event's end finds nothing to do. -/
theorem Answers.of_event {c : Instr} {s u v : State} {f : State → State} {rs : List Report} {P : State → Prop} (hrun : Running s)
    (hx : exec c s = .next (act f s)) (hf : f (serve s) = v) (h : Comes s rs u v) (hs : Settles s u)
    (hp : ∀ y, Made s (u.withPort y) rs → P (u.withPort y)) : Answers c s P := by
  have ends : act f s = v := by
    rw [act_running hrun, hf, h.eq, eq_withPort (serve_port s)]
    exact hs _ _
  exact .of_comes (hx.trans (congrArg Host.Outcome.next ends)) h fun y made _ => hp y made

/-! ## On-hook -/

theorem onHookSample_withPort (p : Port) (run : Nat) (s : State) (y : PortSide) :
    onHookSample p run (s.withPort y) = (onHookSample p run s).withPort y := rfl

theorem of_served {β : Type} (g : State → β) (hg : ∀ (s : State) (y : PortSide), g (s.withPort y) = g s) (s : State) : g (serve s) = g s := by
  rw [eq_withPort (serve_port s), hg]

theorem onHook_taken {p : Port} {s : State} (ha : awaitsOnHook s p = true) (hh : hookSampled s p = true) :
    (if awaitsOnHook (serve s) p && hookSampled (serve s) p then
      takeOnHook p (onHookSample p (wholeSamples (serve s).params.debounce) (serve s)) else serve s)
      = takeOnHook p (onHookSample p (wholeSamples s.params.debounce) (serve s)) := by
  rw [of_served (fun x => awaitsOnHook x p) (fun _ _ => rfl), hookSampled_serve, serve_params, ha, hh]
  rfl

theorem decodingOnHook_taken {p : Port} {s : State} (hd : decodes s p = true) (hh : hookSampled s p = true) :
    (if decodes (serve s) p && hookSampled (serve s) p then
      takeOnHook p (onHookSample p ((serve s).params.flashMax / 2 * 2 + 2) (serve s)) else serve s)
      = takeOnHook p (onHookSample p (s.params.flashMax / 2 * 2 + 2) (serve s)) := by
  rw [decodes_serve, hookSampled_serve, serve_params, hd, hh]
  rfl

theorem hookSampled_of_active {s : State} {p : Port} (h : groupState s p = .active) : hookSampled s p = true := by
  unfold hookSampled
  rw [h]
  rfl

theorem hookSampled_of_pending {s : State} {p : Port} (h : groupState s p = .standbyPending) : hookSampled s p = true := by
  unfold hookSampled
  rw [h]
  rfl

theorem awaitsOnHook_of_parked {s : State} {p : Port} (hl : hasLine s p = true) (h : (s.lines.at p).state = .parked) :
    awaitsOnHook s p = true := by
  unfold awaitsOnHook
  rw [hl, h]
  rfl

theorem endReports_of_unclaimed {s : State} {p : Port} (h : s.bus ≠ .claimed p) (st : LineState) (r : Reason) :
    endReports s p st r = [.callEvent p st (.because r)] := if_neg h

theorem endReports_length (s : State) (p : Port) (st : LineState) (r : Reason) : (endReports s p st r).length ≤ 2 := by
  unfold endReports
  split <;> simp

theorem lineEnded_of_unclaimed {s : State} {p : Port} (h : s.bus ≠ .claimed p) (st : LineState) :
    lineEnded s p st = { Line.unequipped with state := st, faultPresent := (s.lines.at p).faultPresent } := by
  unfold lineEnded
  rw [if_neg h]

theorem busEnded_of_unclaimed {s : State} {p : Port} (h : s.bus ≠ .claimed p) : busEnded s p = s.bus := if_neg h

/-- The end of a line's call: its slot is given up, and it goes to a bare state, or to TEST. -/
theorem Comes.endLine {s u t : State} {rs : List Report} {n : Nat} (h : Comes s rs u t) (p : Port) {st : LineState} (r : Reason)
    (hst : st.endsCall = true) (hg : st = .idle → (u.groups.at (groupOf p)).state ≠ .standbyPending) (hr : Room n s)
    (hn : rs.length + (endReports u p st r).length ≤ n) :
    Comes s (rs ++ endReports u p st r) (lineEnds p st (releaseLine p r u)) (endLine p st r t) := by
  have frame := releaseLine_frame p r u
  have groups : (releaseLine p r u).groups = u.groups := (congrArg State.groups frame :)
  have reports : endReports (releaseLine p r u) p st r = endReports u p st r := (congrArg (fun x => endReports x p st r) frame :)
  have ends := (h.map (releaseLine p r) fun x y => releaseLine_withPort x y p r).enterBare p r hst (fun hi => by rw [groups]; exact hg hi) hr
    (by rw [reports]; exact hn)
  rw [reports] at ends
  exact ends

/-- A line in a call ends it, its slot given up with a CLEAR owed. -/
theorem Comes.endCall {s u t : State} {rs : List Report} {n : Nat} (h : Comes s rs u t) (p : Port) {i : SlotId} {d : Direction} {c : Call}
    {st : LineState} (r : Reason) (hst : st.endsCall = true) (hg : st = .idle → (u.groups.at (groupOf p)).state ≠ .standbyPending)
    (hheld : (u.lines.at p).state ≠ .holdover) (hcall : (u.lines.at p).call = some (i, d)) (hslot : (u.slots.at i).call? = some c)
    (hone : OneEntryEach u) (hmark : u.mark ≠ some i) (hr : Room n s) (hn : rs.length + 2 ≤ n) :
    ∃ slots sig free txq, Comes s (rs ++ endReports u p st r)
        (lineEnds p st { u with slots := slots, sig := sig, free := free, txq := txq }) (Machine.endLine p st r t)
      ∧ Superseded i c.line c.tag (u.slots.at i).blockPending (.clear r) u { u with slots := slots, sig := sig, free := free, txq := txq }
      ∧ OnlyAt i u.slots slots ∧ OnlyAt i u.sig sig := by
  obtain ⟨slots, sig, free, txq, given, superseded, only, onlySig⟩ := releaseOwing_given i (.clear r) hslot hone hmark
  have ends := h.endLine p r hst hg hr ((Nat.add_le_add_left (endReports_length u p st r) _).trans hn)
  rw [releaseLine_of_call hheld hcall, given] at ends
  exact ⟨slots, sig, free, txq, ends, superseded, only, onlySig⟩

/-- A line that is neither QUEUED nor called leaves no queue and no cell by its end. -/
theorem lineEnds_of_bare {s : State} {p : Port} {old st : LineState} (hst : (s.lines.at p).state = old) (hc : old.called = false)
    (hq : old ≠ .queued) (hbus : s.bus ≠ .claimed p) (h : st.endsCall = true) : lineEnds p st s = { s with
      lines := s.lines.put p { Line.unequipped with state := st, faultPresent := (s.lines.at p).faultPresent }
      scan := s.scan.put p ((s.scan.at p).lineMoved (s.ports.at p) old st)
      buffers := s.buffers.put p DigitBuffer.empty } := by
  rw [lineEnds_eq p s h, lineEnded_of_unclaimed hbus, busEnded_of_unclaimed hbus, hst, hc, if_neg hq]
  rfl

/-- A line that is not called and waits in no queue leaves neither by its end. -/
theorem lineEnds_of_uncalled {s : State} {p : Port} {st : LineState} (hc : (s.lines.at p).state.called = false) (hq : s.waitQueue = [])
    (h : st.endsCall = true) : lineEnds p st s = { s with
      lines := s.lines.put p (lineEnded s p st)
      scan := s.scan.put p ((s.scan.at p).lineMoved (s.ports.at p) (s.lines.at p).state (lineEnded s p st).state)
      buffers := s.buffers.put p DigitBuffer.empty, bus := busEnded s p } := by
  have stays : (if (s.lines.at p).state = .queued then s.waitQueue.erase p else s.waitQueue) = s.waitQueue := by
    rw [hq]
    split <;> rfl
  rw [lineEnds_eq p s h, hc, stays]
  rfl

theorem called_of_decodes {s : State} {p : Port} (h : decodes s p = true) :
    (s.lines.at p).state.called = false ∧ (s.lines.at p).state ≠ .holdover := by
  unfold decodes decodesIn at h
  cases hst : (s.lines.at p).state <;> rw [hst] at h <;> simp_all [LineState.offHookCall, LineState.called]

/-- A line goes IDLE in a group that waits to sleep: the group does, where every line of it is IDLE now. -/
theorem Comes.enterIdle {s u t : State} {rs : List Report} {n : Nat} (h : Comes s rs u t) (p : Port) (r : Reason) (hb : u.bus ≠ .claimed p)
    (hg : (u.groups.at (groupOf p)).state = .standbyPending) (hr : Room n s) (hn : rs.length + 2 ≤ n) :
    if groupQuiet (lineEnds p .idle u) (groupOf p) = true then
      Comes s (rs ++ [.callEvent p .idle (.because r), .groupEvent (groupOf p) .standby .linesIdle]) (asleep (groupOf p) (lineEnds p .idle u))
        (Machine.enterBare p .idle r t)
    else Comes s (rs ++ [.callEvent p .idle (.because r)]) (lineEnds p .idle u) (Machine.enterBare p .idle r t) := by
  have bus : t.bus = u.bus := (congrArg State.bus h.port :)
  have ends : lineEnds p .idle u = moveLine p .idle none none u := if_neg hb
  have moved := (h.map (moveLine p .idle none none) fun x y => moveLine_withPort p .idle none none x y).callEvent p .idle r hr (by omega)
  have sleeps := moved.groupSleeps (groupOf p) (by rw [moveLine_groups]; exact hg) hr
    (by rw [List.length_append, List.length_singleton]; omega)
  rw [List.append_assoc] at sleeps
  unfold Machine.enterBare Machine.enterLine
  rw [bus, if_neg (c := LineState.idle.endsCall = true ∧ u.bus = .claimed p) fun x => hb x.2, ends]
  dsimp only
  rw [if_pos (c := LineState.idle = .idle) rfl]
  exact sleeps

theorem groupQuiet_iff (s : State) (g : GroupId) :
    groupQuiet s g = true ↔ ∀ q ∈ portsOf g, hasLine s q = true → (s.lines.at q).state = .idle := by
  unfold groupQuiet keepsAwake
  rw [List.all_eq_true]
  refine forall₂_congr fun q _ => ?_
  cases hasLine s q <;> simp

/-- Settles O18, by what the line was in: a PARKED line, a line in a call, a PARKED line of a group that waits to sleep. -/
theorem onHooksEndCalls : Obligations.OnHooksEndCalls := by
  refine ⟨fun p s hrun hline hact hst hcall hbus he hroom => ?_, fun p i c d s hrun hdec hact hcall hslot hp hheld hmark hone hwait hmode he hroom => ?_,
    fun p s hrun hline hpend hst hcall hbus he hroom => ?_⟩
  · have sampled := (Comes.served s).map (onHookSample p (wholeSamples s.params.debounce)) fun _ _ => rfl
    have none : releaseLine p .normal (onHookSample p (wholeSamples s.params.debounce) s)
        = onHookSample p (wholeSamples s.params.debounce) s := releaseLine_of_none hcall
    have free : (onHookSample p (wholeSamples s.params.debounce) s).bus ≠ .claimed p := hbus
    have awake : (s.groups.at (groupOf p)).state ≠ .standbyPending := by
      show groupState s p ≠ _
      rw [hact]
      decide
    have told := sampled.endLine p (st := .idle) .normal rfl (fun _ => awake) hroom (by rw [endReports_of_unclaimed free]; simp)
    rw [none, lineEnds_of_bare (s := onHookSample p (wholeSamples s.params.debounce) s) hst rfl (by decide) free rfl, endReports_of_unclaimed free] at told
    refine .of_event hrun rfl (onHook_taken (awaitsOnHook_of_parked hline hst) (hookSampled_of_active hact)) told (.of_same rfl he) fun y made => ⟨?_, ?_, ?_, made, ?_, ?_, ?_, ?_, rfl⟩
    · simp [State.withPort, onHookSample]
    · simp [State.withPort, onHookSample, Scanner.lineMoved_hook, LineState.suspended]
    · simp [State.withPort, onHookSample]
    · exact fun q hq => by simp [State.withPort, onHookSample, hq]
    · exact fun q hq => by simp [State.withPort, onHookSample, hq]
    · exact fun q hq => by simp [State.withPort, onHookSample, hq]
    · exact fun q hq => by simp [State.withPort, onHookSample, hq]
  · obtain ⟨notCalled, notHeld⟩ := called_of_decodes hdec
    have sampled := (Comes.served s).map (onHookSample p (s.params.flashMax / 2 * 2 + 2)) fun _ _ => rfl
    have awake : (s.groups.at (groupOf p)).state ≠ .standbyPending := by
      show groupState s p ≠ _
      rw [hact]
      decide
    obtain ⟨slots, sig, free, txq, told, superseded, only, onlySig⟩ := sampled.endCall p (st := .idle) .normal rfl (fun _ => awake) notHeld
      hcall hslot hone hmark hroom (Nat.le_refl 2)
    rw [lineEnds_of_uncalled (s := { onHookSample p (s.params.flashMax / 2 * 2 + 2) s with slots := slots, sig := sig, free := free, txq := txq })
      notCalled hwait rfl] at told
    subst hp
    refine .of_event hrun rfl (decodingOnHook_taken hdec (hookSampled_of_active hact)) told (.of_nobody rfl rfl hwait (he.of_givenUp only hheld rfl rfl hmode)) fun y made =>
      ⟨?_, rfl, superseded, superseded.joined_eq_none, ?_, ?_, made, ?_, ?_, ?_, ?_, only, onlySig, rfl⟩
    · simp [State.withPort, onHookSample, lineEnded]
      rfl
    · simp [State.withPort, onHookSample, Scanner.lineMoved_hook]
    · simp [State.withPort, onHookSample]
    · exact fun q hq => by simp [State.withPort, onHookSample, hq]
    · exact fun q hq => by simp [State.withPort, onHookSample, hq]
    · exact fun q hq => by simp [State.withPort, onHookSample, hq]
    · exact fun q hq => by simp [State.withPort, onHookSample, hq]
  · have sampled := (Comes.served s).map (onHookSample p (wholeSamples s.params.debounce)) fun _ _ => rfl
    have free : (onHookSample p (wholeSamples s.params.debounce) s).bus ≠ .claimed p := hbus
    have none : releaseLine p .normal (onHookSample p (wholeSamples s.params.debounce) (serve s))
        = onHookSample p (wholeSamples s.params.debounce) (serve s) := releaseLine_of_none (by
      rw [show (onHookSample p (wholeSamples s.params.debounce) (serve s)).lines = s.lines from (congrArg State.lines sampled.port :)]
      exact hcall)
    have told := sampled.enterIdle p .normal free hpend hroom (Nat.le_refl 2)
    have taken : takeOnHook p (onHookSample p (wholeSamples s.params.debounce) (serve s))
        = enterBare p .idle .normal (onHookSample p (wholeSamples s.params.debounce) (serve s)) := by
      unfold takeOnHook endLine
      rw [none]
    have hf := (onHook_taken (awaitsOnHook_of_parked hline hst) (hookSampled_of_pending hpend)).trans taken
    have ended := lineEnds_of_bare (s := onHookSample p (wholeSamples s.params.debounce) s) (st := .idle) hst rfl (by decide) free rfl
    have quiet : groupQuiet (lineEnds p .idle (onHookSample p (wholeSamples s.params.debounce) s)) (groupOf p) = true
        ↔ ∀ q ∈ portsOf (groupOf p), q ≠ p → hasLine s q = true → (s.lines.at q).state = .idle := by
      rw [groupQuiet_iff, ended]
      refine forall₂_congr fun q _ => ?_
      by_cases hq : q = p
      · simp [hq]
      · simp [hq, onHookSample]
        rfl
    have hook : ((lineEnds p .idle (onHookSample p (wholeSamples s.params.debounce) s)).scan.at p).hook = .onHook := by
      rw [ended]
      simp [onHookSample, Scanner.lineMoved_hook]
    have mine : p ∈ portsOf (groupOf p) := (mem_portsOf p _).mpr rfl
    by_cases hq : ∀ q ∈ portsOf (groupOf p), q ≠ p → hasLine s q = true → (s.lines.at q).state = .idle
    · rw [if_pos (quiet.mpr hq), asleep_eq] at told
      obtain ⟨inside, outside⟩ := runsCleared_clearRuns (groupOf p) (lineEnds p .idle (onHookSample p (wholeSamples s.params.debounce) s))
      have hookKept : ((clearRuns (groupOf p) (lineEnds p .idle (onHookSample p (wholeSamples s.params.debounce) s))).scan.at p).hook = .onHook := by
        rw [inside p mine]
        exact hook
      generalize (clearRuns (groupOf p) (lineEnds p .idle (onHookSample p (wholeSamples s.params.debounce) s))).scan = scan at *
      rw [ended] at told outside
      refine .of_event hrun rfl hf told (.of_same rfl he) fun y made => ⟨?_, hookKept, ?_, ?_, ?_, rfl⟩
      · simp [State.withPort, onHookSample]
      · exact fun q hq => by simp [State.withPort, onHookSample, hq]
      · exact fun g hg => Table.at_put_other _ _ hg
      · rw [if_pos hq]
        refine ⟨Table.at_put_same _ _ _, fun q hq => ?_, fun q hq => ?_, made⟩
        · show (scan.at q).openRun = 0 ∧ (scan.at q).closedRun = 0 ∧ (scan.at q).faultRun = 0
          rw [inside q hq]
          exact ⟨rfl, rfl, rfl⟩
        · have other : q ≠ p := fun h => hq (h ▸ mine)
          exact (outside q hq).trans (by simp [onHookSample, other])
    · rw [if_neg fun x => hq (quiet.mp x)] at told
      rw [ended] at told hook
      refine .of_event hrun rfl hf told (.of_same rfl he) fun y made => ⟨?_, hook, ?_, fun _ _ => rfl, ?_, rfl⟩
      · simp [State.withPort, onHookSample]
      · exact fun q hq => by simp [State.withPort, onHookSample, hq]
      · rw [if_neg hq]
        exact ⟨rfl, fun q hq => by simp [State.withPort, onHookSample, hq], made⟩

end Sys2Proof.Machine
end

