-- ==== Sys2Proof/Proofs/FaultSense.lean ====
section
/-! PROOF. A fault and its end on a line in each of its situations (O22). -/

namespace Sys2Proof.Machine

theorem fault_taken {p : Port} {s : State} (hl : hasLine s p = true) (hf : (s.scan.at p).fault = false) :
    (if hasLine (serve s) p && !((serve s).scan.at p).fault then takeFault p (wakeForFault p (serve s)) else serve s)
      = takeFault p (wakeForFault p (serve s)) := by
  rw [of_served (fun x => hasLine x p) (fun _ _ => rfl), serve_scan, hl, hf]
  rfl

theorem faultClear_taken {p : Port} {s : State} (hl : hasLine s p = true) (hf : (s.scan.at p).fault = true)
    (hg : groupState s p ≠ .standby) :
    (if hasLine (serve s) p && ((serve s).scan.at p).fault && decide (groupState (serve s) p ≠ .standby) then takeFaultClear p (serve s)
      else serve s) = takeFaultClear p (serve s) := by
  rw [of_served (fun x => hasLine x p) (fun _ _ => rfl), serve_scan, of_served (fun x => groupState x p) (fun _ _ => rfl), hl, hf,
    decide_eq_true hg]
  rfl

/-- A line that is in a call, or in none, leaves the ringing alone by its end where it was called, and the wait queue is empty. -/
theorem lineEnds_of_call {s : State} {p : Port} {st : LineState} (hq : s.waitQueue = []) (h : st.endsCall = true) :
    lineEnds p st s = { s with
      lines := s.lines.put p (lineEnded s p st)
      scan := s.scan.put p ((s.scan.at p).lineMoved (s.ports.at p) (s.lines.at p).state (lineEnded s p st).state)
      buffers := s.buffers.put p DigitBuffer.empty
      cells := if (s.lines.at p).state.called = true then (leaveRing p s).cells else s.cells
      ringQueue := if (s.lines.at p).state.called = true then s.ringQueue.erase p else s.ringQueue
      ringDrive := if (s.lines.at p).state.called = true then s.ringDrive.put p false else s.ringDrive
      bus := busEnded s p } := by
  have stays : (if (s.lines.at p).state = .queued then s.waitQueue.erase p else s.waitQueue) = s.waitQueue := by
    rw [hq]
    split <;> rfl
  rw [lineEnds_eq p s h, stays]

/-- The part after a fault is accepted on a line and its alarm is raised, ahead of the line's change. -/
def faulted (p : Port) (s : State) : State := acceptFault p true (setAlarms (s.alarms ++ [{ id := .lineFault p, present := true }]) s)

theorem faulted_eq (p : Port) (s : State) : faulted p s = { s with
    lines := s.lines.put p { s.lines.at p with faultPresent := true }, faultPin := s.faultPin.put p true
    scan := s.scan.put p { s.scan.at p with fault := true, faultRun := 0 }
    alarms := s.alarms ++ [{ id := .lineFault p, present := true }] } := rfl

theorem faulted_line (p : Port) (s : State) : (faulted p s).lines.at p = { s.lines.at p with faultPresent := true } := Table.at_put_same ..

theorem accepted_eq (p : Port) (s : State) : acceptFault p false (markAlarm (.lineFault p) false s) = { s with
    lines := s.lines.put p { s.lines.at p with faultPresent := false }, faultPin := s.faultPin.put p false
    scan := s.scan.put p { s.scan.at p with fault := false, faultRun := 0 }
    alarms := s.alarms.map fun e => if e.id = .lineFault p then { e with present := false } else e } := rfl

theorem accepted_line (p : Port) (s : State) :
    (acceptFault p false (markAlarm (.lineFault p) false s)).lines.at p = { s.lines.at p with faultPresent := false } := Table.at_put_same ..

theorem serve_line (s : State) (p : Port) : (serve s).lines.at p = s.lines.at p := of_served (fun x => x.lines.at p) (fun _ _ => rfl) s

namespace Comes
variable {s u t : State} {rs : List Report} {n : Nat}

theorem wakesForFault (h : Comes s rs u t) (p : Port) (hg : groupState u p = .standby) (hr : Room n s) (hn : rs.length < n) :
    Comes s (rs ++ [.groupEvent (groupOf p) .waking .fault]) (waking (groupOf p) u) (wakeForFault p t) := by
  have group : groupState t p = groupState u p := (congrArg (fun x => groupState x p) h.port :)
  unfold wakeForFault
  rw [group, if_pos hg]
  exact h.wakes _ _ hr hn

theorem awakeForFault (h : Comes s rs u t) (p : Port) (hg : groupState u p ≠ .standby) : Comes s rs u (wakeForFault p t) := by
  have group : groupState t p = groupState u p := (congrArg (fun x => groupState x p) h.port :)
  unfold wakeForFault
  rw [group, if_neg hg]
  exact h

theorem faulted (h : Comes s rs u t) (p : Port) (ha : alarmEntry u (.lineFault p) = none) (hr : Room n s) (hn : rs.length < n) :
    Comes s (rs ++ [.alarmEvent (.lineFault p) .raised]) (faulted p u) (acceptFault p true (beginCondition (.lineFault p) t)) := by
  have begins := h.begins (.lineFault p) hr hn
  rw [begun_of_none ha, conditionBegun_of_none ha] at begins
  exact begins.map (acceptFault p true) fun _ _ => rfl

/-- A fault on a line whose sense is not suspended ends what the line is in. -/
theorem takeFault (h : Comes s rs u t) (p : Port) (ha : alarmEntry u (.lineFault p) = none) (hs : (u.lines.at p).state.suspended = false)
    (hr : Room n s) (hn : rs.length + (endReports u p .fault .lineFault).length < n) :
    Comes s (rs ++ .alarmEvent (.lineFault p) .raised :: endReports u p .fault .lineFault)
      (lineEnds p .fault (releaseLine p .lineFault (Machine.faulted p u))) (takeFault p t) := by
  have accepted := h.faulted p ha hr (by omega)
  have line : ((acceptFault p true (beginCondition (.lineFault p) t)).lines.at p).state = (u.lines.at p).state := by
    have lines : (acceptFault p true (beginCondition (.lineFault p) t)).lines = (Machine.faulted p u).lines := (congrArg State.lines accepted.port :)
    rw [lines, faulted_line]
  have ends := accepted.endLine p (st := .fault) .lineFault rfl (fun h => nomatch h) hr (by
    have reports : endReports (Machine.faulted p u) p .fault .lineFault = endReports u p .fault .lineFault := rfl
    rw [reports, List.length_append, List.length_singleton]
    omega)
  rw [List.append_assoc] at ends
  unfold Machine.takeFault faultLine
  rw [line, hs]
  exact ends

/-- A fault on a line in TEST or FAULT leaves the line where it is. -/
theorem takeFault_suspended (h : Comes s rs u t) (p : Port) (ha : alarmEntry u (.lineFault p) = none)
    (hs : (u.lines.at p).state.suspended = true) (hr : Room n s) (hn : rs.length < n) :
    Comes s (rs ++ [.alarmEvent (.lineFault p) .raised]) (Machine.faulted p u) (Machine.takeFault p t) := by
  have accepted := h.faulted p ha hr hn
  have line : ((acceptFault p true (beginCondition (.lineFault p) t)).lines.at p).state = (u.lines.at p).state := by
    have lines : (acceptFault p true (beginCondition (.lineFault p) t)).lines = (Machine.faulted p u).lines := (congrArg State.lines accepted.port :)
    rw [lines, faulted_line]
  unfold Machine.takeFault faultLine
  rw [line, hs]
  exact accepted

/-- A fault's end: its alarm's condition ends, and a FAULT line goes IDLE. -/
theorem faultEnds (h : Comes s rs u t) (p : Port) (ha : alarmEntry u (.lineFault p) = some ⟨.lineFault p, true⟩) (hr : Room n s)
    (hn : rs.length < n) : Comes s (rs ++ [.alarmEvent (.lineFault p) .conditionEnded]) (acceptFault p false (markAlarm (.lineFault p) false u))
      (acceptFault p false (endCondition (.lineFault p) t)) := by
  have ends := h.ends (.lineFault p) hr hn
  rw [ended_of_some ha rfl, conditionEnded_of_some ha rfl] at ends
  exact ends.map (acceptFault p false) fun _ _ => rfl

end Comes

theorem not_standby_of_sampled {s : State} {p : Port} (h : hookSampled s p = true) : groupState s p ≠ .standby := by
  intro hg
  unfold hookSampled at h
  rw [hg] at h
  exact nomatch h

/-- A line that has left the ringing stands in no cell. -/
theorem not_placed_of_left {s t : State} {p : Port} (h : t.cells = (leaveRing p s).cells) : isPlaced t p = false := by
  have placed : isPlaced t p = isPlaced (leaveRing p s) p := by
    unfold isPlaced allPlaced
    rw [h]
  rw [placed, Bool.eq_false_iff, ne_eq, isPlaced_iff, ← allPlaced_ports]
  intro hp
  obtain ⟨e, he, hep⟩ := List.mem_map.mp hp
  obtain ⟨k, -, hk⟩ := List.mem_flatMap.mp he
  have kept : e ∈ Table.at (s.cells.map fun c => c.filter fun e => decide (e.port ≠ p)) k := hk
  rw [at_map] at kept
  simp [hep] at kept

theorem not_suspended_of_holdsSlot {st : LineState} (h : st.holdsSlot = true) : st.suspended = false := by
  cases st <;> first | rfl | exact nomatch h

/-- A called line that gives its slot up leaves the ringing; with nobody waiting for a slot or for ringing the event ends as it stands. -/
theorem Settles.of_call {s u : State} {p : Port} {i : SlotId} {slots : Table 20 Slot} (he : EventsFinished s) (hi : (s.slots.at i).isHeld = false)
    (only : OnlyAt i s.slots slots) (hmode : s.mode ≠ .configPending) (hwait : s.waitQueue = [])
    (hring : (s.lines.at p).state.called = true → s.ringQueue.erase p = []) (hs : u.slots = slots) (hh : u.holdover = s.holdover)
    (hm : u.mode = s.mode) (hp : u.posture = s.posture) (hw : u.waitQueue = s.waitQueue)
    (hc : u.cells = if (s.lines.at p).state.called = true then (leaveRing p s).cells else s.cells)
    (hr : u.ringQueue = if (s.lines.at p).state.called = true then s.ringQueue.erase p else s.ringQueue) : Settles s u := by
  have finished : EventsFinished u := he.of_givenUp (i := i) (by rw [hs]; exact only) hi hh hm hmode
  by_cases called : (s.lines.at p).state.called = true
  · rw [if_pos called] at hr
    exact .of_empty (hw.trans hwait) (hr.trans (hring called)) finished
  · rw [if_neg called] at hc
    exact .of_nobody hc hp (hw.trans hwait) finished

/-- Settles O22: the alarm first, then the line, in each of its situations. -/
theorem faultAndItsEnd : Obligations.FaultAndItsEnd := by
  refine ⟨fun p s hrun hline hsam hf hst hcall hbus ha he hroom => ?_, fun p s hrun hline hg hf hst hcall hbus ha he hroom => ?_,
    fun p i c d s hrun hline hg hf hst hnot hcall hslot hp hheld hmark hone hwait hring ha hmode he hroom => ?_,
    fun p s hrun hline hg hf hst hbus ha he hroom => ?_, fun p s hrun hline hg hf hst ha he hroom => ?_,
    fun p s hrun hline hg hf hst ha he hroom => ?_⟩
  · have told := ((Comes.served s).awakeForFault p (not_standby_of_sampled hsam)).takeFault p (n := 2) ha (by rw [hst]; rfl) hroom
      (by rw [endReports_of_unclaimed hbus]; exact Nat.lt_succ_self 1)
    rw [releaseLine_of_none (s := faulted p s) (by rw [faulted_line]; exact hcall), endReports_of_unclaimed hbus,
      lineEnds_of_bare (s := faulted p s) (old := .idle) (by rw [faulted_line]; exact hst) rfl (by decide) hbus rfl, faulted_eq] at told
    dsimp only at told
    refine .of_event hrun rfl (fault_taken hline hf) told (.of_same rfl he) fun y made =>
      ⟨?_, ?_, rfl, made, fun q hq => ?_, fun q hq => ?_, fun q hq => ?_, fun q hq => ?_, rfl⟩
    · simp [State.withPort]
    · simp [State.withPort, Scanner.lineMoved_fault]
    · simp [State.withPort, hq]
    · simp [State.withPort, hq]
    · simp [State.withPort, hq]
    · simp [State.withPort, hq]
  · have mine : p ∈ portsOf (groupOf p) := (mem_portsOf p _).mpr rfl
    obtain ⟨-, outside⟩ := runsCleared_clearRuns (groupOf p) s
    have wakes := (Comes.served s).wakesForFault p hg hroom (by decide)
    have woken := waking_eq (groupOf p) s
    generalize (clearRuns (groupOf p) s).scan = runs at *
    generalize waking (groupOf p) s = w at *
    have line : w.lines.at p = s.lines.at p := by rw [woken]
    have bus : w.bus ≠ .claimed p := by rw [woken]; exact hbus
    have told := wakes.takeFault p (n := 3) (by rw [woken]; exact ha) (by rw [line, hst]; rfl) hroom
      (by rw [endReports_of_unclaimed bus]; exact Nat.lt_succ_self 2)
    rw [releaseLine_of_none (s := faulted p w) (by rw [faulted_line, line]; exact hcall), endReports_of_unclaimed bus,
      lineEnds_of_bare (s := faulted p w) (old := .idle) (by rw [faulted_line, line]; exact hst) rfl (by decide) bus rfl, faulted_eq, woken] at told
    dsimp only at told
    refine .of_event hrun rfl (fault_taken hline hf) told (.of_same rfl he) fun y made =>
      ⟨?_, ?_, ?_, rfl, made, fun q hq => ?_, fun q hq => ?_, fun q hq => ?_, fun q hq => ?_, fun g hg => ?_, rfl⟩
    · simp [State.withPort]
    · simp [State.withPort, Scanner.lineMoved_fault]
    · simp [State.withPort]
    · simp [State.withPort, hq]
    · have other : q ≠ p := fun h => hq (h ▸ rfl)
      have out : runs.at q = s.scan.at q := outside q fun h => hq ((mem_portsOf q _).mp h)
      simp [State.withPort, other, out]
    · simp [State.withPort, hq]
    · simp [State.withPort, hq]
    · simp [State.withPort, hg]
  · subst hp
    have told := ((Comes.served s).awakeForFault c.line hg).takeFault c.line (n := 3) ha (not_suspended_of_holdsSlot hst) hroom
      (Nat.lt_succ_of_le ((Nat.zero_add _).trans_le (endReports_length ..)))
    obtain ⟨slots, sig, free, txq, given, superseded, only, onlySig⟩ := releaseOwing_given i (.clear .lineFault) (s := faulted c.line s)
      hslot hone hmark
    rw [releaseLine_of_call (s := faulted c.line s) (by rw [faulted_line]; exact hnot) (by rw [faulted_line]; exact hcall), given,
      lineEnds_of_call (s := { faulted c.line s with slots := slots, sig := sig, free := free, txq := txq }) hwait rfl] at told
    rw [faulted_eq] at told superseded
    dsimp only at told superseded
    rw [Table.at_put_same] at told
    refine .of_event hrun rfl (fault_taken hline hf) told 
      (.of_call he hheld only hmode hwait (fun _ => hring) rfl rfl rfl rfl rfl rfl rfl) fun y made =>
      ⟨?_, rfl, ?_, superseded, superseded.joined_eq_none, fun called => ⟨?_, ?_, ?_⟩, rfl, made, fun q hq => ?_, fun q hq => ?_, fun q hq => ?_,
        fun q hq => ?_, only, onlySig, fun q hq => ?_, rfl⟩
    · simp [State.withPort, lineEnded]
    · simp [State.withPort, Scanner.lineMoved_fault]
    · exact not_placed_of_left (if_pos called)
    · exact (if_pos called).trans hring
    · simp [State.withPort, called]
    · simp [State.withPort, hq]
    · simp [State.withPort, hq]
    · simp [State.withPort, hq]
    · simp [State.withPort, hq]
    · show (if _ then s.ringDrive.put c.line false else s.ringDrive).at q = s.ringDrive.at q
      split
      · exact Table.at_put_other _ _ hq
      · rfl
  · have ends := (Comes.served s).faultEnds p ha hroom (by decide)
    have told := ends.enterBare p (st := .idle) .normal rfl (fun _ => by show groupState s p ≠ _; rw [hg]; decide) hroom
      (by rw [endReports_of_unclaimed (s := acceptFault p false (markAlarm (.lineFault p) false s)) hbus]; exact Nat.le_refl 2)
    rw [endReports_of_unclaimed (s := acceptFault p false (markAlarm (.lineFault p) false s)) hbus,
      lineEnds_of_bare (s := acceptFault p false (markAlarm (.lineFault p) false s)) (old := .fault) (by rw [accepted_line]; exact hst) rfl
        (by decide) hbus rfl, accepted_eq] at told
    dsimp only at told
    have taken : takeFaultClear p (serve s) = enterBare p .idle .normal (acceptFault p false (endCondition (.lineFault p) (serve s))) := by
      unfold takeFaultClear
      exact if_pos (by rw [serve_line, hst])
    refine .of_event hrun rfl ((faultClear_taken hline hf (by rw [hg]; decide)).trans taken) told (.of_same rfl he) fun y made =>
      ⟨?_, ?_, rfl, made, fun q hq => ?_, fun q hq => ?_, fun q hq => ?_, fun q hq => ?_, rfl⟩
    · simp [State.withPort]
      rfl
    · simp [State.withPort, Scanner.lineMoved_fault]
    · simp [State.withPort, hq]
    · simp [State.withPort, hq]
    · simp [State.withPort, hq]
    · simp [State.withPort, hq]
  · have told := ((Comes.served s).awakeForFault p hg).takeFault_suspended p ha (by rw [hst]; rfl) hroom (by decide)
    rw [faulted_eq] at told
    refine .of_event hrun rfl (fault_taken hline hf) told (.of_same rfl he) fun y made =>
      ⟨?_, ?_, rfl, made, fun q hq => ?_, fun q hq => ?_, fun q hq => ?_, rfl⟩
    · simp [State.withPort]
    · simp [State.withPort]
    · simp [State.withPort, hq]
    · simp [State.withPort, hq]
    · simp [State.withPort, hq]
  · have told := (Comes.served s).faultEnds p ha hroom (by decide)
    have taken : takeFaultClear p (serve s) = acceptFault p false (endCondition (.lineFault p) (serve s)) := by
      unfold takeFaultClear
      refine if_neg ?_
      rw [serve_line, hst]
      decide
    rw [accepted_eq] at told
    refine .of_event hrun rfl ((faultClear_taken hline hf hg).trans taken) told (.of_same rfl he) fun y made =>
      ⟨?_, ?_, rfl, made, fun q hq => ?_, fun q hq => ?_, fun q hq => ?_, rfl⟩
    · simp [State.withPort]
    · simp [State.withPort]
    · simp [State.withPort, hq]
    · simp [State.withPort, hq]
    · simp [State.withPort, hq]

end Sys2Proof.Machine
end

