-- ==== Sys2Proof/Proofs/LineTimers.lean ====
section
/-! PROOF. WAIT_LIMIT and RING_LIMIT expire (O26). -/

namespace Sys2Proof.Machine

theorem waitLimit_taken {p : Port} {ms : Nat} {s : State} (hst : (s.lines.at p).state = .queued) (ht : (s.lines.at p).timer = some ms) :
    (if ((serve s).lines.at p).state = .queued ∧ ((serve s).lines.at p).timer.isSome then enterBare p .parked .congested (serve s) else serve s)
      = enterBare p .parked .congested (serve s) := by
  rw [serve_line, hst, ht]
  rfl

theorem ringLimit_taken {p : Port} {ms : Nat} {s : State} (hst : (s.lines.at p).state.called = true) (ht : (s.lines.at p).timer = some ms) :
    (if ((serve s).lines.at p).state.called ∧ ((serve s).lines.at p).timer.isSome then endLine p .idle .noAnswer (serve s) else serve s)
      = endLine p .idle .noAnswer (serve s) := by
  rw [serve_line, hst, ht]
  rfl

theorem not_holdover_of_called {st : LineState} (h : st.called = true) : st ≠ .holdover := by
  rintro rfl
  exact nomatch h

/-- Settles O26: the one queued line is parked, and a called line ends its call. -/
theorem lineTimersExpire : Obligations.LineTimersExpire := by
  refine ⟨fun p ms s hrun hst ht hwait hbus he hroom => ?_,
    fun p ms i c b d s hrun hst ht hcall hslot hp hmark hone hwait hring hg hmode he hroom => ?_⟩
  · have told := (Comes.served s).enterBare p (st := .parked) .congested rfl (fun h => nomatch h) hroom
      (by rw [endReports_of_unclaimed hbus]; exact Nat.le_refl 1)
    rw [endReports_of_unclaimed hbus, lineEnds_eq p s rfl, lineEnded_of_unclaimed hbus, busEnded_of_unclaimed hbus, hst, if_pos rfl, hwait,
      List.erase_cons_head] at told
    refine .of_event hrun rfl (waitLimit_taken hst ht) told (.of_nobody rfl rfl rfl (he.of_same rfl rfl rfl)) fun y made =>
      ⟨?_, rfl, ?_, made, fun q hq => ?_, fun q hq => ?_, fun q hq => ?_, rfl⟩
    · simp [State.withPort]
    · simp [State.withPort]
    · simp [State.withPort, hq]
    · simp [State.withPort, hq]
    · simp [State.withPort, hq]
  · subst hp
    obtain ⟨slots, sig, free, txq, told, superseded, only, onlySig⟩ := (Comes.served s).endCall c.line (st := .idle) .noAnswer rfl
      (fun _ => hg) (not_holdover_of_called hst) hcall (by rw [hslot]; rfl) hone hmark hroom (Nat.le_refl 2)
    rw [hslot] at superseded
    rw [lineEnds_of_call (s := { s with slots := slots, sig := sig, free := free, txq := txq }) hwait rfl] at told
    refine .of_event hrun rfl (ringLimit_taken hst ht) told
      (.of_call he (by rw [hslot]; rfl) only hmode hwait (fun _ => hring) rfl rfl rfl rfl rfl rfl rfl) fun y made =>
      ⟨?_, rfl, superseded, not_placed_of_left (if_pos hst), (if_pos hst).trans hring, ?_, made, fun q hq => ?_, fun q hq => ?_, fun q hq => ?_,
        only, onlySig, fun q hq => ?_, rfl⟩
    · simp [State.withPort]
      rfl
    · simp [State.withPort, hst]
    · simp [State.withPort, hq]
    · simp [State.withPort, hq]
    · simp [State.withPort, hq]
    · simp [State.withPort, hst, hq]

end Sys2Proof.Machine
end

