-- ==== Sys2Proof/Proofs/Requests.lean ====
section
/-! PROOF. A request from its command to its reply, and the requests that read the part, are refused, or set one value
(O46, O47, O48, O57). -/

namespace Sys2Proof.Machine

/-! ## A request from its command to its reply -/

theorem judged {o : ReplyOutcome} {judge : State → ReplyOutcome} {s : State} (hj : ∀ y, judge (s.withPort y) = o) :
    judge { serve s with requests := (serve s).requests.tail } = o := by
  have popped : ({ serve s with requests := (serve s).requests.tail } : State).apartFromPort = s.apartFromPort := serve_port s
  rw [eq_withPort popped]
  exact hj _

theorem Comes.taken (num : Byte) (o : ReplyOutcome) (s : State) : Comes (taken num o s) [] s (taken num o s) :=
  (Comes.refl _).restate (taken_port num o s).symm

section
variable {c : Instr} {num kind : Byte} {body : List Byte} {judge : State → ReplyOutcome} {s u v : State} {rs : List Report}
  {P : State → Prop} {effect f : State → State}

/-- A request that is refused changes the reply slot alone. -/
theorem Answers.refused {why : RequestRefusal} (hx : exec c s = .next (takeRequest ⟨num, kind, body⟩ judge effect s))
    (ht : Takes num kind body s) (hj : ∀ y, judge (s.withPort y) = .refused why)
    (hp : ∀ y, Made s (s.withPort y) [] → Replied (s.withPort y) num (.refused why) → P (s.withPort y)) : Answers c s P := by
  have refused := takeRequest_refused (r := ⟨num, kind, body⟩) effect ht (judged hj)
  have eq := eq_withPort (taken_port num (.refused why) s)
  rw [refused] at hx
  exact ⟨_, hx, eq ▸ hp _ (eq ▸ taken_made num (.refused why) s) (eq ▸ taken_replied num (.refused why) s)⟩

theorem takeRequest_answered {o : ReplyOutcome} (effect : State → State) (ht : Takes num kind body s) (hj : ∀ y, judge (s.withPort y) = o)
    (ho : ∀ why, o ≠ .refused why) : takeRequest ⟨num, kind, body⟩ judge effect s = effect (taken num o s) := by
  have judgement := judged hj
  rw [takeRequest_of_takes judge effect ht]
  unfold takeNow
  simp only [judgement]
  cases o with
  | refused why => exact absurd rfl (ho why)
  | done => rfl
  | data d => rfl

/-- A request that is not refused has its effect on the part that has answered it. -/
theorem Answers.answered {o : ReplyOutcome} (hx : exec c s = .next (takeRequest ⟨num, kind, body⟩ judge effect s))
    (ht : Takes num kind body s) (hj : ∀ y, judge (s.withPort y) = o) (ho : ∀ why, o ≠ .refused why) (hf : effect (taken num o s) = v)
    (h : Comes (taken num o s) rs u v)
    (hp : ∀ y, Made s (u.withPort y) rs → Replied (u.withPort y) num o → P (u.withPort y)) : Answers c s P := by
  rw [takeRequest_answered effect ht hj ho, hf] at hx
  have eq := h.eq
  have made : Made s v rs := by
    have before := taken_made num o s
    have made := h.made
    unfold Made at *
    rw [made, before, List.append_nil]
  exact ⟨v, hx, eq ▸ hp _ (eq ▸ made) (eq ▸ h.reply.trans (taken_replied num o s))⟩

/-- A request whose effect is an event, where the event's end finds nothing to do. -/
theorem Answers.answeredEvent (hx : exec c s = .next (takeRequest ⟨num, kind, body⟩ judge (act f) s))
    (ht : Takes num kind body s) (hj : ∀ y, judge (s.withPort y) = .done) (hf : f (taken num .done s) = v)
    (h : Comes (taken num .done s) rs u v) (hs : Settles s u)
    (hp : ∀ y, Made s (u.withPort y) rs → Replied (u.withPort y) num .done → P (u.withPort y)) : Answers c s P := by
  have running : Running (taken num .done s) := (power_of_port (taken_port num .done s)).trans ht.1
  have ends : act f (taken num .done s) = v := by
    rw [act_running running, serve_taken, hf, h.eq, eq_withPort (taken_port num .done s)]
    exact hs _ _
  exact .answered hx ht hj (fun _ => by simp) ends h hp

end

/-! ## Queries -/

theorem portNamed_byte : ∀ p : Port, portNamed [byte p.val] = some p := by decide

/-- Settles O46: each query is judged on the part as it stands. -/
theorem queriesAnswerWithAPicture : Obligations.QueriesAnswerWithAPicture := by
  intro num s
  refine ⟨fun ht => ?_, fun p ht => ?_, fun ht => ?_, fun ht => ?_, fun ht => ?_, fun ht => ?_⟩
  · exact .answered rfl ht (fun _ => rfl) (fun _ => by simp) rfl (Comes.taken num _ s) fun _ _ reply => ⟨reply, rfl⟩
  · refine .answered (judge := queryLineOutcome [byte p.val]) rfl ht (fun y => ?_) (fun _ => by simp) rfl (Comes.taken num _ s)
      fun _ _ reply => ⟨reply, rfl⟩
    unfold queryLineOutcome
    rw [portNamed_byte]
    rfl
  · exact .answered rfl ht (fun _ => rfl) (fun _ => by simp) rfl (Comes.taken num _ s) fun _ _ reply => ⟨reply, rfl⟩
  · exact .answered rfl ht (fun _ => rfl) (fun _ => by simp) rfl (Comes.taken num _ s) fun _ _ reply => ⟨reply, rfl⟩
  · exact .answered rfl ht (fun _ => rfl) (fun _ => by simp) rfl (Comes.taken num _ s) fun _ _ reply => ⟨reply, rfl⟩
  · exact .answered rfl ht (fun _ => rfl) (fun _ => by simp) rfl (Comes.taken num _ s) fun _ _ reply => ⟨reply, rfl⟩

/-! ## PARAM_SET (R181) -/

theorem byte_toNat {n : Nat} (h : n < 256) : (byte n).toNat = n := by
  unfold byte
  rw [BitVec.toNat_ofNat]
  exact Nat.mod_eq_of_lt h

theorem paramSetFields_body {k v : Nat} (hk : k < 8) (hv : v < 65536) :
    paramSetFields [byte k, byte (v / 256), byte v] = if 6 ≤ k → v ≤ 1 then some (k, v) else none := by
  unfold paramSetFields
  dsimp only
  rw [byte_toNat (Nat.lt_trans hk (by decide)), ofTwoBytes_of_lt hv]
  have small : k ≤ 7 := by omega
  simp only [small, true_and]

theorem paramSet_wrongMode {k v : Nat} {s : State} (hk : k < 8) (hv : v < 65536) (hkv : k < 6 ∨ v < 2) (hm : s.mode ≠ .config) (y : PortSide) :
    doneUnless (paramSetRefusal [byte k, byte (v / 256), byte v] (s.withPort y)) = .refused .wrongMode := by
  have mode : (s.withPort y).mode ≠ .config := hm
  unfold paramSetRefusal
  rw [paramSetFields_body hk hv, if_pos (by omega)]
  dsimp only
  rw [if_pos mode]
  rfl

/-- In CONFIG a PARAM_SET is judged by the range of its parameter. -/
theorem paramSet_judged {k v : Nat} {s : State} (hk : k < 8) (hv : v < 65536) (hm : s.mode = .config) (y : PortSide) :
    doneUnless (paramSetRefusal [byte k, byte (v / 256), byte v] (s.withPort y))
      = if (6 ≤ k → v ≤ 1) ∧ (s.params.withValue k v).isSome = true then .done else .refused .badValue := by
  have mode : (s.withPort y).mode = .config := hm
  have params : (s.withPort y).params = s.params := rfl
  unfold paramSetRefusal
  rw [paramSetFields_body hk hv, params]
  by_cases hkv : 6 ≤ k → v ≤ 1
  · rw [if_pos hkv]
    dsimp only
    rw [if_neg (not_not_intro mode)]
    cases hw : s.params.withValue k v with
    | none => simp [doneUnless]
    | some ps => simpa [doneUnless] using hkv
  · rw [if_neg hkv, if_neg fun h => hkv h.1]
    rfl

theorem setParam_some {k v : Nat} {ps : Params} {s : State} (hk : k < 8) (hv : v < 65536) (hkv : 6 ≤ k → v ≤ 1)
    (hw : s.params.withValue k v = some ps) : setParam [byte k, byte (v / 256), byte v] s = { s with params := ps } := by
  unfold setParam
  rw [paramSetFields_body hk hv, if_pos hkv]
  dsimp only [Option.bind_some]
  rw [hw]

/-- What a PARAM_SET of a value in range makes of the parameters. -/
theorem Answers.paramSet_done {num : Byte} {k v : Nat} {ps : Params} {s : State} {P : State → Prop}
    (ht : Takes num 0x05 [byte k, byte (v / 256), byte v] s) (hk : k < 8) (hv : v < 65536) (hm : s.mode = .config) (hkv : 6 ≤ k → v ≤ 1)
    (hw : s.params.withValue k v = some ps)
    (hp : ∀ t, Replied t num .done → t.apartFromPort = ({ s with params := ps } : State).apartFromPort → P t) :
    Answers (.paramSet num [byte k, byte (v / 256), byte v]) s P := by
  have params : (taken num .done s).params = s.params := (congrArg State.params (taken_port num .done s) :)
  refine .answered (judge := fun t => doneUnless (paramSetRefusal [byte k, byte (v / 256), byte v] t)) rfl ht (fun y => ?_) (fun _ => by simp)
    (setParam_some hk hv hkv (by rw [params]; exact hw)) ((Comes.taken num .done s).map (fun x => { x with params := ps }) fun _ _ => rfl)
    fun _ _ reply => hp _ reply rfl
  rw [paramSet_judged hk hv hm, if_pos ⟨hkv, by rw [hw]; rfl⟩]

theorem Answers.paramSet_refused {num : Byte} {k v : Nat} {s : State} {P : State → Prop}
    (ht : Takes num 0x05 [byte k, byte (v / 256), byte v] s) (hk : k < 8) (hv : v < 65536) (hm : s.mode = .config)
    (hw : s.params.withValue k v = none) (hp : ∀ t, Replied t num (.refused .badValue) → t.apartFromPort = s.apartFromPort → P t) :
    Answers (.paramSet num [byte k, byte (v / 256), byte v]) s P := by
  refine .refused (judge := fun t => doneUnless (paramSetRefusal [byte k, byte (v / 256), byte v] t)) rfl ht (fun y => ?_)
    fun _ _ reply => hp _ reply rfl
  rw [paramSet_judged hk hv hm, hw]
  simp

/-- Settles O48, parameter by parameter. -/
theorem paramSetTakesAValueInRange : Obligations.ParamSetTakesAValueInRange := by
  intro num k v s ht hk hv hm
  dsimp only
  have done {ps : Params} {range : Prop} [Decidable range] {value : Params} (hr : range) (hkv : 6 ≤ k → v ≤ 1)
      (hw : s.params.withValue k v = some ps) (he : ps = value) :
      Answers (.paramSet num [byte k, byte (v / 256), byte v]) s fun t =>
        if range then Replied t num .done ∧ t.apartFromPort = ({ s with params := value } : State).apartFromPort
        else Replied t num (.refused .badValue) ∧ t.apartFromPort = s.apartFromPort :=
    .paramSet_done ht hk hv hm hkv hw fun t reply port => by rw [if_pos hr]; exact ⟨reply, he ▸ port⟩
  have refused {range : Prop} [Decidable range] {value : Params} (hr : ¬ range) (hw : s.params.withValue k v = none) :
      Answers (.paramSet num [byte k, byte (v / 256), byte v]) s fun t =>
        if range then Replied t num .done ∧ t.apartFromPort = ({ s with params := value } : State).apartFromPort
        else Replied t num (.refused .badValue) ∧ t.apartFromPort = s.apartFromPort :=
    .paramSet_refused ht hk hv hm hw fun t reply port => by rw [if_neg hr]; exact ⟨reply, port⟩
  have six (m : Nat) (h : m < 6) : 6 ≤ m → v ≤ 1 := fun h' => absurd h' (Nat.not_le.mpr h)
  match k, hk with
  | 0, _ =>
    by_cases hr : 8 ≤ v ∧ v ≤ 32
    · exact done hr (six 0 (by decide)) (if_pos hr) rfl
    · exact refused hr (if_neg hr)
  | 1, _ =>
    by_cases hr : 300 ≤ v ∧ v ≤ 1000
    · exact done hr (six 1 (by decide)) (if_pos hr) rfl
    · exact refused hr (if_neg hr)
  | 2, _ =>
    by_cases hr : 150 ≤ v ∧ v ≤ 500
    · exact done hr (six 2 (by decide)) (if_pos hr) rfl
    · exact refused hr (if_neg hr)
  | 3, _ =>
    by_cases hr : 10 ≤ v ∧ v ≤ 120
    · exact done hr (six 3 (by decide)) (if_pos hr) rfl
    · exact refused hr (if_neg hr)
  | 4, _ =>
    by_cases hr : 20 ≤ v ∧ v ≤ 180
    · exact done hr (six 4 (by decide)) (if_pos hr) rfl
    · exact refused hr (if_neg hr)
  | 5, _ =>
    by_cases hr : v ≤ 30
    · exact done ⟨Nat.zero_le v, hr⟩ (six 5 (by decide)) (if_pos hr) rfl
    · exact refused (fun h => hr h.2) (if_neg hr)
  | 6, _ =>
    by_cases hr : v ≤ 1
    · exact done ⟨Nat.zero_le v, hr⟩ (fun _ => hr) (if_pos hr) rfl
    · exact refused (fun h => hr h.2) (if_neg hr)
  | 7, _ =>
    by_cases hr : v ≤ 1
    · exact done ⟨Nat.zero_le v, hr⟩ (fun _ => hr) (if_pos hr) rfl
    · exact refused (fun h => hr h.2) (if_neg hr)

/-! ## Refusals -/

/-- Settles O47: each refusal by its check. -/
theorem refusedRequestsChangeNothing : Obligations.RefusedRequestsChangeNothing := by
  refine ⟨fun num kind body s ht hk => ?_, fun num k v s ht hk hv hkv hm => ?_, fun num port role hi lo cls s ht hr hc hm => ?_,
    fun num kind s ht hk => ?_⟩
  · exact .refused rfl ht (fun _ => rfl) fun _ _ reply => ⟨reply, rfl⟩
  · exact .refused rfl ht (paramSet_wrongMode hk hv hkv hm) fun _ _ reply => ⟨reply, rfl⟩
  · refine .refused (judge := fun t => doneUnless (mapSetRefusal [port, role, hi, lo, cls] t)) rfl ht (fun y => ?_)
      fun _ _ reply => ⟨reply, rfl⟩
    have fields : (mapSetFields [port, role, hi, lo, cls]).isNone = false := by
      have form : role.toNat ≤ 3 ∧ (role.toNat = 1 → cls.toNat ≤ 2) :=
        ⟨by omega, fun h => Nat.le_of_lt_succ (hc (BitVec.eq_of_toNat_eq h))⟩
      unfold mapSetFields
      dsimp only
      rw [if_pos form]
      rfl
    have mode : (s.withPort y).mode ≠ .config := hm
    unfold mapSetRefusal
    rw [fields, if_neg (by decide), if_pos mode]
    rfl
  · simp only [List.mem_cons, List.not_mem_nil, or_false] at hk
    rcases hk with rfl | rfl | rfl | rfl | rfl | rfl | rfl | rfl | rfl | rfl | rfl
    all_goals exact .refused rfl ht (fun _ => rfl) fun _ _ reply => ⟨reply, rfl⟩

/-! ## ALARM_ACK and WARM_RESET (R185, R196) -/

theorem alarmNamed_lineFault : ∀ p : Port, alarmNamed [3, byte p.val] = some (.lineFault p) := by decide

/-- How an ALARM_ACK for a line's fault is judged. -/
theorem alarmAck_judged (p : Port) (s : State) (y : PortSide) : doneUnless (alarmAckRefusal [3, byte p.val] (s.withPort y))
    = match alarmEntry s (.lineFault p) with
      | none => .refused .badValue
      | some e => if e.present then .refused .conditionPresent else .done := by
  have entry : alarmEntry (s.withPort y) (.lineFault p) = alarmEntry s (.lineFault p) := rfl
  unfold alarmAckRefusal
  rw [alarmNamed_lineFault]
  dsimp only
  rw [entry]
  cases alarmEntry s (.lineFault p) with
  | none => rfl
  | some e => dsimp only; split <;> rfl

/-- Behind a WARM_RESET a request is discarded. -/
theorem takeRequest_warm {r : Request} (judge : State → ReplyOutcome) (effect : State → State) {s : State} (hrun : Running s)
    (hw : s.warm ≠ .none) : takeRequest r judge effect s = serve s := by
  obtain ⟨-, -, warm⟩ := serve_keeps s
  unfold takeRequest
  rw [whileRunning_of_running hrun, warm, if_pos hw]

/-- Behind a WARM_RESET octets are discarded. -/
theorem takeOctets_warm (octets : List Byte) {s : State} (hw : s.warm ≠ .none) : inTurn octets takeOctet s = s := by
  unfold inTurn
  induction octets with
  | nil => rfl
  | cons o octets ih =>
    have first : takeOctet o s = s := if_neg hw
    rw [List.foldl_cons, first, ih]

/-- Settles O57: the alarm entry acknowledged, and what a WARM_RESET lets through. -/
theorem alarmAckAndWarmReset : Obligations.AlarmAckAndWarmReset := by
  refine ⟨fun num p s ht => ?_, fun num s ht => ?_, fun num kind body s hrun hw => ?_, fun octets s hrun hw => ?_⟩
  · have judge := alarmAck_judged p s
    cases ha : alarmEntry s (.lineFault p) with
    | none =>
      rw [ha] at judge
      exact .refused rfl ht judge fun _ _ reply => ⟨reply, rfl⟩
    | some e =>
      rw [ha] at judge
      dsimp only at judge ⊢
      by_cases hp : e.present = true
      · simp only [if_pos hp] at judge ⊢
        exact .refused rfl ht judge fun _ _ reply => ⟨reply, rfl⟩
      · simp only [if_neg hp] at judge ⊢
        have effect : setAcknowledged [3, byte p.val] (taken num .done s) = dropAlarm (.lineFault p) (taken num .done s) := by
          unfold setAcknowledged
          rw [alarmNamed_lineFault]
        exact .answered rfl ht judge (fun _ => by simp) effect ((Comes.taken num .done s).map (dropAlarm (.lineFault p)) fun _ _ => rfl)
          fun _ _ reply => ⟨reply, rfl⟩
  · have done := takeRequest_answered (judge := fun _ => doneUnless (badUnless (emptyBody []))) takeWarmReset ht (fun _ => rfl)
      (o := .done) (fun _ => by simp)
    refine ⟨_, congrArg Host.Outcome.next done, taken_replied num .done s, rfl, rfl, ?_⟩
    exact (congrArg (fun t : State => { t with warm := .taken }) (taken_port num .done s) :)
  · have warm : s.warm ≠ .none := by
      rcases hw with ⟨hw, -⟩ | ⟨hw, -⟩
      · rw [hw]; decide
      · rw [hw]; decide
    have still : serve s = s := serve_eq_self (hw.imp And.right fun h => ⟨h.2, .inr (.inl h.1)⟩)
    obtain ⟨judge, effect, row, -⟩ := runRequest_row _ (requestCode_requestRow num kind body)
    rw [exec_request _ (requestCode_requestRow num kind body), row, takeRequest_warm judge effect hrun warm, still]
  · have served : (serve s).warm ≠ .none := by rw [(serve_keeps s).2.2]; exact hw
    exact congrArg Host.Outcome.next ((whileRunning_of_running hrun).trans (takeOctets_warm octets served))

end Sys2Proof.Machine
end

