-- ==== Sys2Proof/Proofs/Services.lean ====
section
/-! PROOF. The requests that act on a scan group, the test bus, a slot or the trunk link (O51, O52, O54, O55, O56). -/

namespace Sys2Proof.Machine

/-! ## Scan groups (R42, R43, R52) -/

theorem groupNamed_byte : ∀ g : GroupId, groupNamed [byte g.val] = some g := by decide

theorem standbyNamed_byte : ∀ (g : GroupId) (wake : Bool), standbyNamed [byte g.val, flagCode wake] = some (g, wake) := by decide

theorem taken_groups (num : Byte) (o : ReplyOutcome) (s : State) : (taken num o s).groups = s.groups :=
  (congrArg State.groups (taken_port num o s) :)

/-- Settles O52, by the group's state. -/
theorem groupWakeActsByTheState : Obligations.GroupWakeActsByTheState := by
  intro num g s ht hroom
  have room := taken_room num .done hroom
  have judge (y : PortSide) : (fun _ => doneUnless (badUnless (groupNamed [byte g.val]))) (s.withPort y) = .done := by
    rw [groupNamed_byte]
    rfl
  have effect : setAwake [byte g.val] (taken num .done s) = wakeGroup g (taken num .done s) := by
    unfold setAwake
    rw [groupNamed_byte]
  have start := Comes.taken num .done s
  unfold wakeGroup at effect
  rw [taken_groups] at effect
  cases hst : (s.groups.at g).state with
  | standby =>
    rw [hst] at effect
    have told := start.wakes g .request room (by decide)
    rw [waking_eq] at told
    refine .answered rfl ht judge (fun _ => by simp) effect told fun y made reply =>
      ⟨reply, ?_, fun q hq => ?_, rfl, ?_, ?_, ?_, RunsCleared.of_scan rfl, made⟩
    all_goals simp [State.withPort]
    exact Table.at_put_other _ _ hq
  | standbyPending =>
    rw [hst] at effect
    have told := (start.map (fun x => setGroup g { x.groups.at g with state := .active } x) fun _ _ => rfl).report
      (.groupEvent g .active .request) room (by decide)
    rw [taken_groups] at told
    refine .answered rfl ht judge (fun _ => by simp) effect told fun y made reply => ⟨reply, ?_, fun q hq => ?_, rfl, ?_, rfl, made⟩
    all_goals simp [State.withPort]
    exact Table.at_put_other _ _ hq
  | active =>
    rw [hst] at effect
    exact .answered rfl ht judge (fun _ => by simp) effect start fun y made reply => ⟨reply, rfl, fun _ _ => rfl, rfl, rfl, rfl, made⟩
  | waking =>
    rw [hst] at effect
    exact .answered rfl ht judge (fun _ => by simp) effect start fun y made reply => ⟨reply, rfl, fun _ _ => rfl, rfl, rfl, rfl, made⟩

theorem requestStandby_active {g : GroupId} {wake : Bool} {s : State} (h : (s.groups.at g).state = .active) :
    requestStandby g wake s
      = if groupQuiet s g then enterStandby g .request (setGroup g { s.groups.at g with wake := wake } s)
        else report (.groupEvent g .standbyPending .request)
          (setGroup g { s.groups.at g with wake := wake, state := .standbyPending } (setGroup g { s.groups.at g with wake := wake } s)) := by
  unfold requestStandby
  dsimp only
  rw [if_pos h, setGroup_groups, Table.at_put_same]

theorem requestStandby_other {g : GroupId} {wake : Bool} {s : State} (h : (s.groups.at g).state ≠ .active) :
    requestStandby g wake s = setGroup g { s.groups.at g with wake := wake } s := if_neg h

/-- Settles O51, by the group's state and its lines. -/
theorem groupStandbyActsByTheState : Obligations.GroupStandbyActsByTheState := by
  intro num g wake s ht hroom
  have room := taken_room num .done hroom
  have judge (y : PortSide) : (fun _ => doneUnless (badUnless (standbyNamed [byte g.val, flagCode wake]))) (s.withPort y) = .done := by
    rw [standbyNamed_byte]
    rfl
  have effect : setStandby [byte g.val, flagCode wake] (taken num .done s) = requestStandby g wake (taken num .done s) := by
    unfold setStandby
    rw [standbyNamed_byte]
  have start := Comes.taken num .done s
  have flagged := start.map (fun x => setGroup g { x.groups.at g with wake := wake } x) fun _ _ => rfl
  by_cases hact : (s.groups.at g).state = .active
  · have quiet : groupQuiet (taken num .done s) g = groupQuiet s g := (congrArg (fun x => groupQuiet x g) (taken_port num .done s) :)
    rw [requestStandby_active (by rw [taken_groups]; exact hact), quiet] at effect
    by_cases hq : groupQuiet s g = true
    · rw [if_pos hq] at effect
      have told := flagged.sleeps g .request room (by decide)
      rw [asleep_eq] at told
      refine .answered rfl ht judge (fun _ => by simp) effect told fun y made reply => ⟨reply, ?_, fun q hg => ?_, rfl, ?_⟩
      · simp [State.withPort]
      · simp [State.withPort, hg]
      · rw [if_pos hact, if_pos ((groupQuiet_iff s g).mp hq)]
        exact ⟨congrArg Group.state (Table.at_put_same ..), congrArg Group.slow (Table.at_put_same ..),
          RunsCleared.of_scan (s := setGroup g { s.groups.at g with wake := wake } s) rfl, made⟩
    · rw [if_neg hq] at effect
      have told := (flagged.map (fun x => setGroup g { x.groups.at g with state := .standbyPending } x) fun _ _ => rfl).report
        (.groupEvent g .standbyPending .request) room (by decide)
      have again : ({ (setGroup g { (taken num .done s).groups.at g with wake := wake } (taken num .done s)).groups.at g with
          state := .standbyPending } : Group) = { (taken num .done s).groups.at g with wake := wake, state := .standbyPending } := by
        rw [setGroup_groups, Table.at_put_same]
      simp only [again] at told
      refine .answered rfl ht judge (fun _ => by simp) effect told fun y made reply => ⟨reply, ?_, fun q hg => ?_, rfl, ?_⟩
      · simp [State.withPort]
      · simp [State.withPort, hg]
      · rw [if_pos hact, if_neg fun h => hq ((groupQuiet_iff s g).mpr h)]
        exact ⟨congrArg Group.state (Table.at_put_same ..), rfl, made⟩
  · rw [requestStandby_other (by rw [taken_groups]; exact hact)] at effect
    refine .answered rfl ht judge (fun _ => by simp) effect flagged fun y made reply => ⟨reply, ?_, fun q hg => ?_, rfl, ?_⟩
    · simp [State.withPort]
    · simp [State.withPort, hg]
    · rw [if_neg hact]
      refine ⟨?_, ?_, ?_, rfl, made⟩
      all_goals simp [State.withPort]

/-! ## TEST_RELEASE (R171) -/

/-- Settles O54, by the bus. -/
theorem testReleaseActsByTheBus : Obligations.TestReleaseActsByTheBus := by
  intro num s ht he hroom hgroup hstate
  have room := taken_room num .done hroom
  have start := Comes.taken num .done s
  have bus : (taken num .done s).bus = s.bus := (congrArg State.bus (taken_port num .done s) :)
  have lines : (taken num .done s).lines = s.lines := (congrArg State.lines (taken_port num .done s) :)
  cases hb : s.bus with
  | free =>
    have judge (y : PortSide) : (fun t => doneUnless (testReleaseRefusal [] t)) (s.withPort y) = .refused .notHeld := by
      have free : (s.withPort y).bus = .free := hb
      simp [testReleaseRefusal, emptyBody, free, doneUnless]
    exact .refused rfl ht judge fun y made reply => ⟨reply, made, rfl⟩
  | claimed p =>
    have judge (y : PortSide) : (fun t => doneUnless (testReleaseRefusal [] t)) (s.withPort y) = .done := by
      have claimed : (s.withPort y).bus = .claimed p := hb
      simp [testReleaseRefusal, emptyBody, claimed, doneUnless]
    have effect : releaseBus (taken num .done s) = setBus .free (taken num .done s) := by
      unfold releaseBus
      rw [bus, hb]
    exact .answeredEvent rfl ht judge effect (start.map (setBus .free) fun _ _ => rfl) (.of_same rfl he) fun y made reply => ⟨reply, made, rfl⟩
  | held p =>
    have judge (y : PortSide) : (fun t => doneUnless (testReleaseRefusal [] t)) (s.withPort y) = .done := by
      have held : (s.withPort y).bus = .held p := hb
      simp [testReleaseRefusal, emptyBody, held, doneUnless]
    have freed := start.map (setBus .free) fun _ _ => rfl
    have unclaimed : (setBus .free s).bus ≠ .claimed p := fun h => nomatch h
    have awake := hgroup p hb
    have test := hstate p hb
    have effect : releaseBus (taken num .done s) = if (s.lines.at p).faultPresent then enterBare p .fault .lineFault (setBus .free (taken num .done s))
        else enterBare p .idle .maintenance (setBus .free (taken num .done s)) := by
      unfold releaseBus
      rw [bus, hb, lines]
    dsimp only
    by_cases hf : (s.lines.at p).faultPresent = true
    · rw [if_pos hf] at effect
      have told := freed.enterBare p (st := .fault) .lineFault rfl (fun _ => awake) room (by rw [endReports_of_unclaimed unclaimed]; exact Nat.le_refl 1)
      rw [endReports_of_unclaimed unclaimed, lineEnds_of_bare (s := setBus .free s) test rfl (by decide) unclaimed rfl] at told
      refine .answeredEvent rfl ht judge effect told (.of_same rfl he) fun y made reply =>
        ⟨reply, rfl, rfl, ?_, fun q hq => ?_, fun q hq => ?_, fun q hq => ?_, rfl⟩
      · rw [if_pos hf]
        exact ⟨congrArg Line.state (Table.at_put_same ..), made⟩
      all_goals simp [State.withPort, hq]
    · rw [if_neg hf] at effect
      have told := freed.enterBare p (st := .idle) .maintenance rfl (fun _ => awake) room (by rw [endReports_of_unclaimed unclaimed]; exact Nat.le_refl 1)
      rw [endReports_of_unclaimed unclaimed, lineEnds_of_bare (s := setBus .free s) test rfl (by decide) unclaimed rfl] at told
      refine .answeredEvent rfl ht judge effect told (.of_same rfl he) fun y made reply =>
        ⟨reply, rfl, rfl, ?_, fun q hq => ?_, fun q hq => ?_, fun q hq => ?_, rfl⟩
      · rw [if_neg hf]
        exact ⟨congrArg Line.state (Table.at_put_same ..), made⟩
      all_goals simp [State.withPort, hq]

/-! ## SLOT_BLOCK and SLOT_UNBLOCK (R102, R103) -/

theorem slotNamed_byte : ∀ i : SlotId, slotNamed [byte (slotNo i)] = some i := by decide

/-- What the end of an event looks at in a slot is the same in every slot. -/
theorem EventsFinished.of_alike {s t : State} (h : ∀ i, (t.slots.at i).isHeld = (s.slots.at i).isHeld ∧ (t.slots.at i).inUse = (s.slots.at i).inUse)
    (hh : t.holdover = s.holdover) (hm : t.mode = s.mode) (he : EventsFinished s) : EventsFinished t := by
  have held : anyHeld t = anyHeld s := by
    unfold anyHeld
    exact congrArg (List.any allSlots) (funext fun i => (h i).1)
  have inUse : anyInUse t = anyInUse s := by
    unfold anyInUse
    exact congrArg (List.any allSlots) (funext fun i => (h i).2)
  unfold EventsFinished at *
  rw [held, inUse, hh, hm]
  exact he

theorem blockSlot_eq (i : SlotId) (s : State) : blockSlot i s = match s.slots.at i with
    | .free => { s with slots := s.slots.put i (.blocked .cabinet), free := s.free.erase i }
    | .blocked _ => s
    | sl => { s with slots := s.slots.put i (sl.withBlockPending true) } := by
  unfold blockSlot
  cases s.slots.at i <;> rfl

theorem unblockSlot_eq {i : SlotId} {s : State} (h : s.slots.at i ≠ .blocked .noClearAck) : unblockSlot i s = match s.slots.at i with
    | .free => s
    | .blocked _ => { s with slots := s.slots.put i .free, free := s.free ++ [i] }
    | sl => { s with slots := s.slots.put i (sl.withBlockPending false) } := by
  unfold unblockSlot
  cases hs : s.slots.at i with
  | blocked why =>
    dsimp only
    rw [if_neg (by rintro rfl; exact h hs)]
    rfl
  | _ => rfl

theorem blockSlot_withPort (i : SlotId) (s : State) (y : PortSide) : blockSlot i (s.withPort y) = (blockSlot i s).withPort y := by
  have slots : (s.withPort y).slots = s.slots := rfl
  rw [blockSlot_eq, blockSlot_eq i s, slots]
  cases s.slots.at i <;> rfl

/-- Block pending set or cleared leaves what the end of an event looks at. -/
theorem withBlockPending_alike (b : Bool) (sl : Slot) : (sl.withBlockPending b).isHeld = sl.isHeld ∧ (sl.withBlockPending b).inUse = sl.inUse := by
  cases sl <;> exact ⟨rfl, rfl⟩

/-- Settles O55, by the slot's state. -/
theorem slotBlockAndUnblock : Obligations.SlotBlockAndUnblock := by
  refine ⟨fun num i s ht => ?_, fun num i s ht hwait he hnot => ?_⟩
  · have effect : setBlock [byte (slotNo i)] (taken num .done s) = blockSlot i (taken num .done s) := by
      unfold setBlock
      rw [slotNamed_byte]
    have judge (y : PortSide) : (fun _ => doneUnless (badUnless (slotNamed [byte (slotNo i)]))) (s.withPort y) = .done := by
      rw [slotNamed_byte]
      rfl
    have told := (Comes.taken num .done s).map (blockSlot i) (blockSlot_withPort i)
    refine .answered rfl ht judge (fun _ => by simp) effect told fun y made reply => ⟨reply, made, ?_⟩
    rw [blockSlot_eq]
    cases s.slots.at i <;> rfl
  · have judge (y : PortSide) : (fun _ => doneUnless (badUnless (slotNamed [byte (slotNo i)]))) (s.withPort y) = .done := by
      rw [slotNamed_byte]
      rfl
    have start := Comes.taken num .done s
    have slots : (taken num .done s).slots = s.slots := (congrArg State.slots start.port :)
    have effect : setUnblock [byte (slotNo i)] (taken num .done s) = unblockSlot i (taken num .done s) := by
      unfold setUnblock
      rw [slotNamed_byte]
    rw [unblockSlot_eq (by rw [slots]; exact hnot), slots] at effect
    have finished {sl : Slot} (h : sl.isHeld = (s.slots.at i).isHeld ∧ sl.inUse = (s.slots.at i).inUse) (u : State)
        (hu : u.slots = s.slots.put i sl) (hh : u.holdover = s.holdover) (hm : u.mode = s.mode) : EventsFinished u := by
      refine he.of_alike (fun j => ?_) hh hm
      rw [hu, Table.at_put]
      split
      · next hj => rw [hj]; exact h
      · exact ⟨rfl, rfl⟩
    cases hs : s.slots.at i with
    | free =>
      rw [hs] at effect
      exact .answeredEvent rfl ht judge effect start (.of_same rfl he) fun y made reply => ⟨reply, made, rfl⟩
    | blocked why =>
      rw [hs] at effect finished
      dsimp only at effect
      have told := start.map (fun x => { x with slots := x.slots.put i .free, free := x.free ++ [i] }) fun _ _ => rfl
      rw [slots] at told
      exact .answeredEvent rfl ht judge effect told (.of_nobody rfl rfl hwait (finished (sl := .free) ⟨rfl, rfl⟩ _ rfl rfl rfl)) fun y made reply => ⟨reply, made, rfl⟩
    | reserved c b =>
      rw [hs] at effect finished
      dsimp only at effect
      have told := start.map (fun x => { x with slots := x.slots.put i (.reserved c false) }) fun _ _ => rfl
      rw [slots] at told
      exact .answeredEvent rfl ht judge effect told (.of_nobody rfl rfl hwait (finished (withBlockPending_alike false (.reserved c b)) _ rfl rfl rfl)) fun y made reply => ⟨reply, made, rfl⟩
    | busy c b =>
      rw [hs] at effect finished
      dsimp only at effect
      have told := start.map (fun x => { x with slots := x.slots.put i (.busy c false) }) fun _ _ => rfl
      rw [slots] at told
      exact .answeredEvent rfl ht judge effect told (.of_nobody rfl rfl hwait (finished (withBlockPending_alike false (.busy c b)) _ rfl rfl rfl)) fun y made reply => ⟨reply, made, rfl⟩
    | held c b =>
      rw [hs] at effect finished
      dsimp only at effect
      have told := start.map (fun x => { x with slots := x.slots.put i (.held c false) }) fun _ _ => rfl
      rw [slots] at told
      exact .answeredEvent rfl ht judge effect told (.of_nobody rfl rfl hwait (finished (withBlockPending_alike false (.held c b)) _ rfl rfl rfl)) fun y made reply => ⟨reply, made, rfl⟩
    | clearing p tag side b =>
      rw [hs] at effect finished
      dsimp only at effect
      have told := start.map (fun x => { x with slots := x.slots.put i (.clearing p tag side false) }) fun _ _ => rfl
      rw [slots] at told
      exact .answeredEvent rfl ht judge effect told (.of_nobody rfl rfl hwait (finished (withBlockPending_alike false (.clearing p tag side b)) _ rfl rfl rfl)) fun y made reply => ⟨reply, made, rfl⟩

/-! ## TRUNK_RELEASE (R136) -/

/-- The link as RESYNC begins, its report and RESTART apart. -/
def resyncBegun (s : State) : State :=
  setLink .resync { s with score := 0, run := 0, releaseFlag := false, holdover := none, assembler := .hunting }

theorem makeRestart_eq (s : State) : makeRestart s = if s.restartOwed ∧ s.link = .resync ∧ freePlace s then
    { s with txq := s.txq ++ [{ msg := .ofNone .restart, pinned := false }], restartOwed := false } else s := by
  unfold makeRestart addEntry
  rfl

theorem oweRestart_withPort (again : Bool) (s : State) (y : PortSide) : oweRestart again (s.withPort y) = (oweRestart again s).withPort y := by
  unfold oweRestart
  rw [makeRestart_eq, makeRestart_eq]
  have free : freePlace ({ s.withPort y with restartOwed := true, restartRepeat := again } : State)
      = freePlace ({ s with restartOwed := true, restartRepeat := again } : State) := rfl
  have link : (s.withPort y).link = s.link := rfl
  dsimp only
  rw [free, link]
  split <;> rfl

theorem oweRestart_rest (again : Bool) (s : State) : ∃ txq owed, oweRestart again s = { s with txq := txq, restartOwed := owed, restartRepeat := again } := by
  unfold oweRestart
  rw [makeRestart_eq]
  split
  · exact ⟨_, _, rfl⟩
  · exact ⟨s.txq, true, rfl⟩

theorem Comes.resync {s u t : State} {rs : List Report} {n : Nat} (h : Comes s rs u t) (hr : Room n s) (hn : rs.length < n) :
    Comes s (rs ++ [.linkEvent .resync 0]) (oweRestart false (resyncBegun u)) (enterResync t) := by
  have begun := h.map resyncBegun fun _ _ => rfl
  have told := begun.report (.linkEvent .resync 0) hr hn
  exact told.map (oweRestart false) (oweRestart_withPort false)

theorem releaseTrunk_down {s : State} (h : s.link = .down) : releaseTrunk s = { s with releaseFlag := true } := by
  unfold releaseTrunk
  rw [h]

theorem releaseTrunk_recovered {s : State} (h : s.link = .recovered) : releaseTrunk s = enterResync s := by
  unfold releaseTrunk
  rw [h]

theorem releaseTrunk_messages {s : State} (h : s.link.messages = true) : releaseTrunk s = s := by
  unfold releaseTrunk
  cases hl : s.link <;> rw [hl] at h <;> first | rfl | exact nomatch h

/-- Settles O56, by the link. -/
theorem trunkReleaseActsByTheLink : Obligations.TrunkReleaseActsByTheLink := by
  intro num s ht hroom
  have room := taken_room num .done hroom
  have start := Comes.taken num .done s
  have link : (taken num .done s).link = s.link := (congrArg State.link start.port :)
  have judge (y : PortSide) : (fun _ => doneUnless (badUnless (emptyBody []))) (s.withPort y) = .done := rfl
  have still (h : s.link.messages = true) : Answers (.trunkRelease num []) s fun t =>
      Replied t num .done ∧ Made s t [] ∧ t.apartFromPort = s.apartFromPort :=
    .answered rfl ht judge (fun _ => by simp) (releaseTrunk_messages (by rw [link]; exact h)) start fun y made reply => ⟨reply, made, rfl⟩
  suffices by_link : ∀ l, s.link = l → Answers (.trunkRelease num []) s fun t =>
      Replied t num .done
      ∧ match l with
        | .down => Made s t [] ∧ t.apartFromPort = ({ s with releaseFlag := true } : State).apartFromPort
        | .recovered => t.link = .resync ∧ t.score = 0 ∧ t.run = 0 ∧ t.releaseFlag = false ∧ t.holdover = none
            ∧ Made s t [.linkEvent .resync 0]
        | _ => Made s t [] ∧ t.apartFromPort = s.apartFromPort from by_link _ rfl
  intro l hl
  cases l with
  | down =>
    have told := start.map (fun x => { x with releaseFlag := true }) fun _ _ => rfl
    exact .answered rfl ht judge (fun _ => by simp) (releaseTrunk_down (link.trans hl)) told fun y made reply => ⟨reply, made, rfl⟩
  | recovered =>
    have told := start.resync room (by decide)
    obtain ⟨txq, owed, restart⟩ := oweRestart_rest false (resyncBegun s)
    rw [restart] at told
    exact .answered rfl ht judge (fun _ => by simp) (releaseTrunk_recovered (link.trans hl)) told
      fun y made reply => ⟨reply, rfl, rfl, rfl, rfl, rfl, made⟩
  | up => exact still (by rw [hl]; rfl)
  | warned => exact still (by rw [hl]; rfl)
  | impaired => exact still (by rw [hl]; rfl)
  | resync => exact still (by rw [hl]; rfl)

end Sys2Proof.Machine
end

