-- ==== Sys2Proof/Proofs/Records.lean ====
section
/-! PROOF. The receiver and the transmitter go on (O44), and a report that finds the queue full (O45). -/

namespace Sys2Proof.Machine

/-! ## A command finds the transmitter started -/

/-- Taking a request begins with the start of the transmitter. -/
theorem runRequest_serve (i : Instr) {num kind : Byte} {body : List Byte} (h : requestCode i = some (num, kind, body)) (s : State) :
    runRequest i (serve s) = runRequest i s := by
  obtain ⟨judge, effect, row, -⟩ := runRequest_row i h
  rw [row]
  exact whileRunning_serve _ s

theorem keepOutside_serve (s t : State) : keepOutside (serve s) t = keepOutside s t := by
  rw [eq_withPort (serve_port s)]
  rfl

theorem holdReset_serve (s : State) : holdReset (serve s) = holdReset s := by
  rw [eq_withPort (serve_port s)]
  rfl

theorem execResetPinRelease_serve (test high low : Bool) {s : State} (hrun : Running s) :
    execResetPinRelease test high low (serve s) = execResetPinRelease test high low s := by
  have served : (serve s).power = .running := (serve_power s).trans hrun
  unfold execResetPinRelease
  rw [served, hrun, if_neg nofun, if_neg nofun, whileRunning_serve]

theorem execSelfTestEnd_serve (pass : Bool) {s : State} (hrun : Running s) : execSelfTestEnd pass (serve s) = execSelfTestEnd pass s := by
  have served : (serve s).power = .running := (serve_power s).trans hrun
  unfold execSelfTestEnd
  rw [served, hrun, whileRunning_serve]
  rfl

/-- Where no reply waits, the transmitter starts none. -/
theorem serve_not_replying {s : State} (hreply : s.reply = none) (htx : s.tx = .idle) : (serve s).tx.replying = false := by
  have quiet : s.tx.replying = false := by rw [htx]; rfl
  unfold serve
  split
  · simp only [hreply]
    split
    · exact quiet
    · split
      · exact quiet
      · rfl
  · exact quiet

theorem warmResetReady_of_quiet {s : State} (hwarm : s.warm ≠ .due) (htx : s.tx.replying = false) : warmResetReady s = false := by
  unfold warmResetReady
  rw [decide_eq_false hwarm, htx, Bool.and_false, Bool.false_or, Bool.and_false]

theorem execWarmResetBegin_serve {s : State} (hwarm : s.warm ≠ .due) (hreply : s.reply = none) (htx : s.tx = .idle) :
    execWarmResetBegin (serve s) = execWarmResetBegin s := by
  have served : (serve s).warm ≠ .due := (serve_keeps s).2.2 ▸ hwarm
  unfold execWarmResetBegin
  rw [warmResetReady_of_quiet served (serve_not_replying hreply htx), warmResetReady_of_quiet hwarm (by rw [htx]; rfl), whileRunning_serve]
  rfl

theorem takeMessage_serve (f : State → State) (s : State) : takeMessage f (serve s) = takeMessage f s := by
  unfold takeMessage act
  exact whileRunning_serve _ s

/-- Any command, where it finds the transmitter idle with no reply to send, does what it does once the transmitter has started. -/
theorem exec_serve (c : Instr) {s : State} (hrun : Running s) (hwarm : s.warm ≠ .due) (hreply : s.reply = none) (htx : s.tx = .idle)
    (hc : c ≠ .recordComplete) : exec c (serve s) = exec c s := by
  cases hq : requestCode c with
  | some x =>
    obtain ⟨num, kind, body⟩ := x
    rw [exec_request c hq, exec_request c hq, runRequest_serve c hq]
  | none =>
    cases c
    case resetPinAssert => exact congrArg Host.Outcome.next (holdReset_serve s)
    case resetPinRelease test high low => exact execResetPinRelease_serve test high low hrun
    case selfTestEnd pass => exact execSelfTestEnd_serve pass hrun
    case warmResetBegin => exact execWarmResetBegin_serve hwarm hreply htx
    case recordComplete => exact absurd rfl hc
    case identify | configEnterOrderly | configEnterForce | configExit | mapSet | paramSet | postureSet | groupStandby | groupWake
      | testClaimWait | testClaimForce | testRelease | slotBlock | slotUnblock | trunkRelease | alarmAck | queryLine | querySlots
      | queryQueues | queryLink | queryAlarms | warmReset | unknownRequest => exact nomatch hq
    case accept | reject | progress | headClear | headClearAck | incoming | restartAck | flow =>
      exact congrArg Host.Outcome.next (takeMessage_serve _ s)
    all_goals exact congrArg Host.Outcome.next (whileRunning_serve _ s)

/-! ## What the transmitter starts -/

theorem serve_of_report {s : State} {r : Report} {rest : List Report} (hrun : Running s) (htx : s.tx = .idle) (hreply : s.reply = none)
    (hreq : s.requests = []) (hwarm : s.warm ≠ .due) (hrep : s.reports = r :: rest) :
    serve s = { s with tx := .sendingReport r s.reportLost 0, reports := rest, reportLost := false } := by
  unfold serve
  rw [if_pos ⟨hrun, htx⟩]
  simp only [hreply, hreq, hrep, hwarm, ne_eq, not_true_eq_false, or_self, if_false]

theorem serve_of_reply {s : State} {y : Reply} (hrun : Running s) (htx : s.tx = .idle) (hreply : s.reply = some y) :
    serve s = { s with tx := .sendingReply s.requestLost 0, requestLost := false } := by
  unfold serve
  rw [if_pos ⟨hrun, htx⟩]
  simp only [hreply]

theorem serve_of_request {s : State} (htx : s.tx = .idle) (hreply : s.reply = none) (hreq : s.requests ≠ []) : serve s = s :=
  serve_eq_self (.inr ⟨hreply, .inl hreq⟩)

theorem exec_recordComplete {s : State} (hrun : Running s) : exec .recordComplete s = .next (endRecord s) :=
  congrArg Host.Outcome.next (if_pos hrun)

theorem takeOldest_of_nobody {s : State} (h : s.requests = []) : takeOldest s = s := by
  unfold takeOldest
  rw [h]

theorem takeOldest_of_first {q : Request} {rest : List Request} {s : State} (h : s.requests = q :: rest) (hreply : s.reply = none) :
    takeOldest s = runRequest (requestRow q.num q.kind q.body) s := by
  unfold takeOldest
  rw [h, hreply]
  rfl

theorem endRecord_of_report {r : Report} {lost : Bool} {n : Nat} {s : State} (h : s.tx = .sendingReport r lost n) :
    endRecord s = serve { s with tx := .idle } := by
  unfold endRecord
  rw [h]

theorem endRecord_of_reply {lost : Bool} {n : Nat} {s : State} (h : s.tx = .sendingReply lost n) :
    endRecord s = takeOldest (serve { s with tx := .idle, reply := none, warm := if s.warm = .taken then .due else s.warm }) := by
  unfold endRecord
  rw [h]
  rfl

/-- Where no WARM_RESET is taken, the end of a reply leaves it so. -/
theorem endRecord_of_reply_unwarmed {lost : Bool} {n : Nat} {s : State} (h : s.tx = .sendingReply lost n) (hwarm : s.warm = .none) :
    endRecord s = takeOldest (serve { s with tx := .idle, reply := none }) := by
  have stands : (if s.warm = .taken then .due else s.warm) = s.warm := by rw [hwarm]; rfl
  rw [endRecord_of_reply h, stands]

theorem idle_serve {s : State} (hrun : Running s) : idle (serve s) = idle s := by
  have served : (serve s).power = .running := (serve_power s).trans hrun
  unfold idle
  rw [served, hrun]
  unfold idleRunning
  rw [serve_serve]

/-- Settles O44, part by part: the receiver, the end of a reply, the end of a report, and the start of the head report. -/
theorem receiverAndTransmitterGoOn : Obligations.ReceiverAndTransmitterGoOn := by
  refine ⟨fun s hrun => congrArg Host.Outcome.next (whileRunning_of_running hrun),
    fun s hrun => congrArg Host.Outcome.next (whileRunning_of_running hrun),
    fun lost n q rest s hrun htx hwarm hreq => ?_, fun lost n r rest s hrun htx hreq hwarm hrep => ?_,
    fun lost n r y s hrun htx hreply => ?_, fun lost n s hrun htx hreq hrep => ?_,
    fun c r rest s hrun htx hreply hreq hwarm hrep hc => ?_, fun r rest s hrun htx hreply hreq hwarm hrep => ?_,
    fun r rest s hrun htx hreply hreq hwarm hrep hpend => ?_, fun s h => ?_⟩
  · have waits : serve { s with tx := .idle, reply := none } = { s with tx := .idle, reply := none } :=
      serve_of_request rfl rfl (fun empty => nomatch hreq.symm.trans empty)
    rw [exec_recordComplete hrun, exec_request _ (requestCode_requestRow q.num q.kind q.body), endRecord_of_reply_unwarmed htx hwarm, waits]
    exact congrArg Host.Outcome.next (takeOldest_of_first (s := { s with tx := .idle, reply := none }) hreq rfl)
  · have started := serve_of_report (s := { s with tx := .idle, reply := none }) hrun rfl rfl hreq
      (fun due => nomatch hwarm.symm.trans due) hrep
    rw [exec_recordComplete hrun, endRecord_of_reply_unwarmed htx hwarm, started]
    exact congrArg Host.Outcome.next (takeOldest_of_nobody hreq)
  · have started := serve_of_reply (s := { s with tx := .idle }) hrun rfl hreply
    rw [exec_recordComplete hrun, endRecord_of_report htx, started]
  · have still := serve_eq_self (s := { s with tx := .idle, reply := none, warm := if s.warm = .taken then .due else s.warm })
      (.inr ⟨rfl, .inr (.inr hrep)⟩)
    rw [exec_recordComplete hrun, endRecord_of_reply htx, still]
    exact congrArg Host.Outcome.next (takeOldest_of_nobody hreq)
  · rw [← serve_of_report hrun htx hreply hreq hwarm hrep, exec_serve c hrun hwarm hreply htx hc]
  · rw [exec_recordComplete hrun, ← serve_of_report hrun htx hreply hreq hwarm hrep]
    unfold endRecord
    rw [htx]
  · rw [← serve_of_report hrun htx hreply hreq hwarm hrep, step_idle hpend,
      step_idle (s := serve s) ((congrArg State.pending (serve_port s) :).trans hpend), idle_serve hrun]
  · exact serve_eq_self (h.imp id fun quiet => ⟨quiet.1, .inr (.inr quiet.2)⟩)

/-- Settles O45: the misdial's report finds 32 waiting. -/
theorem fullReportQueueLosesTheReport : Obligations.FullReportQueueLosesTheReport := by
  intro p s hrun hdec hsam hover htx hfull
  have busy : serve s = s := serve_eq_self (.inl htx)
  have exec_eq := exec_digitComplete_of_decodes hrun hdec hsam (.inr hover)
  rw [busy, completeDigit_of_overrun hover] at exec_eq
  have full : ¬ (digitSample p s).reports.length < Config.reportPlaces := by
    show ¬ s.reports.length < 32
    omega
  have lost : noteEvent p .misdial (digitSample p s) = { digitSample p s with reportLost := true } := by
    unfold noteEvent report queueReport
    rw [if_neg full]
    exact serve_eq_self (.inl htx)
  rw [lost] at exec_eq
  exact ⟨_, exec_eq, rfl, rfl, rfl, by simp [digitSample, Scanner.trainCleared]⟩

end Sys2Proof.Machine
end

