-- ==== Sys2Proof/Proofs/Sending.lean ====
section
/-! PROOF. An entry starts and completes sending (O34, O35): what each message's completion does, and what the slot makes next. -/

namespace Sys2Proof.Machine

/-! ## An event with an outcome written out -/

/-- A command whose meaning is an event has exactly the outcome that its effect has, where the event's end finds nothing to do. -/
theorem exec_of_event {c : Instr} {s u : State} {f : State → State} (hrun : Running s) (hx : exec c s = .next (act f s))
    (hf : f (s.withPort (serve s).portSide) = u.withPort (serve s).portSide) (hs : Settles s u) :
    exec c s = .next (u.withPort (serve s).portSide) := by
  have served := eq_withPort (serve_port s)
  have ends : act f s = u.withPort (serve s).portSide := by
    rw [act_running hrun]
    calc finish (serve s) (f (serve s))
        = finish (s.withPort (serve s).portSide) (f (s.withPort (serve s).portSide)) := by rw [← served]
      _ = u.withPort (serve s).portSide := by rw [hf]; exact hs _ _
  exact hx.trans (congrArg Host.Outcome.next ends)

theorem exec_of_quiet {c : Instr} {s u : State} {f : State → State} (hrun : Running s) (hx : exec c s = .next (actQuietly f s))
    (hf : f (s.withPort (serve s).portSide) = u) : exec c s = .next u := by
  have ends : actQuietly f s = u := by
    rw [actQuietly_running hrun, eq_withPort (serve_port s)]
    exact hf
  exact hx.trans (congrArg Host.Outcome.next ends)

/-! ## Starting (R156) -/

section
variable {s : State} {e : Entry} {rest : List Entry}

theorem maySend_of_go (hgo : s.flow = .go) (hf : s.inFlight = none) (hm : s.link.messages = true) : maySend s = true :=
  (maySend_iff s).mpr ⟨hgo, hf, hm⟩

/-- An entry that sends no digits is the next to start, and takes none. -/
theorem startSending_of_other (h : e.slotMsg? ≠ some .digits) : startSending (e :: rest) s
    = { s with txq := e :: rest, inFlight := some { octets := messageOctets s e.msg [], digits := [] } } := by
  obtain ⟨m, pinned⟩ := e
  unfold startSending
  cases m with
  | ofNone m => rfl
  | ofSlot i p tag m =>
    cases m with
    | digits => exact absurd rfl h
    | _ => rfl

/-- A DIGITS that finds digits waiting is the next to start, and takes up to four. -/
theorem startSending_of_digits {i : SlotId} {p : Port} {tag : Nat} {pinned : Bool} (h : (s.buffers.at p).digits ≠ []) :
    startSending ({ msg := .ofSlot i p tag .digits, pinned := pinned } :: rest) s = { s with
      txq := { msg := .ofSlot i p tag .digits, pinned := pinned } :: rest
      inFlight := some {
        octets := trunkMessage 0x02 (byte tag :: ((s.buffers.at p).digits.take 4).map fun d => byte d.val)
        digits := (s.buffers.at p).digits.take 4 }
      buffers := s.buffers.put p { s.buffers.at p with
        digits := (s.buffers.at p).digits.drop 4, lent := min (s.buffers.at p).digits.length 4 } } := by
  have waits : digitsGone s (.ofSlot i p tag .digits) = false := decide_eq_false h
  have four : (s.buffers.at p).digits.drop (min (s.buffers.at p).digits.length 4) = (s.buffers.at p).digits.drop 4 := by
    by_cases few : (s.buffers.at p).digits.length ≤ 4
    · rw [min_eq_left few, List.drop_length, List.drop_eq_nil_of_le few]
    · rw [min_eq_right (by omega)]
  unfold startSending
  dsimp only
  rw [waits, if_neg Bool.false_ne_true, ← four]
  rfl
end

/-- Settles O34: an entry without digits, and a DIGITS. -/
theorem firstEntryStarts : Obligations.FirstEntryStarts := by
  have taken {s : State} (hgo : s.flow = .go) (hf : s.inFlight = none) (hm : s.link.messages = true) (hq : s.txq ≠ []) :
      (maySend (s.withPort (serve s).portSide) && !(s.withPort (serve s).portSide).txq.isEmpty) = true := by
    have some : s.txq.isEmpty = false := by rw [List.isEmpty_eq_false_iff]; exact hq
    rw [maySend_of_go (s := s.withPort (serve s).portSide) hgo hf hm]
    exact congrArg (!·) some
  refine ⟨fun e rest s hrun hgo hf hm hq hdig => ?_, fun i p tag pinned rest s hrun hgo hf hm hq hdig => ?_⟩
  · rw [eq_withPort (serve_port s)]
    refine exec_of_quiet hrun rfl ((if_pos (taken hgo hf hm (hq ▸ List.cons_ne_nil _ _))).trans ?_)
    have queue : (s.withPort (serve s).portSide).txq = e :: rest := hq
    rw [queue, startSending_of_other hdig, ← queue]
    rfl
  · rw [eq_withPort (serve_port s)]
    refine exec_of_quiet hrun rfl ((if_pos (taken hgo hf hm (hq ▸ List.cons_ne_nil _ _))).trans ?_)
    have queue : (s.withPort (serve s).portSide).txq = { msg := .ofSlot i p tag .digits, pinned := pinned } :: rest := hq
    rw [queue, startSending_of_digits (s := s.withPort (serve s).portSide) hdig, ← queue]
    rfl

/-! ## Completing (R157) -/

/-- The part as an entry's completion finds it: the entry has left the queue. -/
def leftQueue (rest : List Entry) (s : State) : State := { s with txq := rest, inFlight := none }

section
variable {s : State} {e : Entry} {rest : List Entry} {i : SlotId}

theorem makeRestart_of_none (h : s.restartOwed = false) : makeRestart s = s := by
  rw [makeRestart_eq, if_neg]
  rw [h]
  exact fun x => nomatch x.1

/-- An entry of a slot completes: its message has its effect, and the slot makes its next entry. -/
theorem completeEntry_of_slot {t u : State} (hq : s.txq = e :: rest) (hi : e.slot? = some i) (hm : messageSent e.msg (leftQueue rest s) = t)
    (ho : makeOwed i t = u) (hr : u.restartOwed = false) : completeEntry s = u := by
  unfold leftQueue at hm
  unfold completeEntry makeNext
  rw [hq]
  dsimp only
  rw [hm, hi]
  dsimp only
  rw [ho, makeRestart_of_none hr]

theorem completeEntry_of_free {t : State} (hq : s.txq = e :: rest) (hi : e.slot? = none) (hm : messageSent e.msg (leftQueue rest s) = t) :
    completeEntry s = makeRestart t := by
  unfold leftQueue at hm
  unfold completeEntry makeNext
  rw [hq]
  dsimp only
  rw [hm, hi]

theorem messageSent_seize {p : Port} {tag : Nat} {c : Call} {b : Bool} (hs : s.slots.at i = .reserved c b) (hd : c.direction = .out) :
    messageSent (.ofSlot i p tag .seize) s = { s with sig := s.sig.put i { s.sig.at i with
      tagKnown := true
      timer := some { kind := .seize, run := if (s.sig.at i).tagKnown then .again else .first, left := 2000 } } } := by
  unfold messageSent seizeSent
  dsimp only
  rw [hs]
  dsimp only
  rw [if_pos hd]
  unfold startReplyTimer setSig
  dsimp only
  rw [Table.at_put_same, put_put]
  rfl

theorem messageSent_clear {p former : Port} {tag t : Nat} {r r' : Reason} {b : Bool} (hs : s.slots.at i = .clearing former t (.awaitAck r) b) :
    messageSent (.ofSlot i p tag (.clear r')) s = { s with sig := s.sig.put i { s.sig.at i with
      clearSent := true
      timer := some { kind := .clear, run := if (s.sig.at i).clearSent then .again else .first, left := 2000 } } } := by
  unfold messageSent clearSentNow
  dsimp only
  rw [hs]
  dsimp only
  unfold startReplyTimer setSig
  dsimp only
  rw [Table.at_put_same, put_put]
  rfl

theorem messageSent_clearAck {p former : Port} {tag t : Nat} (hs : s.slots.at i = .clearing former t .oweAck false) :
    messageSent (.ofSlot i p tag .clearAck) s = { s with
      sig := s.sig.put i Sig.cleared, slots := s.slots.put i .free, free := s.free ++ [i]
      mark := if s.mark = some i then none else s.mark } := by
  have used : (s.slots.at i).inUse = true := by rw [hs]; rfl
  have kept : (s.slots.at i).blockPending = false := by rw [hs]; rfl
  unfold messageSent clearAckSent
  dsimp only
  rw [hs]
  dsimp only
  rw [freeSlot_eq used, kept]
  rfl

/-- What is left of a slot's signalling record when a message has gone that starts no timer. -/
structure SentUntimed (m : SlotMsg) (g g' : Sig) : Prop where
  timer : g'.timer = g.timer
  owed : g'.owed = g.owed
  tagKnown : g'.tagKnown = match m with | .seize => true | .offer _ => true | _ => g.tagKnown

/-- A message goes ahead of a clear item that is owed behind it: no timer starts. -/
theorem messageSent_of_owed {p former : Port} {tag n : Nat} {m : SlotMsg} {o : ClearOwed} {b : Bool}
    (hs : s.slots.at i = .clearing former n o.side b) (hfit : owedFits o m = true) :
    ∃ g, SentUntimed m (s.sig.at i) g ∧ messageSent (.ofSlot i p tag m) s = { s with
      sig := s.sig.put i g
      buffers := if m = .digits then s.buffers.put p { s.buffers.at p with lent := 0 } else s.buffers } := by
  have same : s.sig.put i (s.sig.at i) = s.sig := Table.put_at _ _
  cases m with
  | seize =>
    refine ⟨{ s.sig.at i with tagKnown := true }, ⟨rfl, rfl, rfl⟩, ?_⟩
    unfold messageSent seizeSent
    dsimp only
    rw [hs]
    rfl
  | digits =>
    refine ⟨s.sig.at i, ⟨rfl, rfl, rfl⟩, ?_⟩
    rw [same]
    rfl
  | flash =>
    refine ⟨s.sig.at i, ⟨rfl, rfl, rfl⟩, ?_⟩
    rw [same]
    rfl
  | answer =>
    refine ⟨s.sig.at i, ⟨rfl, rfl, rfl⟩, ?_⟩
    rw [same]
    rfl
  | clear r =>
    cases o with
    | clear r' => exact nomatch hfit
    | clearAck =>
      refine ⟨{ s.sig.at i with clearSent := true }, ⟨rfl, rfl, rfl⟩, ?_⟩
      unfold messageSent clearSentNow
      dsimp only
      rw [hs]
      rfl
  | clearAck => cases o <;> exact nomatch hfit
  | offer ref =>
    refine ⟨{ s.sig.at i with tagKnown := true }, ⟨rfl, rfl, rfl⟩, rfl⟩

theorem messageSent_inCall {p : Port} {tag : Nat} {m : SlotMsg} (hm : m ∈ [SlotMsg.answer, .flash, .digits]) :
    messageSent (.ofSlot i p tag m) s
      = { s with buffers := if m = .digits then s.buffers.put p { s.buffers.at p with lent := 0 } else s.buffers } := by
  simp only [List.mem_cons, List.not_mem_nil, or_false] at hm
  rcases hm with rfl | rfl | rfl <;> rfl

/-- The completion of an entry without a slot does nothing but for a RESTART. -/
theorem messageSent_other {e : Entry} (hi : e.slot? = none) (h : e.msg ≠ .ofNone .restart) : messageSent e.msg s = s := by
  obtain ⟨m, pinned⟩ := e
  cases m with
  | ofSlot i p tag m => exact nomatch hi
  | ofNone m =>
    cases m with
    | restart => exact absurd rfl h
    | _ => rfl

theorem messageSent_restart (s : State) : messageSent (.ofNone .restart) s = { s with
    restartTimer := if s.link = .resync then some (if s.restartRepeat then .again else .first, 2000) else s.restartTimer } := by
  unfold messageSent restartSent
  dsimp only
  split <;> rfl

theorem party_of_clearing {sl : Slot} {p : Port} {n : Nat} {side : ClearSide} {b : Bool} (h : sl = .clearing p n side b) :
    sl.party? = some (p, n) := by
  rw [h]
  rfl

theorem hasEntry_of_none {q : List Entry} (h : ∀ e ∈ q, e.slot? ≠ some i) (hq : s.txq = q) : hasEntry s i = false := by
  unfold hasEntry
  rw [hq, List.any_eq_false]
  exact fun e he => by rw [decide_eq_true_eq]; exact h e he

theorem party_of_busy {sl : Slot} {c : Call} {b : Bool} (h : sl = .busy c b) : sl.party? = some (c.line, c.tag) := by
  rw [h]
  rfl

theorem flashMade {l : Line} (ha : l.answerOwed = false) :
    ({ l with flashOwed := false } : Line) = { l with answerOwed := false, flashOwed := l.answerOwed && l.flashOwed } := by
  obtain ⟨state, call, timer, answer, flash, fault⟩ := l
  simp_all

theorem nothingOwed {l : Line} (ha : l.answerOwed = false) (hf : l.flashOwed = false) :
    ({ l with answerOwed := false, flashOwed := l.answerOwed && l.flashOwed } : Line) = l := by
  obtain ⟨state, call, timer, answer, flash, fault⟩ := l
  simp_all

/-- The line of a BUSY slot makes the first thing that it owes. -/
theorem makeOwed_of_busy {c : Call} {b : Bool} (hs : s.slots.at i = .busy c b) (hact : (s.lines.at c.line).state.active = true)
    (he : hasEntry s i = false) (ho : (s.sig.at i).owed = none) : makeOwed i s = { s with
      lines := s.lines.put c.line { s.lines.at c.line with
        answerOwed := false, flashOwed := (s.lines.at c.line).answerOwed && (s.lines.at c.line).flashOwed }
      txq := s.txq ++ (if (s.lines.at c.line).answerOwed then [{ msg := .ofSlot i c.line c.tag .answer, pinned := false }]
        else if (s.lines.at c.line).flashOwed then [{ msg := .ofSlot i c.line c.tag .flash, pinned := false }]
        else if (s.buffers.at c.line).digits = [] then []
        else [{ msg := .ofSlot i c.line c.tag .digits, pinned := false }]) } := by
  have party := party_of_busy hs
  rw [makeOwed_of_line he ho hs]
  by_cases ha : (s.lines.at c.line).answerOwed = true
  · rw [makeLineOwed_answer ha, addSlotEntry_tail i .answer (s := setLine _ _ s) party, if_pos ha, ha, Bool.true_and]
    rfl
  · have hna := Bool.eq_false_of_not_eq_true ha
    by_cases hf : (s.lines.at c.line).flashOwed = true
    · rw [makeLineOwed_flash hna hf, addSlotEntry_tail i .flash (s := setLine _ _ s) party, if_neg ha, if_pos hf, flashMade hna]
      rfl
    · have hnf := Bool.eq_false_of_not_eq_true hf
      rw [if_neg ha, if_neg hf, nothingOwed hna hnf, Table.put_at]
      by_cases hd : (s.buffers.at c.line).digits = []
      · rw [makeLineOwed_nothing hna hnf (fun x => x.2 hd), if_pos hd, List.append_nil]
      · rw [makeLineOwed_digits hna hnf ⟨hact, hd⟩, addSlotEntry_tail i .digits party, if_neg hd]
        rfl
end

theorem inFlight_isSome {s : State} {f : InFlight} (h : s.inFlight = some f) (y : PortSide) : (s.withPort y).inFlight.isSome = true :=
  (congrArg Option.isSome h :)

theorem owed_put {sig : Table 20 Sig} {i : SlotId} {g : Sig} (h : g.owed = none) : ((sig.put i g).at i).owed = none := by
  rw [Table.at_put_same]
  exact h

theorem not_busy_of_unjoined {s : State} {i : SlotId} {c : Call} {b : Bool} (h : joined s i = none) : s.slots.at i ≠ .busy c b := by
  intro busy
  unfold joined at h
  rw [busy] at h
  exact nomatch h

/-- Settles O35, message by message. -/
theorem entryCompletes : Obligations.EntryCompletes := by
  refine ⟨fun i c b tag p pinned rest f s hrun hf hq hs hd ho hr he => ?_, fun i former p t tag r r' b pinned rest f s hrun hf hq hs ho hr he => ?_,
    fun i former p t tag pinned rest f s hrun hf hq hs hr hw he hmode => ?_, fun i p tag ref pinned rest f s hrun hf hq hs hj ho hr he => ?_,
    fun i c b p tag m pinned rest f s hrun hf hq hm hs hp hact hrest ho hr he => ?_,
    fun i former p n tag m o b pinned rest f s hrun hf hq hs ho hfit hrest hr he => ?_,
    fun pinned rest f s hrun hf hq hr he => ?_, fun e rest f s hrun hf hq hi hm hl hr hfour he => ?_⟩
  · rw [eq_withPort (serve_port s)]
    refine exec_of_event hrun rfl ((if_pos (inFlight_isSome hf _)).trans ?_) (u := { s with txq := rest, inFlight := none, sig := _ })
      (.of_same rfl he)
    exact completeEntry_of_slot hq rfl (messageSent_seize (s := leftQueue rest (s.withPort _)) hs hd)
      (makeOwed_of_nothing (owed_put ho) fun _ _ x => nomatch hs.symm.trans x) hr
  · rw [eq_withPort (serve_port s)]
    refine exec_of_event hrun rfl ((if_pos (inFlight_isSome hf _)).trans ?_) (u := { s with txq := rest, inFlight := none, sig := _ })
      (.of_same rfl he)
    exact completeEntry_of_slot hq rfl (messageSent_clear (s := leftQueue rest (s.withPort _)) hs)
      (makeOwed_of_nothing (owed_put ho) fun _ _ x => nomatch hs.symm.trans x) hr
  · have free : (s.slots.put i .free).at i = .free := Table.at_put_same _ _ _
    rw [eq_withPort (serve_port s)]
    refine exec_of_event hrun rfl ((if_pos (inFlight_isSome hf _)).trans ?_)
      (u := { s with txq := rest, inFlight := none, sig := _, slots := _, free := _, mark := _ })
      (.of_nobody rfl rfl hw (he.of_givenUp (i := i) (fun j hj => Table.at_put_other _ _ hj) (by rw [hs]; rfl) rfl rfl hmode))
    exact completeEntry_of_slot hq rfl (messageSent_clearAck (s := leftQueue rest (s.withPort _)) hs)
      (makeOwed_of_nothing (owed_put rfl) fun _ _ x => nomatch free.symm.trans x) hr
  · rw [eq_withPort (serve_port s)]
    refine exec_of_event hrun rfl ((if_pos (inFlight_isSome hf _)).trans ?_) (u := { s with txq := rest, inFlight := none, sig := _ })
      (.of_same rfl he)
    exact completeEntry_of_slot hq rfl rfl
      (makeOwed_of_nothing (s := messageSent (.ofSlot i p tag (.offer ref)) (leftQueue rest (s.withPort _)))
        (owed_put ho) fun _ _ x => not_busy_of_unjoined hj x) hr
  · subst hp
    rw [eq_withPort (serve_port s)]
    refine exec_of_event hrun rfl ((if_pos (inFlight_isSome hf _)).trans ?_)
      (u := { s with inFlight := none, buffers := _, lines := _, txq := _ }) (.of_same rfl he)
    have made := makeOwed_of_busy (s := { leftQueue rest (s.withPort (serve s).portSide) with
      buffers := if m = .digits then s.buffers.put c.line { s.buffers.at c.line with lent := 0 } else s.buffers }) hs hact
      (hasEntry_of_none hrest rfl) ho
    have digits : ((if m = .digits then s.buffers.put c.line { s.buffers.at c.line with lent := 0 } else s.buffers).at c.line).digits
        = (s.buffers.at c.line).digits := by
      split
      · rw [Table.at_put_same]
      · rfl
    dsimp only at made
    rw [digits] at made
    exact completeEntry_of_slot hq rfl (messageSent_inCall (s := leftQueue rest (s.withPort _)) hm) made hr
  · obtain ⟨g, sent, message⟩ := messageSent_of_owed (p := p) (tag := tag) (s := leftQueue rest (s.withPort (serve s).portSide)) hs hfit
    have owed : (((s.sig.put i g).at i).owed) = some o := by
      rw [Table.at_put_same, sent.owed]
      exact ho
    have made := (makeOwed_of_owed (s := { leftQueue rest (s.withPort (serve s).portSide) with
      sig := s.sig.put i g, buffers := if m = .digits then s.buffers.put p { s.buffers.at p with lent := 0 } else s.buffers })
      (hasEntry_of_none hrest rfl) owed).trans (addSlotEntry_tail i o.msg (party_of_clearing hs))
    have done : exec .entryComplete s = .next (({ s with
        txq := rest ++ [{ msg := .ofSlot i former n o.msg, pinned := false }], inFlight := none
        sig := (s.sig.put i g).put i { (s.sig.put i g).at i with owed := none }
        buffers := if m = .digits then s.buffers.put p { s.buffers.at p with lent := 0 } else s.buffers } : State).withPort
          (serve s).portSide) := by
      refine exec_of_event hrun rfl ((if_pos (inFlight_isSome hf _)).trans ?_) (.of_same rfl he)
      exact completeEntry_of_slot (s := s.withPort _) hq rfl message made hr
    rw [put_put, Table.at_put_same] at done
    refine ⟨_, done, rfl, ?_, ?_, ?_, fun j hj => Table.at_put_other _ _ hj, ?_⟩
    · exact (congrArg Sig.owed (Table.at_put_same _ _ _) :)
    · exact (congrArg Sig.timer (Table.at_put_same _ _ _) :).trans sent.timer
    · exact (congrArg Sig.tagKnown (Table.at_put_same _ _ _) :).trans sent.tagKnown
    · rw [eq_withPort (serve_port s)]
      rfl
  · rw [eq_withPort (serve_port s)]
    refine exec_of_event hrun rfl ((if_pos (inFlight_isSome hf _)).trans ?_) (u := { s with txq := rest, inFlight := none, restartTimer := _ })
      (.of_same rfl he)
    exact (completeEntry_of_free (s := s.withPort _) hq rfl (messageSent_restart _)).trans (makeRestart_of_none hr)
  · have place : freePlace (leftQueue rest s) = true := by
      refine decide_eq_true ?_
      rw [hq, List.filter_cons_of_pos (by rw [hi]; rfl), List.length_cons] at hfour
      show (rest.filter _).length < 4
      omega
    rw [eq_withPort (serve_port s)]
    refine exec_of_event hrun rfl ((if_pos (inFlight_isSome hf _)).trans ?_) (u := { s with txq := _, inFlight := none, restartOwed := _ })
      (.of_same rfl he)
    exact (completeEntry_of_free (s := s.withPort _) hq hi (messageSent_other hi hm)).trans ((makeRestart_eq _).trans (if_pos ⟨hr, hl, place⟩))

end Sys2Proof.Machine
end

