-- ==== Sys2Proof/Proofs/HeadReplies.lean ====
section
/-! PROOF. The head terminal's replies to a SEIZE, and its PROGRESS (O36, O37). -/

namespace Sys2Proof.Machine

/-! ## A message from its command to its end -/

theorem exec_of_message {c : Instr} {s u : State} {f : State → State} (hrun : Running s) (hx : exec c s = .next (takeMessage f s))
    (hm : s.link.messages = true) (hf : f (s.withPort (serve s).portSide) = u.withPort (serve s).portSide) (hs : Settles s u) :
    exec c s = .next (u.withPort (serve s).portSide) :=
  exec_of_event hrun hx ((if_pos hm).trans hf) hs

theorem taken_message {f : State → State} {s : State} (hm : s.link.messages = true) :
    (if (serve s).link.messages then f (serve s) else serve s) = f (serve s) :=
  if_pos ((of_served (fun x => x.link.messages) (fun _ _ => rfl) s).trans hm)

/-- One slot's record changes to one that counts alike. -/
theorem Settles.of_slot {s u : State} {i : SlotId} {sl : Slot} (hs : u.slots = s.slots.put i sl)
    (hsl : sl.counted = (s.slots.at i).counted ∧ sl.isHeld = (s.slots.at i).isHeld ∧ sl.inUse = (s.slots.at i).inUse)
    (h : endSide { u with slots := s.slots } = endSide s) (he : EventsFinished s) : Settles s u := by
  have alike (j : SlotId) : (u.slots.at j).counted = (s.slots.at j).counted ∧ (u.slots.at j).isHeld = (s.slots.at j).isHeld
      ∧ (u.slots.at j).inUse = (s.slots.at j).inUse := by
    rw [hs, Table.at_put]
    split
    · next hj => rw [hj]; exact hsl
    · exact ⟨rfl, rfl, rfl⟩
  have count : activeCount u = activeCount s := by
    unfold activeCount
    exact congrArg (fun f => (allSlots.filter f).length) (funext fun j => (alike j).1)
  simp only [endSide, EndSide.mk.injEq] at h
  obtain ⟨wait, free, -, mark, link, posture, mode, cells, holdover⟩ := h
  exact .of_quiet cells posture (attemptCaused_of_same wait free count link posture mode mark)
    (he.of_alike (fun j => (alike j).2) holdover mode)

/-! ## Operations that do not look at the sending side -/

theorem makeLineOwed_withPort (i : SlotId) (p : Port) (s : State) (y : PortSide) :
    makeLineOwed i p (s.withPort y) = (makeLineOwed i p s).withPort y := by
  have lines : (s.withPort y).lines = s.lines := rfl
  have buffers : (s.withPort y).buffers = s.buffers := rfl
  unfold makeLineOwed
  dsimp only
  rw [lines, buffers]
  split
  · exact addSlotEntry_withPort i (setLine p _ s) y false .answer
  · split
    · exact addSlotEntry_withPort i (setLine p _ s) y false .flash
    · split
      · exact addSlotEntry_withPort i s y false .digits
      · rfl

theorem makeOwed_withPort (i : SlotId) (s : State) (y : PortSide) : makeOwed i (s.withPort y) = (makeOwed i s).withPort y := by
  have entry : hasEntry (s.withPort y) i = hasEntry s i := rfl
  have sig : (s.withPort y).sig = s.sig := rfl
  have slots : (s.withPort y).slots = s.slots := rfl
  unfold makeOwed
  rw [entry, sig, slots]
  split
  · rfl
  · split
    · exact addSlotEntry_withPort i (setClearOwed i none s) y false _
    · split
      · exact makeLineOwed_withPort i _ s y
      · rfl

/-! ## ACCEPT (R146) -/

theorem awaitingReply_eq {s : State} {tag : Byte} {i : SlotId} {c : Call} {b : Bool} (ht : slotOfTag s tag.toNat = some i)
    (hs : s.slots.at i = .reserved c b) (hd : c.direction = .out) (hk : (s.sig.at i).tagKnown = true) :
    awaitingReply s tag = some (i, c, b) := by
  unfold awaitingReply
  rw [ht]
  dsimp only
  rw [hs]
  exact if_pos ⟨hd, hk⟩

/-- The slot of an answered SEIZE, with its timer stopped and a repeat of the SEIZE gone. -/
def answered (i : SlotId) (s : State) : State := removeEntries i (stopReplyTimer i s)

theorem answered_eq (i : SlotId) (s : State) : answered i s = { s with
    sig := s.sig.put i { s.sig.at i with timer := none }
    txq := s.txq.filter fun e => decide (e.slot? ≠ some i)
    inFlight := if flightSlot s = some i then none else s.inFlight } := rfl

theorem not_mem_answered {i : SlotId} {s : State} : ∀ e ∈ (answered i s).txq, e.slot? ≠ some i :=
  fun _ he => of_decide_eq_true (List.mem_filter.mp he).2

/-- A line goes from SEIZING to ACTIVE_OUT. -/
theorem moveLine_connected {s : State} {p : Port} (i : SlotId) (hst : (s.lines.at p).state = .seizing) :
    moveLine p .activeOut (some (i, .out)) none s = { s with
      lines := s.lines.put p ((s.lines.at p).moved .activeOut (some (i, .out)) none)
      scan := s.scan.put p ((s.scan.at p).lineMoved (s.ports.at p) .seizing .activeOut) } := by
  have stays : ¬ LeavesRing p .activeOut s := by
    unfold LeavesRing
    rw [hst]
    exact fun x => nomatch x.1
  rw [moveLine_eq, if_neg stays, if_neg stays, if_neg stays, hst]
  rfl

/-- The part as an ACCEPT leaves it, what the line then owes apart. -/
def connected (i : SlotId) (c : Call) (b : Bool) (s : State) : State :=
  moveLine c.line .activeOut (some (i, .out)) none (setSlot i (.busy c b) (answered i s))

theorem connected_eq {s : State} {c : Call} (i : SlotId) (b : Bool) (hst : (s.lines.at c.line).state = .seizing) :
    connected i c b s = { s with
      lines := s.lines.put c.line ((s.lines.at c.line).moved .activeOut (some (i, .out)) none)
      scan := s.scan.put c.line ((s.scan.at c.line).lineMoved (s.ports.at c.line) .seizing .activeOut)
      slots := s.slots.put i (.busy c b), sig := s.sig.put i { s.sig.at i with timer := none }
      txq := s.txq.filter fun e => decide (e.slot? ≠ some i)
      inFlight := if flightSlot s = some i then none else s.inFlight } := by
  have flat : setSlot i (.busy c b) (answered i s) = { s with
      slots := s.slots.put i (.busy c b), sig := s.sig.put i { s.sig.at i with timer := none }
      txq := s.txq.filter fun e => decide (e.slot? ≠ some i)
      inFlight := if flightSlot s = some i then none else s.inFlight } := rfl
  unfold connected
  rw [flat]
  exact moveLine_connected i hst

/-- A connected line owes its waiting digits and nothing else. -/
theorem makeOwed_connected {s : State} {i : SlotId} {c : Call} {b : Bool} (hst : (s.lines.at c.line).state = .seizing)
    (hfl : (s.lines.at c.line).flashOwed = false) (ho : (s.sig.at i).owed = none) : makeOwed i (connected i c b s) = { connected i c b s with
      txq := (s.txq.filter fun e => decide (e.slot? ≠ some i))
        ++ (if (s.buffers.at c.line).digits = [] then [] else [{ msg := .ofSlot i c.line c.tag .digits, pinned := false }]) } := by
  have line : (connected i c b s).lines.at c.line = (s.lines.at c.line).moved .activeOut (some (i, .out)) none := by
    rw [connected_eq i b hst]
    exact Table.at_put_same _ _ _
  have noAnswer : ((connected i c b s).lines.at c.line).answerOwed = false := by
    rw [line]
    exact Bool.and_false _
  have noFlash : ((connected i c b s).lines.at c.line).flashOwed = false := by
    rw [line]
    exact (congrArg (· && _) hfl).trans (Bool.false_and _)
  have made := makeOwed_of_busy (s := connected i c b s) (i := i) (c := c) (b := b) (by rw [connected_eq i b hst]; exact Table.at_put_same _ _ _)
    (by rw [line]; rfl) (hasEntry_of_none (q := (answered i s).txq) not_mem_answered (by rw [connected_eq i b hst]; rfl))
    (by rw [connected_eq i b hst]; exact owed_put ho)
  rw [made, nothingOwed noAnswer noFlash, Table.put_at, noAnswer, noFlash, connected_eq i b hst]
  rfl

/-- Settles O36: the slot and its entries first, then the line, then what it owes. -/
theorem acceptConnectsTheCall : Obligations.AcceptConnectsTheCall := by
  intro tag i c b s hrun hm ht hs hd hk ho hst hfl he hroom
  have told := (((Comes.served s).map (fun x => setSlot i (.busy c b) (answered i x)) fun _ _ => rfl).enterLine c.line
    (st := .activeOut) (some (i, .out)) none .normal rfl hroom (by simp)).map (makeOwed i) (makeOwed_withPort i)
  have owed : makeOwed i (moveLine c.line .activeOut (some (i, .out)) none (setSlot i (.busy c b) (answered i s))) = _ :=
    makeOwed_connected hst hfl ho
  rw [owed, connected_eq i b hst] at told
  have taken : takeAccept tag (serve s) = connectCall i c b (serve s) := by
    unfold takeAccept
    rw [of_served (fun x => awaitingReply x tag) (fun _ _ => rfl), awaitingReply_eq ht hs hd hk]
  refine .of_event hrun rfl ((taken_message hm).trans taken) told
    (.of_slot rfl (by rw [hs]; exact ⟨rfl, rfl, rfl⟩) rfl he) fun y made => ⟨?_, ?_, ?_, ?_, ?_, rfl, rfl, made, fun q hq => ?_, fun j hj => ?_, fun j hj => ?_, rfl⟩
  · exact (congrArg Line.state (Table.at_put_same _ _ _) :)
  · exact (congrArg Line.call (Table.at_put_same _ _ _) :)
  · exact Table.at_put_same _ _ _
  · unfold joined
    have busy : (s.slots.put i (.busy c b)).at i = .busy c b := Table.at_put_same _ _ _
    dsimp only [State.withPort]
    rw [busy]
  · exact (congrArg Sig.timer (Table.at_put_same _ _ _) :)
  · exact Table.at_put_other _ _ hq
  · exact Table.at_put_other _ _ hj
  · exact Table.at_put_other _ _ hj

/-! ## REJECT and PROGRESS (R146, R147) -/

theorem freeSlot_answered {s : State} {i : SlotId} {b : Bool} (hu : (s.slots.at i).inUse = true) (hb : (s.slots.at i).blockPending = b) :
    freeSlot i (answered i s) = { s with
      slots := s.slots.put i (released b), sig := s.sig.put i Sig.cleared
      free := if b = true then s.free else s.free ++ [i], mark := if s.mark = some i then none else s.mark
      txq := s.txq.filter fun e => decide (e.slot? ≠ some i)
      inFlight := if flightSlot s = some i then none else s.inFlight } := by
  rw [freeSlot_eq (s := answered i s) hu, answered_eq, ← hb]
  dsimp only
  rw [put_put]

/-- Settles O37: the call ends with a local release, and the answer of a call is noted. -/
theorem rejectAndProgress : Obligations.RejectAndProgress := by
  refine ⟨fun tag r i c b s hrun hm ht hs hd hk hst hw he hmode hroom => ?_, fun tag i c b s hrun hm ht hs hd he => ?_⟩
  · have freed := freeSlot_answered (s := s) (by rw [hs]; rfl : (s.slots.at i).inUse = true) (by rw [hs]; rfl : (s.slots.at i).blockPending = b)
    have told := ((Comes.served s).map (fun x => freeSlot i (answered i x)) fun x y => freeSlot_withPort i (answered i x) y).enterBare c.line
      (st := .parked) r rfl (fun h => nomatch h) hroom (by rw [List.length_nil, Nat.zero_add]; exact endReports_length _ _ _ _)
    rw [lineEnds_of_uncalled (s := freeSlot i (answered i s)) (by rw [freed]; exact (congrArg LineState.called hst).trans rfl)
      (by rw [freed]; exact hw) rfl, freed] at told
    have taken : takeReject tag r (serve s) = enterBare c.line .parked r (freeSlot i (answered i (serve s))) := by
      unfold takeReject
      rw [of_served (fun x => awaitingReply x tag) (fun _ _ => rfl), awaitingReply_eq ht hs hd hk]
      rfl
    refine .of_event hrun rfl ((taken_message hm).trans taken) told
      (.of_nobody rfl rfl hw (he.of_givenUp (i := i) (fun j hj => Table.at_put_other _ _ hj) (by rw [hs]; rfl) rfl rfl hmode)) fun y made =>
      ⟨Table.at_put_same _ _ _, rfl, Table.at_put_same _ _ _, rfl, rfl, rfl, made, fun q hq => ?_, fun j hj => ?_, fun j hj => ?_, rfl⟩
    · exact Table.at_put_other _ _ hq
    · exact Table.at_put_other _ _ hj
    · exact Table.at_put_other _ _ hj
  · have noted (y : PortSide) : takeProgress tag (s.withPort y) = setSlot i (.busy { c with answered := true } b) (s.withPort y) := by
      have named : slotOfTag (s.withPort y) tag.toNat = some i := ht
      have busy : (s.withPort y).slots.at i = .busy c b := hs
      unfold takeProgress
      rw [named]
      dsimp only
      rw [busy]
      exact if_pos hd
    rw [eq_withPort (serve_port s)]
    exact exec_of_message hrun rfl hm (noted _) (u := { s with slots := s.slots.put i (.busy { c with answered := true } b) })
      (.of_slot rfl (by rw [hs]; exact ⟨rfl, rfl, rfl⟩) rfl he)

end Sys2Proof.Machine
end

