-- ==== Sys2Proof/Proofs/HeadClears.lean ====
section
/-! PROOF. A head CLEAR and a head CLEAR_ACK (O38, O39). -/

namespace Sys2Proof.Machine

/-! ## A clear item owed by a slot that the head terminal knows (Table 8.6) -/

/-- What a slot owes once a clear item is owed that has its entry's place, waits behind it, or is made. -/
def owedWith (i : SlotId) (o : ClearOwed) (s : State) : Option ClearOwed :=
  if (queuedEntry s i).isSome then (s.sig.at i).owed else if flightSlot s = some i then some o else (s.sig.at i).owed

/-- The transmit queue then. -/
def txqWith (i : SlotId) (p : Port) (n : Nat) (o : ClearOwed) (s : State) : List Entry :=
  if (queuedEntry s i).isSome then replaced i o.msg s.txq
  else if flightSlot s = some i then s.txq else s.txq ++ [{ msg := .ofSlot i p n o.msg, pinned := false }]

theorem supersede_eq {i : SlotId} (o : ClearOwed) {p : Port} {n : Nat} {s : State} (hu : ¬ UnsentSeize s i)
    (hp : (s.slots.at i).party? = some (p, n)) : supersede i o s = { s with
      sig := s.sig.put i { s.sig.at i with owed := owedWith i o s }, txq := txqWith i p n o s } := by
  unfold owedWith txqWith
  by_cases hq : (queuedEntry s i).isSome = true
  · rw [supersede_queued i o hu hq, if_pos hq, if_pos hq, Table.put_at]
    rfl
  · rw [supersede_none i o (Bool.eq_false_of_not_eq_true hq), if_neg hq, if_neg hq]
    by_cases hf : flightSlot s = some i
    · rw [if_pos hf, if_pos hf, if_pos hf]
      rfl
    · rw [if_neg hf, if_neg hf, if_neg hf, Table.put_at, addSlotEntry_tail i o.msg hp]
      rfl

theorem not_unsent_of_known {s : State} {i : SlotId} (h : (s.sig.at i).tagKnown = true) : ¬ UnsentSeize s i :=
  fun x => nomatch h.symm.trans x.2

/-- A slot of a known tag in CLEARING, with its reply timer stopped. -/
def clearing (i : SlotId) (p : Port) (n : Nat) (side : ClearSide) (b : Bool) (s : State) : State :=
  stopReplyTimer i (setSlot i (.clearing p n side b) s)

theorem supersede_clearing {i : SlotId} {p : Port} {n : Nat} {side : ClearSide} {b : Bool} (o : ClearOwed) {s : State}
    (hk : (s.sig.at i).tagKnown = true) : supersede i o (clearing i p n side b s) = { s with
      slots := s.slots.put i (.clearing p n side b)
      sig := s.sig.put i { s.sig.at i with timer := none, owed := owedWith i o s }, txq := txqWith i p n o s } := by
  have sig : (clearing i p n side b s).sig.at i = { s.sig.at i with timer := none } := Table.at_put_same _ _ _
  have party : ((clearing i p n side b s).slots.at i).party? = some (p, n) := party_of_clearing (Table.at_put_same _ _ _)
  have owed : owedWith i o (clearing i p n side b s) = owedWith i o s := by
    unfold owedWith
    rw [sig]
    rfl
  have table : (clearing i p n side b s).sig = s.sig.put i { s.sig.at i with timer := none } := rfl
  rw [supersede_eq o (not_unsent_of_known (by rw [sig]; exact hk)) party, owed, sig, table, put_put]
  rfl

theorem releaseOwing_known {i : SlotId} (o : ClearOwed) {s : State} {c : Call} (hc : (s.slots.at i).call? = some c)
    (hk : (s.sig.at i).tagKnown = true) : releaseOwing i o s = { s with
      slots := s.slots.put i (.clearing c.line c.tag o.side (s.slots.at i).blockPending)
      sig := s.sig.put i { s.sig.at i with timer := none, owed := owedWith i o s }, txq := txqWith i c.line c.tag o s } := by
  rw [← supersede_clearing o hk]
  unfold releaseOwing
  rw [hc]
  rfl

/-- The slot, its records and the queue are as Table 8.6 says. -/
theorem superseded_of_known {i : SlotId} {p : Port} {n : Nat} {b : Bool} {o : ClearOwed} {s t : State} (hk : (s.sig.at i).tagKnown = true)
    (hs : t.slots.at i = .clearing p n o.side b) (hg : t.sig.at i = { s.sig.at i with timer := none, owed := owedWith i o s })
    (hq : t.txq = txqWith i p n o s) (hi : t.inFlight = s.inFlight) (hf : t.free = s.free) : Superseded i p n b o s t := by
  refine ⟨by rw [hg], hi, fun x => absurd x (not_unsent_of_known hk), fun _ => ⟨hs, hf, ?_⟩⟩
  rw [hg, hq]
  unfold owedWith txqWith
  split
  · exact ⟨rfl, rfl⟩
  · split <;> exact ⟨rfl, rfl⟩

theorem collide_eq {i : SlotId} {p : Port} {n : Nat} {b : Bool} {s : State} (hk : (s.sig.at i).tagKnown = true) :
    collide i p n b s = { s with
      slots := s.slots.put i (.clearing p n .oweAck b)
      sig := s.sig.put i { s.sig.at i with timer := none, owed := owedWith i .clearAck s }, txq := txqWith i p n .clearAck s } := by
  have known : ((clearing i p n .oweAck b s).sig.at i).tagKnown = true := (congrArg Sig.tagKnown (Table.at_put_same _ _ _) :).trans hk
  rw [← supersede_clearing .clearAck hk]
  unfold collide
  dsimp only
  by_cases hq : (queuedEntry (clearing i p n .oweAck b s) i).isSome = true
  · exact (if_pos hq).trans (supersede_queued i .clearAck (not_unsent_of_known known) hq).symm
  · exact (if_neg hq).trans (supersede_none i .clearAck (Bool.eq_false_of_not_eq_true hq)).symm

/-! ## A head CLEAR by the slot's state (Table 8.5) -/

section
variable {i : SlotId} {r : Reason} {s : State} {tag : Byte}

theorem clearBySlot_of_call {c : Call} (hc : (s.slots.at i).call? = some c) (hk : (s.sig.at i).tagKnown = true) :
    clearBySlot i r s = some (clearCall i c r s) := by
  unfold clearBySlot
  cases hs : s.slots.at i <;> rw [hs] at hc
  case reserved d b => cases hc; exact if_pos hk
  case busy d b => cases hc; exact if_pos hk
  case held d b => cases hc; exact if_pos hk
  all_goals exact nomatch hc

theorem clearBySlot_of_awaiting {p : Port} {n : Nat} {q : Reason} {b : Bool} (hs : s.slots.at i = .clearing p n (.awaitAck q) b)
    (hk : (s.sig.at i).tagKnown = true) : clearBySlot i r s = some (collide i p n b s) := by
  unfold clearBySlot
  rw [hs]
  exact if_pos hk

theorem clearBySlot_of_owing {p : Port} {n : Nat} {b : Bool} (hs : s.slots.at i = .clearing p n .oweAck b) : clearBySlot i r s = some s := by
  unfold clearBySlot
  rw [hs]

theorem clearBySlot_of_unknown (hk : (s.sig.at i).tagKnown = false) (ho : (s.slots.at i).clearSide? ≠ some .oweAck) :
    clearBySlot i r s = none := by
  have unknown : ¬ (s.sig.at i).tagKnown = true := by rw [hk]; exact Bool.false_ne_true
  unfold clearBySlot
  cases hs : s.slots.at i with
  | clearing p n side b =>
    cases side with
    | oweAck => exact absurd (by rw [hs]; rfl) ho
    | awaitAck q => exact if_neg unknown
  | reserved c b => exact if_neg unknown
  | busy c b => exact if_neg unknown
  | held c b => exact if_neg unknown
  | free => rfl
  | blocked why => rfl

theorem takeHeadClear_of_slot {t : State} (ht : slotOfTag s tag.toNat = some i) (h : clearBySlot i r s = some t) :
    takeHeadClear tag r s = t := by
  unfold takeHeadClear
  rw [ht, Option.bind_some, h]
  rfl

theorem takeHeadClear_of_none (h : ∀ i ∈ slotOfTag s tag.toNat, clearBySlot i r s = none) :
    takeHeadClear tag r s = addFreeEntry (.clearAck tag) s := by
  unfold takeHeadClear
  cases ht : slotOfTag s tag.toNat with
  | none => rfl
  | some i =>
    rw [Option.bind_some, h i ht]
    rfl
end

/-- An entry that names no slot is made where a place is free. -/
theorem addFreeEntry_eq (m : FreeMsg) (s : State) : addFreeEntry m s
    = if (s.txq.filter fun e => decide (e.slot? = none)).length < 4 then { s with txq := s.txq ++ [{ msg := .ofNone m, pinned := false }] }
      else s := by
  unfold addFreeEntry freePlace
  simp only [decide_eq_true_eq]
  rfl

/-- The command of a message that makes an entry without a slot, and does nothing else. -/
theorem exec_of_freeEntry {c : Instr} {s : State} {m : FreeMsg} {f : State → State} (hrun : Running s) (hx : exec c s = .next (takeMessage f s))
    (hm : s.link.messages = true) (hf : ∀ y, f (s.withPort y) = addFreeEntry m (s.withPort y)) (he : EventsFinished s) :
    exec c s = .next (if (s.txq.filter fun e => decide (e.slot? = none)).length < 4
      then { serve s with txq := s.txq ++ [{ msg := .ofNone m, pinned := false }] } else serve s) := by
  rw [eq_withPort (serve_port s)]
  by_cases four : (s.txq.filter fun e => decide (e.slot? = none)).length < 4
  · rw [if_pos four]
    exact exec_of_message hrun hx hm ((hf _).trans ((addFreeEntry_eq _ _).trans (if_pos four)))
      (u := { s with txq := s.txq ++ [{ msg := .ofNone m, pinned := false }] }) (.of_same rfl he)
  · rw [if_neg four]
    exact exec_of_message hrun hx hm ((hf _).trans ((addFreeEntry_eq _ _).trans (if_neg four))) (.of_same rfl he)

/-! ## The end of a HELD call -/

/-- A command whose event comes to `u` answers with `w`, where the event's end takes `u` to `w` without a report. -/
theorem Answers.of_end {c : Instr} {s u v w : State} {f : State → State} {rs : List Report} {P : State → Prop} (hrun : Running s)
    (hx : exec c s = .next (act f s)) (hf : f (serve s) = v) (h : Comes s rs u v)
    (hs : ∀ y z, finish (s.withPort y) (u.withPort z) = w.withPort z) (hp : ∀ y, Made s (w.withPort y) rs → P (w.withPort y)) :
    Answers c s P := by
  have ends : act f s = w.withPort v.portSide := by
    rw [act_running hrun, hf, h.eq, eq_withPort (serve_port s)]
    exact hs _ _
  exact ⟨_, hx.trans (congrArg Host.Outcome.next ends), hp _ h.made⟩

/-- With nobody waiting and no ringing changed, the end of an event stops the holdover timer where no slot is HELD any longer. -/
theorem finish_stops {s u : State} (hc : u.cells = s.cells) (hp : u.posture = s.posture) (hq : u.waitQueue = [])
    (hm : u.mode = .configPending → anyInUse u = true) (y z : PortSide) : finish (s.withPort y) (u.withPort z)
      = ({ u with holdover := if anyHeld u then u.holdover else none } : State).withPort z := by
  have room : roomGained (s.withPort y) (u.withPort z) = false := roomGained_of_same hc hp
  have nobody : attempt (u.withPort z) = u.withPort z := attempt_of_nobody hq
  have stops : stopHoldover (u.withPort z) = ({ u with holdover := if anyHeld u then u.holdover else none } : State).withPort z := by
    have held : anyHeld (u.withPort z) = anyHeld u := rfl
    unfold stopHoldover
    rw [held]
    cases anyHeld u <;> rfl
  have pending : ¬ (u.mode = .configPending ∧ anyInUse u = false) := fun x => nomatch x.2.symm.trans (hm x.1)
  unfold finish
  rw [room, if_neg Bool.false_ne_true]
  dsimp only
  rw [nobody, ite_self, stops]
  exact if_neg pending

/-- One slot's record changes to one that is HELD and in use alike. -/
theorem EventsFinished.of_slot {s u : State} {i : SlotId} {sl : Slot} (he : EventsFinished s) (hs : u.slots = s.slots.put i sl)
    (hsl : sl.isHeld = (s.slots.at i).isHeld ∧ sl.inUse = (s.slots.at i).inUse) (hh : u.holdover = s.holdover) (hm : u.mode = s.mode) :
    EventsFinished u := by
  refine he.of_alike (fun j => ?_) hh hm
  rw [hs, Table.at_put]
  split
  · next hj => rw [hj]; exact hsl
  · exact ⟨rfl, rfl⟩

theorem anyInUse_of_slot {s : State} {i : SlotId} (h : (s.slots.at i).inUse = true) : anyInUse s = true := by
  unfold anyInUse
  exact List.any_eq_true.mpr ⟨i, List.mem_finRange i, h⟩

theorem joined_eq_none_of_clearing {s : State} {i : SlotId} {p : Port} {n : Nat} {side : ClearSide} {b : Bool}
    (h : s.slots.at i = .clearing p n side b) : joined s i = none := by
  unfold joined
  rw [h]

/-- Settles O38, by the slot's state. -/
theorem headClearIsAnswered : Obligations.HeadClearIsAnswered := by
  refine ⟨fun tag r i c s hrun hm ht hc hk hst hnc hw he hroom => ?_, fun tag r i c b s hrun hm ht hs hk hst hw hring hg he hroom => ?_,
    fun tag r q i p n b s hrun hm ht hs hk he => ?_, fun tag r i p n b s hrun hm ht hs he => ?_, fun tag r s hrun hm hnone he => ?_⟩
  · have given := releaseOwing_known .clearAck hc hk
    have told := ((Comes.served s).map (releaseOwing i .clearAck) fun x y => releaseOwing_withPort i x y .clearAck).enterBare c.line
      (st := .parked) r rfl (fun h => nomatch h) hroom (by rw [List.length_nil, Nat.zero_add]; exact endReports_length _ _ _ _)
    rw [lineEnds_of_uncalled (s := releaseOwing i .clearAck s) (by rw [given]; exact hnc) (by rw [given]; exact hw) rfl, given] at told
    have taken : takeHeadClear tag r (serve s) = enterBare c.line .parked r (releaseOwing i .clearAck (serve s)) := by
      have served := clearBySlot_of_call (i := i) (r := r) (s := serve s) ((of_served (fun x => x.slots) (fun _ _ => rfl) s).symm ▸ hc)
        ((of_served (fun x => x.sig) (fun _ _ => rfl) s).symm ▸ hk)
      rw [takeHeadClear_of_slot ((of_served (fun x => slotOfTag x tag.toNat) (fun _ _ => rfl) s).trans ht) served]
      unfold clearCall clearedState
      rw [serve_line, hnc]
      rfl
    refine .of_end hrun rfl ((taken_message hm).trans taken) told
      (finish_stops rfl rfl hw fun _ => anyInUse_of_slot (i := i) (by dsimp only; rw [Table.at_put_same]; rfl)) fun y made =>
      ⟨Table.at_put_same _ _ _, rfl, superseded_of_known hk (Table.at_put_same _ _ _) (Table.at_put_same _ _ _) rfl rfl rfl,
        joined_eq_none_of_clearing (Table.at_put_same _ _ _), made, fun q hq => ?_, fun j hj => ?_, fun j hj => ?_, rfl⟩
    · exact Table.at_put_other _ _ hq
    · exact Table.at_put_other _ _ hj
    · exact Table.at_put_other _ _ hj
  · have hc : (s.slots.at i).call? = some c := by rw [hs]; rfl
    have given := releaseOwing_known .clearAck hc hk
    have blocked : (s.slots.at i).blockPending = b := by rw [hs]; rfl
    rw [blocked] at given
    have told := ((Comes.served s).map (releaseOwing i .clearAck) fun x y => releaseOwing_withPort i x y .clearAck).enterBare c.line
      (st := .idle) r rfl (fun _ => by rw [given]; exact hg) hroom (by rw [List.length_nil, Nat.zero_add]; exact endReports_length _ _ _ _)
    rw [lineEnds_of_call (s := releaseOwing i .clearAck s) (by rw [given]; exact hw) rfl, given] at told
    have taken : takeHeadClear tag r (serve s) = enterBare c.line .idle r (releaseOwing i .clearAck (serve s)) := by
      have served := clearBySlot_of_call (i := i) (r := r) (s := serve s) ((of_served (fun x => x.slots) (fun _ _ => rfl) s).symm ▸ hc)
        ((of_served (fun x => x.sig) (fun _ _ => rfl) s).symm ▸ hk)
      rw [takeHeadClear_of_slot ((of_served (fun x => slotOfTag x tag.toNat) (fun _ _ => rfl) s).trans ht) served]
      unfold clearCall clearedState
      rw [serve_line, hst]
      rfl
    refine .of_event hrun rfl ((taken_message hm).trans taken) told (.of_empty hw ((if_pos hst).trans hring)
      (he.of_slot (i := i) rfl (by rw [hs]; exact ⟨rfl, rfl⟩) rfl rfl)) fun y made =>
      ⟨Table.at_put_same _ _ _, rfl, superseded_of_known hk (Table.at_put_same _ _ _) (Table.at_put_same _ _ _) rfl rfl rfl,
        not_placed_of_left (if_pos hst), (if_pos hst).trans hring, ?_, made, fun q hq => ?_, fun j hj => ?_, fun j hj => ?_, fun q hq => ?_, rfl⟩
    · dsimp only [State.withPort]
      rw [if_pos hst, Table.at_put_same]
    · exact Table.at_put_other _ _ hq
    · exact Table.at_put_other _ _ hj
    · exact Table.at_put_other _ _ hj
    · dsimp only [State.withPort]
      rw [if_pos hst]
      exact Table.at_put_other _ _ hq
  · have taken (y : PortSide) : takeHeadClear tag r (s.withPort y) = collide i p n b (s.withPort y) :=
      takeHeadClear_of_slot ht (clearBySlot_of_awaiting hs hk)
    rw [eq_withPort (serve_port s)]
    exact exec_of_message hrun rfl hm ((taken _).trans (collide_eq hk)) (u := { s with slots := _, sig := _, txq := _ })
      (.of_slot rfl (by rw [hs]; exact ⟨rfl, rfl, rfl⟩) rfl he)
  · rw [eq_withPort (serve_port s)]
    exact exec_of_message hrun rfl hm (takeHeadClear_of_slot ht (clearBySlot_of_owing hs)) (.of_same rfl he)
  · exact exec_of_freeEntry hrun rfl hm
      (fun y => takeHeadClear_of_none fun i hi => clearBySlot_of_unknown (hnone i hi).1 (hnone i hi).2) he

/-! ## A head CLEAR_ACK (R149) -/

theorem freeSlot_removed {s : State} {i : SlotId} {b : Bool} (hu : (s.slots.at i).inUse = true) (hb : (s.slots.at i).blockPending = b) :
    freeSlot i (removeEntries i s) = { s with
      slots := s.slots.put i (released b), sig := s.sig.put i Sig.cleared
      free := if b = true then s.free else s.free ++ [i], mark := if s.mark = some i then none else s.mark
      txq := s.txq.filter fun e => decide (e.slot? ≠ some i)
      inFlight := if flightSlot s = some i then none else s.inFlight } := by
  rw [freeSlot_eq (s := removeEntries i s) hu, ← hb]
  rfl

/-- Settles O39: the slot leaves CLEARING, or the message is discarded. -/
theorem clearAckEndsTheExchange : Obligations.ClearAckEndsTheExchange := by
  refine ⟨fun tag i p t r b s hrun hm ht hs hk hw he hmode => ?_, fun tag i p t r b s hrun hm ht hs hk he => ?_⟩
  · have taken (y : PortSide) : takeHeadClearAck tag (s.withPort y) = freeSlot i (removeEntries i (s.withPort y)) := by
      have named : slotOfTag (s.withPort y) tag.toNat = some i := ht
      have slot : (s.withPort y).slots.at i = .clearing p t (.awaitAck r) b := hs
      unfold takeHeadClearAck
      rw [named]
      dsimp only
      rw [slot]
      exact if_pos hk
    have freed (y : PortSide) := freeSlot_removed (s := s.withPort y) (i := i) (b := b) ((congrArg Slot.inUse hs).trans rfl)
      ((congrArg Slot.blockPending hs).trans rfl)
    rw [eq_withPort (serve_port s)]
    exact exec_of_message hrun rfl hm ((taken _).trans (freed _))
      (u := { s with slots := _, sig := _, free := _, mark := _, txq := _, inFlight := _ })
      (.of_nobody rfl rfl hw (he.of_givenUp (i := i) (fun j hj => Table.at_put_other _ _ hj) (by rw [hs]; rfl) rfl rfl hmode))
  · have taken (y : PortSide) : takeHeadClearAck tag (s.withPort y) = s.withPort y := by
      have named : slotOfTag (s.withPort y) tag.toNat = some i := ht
      have slot : (s.withPort y).slots.at i = .clearing p t (.awaitAck r) b := hs
      have unsent : ¬ ((s.withPort y).sig.at i).clearSent = true := fun x => nomatch hk.symm.trans x
      unfold takeHeadClearAck
      rw [named]
      dsimp only
      rw [slot]
      exact if_neg unsent
    rw [eq_withPort (serve_port s)]
    exact exec_of_message hrun rfl hm (taken _) (.of_same rfl he)

end Sys2Proof.Machine
end

