-- ==== Sys2Proof/Proofs/HeadFlow.lean ====
section
/-! PROOF. An INCOMING that is refused (O41), and FLOW (O43). -/

namespace Sys2Proof.Machine

/-! ## INCOMING refused (R96) -/

/-- The checks of Table 5.6, each in the words of the obligation. -/
theorem incomingRefusal_eq (s : State) (p : Port) : incomingRefusal s p
    = if s.mode ≠ .normal then some .outOfService
      else if s.link = .resync then some .outOfService
      else if (s.lines.at p).state = .test ∨ (s.lines.at p).state = .fault ∨ s.bus = .claimed p then some .outOfService
      else if (s.lines.at p).state ≠ .idle then some .busy
      else if isOrdinary s p = true ∧ ((s.link ≠ .up ∧ s.link ≠ .warned) ∨ s.posture.callLimit ≤ activeCount s) then some .congested
      else if s.free = [] then some .congested
      else none := by
  have suspended : ((s.lines.at p).state.suspended = true ∨ s.bus = .claimed p)
      ↔ ((s.lines.at p).state = .test ∨ (s.lines.at p).state = .fault ∨ s.bus = .claimed p) := by
    rw [← or_assoc]
    refine or_congr_left ?_
    cases (s.lines.at p).state <;> simp [LineState.suspended]
  have ordinary : s.link.ordinary = false ↔ s.link ≠ .up ∧ s.link ≠ .warned := by
    cases s.link <;> simp [LinkState.ordinary]
  unfold incomingRefusal
  simp only [suspended, ordinary]

theorem incomingRefusal_served (s : State) (p : Port) (y : PortSide) : incomingRefusal (s.withPort y) p = incomingRefusal s p := rfl

/-- Settles O41: the lookup, and then the checks. -/
theorem incomingIsRefused : Obligations.IncomingIsRefused := by
  intro ref number r s hrun hm he hr
  refine exec_of_freeEntry hrun rfl hm (fun y => ?_) he
  have found : lookup (s.withPort y) number.toNat = lookup s number.toNat := rfl
  unfold takeIncoming
  rw [found]
  cases hl : lookup s number.toNat with
  | none =>
    rw [hl] at hr
    rw [← Option.some.inj hr]
  | some p =>
    rw [hl] at hr
    have refused : incomingRefusal (s.withPort y) p = some r := (incomingRefusal_eq s p).trans hr
    dsimp only
    rw [refused]

/-! ## FLOW (R158, R159) -/

section
variable {s : State} {e : Entry} {rest : List Entry} {f : InFlight} {i : SlotId}

theorem takeFlow_stopNow (hgo : s.flow = .go) : takeFlow .stopNow s = stopNow s := if_pos hgo

theorem stopNow_of_none (hf : s.inFlight = none) : stopNow s = { s with flow := .stopped } := by
  unfold stopNow
  rw [hf]
  cases s.txq.head? <;> rfl

/-- The part as it stands once sending has stopped, ahead of the return of the entry. -/
def stopped (s : State) : State := { s with flow := .stopped, inFlight := none }

theorem stopNow_of_some (hf : s.inFlight = some f) (hq : s.txq = e :: rest) :
    stopNow s = match e.slot? with
      | some i => meetOwed i e (returnDigits e.msg f.digits (stopped s))
      | none => returnDigits e.msg f.digits (stopped s) := by
  have first : s.txq.head? = some e := by rw [hq]; rfl
  unfold stopNow
  dsimp only
  split
  · next e' f' he' hf' =>
    obtain rfl := Option.some.inj (first.symm.trans he')
    obtain rfl := Option.some.inj (hf.symm.trans hf')
    rfl
  · next h => exact absurd hf (h e f first)

theorem returnDigits_of_other (digits : List Digit) (h : e.slotMsg? ≠ some .digits) : returnDigits e.msg digits s = s := by
  obtain ⟨m, pinned⟩ := e
  unfold returnDigits
  cases m with
  | ofNone m => rfl
  | ofSlot i p tag m =>
    cases m with
    | digits => exact absurd rfl h
    | _ => rfl

theorem returnDigits_of_unlent {p : Port} {tag : Nat} {m : SlotMsg} (digits : List Digit) (h : m = .digits → (s.buffers.at p).lent = 0) :
    returnDigits (.ofSlot i p tag m) digits s = s := by
  unfold returnDigits
  cases m with
  | digits => exact if_neg (by rw [h rfl]; exact Nat.lt_irrefl 0)
  | _ => rfl

theorem returnDigits_of_lent {p : Port} {tag : Nat} (digits : List Digit) (h : 0 < (s.buffers.at p).lent) :
    returnDigits (.ofSlot i p tag .digits) digits s = { s with
      buffers := s.buffers.put p { s.buffers.at p with digits := digits ++ (s.buffers.at p).digits, lent := 0 } } := if_pos h

theorem meetOwed_of_none (h : (s.sig.at i).owed = none) : meetOwed i e s = s := by
  unfold meetOwed
  rw [h]

/-- The returned entry becomes the owed item, but for a SEIZE that the head terminal has not seen and a CLEAR. -/
theorem meetOwed_of_some {o : ClearOwed} (h : (s.sig.at i).owed = some o)
    (hseize : e.slotMsg? = some .seize → (s.sig.at i).tagKnown = true ∨ o = .clearAck) :
    meetOwed i e s = { s with txq := replaced i o.msg s.txq, sig := s.sig.put i { s.sig.at i with owed := none } } := by
  unfold meetOwed
  rw [h]
  cases o with
  | clearAck => rfl
  | clear r =>
    refine if_neg fun x => ?_
    rcases hseize x.1 with known | ack
    · exact nomatch known.symm.trans x.2
    · exact nomatch ack

theorem meetOwed_of_unsent {r : Reason} (h : (s.sig.at i).owed = some (.clear r)) (hm : e.slotMsg? = some .seize)
    (hk : (s.sig.at i).tagKnown = false) : meetOwed i e s = freeSlot i (removeEntries i s) := by
  unfold meetOwed
  rw [h]
  exact if_pos ⟨hm, hk⟩
end

/-- Settles O43, by what is in flight and what its slot owes. -/
theorem flowActs : Obligations.FlowActs := by
  refine ⟨fun f s hrun hm hstop he => ?_, fun s hrun hm hs he => ?_, fun i p tag pinned rest f s hrun hm hgo hf hq hl ho he => ?_,
    fun e rest f s hrun hm hgo hf hq hd ho he => ?_, fun i p tag m pinned rest o f s hrun hm hgo hf hq hl ho hk he => ?_,
    fun i former p n tag side b pinned rest r f s hrun hm hgo hf hq ho hk hs hw hmode he => ?_, fun octets s => ?_⟩
  · have taken (y : PortSide) : takeFlow f (s.withPort y) = { s.withPort y with flow := if f = .go then .go else .stopped } := by
      cases f with
      | go => rfl
      | stopAfter => rfl
      | stopNow =>
        by_cases hg : s.flow = .go
        · exact (takeFlow_stopNow (s := s.withPort y) hg).trans (stopNow_of_none (hstop rfl))
        · have stays : s.flow = .stopped := by cases hs : s.flow <;> simp_all
          refine (if_neg hg).trans ?_
          rw [if_neg (by decide), ← stays]
          rfl
    rw [eq_withPort (serve_port s)]
    exact exec_of_message hrun rfl hm (taken _) (u := { s with flow := if f = .go then .go else .stopped }) (.of_same rfl he)
  · have stays (y : PortSide) : takeFlow .stopNow (s.withPort y) = s.withPort y := if_neg fun x : s.flow = .go => nomatch hs.symm.trans x
    rw [eq_withPort (serve_port s)]
    exact exec_of_message hrun rfl hm (stays _) (.of_same rfl he)
  · have taken (y : PortSide) := (takeFlow_stopNow (s := s.withPort y) hgo).trans (stopNow_of_some hf hq)
    rw [eq_withPort (serve_port s)]
    refine exec_of_message hrun rfl hm ((taken _).trans ?_) (u := { s with flow := .stopped, inFlight := none, buffers := _ }) (.of_same rfl he)
    exact (congrArg (meetOwed i _) (returnDigits_of_lent (s := stopped (s.withPort _)) f.digits hl)).trans (meetOwed_of_none ho)
  · have taken (y : PortSide) := (takeFlow_stopNow (s := s.withPort y) hgo).trans (stopNow_of_some hf hq)
    rw [eq_withPort (serve_port s)]
    refine exec_of_message hrun rfl hm ((taken _).trans ?_) (u := { s with flow := .stopped, inFlight := none }) (.of_same rfl he)
    rw [returnDigits_of_other f.digits hd]
    cases hi : e.slot? with
    | none => rfl
    | some i => exact meetOwed_of_none (s := stopped (s.withPort _)) (ho i hi)
  · have taken (y : PortSide) := (takeFlow_stopNow (s := s.withPort y) hgo).trans (stopNow_of_some hf hq)
    rw [eq_withPort (serve_port s)]
    refine exec_of_message hrun rfl hm ((taken _).trans ?_) (u := { s with flow := .stopped, inFlight := none, txq := _, sig := _ })
      (.of_same rfl he)
    exact (congrArg (meetOwed i _) (returnDigits_of_unlent (s := stopped (s.withPort _)) f.digits hl)).trans
      (meetOwed_of_some (s := stopped (s.withPort _)) ho fun x => hk (Option.some.inj x))
  · have taken (y : PortSide) := (takeFlow_stopNow (s := s.withPort y) hgo).trans (stopNow_of_some hf hq)
    have freed (y : PortSide) := freeSlot_removed (s := stopped (s.withPort y)) (i := i) (b := b) ((congrArg Slot.inUse hs).trans rfl)
      ((congrArg Slot.blockPending hs).trans rfl)
    rw [eq_withPort (serve_port s)]
    refine exec_of_message hrun rfl hm ((taken _).trans ?_)
      (u := { s with flow := .stopped, inFlight := none, slots := _, sig := _, free := _, mark := _, txq := _ })
      (.of_nobody rfl rfl hw (he.of_givenUp (i := i) (fun j hj => Table.at_put_other _ _ hj) (by rw [hs]; rfl) rfl rfl hmode))
    exact (meetOwed_of_unsent (s := stopped (s.withPort _)) ho rfl hk).trans (freed _)
  · by_cases hrun : s.power = .running
    · exact congrArg Host.Outcome.next (whileRunning_of_running hrun)
    · have still : serve s = s := by
        unfold serve
        exact if_neg fun x => hrun x.1
      rw [still]
      exact congrArg Host.Outcome.next (if_neg hrun)

end Sys2Proof.Machine
end

