-- ==== Sys2Proof/Proofs/SlotTimers.lean ====
section
/-! PROOF. The reply timers of a slot expire (O33). -/

namespace Sys2Proof.Machine

section
variable {s : State} {i : SlotId}

theorem replyTimerRuns_iff {k : TimerKind} {r : TimerRun} {ms : Nat} (k' : TimerKind) (r' : TimerRun) (h : (s.sig.at i).timer = some ⟨k, r, ms⟩) :
    replyTimerRuns s i k' r' = true ↔ k = k' ∧ r = r' := by
  unfold replyTimerRuns
  rw [h]
  simp

theorem expireSeize_first {c : Call} {b : Bool} {ms : Nat} (hs : s.slots.at i = .reserved c b)
    (ht : (s.sig.at i).timer = some ⟨.seize, .first, ms⟩) : expireSeize i s = repeatSeize i c.line s := by
  unfold expireSeize
  rw [hs]
  exact if_pos ((replyTimerRuns_iff .seize .first ht).mpr ⟨rfl, rfl⟩)

theorem expireSeize_again {c : Call} {b : Bool} {ms : Nat} (hs : s.slots.at i = .reserved c b)
    (ht : (s.sig.at i).timer = some ⟨.seize, .again, ms⟩) : expireSeize i s = giveUpSeize i c.line s := by
  unfold expireSeize
  rw [hs]
  exact (if_neg fun x => nomatch ((replyTimerRuns_iff .seize .first ht).mp x).2).trans
    (if_pos ((replyTimerRuns_iff .seize .again ht).mpr ⟨rfl, rfl⟩))

theorem expireClear_first {p : Port} {tag : Nat} {r : Reason} {b : Bool} {ms : Nat} (hs : s.slots.at i = .clearing p tag (.awaitAck r) b)
    (ht : (s.sig.at i).timer = some ⟨.clear, .first, ms⟩) : expireClear i s = addSlotEntry false i (.clear r) (stopReplyTimer i s) := by
  unfold expireClear
  rw [hs]
  exact if_pos ((replyTimerRuns_iff .clear .first ht).mpr ⟨rfl, rfl⟩)

theorem expireClear_again {p : Port} {tag : Nat} {r : Reason} {b : Bool} {ms : Nat} (hs : s.slots.at i = .clearing p tag (.awaitAck r) b)
    (ht : (s.sig.at i).timer = some ⟨.clear, .again, ms⟩) : expireClear i s = failClear i s := by
  unfold expireClear
  rw [hs]
  exact (if_neg fun x => nomatch ((replyTimerRuns_iff .clear .first ht).mp x).2).trans
    (if_pos ((replyTimerRuns_iff .clear .again ht).mpr ⟨rfl, rfl⟩))

/-- A SEIZE made again stands where its line's class lets it. -/
theorem repeatSeize_eq {c : Call} {b : Bool} (hs : s.slots.at i = .reserved c b) : repeatSeize i c.line s = { s with
    sig := s.sig.put i { s.sig.at i with timer := none }
    txq := queueWith (isPriority s c.line) { msg := .ofSlot i c.line c.tag .seize, pinned := false } s } := by
  unfold repeatSeize
  rw [addSlotEntry_eq (p := c.line) (tag := c.tag) _ i .seize (stopReplyTimer i s) ((congrArg Slot.party? hs).trans rfl)]
  rfl
end

/-- The slot of a CLEAR that was never answered, its alarm apart. -/
def clearFailed (i : SlotId) (s : State) : State := setSlot i (.blocked .noClearAck) (clearMarkOf i (setSig i Sig.cleared s))

theorem clearFailed_eq (i : SlotId) (s : State) : clearFailed i s = { s with
    slots := s.slots.put i (.blocked .noClearAck), sig := s.sig.put i Sig.cleared, mark := if s.mark = some i then none else s.mark } := rfl

/-- Settles O33: each message goes once more, and then the slot is given up or blocked. -/
theorem slotReplyTimersExpire : Obligations.SlotReplyTimersExpire := by
  refine ⟨fun i ms c b s hrun hs ht he => ?_, fun i ms c b s hrun hs ht hst hmark hone hw hmode he hroom => ?_,
    fun i ms p tag r b s hrun hs ht he => ?_, fun i ms p tag r b s hrun hs ht ha hw he hmode hroom => ?_⟩
  · rw [eq_withPort (serve_port s)]
    exact exec_of_event hrun rfl ((expireSeize_first (s := s.withPort _) hs ht).trans (repeatSeize_eq hs)) (u := { s with sig := _, txq := _ })
      (.of_same rfl he)
  · have call : (s.slots.at i).call? = some c := by rw [hs]; rfl
    have blocked : (s.slots.at i).blockPending = b := by rw [hs]; rfl
    obtain ⟨slots, sig, free, txq, given, superseded, only, onlySig⟩ := releaseOwing_given i (.clear .noReply) call hone hmark
    have told := ((Comes.served s).map (releaseOwing i (.clear .noReply)) fun x y => releaseOwing_withPort i x y _).enterBare c.line
      (st := .parked) .noReply rfl (fun h => nomatch h) hroom (by rw [List.length_nil, Nat.zero_add]; exact endReports_length _ _ _ _)
    rw [lineEnds_of_uncalled (s := releaseOwing i (.clear .noReply) s) (by rw [given]; exact (congrArg LineState.called hst).trans rfl)
      (by rw [given]; exact hw) rfl, given] at told
    rw [blocked] at superseded
    have taken : expireSeize i (serve s) = giveUpSeize i c.line (serve s) :=
      expireSeize_again (b := b) (ms := ms) ((of_served (fun x => x.slots) (fun _ _ => rfl) s).symm ▸ hs)
        ((of_served (fun x => x.sig) (fun _ _ => rfl) s).symm ▸ ht)
    refine .of_event hrun rfl taken told (.of_nobody rfl rfl hw (he.of_givenUp only (by rw [hs]; rfl) rfl rfl hmode)) fun y made =>
      ⟨Table.at_put_same _ _ _, rfl, superseded, made, fun q hq => ?_, only, onlySig, rfl⟩
    exact Table.at_put_other _ _ hq
  · rw [eq_withPort (serve_port s)]
    refine exec_of_event hrun rfl ((expireClear_first (s := s.withPort _) hs ht).trans ?_) (u := { s with sig := _, txq := _ }) (.of_same rfl he)
    exact addSlotEntry_tail i (.clear r) (s := stopReplyTimer i (s.withPort _)) (party_of_clearing hs)
  · have told := ((Comes.served s).map (clearFailed i) fun _ _ => rfl).begins (.slotSuspect i) hroom (Nat.lt_succ_self 0)
    have none : alarmEntry (clearFailed i s) (.slotSuspect i) = none := ha
    rw [begun_of_none none, conditionBegun_of_none none, clearFailed_eq] at told
    have taken : expireClear i (serve s) = beginCondition (.slotSuspect i) (clearFailed i (serve s)) :=
      expireClear_again (p := p) (tag := tag) (r := r) (b := b) (ms := ms) ((of_served (fun x => x.slots) (fun _ _ => rfl) s).symm ▸ hs)
        ((of_served (fun x => x.sig) (fun _ _ => rfl) s).symm ▸ ht)
    exact .of_event hrun rfl taken told (.of_nobody rfl rfl hw
      (he.of_givenUp (i := i) (fun j hj => Table.at_put_other _ _ hj) (by rw [hs]; rfl) rfl rfl hmode)) fun y made =>
      ⟨rfl, rfl, rfl, rfl, made, rfl⟩

end Sys2Proof.Machine
end

