-- ==== Sys2Proof/Proofs/OffHook.lean ====
section
/-! PROOF. An off-hook on a called line (O17). -/

namespace Sys2Proof.Machine

theorem offHook_taken {p : Port} {s : State} (ha : awaitsOffHook s p = true) (hh : hookSampled s p = true) :
    (if awaitsOffHook (serve s) p && hookSampled (serve s) p then takeOffHook p (offHookSample p (serve s)) else serve s)
      = takeOffHook p (offHookSample p (serve s)) := by
  rw [of_served (fun x => awaitsOffHook x p) (fun _ _ => rfl), hookSampled_serve, ha, hh]
  rfl

theorem offHookSample_eq (p : Port) (s : State) : offHookSample p s = { s with
    scan := s.scan.put p { (s.scan.at p).closedFor (wholeSamples s.params.debounce) with hook := .offHook }
    hookPin := s.hookPin.put p true } := rfl

theorem awaitsOffHook_of_called {s : State} {p : Port} (hl : hasLine s p = true) (h : (s.lines.at p).state.called = true) :
    awaitsOffHook s p = true := by
  unfold awaitsOffHook
  rw [hl]
  cases hs : (s.lines.at p).state <;> rw [hs] at h <;> first | rfl | exact nomatch h

/-- A called line as its answer leaves it, what it then owes apart. -/
def answering (p : Port) (i : SlotId) (c : Call) (b : Bool) (s : State) : State :=
  moveLine p .activeIn (some (i, .inward)) none
    (setLine p { s.lines.at p with answerOwed := true } (setSlot i (.busy { c with answered := true } b) s))

/-- The record of a line that has answered. -/
def answeredLine (i : SlotId) (l : Line) : Line := ({ l with answerOwed := true } : Line).moved .activeIn (some (i, .inward)) none

theorem answering_eq {p : Port} {i : SlotId} {c : Call} {b : Bool} {s : State} (hc : (s.lines.at p).state.called = true) :
    answering p i c b s = { s with
      lines := s.lines.put p (answeredLine i (s.lines.at p))
      scan := s.scan.put p ((s.scan.at p).lineMoved (s.ports.at p) (s.lines.at p).state .activeIn)
      slots := s.slots.put i (.busy { c with answered := true } b)
      cells := (leaveRing p s).cells, ringQueue := s.ringQueue.erase p, ringDrive := s.ringDrive.put p false } := by
  have flat : setLine p { s.lines.at p with answerOwed := true } (setSlot i (.busy { c with answered := true } b) s) = { s with
      lines := s.lines.put p { s.lines.at p with answerOwed := true }
      slots := s.slots.put i (.busy { c with answered := true } b) } := rfl
  have line : (s.lines.put p { s.lines.at p with answerOwed := true }).at p = { s.lines.at p with answerOwed := true } :=
    Table.at_put_same _ _ _
  have leaves : LeavesRing p .activeIn ({ s with
      lines := s.lines.put p { s.lines.at p with answerOwed := true }
      slots := s.slots.put i (.busy { c with answered := true } b) } : State) := by
    refine ⟨?_, by decide⟩
    rw [line]
    exact hc
  have notQueued : ¬ ((s.lines.at p).state = .queued ∧ LineState.activeIn ≠ .queued) := by
    intro x
    rw [x.1] at hc
    exact nomatch hc
  unfold answering
  rw [flat, moveLine_eq, if_pos leaves, if_pos leaves, if_pos leaves]
  dsimp only
  rw [line, put_put, if_neg notQueued]
  rfl

theorem offHook_answered {p : Port} {i : SlotId} {d : Direction} {c : Call} {b : Bool} {s : State} (hc : (s.lines.at p).state.called = true)
    (hcall : (s.lines.at p).call = some (i, d)) (hs : s.slots.at i = .reserved c b) :
    takeOffHook p s = makeOwed i (enterLine p .activeIn (some (i, .inward)) none .normal
      (setLine p { s.lines.at p with answerOwed := true } (setSlot i (.busy { c with answered := true } b) s))) := by
  have named : slotOfLine s p = some i := by unfold slotOfLine; rw [hcall]; rfl
  have answers : takeOffHook p s = answerCall p s := by
    unfold takeOffHook
    cases hst : (s.lines.at p).state <;> rw [hst] at hc <;> first | rfl | exact nomatch hc
  rw [answers]
  unfold answerCall
  rw [named]
  dsimp only
  rw [hs]

/-- The ANSWER is made, or stays owed behind another entry of the slot. -/
theorem makeOwed_answering {p : Port} {i : SlotId} {c : Call} {b : Bool} {s : State} (hc : (s.lines.at p).state.called = true) (hp : c.line = p)
    (ho : (s.sig.at i).owed = none) : makeOwed i (answering p i c b s)
      = if hasEntry s i = true then answering p i c b s else { answering p i c b s with
          lines := s.lines.put p { answeredLine i (s.lines.at p) with answerOwed := false }
          txq := s.txq ++ [{ msg := .ofSlot i p c.tag .answer, pinned := false }] } := by
  subst hp
  have busy : (answering c.line i c b s).slots.at i = .busy { c with answered := true } b := by
    rw [answering_eq hc]
    exact Table.at_put_same _ _ _
  have line : (answering c.line i c b s).lines.at c.line = answeredLine i (s.lines.at c.line) := by
    rw [answering_eq hc]
    exact Table.at_put_same _ _ _
  have entry : hasEntry (answering c.line i c b s) i = hasEntry s i := by
    rw [answering_eq hc]
    rfl
  split
  · next h => exact makeOwed_of_entry (entry.trans h)
  · next h =>
    have owed : ((answering c.line i c b s).sig.at i).owed = none := by
      rw [answering_eq hc]
      exact ho
    have party : ((setLine c.line { answeredLine i (s.lines.at c.line) with answerOwed := false } (answering c.line i c b s)).slots.at i).party?
        = some (c.line, c.tag) :=
      party_of_busy (c := { c with answered := true }) busy
    rw [makeOwed_of_line (entry.trans (Bool.eq_false_of_not_eq_true h)) owed busy]
    dsimp only
    rw [makeLineOwed_answer (by rw [line]; rfl), line, addSlotEntry_tail i .answer party, answering_eq hc]
    unfold setTxq setLine
    dsimp only
    rw [put_put]

/-- The record of a line that has answered, and the transmit queue, by whether its ANSWER is made. -/
structure AnswerMade (p : Port) (i : SlotId) (tag : Nat) (s : State) (l : Line) (q : List Entry) : Prop where
  state : l.state = .activeIn
  call : l.call = some (i, .inward)
  timer : l.timer = none
  entry : if hasEntry s i then l.answerOwed = true ∧ q = s.txq
    else l.answerOwed = false ∧ q = s.txq ++ [{ msg := .ofSlot i p tag .answer, pinned := false }]

theorem makeOwed_answered {p : Port} {i : SlotId} {c : Call} (b : Bool) {s : State} (hc : (s.lines.at p).state.called = true) (hp : c.line = p)
    (ho : (s.sig.at i).owed = none) : ∃ l q, AnswerMade p i c.tag s l q ∧ makeOwed i (answering p i c b s) = { s with
      lines := s.lines.put p l, txq := q
      scan := s.scan.put p ((s.scan.at p).lineMoved (s.ports.at p) (s.lines.at p).state .activeIn)
      slots := s.slots.put i (.busy { c with answered := true } b)
      cells := (leaveRing p s).cells, ringQueue := s.ringQueue.erase p, ringDrive := s.ringDrive.put p false } := by
  rw [makeOwed_answering hc hp ho, answering_eq hc]
  by_cases he : hasEntry s i = true
  · rw [if_pos he]
    exact ⟨_, s.txq, ⟨rfl, rfl, rfl, by rw [if_pos he]; exact ⟨rfl, rfl⟩⟩, rfl⟩
  · rw [if_neg he]
    exact ⟨_, _, ⟨rfl, rfl, rfl, by rw [if_neg he]; exact ⟨rfl, rfl⟩⟩, rfl⟩

/-- Settles O17: the sample, the answer, and what the line then owes. -/
theorem offHookAnswersACalledLine : Obligations.OffHookAnswersACalledLine := by
  intro p i c b d s hrun hl hh hc hcall hs hp ho hw hring he hroom
  subst hp
  have told := ((((Comes.served s).map (offHookSample c.line) fun _ _ => rfl).map (fun x => setLine c.line { x.lines.at c.line with answerOwed := true }
    (setSlot i (.busy { c with answered := true } b) x)) fun _ _ => rfl).enterLine c.line (st := .activeIn) (some (i, .inward)) none .normal rfl
      hroom (by simp)).map (makeOwed i) (makeOwed_withPort i)
  obtain ⟨l, q, ⟨state, call, timer, entry⟩, owed⟩ := makeOwed_answered (s := offHookSample c.line s) (c := c) b hc rfl ho
  unfold answering at owed
  rw [owed, offHookSample_eq] at told
  dsimp only at told
  rw [put_put] at told
  have lines : (offHookSample c.line (serve s)).lines = s.lines := of_served (fun x => (offHookSample c.line x).lines) (fun _ _ => rfl) s
  have slots : (offHookSample c.line (serve s)).slots = s.slots := of_served (fun x => (offHookSample c.line x).slots) (fun _ _ => rfl) s
  have taken := offHook_answered (s := offHookSample c.line (serve s)) (p := c.line) (i := i) (d := d) (c := c) (b := b)
    (by rw [lines]; exact hc) (by rw [lines]; exact hcall) (by rw [slots]; exact hs)
  refine .of_event hrun rfl ((offHook_taken (awaitsOffHook_of_called hl hc) hh).trans taken) told
    (.of_empty hw hring (he.of_slot (i := i) rfl (by rw [hs]; exact ⟨rfl, rfl⟩) rfl rfl)) fun y made =>
    ⟨?_, ?_, ?_, Table.at_put_same _ _ _, ?_, ?_, not_placed_of_left rfl, hring, Table.at_put_same _ _ _, made, fun q hq => ?_, fun q hq => ?_,
      fun q hq => ?_, fun j hj => ?_, fun q hq => ?_, rfl⟩
  · exact (congrArg Line.state (Table.at_put_same _ _ _) :).trans state
  · exact (congrArg Line.call (Table.at_put_same _ _ _) :).trans call
  · exact (congrArg Line.timer (Table.at_put_same _ _ _) :).trans timer
  · have busy : (s.slots.put i (.busy { c with answered := true } b)).at i = .busy { c with answered := true } b := Table.at_put_same _ _ _
    unfold joined
    dsimp only [State.withPort]
    rw [busy]
  · dsimp only [State.withPort]
    rw [Table.at_put_same]
    exact entry
  · exact Table.at_put_other _ _ hq
  · exact Table.at_put_other _ _ hq
  · exact Table.at_put_other _ _ hq
  · exact Table.at_put_other _ _ hj
  · exact Table.at_put_other _ _ hq

end Sys2Proof.Machine
end

