-- ==== Sys2Proof/Proofs/Settle.lean ====
section
/-! PROOF. The end of settle (O25), and the lines it hands to the Ring Scheduler. -/

namespace Sys2Proof.Machine

/-! ## Steps taken in turn -/

theorem inTurn_withPort {α : Type} {f : α → State → State} (hf : ∀ a s y, f a (s.withPort y) = (f a s).withPort y) (xs : List α) (s : State)
    (y : PortSide) : inTurn xs f (s.withPort y) = (inTurn xs f s).withPort y := by
  induction xs generalizing s with
  | nil => rfl
  | cons a xs ih =>
    show inTurn xs f (f a (s.withPort y)) = _
    rw [hf]
    exact ih _

theorem inTurn_of_still {α : Type} {f : α → State → State} {xs : List α} {s : State} (h : ∀ a ∈ xs, f a s = s) : inTurn xs f s = s := by
  induction xs with
  | nil => rfl
  | cons a xs ih =>
    show inTurn xs f (f a s) = s
    rw [h a List.mem_cons_self]
    exact ih fun b hb => h b (List.mem_cons_of_mem _ hb)

theorem inTurn_append {α : Type} (f : α → State → State) (xs ys : List α) (s : State) : inTurn (xs ++ ys) f s = inTurn ys f (inTurn xs f s) :=
  List.foldl_append ..

/-- Where one element acts and the others find nothing to do, before it and behind it, it alone acts. -/
theorem inTurn_of_one {α : Type} {f : α → State → State} {xs : List α} {a : α} {s : State} (ha : a ∈ xs) (hn : xs.Nodup)
    (before : ∀ b ∈ xs, b ≠ a → f b s = s) (behind : ∀ b ∈ xs, b ≠ a → f b (f a s) = f a s) : inTurn xs f s = f a s := by
  obtain ⟨l, r, rfl⟩ := List.append_of_mem ha
  obtain ⟨-, hr, apart⟩ := List.nodup_append.mp hn
  rw [inTurn_append, inTurn_of_still fun b hb => before b (List.mem_append_left _ hb) (apart b hb a List.mem_cons_self)]
  refine inTurn_of_still fun b hb => behind b (List.mem_append_right _ (List.mem_cons_of_mem _ hb)) ?_
  rintro rfl
  exact (List.nodup_cons.mp hr).1 hb

theorem portsOf_nodup (g : GroupId) : (portsOf g).Nodup := by
  revert g
  decide

/-! ## Handing a line to the Ring Scheduler (R107 to R109) -/

/-- What handing lines to the Ring Scheduler may write. -/
def State.ringAs (t s : State) : State := { s with cells := t.cells, nextPlacement := t.nextPlacement, ringQueue := t.ringQueue }

section
variable (p : Port) (z s : State)

theorem placeIn_rest (k : Fin 6) : z.ringAs (placeIn k p s) = z.ringAs s := by
  unfold placeIn advancePlacement
  split <;> rfl

theorem handOn_rest : z.ringAs (handOn p s) = z.ringAs s := by
  unfold handOn
  split
  · exact placeIn_rest p z s _
  · rfl

theorem handOn_frame : handOn p s = (handOn p s).ringAs s := handOn_rest p (handOn p s) s

theorem handOn_exists : ∃ cells next queue, handOn p s = { s with cells := cells, nextPlacement := next, ringQueue := queue } :=
  ⟨_, _, _, handOn_frame p s⟩

theorem handOn_lines : (handOn p s).lines = s.lines := (congrArg State.lines (handOn_frame p s) :)

theorem placeIn_withPort (k : Fin 6) (y : PortSide) : placeIn k p (s.withPort y) = (placeIn k p s).withPort y := by
  have next : (setCell k ((s.withPort y).cells.at k ++ [{ port := p, number := (s.withPort y).nextPlacement }]) (s.withPort y)).nextPlacement
      = (setCell k (s.cells.at k ++ [{ port := p, number := s.nextPlacement }]) s).nextPlacement := rfl
  unfold placeIn advancePlacement
  rw [next]
  split <;> rfl

theorem handOn_withPort (y : PortSide) : handOn p (s.withPort y) = (handOn p s).withPort y := by
  have room : roomFor (s.withPort y) p = roomFor s p := rfl
  unfold handOn
  rw [room]
  split
  · exact placeIn_withPort p s _ y
  · rfl

theorem handOnSettled_withPort (y : PortSide) : handOnSettled p (s.withPort y) = (handOnSettled p s).withPort y := by
  unfold handOnSettled
  rw [handOn_withPort]
  exact (apply_ite (fun x => State.withPort x y) _ _ _).symm
end

section
variable {p : Port} {s : State}

/-- A line is placed in the cell of the next phase where that has room. -/
theorem handOn_of_room (h : (s.cells.at (cellOf (nextPhase s.phase) (busOf p))).length < s.posture.ringCapacity)
    (hn : s.nextPlacement < 65535) : handOn p s = { s with
      cells := s.cells.put (cellOf (nextPhase s.phase) (busOf p)) (s.cells.at (cellOf (nextPhase s.phase) (busOf p)) ++ [⟨p, s.nextPlacement⟩])
      nextPlacement := s.nextPlacement + 1 } := by
  have first : roomFor s p = some (cellOf (nextPhase s.phase) (busOf p)) := List.find?_cons_of_pos (decide_eq_true h)
  unfold handOn
  rw [first]
  exact if_pos hn

/-- A line that no cell of its bus has room for joins the ring queue. -/
theorem handOn_of_full (h : ∀ c : Fin 3, s.posture.ringCapacity ≤ (s.cells.at (cellOf c (busOf p))).length) :
    handOn p s = { s with ringQueue := joinByClass s p s.ringQueue } := by
  have full : roomFor s p = none := by
    unfold roomFor
    rw [List.find?_eq_none]
    intro k hk
    have cell : ∃ c, k = cellOf c (busOf p) := by
      simp only [trialOrder, List.mem_cons, List.not_mem_nil, or_false] at hk
      rcases hk with rfl | rfl | rfl <;> exact ⟨_, rfl⟩
    obtain ⟨c, rfl⟩ := cell
    unfold hasRoom
    rw [decide_eq_true_eq]
    exact Nat.not_lt.mpr (h c)
  unfold handOn
  rw [full]
  rfl

theorem handOnSettled_of_waiting (ho : (s.lines.at p).state = .offered) (hc : isPlaced s p = false) (hq : p ∉ s.ringQueue) :
    handOnSettled p s = handOn p s := if_pos ⟨ho, hc, hq⟩

theorem handOnSettled_of_other (h : (s.lines.at p).state ≠ .offered) : handOnSettled p s = s := if_neg fun x => h x.1
end

/-! ## The end of settle (R51) -/

/-- The part as a group that has settled leaves it, its report and its called lines apart. -/
def settled (g : GroupId) (s : State) : State := setGroup g { s.groups.at g with state := .active, settle := none } (clearRuns g s)

theorem settled_eq (g : GroupId) (s : State) : settled g s = { s with
    scan := (clearRuns g s).scan, groups := s.groups.put g { s.groups.at g with state := .active, settle := none } } := by
  unfold settled
  rw [clearRuns_frame]
  rfl

theorem settled_withPort (g : GroupId) (s : State) (y : PortSide) : settled g (s.withPort y) = (settled g s).withPort y := by
  unfold settled
  rw [clearRuns_withPort]
  rfl

theorem Answers.of_settled {g : GroupId} {s : State} {P : State → Prop} (hrun : Running s) (hg : (s.groups.at g).state = .waking)
    (hroom : Room 1 s) (hp : ∀ y, Made s ((inTurn (portsOf g) handOnSettled (settled g s)).withPort y) [.groupEvent g .active .settled]
      → P ((inTurn (portsOf g) handOnSettled (settled g s)).withPort y)) : Answers (.settleExpiry g) s P := by
  have told := (((Comes.served s).map (settled g) fun x y => settled_withPort g x y).report (.groupEvent g .active .settled) hroom
    (Nat.lt_succ_self 0)).map (inTurn (portsOf g) handOnSettled) fun x y => inTurn_withPort handOnSettled_withPort _ x y
  have taken : exec (.settleExpiry g) s = .next (endSettle g (serve s)) := by
    have waking : ((serve s).groups.at g).state = .waking := (of_served (fun x => (x.groups.at g).state) (fun _ _ => rfl) s).trans hg
    have quiet : actQuietly (fun s => if (s.groups.at g).state = .waking then endSettle g s else s) s = endSettle g (serve s) := by
      rw [actQuietly_running hrun]
      exact if_pos waking
    exact congrArg Host.Outcome.next quiet
  exact .of_comes taken told fun y made _ => hp y made

/-- Settles O25: no line of the group waits, or one does. -/
theorem settleEndsInActive : Obligations.SettleEndsInActive := by
  refine ⟨fun g s hrun hg hnone hroom => .of_settled hrun hg hroom fun y made => ?_,
    fun g p s hrun hg hp hst hnot hq hothers hplace hroom => .of_settled hrun hg hroom fun y made => ?_⟩
  · have still : inTurn (portsOf g) handOnSettled (settled g s) = settled g s :=
      inTurn_of_still fun q hq => handOnSettled_of_other (by rw [settled_eq]; exact hnone q hq)
    obtain ⟨inside, outside⟩ := runsCleared_clearRuns g s
    rw [still, settled_eq] at made ⊢
    have group : (s.groups.put g { s.groups.at g with state := .active, settle := none }).at g
        = { s.groups.at g with state := .active, settle := none } := Table.at_put_same _ _ _
    refine ⟨(congrArg Group.state group :), (congrArg Group.settle group :), (congrArg Group.wake group :), fun p hp => ?_, outside,
      fun k hk => Table.at_put_other _ _ hk, made, rfl⟩
    have cleared := inside p hp
    generalize (clearRuns g s).scan = scan at cleared
    dsimp only [State.withPort]
    rw [cleared]
    exact ⟨rfl, rfl, rfl, rfl, rfl⟩
  · have lines : (settled g s).lines = s.lines := by rw [settled_eq]
    have placed : isPlaced (settled g s) p = isPlaced s p := by unfold isPlaced allPlaced; rw [settled_eq]
    have queue : (settled g s).ringQueue = s.ringQueue := by rw [settled_eq]
    have waits : handOnSettled p (settled g s) = handOn p (settled g s) :=
      handOnSettled_of_waiting (by rw [lines]; exact hst) (placed.trans hnot) (by rw [queue]; exact hq)
    have handed : inTurn (portsOf g) handOnSettled (settled g s) = handOn p (settled g s) := by
      rw [← waits]
      refine inTurn_of_one hp (portsOf_nodup g) (fun q hq hqp => handOnSettled_of_other (by rw [lines]; exact hothers q hq hqp))
        fun q hq hqp => handOnSettled_of_other ?_
      rw [waits, handOn_lines, lines]
      exact hothers q hq hqp
    have cleared (t : State) (h : t.scan = (clearRuns g s).scan) : RunsCleared g s t := .of_scan h
    have room := handOn_of_room (p := p) (s := settled g s)
    have full := handOn_of_full (p := p) (s := settled g s)
    obtain ⟨cells, next, queue, eq⟩ := handOn_exists p (settled g s)
    rw [handed] at made ⊢
    rw [eq, settled_eq] at made room full ⊢
    generalize (clearRuns g s).scan = scan at cleared made room full ⊢
    refine ⟨Table.at_put_same _ _ _, fun k hk => Table.at_put_other _ _ hk, made, cleared _ rfl, fun h => ?_, fun h => ?_, rfl⟩
    · have placed := room h hplace
      have inCell : cells = _ := (congrArg State.cells placed :)
      subst inCell
      exact ⟨Table.at_put_same _ _ _, fun k hk => Table.at_put_other _ _ hk, (congrArg State.nextPlacement placed :),
        (congrArg State.ringQueue placed :)⟩
    · have queued := full h
      exact ⟨(congrArg State.ringQueue queued :), (congrArg State.cells queued :), (congrArg State.nextPlacement queued :)⟩

end Sys2Proof.Machine
end

