-- ==== Sys2Proof/Proofs/Phases.lean ====
section
/-! PROOF. The next ring phase begins (O27): its OFFERED lines, in the order of their placement, become RINGING. -/

namespace Sys2Proof.Machine

/-! ## Placed lines in order -/

theorem mem_insertByNumber (e f : Placed) (l : List Placed) : f ∈ insertByNumber e l ↔ f = e ∨ f ∈ l := by
  induction l with
  | nil => simp [insertByNumber]
  | cons x l ih =>
    unfold insertByNumber
    split
    · exact List.mem_cons
    · rw [List.mem_cons, ih, List.mem_cons]
      exact or_left_comm

theorem mem_byNumber (f : Placed) (l : List Placed) : f ∈ byNumber l ↔ f ∈ l := by
  unfold byNumber
  induction l with
  | nil => rfl
  | cons e l ih => rw [List.foldr_cons, mem_insertByNumber, ih, List.mem_cons]

/-! ## One line -/

/-- The record of an OFFERED line that begins to ring. -/
def rung (l : Line) : Line := if l.state = .offered then l.moved .ringing l.call l.timer else l

theorem rung_rung (l : Line) : rung (rung l) = rung l := by
  by_cases h : l.state = .offered
  · have once : rung l = l.moved .ringing l.call l.timer := if_pos h
    rw [once]
    exact if_neg fun x => nomatch x
  · have still : rung l = l := if_neg h
    rw [still, still]

/-- A line becomes RINGING: it leaves no queue and no cell, and its digits stand. -/
theorem moveLine_ringing {s : State} {p : Port} (call : Option (SlotId × Direction)) (timer : Option Nat) (hst : (s.lines.at p).state = .offered) :
    moveLine p .ringing call timer s = { s with
      lines := s.lines.put p ((s.lines.at p).moved .ringing call timer)
      scan := s.scan.put p ((s.scan.at p).lineMoved (s.ports.at p) .offered .ringing) } := by
  have stays : ¬ LeavesRing p .ringing s := fun x => x.2 rfl
  rw [moveLine_eq, if_neg stays, if_neg stays, if_neg stays, hst]
  rfl

theorem ringLine_of_offered {e : Placed} {s : State} (h : (s.lines.at e.port).state = .offered) :
    ringLine e s = callEvent e.port .ringing .normal (moveLine e.port .ringing (s.lines.at e.port).call (s.lines.at e.port).timer s) := by
  unfold ringLine enterLine
  dsimp only
  rw [if_pos h, if_neg fun x => nomatch x.1]
  exact if_neg fun x => nomatch x

theorem ringLine_of_other {e : Placed} {s : State} (h : (s.lines.at e.port).state ≠ .offered) : ringLine e s = s := if_neg h

/-- The line rings, and nothing but its record and its runs changes, the sending side apart. -/
theorem ringLine_eq (e : Placed) (s : State) : ∃ scan, (ringLine e s).apartFromPort
    = ({ s with lines := s.lines.put e.port (rung (s.lines.at e.port)), scan := scan } : State).apartFromPort := by
  by_cases h : (s.lines.at e.port).state = .offered
  · refine ⟨s.scan.put e.port ((s.scan.at e.port).lineMoved (s.ports.at e.port) .offered .ringing), ?_⟩
    rw [ringLine_of_offered h, moveLine_ringing _ _ h]
    unfold callEvent rung
    rw [report_port, if_pos h]
  · refine ⟨s.scan, ?_⟩
    unfold rung
    rw [ringLine_of_other h, if_neg h, Table.put_at]

theorem ringLine_lines (e : Placed) (s : State) : (ringLine e s).lines = s.lines.put e.port (rung (s.lines.at e.port)) := by
  obtain ⟨scan, eq⟩ := ringLine_eq e s
  exact (congrArg State.lines eq :)

/-! ## The lines of a phase -/

theorem rings_lines (es : List Placed) (s : State) (p : Port) :
    (inTurn es ringLine s).lines.at p = if ∃ e ∈ es, e.port = p then rung (s.lines.at p) else s.lines.at p := by
  induction es generalizing s with
  | nil => simp [inTurn]
  | cons e es ih =>
    refine (ih (ringLine e s)).trans ?_
    rw [ringLine_lines, Table.at_put]
    by_cases hp : p = e.port
    · subst hp
      simp [rung_rung]
    · simp [hp, Ne.symm hp]

theorem rings_frame (es : List Placed) (s : State) : (inTurn es ringLine s).apartFromPort
    = ({ s with lines := (inTurn es ringLine s).lines, scan := (inTurn es ringLine s).scan } : State).apartFromPort := by
  induction es generalizing s with
  | nil => rfl
  | cons e es ih =>
    obtain ⟨scan, eq⟩ := ringLine_eq e s
    refine (ih (ringLine e s)).trans ?_
    exact (congrArg (fun x : State => ({ x with
      lines := (inTurn es ringLine (ringLine e s)).lines, scan := (inTurn es ringLine (ringLine e s)).scan } : State)) eq :)

/-- The ring drives that a phase gives. -/
def drivesOf (phase : Fin 3) (cells : Table 6 (List Placed)) : Table 64 Bool :=
  Vector.ofFn fun p => (cells.at (cellOf phase (busOf p))).any fun e => decide (e.port = p)

theorem drivesOf_at (phase : Fin 3) (cells : Table 6 (List Placed)) (p : Port) :
    (drivesOf phase cells).at p = true ↔ ∃ e ∈ cells.at (cellOf phase (busOf p)), e.port = p := by
  unfold drivesOf
  simp [Table.at]

theorem beginPhase_eq (s : State) : beginPhase s
    = inTurn (byNumber (s.cells.at (cellOf (nextPhase s.phase) 0) ++ s.cells.at (cellOf (nextPhase s.phase) 1))) ringLine
      { s with phase := nextPhase s.phase, phaseMs := 0, ringDrive := drivesOf (nextPhase s.phase) s.cells } := by
  unfold beginPhase phaseLines driveRunningPhase drivesOf
  dsimp only

/-- Settles O27: the drives first, then the lines. -/
theorem phaseBegins : Obligations.PhaseBegins := by
  intro s hrun
  have quiet : exec .phaseBegin s = .next (beginPhase (serve s)) := congrArg Host.Outcome.next (actQuietly_running hrun)
  rw [beginPhase_eq, eq_withPort (serve_port s)] at quiet
  generalize (serve s).portSide = y at quiet
  dsimp only [State.withPort] at quiet
  have drives := drivesOf_at (nextPhase s.phase) s.cells
  generalize drivesOf (nextPhase s.phase) s.cells = d at quiet drives
  have inPhase (p : Port) : (∃ e ∈ byNumber (s.cells.at (cellOf (nextPhase s.phase) 0) ++ s.cells.at (cellOf (nextPhase s.phase) 1)), e.port = p)
      ↔ ∃ k ∈ [cellOf (nextPhase s.phase) 0, cellOf (nextPhase s.phase) 1], ∃ e ∈ s.cells.at k, e.port = p := by
    simp only [mem_byNumber, List.mem_append, List.mem_cons, List.not_mem_nil, or_false, exists_eq_or_imp, exists_eq_left, or_and_right,
      exists_or]
  generalize byNumber (s.cells.at (cellOf (nextPhase s.phase) 0) ++ s.cells.at (cellOf (nextPhase s.phase) 1)) = es at quiet inPhase
  have frame := rings_frame es (({ s with phase := nextPhase s.phase, phaseMs := 0, ringDrive := d } : State).withPort y)
  have lines := rings_lines es (({ s with phase := nextPhase s.phase, phaseMs := 0, ringDrive := d } : State).withPort y)
  dsimp only [State.withPort] at frame lines
  generalize inTurn es ringLine _ = t at quiet frame lines
  have phase : t.phase = nextPhase s.phase := (congrArg State.phase frame :)
  have drive : t.ringDrive = d := (congrArg State.ringDrive frame :)
  refine ⟨t, quiet, phase, by rw [phase]; rfl, (congrArg State.cells frame :), fun p => ?_, fun p hp hst => ?_, fun p hp => ?_, ?_⟩
  · rw [drive, phase]
    exact drives p
  · have line : t.lines.at p = (s.lines.at p).moved .ringing (s.lines.at p).call (s.lines.at p).timer := by
      rw [phase] at hp
      rw [lines, if_pos ((inPhase p).mpr hp)]
      exact if_pos hst
    rw [line]
    exact ⟨rfl, rfl, rfl⟩
  · rw [lines]
    rcases hp with absent | other
    · refine if_neg fun x => ?_
      obtain ⟨k, hk, e, he, hep⟩ := (inPhase p).mp x
      rw [← phase] at hk
      exact absent k hk e he hep
    · split
      · exact if_neg other
      · rfl
  · rw [frame, phase, drive]
    rfl

end Sys2Proof.Machine
end

