-- ==== Sys2Proof/Proofs/SlowScans.lean ====
section
/-! PROOF. A slow sample of a STANDBY group (O24): its contacts, its faults, its off-hooks. -/

namespace Sys2Proof.Machine

/-! ## The sample ahead of what it finds -/

/-- The part as a slow sample sets its pins and its next time. -/
def slowSampled (g : GroupId) (closed faulty : BitVec 8) (s : State) : State := nextSlowSample g (sampledPins g closed faulty s)

section
variable (g : GroupId) (closed faulty : BitVec 8) (s : State)

theorem slowSampled_withPort (y : PortSide) : slowSampled g closed faulty (s.withPort y) = (slowSampled g closed faulty s).withPort y := by
  unfold slowSampled sampledPins
  rw [inTurn_withPort fun _ _ _ => rfl]
  rfl

theorem sampledPins_frame : ∃ hook fault, sampledPins g closed faulty s = { s with hookPin := hook, faultPin := fault } := by
  unfold sampledPins
  induction portsOf g generalizing s with
  | nil => exact ⟨s.hookPin, s.faultPin, rfl⟩
  | cons p ps ih => exact ih (setFaultPin p (levelOf faulty p) (setHookPin p (levelOf closed p) s))

theorem slowSampled_frame : ∃ hook fault, slowSampled g closed faulty s = { s with
    hookPin := hook, faultPin := fault, groups := s.groups.put g { s.groups.at g with slow := some 200 } } := by
  obtain ⟨hook, fault, pins⟩ := sampledPins_frame g closed faulty s
  unfold slowSampled
  rw [pins]
  exact ⟨hook, fault, rfl⟩
end

section
variable {g : GroupId} {closed faulty : BitVec 8} {p : Port} {s : State}

theorem slowContact_of_other (h : isMonitor s p = false) : slowContact closed p s = s := by
  unfold slowContact
  rw [h]
  rfl

theorem contacts_still (h : ∀ q ∈ portsOf g, isMonitor s q = false) : inTurn (portsOf g) (slowContact closed) s = s :=
  inTurn_of_still fun q hq => slowContact_of_other (h q hq)

theorem slowFaults_of_none (h : ∀ q ∈ portsOf g, hasLine s q = true → levelOf faulty q = false) : slowFaults g faulty s = [] := by
  refine List.filter_eq_nil_iff.mpr fun q hq => ?_
  cases hl : hasLine s q with
  | false => simp
  | true => simp [h q hq hl]

/-- One line of a group shows a fault that it had not. -/
theorem slowFaults_of_one (hp : p ∈ portsOf g) (hl : hasLine s p = true) (hf : levelOf faulty p = true) (hn : (s.scan.at p).fault = false)
    (hothers : ∀ q ∈ portsOf g, q ≠ p → levelOf faulty q = false) : slowFaults g faulty s = [p] := by
  have found : (portsOf g).filter (fun q => hasLine s q && levelOf faulty q && !(s.scan.at q).fault)
      = (portsOf g).filter fun q => q == p := by
    refine List.filter_congr fun q hq => ?_
    by_cases hqp : q = p
    · rw [hqp, hl, hf, hn]
      simp
    · simp [hothers q hq hqp, hqp]
  unfold slowFaults
  rw [found, List.filter_beq, List.count_eq_one_of_mem (portsOf_nodup g) hp]
  rfl

theorem slowOffHook_of_line (hp : p ∈ portsOf g) (hl : hasLine s p = true) (hc : levelOf closed p = true) : slowOffHook g closed s = true :=
  List.any_eq_true.mpr ⟨p, hp, by rw [hl, hc]; rfl⟩

theorem slowOffHook_of_none (h : ∀ q ∈ portsOf g, hasLine s q = false) : slowOffHook g closed s = false :=
  List.any_eq_false.mpr fun q hq => by rw [h q hq]; exact Bool.false_ne_true

theorem slowSample_of_faults {t : State} {ps : List Port} (hc : inTurn (portsOf g) (slowContact closed) (slowSampled g closed faulty s) = t)
    (hf : slowFaults g faulty t = ps) (hn : ps ≠ []) : slowSample g closed faulty s = inTurn ps takeFault (enterWaking g .fault t) := by
  unfold slowSampled at hc
  unfold slowSample
  rw [hc]
  dsimp only
  rw [hf, if_pos hn]

theorem slowSample_of_none {t : State} (hc : inTurn (portsOf g) (slowContact closed) (slowSampled g closed faulty s) = t)
    (hf : slowFaults g faulty t = []) : slowSample g closed faulty s
      = if (slowOffHook g closed t && (t.groups.at g).wake) = true then enterWaking g .offHook t else t := by
  unfold slowSampled at hc
  unfold slowSample
  rw [hc]
  dsimp only
  rw [hf, if_neg (not_not.mpr rfl)]

theorem slowScan_taken (h : (s.groups.at g).state = .standby) :
    (if ((serve s).groups.at g).state = .standby then slowSample g closed faulty (serve s) else serve s) = slowSample g closed faulty (serve s) :=
  if_pos ((of_served (fun x => (x.groups.at g).state) (fun _ _ => rfl) s).trans h)
end

theorem slowSampled_ports {g : GroupId} {closed faulty : BitVec 8} (s : State) : (slowSampled g closed faulty (serve s)).ports = s.ports := by
  obtain ⟨hook, fault, eq⟩ := slowSampled_frame g closed faulty (serve s)
  rw [eq]
  exact of_served (fun x => x.ports) (fun _ _ => rfl) s

theorem slowSampled_scan {g : GroupId} {closed faulty : BitVec 8} (s : State) : (slowSampled g closed faulty (serve s)).scan = s.scan := by
  obtain ⟨hook, fault, eq⟩ := slowSampled_frame g closed faulty (serve s)
  rw [eq]
  exact of_served (fun x => x.scan) (fun _ _ => rfl) s

/-- Settles O24: an off-hook, one fault, one contact. -/
theorem slowSampleWakesByTheFlag : Obligations.SlowSampleWakesByTheFlag := by
  refine ⟨fun g closed p s hrun hg hp hl hc hmon he hroom => ?_, fun g closed faulty p s hrun hg hp hl hf hnf hothers hmon hst hcall hbus ha he hroom => ?_,
    fun g closed faulty p s hrun hg hp hm hopen hc hothers ha he hroom => ?_⟩
  · have sampled := (Comes.served s).map (slowSampled g closed 0) fun x y => slowSampled_withPort g closed 0 x y
    have ports := slowSampled_ports (g := g) (closed := closed) (faulty := 0) s
    have line (q : Port) : hasLine (slowSampled g closed 0 (serve s)) q = hasLine s q := by unfold hasLine; rw [ports]
    have monitor (q : Port) : isMonitor (slowSampled g closed 0 (serve s)) q = isMonitor s q := by unfold isMonitor; rw [ports]
    have taken := slowSample_of_none (contacts_still (g := g) (closed := closed) (s := slowSampled g closed 0 (serve s)) fun q hq => (monitor q).trans (hmon q hq))
      (slowFaults_of_none fun q hq _ => by simp [levelOf])
    rw [slowOffHook_of_line hp ((line p).trans hl) hc, Bool.true_and] at taken
    obtain ⟨hook, fault, frame⟩ := slowSampled_frame g closed 0 s
    have group : (slowSampled g closed 0 s).groups.at g = { s.groups.at g with slow := some 200 } := by
      rw [frame]
      exact Table.at_put_same _ _ _
    have served : ((slowSampled g closed 0 (serve s)).groups.at g).wake = (s.groups.at g).wake := by
      have groups : (slowSampled g closed 0 (serve s)).groups = (slowSampled g closed 0 s).groups := (congrArg State.groups sampled.port :)
      rw [groups, group]
    rw [served] at taken
    by_cases hw : (s.groups.at g).wake = true
    · rw [if_pos hw] at taken
      have told := sampled.wakes g .offHook hroom (Nat.lt_succ_self 0)
      obtain ⟨inside, outside⟩ := runsCleared_clearRuns g (slowSampled g closed 0 s)
      rw [waking_eq, group] at told
      generalize (clearRuns g (slowSampled g closed 0 s)).scan = scan at told inside outside
      rw [frame] at told inside outside
      dsimp only at told inside outside
      rw [put_put] at told
      refine .of_event hrun rfl ((slowScan_taken hg).trans taken) told (.of_same rfl he) fun y made => ⟨rfl, ?_, ?_, fun k hk => Table.at_put_other _ _ hk, rfl, ?_⟩
      · exact (congrArg Scanner.hook (inside p hp) :)
      · exact (congrArg Group.wake (Table.at_put_same _ _ _) :)
      · rw [if_pos hw]
        exact ⟨(congrArg Group.state (Table.at_put_same _ _ _) :), (congrArg Group.settle (Table.at_put_same _ _ _) :),
          (congrArg Group.slow (Table.at_put_same _ _ _) :), ⟨inside, outside⟩, made⟩
    · rw [if_neg hw] at taken
      have told := sampled
      rw [frame] at told
      refine .of_event hrun rfl ((slowScan_taken hg).trans taken) told (.of_same rfl he) fun y made =>
        ⟨rfl, rfl, (congrArg Group.wake (Table.at_put_same _ _ _) :), fun k hk => Table.at_put_other _ _ hk, rfl, ?_⟩
      rw [if_neg hw]
      exact ⟨(congrArg Group.state (Table.at_put_same _ _ _) :).trans hg, (congrArg Group.slow (Table.at_put_same _ _ _) :), rfl, made⟩
  · have sampled := (Comes.served s).map (slowSampled g closed faulty) fun x y => slowSampled_withPort g closed faulty x y
    have ports := slowSampled_ports (g := g) (closed := closed) (faulty := faulty) s
    have line (q : Port) : hasLine (slowSampled g closed faulty (serve s)) q = hasLine s q := by unfold hasLine; rw [ports]
    have monitor (q : Port) : isMonitor (slowSampled g closed faulty (serve s)) q = isMonitor s q := by unfold isMonitor; rw [ports]
    obtain ⟨hook, fault, frame⟩ := slowSampled_frame g closed faulty s
    have scan := slowSampled_scan (g := g) (closed := closed) (faulty := faulty) s
    have taken := slowSample_of_faults
      (contacts_still (g := g) (closed := closed) (s := slowSampled g closed faulty (serve s)) fun q hq => (monitor q).trans (hmon q hq))
      (slowFaults_of_one hp ((line p).trans hl) hf (by rw [scan]; exact hnf) hothers) (List.cons_ne_nil _ _)
    have wakes := sampled.wakes g .fault hroom (by decide)
    have woken := waking_eq g (slowSampled g closed faulty s)
    obtain ⟨inside, outside⟩ := runsCleared_clearRuns g (slowSampled g closed faulty s)
    generalize (clearRuns g (slowSampled g closed faulty s)).scan = runs at woken inside outside
    generalize waking g (slowSampled g closed faulty s) = w at wakes woken
    rw [frame] at woken inside outside
    dsimp only at woken inside outside
    rw [put_put, Table.at_put_same] at woken
    have lines : w.lines.at p = s.lines.at p := by rw [woken]
    have bus : w.bus ≠ .claimed p := by rw [woken]; exact hbus
    have told := wakes.takeFault p (n := 3) (by rw [woken]; exact ha) (by rw [lines, hst]; rfl) hroom
      (by rw [endReports_of_unclaimed bus]; exact Nat.lt_succ_self 2)
    rw [releaseLine_of_none (s := faulted p w) (by rw [faulted_line, lines]; exact hcall), endReports_of_unclaimed bus,
      lineEnds_of_bare (s := faulted p w) (old := .idle) (by rw [faulted_line, lines]; exact hst) rfl (by decide) bus rfl, faulted_eq, woken] at told
    dsimp only at told
    refine .of_event hrun rfl ((slowScan_taken hg).trans taken) told (.of_same rfl he) fun y made =>
      ⟨?_, ?_, Table.at_put_same _ _ _, rfl, made, fun q hq => ?_, fun q hq => ?_, fun k hk => Table.at_put_other _ _ hk, fun q hq hqp => ?_,
        fun q hq => ?_, rfl⟩
    · simp [State.withPort]
    · simp [State.withPort, Scanner.lineMoved_fault]
    · simp [State.withPort, hq]
    · simp [State.withPort, hq]
    · have cleared := inside q hq
      simp [State.withPort, hqp, cleared]
    · have other : q ≠ p := fun h => hq (h ▸ hp)
      have out := outside q hq
      simp [State.withPort, other, out]
  · have monitor_line (h : isMonitor s p = true) : hasLine s p = false := by
      unfold isMonitor at h
      unfold hasLine
      rw [of_decide_eq_true h]
      rfl
    have sampled := (Comes.served s).map (slowSampled g closed faulty) fun x y => slowSampled_withPort g closed faulty x y
    have ports := slowSampled_ports (g := g) (closed := closed) (faulty := faulty) s
    have monitor (q : Port) : isMonitor (slowSampled g closed faulty (serve s)) q = isMonitor s q := by unfold isMonitor; rw [ports]
    obtain ⟨hook, fault, frame⟩ := slowSampled_frame g closed faulty s
    have scan := slowSampled_scan (g := g) (closed := closed) (faulty := faulty) s
    have told := ((sampled.map (fun x => setScan p { x.scan.at p with contact := .closed } x) fun _ _ => rfl).report (.monitorEvent p .closed)
      hroom (by decide)).begins (.contact p) hroom (by simp)
    have none : alarmEntry (setScan p { (slowSampled g closed faulty s).scan.at p with contact := .closed } (slowSampled g closed faulty s)) (.contact p) = none := by
      rw [frame]
      exact ha
    rw [begun_of_none none, conditionBegun_of_none none] at told
    have contact : slowContact closed p (slowSampled g closed faulty (serve s))
        = takeContact p .closed (setScan p { (slowSampled g closed faulty (serve s)).scan.at p with contact := .closed } (slowSampled g closed faulty (serve s))) := by
      unfold slowContact
      dsimp only
      rw [monitor, hm, scan, hc]
      exact if_pos (by rw [show contactOf true = .closed from rfl, hopen]; rfl)
    have after : (slowContact closed p (slowSampled g closed faulty (serve s))).ports = s.ports := by
      rw [contact]
      refine (congrArg State.ports told.port :).trans ?_
      rw [frame]
      rfl
    have one := inTurn_of_one (f := slowContact closed) hp (portsOf_nodup g) (s := slowSampled g closed faulty (serve s))
      (fun q hq hqp => slowContact_of_other ((monitor q).trans (hothers q hq hqp).2)) fun q hq hqp => slowContact_of_other (by
        unfold isMonitor
        rw [after]
        exact (hothers q hq hqp).2)
    have bare (q : Port) (hq : q ∈ portsOf g) : hasLine (slowContact closed p (slowSampled g closed faulty (serve s))) q = false := by
      unfold hasLine
      rw [after]
      by_cases hqp : q = p
      · rw [hqp]
        exact monitor_line hm
      · exact (hothers q hq hqp).1
    have taken := slowSample_of_none one (slowFaults_of_none fun q hq hl => nomatch (bare q hq).symm.trans hl)
    rw [slowOffHook_of_none bare, Bool.false_and, if_neg Bool.false_ne_true, contact] at taken
    rw [frame] at told
    dsimp only [setScan, setAlarms] at told
    refine .of_event hrun rfl ((slowScan_taken hg).trans taken) told (.of_same rfl he) fun y made =>
      ⟨Table.at_put_same _ _ _, fun q hq => Table.at_put_other _ _ hq, Table.at_put_same _ _ _, fun k hk => Table.at_put_other _ _ hk, rfl, made, rfl⟩

end Sys2Proof.Machine
end

