-- ==== Sys2Proof/Proofs/Beginning.lean ====
section
/-! PROOF. The state after reset has every invariant (O4). -/

namespace Sys2Proof.Machine

/-- A part without calls: no line and no slot is in one, nothing is queued and the test bus is free. -/
structure NoCalls (s : State) : Prop where
  lines : ∀ p, s.lines.at p = Line.unequipped
  slots : ∀ i, s.slots.at i = .free
  sig : ∀ i, s.sig.at i = Sig.cleared
  txq : s.txq = []
  inFlight : s.inFlight = none
  bus : s.bus = .free

theorem NoCalls.callsAgree {s : State} (h : NoCalls s) : CallsAgree s := by
  have line (p : Port) : (s.lines.at p).state = .unequipped ∧ (s.lines.at p).call = none := by
    rw [h.lines]
    exact ⟨rfl, rfl⟩
  have call (i : SlotId) : (s.slots.at i).call? = none := by
    rw [h.slots]
    rfl
  have sig (i : SlotId) : (s.sig.at i).timer = none ∧ (s.sig.at i).owed = none := by
    rw [h.sig]
    exact ⟨rfl, rfl⟩
  refine ⟨⟨fun p => ?_, fun p x hx => ?_, fun i c hc => ?_⟩, ⟨?_, fun hf => ?_, fun e he => ?_, fun i t ht => ?_, fun i o ho => ?_⟩,
    fun p => ?_, fun p hp => ?_⟩
  · rw [(line p).1, (line p).2]
    rfl
  · exact nomatch (line p).2.symm.trans hx
  · exact nomatch (call i).symm.trans hc
  · rw [OneEntryEach, h.txq]
    exact List.nodup_nil
  · rw [h.inFlight] at hf
    exact nomatch hf
  · rw [h.txq] at he
    exact nomatch he
  · exact nomatch (sig i).1.symm.trans ht
  · exact nomatch (sig i).2.symm.trans ho
  · rw [(line p).1, h.bus]
    exact ⟨(fun x => nomatch x), (fun x => nomatch x)⟩
  · exact nomatch h.bus.symm.trans hp

theorem noCalls_fresh {t : State} (h : Fresh t) : NoCalls t := by
  have all {n : Nat} {α : Type} (a : α) (i : Fin n) : (Table.all n a).at i = a := Table.at_all a i
  cases h <;> exact ⟨fun p => all _ p, fun i => all _ i, fun i => all _ i, rfl, rfl, rfl⟩

theorem fresh_reset : Fresh State.reset := reset_eq_comeUp ▸ .up .cold .notRun State.reset

/-- Settles O4: the state after reset is a part come up. -/
theorem resetHasEveryInvariant : Obligations.ResetHasEveryInvariant :=
  ⟨(queuesBounded_iff _).mpr ⟨queueSizes_fresh fresh_reset, requestsHold_of_nil rfl, waitHolds_fresh fresh_reset⟩,
    scoreAgrees_fresh fresh_reset, freeListAgrees_fresh fresh_reset, tagsDistinct_fresh fresh_reset, ringHolds_fresh fresh_reset,
    ⟨.inl rfl, fun h => nomatch h⟩, (noCalls_fresh fresh_reset).callsAgree, portMapHolds_fresh fresh_reset⟩

end Sys2Proof.Machine
end

