-- ==== Sys2Proof/Proofs/Recovery.lean ====
section
/-! PROOF. A frame that is judged, and the recovery run (O28). -/

namespace Sys2Proof.Machine

/-! ## The octets of a frame, its effect on the link apart -/

/-- The part as a frame leaves its bearer octets, its assembler and its alignment. -/
def framed (octets : List Byte) (s : State) : State :=
  takeBearer (goodFrame s octets) (frameOf s octets)
    (trackAlignment octets { s with assembler := (assemblerAfter (goodFrame s octets) (frameOf s octets) s).1 })

theorem judgeFrame_eq (octets : List Byte) (s : State) : judgeFrame octets s = judgeLink (goodFrame s octets) (framed octets s) := rfl

/-- The speech octets of a frame. -/
@[irreducible] def bearerOf (good : Bool) (frame : List Byte) : Table 20 Byte :=
  Vector.ofFn fun i => if good then (frame[2 + i.val]?).getD Config.silence else Config.silence

theorem bearerOf_at (good : Bool) (frame : List Byte) (i : SlotId) :
    (bearerOf good frame).at i = if good then (frame[2 + i.val]?).getD 0x55 else 0x55 := by
  unfold bearerOf
  simp [Table.at, Config.silence]

/-- What the alignment over a period may write. -/
theorem trackAlignment_frame (octets : List Byte) (s : State) : ∃ al bw fw ha lo fe fh, trackAlignment octets s = { s with
    align := al, badWords := bw, foundWords := fw, huntAt := ha, lastOctet := lo, frameEnd := fe, frameHead := fh } := by
  unfold trackAlignment checkWord huntFrom regainAlignment
  dsimp only
  split
  · split
    · split
      · exact ⟨_, _, _, _, _, _, _, rfl⟩
      · split <;> exact ⟨_, _, _, _, _, _, _, rfl⟩
    · exact ⟨_, _, _, _, _, _, _, rfl⟩
  · split
    · split <;> exact ⟨_, _, _, _, _, _, _, rfl⟩
    · split
      · exact ⟨_, _, _, _, _, _, _, rfl⟩
      · split <;> exact ⟨_, _, _, _, _, _, _, rfl⟩

theorem framed_frame (octets : List Byte) (s : State) : ∃ al bw fw ha lo fe fh, framed octets s = { s with
    assembler := (assemblerAfter (goodFrame s octets) (frameOf s octets) s).1, rxBearer := bearerOf (goodFrame s octets) (frameOf s octets)
    align := al, badWords := bw, foundWords := fw, huntAt := ha, lastOctet := lo, frameEnd := fe, frameHead := fh } := by
  unfold framed
  obtain ⟨al, bw, fw, ha, lo, fe, fh, eq⟩ := trackAlignment_frame octets
    { s with assembler := (assemblerAfter (goodFrame s octets) (frameOf s octets) s).1 }
  rw [eq]
  unfold bearerOf
  exact ⟨al, bw, fw, ha, lo, fe, fh, rfl⟩

theorem checkWord_withPort (frame : List Byte) (s : State) (y : PortSide) : checkWord frame (s.withPort y) = (checkWord frame s).withPort y := by
  have bad : (s.withPort y).badWords = s.badWords := rfl
  unfold checkWord
  rw [bad]
  split
  · rfl
  · split <;> rfl

theorem huntFrom_withPort (stream : List (Option Byte)) (k : Nat) (s : State) (y : PortSide) :
    huntFrom stream k (s.withPort y) = (huntFrom stream k s).withPort y := by
  unfold huntFrom
  split <;> rfl

theorem trackAlignment_withPort (octets : List Byte) (s : State) (y : PortSide) :
    trackAlignment octets (s.withPort y) = (trackAlignment octets s).withPort y := by
  have align : (s.withPort y).align = s.align := rfl
  have ends : frameEnds (s.withPort y) = frameEnds s := rfl
  have frame : frameOf (s.withPort y) = frameOf s := rfl
  have stream : octetStream (s.withPort y) = octetStream s := rfl
  have found : (s.withPort y).foundWords = s.foundWords := rfl
  have at' : (s.withPort y).huntAt = s.huntAt := rfl
  unfold trackAlignment
  dsimp only
  rw [align, ends, frame, stream, found, at', checkWord_withPort, huntFrom_withPort, huntFrom_withPort]
  split
  · split <;> rfl
  · split
    · rfl
    · split <;> rfl

theorem framed_withPort (octets : List Byte) (s : State) (y : PortSide) : framed octets (s.withPort y) = (framed octets s).withPort y := by
  unfold framed
  exact congrArg (takeBearer _ _) (trackAlignment_withPort octets { s with assembler := (assemblerAfter (goodFrame s octets) (frameOf s octets) s).1 } y)

/-! ## A frame from its command to its end -/

theorem assemblerAfter_of_silent {good : Bool} {frame : List Byte} {s : State} (h : s.link.messages = false) :
    assemblerAfter good frame s = (.hunting, none) := by
  unfold assemblerAfter
  rw [h]
  exact if_neg fun x => nomatch x.2

theorem frameMessage_of_silent {octets : List Byte} {s : State} (h : s.link.messages = false) : frameMessage octets s = none := by
  unfold frameMessage
  rw [assemblerAfter_of_silent h]
  rfl

/-- A frame that completes no head message is judged, and that is all. -/
theorem exec_frame_of_none {octets : List Byte} {s : State} (hrun : Running s) (h : frameMessage octets s = none) :
    exec (.trunkFrame octets) s = .next (act (judgeFrame octets) s) := by
  have served : frameMessage octets (serve s) = none := (of_served (frameMessage octets) (fun _ _ => rfl) s).trans h
  have taken : whileRunning (takeFrame octets) s = act (judgeFrame octets) s := by
    rw [whileRunning_of_running hrun]
    unfold takeFrame
    dsimp only
    rw [served]
    exact whileRunning_serve _ s
  exact congrArg Host.Outcome.next taken

/-- What the end of an event looks at in the link does not start an attempt where the link that comes of it takes no ORDINARY line and
the event does not leave RESYNC. -/
theorem attemptCaused_of_link {old new : State} (hw : new.waitQueue = old.waitQueue) (hf : new.free = old.free) (hc : new.slots = old.slots)
    (hp : new.posture = old.posture) (hm : new.mode = old.mode) (hk : new.mark = old.mark) (hl : new.link.ordinary = false)
    (hr : old.link ≠ .resync) : attemptCaused old new = false := by
  have same := attemptCaused_of_same (old := old) (new := { new with link := old.link }) hw hf (activeCount_of_slots hc) rfl hp hm hk
  have count : activeCount ({ new with link := old.link } : State) = activeCount new := rfl
  unfold attemptCaused at same ⊢
  rw [count] at same
  rw [hl, decide_eq_false hr]
  simp only [ne_eq, not_true_eq_false, decide_false, Bool.false_and, decide_eq_false hr] at same
  simpa using same

theorem settles_of_link {s u : State} (hc : u.cells = s.cells) (hp : u.posture = s.posture) (hw : u.waitQueue = s.waitQueue) (hf : u.free = s.free)
    (hs : u.slots = s.slots) (hm : u.mode = s.mode) (hk : u.mark = s.mark) (hl : u.link.ordinary = false) (hr : s.link ≠ .resync)
    (he : EventsFinished u) : Settles s u :=
  .of_quiet hc hp (attemptCaused_of_link hw hf hs hp hm hk hl hr) he

/-- Where nothing starts an attempt and no ringing changes, the end of an event stops the holdover timer where no slot is HELD. -/
theorem finish_stops_of_quiet {s u : State} (hc : u.cells = s.cells) (hp : u.posture = s.posture) (ha : attemptCaused s u = false)
    (hm : u.mode = .configPending → anyInUse u = true) (y z : PortSide) : finish (s.withPort y) (u.withPort z)
      = ({ u with holdover := if anyHeld u then u.holdover else none } : State).withPort z := by
  have room : roomGained (s.withPort y) (u.withPort z) = false := roomGained_of_same hc hp
  have caused : attemptCaused (s.withPort y) (u.withPort z) = false := ha
  have stops : stopHoldover (u.withPort z) = ({ u with holdover := if anyHeld u then u.holdover else none } : State).withPort z := by
    have held : anyHeld (u.withPort z) = anyHeld u := rfl
    unfold stopHoldover
    rw [held]
    cases anyHeld u <;> rfl
  have pending : ¬ (u.mode = .configPending ∧ anyInUse u = false) := fun x => nomatch x.2.symm.trans (hm x.1)
  unfold finish
  rw [room, if_neg Bool.false_ne_true]
  dsimp only
  rw [caused, if_neg Bool.false_ne_true, stops]
  exact if_neg pending

/-! ## The recovery run (R134, R135) -/

theorem judgeLink_of_down {s : State} (good : Bool) (h : s.link = .down) : judgeLink good s = countRun good s := by
  unfold judgeLink
  rw [h]

theorem judgeLink_of_recovered {s : State} (good : Bool) (h : s.link = .recovered) :
    judgeLink good s = if good then s else linkEvent (setLink .down { s with run := 0 }) := by
  unfold judgeLink
  rw [h]

theorem countRun_goes_on {s : State} {good : Bool} (h : good = true → s.run + 1 < 512) :
    countRun good s = { s with run := if good then s.run + 1 else 0 } := by
  unfold countRun
  cases good with
  | true => exact if_pos (h rfl)
  | false => rfl

theorem countRun_ends {s : State} (h : s.run = 511) : countRun true s = endRun { s with run := 512 } := by
  unfold countRun
  dsimp only
  rw [if_pos rfl, h]
  exact if_neg (by decide)

theorem addsRestart {s : State} (hq : s.txq = []) : oweRestart false (resyncBegun s) = { s with
    score := 0, run := 0, releaseFlag := false, holdover := none, assembler := .hunting, link := .resync
    txq := [{ msg := .ofNone .restart, pinned := false }], restartOwed := false, restartRepeat := false } := by
  have place : freePlace { resyncBegun s with restartOwed := true, restartRepeat := false } = true := by
    refine decide_eq_true ?_
    rw [show ({ resyncBegun s with restartOwed := true, restartRepeat := false } : State).txq = [] from hq]
    decide
  unfold oweRestart
  rw [makeRestart_eq, if_pos ⟨rfl, rfl, place⟩]
  unfold resyncBegun setLink
  dsimp only
  rw [hq]
  rfl

/-- The part as a frame's octets and the last good frame of the recovery run leave it. -/
def runFull (octets : List Byte) (s : State) : State := { framed octets s with run := 512 }

theorem runFull_withPort (octets : List Byte) (s : State) (y : PortSide) : runFull octets (s.withPort y) = (runFull octets s).withPort y := by
  unfold runFull
  rw [framed_withPort]
  rfl

theorem judgeFrame_ends_run {octets : List Byte} {s : State} (hl : s.link = .down) (hr : s.run = 511) (hg : goodFrame s octets = true) :
    judgeFrame octets s = endRun (runFull octets s) := by
  obtain ⟨al, bw, fw, ha, lo, fe, fh, eq⟩ := framed_frame octets s
  rw [judgeFrame_eq, judgeLink_of_down _ (by rw [eq]; exact hl), hg, countRun_ends (by rw [eq]; exact hr)]
  rfl

theorem endRun_of_release {s : State} (h : s.params.cabinetRelease = false ∨ s.releaseFlag = true) : endRun s = enterResync s := if_pos h

theorem endRun_of_waiting {s : State} (h : ¬ (s.params.cabinetRelease = false ∨ s.releaseFlag = true)) :
    endRun s = linkEvent (setLink .recovered s) := if_neg h

/-- LINK_EVENT with the link and the score of the part. -/
theorem Comes.linkEvent {s u t : State} {rs : List Report} {n : Nat} (h : Comes s rs u t) (hr : Room n s) (hn : rs.length < n) :
    Comes s (rs ++ [.linkEvent u.link u.score]) u (linkEvent t) := by
  have link : t.link = u.link := (congrArg State.link h.port :)
  have score : t.score = u.score := (congrArg State.score h.port :)
  unfold Machine.linkEvent
  rw [link, score]
  exact h.report _ hr hn

/-- Settles O28: a run that goes on, a run that ends, and a frame in RECOVERED. -/
theorem recoveryRunCountsAndEnds : Obligations.RecoveryRunCountsAndEnds := by
  refine ⟨fun octets s hrun hl hshort he => ?_, fun octets s hrun hl hscore hr hgood hq hmode hroom => ?_, fun octets s hrun hl hscore he hroom => ?_⟩
  · have silent : s.link.messages = false := by rw [hl]; rfl
    obtain ⟨al, bw, fw, ha, lo, fe, fh, eq⟩ := framed_frame octets s
    rw [assemblerAfter_of_silent silent] at eq
    have link : (framed octets s).link = .down := by rw [eq]; exact hl
    have counted : judgeFrame octets (s.withPort (serve s).portSide)
        = ({ framed octets s with run := if goodFrame s octets then s.run + 1 else 0 } : State).withPort (serve s).portSide := by
      have run : (framed octets s).run = s.run := by rw [eq]
      rw [judgeFrame_eq, framed_withPort, judgeLink_of_down (s := (framed octets s).withPort _) _ link,
        countRun_goes_on (s := (framed octets s).withPort _) fun x => by
          show (framed octets s).run + 1 < 512
          rw [run]
          exact hshort x, ← run]
      rfl
    rw [eq] at counted
    refine ⟨_, exec_of_event hrun (exec_frame_of_none hrun (frameMessage_of_silent silent)) counted (.of_same rfl he), rfl, rfl, ?_⟩
    rw [eq_withPort (serve_port s)]
    rfl
  · have served : judgeFrame octets (serve s) = endRun (runFull octets (serve s)) :=
      judgeFrame_ends_run ((of_served State.link (fun _ _ => rfl) s).trans hl) ((of_served State.run (fun _ _ => rfl) s).trans hr)
        ((of_served (fun x => goodFrame x octets) (fun _ _ => rfl) s).trans hgood)
    have start := (Comes.served s).map (runFull octets) (runFull_withPort octets)
    have released : ((runFull octets (serve s)).params.cabinetRelease = false ∨ (runFull octets (serve s)).releaseFlag = true)
        ↔ (s.params.cabinetRelease = false ∨ s.releaseFlag = true) := by
      obtain ⟨al, bw, fw, ha, lo, fe, fh, eq⟩ := framed_frame octets (serve s)
      unfold runFull
      rw [eq]
      show ((serve s).params.cabinetRelease = false ∨ (serve s).releaseFlag = true) ↔ _
      rw [of_served State.params (fun _ _ => rfl), of_served State.releaseFlag (fun _ _ => rfl)]
    obtain ⟨al, bw, fw, ha, lo, fe, fh, eq⟩ := framed_frame octets s
    have full : runFull octets s = _ := congrArg (fun x : State => { x with run := 512 }) eq
    have frame := exec_frame_of_none hrun (frameMessage_of_silent (octets := octets) (by rw [hl]; rfl))
    by_cases hrel : s.params.cabinetRelease = false ∨ s.releaseFlag = true
    · have told := start.resync hroom (by decide)
      rw [addsRestart (s := runFull octets s) (by rw [full]; exact hq), full] at told
      rw [endRun_of_release (released.mpr hrel)] at served
      refine .of_end hrun frame served told (finish_stops_of_quiet rfl rfl (attemptCaused_of_link rfl rfl rfl rfl rfl rfl rfl (by rw [hl]; decide))
        fun x => absurd x hmode) fun y made => ?_
      rw [if_pos hrel]
      exact ⟨rfl, rfl, rfl, rfl, ite_self _, rfl, rfl, rfl, made⟩
    · have told := (start.map (setLink .recovered) fun _ _ => rfl).linkEvent hroom (by decide)
      rw [full] at told
      dsimp only [setLink] at told
      replace told := told.reports_eq (rs' := [.linkEvent .recovered 255]) (congrArg (fun n => [Report.linkEvent .recovered n]) hscore)
      rw [endRun_of_waiting (fun x => hrel (released.mp x))] at served
      refine .of_end hrun frame served told (finish_stops_of_quiet rfl rfl (attemptCaused_of_link rfl rfl rfl rfl rfl rfl rfl (by rw [hl]; decide))
        fun x => absurd x hmode) fun y made => ?_
      rw [if_neg hrel]
      exact ⟨rfl, hscore, rfl, hq, rfl, rfl, made⟩
  · have silent : s.link.messages = false := by rw [hl]; rfl
    have frame := exec_frame_of_none (octets := octets) hrun (frameMessage_of_silent silent)
    have start := (Comes.served s).map (framed octets) (framed_withPort octets)
    have link : (framed octets (serve s)).link = .recovered := by
      obtain ⟨al, bw, fw, ha, lo, fe, fh, eq⟩ := framed_frame octets (serve s)
      rw [eq]
      exact (of_served State.link (fun _ _ => rfl) s).trans hl
    have judged : judgeFrame octets (serve s)
        = if goodFrame s octets then framed octets (serve s) else linkEvent (setLink .down { framed octets (serve s) with run := 0 }) := by
      rw [judgeFrame_eq, judgeLink_of_recovered _ link, of_served (fun x => goodFrame x octets) (fun _ _ => rfl)]
    obtain ⟨al, bw, fw, ha, lo, fe, fh, eq⟩ := framed_frame octets s
    rw [assemblerAfter_of_silent silent] at eq
    by_cases hg : goodFrame s octets = true
    · rw [if_pos hg] at judged
      rw [eq] at start
      refine .of_event hrun frame judged start (.of_same rfl he) fun y made => ⟨?_, rfl⟩
      rw [if_pos hg]
      exact ⟨hl, rfl, made⟩
    · rw [if_neg hg] at judged
      have told := (start.map (fun x => setLink .down { x with run := 0 }) fun _ _ => rfl).linkEvent hroom (by decide)
      rw [eq] at told
      dsimp only [setLink] at told
      replace told := told.reports_eq (rs' := [.linkEvent .down 255]) (congrArg (fun n => [Report.linkEvent .down n]) hscore)
      refine .of_event hrun frame judged told (settles_of_link rfl rfl rfl rfl rfl rfl rfl rfl (by rw [hl]; decide) he) fun y made => ⟨?_, ?_⟩
      · rw [if_neg hg]
        exact ⟨rfl, rfl, made⟩
      · rfl

end Sys2Proof.Machine
end

