-- ==== Sys2Proof/Proofs/Bearer.lean ====
section
/-! PROOF. What a frame leaves of the Framer: the speech octets and the alignment are those of the frame's octets, whatever the link and
the head message in it do (for O29). -/

namespace Sys2Proof.Machine

/-! ## What leaves the Framer alone -/

/-- The speech octets and the alignment. -/
def State.framing (s : State) : Table 20 Byte × Align × Nat × Nat × Nat × Nat × List Byte :=
  (s.rxBearer, s.align, s.badWords, s.foundWords, s.huntAt, s.frameEnd, s.frameHead)

/-- A part that differs in its calls alone has the same speech octets and the same alignment. -/
theorem framing_of_calls {s t : State} (h : t.apartFromCalls = s.apartFromCalls) : t.framing = s.framing := (congrArg State.framing h :)

theorem report_framing (r : Report) (s : State) : (report r s).framing = s.framing := framing_of_calls (report_calls r s)

theorem linkEvent_framing (s : State) : (linkEvent s).framing = s.framing := report_framing _ s

theorem beginCondition_framing (a : AlarmId) (s : State) : (beginCondition a s).framing = s.framing := by
  unfold beginCondition
  split
  · exact report_framing _ _
  · split
    · rfl
    · exact report_framing _ _

theorem endCondition_framing (a : AlarmId) (s : State) : (endCondition a s).framing = s.framing := by
  unfold endCondition
  split
  · split
    · exact report_framing _ _
    · rfl
  · rfl

theorem enterService_framing (s : State) : (enterService s).framing = s.framing := by
  have ended : (endCondition .trunkDown (linkEvent (setLink (gradeOf s.score) { s with restartTimer := none, restartOwed := false }))).framing
      = s.framing := (endCondition_framing _ _).trans (linkEvent_framing _)
  unfold enterService
  dsimp only
  split
  · exact (beginCondition_framing _ _).trans ended
  · exact ended

theorem enterResync_framing (s : State) : (enterResync s).framing = s.framing := by
  unfold enterResync oweRestart
  exact (framing_of_calls (makeRestart_calls _)).trans (linkEvent_framing _)

theorem takeGrade_framing (s : State) : (takeGrade s).framing = s.framing := by
  unfold takeGrade
  dsimp only
  split
  · rfl
  · split
    · exact (beginCondition_framing _ _).trans (linkEvent_framing _)
    · split
      · exact (endCondition_framing _ _).trans (linkEvent_framing _)
      · exact linkEvent_framing _

theorem downSlot_calls (i : SlotId) (s : State) : (downSlot i s).apartFromCalls = s.apartFromCalls := by
  unfold downSlot
  split
  · split <;> simp
  all_goals simp

theorem downLine_calls (p : Port) (s : State) : (downLine p s).apartFromCalls = s.apartFromCalls := by
  unfold downLine
  dsimp only
  split
  · split <;> simp
  · split <;> simp
  all_goals simp

theorem inTurn_calls {α : Type} {f : α → State → State} (hf : ∀ a s, (f a s).apartFromCalls = s.apartFromCalls) (xs : List α) (s : State) :
    (inTurn xs f s).apartFromCalls = s.apartFromCalls := by
  induction xs generalizing s with
  | nil => rfl
  | cons a xs ih => exact (ih (f a s)).trans (hf a s)

theorem clearSignalling_framing (s : State) : (clearSignalling s).framing = s.framing := rfl

theorem startHoldover_framing (s : State) : (startHoldover s).framing = s.framing := rfl

theorem emptyRing_framing (s : State) : (emptyRing s).framing = s.framing := rfl

theorem setMark_framing (m : Option SlotId) (s : State) : (setMark m s).framing = s.framing := rfl

theorem inTurn_framing {α : Type} {f : α → State → State} (hf : ∀ a s, (f a s).apartFromCalls = s.apartFromCalls) (xs : List α) (s : State) :
    (inTurn xs f s).framing = s.framing := framing_of_calls (inTurn_calls hf xs s)

theorem enterDown_framing (s : State) : (enterDown s).framing = s.framing := by
  unfold enterDown
  dsimp only
  rw [startHoldover_framing, inTurn_framing downLine_calls, emptyRing_framing, setMark_framing, inTurn_framing downSlot_calls,
    clearSignalling_framing, beginCondition_framing, endCondition_framing, linkEvent_framing]
  rfl

theorem judgeLink_framing (good : Bool) (s : State) : (judgeLink good s).framing = s.framing := by
  unfold judgeLink
  split
  · unfold countRun endRun
    dsimp only
    split
    · split
      · rfl
      · split
        · exact enterResync_framing _
        · exact linkEvent_framing _
    · rfl
  · split
    · rfl
    · exact linkEvent_framing _
  · unfold countScore
    dsimp only
    split
    · exact enterDown_framing _
    · split
      · exact takeGrade_framing _
      · rfl

/-! ## The messages -/

section
variable (tag : Byte) (r : Reason) (s : State)

theorem takeAccept_calls : (takeAccept tag s).apartFromCalls = s.apartFromCalls := by
  unfold takeAccept connectCall
  split <;> simp

theorem takeReject_calls : (takeReject tag r s).apartFromCalls = s.apartFromCalls := by
  unfold takeReject
  split <;> simp

theorem takeProgress_calls : (takeProgress tag s).apartFromCalls = s.apartFromCalls := by
  unfold takeProgress
  split
  · split
    · split <;> simp
    · rfl
  · rfl

theorem collide_calls (i : SlotId) (p : Port) (n : Nat) (b : Bool) : (collide i p n b s).apartFromCalls = s.apartFromCalls := by
  unfold collide
  dsimp only
  split
  · simp
  · split <;> simp

theorem clearBySlot_calls {i : SlotId} {t : State} (h : clearBySlot i r s = some t) : t.apartFromCalls = s.apartFromCalls := by
  have ended (c : Call) : (clearCall i c r s).apartFromCalls = s.apartFromCalls := by simp [clearCall]
  unfold clearBySlot at h
  split at h
  case h_1 => exact Option.some.inj h ▸ rfl
  case h_2 =>
    split at h
    · exact Option.some.inj h ▸ collide_calls s _ _ _ _
    · exact nomatch h
  case h_6 => exact nomatch h
  all_goals
    split at h
    · exact Option.some.inj h ▸ ended _
    · exact nomatch h

theorem takeHeadClear_calls : (takeHeadClear tag r s).apartFromCalls = s.apartFromCalls := by
  unfold takeHeadClear
  cases h : (slotOfTag s tag.toNat).bind fun i => clearBySlot i r s with
  | none => exact addFreeEntry_calls _ s
  | some t =>
    obtain ⟨i, -, hi⟩ := Option.bind_eq_some_iff.mp h
    exact clearBySlot_calls r s hi

theorem takeHeadClearAck_calls : (takeHeadClearAck tag s).apartFromCalls = s.apartFromCalls := by
  unfold takeHeadClearAck
  split
  · split
    · split <;> simp
    · rfl
  · rfl

theorem admitIncoming_calls (p : Port) (i : SlotId) (ref : BitVec 16) : (admitIncoming p i ref s).apartFromCalls = s.apartFromCalls := by
  have hands (t : State) : (handOnAtOnce p t).apartFromCalls = t.apartFromCalls := by
    unfold handOnAtOnce
    split
    · exact calls_of_lines (handOn_lines' p t)
    · rfl
  have wakes (t : State) : (wakeForIncoming p t).apartFromCalls = t.apartFromCalls := by
    unfold wakeForIncoming
    split
    · exact calls_of_lines (enterWaking_lines' _ _ t)
    · rfl
  unfold admitIncoming
  dsimp only
  rw [hands, addSlotEntry_calls, enterLine_calls, wakes, reserve_calls]

theorem takeIncoming_calls (ref number : BitVec 16) : (takeIncoming ref number s).apartFromCalls = s.apartFromCalls := by
  unfold takeIncoming offerCall
  split
  · exact addFreeEntry_calls _ s
  · split
    · exact addFreeEntry_calls _ s
    · split
      · exact admitIncoming_calls s _ _ ref
      · rfl

theorem meetOwed_calls (i : SlotId) (e : Entry) : (meetOwed i e s).apartFromCalls = s.apartFromCalls := by
  unfold meetOwed
  split
  · split <;> simp
  · simp
  · rfl

theorem returnDigits_calls (m : Msg) (digits : List Digit) : (returnDigits m digits s).apartFromCalls = s.apartFromCalls := by
  unfold returnDigits
  split
  · dsimp only
    split
    · exact calls_of_lines (setBuffer_lines' _ _ s)
    · rfl
  · rfl

theorem stopNow_framing : (stopNow s).framing = s.framing := by
  have returned (e : Entry) (f : InFlight) (t : State) : (returnEntry e f t).framing = t.framing := by
    have digits := framing_of_calls (returnDigits_calls { t with inFlight := none } e.msg f.digits)
    unfold returnEntry
    dsimp only
    split
    · exact (framing_of_calls (meetOwed_calls _ _ e)).trans digits
    · exact digits
  unfold stopNow
  dsimp only
  split
  · exact returned _ _ _
  · rfl

theorem takeFlow_framing (f : FlowCommand) : (takeFlow f s).framing = s.framing := by
  unfold takeFlow
  split
  · rfl
  · split
    · exact stopNow_framing s
    · rfl
  · rfl

theorem removeQueuedRestart_framing : (removeQueuedRestart s).framing = s.framing := rfl

theorem takeRestartAck_framing (tags : List Byte) : (takeRestartAck tags s).framing = s.framing := by
  unfold takeRestartAck
  split
  · rw [enterService_framing, removeQueuedRestart_framing, inTurn_framing (settleSlot_calls tags)]
  · rfl
end

theorem act_framing {f : State → State} (hf : ∀ t, (f t).framing = t.framing) (s : State) : (act f s).framing = s.framing := by
  have served : (serve s).framing = s.framing := of_served State.framing (fun _ _ => rfl) s
  unfold act whileRunning
  split
  · exact (framing_of_calls (finish_calls _ _)).trans ((hf _).trans served)
  · rfl

theorem takeMessage_framing {f : State → State} (hf : ∀ t, (f t).framing = t.framing) (s : State) :
    (takeMessage f s).framing = s.framing :=
  act_framing (fun t => by
    split
    · exact hf t
    · rfl) s

theorem takeHead_framing (i : Instr) (s : State) : (takeHead i s).framing = s.framing := by
  unfold takeHead
  split
  case h_1 tag => exact takeMessage_framing (fun t => framing_of_calls (takeAccept_calls tag t)) s
  case h_2 tag r => exact takeMessage_framing (fun t => framing_of_calls (takeReject_calls tag r t)) s
  case h_3 tag => exact takeMessage_framing (fun t => framing_of_calls (takeProgress_calls tag t)) s
  case h_4 tag r => exact takeMessage_framing (fun t => framing_of_calls (takeHeadClear_calls tag r t)) s
  case h_5 tag => exact takeMessage_framing (fun t => framing_of_calls (takeHeadClearAck_calls tag t)) s
  case h_6 ref number => exact takeMessage_framing (fun t => framing_of_calls (takeIncoming_calls t ref number)) s
  case h_7 tags => exact takeMessage_framing (fun t => takeRestartAck_framing t tags) s
  case h_8 f => exact takeMessage_framing (fun t => takeFlow_framing t f) s
  case h_9 => rfl

end Sys2Proof.Machine
end

