-- ==== Sys2Proof/Proofs/Scoring.lean ====
section
/-! PROOF. The score and the grade of a frame, its speech octets, its alignment and the head message that it completes (O29). -/

namespace Sys2Proof.Machine

/-! ## The score and the grade -/

theorem judgeLink_of_score {s : State} (good : Bool) (h : s.link.inService = true ∨ s.link = .resync) :
    judgeLink good s = countScore good s := by
  unfold judgeLink
  cases hl : s.link with
  | down | recovered =>
    rw [hl] at h
    exact absurd h (by decide)
  | up | warned | impaired | resync => rfl

theorem scoreAfter_of_low {good : Bool} {n : Nat} (h : (if good then n - 1 else n + 4) < 255) :
    scoreAfter good n = if good then n - 1 else n + 4 := by
  unfold scoreAfter
  cases good with
  | true => rfl
  | false => exact Nat.min_eq_right (Nat.le_of_lt h)

/-- A frame that does not take the score to its top. -/
theorem countScore_of_low {good : Bool} {s : State} (h : (if good then s.score - 1 else s.score + 4) < 255) :
    countScore good s = if s.link.inService then takeGrade { s with score := if good then s.score - 1 else s.score + 4 }
      else { s with score := if good then s.score - 1 else s.score + 4 } := by
  unfold countScore
  dsimp only
  rw [scoreAfter_of_low h]
  exact if_neg (Nat.ne_of_lt h)

theorem judgeLink_of_low {good : Bool} {s : State} (hl : s.link.inService = true ∨ s.link = .resync)
    (h : (if good then s.score - 1 else s.score + 4) < 255) :
    judgeLink good s = if s.link.inService then takeGrade { s with score := if good then s.score - 1 else s.score + 4 }
      else { s with score := if good then s.score - 1 else s.score + 4 } := by
  rw [judgeLink_of_score good hl, countScore_of_low h]

/-- The part as a frame's octets leave it, with its score. -/
def scored (octets : List Byte) (s : State) : State :=
  { framed octets s with score := if goodFrame s octets then s.score - 1 else s.score + 4 }

theorem scored_withPort (octets : List Byte) (s : State) (y : PortSide) : scored octets (s.withPort y) = (scored octets s).withPort y := by
  unfold scored
  rw [framed_withPort]
  rfl

theorem judgeFrame_of_low {octets : List Byte} {s : State} (hl : s.link.inService = true ∨ s.link = .resync)
    (h : (if goodFrame s octets then s.score - 1 else s.score + 4) < 255) :
    judgeFrame octets s = if s.link.inService then takeGrade (scored octets s) else scored octets s := by
  obtain ⟨al, bw, fw, ha, lo, fe, fh, eq⟩ := framed_frame octets s
  refine (judgeLink_of_low (s := framed octets s) (by rw [eq]; exact hl) (by rw [eq]; exact h)).trans ?_
  unfold scored
  rw [eq]

/-- The same for the frame behind the start of the transmitter. -/
theorem judgeFrame_served {octets : List Byte} {s : State} (hl : s.link.inService = true ∨ s.link = .resync)
    (h : (if goodFrame s octets then s.score - 1 else s.score + 4) < 255) :
    judgeFrame octets (serve s) = if s.link.inService then takeGrade (scored octets (serve s)) else scored octets (serve s) := by
  have link : (serve s).link = s.link := of_served State.link (fun _ _ => rfl) s
  have score : (serve s).score = s.score := of_served State.score (fun _ _ => rfl) s
  have good : goodFrame (serve s) octets = goodFrame s octets := of_served (fun x => goodFrame x octets) (fun _ _ => rfl) s
  rw [judgeFrame_of_low (by rw [link]; exact hl) (by rw [good, score]; exact h), link]

/-- What the judgement of a frame in service writes, taken from another part. -/
def State.judgedAs (s t : State) : State :=
  { s with
    score := t.score, link := t.link, alarms := t.alarms, assembler := t.assembler, rxBearer := t.rxBearer, align := t.align
    badWords := t.badWords, foundWords := t.foundWords, huntAt := t.huntAt, lastOctet := t.lastOctet
    frameEnd := t.frameEnd, frameHead := t.frameHead }

theorem scored_judgedAs (octets : List Byte) (s : State) : scored octets s = s.judgedAs (scored octets s) := by
  obtain ⟨al, bw, fw, ha, lo, fe, fh, eq⟩ := framed_frame octets s
  unfold scored
  rw [eq]
  rfl

theorem judgedAs_graded {s u : State} (h : u = s.judgedAs u) (l : LinkState) (al : List Alarm) :
    ({ u with link := l, alarms := al } : State) = s.judgedAs { u with link := l, alarms := al } :=
  (congrArg (fun x : State => { x with link := l, alarms := al }) h :)

theorem judgedAs_of_calls {s t u : State} (h : t.apartFromCalls = u.apartFromCalls) (hu : u = s.judgedAs u) :
    t.apartFromCalls = (s.judgedAs t).apartFromCalls := by
  have judged : (s.judgedAs t).apartFromCalls = (s.judgedAs u).apartFromCalls :=
    (congrArg (fun x : State => (s.judgedAs x).apartFromCalls) h :)
  rw [judged, ← hu]
  exact h

theorem scored_score (octets : List Byte) (s : State) :
    (scored octets s).score = if goodFrame s octets then s.score - 1 else s.score + 4 := rfl

theorem scored_link (octets : List Byte) (s : State) : (scored octets s).link = s.link := by
  obtain ⟨al, bw, fw, ha, lo, fe, fh, eq⟩ := framed_frame octets s
  unfold scored
  rw [eq]

/-- A part that differs from another in its calls and its alarms alone, said with its own alarms. -/
theorem alarms_of_calls {s t : State} {al : List Alarm} (h : t.apartFromCalls = ({ s with alarms := al } : State).apartFromCalls) :
    t.apartFromCalls = ({ s with alarms := t.alarms } : State).apartFromCalls := by
  have alarms : t.alarms = al := (congrArg State.alarms h :)
  rw [alarms]
  exact h

theorem beginCondition_alarms (a : AlarmId) (s : State) :
    (beginCondition a s).apartFromCalls = ({ s with alarms := (beginCondition a s).alarms } : State).apartFromCalls := by
  unfold beginCondition
  split
  · exact alarms_of_calls (report_calls _ (setAlarms _ s))
  · split
    · rfl
    · exact alarms_of_calls (report_calls _ (setAlarms _ s))

theorem endCondition_alarms (a : AlarmId) (s : State) :
    (endCondition a s).apartFromCalls = ({ s with alarms := (endCondition a s).alarms } : State).apartFromCalls := by
  unfold endCondition
  split
  · split
    · exact alarms_of_calls (report_calls _ (setAlarms _ s))
    · rfl
  · rfl

/-- The grade, and the alarms that its change may mark. -/
theorem takeGrade_calls (s : State) : ∃ al, (takeGrade s).apartFromCalls
    = ({ s with link := gradeOf s.score, alarms := al } : State).apartFromCalls := by
  have told : (linkEvent (setLink (gradeOf s.score) s)).apartFromCalls = ({ s with link := gradeOf s.score } : State).apartFromCalls :=
    report_calls _ _
  have marked {t u : State} (ht : t.apartFromCalls = ({ u with alarms := t.alarms } : State).apartFromCalls)
      (hu : u.apartFromCalls = ({ s with link := gradeOf s.score } : State).apartFromCalls) :
      t.apartFromCalls = ({ s with link := gradeOf s.score, alarms := t.alarms } : State).apartFromCalls :=
    ht.trans (congrArg (fun x : State => ({ x with alarms := t.alarms } : State)) hu :)
  unfold takeGrade
  dsimp only
  split
  · next same => exact ⟨s.alarms, by rw [same]⟩
  · split
    · exact ⟨_, marked (beginCondition_alarms _ _) told⟩
    · split
      · exact ⟨_, marked (endCondition_alarms _ _) told⟩
      · exact ⟨s.alarms, told⟩

theorem gradeOf_eq (n : Nat) : gradeOf n = if n < 64 then .up else if n < 160 then .warned else .impaired := rfl

/-- A frame in service that leaves the score below its top. -/
theorem exec_frame_grades {octets : List Byte} {s : State} (hrun : Running s) (hl : s.link.inService = true) (hf : frameMessage octets s = none)
    (h : (if goodFrame s octets then s.score - 1 else s.score + 4) < 255) :
    Answers (.trunkFrame octets) s fun t =>
      t.score = (if goodFrame s octets then s.score - 1 else s.score + 4) ∧ t.link = gradeOf t.score
        ∧ t.apartFromCalls = (s.judgedAs t).apartFromCalls := by
  refine ⟨_, exec_frame_of_none hrun hf, ?_⟩
  have served := judgeFrame_served (.inl hl) h
  rw [if_pos hl] at served
  obtain ⟨al, grade⟩ := takeGrade_calls (scored octets (serve s))
  rw [eq_withPort (serve_port s), scored_withPort] at grade
  have ends : (act (judgeFrame octets) s).apartFromCalls
      = ({ scored octets s with link := gradeOf (scored octets s).score, alarms := al } : State).apartFromCalls := by
    rw [act_running hrun, finish_calls, served, eq_withPort (serve_port s), scored_withPort]
    exact grade
  generalize act (judgeFrame octets) s = t at ends
  have score : t.score = (scored octets s).score := (congrArg State.score ends :)
  refine ⟨score.trans (scored_score octets s), ?_, ?_⟩
  · rw [score]
    exact (congrArg State.link ends :)
  · exact judgedAs_of_calls ends (judgedAs_graded (scored_judgedAs octets s) _ _)

/-! ## The reports of a grade -/

theorem alarmEntry_markAlarm (a : AlarmId) (b : Bool) (s : State) :
    alarmEntry (markAlarm a b s) a = (alarmEntry s a).map fun e => { e with present := b } := by
  unfold alarmEntry markAlarm setAlarms
  dsimp only
  induction s.alarms with
  | nil => rfl
  | cons e es ih =>
    rw [List.map_cons]
    by_cases he : e.id = a
    · simp [he]
    · simp [he, ih]

theorem markAlarm_others (a : AlarmId) (b : Bool) (s : State) :
    ((markAlarm a b s).alarms.filter fun e => decide (e.id ≠ a)) = s.alarms.filter fun e => decide (e.id ≠ a) := by
  unfold markAlarm setAlarms
  dsimp only
  induction s.alarms with
  | nil => rfl
  | cons e es ih =>
    rw [List.map_cons]
    by_cases he : e.id = a
    · rw [if_pos he, List.filter_cons_of_neg (by simpa using he), List.filter_cons_of_neg (by simpa using he)]
      exact ih
    · rw [if_neg he, List.filter_cons_of_pos (by simpa using he), List.filter_cons_of_pos (by simpa using he), ih]

theorem alarmMarked_begun (a : AlarmId) (s : State) : AlarmMarked a true s (conditionBegun a s) := by
  unfold conditionBegun
  cases h : alarmEntry s a with
  | none =>
    refine ⟨?_, by simp [setAlarms]⟩
    unfold alarmEntry at h ⊢
    simp [setAlarms, h]
  | some e =>
    dsimp only
    cases hp : e.present with
    | true =>
      rw [if_pos rfl]
      exact ⟨by simp [h, hp], rfl⟩
    | false =>
      rw [if_neg Bool.false_ne_true]
      exact ⟨by simp [alarmEntry_markAlarm, h], markAlarm_others a true s⟩

theorem alarmMarked_ended (a : AlarmId) (s : State) : AlarmMarked a false s (conditionEnded a s) := by
  unfold conditionEnded
  cases h : alarmEntry s a with
  | none => exact ⟨by simp [h], rfl⟩
  | some e =>
    dsimp only
    cases hp : e.present with
    | true =>
      rw [if_pos rfl]
      exact ⟨by simp [alarmEntry_markAlarm, h], markAlarm_others a false s⟩
    | false =>
      rw [if_neg Bool.false_ne_true]
      exact ⟨by simp [h, hp], rfl⟩

/-- The part as it takes the grade of its score, reports apart. -/
def graded (s : State) : State :=
  if gradeOf s.score = s.link then s
  else if gradeOf s.score = .impaired then conditionBegun .linkImpaired (setLink (gradeOf s.score) s)
  else if s.link = .impaired then conditionEnded .linkImpaired (setLink (gradeOf s.score) s)
  else setLink (gradeOf s.score) s

/-- The reports of the grade. -/
def gradeReports (s : State) : List Report :=
  if gradeOf s.score = s.link then []
  else .linkEvent (gradeOf s.score) s.score :: (if gradeOf s.score = .impaired then begun s .linkImpaired
    else if s.link = .impaired then ended s .linkImpaired else [])

theorem Comes.grades {s u t : State} {rs : List Report} {n : Nat} (h : Comes s rs u t) (hr : Room n s) (hn : rs.length + 1 < n) :
    Comes s (rs ++ gradeReports u) (graded u) (takeGrade t) := by
  have score : t.score = u.score := (congrArg State.score h.port :)
  have link : t.link = u.link := (congrArg State.link h.port :)
  have told := (h.map (setLink (gradeOf u.score)) fun _ _ => rfl).linkEvent hr (Nat.lt_of_succ_lt hn)
  have room : (rs ++ [Report.linkEvent (gradeOf u.score) u.score]).length < n := by
    rw [List.length_append]
    exact hn
  unfold graded gradeReports takeGrade
  dsimp only
  rw [score, link]
  split
  · rw [List.append_nil]
    exact h
  · split
    · exact (told.begins .linkImpaired hr room).reports_eq (List.append_assoc ..)
    · split
      · exact (told.ends .linkImpaired hr room).reports_eq (List.append_assoc ..)
      · exact told

theorem graded_frame (s : State) : ∃ al, graded s = { s with link := gradeOf s.score, alarms := al } := by
  unfold graded conditionBegun conditionEnded
  split
  · next same => exact ⟨s.alarms, by rw [same]⟩
  · split
    · split
      · exact ⟨_, rfl⟩
      · split <;> exact ⟨_, rfl⟩
    · split
      · split
        · split <;> exact ⟨_, rfl⟩
        · exact ⟨_, rfl⟩
      · exact ⟨_, rfl⟩

/-- The alarms of a grade: LINK_IMPAIRED's condition begins or ends with IMPAIRED, and nothing else. -/
theorem graded_alarms (s : State) :
    if gradeOf s.score = s.link ∨ (gradeOf s.score ≠ .impaired ∧ s.link ≠ .impaired) then (graded s).alarms = s.alarms
    else AlarmMarked .linkImpaired (decide (gradeOf s.score = .impaired)) s (graded s) := by
  unfold graded
  by_cases same : gradeOf s.score = s.link
  · rw [if_pos (.inl same), if_pos same]
  · rw [if_neg same]
    by_cases now : gradeOf s.score = .impaired
    · rw [if_neg fun x => x.elim same fun y => y.1 now, if_pos now, decide_eq_true now]
      exact alarmMarked_begun .linkImpaired (setLink (gradeOf s.score) s)
    · rw [if_neg now, decide_eq_false now]
      by_cases was : s.link = .impaired
      · rw [if_neg fun x => x.elim same fun y => y.2 was, if_pos was]
        exact alarmMarked_ended .linkImpaired (setLink (gradeOf s.score) s)
      · rw [if_pos (.inr ⟨now, was⟩), if_neg was]
        rfl

/-- The reports and the alarms of a grade, for a part that has another's link and alarms. -/
theorem gradeReports_of_alike {s u : State} (hl : u.link = s.link) (ha : u.alarms = s.alarms) : gradeReports u
    = if gradeOf u.score = s.link then [] else .linkEvent (gradeOf u.score) u.score :: (if gradeOf u.score = .impaired then begun s .linkImpaired
      else if s.link = .impaired then ended s .linkImpaired else []) := by
  unfold gradeReports begun ended alarmEntry
  rw [hl, ha]

theorem graded_alarms_of_alike {s u : State} (hl : u.link = s.link) (ha : u.alarms = s.alarms) :
    if gradeOf u.score = s.link ∨ (gradeOf u.score ≠ .impaired ∧ s.link ≠ .impaired) then (graded u).alarms = s.alarms
    else AlarmMarked .linkImpaired (decide (gradeOf u.score = .impaired)) s (graded u) := by
  have alarms := graded_alarms u
  unfold AlarmMarked alarmEntry at alarms ⊢
  rw [hl, ha] at alarms
  exact alarms

theorem scored_alarms (octets : List Byte) (s : State) : (scored octets s).alarms = s.alarms := by
  obtain ⟨al, bw, fw, ha, lo, fe, fh, eq⟩ := framed_frame octets s
  unfold scored
  rw [eq]

/-- A frame in service with nobody waiting: its grade and the reports of the grade. -/
theorem exec_frame_reports {octets : List Byte} {s : State} (hrun : Running s) (hl : s.link.inService = true) (hf : frameMessage octets s = none)
    (h : (if goodFrame s octets then s.score - 1 else s.score + 4) < 255) (hq : s.waitQueue = []) (he : EventsFinished s) (hroom : Room 2 s) :
    Answers (.trunkFrame octets) s fun t =>
      Made s t (if t.link = s.link then []
        else .linkEvent t.link t.score :: (if t.link = .impaired then begun s .linkImpaired
          else if s.link = .impaired then ended s .linkImpaired else []))
      ∧ (if t.link = s.link ∨ (t.link ≠ .impaired ∧ s.link ≠ .impaired) then t.alarms = s.alarms
        else AlarmMarked .linkImpaired (decide (t.link = .impaired)) s t)
      ∧ t.apartFromPort = (s.judgedAs t).apartFromPort := by
  have served := judgeFrame_served (.inl hl) h
  rw [if_pos hl] at served
  have told := ((Comes.served s).map (scored octets) (scored_withPort octets)).grades hroom (by decide)
  obtain ⟨al, grade⟩ := graded_frame (scored octets s)
  have judged := scored_judgedAs octets s
  have reports := gradeReports_of_alike (scored_link octets s) (scored_alarms octets s)
  have alarms := graded_alarms_of_alike (scored_link octets s) (scored_alarms octets s)
  rw [grade] at told alarms
  generalize scored octets s = u at told judged reports alarms
  have wait : u.waitQueue = s.waitQueue := (congrArg State.waitQueue judged :)
  have cells : u.cells = s.cells := (congrArg State.cells judged :)
  have posture : u.posture = s.posture := (congrArg State.posture judged :)
  have slots : u.slots = s.slots := (congrArg State.slots judged :)
  have holdover : u.holdover = s.holdover := (congrArg State.holdover judged :)
  have mode : u.mode = s.mode := (congrArg State.mode judged :)
  refine .of_event hrun (exec_frame_of_none hrun hf) served told
    (.of_nobody cells posture (wait.trans hq) (he.of_same slots holdover mode)) fun y made => ⟨reports ▸ made, alarms, ?_⟩
  exact (congrArg (fun x : State => ({ x with link := gradeOf u.score, alarms := al } : State).apartFromPort) judged :)

end Sys2Proof.Machine
end

