-- ==== Sys2Proof/Proofs/Framing.lean ====
section
/-! PROOF. The octets of a frame: its speech, its alignment, its head message, and what every frame keeps (O29). -/

namespace Sys2Proof.Machine

/-! ## The Framer after a frame (R121, R122) -/

/-- Whatever the link and the head message do, a frame leaves the Framer as its octets say. -/
theorem exec_frame_framing {octets : List Byte} {s : State} (hrun : Running s) :
    Answers (.trunkFrame octets) s fun t => t.framing = (framed octets s).framing := by
  have served : (framed octets (serve s)).framing = (framed octets s).framing := by
    rw [eq_withPort (serve_port s), framed_withPort]
    rfl
  have judged : (act (judgeFrame octets) (serve s)).framing = (framed octets s).framing := by
    have running : Running (serve s) := (of_served State.power (fun _ _ => rfl) s).trans hrun
    rw [act_running running, serve_serve, framing_of_calls (finish_calls _ _), judgeFrame_eq, judgeLink_framing]
    exact served
  have taken : (whileRunning (takeFrame octets) s).framing = (framed octets s).framing := by
    rw [whileRunning_of_running hrun]
    unfold takeFrame
    dsimp only
    split
    · exact (takeHead_framing _ _).trans judged
    · exact judged
  exact ⟨_, rfl, taken⟩

/-- The speech octets of a frame. -/
theorem framed_rxBearer (octets : List Byte) (s : State) : (framed octets s).rxBearer = bearerOf (goodFrame s octets) (frameOf s octets) := by
  obtain ⟨al, bw, fw, ha, lo, fe, fh, eq⟩ := framed_frame octets s
  rw [eq]

theorem trackAlignment_of_aligned {octets : List Byte} {s : State} (ha : s.align = .aligned) (he : s.frameHead.length + s.frameEnd = 25) :
    trackAlignment octets s = { checkWord (frameOf s octets) s with
      frameHead := octets.drop s.frameEnd, lastOctet := if octets = [] then s.lastOctet else octets.getLast? } := by
  have ends : frameEnds s = true := decide_eq_true he
  unfold trackAlignment
  dsimp only
  rw [ha, ends]
  rfl

theorem trackAlignment_of_hunting {octets : List Byte} {s : State} (ha : s.align = .hunting) :
    trackAlignment octets s = { (if s.foundWords = 0 then huntFrom (octetStream s octets) 0 s
      else if wordAt (octetStream s octets) s.huntAt then regainAlignment octets s
      else huntFrom (octetStream s octets) (s.huntAt + 1) s) with
      lastOctet := if octets = [] then s.lastOctet else octets.getLast? } := by
  unfold trackAlignment
  dsimp only
  rw [ha]

theorem tracked_aligned {octets : List Byte} {s : State} (ha : s.align = .aligned) (he : s.frameHead.length + s.frameEnd = 25) :
    (trackAlignment octets s).frameHead = octets.drop s.frameEnd ∧ (trackAlignment octets s).frameEnd = s.frameEnd
      ∧ (if (frameOf s octets).take 2 = [0x4D, 0xB2] then (trackAlignment octets s).align = .aligned ∧ (trackAlignment octets s).badWords = 0
        else if s.badWords + 1 < 3 then (trackAlignment octets s).align = .aligned ∧ (trackAlignment octets s).badWords = s.badWords + 1
        else (trackAlignment octets s).align = .hunting ∧ (trackAlignment octets s).badWords = 0
          ∧ (trackAlignment octets s).foundWords = 0) := by
  rw [trackAlignment_of_aligned ha he]
  unfold checkWord
  by_cases word : (frameOf s octets).take 2 = [0x4D, 0xB2]
  · rw [if_pos word, if_pos (show _ = [Config.alignHigh, Config.alignLow] from word)]
    exact ⟨rfl, rfl, ha, rfl⟩
  · rw [if_neg word, if_neg (show ¬ _ = [Config.alignHigh, Config.alignLow] from word)]
    by_cases few : s.badWords + 1 < 3
    · rw [if_pos few, if_pos few]
      exact ⟨rfl, rfl, ha, rfl⟩
    · rw [if_neg few, if_neg few]
      exact ⟨rfl, rfl, rfl, rfl, rfl⟩

/-- The search of a period finds the first place of the word from an index on. -/
theorem findWord_eq_some {stream : List (Option Byte)} {k j : Nat} (h : findWord stream k = some j) :
    k ≤ j ∧ j < 25 ∧ wordAt stream j = true ∧ ∀ i, k ≤ i → i < j → wordAt stream i = false := by
  unfold findWord at h
  have range : (List.range 25).drop k = List.range' k (25 - k) := by
    rw [List.range_eq_range', List.drop_range']
    simp
  rw [range, List.find?_range'_eq_some] at h
  obtain ⟨found, place, before⟩ := h
  rw [List.mem_range'_1] at place
  refine ⟨place.1, by omega, found, fun i hi hj => ?_⟩
  simpa using before i hi hj

theorem findWord_eq_none {stream : List (Option Byte)} {k : Nat} (h : findWord stream k = none) (i : Nat) (hk : k ≤ i) (hi : i < 25) :
    wordAt stream i = false := by
  unfold findWord at h
  have range : (List.range 25).drop k = List.range' k (25 - k) := by
    rw [List.range_eq_range', List.drop_range']
    simp
  rw [range, List.find?_eq_none] at h
  have quiet := h i (List.mem_range'_1.mpr ⟨hk, by omega⟩)
  simpa using quiet

theorem tracked_searching {octets : List Byte} {s : State} (ha : s.align = .hunting) (hf : s.foundWords = 0) :
    (trackAlignment octets s).align = .hunting
      ∧ (if ∀ k ∈ List.range 25, wordAt (octetStream s octets) k = false then (trackAlignment octets s).foundWords = 0
        else (trackAlignment octets s).foundWords = 1 ∧ (trackAlignment octets s).huntAt < 25
          ∧ wordAt (octetStream s octets) (trackAlignment octets s).huntAt = true
          ∧ ∀ k ∈ List.range (trackAlignment octets s).huntAt, wordAt (octetStream s octets) k = false) := by
  rw [trackAlignment_of_hunting ha, if_pos hf]
  unfold huntFrom
  cases h : findWord (octetStream s octets) 0 with
  | none =>
    refine ⟨ha, ?_⟩
    rw [if_pos fun k hk => findWord_eq_none h k (Nat.zero_le k) (List.mem_range.mp hk)]
  | some j =>
    obtain ⟨-, low, word, before⟩ := findWord_eq_some h
    refine ⟨ha, ?_⟩
    rw [if_neg fun x => by rw [x j (List.mem_range.mpr low)] at word; cases word]
    exact ⟨rfl, low, word, fun k hk => before k (Nat.zero_le k) (List.mem_range.mp hk)⟩

theorem frameEndAt_eq {k : Nat} (h : k < 25) : frameEndAt k = if k < 2 then k + 24 else k - 1 := by
  unfold frameEndAt
  split <;> omega

theorem tracked_found {octets : List Byte} {s : State} (ha : s.align = .hunting) (hf : s.foundWords = 1) :
    if wordAt (octetStream s octets) s.huntAt = true then
      (trackAlignment octets s).align = .aligned ∧ (trackAlignment octets s).badWords = 0 ∧ (trackAlignment octets s).foundWords = 0
        ∧ (s.huntAt < 25 → (trackAlignment octets s).frameEnd = if s.huntAt < 2 then s.huntAt + 24 else s.huntAt - 1)
    else (trackAlignment octets s).align = .hunting ∧ ((trackAlignment octets s).foundWords = 1 → s.huntAt < (trackAlignment octets s).huntAt) := by
  have second : s.foundWords ≠ 0 := by rw [hf]; decide
  rw [trackAlignment_of_hunting ha, if_neg second]
  split
  · exact ⟨rfl, rfl, rfl, frameEndAt_eq⟩
  · unfold huntFrom
    cases h : findWord (octetStream s octets) (s.huntAt + 1) with
    | none => exact ⟨ha, fun x => nomatch x⟩
    | some j => exact ⟨ha, fun _ => (findWord_eq_some h).1⟩

/-- A part with another assembler. -/
def State.feeding (s : State) (a : Assembler) : State := { s with assembler := a }

theorem checkWord_feeding (frame : List Byte) (s : State) (a : Assembler) : checkWord frame (s.feeding a) = (checkWord frame s).feeding a := by
  have bad : (s.feeding a).badWords = s.badWords := rfl
  unfold checkWord
  rw [bad]
  split
  · rfl
  · split <;> rfl

theorem huntFrom_feeding (stream : List (Option Byte)) (k : Nat) (s : State) (a : Assembler) :
    huntFrom stream k (s.feeding a) = (huntFrom stream k s).feeding a := by
  unfold huntFrom
  split <;> rfl

theorem trackAlignment_feeding (octets : List Byte) (s : State) (a : Assembler) :
    trackAlignment octets (s.feeding a) = (trackAlignment octets s).feeding a := by
  have align : (s.feeding a).align = s.align := rfl
  have ends : frameEnds (s.feeding a) = frameEnds s := rfl
  have frame : frameOf (s.feeding a) = frameOf s := rfl
  have stream : octetStream (s.feeding a) = octetStream s := rfl
  have found : (s.feeding a).foundWords = s.foundWords := rfl
  have at' : (s.feeding a).huntAt = s.huntAt := rfl
  unfold trackAlignment
  dsimp only
  rw [align, ends, frame, stream, found, at', checkWord_feeding, huntFrom_feeding, huntFrom_feeding]
  split
  · split <;> rfl
  · split
    · rfl
    · split <;> rfl

/-- The alignment after a frame is that of the period's octets. -/
theorem framed_framing (octets : List Byte) (s : State) : ∃ b, (framed octets s).framing
    = (b, (trackAlignment octets s).align, (trackAlignment octets s).badWords, (trackAlignment octets s).foundWords,
      (trackAlignment octets s).huntAt, (trackAlignment octets s).frameEnd, (trackAlignment octets s).frameHead) := by
  have tracks := trackAlignment_feeding octets s (assemblerAfter (goodFrame s octets) (frameOf s octets) s).1
  unfold State.feeding at tracks
  unfold framed
  rw [tracks]
  exact ⟨_, rfl⟩

/-- A fact of the alignment after a period is one of the part after the frame. -/
theorem Answers.of_framing {octets : List Byte} {s : State} {P : State → Prop} (hrun : Running s)
    (h : ∀ t : State, t.framing = (framed octets s).framing → P t) : Answers (.trunkFrame octets) s P := by
  obtain ⟨t, made, kept⟩ := exec_frame_framing (octets := octets) hrun
  exact ⟨t, made, h t kept⟩

/-! ## A good frame (R197) -/

theorem exists_concat {l : List Byte} {n : Nat} (h : l.length = n + 1) : ∃ init last, l = init ++ [last] ∧ init.length = n := by
  rcases List.eq_nil_or_concat l with rfl | ⟨init, last, rfl⟩
  · cases h
  · exact ⟨init, last, List.concat_eq_append .., by simpa using h⟩

theorem getLast_trunkFrame (a b last : Byte) (covered : List Byte) : (a :: b :: (covered ++ [last])).getLast? = some last := by
  rw [← List.cons_append, ← List.cons_append, List.getLast?_concat]

/-- The octets of a frame are as Table 12.1 lays them out. -/
theorem trunkFrame_iff (frame : List Byte) :
    (frame.length = 25 ∧ frame.take 2 = [Config.alignHigh, Config.alignLow] ∧ frame.getLast? = some (crc8 ((frame.drop 2).take 22)))
      ↔ ∃ bearer o1 o2, bearer.length = 20 ∧ frame = trunkFrameOf bearer o1 o2 := by
  constructor
  · rintro ⟨long, word, check⟩
    obtain ⟨init, last, rfl, hinit⟩ := exists_concat long
    obtain ⟨front, o2, rfl, hfront⟩ := exists_concat hinit
    obtain ⟨front, o1, rfl, hfront⟩ := exists_concat hfront
    obtain ⟨a, b, bearer, rfl⟩ : ∃ a b bearer, front = a :: b :: bearer := by
      match front, hfront with
      | a :: b :: bearer, _ => exact ⟨a, b, bearer, rfl⟩
    have hb : bearer.length = 20 := by simpa using hfront
    obtain ⟨rfl, rfl⟩ : a = Config.alignHigh ∧ b = Config.alignLow := by simpa using word
    have covered : ((bearer ++ [o1, o2]) ++ [last]).take 22 = bearer ++ [o1, o2] := List.take_left' (by simp [hb])
    have octets : (Config.alignHigh :: Config.alignLow :: bearer) ++ [o1] ++ [o2] ++ [last]
        = Config.alignHigh :: Config.alignLow :: ((bearer ++ [o1, o2]) ++ [last]) := by simp
    rw [octets] at check ⊢
    have last_eq : last = crc8 (bearer ++ [o1, o2]) := by
      rw [getLast_trunkFrame, Option.some_inj] at check
      exact check.trans (congrArg crc8 covered)
    exact ⟨bearer, o1, o2, hb, by rw [last_eq]; rfl⟩
  · rintro ⟨bearer, o1, o2, long, rfl⟩
    have covered (last : Byte) : ((bearer ++ [o1, o2]) ++ [last]).take 22 = bearer ++ [o1, o2] := List.take_left' (by simp [long])
    refine ⟨by simp [trunkFrameOf, long], rfl, ?_⟩
    unfold trunkFrameOf
    dsimp only
    rw [getLast_trunkFrame]
    exact congrArg some (congrArg crc8 (covered _)).symm

theorem goodFrame_iff (octets : List Byte) (s : State) : goodFrame s octets = true ↔
    s.align = .aligned ∧ ∃ bearer o1 o2, bearer.length = 20 ∧ frameOf s octets = trunkFrameOf bearer o1 o2 := by
  rw [← trunkFrame_iff]
  unfold goodFrame
  dsimp only
  rw [Bool.and_eq_true_iff, Bool.and_eq_true_iff, Bool.and_eq_true_iff, decide_eq_true_iff, decide_eq_true_iff, decide_eq_true_iff,
    decide_eq_true_iff, and_assoc, and_assoc]

/-! ## The octets at a codec (R6, R84) -/

theorem joined_eq_some {s : State} {i : SlotId} {p : Port} (h : joined s i = some p) : ∃ c ∈ (s.slots.at i).call?, c.line = p := by
  unfold joined at h
  split at h
  · next c b hs => exact ⟨c, by rw [hs]; rfl, Option.some.inj h⟩
  · next c b hs => exact ⟨c, by rw [hs]; rfl, Option.some.inj h⟩
  · exact nomatch h

/-- The slot joined to a line is the one that the line names. -/
theorem call_of_joined {s : State} (hn : LinesNameSlots s) {i : SlotId} {p : Port} (h : joined s i = some p) :
    ∃ d, (s.lines.at p).call = some (i, d) := by
  obtain ⟨-, -, named⟩ := hn
  obtain ⟨c, held, rfl⟩ := joined_eq_some h
  exact ⟨c.direction, named i c held⟩

theorem codecOut_of_joined {s : State} (hn : LinesNameSlots s) {i : SlotId} {p : Port} (h : joined s i = some p) :
    codecOut s p = if (s.slots.at i).isHeld then 0x55 else s.rxBearer.at i := by
  obtain ⟨d, names⟩ := call_of_joined hn h
  have found : allSlots.find? (fun j => decide (joined s j = some p)) = some i := by
    cases hf : allSlots.find? fun j => decide (joined s j = some p) with
    | none =>
      rw [List.find?_eq_none] at hf
      exact absurd (decide_eq_true h) (hf i (List.mem_finRange i))
    | some j =>
      have join : decide (joined s j = some p) = true := List.find?_some (p := fun j => decide (joined s j = some p)) hf
      obtain ⟨e, other⟩ := call_of_joined hn (of_decide_eq_true join)
      have same := Option.some.inj (names.symm.trans other)
      rw [(Prod.mk.inj same).1]
  unfold codecOut
  rw [found]
  rfl

theorem codecOut_of_unjoined {s : State} {p : Port} (h : ∀ i, joined s i ≠ some p) : codecOut s p = 0x55 := by
  have none : allSlots.find? (fun j => decide (joined s j = some p)) = none :=
    List.find?_eq_none.mpr fun i _ => by simpa using h i
  unfold codecOut
  rw [none]
  rfl

/-- A line hears its BUSY slot, and silence otherwise. -/
theorem codecOut_cases (p : Port) {s : State} (hn : LinesNameSlots s) :
    match (s.lines.at p).call with
    | none => codecOut s p = 0x55
    | some (i, _) => match s.slots.at i with
      | .busy _ _ => codecOut s p = s.rxBearer.at i ∧ bearerOut s i = s.codecIn.at p
      | _ => codecOut s p = 0x55 ∧ bearerOut s i = 0x55 := by
  cases hc : (s.lines.at p).call with
  | none =>
    refine codecOut_of_unjoined fun i h => ?_
    obtain ⟨d, names⟩ := call_of_joined hn h
    rw [hc] at names
    cases names
  | some x =>
    obtain ⟨i, d⟩ := x
    obtain ⟨-, c, held, line, -, -⟩ := hn.2.1 p (i, d) hc
    have unjoined (h : joined s i = none) : codecOut s p = 0x55 := codecOut_of_unjoined fun j hj => by
      obtain ⟨e, other⟩ := call_of_joined hn hj
      rw [hc] at other
      cases other
      rw [h] at hj
      cases hj
    have mine : (s.slots.at i).call? = some c := held
    dsimp only
    cases hs : s.slots.at i with
    | busy c' b =>
      rw [hs] at mine
      cases mine
      have join : joined s i = some p := by
        unfold joined
        rw [hs]
        exact congrArg some line
      refine ⟨?_, ?_⟩
      · rw [codecOut_of_joined hn join, hs]
        rfl
      · unfold bearerOut
        rw [hs, ← line]
    | held c' b =>
      rw [hs] at mine
      cases mine
      have join : joined s i = some p := by
        unfold joined
        rw [hs]
        exact congrArg some line
      refine ⟨?_, ?_⟩
      · rw [codecOut_of_joined hn join, hs]
        rfl
      · unfold bearerOut
        rw [hs]
        rfl
    | free | reserved c' b | clearing p' n side b | blocked side =>
      refine ⟨unjoined ?_, ?_⟩
      · unfold joined
        rw [hs]
      · unfold bearerOut
        rw [hs]
        rfl

/-! ## The head message that a frame completes (R144) -/

/-- A head message is taken as its own command is. -/
theorem exec_of_headMessage {kind : Byte} {body : List Byte} {i : Instr} (h : headMessage kind body = some i) (u : State) :
    exec i u = .next (takeHead i u) := by
  unfold headMessage at h
  split at h
  · split at h
    · split at h
      · cases h
      · cases h
        rfl
    · cases h
  · split at h
    · split at h
      · split at h
        · cases h
        · obtain ⟨r, -, rfl⟩ := Option.map_eq_some_iff.mp h
          rfl
      · cases h
    · split at h
      · split at h
        · split at h
          · cases h
          · cases h
            rfl
        · cases h
      · split at h
        · split at h
          · split at h
            · cases h
            · obtain ⟨r, -, rfl⟩ := Option.map_eq_some_iff.mp h
              rfl
          · cases h
        · split at h
          · split at h
            · split at h
              · cases h
              · cases h
                rfl
            · cases h
          · split at h
            · split at h
              · cases h
                rfl
              · cases h
            · split at h
              · split at h
                · cases h
                  rfl
                · cases h
              · split at h
                · split at h
                  · obtain ⟨f, -, rfl⟩ := Option.map_eq_some_iff.mp h
                    rfl
                  · cases h
                · cases h

theorem exec_of_frameMessage {octets : List Byte} {s : State} {i : Instr} (h : frameMessage octets s = some i) (u : State) :
    exec i u = .next (takeHead i u) := by
  obtain ⟨message, -, decoded⟩ := Option.bind_eq_some_iff.mp h
  unfold decodeHeadMessage at decoded
  split at decoded
  · split at decoded
    · exact exec_of_headMessage decoded u
    · cases decoded
  · cases decoded

theorem exec_frame_of_message {octets : List Byte} {s : State} {i : Instr} (hrun : Running s) (h : frameMessage octets s = some i) :
    exec (.trunkFrame octets) s = exec i (act (judgeFrame octets) s) := by
  have served : frameMessage octets (serve s) = some i := (of_served (frameMessage octets) (fun _ _ => rfl) s).trans h
  have taken : whileRunning (takeFrame octets) s = takeHead i (act (judgeFrame octets) s) := by
    rw [whileRunning_of_running hrun]
    unfold takeFrame
    dsimp only
    rw [served]
    exact congrArg (takeHead i) (whileRunning_serve _ s)
  rw [exec_of_frameMessage h]
  exact congrArg Host.Outcome.next taken

/-- What the assembler looks at in a message: its length octet counts all of it but four octets. -/
def IsMessage (message : List Byte) : Prop := ∃ a b len rest, message = a :: b :: len :: rest ∧ len.toNat ≤ 80 ∧ rest.length = len.toNat + 1

theorem isMessage_trunkMessage (kind : Byte) {body : List Byte} (h : body.length ≤ 80) : IsMessage (trunkMessage kind body) := by
  have length : (byte body.length).toNat = body.length := by
    unfold byte
    rw [BitVec.toNat_ofNat]
    omega
  exact ⟨_, _, _, _, rfl, by rw [length]; exact h, by rw [length, List.length_append]; rfl⟩

/-- An octet of a message that is not its last. -/
theorem assemble_goes_on {held : List Byte} {o : Byte} {rest : List Byte} (h : IsMessage (held ++ o :: rest)) (hr : rest ≠ []) :
    assemble (.assembling held) o = (.assembling (held ++ [o]), none) := by
  obtain ⟨a, b, len, tail, eq, low, long⟩ := h
  have more : 0 < rest.length := List.length_pos_of_ne_nil hr
  have total : held.length + 1 + rest.length = len.toNat + 4 := by
    have both := congrArg List.length eq
    simp only [List.length_append, List.length_cons] at both
    omega
  unfold assemble
  dsimp only
  cases hn : (held ++ [o])[2]? with
  | none => rfl
  | some l =>
    have same : l = len := by
      have place := (List.getElem?_eq_some_iff.mp hn).1
      have at2 : (held ++ o :: rest)[2]? = some l := by
        rw [show held ++ o :: rest = (held ++ [o]) ++ rest by simp, List.getElem?_append_left place]
        exact hn
      rw [eq] at at2
      exact (Option.some.inj at2).symm
    have short : (held ++ [o]).length < l.toNat + 4 := by
      rw [same, List.length_append, List.length_singleton]
      omega
    dsimp only
    rw [if_neg (by rw [same]; omega), if_pos short]

/-- The last octet of a message. -/
theorem assemble_completes {held : List Byte} {o : Byte} (h : IsMessage (held ++ [o])) :
    assemble (.assembling held) o = (.hunting, some (held ++ [o])) := by
  obtain ⟨a, b, len, tail, eq, low, long⟩ := h
  unfold assemble
  dsimp only
  rw [eq]
  dsimp only [List.getElem?_cons_succ, List.getElem?_cons_zero]
  rw [if_neg (by omega), if_neg (by simp only [List.length_cons]; omega)]

theorem assembleTwo_of_some {a a' : Assembler} {o1 o2 : Byte} {m : List Byte} (h : assemble a o1 = (a', some m)) :
    (assembleTwo a o1 o2).2 = some m := by
  unfold assembleTwo
  rw [h]
  rfl

theorem assembleTwo_of_none {a a' : Assembler} {o1 o2 : Byte} (h : assemble a o1 = (a', none)) :
    (assembleTwo a o1 o2).2 = (assemble a' o2).2 := by
  unfold assembleTwo
  rw [h]
  rfl

/-- The octet or the two that complete a head message (R144). -/
theorem frameMessage_completes {octets held message : List Byte} {i : Instr} {o1 o2 : Byte} {s : State} (hm : s.link.messages = true)
    (hg : goodFrame s octets = true) (h1 : (frameOf s octets)[22]? = some o1) (h2 : (frameOf s octets)[23]? = some o2)
    (ha : s.assembler = .assembling held) (hw : WellFormed i = true) (he : encodeHeadMessage i = some message)
    (hmsg : message = held ++ [o1] ∨ message = held ++ [o1, o2]) : frameMessage octets s = some i := by
  have decoded : decodeHeadMessage message = some i := headMessagesDecodeAsEncoded i message hw he
  have whole : IsMessage message := by
    unfold encodeHeadMessage at he
    obtain ⟨⟨kind, body⟩, hc, rfl⟩ := Option.map_eq_some_iff.mp he
    exact isMessage_trunkMessage kind (headMessage_headCode hw hc).2
  have completed : (assemblerAfter (goodFrame s octets) (frameOf s octets) s).2 = some message := by
    unfold assemblerAfter
    rw [if_pos ⟨hg, hm⟩, h1, h2, ha, Option.getD_some, Option.getD_some]
    rcases hmsg with rfl | rfl
    · exact assembleTwo_of_some (assemble_completes whole)
    · rw [assembleTwo_of_none (assemble_goes_on whole (List.cons_ne_nil _ _)),
        assemble_completes (by rw [List.append_assoc]; exact whole), List.append_assoc]
      rfl
  unfold frameMessage
  rw [completed]
  exact decoded

/-! ## RESYNC -/

/-- A frame in RESYNC counts without a grade. -/
theorem exec_frame_in_resync {octets : List Byte} {s : State} (hrun : Running s) (hl : s.link = .resync) (hf : frameMessage octets s = none)
    (h : (if goodFrame s octets then s.score - 1 else s.score + 4) < 255) (he : EventsFinished s) :
    exec (.trunkFrame octets) s = .next ((scored octets s).withPort (serve s).portSide) := by
  have quiet : s.link.inService = false := by rw [hl]; rfl
  have judged : judgeFrame octets (s.withPort (serve s).portSide) = (scored octets s).withPort (serve s).portSide := by
    rw [← eq_withPort (serve_port s), judgeFrame_served (.inr hl) h, quiet, if_neg Bool.false_ne_true, eq_withPort (serve_port s),
      scored_withPort]
    rfl
  refine exec_of_event hrun (exec_frame_of_none hrun hf) judged ?_
  obtain ⟨al, bw, fw, ha, lo, fe, fh, eq⟩ := framed_frame octets s
  unfold scored
  rw [eq]
  exact .of_same rfl he

/-- Settles O29: the score and the grade, the speech octets, the head message, the layout of a good frame, the alignment, and the reports. -/
theorem scoreCountsInService : Obligations.ScoreCountsInService := by
  refine ⟨fun octets s hrun hl hf h => ?_, fun octets s hrun => .of_framing hrun fun t kept i => ?_, fun p s => codecOut_cases p,
    fun octets i s hrun h => exec_frame_of_message hrun h,
    fun octets held message i o1 o2 s _ hm hg h1 h2 ha _ hw he hmsg => frameMessage_completes hm hg h1 h2 ha hw he hmsg,
    goodFrame_iff, fun octets s hrun ha he => .of_framing hrun fun t kept => ?_, fun octets s hrun ha hw => .of_framing hrun fun t kept => ?_,
    fun octets s hrun ha hw => .of_framing hrun fun t kept => ?_, fun octets s hrun hl hf h hq he hroom => ?_,
    fun octets s hrun hl hf h he => ?_⟩
  · exact exec_frame_grades hrun hl hf h
  · unfold State.framing at kept
    rw [(Prod.mk.inj kept).1, framed_rxBearer, bearerOf_at]
  · obtain ⟨b, tracks⟩ := framed_framing octets s
    rw [tracks] at kept
    simp only [State.framing, Prod.mk.injEq] at kept
    obtain ⟨-, align, bad, found, -, ends, head⟩ := kept
    rw [align, bad, found, ends, head]
    exact tracked_aligned ha he
  · obtain ⟨b, tracks⟩ := framed_framing octets s
    rw [tracks] at kept
    simp only [State.framing, Prod.mk.injEq] at kept
    obtain ⟨-, align, -, found, hunt, -, -⟩ := kept
    rw [align, found, hunt]
    exact tracked_searching ha hw
  · obtain ⟨b, tracks⟩ := framed_framing octets s
    rw [tracks] at kept
    simp only [State.framing, Prod.mk.injEq] at kept
    obtain ⟨-, align, bad, found, hunt, ends, -⟩ := kept
    rw [align, bad, found, hunt, ends]
    exact tracked_found ha hw
  · exact exec_frame_reports hrun hl hf h hq he hroom
  · refine ⟨_, exec_frame_in_resync hrun hl hf h he, ?_⟩
    have port := eq_withPort (serve_port s)
    obtain ⟨al, bw, fw, ha, lo, fe, fh, eq⟩ := framed_frame octets s
    unfold scored
    rw [eq]
    generalize (serve s).portSide = y at port ⊢
    rw [port]
    rfl

end Sys2Proof.Machine
end

