-- ==== Sys2Proof/Proofs/Falls.lean ====
section
/-! PROOF. Lines that change state in turn, with their reports, and slots that are freed in turn: what becomes of each depends on itself
alone (for O30 to O32 and O42). -/

namespace Sys2Proof.Machine

/-! ## Steps that do not disturb each other -/

/-- Where each step changes its own view alone, every view is that of its own step. -/
theorem inTurn_view {α β : Type} [DecidableEq α] {f : α → State → State} {view : State → α → β}
    (self : ∀ a s t, view s a = view t a → view (f a s) a = view (f a t) a) (other : ∀ a b s, b ≠ a → view (f a s) b = view s b)
    {xs : List α} (hn : xs.Nodup) (s : State) (b : α) : view (inTurn xs f s) b = if b ∈ xs then view (f b s) b else view s b := by
  induction xs generalizing s with
  | nil => rfl
  | cons a xs ih =>
    obtain ⟨apart, hn⟩ := List.nodup_cons.mp hn
    have rest := ih hn (f a s)
    show view (inTurn xs f (f a s)) b = _
    rw [rest]
    by_cases hb : b = a
    · subst hb
      rw [if_neg apart, if_pos List.mem_cons_self]
    · have before : view (f a s) b = view s b := other a b s hb
      have mem : b ∈ a :: xs ↔ b ∈ xs := by rw [List.mem_cons]; exact or_iff_right hb
      by_cases hx : b ∈ xs
      · rw [if_pos hx, if_pos (mem.mpr hx)]
        exact self b _ _ before
      · rw [if_neg hx, if_neg fun x => hx (mem.mp x)]
        exact before

/-- The same where each step is a whole part's. -/
theorem inTurn_view_all {n : Nat} {β : Type} {f : Fin n → State → State} {view : State → Fin n → β}
    (self : ∀ a s t, view s a = view t a → view (f a s) a = view (f a t) a) (other : ∀ a b s, b ≠ a → view (f a s) b = view s b)
    (s : State) (b : Fin n) : view (inTurn (List.finRange n) f s) b = view (f b s) b :=
  (inTurn_view self other (List.nodup_finRange n) s b).trans (if_pos (List.mem_finRange b))

/-- Steps with reports, where no step disturbs the reports of another. -/
theorem Comes.steps {α : Type} {n : Nat} {op pure : α → State → State} {reps : State → α → List Report} {I : State → Prop}
    {s : State} (step : ∀ a u t rs, I u → Comes s rs u t → rs.length + (reps u a).length ≤ n → Comes s (rs ++ reps u a) (pure a u) (op a t))
    (keeps : ∀ a u, I u → I (pure a u)) (other : ∀ a b u, b ≠ a → reps (pure a u) b = reps u b) {xs : List α} (hn : xs.Nodup)
    {u t : State} {rs : List Report} (hi : I u) (h : Comes s rs u t) (hr : rs.length + (xs.flatMap (reps u)).length ≤ n) :
    Comes s (rs ++ xs.flatMap (reps u)) (inTurn xs pure u) (inTurn xs op t) := by
  induction xs generalizing u t rs with
  | nil => exact h.reports_eq (List.append_nil rs).symm
  | cons a xs ih =>
    obtain ⟨apart, hn⟩ := List.nodup_cons.mp hn
    rw [List.flatMap_cons, List.length_append] at hr
    have rest : xs.flatMap (reps (pure a u)) = xs.flatMap (reps u) :=
      List.flatMap_congr fun b hb => other a b u fun x => apart (x ▸ hb)
    have stepped := ih hn (keeps a u hi) (step a u t rs hi h (by omega)) (by rw [rest, List.length_append]; omega)
    rw [rest] at stepped
    exact stepped.reports_eq (by rw [List.flatMap_cons, List.append_assoc])

/-! ## Lines that fall -/

/-- A rule that says which states lines fall to: HOLDOVER, or a bare state at the end of a call. -/
structure FallRule (tgt : LineState → Option LineState) : Prop where
  queued : tgt .queued = none
  ends : ∀ old st, tgt old = some st → st = .holdover ∨ st.endsCall = true

section
variable (tgt : LineState → Option LineState) (r : Reason) (p : Port) (s : State)

/-- A line falls, with its report. -/
def fallLine : State :=
  match tgt (s.lines.at p).state with
  | none => s
  | some st => if st = .holdover then enterLine p .holdover (s.lines.at p).call none r s else enterBare p st r s

/-- The part after a line has fallen, its reports apart. -/
def fallen : State :=
  match tgt (s.lines.at p).state with
  | none => s
  | some st => if st = .holdover then moveLine p .holdover (s.lines.at p).call none s else lineEnds p st s

/-- The record of a line that has fallen. -/
def fallenLine : Line :=
  match tgt (s.lines.at p).state with
  | none => s.lines.at p
  | some st => if st = .holdover then { Line.unequipped with
      state := .holdover, call := (s.lines.at p).call, faultPresent := (s.lines.at p).faultPresent } else lineEnded s p st

/-- The reports of a line that falls. -/
def fallReports : List Report :=
  match tgt (s.lines.at p).state with
  | none => []
  | some st => if st = .holdover then [.callEvent p .holdover (.because r)] else endReports s p st r

/-- Whether a line's call ends as it falls. -/
def fallsOut : Bool := (tgt (s.lines.at p).state).any fun st => decide (st ≠ .holdover)

/-- The bus after lines fall. -/
def fallenBus : TestBus :=
  match s.bus with
  | .claimed p => if fallsOut tgt p s then .held p else .claimed p
  | b => b

/-- What of the part a line's fall looks at. -/
def fallView : Line × Bool × DigitBuffer := (s.lines.at p, decide (s.bus = .claimed p), s.buffers.at p)
end

section
variable {tgt : LineState → Option LineState} (hto : FallRule tgt) (r : Reason) (p : Port) (s : State)

theorem fallen_of_none (h : tgt (s.lines.at p).state = none) : fallen tgt p s = s := by
  unfold fallen
  rw [h]

theorem moved_holdover (l : Line) (call : Option (SlotId × Direction)) : l.moved .holdover call none
    = { Line.unequipped with state := .holdover, call := call, faultPresent := l.faultPresent } := by
  simp [Line.moved, LineState.mayOweAnswer, LineState.called, LineState.active, Line.unequipped]

include hto

theorem not_queued_of_falls {st : LineState} (h : tgt (s.lines.at p).state = some st) : (s.lines.at p).state ≠ .queued := fun x => by
  rw [x, hto.queued] at h
  cases h

theorem fallen_lines : (fallen tgt p s).lines = s.lines.put p (fallenLine tgt p s) := by
  unfold fallen fallenLine
  cases h : tgt (s.lines.at p).state with
  | none => exact (Table.put_at _ _).symm
  | some st =>
    dsimp only
    split
    · exact (moveLine_lines ..).trans (congrArg (s.lines.put p) (moved_holdover _ _))
    · next hst => exact lineEnds_lines p s ((hto.ends _ _ h).resolve_left hst)

theorem fallen_buffers : (fallen tgt p s).buffers = if (tgt (s.lines.at p).state).isSome then s.buffers.put p DigitBuffer.empty else s.buffers := by
  unfold fallen
  cases h : tgt (s.lines.at p).state with
  | none => rfl
  | some st =>
    dsimp only
    split
    · exact moveLine_buffers ..
    · next hst =>
      rw [lineEnds_eq p s ((hto.ends _ _ h).resolve_left hst)]
      rfl

theorem fallen_bus : (fallen tgt p s).bus = if fallsOut tgt p s then busEnded s p else s.bus := by
  unfold fallen fallsOut
  cases h : tgt (s.lines.at p).state with
  | none => rfl
  | some st =>
    dsimp only
    split
    · next hst =>
      rw [moveLine_eq, Option.any_some, hst]
      rfl
    · next hst =>
      rw [lineEnds_eq p s ((hto.ends _ _ h).resolve_left hst), Option.any_some, decide_eq_true hst]
      rfl

theorem fallen_waitQueue : (fallen tgt p s).waitQueue = s.waitQueue := by
  unfold fallen
  cases h : tgt (s.lines.at p).state with
  | none => rfl
  | some st =>
    have stays := not_queued_of_falls hto p s h
    dsimp only
    split
    · exact (moveLine_waitQueue ..).trans (if_neg fun x => stays x.1)
    · next hst =>
      rw [lineEnds_eq p s ((hto.ends _ _ h).resolve_left hst)]
      exact if_neg stays

/-- What a fall leaves alone. -/
theorem fallen_frame : ∃ lines scan buffers cells queue drive bus, fallen tgt p s = { s with
    lines := lines, scan := scan, buffers := buffers, cells := cells, ringQueue := queue, ringDrive := drive, bus := bus } := by
  have wait := fallen_waitQueue hto p s
  have frame : ∃ lines scan buffers wait cells queue drive bus, fallen tgt p s = { s with
      lines := lines, scan := scan, buffers := buffers, waitQueue := wait, cells := cells, ringQueue := queue, ringDrive := drive, bus := bus } := by
    unfold fallen
    cases h : tgt (s.lines.at p).state with
    | none => exact ⟨_, _, _, _, _, _, _, _, rfl⟩
    | some st =>
      dsimp only
      split
      · rw [moveLine_eq]
        exact ⟨_, _, _, _, _, _, _, _, rfl⟩
      · next hst =>
        rw [lineEnds_eq p s ((hto.ends _ _ h).resolve_left hst)]
        exact ⟨_, _, _, _, _, _, _, _, rfl⟩
  obtain ⟨lines, scan, buffers, q, cells, queue, drive, bus, eq⟩ := frame
  rw [eq] at wait
  have same : q = s.waitQueue := wait
  exact ⟨lines, scan, buffers, cells, queue, drive, bus, by rw [eq, same]⟩

/-- Where the line is not called, the ringing stands. -/
theorem fallen_ring (hc : (tgt (s.lines.at p).state).isSome = true → (s.lines.at p).state.called = false) :
    (fallen tgt p s).cells = s.cells ∧ (fallen tgt p s).ringQueue = s.ringQueue := by
  unfold fallen
  cases h : tgt (s.lines.at p).state with
  | none => exact ⟨rfl, rfl⟩
  | some st =>
    have uncalled := hc (by rw [h]; rfl)
    dsimp only
    split
    · rw [moveLine_eq]
      have stays : ¬ LeavesRing p .holdover s := fun x => by rw [x.1] at uncalled; cases uncalled
      exact ⟨if_neg stays, if_neg stays⟩
    · next hst =>
      rw [lineEnds_eq p s ((hto.ends _ _ h).resolve_left hst), uncalled]
      exact ⟨rfl, rfl⟩

omit hto in
theorem fallView_eq_iff {s t : State} : fallView p s = fallView p t ↔
    s.lines.at p = t.lines.at p ∧ (s.bus = .claimed p ↔ t.bus = .claimed p) ∧ s.buffers.at p = t.buffers.at p := by
  unfold fallView
  rw [Prod.mk.injEq, Prod.mk.injEq, decide_eq_decide]

theorem fallView_other {p q : Port} (hq : q ≠ p) : fallView q (fallen tgt p s) = fallView q s := by
  rw [fallView_eq_iff, fallen_lines hto, fallen_buffers hto, fallen_bus hto]
  refine ⟨Table.at_put_other _ _ hq, ?_, ?_⟩
  · split
    · unfold busEnded
      split
      · next claimed =>
        rw [claimed]
        exact ⟨fun x => (nomatch x), fun x => absurd (TestBus.claimed.inj x).symm hq⟩
      · exact Iff.rfl
    · exact Iff.rfl
  · split
    · exact Table.at_put_other _ _ hq
    · rfl

omit hto in
theorem fallenLine_of_view {s t : State} (h : fallView p s = fallView p t) : fallenLine tgt p s = fallenLine tgt p t := by
  obtain ⟨line, bus, -⟩ := (fallView_eq_iff p).mp h
  unfold fallenLine lineEnded
  rw [line]
  simp only [bus]

omit hto in
theorem fallReports_of_view {s t : State} (h : fallView p s = fallView p t) : fallReports tgt r p s = fallReports tgt r p t := by
  obtain ⟨line, bus, -⟩ := (fallView_eq_iff p).mp h
  unfold fallReports endReports
  rw [line]
  simp only [bus]

theorem fallView_self {s t : State} (h : fallView p s = fallView p t) : fallView p (fallen tgt p s) = fallView p (fallen tgt p t) := by
  have lines := fallenLine_of_view (tgt := tgt) p h
  obtain ⟨line, bus, buffer⟩ := (fallView_eq_iff p).mp h
  rw [fallView_eq_iff, fallen_lines hto, fallen_lines hto, fallen_buffers hto, fallen_buffers hto, fallen_bus hto, fallen_bus hto, line]
  refine ⟨by rw [Table.at_put_same, Table.at_put_same, lines], ?_, ?_⟩
  · unfold fallsOut busEnded
    rw [line]
    split
    · simp only [bus]
      split
      · exact Iff.rfl
      · exact bus
    · exact bus
  · split
    · rw [Table.at_put_same, Table.at_put_same]
    · exact buffer

/-- The lines after every line has fallen. -/
theorem falls_lines : ((inTurn allPorts (fallen tgt) s).lines.at p) = fallenLine tgt p s := by
  have view : fallView p (inTurn allPorts (fallen tgt) s) = _ := inTurn_view_all (f := fallen tgt) (view := fun s p => fallView p s) (fun a s t h => fallView_self hto a h)
    (fun a b s hb => fallView_other hto s hb) s p
  have line := ((fallView_eq_iff p).mp view).1
  exact line.trans (by rw [fallen_lines hto, Table.at_put_same])

theorem falls_buffers : (inTurn allPorts (fallen tgt) s).buffers.at p
    = if (tgt (s.lines.at p).state).isSome then DigitBuffer.empty else s.buffers.at p := by
  have view : fallView p (inTurn allPorts (fallen tgt) s) = _ := inTurn_view_all (f := fallen tgt) (view := fun s p => fallView p s) (fun a s t h => fallView_self hto a h)
    (fun a b s hb => fallView_other hto s hb) s p
  have buffer := ((fallView_eq_iff p).mp view).2.2
  rw [buffer, fallen_buffers hto]
  split
  · exact Table.at_put_same ..
  · rfl

theorem falls_frame (xs : List Port) : ∃ lines scan buffers cells queue drive bus, inTurn xs (fallen tgt) s = { s with
    lines := lines, scan := scan, buffers := buffers, cells := cells, ringQueue := queue, ringDrive := drive, bus := bus } := by
  induction xs generalizing s with
  | nil => exact ⟨_, _, _, _, _, _, _, rfl⟩
  | cons a xs ih =>
    obtain ⟨l1, s1, b1, c1, q1, d1, bus1, one⟩ := fallen_frame hto a s
    obtain ⟨l2, s2, b2, c2, q2, d2, bus2, rest⟩ := ih (fallen tgt a s)
    refine ⟨l2, s2, b2, c2, q2, d2, bus2, ?_⟩
    show inTurn xs (fallen tgt) (fallen tgt a s) = _
    rw [rest, one]

omit hto in
theorem fallsOut_of_view {s t : State} (h : fallView p s = fallView p t) : fallsOut tgt p s = fallsOut tgt p t := by
  unfold fallsOut
  rw [((fallView_eq_iff p).mp h).1]

theorem fallen_bus_of_claimed {q : Port} (h : s.bus = .claimed q) :
    (fallen tgt p s).bus = if p = q ∧ fallsOut tgt p s = true then .held q else .claimed q := by
  rw [fallen_bus hto]
  unfold busEnded
  rw [h]
  by_cases hq : p = q
  · subst hq
    simp
  · rw [if_neg (c := p = q ∧ _) fun x => hq x.1, if_neg (c := TestBus.claimed q = _) fun x => hq (TestBus.claimed.inj x).symm, ite_self]

theorem fallen_bus_of_other (h : ∀ q, s.bus ≠ .claimed q) : (fallen tgt p s).bus = s.bus := by
  rw [fallen_bus hto, busEnded_of_unclaimed (h p), ite_self]

theorem falls_bus_of_other (xs : List Port) (h : ∀ q, s.bus ≠ .claimed q) : (inTurn xs (fallen tgt) s).bus = s.bus := by
  induction xs generalizing s with
  | nil => rfl
  | cons a xs ih =>
    have one := fallen_bus_of_other hto a s h
    exact (ih (fallen tgt a s) (by rw [one]; exact h)).trans one

theorem falls_bus_of_claimed {xs : List Port} (hn : xs.Nodup) {q : Port} (h : s.bus = .claimed q) :
    (inTurn xs (fallen tgt) s).bus = if q ∈ xs ∧ fallsOut tgt q s = true then .held q else .claimed q := by
  induction xs generalizing s with
  | nil => exact h.trans (if_neg fun x => nomatch x.1).symm
  | cons a xs ih =>
    obtain ⟨apart, hn⟩ := List.nodup_cons.mp hn
    have one := fallen_bus_of_claimed hto a s h
    have later := ih (s := fallen tgt a s) hn
    show (inTurn xs (fallen tgt) (fallen tgt a s)).bus = _
    by_cases out : a = q ∧ fallsOut tgt a s = true
    · obtain ⟨rfl, out⟩ := out
      rw [if_pos ⟨rfl, out⟩] at one
      rw [falls_bus_of_other hto (fallen tgt a s) xs (by rw [one]; exact fun r x => nomatch x), one, if_pos ⟨List.mem_cons_self, out⟩]
    · rw [if_neg out] at one
      rw [later one]
      by_cases ha : q = a
      · subst ha
        rw [if_neg fun x => apart x.1, if_neg fun x => out ⟨rfl, x.2⟩]
      · have same : fallsOut tgt q (fallen tgt a s) = fallsOut tgt q s := fallsOut_of_view q (fallView_other hto s ha)
        simp only [same, List.mem_cons, ha, false_or]

/-- The bus after every line has fallen. -/
theorem falls_bus : (inTurn allPorts (fallen tgt) s).bus = fallenBus tgt s := by
  unfold fallenBus
  cases hb : s.bus with
  | claimed q =>
    have mem : q ∈ allPorts := List.mem_finRange q
    refine (falls_bus_of_claimed hto s (xs := allPorts) (List.nodup_finRange 64) hb).trans ?_
    simp only [mem, true_and]
  | free => exact (falls_bus_of_other hto s _ (by rw [hb]; exact fun q x => nomatch x)).trans hb
  | held p => exact (falls_bus_of_other hto s _ (by rw [hb]; exact fun q x => nomatch x)).trans hb

theorem Comes.falls {n : Nat} {s u t : State} {rs : List Report} (r : Reason) (hr : Room n s) {xs : List Port} (hn : xs.Nodup)
    (hg : ∀ g, (u.groups.at g).state ≠ .standbyPending ∨ ∀ old, tgt old ≠ some .idle) (h : Comes s rs u t)
    (hl : rs.length + (xs.flatMap fun p => fallReports tgt r p u).length ≤ n) :
    Comes s (rs ++ xs.flatMap fun p => fallReports tgt r p u) (inTurn xs (fallen tgt) u) (inTurn xs (fallLine tgt r) t) := by
  refine Comes.steps (reps := fun u p => fallReports tgt r p u)
    (I := fun u => ∀ g, (u.groups.at g).state ≠ .standbyPending ∨ ∀ old, tgt old ≠ some .idle) (fun p u t rs hg h hl => ?_) (fun p u hg => ?_)
    (fun a b u hb => fallReports_of_view r b (fallView_other hto u hb)) hn hg h hl
  · have lines : t.lines = u.lines := (congrArg State.lines h.port :)
    unfold fallLine fallen fallReports at *
    rw [lines]
    cases ht : tgt (u.lines.at p).state with
    | none => exact h.reports_eq (List.append_nil rs).symm
    | some st =>
      rw [ht] at hl
      dsimp only at hl ⊢
      by_cases hst : st = .holdover
      · rw [if_pos hst] at hl
        rw [if_pos hst, if_pos hst, if_pos hst]
        exact h.enterLine p _ none r rfl hr hl
      · rw [if_neg hst] at hl
        rw [if_neg hst, if_neg hst, if_neg hst]
        exact h.enterBare p r ((hto.ends _ _ ht).resolve_left hst) (fun hi => (hg (groupOf p)).resolve_right fun x => x _ (hi ▸ ht)) hr hl
  · obtain ⟨l, c, b, k, q, d, bus, eq⟩ := fallen_frame hto p u
    rw [eq]
    exact hg

end

end Sys2Proof.Machine
end

