-- ==== Sys2Proof/Proofs/Frees.lean ====
section
/-! PROOF. Slots at the entry to DOWN and at the end of held calls (for O30 to O32). -/

namespace Sys2Proof.Machine

theorem freeSlot_slots {i : SlotId} {s : State} (h : (s.slots.at i).inUse = true) :
    (freeSlot i s).slots = s.slots.put i (released (s.slots.at i).blockPending) := by rw [freeSlot_eq h]

/-- Between two parts only the slots, their signalling records, the free list and the mark differ. -/
def WritesSlots (s t : State) : Prop := ∃ slots sig free mark, t = { s with slots := slots, sig := sig, free := free, mark := mark }

theorem WritesSlots.refl (s : State) : WritesSlots s s := ⟨_, _, _, _, rfl⟩

theorem WritesSlots.trans {s t u : State} (h : WritesSlots s t) (h' : WritesSlots t u) : WritesSlots s u := by
  obtain ⟨_, _, _, _, one⟩ := h
  obtain ⟨slots, sig, free, mark, two⟩ := h'
  exact ⟨slots, sig, free, mark, by rw [two, one]⟩

theorem WritesSlots.inTurn {α : Type} {f : α → State → State} (h : ∀ a s, WritesSlots s (f a s)) (xs : List α) (s : State) :
    WritesSlots s (inTurn xs f s) := by
  induction xs generalizing s with
  | nil => exact .refl s
  | cons a xs ih => exact (h a s).trans (ih (f a s))

/-- A slot freed leaves everything but the slots, their signalling records, the free list and the mark. -/
theorem freeSlot_writes (i : SlotId) (s : State) : WritesSlots s (freeSlot i s) := by
  by_cases h : (s.slots.at i).inUse = true
  · rw [freeSlot_eq h]
    exact ⟨_, _, _, _, rfl⟩
  · unfold freeSlot
    rw [if_neg h]
    exact ⟨_, _, _, _, rfl⟩

/-- A slot freed has nothing owed and no timer, and the others' records stand. -/
theorem freeSlot_sig (i j : SlotId) (s : State) : ((freeSlot i s).sig.at j).timer = none ∧ ((freeSlot i s).sig.at j).owed = none
    ∨ (freeSlot i s).sig.at j = s.sig.at j := by
  by_cases h : (s.slots.at i).inUse = true
  · rw [freeSlot_eq h]
    dsimp only
    rw [Table.at_put]
    split
    · exact .inl ⟨rfl, rfl⟩
    · exact .inr rfl
  · unfold freeSlot
    rw [if_neg h]
    exact .inr rfl

/-! ## The entry to DOWN (Table 7.4) -/

/-- A slot after the entry to DOWN. -/
def slotAtDown (holdover : Nat) (sl : Slot) : Slot :=
  match sl with
  | .busy c b => if holdover = 0 then (if b then .blocked .cabinet else .free) else .held c b
  | .reserved _ b => if b then .blocked .cabinet else .free
  | .clearing _ _ _ b => if b then .blocked .cabinet else .free
  | sl => sl

theorem downSlot_slots (i : SlotId) (s : State) : (downSlot i s).slots = s.slots.put i (slotAtDown s.params.holdover (s.slots.at i)) := by
  have frees (h : (s.slots.at i).inUse = true) := freeSlot_slots h
  unfold downSlot slotAtDown
  cases hs : s.slots.at i with
  | busy c b =>
    rw [hs] at frees
    dsimp only
    split
    · exact frees rfl
    · rfl
  | reserved c b =>
    rw [hs] at frees
    exact frees rfl
  | clearing p n side b =>
    rw [hs] at frees
    exact frees rfl
  | free | held c b | blocked why =>
    dsimp only
    rw [← hs, Table.put_at]

theorem downSlot_writes (i : SlotId) (s : State) : WritesSlots s (downSlot i s) := by
  unfold downSlot
  split
  · split
    · exact freeSlot_writes i s
    · exact ⟨_, _, _, _, rfl⟩
  · exact freeSlot_writes i s
  · exact freeSlot_writes i s
  · exact ⟨_, _, _, _, rfl⟩

theorem downSlot_sig (i j : SlotId) (s : State) : ((downSlot i s).sig.at j).timer = none ∧ ((downSlot i s).sig.at j).owed = none
    ∨ (downSlot i s).sig.at j = s.sig.at j := by
  unfold downSlot
  split
  · split
    · exact freeSlot_sig i j s
    · exact .inr rfl
  · exact freeSlot_sig i j s
  · exact freeSlot_sig i j s
  · exact .inr rfl

/-- The slots after the entry to DOWN. -/
theorem downSlots_at (i : SlotId) (s : State) : (inTurn allSlots downSlot s).slots.at i = slotAtDown s.params.holdover (s.slots.at i) := by
  have params (i : SlotId) (s : State) : (downSlot i s).params = s.params := by
    obtain ⟨_, _, _, _, eq⟩ := downSlot_writes i s
    rw [eq]
  have view := inTurn_view_all (f := downSlot) (view := fun s i => (s.slots.at i, s.params))
    (fun a s t h => by
      obtain ⟨slot, ps⟩ := Prod.mk.inj h
      rw [downSlot_slots, downSlot_slots, Table.at_put_same, Table.at_put_same, params, params, slot, ps])
    (fun a b s hb => by rw [downSlot_slots, Table.at_put_other _ _ hb, params]) s i
  have slot : (inTurn allSlots downSlot s).slots.at i = (downSlot i s).slots.at i := (Prod.mk.inj view).1
  rw [slot, downSlot_slots, Table.at_put_same]

theorem downSlots_writes (s : State) : WritesSlots s (inTurn allSlots downSlot s) := .inTurn downSlot_writes allSlots s

theorem downSlots_sig {s : State} (h : ∀ i, (s.sig.at i).timer = none ∧ (s.sig.at i).owed = none) (xs : List SlotId) (i : SlotId) :
    ((inTurn xs downSlot s).sig.at i).timer = none ∧ ((inTurn xs downSlot s).sig.at i).owed = none := by
  refine inTurn_induct (fun t => ∀ j, (t.sig.at j).timer = none ∧ (t.sig.at j).owed = none) downSlot xs (fun a _ t ht j => ?_) s h i
  rcases downSlot_sig a j t with quiet | same
  · exact quiet
  · rw [same]
    exact ht j

theorem downSlot_withPort (i : SlotId) (s : State) (y : PortSide) : downSlot i (s.withPort y) = (downSlot i s).withPort y := by
  have slots : (s.withPort y).slots = s.slots := rfl
  have params : (s.withPort y).params = s.params := rfl
  unfold downSlot
  rw [slots, params, freeSlot_withPort]
  split
  · split <;> rfl
  · rfl
  · rfl
  · rfl

/-! ## The end of held calls (R133, R141) -/

/-- A HELD slot is released, any other stands. -/
def letGo (i : SlotId) (s : State) : State := if (s.slots.at i).isHeld then freeSlot i s else s

theorem releaseHeld_eq (s : State) : releaseHeld s = inTurn allSlots letGo s := rfl

/-- A slot after the release of the held calls. -/
def slotLetGo (sl : Slot) : Slot :=
  match sl with
  | .held _ b => if b then .blocked .cabinet else .free
  | sl => sl

theorem letGo_slots (i : SlotId) (s : State) : (letGo i s).slots = s.slots.put i (slotLetGo (s.slots.at i)) := by
  have frees (h : (s.slots.at i).inUse = true) := freeSlot_slots h
  unfold letGo slotLetGo
  cases hs : s.slots.at i with
  | held c b =>
    rw [hs] at frees
    exact frees rfl
  | free | busy c b | reserved c b | clearing p n side b | blocked why =>
    dsimp only
    rw [← hs, Table.put_at]
    simp [hs, Slot.isHeld]

theorem letGo_writes (i : SlotId) (s : State) : WritesSlots s (letGo i s) := by
  unfold letGo
  split
  · exact freeSlot_writes i s
  · exact ⟨_, _, _, _, rfl⟩

theorem letGo_withPort (i : SlotId) (s : State) (y : PortSide) : letGo i (s.withPort y) = (letGo i s).withPort y := by
  have slots : (s.withPort y).slots = s.slots := rfl
  unfold letGo
  rw [slots, freeSlot_withPort]
  split <;> rfl

theorem inUse_of_held {sl : Slot} (h : sl.isHeld = true) : sl.inUse = true := by
  cases sl <;> first | rfl | exact nomatch h

theorem letGo_free (i : SlotId) (s : State) :
    (letGo i s).free = s.free ++ [i].filter fun i => (s.slots.at i).isHeld && !(s.slots.at i).blockPending := by
  unfold letGo
  cases hs : (s.slots.at i).isHeld with
  | true =>
    rw [if_pos rfl, freeSlot_eq (inUse_of_held hs)]
    cases hb : (s.slots.at i).blockPending <;> simp [hs, hb]
  | false => simp [hs]

theorem letGo_other {i j : SlotId} (s : State) (h : j ≠ i) : (letGo i s).slots.at j = s.slots.at j := by
  rw [letGo_slots, Table.at_put_other _ _ h]

/-- The slots after the release of the held calls. -/
theorem releaseHeld_at (i : SlotId) (s : State) : (releaseHeld s).slots.at i = slotLetGo (s.slots.at i) := by
  have view := inTurn_view_all (f := letGo) (view := fun s i => s.slots.at i)
    (fun a s t h => by rw [letGo_slots, letGo_slots, Table.at_put_same, Table.at_put_same]; exact congrArg slotLetGo h)
    (fun a b s hb => letGo_other s hb) s i
  exact view.trans (by rw [letGo_slots, Table.at_put_same])

theorem letsGo_free {xs : List SlotId} (hn : xs.Nodup) (s : State) :
    (inTurn xs letGo s).free = s.free ++ xs.filter fun i => (s.slots.at i).isHeld && !(s.slots.at i).blockPending := by
  induction xs generalizing s with
  | nil => exact (List.append_nil _).symm
  | cons a xs ih =>
    obtain ⟨apart, hn⟩ := List.nodup_cons.mp hn
    show (inTurn xs letGo (letGo a s)).free = _
    have same : (xs.filter fun i => ((letGo a s).slots.at i).isHeld && !((letGo a s).slots.at i).blockPending)
        = xs.filter fun i => (s.slots.at i).isHeld && !(s.slots.at i).blockPending :=
      List.filter_congr fun i hi => by
        have other : i ≠ a := fun x => apart (x ▸ hi)
        rw [letGo_other s other]
    rw [ih hn, letGo_free, same, List.append_assoc, ← List.filter_append]
    rfl

theorem releaseHeld_free (s : State) :
    (releaseHeld s).free = s.free ++ allSlots.filter fun i => (s.slots.at i).isHeld && !(s.slots.at i).blockPending :=
  letsGo_free (List.nodup_finRange 20) s

theorem releaseHeld_writes (s : State) : WritesSlots s (releaseHeld s) := .inTurn letGo_writes allSlots s

theorem releaseHeld_withPort (s : State) (y : PortSide) : releaseHeld (s.withPort y) = (releaseHeld s).withPort y :=
  inTurn_withPort letGo_withPort allSlots s y

/-- No slot is HELD any longer. -/
theorem anyHeld_released (s : State) : anyHeld (releaseHeld s) = false := by
  unfold anyHeld
  rw [List.any_eq_false]
  intro i _
  rw [releaseHeld_at]
  cases s.slots.at i with
  | held c b => cases b <;> simp [slotLetGo, Slot.isHeld]
  | free | busy c b | reserved c b | clearing p n side b | blocked why => simp [slotLetGo, Slot.isHeld]

end Sys2Proof.Machine
end

