-- ==== Sys2Proof/Proofs/HoldoverEnds.lean ====
section
/-! PROOF. The end of the holdover (O31): every HELD slot is released and every line in HOLDOVER is parked. -/

namespace Sys2Proof.Machine

/-! ## Reports of some lines among all -/

theorem flatMap_filter {α β : Type} (c : α → Bool) (f : α → List β) (xs : List α) :
    (xs.flatMap fun a => if c a then f a else []) = (xs.filter c).flatMap f := by
  induction xs with
  | nil => rfl
  | cons a xs ih =>
    rw [List.flatMap_cons, ih]
    cases h : c a with
    | true => rw [if_pos rfl, List.filter_cons_of_pos h, List.flatMap_cons]
    | false => rw [if_neg Bool.false_ne_true, List.filter_cons_of_neg (by rw [h]; exact Bool.false_ne_true), List.nil_append]

/-- One element may give two where every other gives one. -/
theorem length_flatMap_le {α β : Type} [DecidableEq α] {f : α → List β} {q : α} {xs : List α} (hn : xs.Nodup)
    (h : ∀ a ∈ xs, (f a).length ≤ if a = q then 2 else 1) : (xs.flatMap f).length ≤ xs.length + 1 := by
  suffices both : (xs.flatMap f).length ≤ xs.length + if q ∈ xs then 1 else 0 by split at both <;> omega
  induction xs with
  | nil => exact Nat.zero_le _
  | cons a xs ih =>
    obtain ⟨apart, hn⟩ := List.nodup_cons.mp hn
    have rest := ih hn fun b hb => h b (List.mem_cons_of_mem _ hb)
    have one := h a List.mem_cons_self
    rw [List.flatMap_cons, List.length_append, List.length_cons]
    by_cases ha : a = q
    · subst ha
      rw [if_pos rfl] at one
      rw [if_neg apart] at rest
      rw [if_pos List.mem_cons_self]
      omega
    · rw [if_neg ha] at one
      have mem : q ∈ a :: xs ↔ q ∈ xs := by
        rw [List.mem_cons]
        exact or_iff_right fun x => ha x.symm
      simp only [mem]
      omega

theorem endReports_claimed (s : State) : ∃ q, ∀ p st r, (endReports s p st r).length ≤ if p = q then 2 else 1 := by
  have claimed (q : Port) (h : ∀ p, s.bus = .claimed p → p = q) (p : Port) (st : LineState) (r : Reason) :
      (endReports s p st r).length ≤ if p = q then 2 else 1 := by
    unfold endReports
    split
    · next hb => rw [if_pos (h p hb)]; exact Nat.le_refl 2
    · split
      · exact Nat.le_succ 1
      · exact Nat.le_refl 1
  cases hb : s.bus with
  | claimed q => exact ⟨q, claimed q fun p x => (TestBus.claimed.inj (hb.symm.trans x)).symm⟩
  | free => exact ⟨0, claimed 0 fun p x => nomatch hb.symm.trans x⟩
  | held q => exact ⟨0, claimed 0 fun p x => nomatch hb.symm.trans x⟩

/-! ## No admission but in service -/

/-- Where the link is not in service and takes no ORDINARY line, an attempt does nothing. -/
theorem attempt_of_link {s : State} (hi : s.link.inService = false) (ho : s.link.ordinary = false) : attempt s = s := by
  have none (p : Port) : canAdmit s p = false := by
    unfold canAdmit
    rw [hi, ho]
    simp
  have heads (n : Nat) : admitHeads n s = s := by
    cases n with
    | zero => rfl
    | succ n =>
      unfold admitHeads
      cases s.waitQueue with
      | nil => rfl
      | cons p rest =>
        cases s.free with
        | nil => rfl
        | cons i others => exact if_neg fun x => by rw [none p] at x; cases x
  have still : mayPreempt s = false := by
    unfold mayPreempt
    rw [hi]
    simp
  have round : attemptRound s = (s, false) := by
    unfold attemptRound
    rw [heads]
    dsimp only
    rw [still]
    rfl
  unfold attempt
  rw [attemptRounds, round]
  rfl

/-! ## Lines that lose their held calls -/

/-- A line in HOLDOVER is parked. -/
def loseRule : LineState → Option LineState
  | .holdover => some .parked
  | _ => none

theorem loseRule_falls : FallRule loseRule where
  queued := rfl
  ends old st h := by
    unfold loseRule at h
    split at h
    · exact .inr (Option.some.inj h ▸ rfl)
    · cases h

theorem loseRule_not_idle (old : LineState) : loseRule old ≠ some .idle := by
  unfold loseRule
  split <;> simp

theorem loseRule_eq (st : LineState) : loseRule st = if st = .holdover then some .parked else none := by
  cases st <;> rfl

theorem loseHeld_eq (r : Reason) : loseHeld r = fallLine loseRule r := by
  funext p s
  unfold loseHeld fallLine
  rw [loseRule_eq]
  split <;> rfl

theorem fallenLine_lose (p : Port) (s : State) :
    fallenLine loseRule p s = if (s.lines.at p).state = .holdover then lineEnded s p .parked else s.lines.at p := by
  unfold fallenLine
  rw [loseRule_eq]
  by_cases h : (s.lines.at p).state = .holdover
  · rw [if_pos h, if_pos h]
    rfl
  · rw [if_neg h, if_neg h]

theorem fallReports_lose (r : Reason) (p : Port) (s : State) :
    fallReports loseRule r p s = if decide ((s.lines.at p).state = .holdover) then endReports s p .parked r else [] := by
  unfold fallReports
  rw [loseRule_eq]
  by_cases h : (s.lines.at p).state = .holdover
  · rw [if_pos h, if_pos (decide_eq_true h)]
    rfl
  · rw [if_neg h, if_neg (by simpa using h)]

/-- The loss of held calls leaves the ringing alone. -/
theorem loses_ring (xs : List Port) (s : State) :
    (inTurn xs (fallen loseRule) s).cells = s.cells ∧ (inTurn xs (fallen loseRule) s).ringQueue = s.ringQueue := by
  have one (p : Port) (s : State) := fallen_ring loseRule_falls p s fun h => by
    rw [loseRule_eq] at h
    split at h
    · next hs =>
      rw [hs]
      rfl
    · cases h
  exact ⟨inTurn_keeps State.cells _ (fun p s => (one p s).1) xs s, inTurn_keeps State.ringQueue _ (fun p s => (one p s).2) xs s⟩

/-- Settles O31: the slots are released, and then the lines. -/
theorem holdoverExpiryReleasesHeldCalls : Obligations.HoldoverExpiryReleasesHeldCalls := by
  intro ms s hrun hlink hhold hq hmode hroom
  have start := (((Comes.served s).map (fun x => { x with holdover := none }) fun _ _ => rfl).map releaseHeld releaseHeld_withPort)
  obtain ⟨slots, sig, free, mark, written⟩ := releaseHeld_writes { s with holdover := none }
  have at' (i : SlotId) := releaseHeld_at i { s with holdover := none }
  have frees := releaseHeld_free { s with holdover := none }
  have held := anyHeld_released { s with holdover := none }
  rw [written] at start at' frees held
  dsimp only at at' frees
  generalize hu : ({ { s with holdover := none } with slots := slots, sig := sig, free := free, mark := mark } : State) = u at start held
  have reports : (allPorts.flatMap fun p => fallReports loseRule .outOfService p u)
      = (allPorts.filter fun p => decide ((s.lines.at p).state = .holdover)).flatMap fun p => endReports s p .parked .outOfService := by
    rw [← flatMap_filter]
    refine List.flatMap_congr fun p _ => ?_
    rw [fallReports_lose, ← hu]
    rfl
  have few : (allPorts.flatMap fun p => fallReports loseRule .outOfService p u).length
      ≤ 1 + (allPorts.filter fun p => decide ((s.lines.at p).state = .holdover)).length := by
    obtain ⟨q, short⟩ := endReports_claimed s
    rw [reports, Nat.add_comm]
    exact length_flatMap_le (q := q) ((List.nodup_finRange 64).filter _) fun p _ => short p _ _
  have told := start.falls loseRule_falls .outOfService hroom (xs := allPorts) (List.nodup_finRange 64) (fun _ => .inr loseRule_not_idle)
    (by rw [List.length_nil, Nat.zero_add]; exact few)
  have line (p : Port) := falls_lines loseRule_falls p u
  obtain ⟨lines, scan, buffers, cells, queue, drive, bus, fell⟩ := falls_frame loseRule_falls u allPorts
  obtain ⟨sameCells, -⟩ := loses_ring allPorts u
  rw [reports] at told
  rw [fell] at told line sameCells
  have quiet : s.link.inService = false ∧ s.link.ordinary = false := by
    rcases hlink with h | h <;> rw [h] <;> exact ⟨rfl, rfl⟩
  have link : u.link = s.link := by rw [← hu]
  have served : (if (serve s).holdover.isSome then expireHoldover (serve s) else serve s)
      = inTurn allPorts (fallLine loseRule .outOfService) (releaseHeld { serve s with holdover := none }) := by
    rw [of_served State.holdover (fun _ _ => rfl), hhold]
    unfold expireHoldover
    rw [loseHeld_eq]
    rfl
  refine .of_event hrun (f := fun x => if x.holdover.isSome then expireHoldover x else x) rfl served told (fun y z => ?_) fun y made => ?_
  · refine finish_of_attempt (roomGained_of_same ?_ ?_) (attempt_of_link ?_ ?_) ⟨.inl ?_, fun x => absurd x ?_⟩
    · exact sameCells.trans (by rw [← hu]; rfl)
    · exact (by rw [← hu] : u.posture = s.posture)
    · exact link ▸ quiet.1
    · exact link ▸ quiet.2
    · exact (by rw [← hu] : u.holdover = none)
    · exact (by rw [← hu] : u.mode = s.mode) ▸ hmode
  · refine ⟨?_, ?_, ?_, fun i => ?_, fun p => ?_, ?_, made⟩
    · exact (by rw [← hu] : u.holdover = none)
    · exact link
    · exact (by rw [← hu] : u.txq = s.txq).trans hq
    · rw [← hu]
      exact at' i
    · refine (line p).trans ((fallenLine_lose p u).trans ?_)
      rw [← hu]
      rfl
    · rw [← hu]
      exact frees

end Sys2Proof.Machine
end

