-- ==== Sys2Proof/Proofs/Downs.lean ====
section
/-! PROOF. The entry to DOWN (O30). -/

namespace Sys2Proof.Machine

/-! ## The lines at the entry to DOWN (Table 7.4) -/

/-- The state a line falls to at the entry to DOWN. -/
def downRule (holdover : Nat) : LineState → Option LineState
  | .activeOut => some (if holdover = 0 then .parked else .holdover)
  | .activeIn => some (if holdover = 0 then .parked else .holdover)
  | .seizing => some .parked
  | .offered => some .idle
  | .ringing => some .idle
  | _ => none

theorem downRule_falls (holdover : Nat) : FallRule (downRule holdover) where
  queued := rfl
  ends old st h := by
    unfold downRule at h
    split at h <;> try cases h
    · split
      · exact .inr rfl
      · exact .inl rfl
    · split
      · exact .inr rfl
      · exact .inl rfl
    · exact .inr rfl
    · exact .inr rfl
    · exact .inr rfl

theorem stateAtDown_eq (s : State) (p : Port) : stateAtDown s p = downRule s.params.holdover (s.lines.at p).state := rfl

/-- A match on the state a line falls to, HOLDOVER apart. -/
theorem lineAtDown_eq (s : State) (p : Port) : lineAtDown s p = fallenLine (downRule s.params.holdover) p s := by
  unfold lineAtDown fallenLine
  rw [stateAtDown_eq]
  generalize downRule s.params.holdover (s.lines.at p).state = st
  cases st with
  | none => rfl
  | some st => cases st <;> rfl

theorem reportsAtDown_eq (s : State) (p : Port) : reportsAtDown s p = fallReports (downRule s.params.holdover) .outOfService p s := by
  unfold reportsAtDown fallReports
  rw [stateAtDown_eq]
  generalize downRule s.params.holdover (s.lines.at p).state = st
  cases st with
  | none => rfl
  | some st => cases st <;> rfl

theorem fallsOut_iff (s : State) (p : Port) : fallsOut (downRule s.params.holdover) p s = true
    ↔ ¬ (stateAtDown s p = none ∨ stateAtDown s p = some .holdover) := by
  unfold fallsOut
  rw [stateAtDown_eq]
  cases downRule s.params.holdover (s.lines.at p).state <;> simp

theorem busAtDown_eq (s : State) : busAtDown s = fallenBus (downRule s.params.holdover) s := by
  unfold busAtDown fallenBus
  cases s.bus with
  | claimed p =>
    dsimp only
    by_cases h : stateAtDown s p = none ∨ stateAtDown s p = some .holdover
    · rw [if_pos h, if_neg (fun x => (fallsOut_iff s p).mp x h)]
    · rw [if_neg h, if_pos ((fallsOut_iff s p).mpr h)]
  | free | held p => rfl

theorem downLine_eq {h : Nat} {s : State} (hs : s.params.holdover = h) (p : Port) : downLine p s = fallLine (downRule h) .outOfService p s := by
  subst hs
  unfold downLine fallLine downRule
  dsimp only
  by_cases h : s.params.holdover = 0
  · simp only [if_pos h]
    cases hst : (s.lines.at p).state <;> rfl
  · simp only [if_neg h]
    cases hst : (s.lines.at p).state <;> rfl

theorem downLine_lines' (p : Port) (s : State) : (downLine p s).apartFromLines = s.apartFromLines := by
  unfold downLine
  dsimp only
  split
  · split <;> simp
  · split <;> simp
  all_goals simp

theorem downLines_eq {h : Nat} (xs : List Port) {s : State} (hs : s.params.holdover = h) :
    inTurn xs downLine s = inTurn xs (fallLine (downRule h) .outOfService) s := by
  induction xs generalizing s with
  | nil => rfl
  | cons a xs ih =>
    show inTurn xs downLine (downLine a s) = inTurn xs _ (fallLine _ _ a s)
    have params : (downLine a s).params = s.params := (congrArg State.params (downLine_lines' a s) :)
    rw [ih (by rw [params]; exact hs), downLine_eq hs]

/-! ## The ringing stays empty -/

/-- Nothing rings and nothing waits to ring. -/
def RingEmpty (s : State) : Prop := (∀ k, s.cells.at k = []) ∧ s.ringQueue = [] ∧ ∀ p, s.ringDrive.at p = false

theorem RingEmpty.of_port {s t : State} (h : t.apartFromPort = s.apartFromPort) (hs : RingEmpty s) : RingEmpty t := by
  have cells : t.cells = s.cells := (congrArg State.cells h :)
  have queue : t.ringQueue = s.ringQueue := (congrArg State.ringQueue h :)
  have drive : t.ringDrive = s.ringDrive := (congrArg State.ringDrive h :)
  unfold RingEmpty
  rw [cells, queue, drive]
  exact hs

theorem ringEmpty_emptyRing (s : State) : RingEmpty (emptyRing s) :=
  ⟨fun k => Table.at_all [] k, rfl, fun p => Table.at_all false p⟩

theorem Table.at_map {n : Nat} {α β : Type} (f : α → β) (t : Table n α) (i : Fin n) : Table.at (t.map f) i = f (t.at i) := by
  simp [Table.at]

theorem RingEmpty.moveLine {s : State} (h : RingEmpty s) (p : Port) (st : LineState) (call : Option (SlotId × Direction)) (timer : Option Nat) :
    RingEmpty (moveLine p st call timer s) := by
  obtain ⟨cells, queue, drive⟩ := h
  unfold RingEmpty
  rw [moveLine_cells, moveLine_ringQueue, moveLine_ringDrive]
  split
  · refine ⟨fun k => ?_, by rw [queue]; rfl, fun q => ?_⟩
    · unfold leaveRing
      rw [Table.at_map, cells]
      rfl
    · rw [Table.at_put, drive, ite_self]
  · exact ⟨cells, queue, drive⟩

theorem RingEmpty.groupIdle {s : State} (h : RingEmpty s) (g : GroupId) : RingEmpty (groupIdle g s) := by
  have cleared : RingEmpty (clearRuns g s) := by
    unfold clearRuns
    exact inTurn_induct RingEmpty (fun p t => setScan p (t.scan.at p).runsCleared t) _ (fun _ _ _ ht => ht) s h
  unfold Machine.groupIdle
  split
  · unfold enterStandby
    generalize clearRuns g s = t at cleared
    exact .of_port (report_port _ (setGroup g _ t)) cleared
  · exact h

theorem RingEmpty.enterLine {s : State} (h : RingEmpty s) (p : Port) (st : LineState) (call : Option (SlotId × Direction)) (timer : Option Nat)
    (r : Reason) : RingEmpty (enterLine p st call timer r s) := by
  unfold Machine.enterLine
  split
  · exact .of_port ((report_port _ _).trans (callEvent_port _ _ _ _)) (h.moveLine p .test none none)
  · have moved : RingEmpty (callEvent p st r (Machine.moveLine p st call timer s)) := .of_port (callEvent_port _ _ _ _) (h.moveLine p st call timer)
    dsimp only
    split
    · exact moved.groupIdle _
    · exact moved

theorem RingEmpty.downLine {s : State} (h : RingEmpty s) (p : Port) : RingEmpty (downLine p s) := by
  unfold Machine.downLine
  dsimp only
  split
  · split
    · exact h.enterLine ..
    · exact h.enterLine ..
  · split
    · exact h.enterLine ..
    · exact h.enterLine ..
  · exact h.enterLine ..
  · exact h.enterLine ..
  · exact h.enterLine ..
  · exact h

/-! ## The entry to DOWN, whatever its reports -/

/-- The facts of the part after the entry to DOWN. -/
structure IsDown (s t : State) : Prop where
  link : t.link = .down
  score : t.score = 255
  run : t.run = 0
  txq : t.txq = []
  inFlight : t.inFlight = none
  flow : t.flow = .go
  assembler : t.assembler = .hunting
  restartTimer : t.restartTimer = none
  sig : ∀ i, (t.sig.at i).timer = none ∧ (t.sig.at i).owed = none
  mark : t.mark = none
  ring : RingEmpty t
  slots : ∀ i, t.slots.at i = slotAtDown s.params.holdover (s.slots.at i)
  holdover : t.holdover = if anyHeld t then some (1000 * s.params.holdover) else none

/-- The part as the link, its reports apart, enters DOWN. -/
def toDown (s : State) : State := setLink .down { s with score := Config.scoreTop, run := 0 }

/-- The part with the link DOWN and its reports made. -/
def downReported (s : State) : State := beginCondition .trunkDown (endCondition .linkImpaired (linkEvent (toDown s)))

theorem enterDown_eq (s : State) : enterDown s
    = startHoldover (inTurn allPorts downLine (emptyRing (setMark none (inTurn allSlots downSlot (clearSignalling (downReported s)))))) := rfl

theorem beginCondition_port (a : AlarmId) (s : State) : (beginCondition a s).apartFromPort = (conditionBegun a s).apartFromPort := by
  unfold beginCondition conditionBegun
  cases alarmEntry s a with
  | none => exact report_port _ _
  | some e =>
    dsimp only
    split
    · rfl
    · exact report_port _ _

theorem endCondition_port (a : AlarmId) (s : State) : (endCondition a s).apartFromPort = (conditionEnded a s).apartFromPort := by
  unfold endCondition conditionEnded
  cases alarmEntry s a with
  | none => rfl
  | some e =>
    dsimp only
    split
    · exact report_port _ _
    · rfl

/-- A condition that begins or ends writes the alarms alone. -/
theorem conditionBegun_writes (a : AlarmId) (s : State) : ∃ al, conditionBegun a s = { s with alarms := al } := by
  unfold conditionBegun
  split
  · exact ⟨_, rfl⟩
  · split <;> exact ⟨_, rfl⟩

theorem conditionEnded_writes (a : AlarmId) (s : State) : ∃ al, conditionEnded a s = { s with alarms := al } := by
  unfold conditionEnded
  split
  · split <;> exact ⟨_, rfl⟩
  · exact ⟨_, rfl⟩

/-- But for the sending side and the alarms, the reports change nothing. -/
theorem downReported_port (s : State) : ∃ al, (downReported s).apartFromPort = ({ toDown s with alarms := al } : State).apartFromPort := by
  have told : (linkEvent (toDown s)).apartFromPort = (toDown s).apartFromPort := report_port _ _
  obtain ⟨al, ended⟩ := conditionEnded_writes .linkImpaired (linkEvent (toDown s))
  have impaired : (endCondition .linkImpaired (linkEvent (toDown s))).apartFromPort = ({ toDown s with alarms := al } : State).apartFromPort := by
    rw [endCondition_port, ended]
    exact (congrArg (fun x : State => ({ x with alarms := al } : State)) told :)
  obtain ⟨al', begun⟩ := conditionBegun_writes .trunkDown (endCondition .linkImpaired (linkEvent (toDown s)))
  refine ⟨al', ?_⟩
  unfold downReported
  rw [beginCondition_port, begun]
  exact (congrArg (fun x : State => ({ x with alarms := al' } : State)) impaired :)

/-- The part with its ringing stopped, its lines in the states of Table 7.4 and the holdover started. -/
def linesDown (s : State) : State := startHoldover (inTurn allPorts downLine (emptyRing (setMark none s)))

theorem linesDown_kept (s : State) : ∃ u : State, linesDown s = startHoldover u ∧ RingEmpty u
    ∧ u.apartFromLines = (setMark none s).apartFromLines := by
  refine ⟨_, rfl, ?_, ?_⟩
  · exact inTurn_induct RingEmpty downLine allPorts (fun p _ _ h => h.downLine p) _ (ringEmpty_emptyRing _)
  · exact (inTurn_keeps State.apartFromLines downLine downLine_lines' allPorts _).trans (emptyRing_lines' _)

/-- What of the part with its slots and its Signaller done makes it DOWN in the end. -/
theorem isDown_linesDown {s v : State} (hl : v.link = .down) (hs : v.score = 255) (hr : v.run = 0) (ht : v.txq = []) (hi : v.inFlight = none)
    (hf : v.flow = .go) (ha : v.assembler = .hunting) (hx : v.restartTimer = none)
    (hsig : ∀ i, (v.sig.at i).timer = none ∧ (v.sig.at i).owed = none)
    (hslots : ∀ i, v.slots.at i = slotAtDown s.params.holdover (s.slots.at i)) (hp : v.params = s.params) : IsDown s (linesDown v) := by
  obtain ⟨u, eq, rings, kept⟩ := linesDown_kept v
  rw [eq]
  have sig : u.sig = v.sig := (congrArg State.sig kept :)
  have slots : u.slots = v.slots := (congrArg State.slots kept :)
  have params : u.params = s.params := (congrArg State.params kept :).trans hp
  refine ⟨(congrArg State.link kept :).trans hl, (congrArg State.score kept :).trans hs, (congrArg State.run kept :).trans hr,
    (congrArg State.txq kept :).trans ht, (congrArg State.inFlight kept :).trans hi, (congrArg State.flow kept :).trans hf,
    (congrArg State.assembler kept :).trans ha, (congrArg State.restartTimer kept :).trans hx, fun i => ?_, (congrArg State.mark kept :),
    rings, fun i => ?_, ?_⟩
  · exact (by rw [sig]; exact hsig i : (u.sig.at i).timer = none ∧ (u.sig.at i).owed = none)
  · show u.slots.at i = _
    rw [slots]
    exact hslots i
  · exact congrArg (fun x : Params => if anyHeld u then some (1000 * x.holdover) else none) params

/-- The part with its Signaller cleared and its slots in the states of Table 7.4. -/
def slotsDown (s : State) : State := inTurn allSlots downSlot (clearSignalling s)

theorem clearSignalling_sig (s : State) (i : SlotId) :
    ((clearSignalling s).sig.at i).timer = none ∧ ((clearSignalling s).sig.at i).owed = none := by
  have quiet : (clearSignalling s).sig.at i = (s.sig.at i).silenced := Table.at_map _ _ _
  rw [quiet]
  exact ⟨rfl, rfl⟩

theorem isDown_enterDown (s : State) : IsDown s (enterDown s) := by
  obtain ⟨al, reported⟩ := downReported_port s
  have slots : (downReported s).slots = s.slots := (congrArg State.slots reported :)
  have params : (downReported s).params = s.params := (congrArg State.params reported :)
  have link : (downReported s).link = .down := (congrArg State.link reported :)
  have score : (downReported s).score = 255 := (congrArg State.score reported :)
  have run : (downReported s).run = 0 := (congrArg State.run reported :)
  show IsDown s (linesDown (slotsDown (downReported s)))
  generalize downReported s = t at slots params link score run
  have at' (i : SlotId) : (slotsDown t).slots.at i = slotAtDown t.params.holdover (t.slots.at i) := downSlots_at i (clearSignalling t)
  have sig : ∀ i, ((slotsDown t).sig.at i).timer = none ∧ ((slotsDown t).sig.at i).owed = none :=
    downSlots_sig (clearSignalling_sig t) allSlots
  have written : WritesSlots (clearSignalling t) (slotsDown t) := downSlots_writes (clearSignalling t)
  generalize slotsDown t = v at at' sig written
  obtain ⟨sl, sg, fr, mk, rfl⟩ := written
  exact isDown_linesDown link score run rfl rfl rfl rfl rfl sig (fun i => by rw [← params, ← slots]; exact at' i) params

/-! ## The end of the event -/

theorem IsDown.of_port {s t u : State} (h : t.apartFromPort = u.apartFromPort) (hd : IsDown s u) : IsDown s t := by
  have slots : t.slots = u.slots := (congrArg State.slots h :)
  have sig : t.sig = u.sig := (congrArg State.sig h :)
  have held : anyHeld t = anyHeld u := anyHeld_of_slots slots
  exact ⟨(congrArg State.link h :).trans hd.link, (congrArg State.score h :).trans hd.score, (congrArg State.run h :).trans hd.run,
    (congrArg State.txq h :).trans hd.txq, (congrArg State.inFlight h :).trans hd.inFlight, (congrArg State.flow h :).trans hd.flow,
    (congrArg State.assembler h :).trans hd.assembler, (congrArg State.restartTimer h :).trans hd.restartTimer, sig ▸ hd.sig,
    (congrArg State.mark h :).trans hd.mark, hd.ring.of_port h, slots ▸ hd.slots, held ▸ (congrArg State.holdover h :).trans hd.holdover⟩

theorem stopHoldover_of_isDown {s t : State} (h : IsDown s t) : stopHoldover t = t := by
  have holdover := h.holdover
  unfold stopHoldover
  by_cases held : anyHeld t = true
  · exact if_pos held
  · rw [if_neg held] at holdover ⊢
    rw [← holdover]

/-- At the end of the event in which the link enters DOWN only CONFIG_PENDING may end. -/
theorem finish_of_isDown {s t : State} (old : State) (h : IsDown s t) : finish old t = endPending t := by
  have scan : scanRing t = t := scanRing_of_nobody h.ring.2.1
  have quiet : attempt t = t := attempt_of_link (by rw [h.link]; rfl) (by rw [h.link]; rfl)
  unfold finish
  dsimp only
  rw [scan, ite_self, quiet, ite_self, stopHoldover_of_isDown h]

theorem isDown_endPending {s t : State} (h : IsDown s t) : IsDown s (endPending t) := by
  unfold endPending
  split
  · have config : IsDown s (setMode .config t) :=
      ⟨h.link, h.score, h.run, h.txq, h.inFlight, h.flow, h.assembler, h.restartTimer, h.sig, h.mark, h.ring, h.slots, h.holdover⟩
    exact config.of_port (report_port _ _)
  · exact h

/-! ## The frame (R123, R127) -/

theorem frameMessage_of_bad {octets : List Byte} {s : State} (h : goodFrame s octets = false) : frameMessage octets s = none := by
  unfold frameMessage assemblerAfter
  rw [h]
  rfl

/-- The part as the octets of the frame that brings the score to 255 leave it. -/
def topScored (octets : List Byte) (s : State) : State := { framed octets s with score := Config.scoreTop }

theorem topScored_withPort (octets : List Byte) (s : State) (y : PortSide) :
    topScored octets (s.withPort y) = (topScored octets s).withPort y := by
  unfold topScored
  rw [framed_withPort]
  rfl

theorem judgeFrame_of_top {octets : List Byte} {s : State} (hl : s.link.inService = true ∨ s.link = .resync) (hg : goodFrame s octets = false)
    (hs : 251 ≤ s.score) : judgeFrame octets s = enterDown (topScored octets s) := by
  obtain ⟨al, bw, fw, ha, lo, fe, fh, eq⟩ := framed_frame octets s
  have link : (framed octets s).link = s.link := by rw [eq]
  have score : (framed octets s).score = s.score := by rw [eq]
  have top : scoreAfter false (framed octets s).score = Config.scoreTop := by
    rw [score]
    exact Nat.min_eq_left (by show 255 ≤ s.score + 4; omega)
  rw [judgeFrame_eq, judgeLink_of_score (s := framed octets s) _ (by rw [link]; exact hl), hg]
  unfold countScore topScored
  dsimp only
  rw [top]
  exact if_pos rfl

theorem judgeFrame_of_top_served {octets : List Byte} {s : State} (hl : s.link.inService = true ∨ s.link = .resync)
    (hg : goodFrame s octets = false) (hs : 251 ≤ s.score) : judgeFrame octets (serve s) = enterDown (topScored octets (serve s)) :=
  judgeFrame_of_top (by rw [of_served State.link (fun _ _ => rfl)]; exact hl)
    ((of_served (fun x => goodFrame x octets) (fun _ _ => rfl) s).trans hg) (by rw [of_served State.score (fun _ _ => rfl)]; exact hs)

/-! ## The entry to DOWN, with its reports -/

/-- The mark of one alarm leaves the entry of another. -/
theorem alarmEntry_of_marked {a b : AlarmId} {present : Bool} {s t : State} (h : b ≠ a) (hm : AlarmMarked a present s t) :
    alarmEntry t b = alarmEntry s b := by
  obtain ⟨-, others⟩ := hm
  have found (l : List Alarm) : (l.filter fun e => decide (e.id ≠ a)).find? (fun e => decide (e.id = b)) = l.find? fun e => decide (e.id = b) := by
    rw [List.find?_filter]
    refine congrArg (fun f => List.find? f l) (funext fun e => ?_)
    by_cases he : e.id = b
    · simp [he, h]
    · simp [he]
  unfold alarmEntry
  rw [← found, others, found]

theorem begun_of_entry {a : AlarmId} {s t : State} (h : alarmEntry t a = alarmEntry s a) : begun t a = begun s a := by
  unfold begun
  rw [h]

theorem ended_of_entry {a : AlarmId} {s t : State} (h : alarmEntry t a = alarmEntry s a) : ended t a = ended s a := by
  unfold ended
  rw [h]

theorem begun_length (s : State) (a : AlarmId) : (begun s a).length ≤ 1 := by
  unfold begun
  split <;> simp

theorem ended_length (s : State) (a : AlarmId) : (ended s a).length ≤ 1 := by
  unfold ended
  split <;> simp

theorem present_of_ended {a : AlarmId} {s t : State} (hm : AlarmMarked a false s t) : ∀ e ∈ alarmEntry t a, e.present = false := by
  intro e he
  obtain ⟨marked, -⟩ := hm
  rw [he, if_neg Bool.false_ne_true] at marked
  cases hs : alarmEntry s a with
  | none => rw [hs] at marked; cases marked
  | some e' => rw [hs] at marked; exact Option.some.inj marked

/-- The part with the link DOWN and its conditions marked, its reports apart. -/
def downMarked (s : State) : State := conditionBegun .trunkDown (conditionEnded .linkImpaired (toDown s))

theorem downMarked_writes (s : State) : ∃ al, downMarked s = { toDown s with alarms := al } := by
  obtain ⟨al, one⟩ := conditionEnded_writes .linkImpaired (toDown s)
  obtain ⟨al', two⟩ := conditionBegun_writes .trunkDown { toDown s with alarms := al }
  refine ⟨al', ?_⟩
  unfold downMarked
  rw [one, two]

theorem downReported_comes {s u t : State} {n : Nat} (hr : Room n s) (hn : 3 ≤ n) (h : Comes s [] u t) :
    Comes s (.linkEvent .down 255 :: (ended u .linkImpaired ++ begun u .trunkDown)) (downMarked u) (downReported t) := by
  have ending := (((h.map toDown fun _ _ => rfl).linkEvent hr (by show 0 < n; omega)).ends .linkImpaired hr (by show 1 < n; omega))
  have short := ended_length (toDown u) .linkImpaired
  have told := ending.begins .trunkDown hr (by
    rw [List.length_append]
    show 1 + _ < n
    omega)
  have other : begun (conditionEnded .linkImpaired (toDown u)) .trunkDown = begun u .trunkDown :=
    (begun_of_entry (alarmEntry_of_marked (by decide : AlarmId.trunkDown ≠ .linkImpaired) (alarmMarked_ended .linkImpaired (toDown u)))).trans
      (begun_of_entry (s := u) rfl)
  rw [other, ended_of_entry (s := u) (a := .linkImpaired) (t := toDown u) rfl] at told
  exact told

/-- The part after the slots and the ringing, ahead of the lines. -/
def linesLeft (s : State) : State := emptyRing (setMark none (slotsDown s))

theorem slotsDown_withPort (s : State) (y : PortSide) : slotsDown (s.withPort y) = (slotsDown s).withPort y :=
  inTurn_withPort downSlot_withPort allSlots (clearSignalling s) y

theorem linesLeft_withPort (s : State) (y : PortSide) : linesLeft (s.withPort y) = (linesLeft s).withPort y := by
  unfold linesLeft
  rw [slotsDown_withPort]
  rfl

/-- What of the part the lines look at stands until then. -/
theorem linesLeft_stands (s : State) : (linesLeft s).lines = s.lines ∧ (linesLeft s).bus = s.bus ∧ (linesLeft s).buffers = s.buffers
    ∧ (linesLeft s).groups = s.groups ∧ (linesLeft s).waitQueue = s.waitQueue ∧ (linesLeft s).params = s.params
    ∧ (linesLeft s).alarms = s.alarms ∧ (linesLeft s).mode = s.mode := by
  have written : WritesSlots (clearSignalling s) (slotsDown s) := downSlots_writes (clearSignalling s)
  unfold linesLeft
  generalize slotsDown s = v at written
  obtain ⟨sl, sg, fr, mk, rfl⟩ := written
  exact ⟨rfl, rfl, rfl, rfl, rfl, rfl, rfl, rfl⟩

theorem downMarked_stands (s : State) : (downMarked s).lines = s.lines ∧ (downMarked s).bus = s.bus ∧ (downMarked s).buffers = s.buffers
    ∧ (downMarked s).groups = s.groups ∧ (downMarked s).waitQueue = s.waitQueue ∧ (downMarked s).params = s.params
    ∧ (downMarked s).mode = s.mode := by
  obtain ⟨al, eq⟩ := downMarked_writes s
  rw [eq]
  exact ⟨rfl, rfl, rfl, rfl, rfl, rfl, rfl⟩

/-- The reports of the lines at the entry to DOWN have room. -/
theorem downReports_length (s : State) : (allPorts.flatMap (reportsAtDown s)).length
    ≤ (allPorts.filter fun p => (stateAtDown s p).isSome).length + 1 := by
  have among : allPorts.flatMap (reportsAtDown s) = (allPorts.filter fun p => (stateAtDown s p).isSome).flatMap (reportsAtDown s) := by
    rw [← flatMap_filter]
    refine List.flatMap_congr fun p _ => ?_
    cases h : stateAtDown s p with
    | none =>
      unfold reportsAtDown
      rw [h]
      rfl
    | some st => rfl
  obtain ⟨q, short⟩ := endReports_claimed s
  rw [among]
  refine length_flatMap_le (q := q) ((List.nodup_finRange 64).filter _) fun p _ => ?_
  unfold reportsAtDown
  split
  · exact Nat.zero_le _
  · split
    · exact Nat.le_succ 1
    · exact Nat.le_refl 1
  · exact short p _ _

/-- The part after the entry to DOWN, its reports apart. -/
def downed (s : State) : State :=
  startHoldover (inTurn allPorts (fallen (downRule s.params.holdover)) (linesLeft (downMarked s)))

/-- The entry to DOWN with its reports. -/
theorem Comes.enterDown {s u t : State} {n : Nat} (hr : Room n s) (hg : ∀ g, (u.groups.at g).state ≠ .standbyPending) (h : Comes s [] u t)
    (hn : 3 + (allPorts.flatMap (reportsAtDown u)).length ≤ n) :
    Comes s (.linkEvent .down 255 :: (ended u .linkImpaired ++ begun u .trunkDown ++ allPorts.flatMap (reportsAtDown u))) (downed u) (enterDown t) := by
  have told := (downReported_comes hr (Nat.le_trans (Nat.le_add_right ..) hn) h).map linesLeft linesLeft_withPort
  obtain ⟨l1, b1, bf1, g1, -, p1, -, -⟩ := linesLeft_stands (downMarked u)
  obtain ⟨l2, b2, bf2, g2, -, p2, -⟩ := downMarked_stands u
  have view (p : Port) : fallView p (linesLeft (downMarked u)) = fallView p u := by
    unfold fallView
    rw [l1, b1, bf1, l2, b2, bf2]
  have reports : (allPorts.flatMap fun p => fallReports (downRule u.params.holdover) .outOfService p (linesLeft (downMarked u)))
      = allPorts.flatMap (reportsAtDown u) :=
    List.flatMap_congr fun p _ => by rw [reportsAtDown_eq, fallReports_of_view _ _ (view p)]
  have params : (linesLeft (downReported t)).params.holdover = u.params.holdover := by
    obtain ⟨-, -, -, -, -, p3, -, -⟩ := linesLeft_stands (downReported t)
    obtain ⟨al, reported⟩ := downReported_port t
    have p4 : (downReported t).params = t.params := (congrArg State.params reported :)
    have p5 : t.params = u.params := (congrArg State.params h.port :)
    rw [p3, p4, p5]
  have short := ended_length u .linkImpaired
  have short' := begun_length u .trunkDown
  have fell := told.falls (downRule_falls u.params.holdover) .outOfService hr (xs := allPorts) (List.nodup_finRange 64)
    (fun g => .inl (by rw [g1, g2]; exact hg g)) (by
      rw [reports, List.length_cons, List.length_append]
      omega)
  rw [reports, ← downLines_eq allPorts params] at fell
  exact (fell.map startHoldover fun _ _ => rfl).reports_eq (by simp)

/-- What the octets of a frame leave alone. -/
theorem topScored_stands (octets : List Byte) (s : State) : (topScored octets s).lines = s.lines ∧ (topScored octets s).bus = s.bus
    ∧ (topScored octets s).buffers = s.buffers ∧ (topScored octets s).groups = s.groups ∧ (topScored octets s).waitQueue = s.waitQueue
    ∧ (topScored octets s).params = s.params ∧ (topScored octets s).mode = s.mode ∧ (topScored octets s).slots = s.slots
    ∧ (topScored octets s).alarms = s.alarms := by
  obtain ⟨al, bw, fw, ha, lo, fe, fh, eq⟩ := framed_frame octets s
  unfold topScored
  rw [eq]
  exact ⟨rfl, rfl, rfl, rfl, rfl, rfl, rfl, rfl, rfl⟩

/-- The lines, their buffers, the wait queue, the bus and the mode after the entry to DOWN. -/
theorem downed_stands (s : State) : (∀ p, (downed s).lines.at p = lineAtDown s p)
    ∧ (∀ p, (stateAtDown s p).isSome = true → (downed s).buffers.at p = DigitBuffer.empty)
    ∧ (downed s).waitQueue = s.waitQueue ∧ (downed s).bus = busAtDown s ∧ (downed s).mode = s.mode
    ∧ (downed s).alarms = (downMarked s).alarms := by
  obtain ⟨l1, b1, bf1, -, w1, -, a1, m1⟩ := linesLeft_stands (downMarked s)
  obtain ⟨l2, b2, bf2, -, w2, -, m2⟩ := downMarked_stands s
  unfold downed
  generalize linesLeft (downMarked s) = v at l1 b1 bf1 w1 a1 m1
  have view (p : Port) : fallView p v = fallView p s := by
    unfold fallView
    rw [l1, b1, bf1, l2, b2, bf2]
  have hto := downRule_falls s.params.holdover
  have line (p : Port) := falls_lines hto p v
  have buffer (p : Port) := falls_buffers hto p v
  have bus := falls_bus hto v
  obtain ⟨lines, scan, buffers, cells, queue, drive, bus', eq⟩ := falls_frame hto v allPorts
  rw [eq] at line buffer bus ⊢
  refine ⟨fun p => ?_, fun p hp => ?_, w1.trans w2, ?_, m1.trans m2, a1⟩
  · exact (line p).trans ((fallenLine_of_view p (view p)).trans (lineAtDown_eq s p).symm)
  · refine (buffer p).trans (if_pos ?_)
    rw [l1, l2]
    exact hp
  · refine bus.trans ((?_ : fallenBus _ v = fallenBus _ s).trans (busAtDown_eq s).symm)
    have same : v.bus = s.bus := b1.trans b2
    unfold fallenBus
    rw [same]
    cases s.bus with
    | claimed p =>
      dsimp only
      rw [fallsOut_of_view p (view p)]
    | free | held p => rfl

theorem downMarked_alarms (s : State) : (∀ e ∈ alarmEntry (downMarked s) .linkImpaired, e.present = false)
    ∧ (alarmEntry (downMarked s) .trunkDown).map (·.present) = some true := by
  have marked := alarmMarked_begun .trunkDown (conditionEnded .linkImpaired (toDown s))
  refine ⟨fun e he => ?_, marked.1.trans (if_pos rfl)⟩
  have same : alarmEntry (downMarked s) .linkImpaired = alarmEntry (conditionEnded .linkImpaired (toDown s)) .linkImpaired :=
    alarmEntry_of_marked (by decide) marked
  rw [same] at he
  exact present_of_ended (alarmMarked_ended .linkImpaired (toDown s)) e he

/-- Settles O30: what the entry leaves, whatever its reports, and the lines with the reports where these have room. -/
theorem scoreOf255EntersDown : Obligations.ScoreOf255EntersDown := by
  refine ⟨fun octets s hrun hl hg hs => ?_, fun octets s hrun hl hg hs hgroups hmode hroom => ?_⟩
  · have down := isDown_enterDown (topScored octets (serve s))
    have ends : act (judgeFrame octets) s = endPending (enterDown (topScored octets (serve s))) := by
      rw [act_running hrun, judgeFrame_of_top_served hl hg hs, finish_of_isDown _ down]
    obtain ⟨-, -, -, -, -, params, -, slots, -⟩ := topScored_stands octets (serve s)
    have hslots : (topScored octets (serve s)).slots = s.slots := slots.trans (of_served State.slots (fun _ _ => rfl) s)
    have hparams : (topScored octets (serve s)).params = s.params := params.trans (of_served State.params (fun _ _ => rfl) s)
    have h := isDown_endPending down
    refine ⟨_, (exec_frame_of_none hrun (frameMessage_of_bad hg)).trans (congrArg Host.Outcome.next ends), h.link, h.score, h.run, h.txq, h.inFlight,
      h.flow, h.assembler, h.restartTimer, h.sig, h.mark, h.ring.1, h.ring.2.1, h.ring.2.2, fun i => ?_, ?_⟩
    · have slot := h.slots i
      rw [hslots, hparams] at slot
      exact slot
    · have holdover := h.holdover
      rw [hparams] at holdover
      exact holdover
  · obtain ⟨lines, bus, buffers, groups, wait, params, mode, slots, alarms⟩ := topScored_stands octets s
    have state (p : Port) : stateAtDown (topScored octets s) p = stateAtDown s p := by
      unfold stateAtDown
      rw [lines, params]
    have reports : allPorts.flatMap (reportsAtDown (topScored octets s)) = allPorts.flatMap (reportsAtDown s) :=
      List.flatMap_congr fun p _ => by
        unfold reportsAtDown endReports
        rw [state, bus]
    have told := ((Comes.served s).map (topScored octets) (topScored_withPort octets)).enterDown hroom (by rw [groups]; exact hgroups)
      (by
        rw [reports]
        have := downReports_length s
        omega)
    rw [reports, ended_of_entry (s := s) (by unfold alarmEntry; rw [alarms]), begun_of_entry (s := s) (by unfold alarmEntry; rw [alarms])] at told
    have down := (isDown_enterDown (topScored octets (serve s))).of_port told.port.symm
    obtain ⟨line, buffer, wait', bus', mode', alarms'⟩ := downed_stands (topScored octets s)
    obtain ⟨impaired, trunk⟩ := downMarked_alarms (topScored octets s)
    generalize downed (topScored octets s) = v at told down line buffer wait' bus' mode' alarms'
    generalize downMarked (topScored octets s) = m at alarms' impaired trunk
    have entry (a : AlarmId) (y : PortSide) : alarmEntry (v.withPort y) a = alarmEntry m a :=
      congrArg (fun l : List Alarm => l.find? fun e : Alarm => decide (e.id = a)) alarms'
    refine .of_event hrun (exec_frame_of_none hrun (frameMessage_of_bad hg)) (judgeFrame_of_top_served hl hg hs) told (fun y z => ?_) fun y made =>
      ⟨fun p => ?_, fun p hp => ?_, wait'.trans wait, ?_, made, ?_, ?_⟩
    · rw [finish_of_isDown _ (IsDown.of_port (t := v.withPort z) (u := v) rfl down)]
      exact if_neg fun x => hmode ((mode'.trans mode).symm.trans x.1)
    · refine (line p).trans ?_
      unfold lineAtDown lineEnded
      rw [state, lines, bus]
    · exact buffer p (by rw [state]; exact hp)
    · refine bus'.trans ?_
      unfold busAtDown
      simp only [state, bus]
    · rw [entry]
      exact impaired
    · rw [entry]
      exact trunk

end Sys2Proof.Machine
end

