-- ==== Sys2Proof/Proofs/Returns.lean ====
section
/-! PROOF. The link leaves RESYNC for its grade, and the RESTART reply timer that expires (O32). -/

namespace Sys2Proof.Machine

/-! ## The entry to service (R138, R140) -/

/-- The part with the link in the grade of its score and the RESTART exchange over. -/
def inGrade (s : State) : State := setLink (gradeOf s.score) { s with restartTimer := none, restartOwed := false }

/-- The part after the entry to service, its reports apart. -/
def serviceEntered (s : State) : State :=
  if gradeOf s.score = .impaired then conditionBegun .linkImpaired (conditionEnded .trunkDown (inGrade s))
  else conditionEnded .trunkDown (inGrade s)

/-- The reports of the entry to service. -/
def serviceReports (s : State) : List Report :=
  .linkEvent (gradeOf s.score) s.score :: (ended s .trunkDown ++ if gradeOf s.score = .impaired then begun s .linkImpaired else [])

theorem serviceEntered_writes (s : State) : ∃ al, serviceEntered s
    = { s with link := gradeOf s.score, restartTimer := none, restartOwed := false, alarms := al } := by
  obtain ⟨al, one⟩ := conditionEnded_writes .trunkDown (inGrade s)
  unfold serviceEntered
  rw [one]
  split
  · obtain ⟨al', two⟩ := conditionBegun_writes .linkImpaired { inGrade s with alarms := al }
    exact ⟨al', two⟩
  · exact ⟨al, rfl⟩

theorem serviceEntered_alarms (s : State) : (∀ e ∈ alarmEntry (serviceEntered s) .trunkDown, e.present = false)
    ∧ (gradeOf s.score = .impaired → (alarmEntry (serviceEntered s) .linkImpaired).map (·.present) = some true) := by
  have ended := alarmMarked_ended .trunkDown (inGrade s)
  unfold serviceEntered
  split
  · have marked := alarmMarked_begun .linkImpaired (conditionEnded .trunkDown (inGrade s))
    refine ⟨fun e he => ?_, fun _ => marked.1.trans (if_pos rfl)⟩
    rw [alarmEntry_of_marked (by decide) marked] at he
    exact present_of_ended ended e he
  · next h => exact ⟨present_of_ended ended, fun x => absurd x h⟩

theorem Comes.enterService {s u t : State} {rs : List Report} {n : Nat} (h : Comes s rs u t) (hr : Room n s) (hn : rs.length + 3 ≤ n) :
    Comes s (rs ++ serviceReports u) (serviceEntered u) (enterService t) := by
  have score : t.score = u.score := (congrArg State.score h.port :)
  have told := (h.map inGrade fun _ _ => rfl).linkEvent hr (by omega)
  have ending := told.ends .trunkDown hr (by
    rw [List.length_append]
    show rs.length + 1 < n
    omega)
  have short := ended_length (inGrade u) .trunkDown
  have began := ending.begins .linkImpaired hr (by
    rw [List.length_append, List.length_append]
    show rs.length + 1 + _ < n
    omega)
  have other : begun (conditionEnded .trunkDown (inGrade u)) .linkImpaired = begun u .linkImpaired :=
    (begun_of_entry (alarmEntry_of_marked (by decide : AlarmId.linkImpaired ≠ .trunkDown) (alarmMarked_ended .trunkDown (inGrade u)))).trans
      (begun_of_entry (s := u) rfl)
  rw [other] at began
  unfold Machine.enterService serviceEntered serviceReports
  dsimp only
  rw [score]
  split
  · unfold inGrade at began
    rw [score] at began
    exact began.reports_eq (by rw [List.append_assoc, List.append_assoc]; rfl)
  · unfold inGrade at ending
    rw [score] at ending
    exact ending.reports_eq (by rw [List.append_assoc, List.append_nil]; rfl)

/-! ## The lines of HELD slots -/

theorem heldLines_eq (s : State) : heldLines s = linesHeld s := by
  unfold heldLines linesHeld
  induction allSlots with
  | nil => rfl
  | cons i is ih =>
    cases h : (s.slots.at i).isHeld with
    | true => simp [h, ih, List.filterMap_cons]
    | false => simp [h, ih, List.filterMap_cons]

section
variable {s : State} (hn : LinesNameSlots s)
include hn

/-- A HELD slot's line is in HOLDOVER and names the slot. -/
theorem line_of_held {i : SlotId} {c : Call} {b : Bool} (h : s.slots.at i = .held c b) :
    (s.lines.at c.line).state = .holdover ∧ (s.lines.at c.line).call = some (i, c.direction) := by
  obtain ⟨-, fits, named⟩ := hn
  have call : (s.lines.at c.line).call = some (i, c.direction) := named i c (by rw [h]; rfl)
  obtain ⟨-, c', held, -, -, shape⟩ := fits c.line _ call
  rw [h] at held shape
  refine ⟨?_, call⟩
  unfold slotHeldIn at shape
  split at shape <;> first | assumption | cases shape

/-- A line in HOLDOVER is the line of a HELD slot. -/
theorem held_of_line {p : Port} (h : (s.lines.at p).state = .holdover) : ∃ i c b, s.slots.at i = .held c b ∧ c.line = p := by
  obtain ⟨calls, fits, -⟩ := hn
  have some := calls p
  rw [h] at some
  obtain ⟨x, hx⟩ := Option.isSome_iff_exists.mp some
  obtain ⟨-, c, -, line, -, shape⟩ := fits p x hx
  rw [h] at shape
  exact ⟨x.1, c, _, shape, line⟩

/-- HELD slots have different lines. -/
theorem held_line_inj {i j : SlotId} {c d : Call} {b e : Bool} (hi : s.slots.at i = .held c b) (hj : s.slots.at j = .held d e)
    (h : c.line = d.line) : i = j := by
  have one := (line_of_held hn hi).2
  have two := (line_of_held hn hj).2
  rw [h, two] at one
  exact (Prod.mk.inj (Option.some.inj one)).1.symm

theorem mem_linesHeld (p : Port) : p ∈ linesHeld s ↔ (s.lines.at p).state = .holdover := by
  unfold linesHeld
  rw [List.mem_filterMap]
  constructor
  · rintro ⟨i, hi, line⟩
    obtain ⟨-, held⟩ := List.mem_filter.mp hi
    cases hs : s.slots.at i with
    | held c b =>
      rw [hs] at line
      obtain rfl := Option.some.inj line
      exact (line_of_held hn hs).1
    | free | busy c b | reserved c b | clearing p n side b | blocked why =>
      rw [hs] at held
      cases held
  · intro h
    obtain ⟨i, c, b, slot, line⟩ := held_of_line hn h
    refine ⟨i, List.mem_filter.mpr ⟨List.mem_finRange i, by rw [slot]; rfl⟩, ?_⟩
    rw [slot]
    exact congrArg some line

theorem linesHeld_nodup : (linesHeld s).Nodup := by
  have line (i : SlotId) (p : Port) (h : (if (s.slots.at i).isHeld then (s.slots.at i).call?.map (·.line) else none) = some p) :
      ∃ c b, s.slots.at i = .held c b ∧ c.line = p := by
    cases hs : s.slots.at i with
    | held c b =>
      rw [hs] at h
      exact ⟨c, b, rfl, Option.some.inj h⟩
    | free | busy c b | reserved c b | clearing p n side b | blocked why =>
      rw [hs] at h
      cases h
  rw [← heldLines_eq]
  refine (List.nodup_finRange 20).filterMap fun i j p hi hj => ?_
  obtain ⟨c, b, si, rfl⟩ := line i p hi
  obtain ⟨d, e, sj, same⟩ := line j _ hj
  exact held_line_inj hn si sj same.symm
end

/-! ## The RESTART reply timer (R141) -/

/-- The loss of the calls of HELD slots, with the reports of their lines. -/
theorem Comes.losesHeld {s u t : State} {n : Nat} {xs : List Port} (r : Reason) (hr : Room n s) (hx : xs.Nodup) (h : Comes s [] u t)
    (hl : xs.length + 1 ≤ n) (hs : ∀ p ∈ xs, (u.lines.at p).state = .holdover) :
    Comes s (xs.flatMap fun p => endReports u p .parked r) (inTurn xs (fallen loseRule) u) (inTurn xs (loseHeld r) t) := by
  have reports : (xs.flatMap fun p => fallReports loseRule r p u) = xs.flatMap fun p => endReports u p .parked r :=
    List.flatMap_congr fun p hp => by rw [fallReports_lose, if_pos (decide_eq_true (hs p hp))]
  have few : (xs.flatMap fun p => endReports u p .parked r).length ≤ xs.length + 1 := by
    obtain ⟨q, short⟩ := endReports_claimed u
    exact length_flatMap_le (q := q) hx fun p _ => short p _ _
  have told := h.falls loseRule_falls r hr hx (fun _ => .inr loseRule_not_idle) (by
    rw [reports, List.length_nil, Nat.zero_add]
    exact Nat.le_trans few hl)
  rw [reports] at told
  rw [loseHeld_eq]
  exact told

/-- The lines after some lose their held calls. -/
theorem loses_lines {xs : List Port} (hx : xs.Nodup) (p : Port) (s : State) : (inTurn xs (fallen loseRule) s).lines.at p
    = if p ∈ xs then fallenLine loseRule p s else s.lines.at p := by
  have view : fallView p (inTurn xs (fallen loseRule) s) = _ := inTurn_view (f := fallen loseRule) (view := fun s p => fallView p s)
    (fun a s t h => fallView_self loseRule_falls a h) (fun a b s hb => fallView_other loseRule_falls s hb) hx s p
  by_cases h : p ∈ xs
  · rw [if_pos h] at view ⊢
    exact ((fallView_eq_iff p).mp view).1.trans (by rw [fallen_lines loseRule_falls, Table.at_put_same])
  · rw [if_neg h] at view ⊢
    exact ((fallView_eq_iff p).mp view).1

theorem takeRestart_of_again {s : State} {ms : Nat} (h : s.restartTimer = some (.again, ms)) :
    expireRestart s = enterService (inTurn (linesHeld s) (loseHeld .noReply) (releaseHeld s)) := by
  unfold expireRestart
  rw [h, ← heldLines_eq]

/-- RESTART made again where a place is free. -/
theorem takeRestart_of_first {s : State} {ms : Nat} (h : s.restartTimer = some (.first, ms)) (hl : s.link = .resync) (hf : freePlace s = true) :
    expireRestart s = { s with
      restartTimer := none, restartOwed := false, restartRepeat := true
      txq := s.txq ++ [{ msg := .ofNone .restart, pinned := false }] } := by
  unfold expireRestart oweRestart
  rw [h]
  dsimp only
  rw [makeRestart_eq, if_pos ⟨rfl, hl, hf⟩]

/-- Settles O32: RESTART again, and the end of the held calls with the entry to service. -/
theorem restartReplyExpires : Obligations.RestartReplyExpires := by
  refine ⟨fun ms s hrun hl ht hf he => ?_, fun ms s hrun hl ht hq hn hmode hroom => ?_⟩
  · have expired (y : PortSide) : (if (s.withPort y).link = .resync then expireRestart (s.withPort y) else s.withPort y)
        = ({ s with
            restartTimer := none, restartOwed := false, restartRepeat := true
            txq := s.txq ++ [{ msg := .ofNone .restart, pinned := false }] } : State).withPort y :=
      (if_pos hl).trans (takeRestart_of_first (s := s.withPort y) ht hl hf)
    rw [eq_withPort (serve_port s)]
    exact exec_of_event (f := fun x => if x.link = .resync then expireRestart x else x) hrun rfl (expired _) (.of_same rfl he)
  · have start := (Comes.served s).map releaseHeld releaseHeld_withPort
    have at' (i : SlotId) := releaseHeld_at i s
    have writes := releaseHeld_writes s
    generalize releaseHeld s = u at start at' writes
    obtain ⟨slots, sig, free, mark, rfl⟩ := writes
    have nodup := linesHeld_nodup hn
    have lost := start.losesHeld .noReply hroom nodup (by omega) fun p hp => (mem_linesHeld hn p).mp hp
    have few : ((linesHeld s).flatMap fun p => endReports s p .parked .noReply).length ≤ (linesHeld s).length + 1 := by
      obtain ⟨q, short⟩ := endReports_claimed s
      exact length_flatMap_le (q := q) nodup fun p _ => short p _ _
    have told := lost.enterService hroom (by
      show ((linesHeld s).flatMap fun p => endReports s p .parked .noReply).length + 3 ≤ _
      omega)
    have line (p : Port) := loses_lines nodup p { s with slots := slots, sig := sig, free := free, mark := mark }
    obtain ⟨sameCells, -⟩ := loses_ring (linesHeld s) { s with slots := slots, sig := sig, free := free, mark := mark }
    obtain ⟨ls, sc, bf, ce, qu, dr, bu, fell⟩ := falls_frame loseRule_falls { s with slots := slots, sig := sig, free := free, mark := mark } (linesHeld s)
    have alarms := serviceEntered_alarms (inTurn (linesHeld s) (fallen loseRule) { s with slots := slots, sig := sig, free := free, mark := mark })
    obtain ⟨al, entered⟩ := serviceEntered_writes (inTurn (linesHeld s) (fallen loseRule) { s with slots := slots, sig := sig, free := free, mark := mark })
    rw [entered] at told alarms
    rw [fell] at told line sameCells alarms
    have served : (if (serve s).link = .resync then expireRestart (serve s) else serve s)
        = enterService (inTurn (linesHeld s) (loseHeld .noReply) (releaseHeld (serve s))) := by
      rw [of_served State.link (fun _ _ => rfl), if_pos hl, takeRestart_of_again ((of_served State.restartTimer (fun _ _ => rfl) s).trans ht),
        of_served linesHeld (fun _ _ => rfl)]
    have same : ce = s.cells := sameCells
    subst same
    refine .of_end hrun (f := fun x => if x.link = .resync then expireRestart x else x) rfl served told
      (finish_stops rfl rfl hq fun x => absurd x hmode) fun y made => ⟨rfl, rfl, rfl, rfl, at', fun p => ?_, made, alarms.1, alarms.2⟩
    refine (line p).trans ?_
    by_cases held : (s.lines.at p).state = .holdover
    · rw [if_pos ((mem_linesHeld hn p).mpr held), if_pos held, fallenLine_lose]
      exact if_pos held
    · rw [if_neg fun x => held ((mem_linesHeld hn p).mp x), if_neg held]

end Sys2Proof.Machine
end

