-- ==== Sys2Proof/Proofs/RestartAcks.lean ====
section
/-! PROOF. A RESTART_ACK settles the HELD slots one by one, and the link enters service (O42). -/

namespace Sys2Proof.Machine

/-! ## One HELD slot settled -/

/-- Whether a RESTART_ACK lists a tag. -/
def Listed (tags : List Byte) (c : Call) : Bool := tags.any fun t => decide (t.toNat = c.tag)

section
variable (tags : List Byte) (i : SlotId) (s : State)

/-- The part after a slot is settled, its reports apart. -/
def settledSlot : State :=
  match s.slots.at i with
  | .held c b =>
    if Listed tags c then moveLine c.line (restoredState c.direction) (some (i, c.direction)) none (setSlot i (.busy c b) s)
    else lineEnds c.line .parked (freeSlot i s)
  | _ => s

/-- A slot after it is settled. -/
def slotSettled (sl : Slot) : Slot :=
  match sl with
  | .held c b => if Listed tags c then .busy c b else if b then .blocked .cabinet else .free
  | sl => sl

/-- The line of a slot after it is settled. -/
def lineSettled (c : Call) : Line :=
  if Listed tags c then (s.lines.at c.line).moved (restoredState c.direction) (some (i, c.direction)) none else lineEnded s c.line .parked

/-- The reports of a slot that is settled. -/
def settleReports : List Report :=
  match s.slots.at i with
  | .held c _ => if Listed tags c then [.callEvent c.line (restoredState c.direction) (.because .normal)] else endReports s c.line .parked .outOfService
  | _ => []
end

theorem restoredState_active (d : Direction) : (restoredState d).endsCall = false ∧ (restoredState d).called = false
    ∧ (restoredState d).emptiesBuffer = false ∧ restoredState d ≠ .queued := by
  cases d <;> exact ⟨rfl, rfl, rfl, by decide⟩

/-- What settling slots may write. -/
def WritesSettled (s t : State) : Prop := ∃ slots sig free mark lines scan buffers bus, t = { s with
  slots := slots, sig := sig, free := free, mark := mark, lines := lines, scan := scan, buffers := buffers, bus := bus }

theorem WritesSettled.refl (s : State) : WritesSettled s s := ⟨_, _, _, _, _, _, _, _, rfl⟩

theorem WritesSettled.trans {s t u : State} (h : WritesSettled s t) (h' : WritesSettled t u) : WritesSettled s u := by
  obtain ⟨_, _, _, _, _, _, _, _, one⟩ := h
  obtain ⟨sl, sg, fr, mk, ls, sc, bf, bu, two⟩ := h'
  exact ⟨sl, sg, fr, mk, ls, sc, bf, bu, by rw [two, one]⟩

section
variable {tags : List Byte} {i : SlotId} {u : State} {c : Call} {b : Bool} (h : u.slots.at i = .held c b)
  (hl : (u.lines.at c.line).state = .holdover)
include h hl

theorem settledSlot_listed (ht : Listed tags c = true) : settledSlot tags i u = { u with
    slots := u.slots.put i (.busy c b), lines := u.lines.put c.line (lineSettled tags i u c)
    scan := u.scan.put c.line ((u.scan.at c.line).lineMoved (u.ports.at c.line) .holdover (restoredState c.direction)) } := by
  obtain ⟨-, -, keeps, -⟩ := restoredState_active c.direction
  have stays : ¬ LeavesRing c.line (restoredState c.direction) (setSlot i (.busy c b) u) := fun x => by
    have called : (u.lines.at c.line).state.called = true := x.1
    rw [hl] at called
    cases called
  have waits : ¬ (((setSlot i (.busy c b) u).lines.at c.line).state = .queued ∧ restoredState c.direction ≠ .queued) := fun x => by
    have queued : (u.lines.at c.line).state = .queued := x.1
    rw [hl] at queued
    cases queued
  unfold settledSlot lineSettled
  rw [h]
  dsimp only
  rw [if_pos ht, if_pos ht, moveLine_eq, if_neg stays, if_neg stays, if_neg stays, if_neg waits, keeps]
  dsimp only [setSlot]
  rw [hl]
  rfl

theorem settledSlot_unlisted (ht : Listed tags c = false) : settledSlot tags i u = { u with
    slots := u.slots.put i (released b), sig := u.sig.put i Sig.cleared
    free := if b then u.free else u.free ++ [i], mark := if u.mark = some i then none else u.mark
    lines := u.lines.put c.line (lineSettled tags i u c)
    scan := u.scan.put c.line ((u.scan.at c.line).lineMoved (u.ports.at c.line) .holdover (lineEnded u c.line .parked).state)
    buffers := u.buffers.put c.line DigitBuffer.empty, bus := busEnded u c.line } := by
  have used : (u.slots.at i).inUse = true := by
    rw [h]
    rfl
  unfold settledSlot lineSettled
  rw [h]
  dsimp only
  rw [ht, if_neg Bool.false_ne_true, if_neg Bool.false_ne_true, freeSlot_eq used, h, lineEnds_eq _ _ rfl]
  dsimp only
  rw [hl]
  rfl

/-- A slot settled. -/
theorem settledSlot_slots : (settledSlot tags i u).slots = u.slots.put i (slotSettled tags (.held c b)) := by
  unfold slotSettled
  cases ht : Listed tags c with
  | true => rw [settledSlot_listed h hl ht]; simp [ht]
  | false => rw [settledSlot_unlisted h hl ht]; simp [ht, released]

theorem settledSlot_lines : (settledSlot tags i u).lines = u.lines.put c.line (lineSettled tags i u c) := by
  cases ht : Listed tags c with
  | true => rw [settledSlot_listed h hl ht]
  | false => rw [settledSlot_unlisted h hl ht]

theorem settledSlot_writes : WritesSettled u (settledSlot tags i u) := by
  cases ht : Listed tags c with
  | true => exact ⟨_, _, _, _, _, _, _, _, settledSlot_listed h hl ht⟩
  | false => exact ⟨_, _, _, _, _, _, _, _, settledSlot_unlisted h hl ht⟩

/-- Another line's claim stands. -/
theorem settledSlot_bus {q : Port} (hq : q ≠ c.line) : (settledSlot tags i u).bus = .claimed q ↔ u.bus = .claimed q := by
  cases ht : Listed tags c with
  | true => rw [settledSlot_listed h hl ht]
  | false =>
    rw [settledSlot_unlisted h hl ht]
    dsimp only
    unfold busEnded
    split
    · next claimed =>
      rw [claimed]
      exact ⟨fun x => (nomatch x), fun x => absurd (TestBus.claimed.inj x).symm hq⟩
    · exact Iff.rfl
end

theorem settleSlot_comes {tags : List Byte} {i : SlotId} {s u t : State} {c : Call} {b : Bool} {rs : List Report} {n : Nat}
    (hs : u.slots.at i = .held c b) (hr : Room n s) (h : Comes s rs u t) (hn : rs.length + (settleReports tags i u).length ≤ n) :
    Comes s (rs ++ settleReports tags i u) (settledSlot tags i u) (settleSlot tags i t) := by
  have slots : t.slots = u.slots := (congrArg State.slots h.port :)
  unfold settleReports at hn ⊢
  unfold settledSlot settleSlot
  rw [slots, hs]
  rw [hs] at hn
  dsimp only at hn ⊢
  have listed : (tags.any fun t => decide (t.toNat = c.tag)) = Listed tags c := rfl
  rw [listed]
  by_cases ht : Listed tags c = true
  · rw [if_pos ht] at hn
    rw [if_pos ht, if_pos ht, if_pos ht]
    exact (h.map (setSlot i (.busy c b)) fun _ _ => rfl).enterLine c.line _ none .normal (restoredState_active c.direction).1 hr hn
  · rw [if_neg ht] at hn
    rw [if_neg ht, if_neg ht, if_neg ht]
    have freed := h.map (freeSlot i) fun x y => freeSlot_withPort i x y
    have bus : (freeSlot i u).bus = u.bus := by
      obtain ⟨_, _, _, _, eq⟩ := freeSlot_writes i u
      rw [eq]
    have reports : endReports (freeSlot i u) c.line .parked .outOfService = endReports u c.line .parked .outOfService := by
      unfold endReports
      rw [bus]
    have told := freed.enterBare c.line .outOfService (st := .parked) rfl (fun x => nomatch x) hr (by rw [reports]; exact hn)
    rw [reports] at told
    exact told

/-! ## All of them -/

/-- The slots of a list stand as they are in `s`, and what of their lines the settling looks at. -/
structure Untouched (s : State) (xs : List SlotId) (u : State) : Prop where
  slots : ∀ i ∈ xs, u.slots.at i = s.slots.at i
  lines : ∀ i ∈ xs, ∀ c b, s.slots.at i = .held c b →
    u.lines.at c.line = s.lines.at c.line ∧ (u.bus = .claimed c.line ↔ s.bus = .claimed c.line)

/-- The part `w` after the slots of a list are settled, starting from `u`. -/
structure Settled (tags : List Byte) (s : State) (xs : List SlotId) (u w : State) : Prop where
  writes : WritesSettled u w
  slots : ∀ i, w.slots.at i = if i ∈ xs then slotSettled tags (s.slots.at i) else u.slots.at i
  lines : ∀ i ∈ xs, ∀ c b, s.slots.at i = .held c b → w.lines.at c.line = lineSettled tags i s c
  others : ∀ p, (∀ i ∈ xs, ∀ c b, s.slots.at i = .held c b → c.line ≠ p) → w.lines.at p = u.lines.at p

theorem settleSlot_of_other {tags : List Byte} {i : SlotId} {s : State} (h : (s.slots.at i).isHeld = false) :
    settleSlot tags i s = s ∧ settleReports tags i s = [] ∧ slotSettled tags (s.slots.at i) = s.slots.at i := by
  unfold settleSlot settleReports slotSettled
  cases hs : s.slots.at i with
  | held c b =>
    rw [hs] at h
    cases h
  | free | busy c b | reserved c b | clearing p n side b | blocked why => exact ⟨rfl, rfl, rfl⟩

theorem lineSettled_of_line {tags : List Byte} {i : SlotId} {s u : State} {c : Call} (hl : u.lines.at c.line = s.lines.at c.line)
    (hb : u.bus = .claimed c.line ↔ s.bus = .claimed c.line) : lineSettled tags i u c = lineSettled tags i s c := by
  unfold lineSettled lineEnded
  rw [hl]
  simp only [hb]

theorem settleReports_of_line {tags : List Byte} {i : SlotId} {s u : State} (hs : u.slots.at i = s.slots.at i)
    (hb : ∀ c b, s.slots.at i = .held c b → (u.bus = .claimed c.line ↔ s.bus = .claimed c.line)) :
    settleReports tags i u = settleReports tags i s := by
  unfold settleReports endReports
  rw [hs]
  cases h : s.slots.at i with
  | held c b => simp only [hb c b h]
  | free | busy c b | reserved c b | clearing p n side b | blocked why => rfl

theorem settles_all {tags : List Byte} {s0 s : State} (hn : LinesNameSlots s) {n : Nat} (hr : Room n s0) {xs : List SlotId} (hx : xs.Nodup)
    {u t : State} {rs : List Report} (hu : Untouched s xs u) (h : Comes s0 rs u t)
    (hl : rs.length + (xs.flatMap fun i => settleReports tags i s).length ≤ n) :
    ∃ w, Comes s0 (rs ++ xs.flatMap fun i => settleReports tags i s) w (inTurn xs (settleSlot tags) t) ∧ Settled tags s xs u w := by
  induction xs generalizing u t rs with
  | nil => exact ⟨u, h.reports_eq (List.append_nil rs).symm, .refl u, fun i => (if_neg fun x => (nomatch x)).symm, fun i x => (nomatch x), fun _ _ => rfl⟩
  | cons i xs ih =>
    obtain ⟨apart, hx⟩ := List.nodup_cons.mp hx
    rw [List.flatMap_cons, List.length_append] at hl
    have slot := hu.slots i List.mem_cons_self
    have reports : settleReports tags i u = settleReports tags i s :=
      settleReports_of_line slot fun c b hs => (hu.lines i List.mem_cons_self c b hs).2
    by_cases held : (s.slots.at i).isHeld = true
    · obtain ⟨c, b, hs⟩ : ∃ c b, s.slots.at i = .held c b := by
        cases hs : s.slots.at i with
        | held c b => exact ⟨c, b, rfl⟩
        | free | busy c b | reserved c b | clearing p n side b | blocked why => rw [hs] at held; cases held
      obtain ⟨line, bus⟩ := hu.lines i List.mem_cons_self c b hs
      have hus : u.slots.at i = .held c b := slot.trans hs
      have hul : (u.lines.at c.line).state = .holdover := by
        rw [line]
        exact (line_of_held hn hs).1
      have stepped := settleSlot_comes hus hr h (by rw [reports]; omega)
      rw [reports] at stepped
      have apartLine (j : SlotId) (hj : j ∈ xs) (d : Call) (e : Bool) (hd : s.slots.at j = .held d e) : d.line ≠ c.line := fun x =>
        apart (held_line_inj hn hd hs x ▸ hj)
      have left : Untouched s xs (settledSlot tags i u) := by
        refine ⟨fun j hj => ?_, fun j hj d e hd => ⟨?_, ?_⟩⟩
        · have other : j ≠ i := fun x => apart (x ▸ hj)
          rw [settledSlot_slots hus hul, Table.at_put_other _ _ other]
          exact hu.slots j (List.mem_cons_of_mem _ hj)
        · rw [settledSlot_lines hus hul, Table.at_put_other _ _ (apartLine j hj d e hd)]
          exact (hu.lines j (List.mem_cons_of_mem _ hj) d e hd).1
        · rw [settledSlot_bus hus hul (apartLine j hj d e hd)]
          exact (hu.lines j (List.mem_cons_of_mem _ hj) d e hd).2
      obtain ⟨w, told, done⟩ := ih hx left stepped (by rw [List.length_append]; omega)
      refine ⟨w, told.reports_eq (by rw [List.flatMap_cons, List.append_assoc]), (settledSlot_writes hus hul).trans done.writes, fun j => ?_,
        fun j hj d e hd => ?_, fun p hp => ?_⟩
      · rw [done.slots, settledSlot_slots hus hul]
        by_cases hj : j = i
        · subst hj
          rw [if_neg apart, if_pos List.mem_cons_self, Table.at_put_same, hs]
        · rw [Table.at_put_other _ _ hj]
          simp only [List.mem_cons, hj, false_or]
      · rcases List.mem_cons.mp hj with rfl | hj
        · rw [hs] at hd
          cases hd
          rw [done.others _ fun k hk d e hd => apartLine k hk d e hd, settledSlot_lines hus hul, Table.at_put_same]
          exact lineSettled_of_line line bus
        · exact done.lines j hj d e hd
      · have other : p ≠ c.line := (hp i List.mem_cons_self c b hs).symm
        rw [done.others p fun k hk => hp k (List.mem_cons_of_mem _ hk), settledSlot_lines hus hul, Table.at_put_other _ _ other]
    · have none : (s.slots.at i).isHeld = false := by simpa using held
      have tslots : t.slots = u.slots := (congrArg State.slots h.port :)
      have still : settleSlot tags i t = t := (settleSlot_of_other (by rw [tslots, slot]; exact none)).1
      obtain ⟨-, quiet, stays⟩ := settleSlot_of_other (tags := tags) none
      have left : Untouched s xs u := ⟨fun j hj => hu.slots j (List.mem_cons_of_mem _ hj), fun j hj => hu.lines j (List.mem_cons_of_mem _ hj)⟩
      obtain ⟨w, told, done⟩ := ih hx left h (by omega)
      refine ⟨w, ?_, done.writes, fun j => ?_, fun j hj d e hd => ?_, fun p hp => done.others p fun k hk => hp k (List.mem_cons_of_mem _ hk)⟩
      · rw [List.flatMap_cons, quiet, List.nil_append]
        show Comes _ _ _ (inTurn xs _ (settleSlot tags i t))
        rw [still]
        exact told
      · rw [done.slots]
        by_cases hj : j = i
        · subst hj
          rw [if_neg apart, if_pos List.mem_cons_self, slot, stays]
        · simp only [List.mem_cons, hj, false_or]
      · rcases List.mem_cons.mp hj with rfl | hj
        · rw [hd] at none
          cases none
        · exact done.lines j hj d e hd

/-! ## The whole of it (R140) -/

theorem settleReports_listed (tags : List Byte) (s : State) : (allSlots.flatMap fun i => settleReports tags i s)
    = (allSlots.filter fun i => (s.slots.at i).isHeld).flatMap fun i =>
        match (s.slots.at i).call? with
        | some c =>
          if tags.any (fun x => decide (x.toNat = c.tag)) then
            [.callEvent c.line (if c.direction = .out then .activeOut else .activeIn) (.because .normal)]
          else endReports s c.line .parked .outOfService
        | none => [] := by
  have restored (d : Direction) : restoredState d = if d = .out then .activeOut else .activeIn := by cases d <;> rfl
  rw [← flatMap_filter]
  refine List.flatMap_congr fun i _ => ?_
  unfold settleReports Listed
  simp only [restored]
  cases hs : s.slots.at i with
  | held c b => rfl
  | free | busy c b | reserved c b | clearing p n side b | blocked why => rfl

theorem length_linesHeld (s : State) : (linesHeld s).length = (allSlots.filter fun i => (s.slots.at i).isHeld).length := by
  unfold linesHeld
  generalize allSlots = is
  induction is with
  | nil => rfl
  | cons i is ih =>
    cases hs : s.slots.at i with
    | held c b =>
      have held : (s.slots.at i).isHeld = true := by rw [hs]; rfl
      have call : (s.slots.at i).call?.map (·.line) = some c.line := by rw [hs]; rfl
      rw [List.filter_cons_of_pos (p := fun i => (s.slots.at i).isHeld) held,
        List.filterMap_cons_some (f := fun i => (s.slots.at i).call?.map (·.line)) call, List.length_cons, List.length_cons, ih]
    | free | busy c b | reserved c b | clearing p n side b | blocked why =>
      have held : ¬ (s.slots.at i).isHeld = true := by rw [hs]; exact fun x => nomatch x
      rw [List.filter_cons_of_neg (p := fun i => (s.slots.at i).isHeld) held, ih]

/-- The reports of the slots have room: one each, and one more for a line that is claimed. -/
theorem settleReports_length {s : State} (hn : LinesNameSlots s) (tags : List Byte) :
    (allSlots.flatMap fun i => settleReports tags i s).length ≤ (linesHeld s).length + 1 := by
  have among : (allSlots.flatMap fun i => settleReports tags i s)
      = (allSlots.filter fun i => (s.slots.at i).isHeld).flatMap fun i => settleReports tags i s := by
    rw [← flatMap_filter]
    refine List.flatMap_congr fun i _ => ?_
    cases held : (s.slots.at i).isHeld with
    | true => rfl
    | false => exact (settleSlot_of_other held).2.1
  obtain ⟨q, short⟩ := endReports_claimed s
  have one (i : SlotId) {j : SlotId} (hj : ∀ c b, s.slots.at i = .held c b → c.line = q → i = j) :
      (settleReports tags i s).length ≤ if i = j then 2 else 1 := by
    unfold settleReports
    cases hs : s.slots.at i with
    | held c b =>
      dsimp only
      split
      · split
        · exact Nat.le_succ 1
        · exact Nat.le_refl 1
      · refine Nat.le_trans (short c.line .parked .outOfService) ?_
        by_cases hc : c.line = q
        · rw [if_pos hc, if_pos (hj c b hs hc)]
        · rw [if_neg hc]
          split
          · exact Nat.le_succ 1
          · exact Nat.le_refl 1
    | free | busy c b | reserved c b | clearing p n side b | blocked why => exact Nat.zero_le _
  rw [among, length_linesHeld]
  have nodup := (List.nodup_finRange 20).filter fun i => (s.slots.at i).isHeld
  by_cases some : ∃ j d e, s.slots.at j = .held d e ∧ d.line = q
  · obtain ⟨j, d, e, hj, hd⟩ := some
    exact length_flatMap_le (q := j) nodup fun i _ => one i fun c b hs hc => held_line_inj hn hs hj (hc.trans hd.symm)
  · exact length_flatMap_le (q := 0) nodup fun i _ => one i fun c b hs hc => absurd ⟨i, c, b, hs, hc⟩ some

/-- No RESTART is left behind what is in flight. -/
theorem removeQueuedRestart_queue (s : State) :
    ∀ e ∈ (removeQueuedRestart s).txq.drop (flightCount s), e.msg ≠ .ofNone .restart := by
  intro e he
  have txq : (removeQueuedRestart s).txq
      = s.txq.take (flightCount s) ++ (queuedEntries s).filter fun e => decide (e.msg ≠ .ofNone .restart) := rfl
  rw [txq, List.drop_append, List.drop_take_self, List.nil_append] at he
  exact of_decide_eq_true (List.mem_filter.mp (List.mem_of_mem_drop he)).2

theorem takeRestartAck_of_resync (tags : List Byte) {s : State} (h : s.link = .resync) :
    takeRestartAck tags s = enterService (removeQueuedRestart (inTurn allSlots (settleSlot tags) s)) := if_pos h

/-- Settles O42: the slots settled in turn, and the entry to service. -/
theorem restartAckSettlesHeldCalls : Obligations.RestartAckSettlesHeldCalls := by
  refine ⟨fun tags s hrun hl hq hn hmode hroom => ?_, fun tags s hrun hl he => ?_⟩
  · have messages : s.link.messages = true := by rw [hl]; rfl
    have few := settleReports_length hn tags
    have start : Untouched s allSlots s := ⟨fun _ _ => rfl, fun _ _ _ _ _ => ⟨rfl, Iff.rfl⟩⟩
    obtain ⟨w, settledAll, done⟩ := settles_all (tags := tags) hn hroom (xs := allSlots) (List.nodup_finRange 20) start (Comes.served s) (by
      show 0 + (allSlots.flatMap fun i => settleReports tags i s).length ≤ _
      omega)
    have reports := settleReports_listed tags s
    obtain ⟨writes, slots, lines, others⟩ := done
    have told := (settledAll.map removeQueuedRestart fun _ _ => rfl).enterService hroom (by
      show (allSlots.flatMap fun i => settleReports tags i s).length + 3 ≤ _
      omega)
    obtain ⟨sl, sg, fr, mk, ls, sc, bf, bu, rfl⟩ := writes
    have queue := removeQueuedRestart_queue
      { s with slots := sl, sig := sg, free := fr, mark := mk, lines := ls, scan := sc, buffers := bf, bus := bu }
    obtain ⟨q, removed⟩ : ∃ q, removeQueuedRestart
      { s with slots := sl, sig := sg, free := fr, mark := mk, lines := ls, scan := sc, buffers := bf, bus := bu }
        = { s with slots := sl, sig := sg, free := fr, mark := mk, lines := ls, scan := sc, buffers := bf, bus := bu, txq := q } := ⟨_, rfl⟩
    rw [removed] at queue told
    have alarms := serviceEntered_alarms { s with
      slots := sl, sig := sg, free := fr, mark := mk, lines := ls, scan := sc, buffers := bf, bus := bu, txq := q }
    obtain ⟨al, entered⟩ := serviceEntered_writes { s with
      slots := sl, sig := sg, free := fr, mark := mk, lines := ls, scan := sc, buffers := bf, bus := bu, txq := q }
    rw [entered] at told alarms
    rw [reports] at told
    have link : (serve s).link = .resync := (of_served State.link (fun _ _ => rfl) s).trans hl
    refine .of_end hrun rfl ((taken_message messages).trans (takeRestartAck_of_resync tags link)) told
      (finish_stops rfl rfl hq fun x => absurd x hmode) fun y made =>
      ⟨rfl, rfl, rfl, rfl, queue, fun i => ?_, fun i c hc held => ?_, fun p hp => ?_, made, alarms.1, alarms.2⟩
    · exact (slots i).trans (if_pos (List.mem_finRange i))
    · obtain ⟨b, hs⟩ : ∃ b, s.slots.at i = .held c b := by
        cases hs : s.slots.at i with
        | held d b =>
          rw [hs] at hc
          exact ⟨b, by rw [Option.some.inj hc]⟩
        | free | busy d b | reserved d b | clearing p n side b | blocked why => rw [hs] at held; cases held
      have line : ls.at c.line = lineSettled tags i s c := lines i (List.mem_finRange i) c b hs
      show if Listed tags c then (ls.at c.line).state = _ ∧ (ls.at c.line).call = _ ∧ (ls.at c.line).timer = none else ls.at c.line = _
      rw [line]
      unfold lineSettled
      split
      · cases c.direction <;> exact ⟨rfl, rfl, rfl⟩
      · rfl
    · exact others p fun i _ c b hs x => hp (x ▸ (line_of_held hn hs).1)
  · have still (y : PortSide) : (if (s.withPort y).link.messages then takeRestartAck tags (s.withPort y) else s.withPort y) = s.withPort y := by
      unfold takeRestartAck
      rw [if_neg (show ¬ (s.withPort y).link = .resync from hl), ite_self]
    rw [eq_withPort (serve_port s)]
    exact exec_of_event (u := s) hrun rfl (still _) (.of_same rfl he)

end Sys2Proof.Machine
end

