-- ==== Sys2Proof/Proofs/Reserving.lean ====
section
/-! PROOF. A slot reserved for a line, and an INCOMING that is admitted (O40). -/

namespace Sys2Proof.Machine

/-! ## Reservation (R81, R82) -/

section
variable (i : SlotId) (p : Port) (d : Direction) (s : State)

/-- The part with a slot reserved, the reservation order apart. -/
def reserved : State := { s with
  slots := s.slots.put i (.reserved (newCall s p d) false), sig := s.sig.put i Sig.cleared, free := s.free.erase i
  nextTag := freshTag s % 255 + 1 }

theorem reserve_ordered : reserve i p d s = advanceOrder (reserved i p d s) := rfl

/-- A reservation below the last order. -/
theorem reserve_eq (h : s.nextOrder < 65535) : reserve i p d s = { s with
    slots := s.slots.put i (.reserved (newCall s p d) false), sig := s.sig.put i Sig.cleared, free := s.free.erase i
    nextTag := freshTag s % 255 + 1, nextOrder := s.nextOrder + 1 } := by
  rw [reserve_ordered]
  unfold advanceOrder
  exact if_pos h

theorem freshTag_withPort (y : PortSide) : freshTag (s.withPort y) = freshTag s := by
  have held : tagHeld (s.withPort y) = tagHeld s := rfl
  have next : (s.withPort y).nextTag = s.nextTag := rfl
  unfold freshTag tagCount
  rw [held, next]

theorem reserved_withPort (y : PortSide) : reserved i p d (s.withPort y) = (reserved i p d s).withPort y := by
  unfold reserved newCall
  rw [freshTag_withPort]
  rfl

theorem reserve_withPort (y : PortSide) : reserve i p d (s.withPort y) = (reserve i p d s).withPort y := by
  rw [reserve_ordered, reserve_ordered, reserved_withPort]
  have order : ((reserved i p d s).withPort y).nextOrder = (reserved i p d s).nextOrder := rfl
  unfold advanceOrder
  rw [order]
  split <;> rfl
end

/-- A FREE slot that is reserved leaves the end of the event as it was. -/
theorem EventsFinished.of_reserved {s u : State} {i : SlotId} {c : Call} {b : Bool} (he : EventsFinished s) (hi : s.slots.at i = .free)
    (hs : u.slots = s.slots.put i (.reserved c b)) (hm : s.mode = .normal) (hh : u.holdover = s.holdover) (hu : u.mode = s.mode) :
    EventsFinished u :=
  he.of_givenUp (i := i) (by rw [hs]; exact fun j hj => Table.at_put_other _ _ hj) (by rw [hi]; rfl) hh hu (by rw [hm]; decide)

theorem priority_ordinary (s : State) (p : Port) : isOrdinary s p = true → isPriority s p = false := by
  unfold isOrdinary isPriority
  intro h
  rw [of_decide_eq_true h]
  rfl

/-! ## An INCOMING admitted (R95) -/

section
variable {s : State} {p : Port} {i : SlotId} {rest : List SlotId}

theorem incomingRefusal_none (hm : s.mode = .normal) (hl : s.link.inService = true) (hst : (s.lines.at p).state = .idle)
    (hb : s.bus ≠ .claimed p) (hord : isOrdinary s p = true → s.link.ordinary = true ∧ activeCount s < s.posture.callLimit)
    (hf : s.free = i :: rest) : incomingRefusal s p = none := by
  have resync : s.link ≠ .resync := fun x => by rw [x] at hl; cases hl
  have passes : ¬ (isOrdinary s p = true ∧ (s.link.ordinary = false ∨ s.posture.callLimit ≤ activeCount s)) := fun ⟨ho, hor⟩ => by
    obtain ⟨admitted, below⟩ := hord ho
    rcases hor with no | full
    · rw [admitted] at no
      cases no
    · omega
  unfold incomingRefusal
  dsimp only
  rw [if_neg (fun x => x hm), if_neg resync, hst, if_neg (fun x => x.elim (fun y => nomatch y) hb), if_neg (fun x => x rfl), if_neg passes, hf]
  rfl

theorem takeIncoming_admits {ref number : BitVec 16} (hp : lookup s number.toNat = some p) (hr : incomingRefusal s p = none)
    (hf : s.free = i :: rest) : takeIncoming ref number s = admitIncoming p i ref s := by
  unfold takeIncoming offerCall
  rw [hp]
  dsimp only
  rw [hr, hf]

/-- The record of a line that becomes OFFERED. -/
theorem moved_offered {l : Line} (hst : l.state = .idle) (ha : l.answerOwed = false) (call : Option (SlotId × Direction)) (timer : Option Nat) :
    l.moved .offered call timer = { Line.unequipped with state := .offered, call := call, timer := timer, faultPresent := l.faultPresent } := by
  simp [Line.moved, ha, Line.unequipped, LineState.active]

/-- An IDLE line that changes to a state which keeps the digit buffer. -/
theorem moveLine_of_idle {st : LineState} (call : Option (SlotId × Direction)) (timer : Option Nat) (hst : (s.lines.at p).state = .idle)
    (he : st.emptiesBuffer = false) : moveLine p st call timer s = { s with
      lines := s.lines.put p ((s.lines.at p).moved st call timer)
      scan := s.scan.put p ((s.scan.at p).lineMoved (s.ports.at p) .idle st) } := by
  have stays : ¬ LeavesRing p st s := fun x => by
    have called := x.1
    rw [hst] at called
    cases called
  have waits : ¬ ((s.lines.at p).state = .queued ∧ st ≠ .queued) := fun x => by
    rw [hst] at x
    exact nomatch x.1
  rw [moveLine_eq, if_neg stays, if_neg stays, if_neg stays, if_neg waits, he, hst]
  rfl
end

/-- The part with a line OFFERED in a slot reserved for it, and its OFFER made. -/
def offered (p : Port) (i : SlotId) (ref : BitVec 16) (s : State) : State :=
  addSlotEntry (isPriority s p) i (.offer ref)
    (moveLine p .offered (some (i, .inward)) (some (1000 * s.params.ringLimit)) s)

theorem offered_withPort (p : Port) (i : SlotId) (ref : BitVec 16) (s : State) (y : PortSide) :
    offered p i ref (s.withPort y) = (offered p i ref s).withPort y := by
  have priority : isPriority (s.withPort y) p = isPriority s p := rfl
  have params : (s.withPort y).params = s.params := rfl
  unfold offered
  rw [priority, params, moveLine_withPort, addSlotEntry_withPort]

/-- What of the queue an entry is made by. -/
theorem queueWith_congr {s t : State} (hq : t.txq = s.txq) (hf : t.inFlight = s.inFlight) (u : Bool) (e : Entry) :
    queueWith u e t = queueWith u e s := by
  unfold queueWith queuedEntries flightCount
  rw [hq, hf]

theorem offered_eq {p : Port} {i : SlotId} {ref : BitVec 16} {s : State} {tag : Nat} (hst : (s.lines.at p).state = .idle)
    (ha : (s.lines.at p).answerOwed = false) (hs : (s.slots.at i).party? = some (p, tag)) : offered p i ref s = { s with
      lines := s.lines.put p { Line.unequipped with
        state := .offered, call := some (i, .inward), timer := some (1000 * s.params.ringLimit), faultPresent := (s.lines.at p).faultPresent }
      scan := s.scan.put p ((s.scan.at p).lineMoved (s.ports.at p) .idle .offered)
      txq := queueWith (isPriority s p) { msg := .ofSlot i p tag (.offer ref), pinned := false } s } := by
  unfold offered
  rw [moveLine_of_idle _ _ hst rfl, moved_offered hst ha, addSlotEntry_eq _ i _ _ (p := p) (tag := tag) (by exact hs)]
  rfl

/-- The admission with its reports, the Ring Scheduler apart. -/
theorem Comes.admits {s u t : State} {rs : List Report} {n k : Nat} {b : Bool} {p : Port} {i : SlotId} {ref : BitVec 16} (h : Comes s rs u t)
    (hb : b = isPriority u p) (hk : k = u.params.ringLimit) (hr : Room n s) (hn : rs.length < n) :
    Comes s (rs ++ [.callEvent p .offered (.because .normal)]) (offered p i ref u)
      (addSlotEntry b i (.offer ref) (Machine.enterLine p .offered (some (i, .inward)) (some (1000 * k)) .normal t)) := by
  rw [hb, hk]
  exact (h.enterLine p _ _ .normal rfl hr hn).map (addSlotEntry (isPriority u p) i (.offer ref)) fun x y => addSlotEntry_withPort i x y _ _

theorem handOnAtOnce_withPort (p : Port) (s : State) (y : PortSide) : handOnAtOnce p (s.withPort y) = (handOnAtOnce p s).withPort y := by
  have group : groupState (s.withPort y) p = groupState s p := rfl
  unfold handOnAtOnce
  rw [group, handOn_withPort]
  split <;> rfl

theorem wakeForIncoming_of_awake {p : Port} {s : State} (h : groupState s p ≠ .standby) : wakeForIncoming p s = s := if_neg h

theorem ringCapacity_pos (p : Posture) : 0 < p.ringCapacity := by cases p <;> decide

theorem reserve_stands (i : SlotId) (p : Port) (d : Direction) (s : State) : (reserve i p d s).params = s.params
    ∧ (reserve i p d s).ports = s.ports ∧ (reserve i p d s).groups = s.groups := by
  rw [reserve_ordered]
  unfold advanceOrder
  split <;> exact ⟨rfl, rfl, rfl⟩

section
variable {ref number : BitVec 16} {p : Port} {i : SlotId} {rest : List SlotId} {s : State}

theorem groupState_reserved : groupState (reserve i p .inward s) p = groupState s p := by
  unfold groupState
  rw [(reserve_stands i p .inward s).2.2]

/-- The command of an INCOMING that is admitted, from the part with its slot reserved and its group woken on. -/
theorem exec_of_admitted (hp : lookup s number.toNat = some p) (hm : s.mode = .normal) (hl : s.link.inService = true)
    (hst : (s.lines.at p).state = .idle) (hb : s.bus ≠ .claimed p)
    (hord : isOrdinary s p = true → s.link.ordinary = true ∧ activeCount s < s.posture.callLimit) (hf : s.free = i :: rest) :
    (if (serve s).link.messages then takeIncoming ref number (serve s) else serve s) = handOnAtOnce p (addSlotEntry (isPriority (serve s) p) i
      (.offer ref) (enterLine p .offered (some (i, .inward)) (some (1000 * (serve s).params.ringLimit)) .normal
        (wakeForIncoming p (reserve i p .inward (serve s))))) := by
  have messages : s.link.messages = true := by cases h : s.link <;> rw [h] at hl <;> first | rfl | cases hl
  have refused := incomingRefusal_none hm hl hst hb hord hf
  rw [taken_message (f := takeIncoming ref number) messages]
  exact takeIncoming_admits ((of_served (fun x => lookup x number.toNat) (fun _ _ => rfl) s).trans hp)
    ((of_served (fun x => incomingRefusal x p) (fun _ _ => rfl) s).trans refused) ((of_served State.free (fun _ _ => rfl) s).trans hf)

/-- The tag of the reservation. -/
theorem reservedTag (s : State) : FirstFreeTag s (freshTag s) ∧ 1 ≤ freshTag s ∧ freshTag s ≤ 255 :=
  ⟨freshTag_first s, (freshTag_range s).1, (freshTag_range s).2⟩
end

/-- A line of a group that samples its hook is placed in the cell of the next phase where that has room. -/
theorem handOnAtOnce_of_room {p : Port} {s : State} (hh : hookSampled s p = true)
    (hc : s.cells.at (cellOf (nextPhase s.phase) (busOf p)) = []) (hn : s.nextPlacement < 65535) : handOnAtOnce p s = { s with
      cells := s.cells.put (cellOf (nextPhase s.phase) (busOf p)) [⟨p, s.nextPlacement⟩], nextPlacement := s.nextPlacement + 1 } := by
  have room : (s.cells.at (cellOf (nextPhase s.phase) (busOf p))).length < s.posture.ringCapacity := by
    rw [hc]
    exact ringCapacity_pos _
  unfold handOnAtOnce
  rw [if_pos (show (groupState s p).awake = true from hh), handOn_of_room room hn, hc]
  rfl

theorem handOnAtOnce_of_sleep {p : Port} {s : State} (h : groupState s p = .standby ∨ groupState s p = .waking) : handOnAtOnce p s = s := by
  have asleep : (groupState s p).awake = false := by rcases h with h | h <;> rw [h] <;> rfl
  unfold handOnAtOnce
  rw [asleep]
  rfl

theorem Comes.wakesForIncoming {s u t : State} {rs : List Report} {n : Nat} {p : Port} (h : Comes s rs u t) (hg : groupState u p = .standby)
    (hr : Room n s) (hn : rs.length < n) :
    Comes s (rs ++ [.groupEvent (groupOf p) .waking .incoming]) (waking (groupOf p) u) (wakeForIncoming p t) := by
  have group : groupState t p = groupState u p := (congrArg (fun x => groupState x p) h.port :)
  unfold wakeForIncoming
  rw [group, if_pos hg]
  exact h.wakes _ _ hr hn

theorem Scanner.lineMoved_runs (c : Scanner) (r : PortRole) (old st : LineState) (ho : c.openRun = 0) (hc : c.closedRun = 0) (hf : c.faultRun = 0) :
    (c.lineMoved r old st).openRun = 0 ∧ (c.lineMoved r old st).closedRun = 0 ∧ (c.lineMoved r old st).faultRun = 0 := by
  unfold Scanner.lineMoved Scanner.suspended Scanner.trainCleared
  dsimp only
  split <;> split <;> exact ⟨by first | rfl | exact ho, by first | rfl | exact hc, hf⟩

/-- Settles O40: the slot reserved, the group that wakes, the line OFFERED and handed on. -/
theorem incomingAdmitsAnIdleLine : Obligations.IncomingAdmitsAnIdleLine := by
  refine ⟨fun ref number p i rest s hrun hp hm hl hst ha hb hord hf hfree _ hnext hh hw hring hcell hnum he hroom => ?_,
    fun ref number p i rest s hrun hp hm hl hst ha hb hord hf hfree _ hnext hg hw he hroom => ?_⟩
  · have taken := exec_of_admitted (ref := ref) hp hm hl hst hb hord hf
    have start := (Comes.served s).map (reserve i p .inward) fun x y => reserve_withPort i p .inward x y
    have awake : groupState s p ≠ .standby := fun x => by
      unfold hookSampled at hh
      rw [x] at hh
      cases hh
    have groups : groupState (serve s) p = groupState s p := of_served (fun x => groupState x p) (fun _ _ => rfl) s
    rw [wakeForIncoming_of_awake (by rw [groupState_reserved, groups]; exact awake)] at taken
    have told := (start.admits (ref := ref) (b := isPriority (serve s) p) (k := (serve s).params.ringLimit) (i := i) (p := p)
      (by
        unfold isPriority
        rw [(reserve_stands i p .inward s).2.1, of_served State.ports (fun _ _ => rfl)])
      (by rw [(reserve_stands i p .inward s).1, of_served State.params (fun _ _ => rfl)]) hroom (by decide)).map (handOnAtOnce p)
        fun x y => handOnAtOnce_withPort p x y
    rw [reserve_eq i p .inward s hnext, offered_eq (tag := freshTag s) (by exact hst) (by exact ha) (by exact congrArg Slot.party? (Table.at_put_same _ _ _))] at told
    rw [handOnAtOnce_of_room (by exact hh) (by exact hcell) (by exact hnum)] at told
    dsimp only at told
    obtain ⟨first, low, high⟩ := reservedTag s
    refine .of_event hrun rfl taken told (.of_empty hw hring (he.of_reserved hfree rfl hm rfl rfl)) fun y made =>
      ⟨Table.at_put_same _ _ _, ⟨freshTag s, first, low, high, rfl, Table.at_put_same _ _ _, ?_⟩, rfl, rfl, Table.at_put_same _ _ _,
        Table.at_put_same _ _ _, made, fun q hq => Table.at_put_other _ _ hq, fun j hj => Table.at_put_other _ _ hj,
        fun j hj => Table.at_put_other _ _ hj, fun k hk => Table.at_put_other _ _ hk, rfl⟩
    exact queueWith_congr rfl rfl _ _
  · have taken := exec_of_admitted (ref := ref) hp hm hl hst hb hord hf
    have start := (Comes.served s).map (reserve i p .inward) fun x y => reserve_withPort i p .inward x y
    have groups : groupState (serve s) p = groupState s p := of_served (fun x => groupState x p) (fun _ _ => rfl) s
    obtain ⟨params, ports, -⟩ := reserve_stands i p .inward s
    have priority : isPriority (serve s) p = isPriority s p := of_served (fun x => isPriority x p) (fun _ _ => rfl) s
    have limit : (serve s).params.ringLimit = s.params.ringLimit := of_served (fun x => x.params.ringLimit) (fun _ _ => rfl) s
    obtain ⟨first, low, high⟩ := reservedTag s
    by_cases standby : groupState s p = .standby
    · have told := ((start.wakesForIncoming (p := p) (by rw [groupState_reserved]; exact standby) hroom (by decide)).admits (ref := ref)
        (b := isPriority (serve s) p) (k := (serve s).params.ringLimit) (i := i) (p := p)
        (by
          rw [priority, waking_eq]
          unfold isPriority
          rw [ports])
        (by rw [limit, waking_eq, params]) hroom (Nat.lt_succ_self 1)).map (handOnAtOnce p) fun x y => handOnAtOnce_withPort p x y
      rw [waking_eq, reserve_eq i p .inward s hnext, offered_eq (tag := freshTag s) (by exact hst) (by exact ha) (by exact congrArg Slot.party? (Table.at_put_same _ _ _)),
        handOnAtOnce_of_sleep (by exact .inr (congrArg Group.state (Table.at_put_same _ _ _)))] at told
      dsimp only at told
      have scan (q : Port) := clearRuns_scan (groupOf p) { s with
        slots := s.slots.put i (.reserved (newCall s p .inward) false), sig := s.sig.put i Sig.cleared, free := s.free.erase i
        nextTag := freshTag s % 255 + 1, nextOrder := s.nextOrder + 1 } q
      dsimp only at scan
      generalize (clearRuns _ _).scan = cleared at told scan
      have mine : p ∈ portsOf (groupOf p) := (mem_portsOf p _).mpr rfl
      refine .of_event hrun rfl taken told (.of_nobody rfl rfl hw (he.of_reserved hfree rfl hm rfl rfl)) fun y made =>
        ⟨Table.at_put_same _ _ _, ⟨freshTag s, first, low, high, rfl, Table.at_put_same _ _ _, queueWith_congr rfl rfl _ _⟩,
          ?_, rfl, rfl, rfl, fun q hq => Table.at_put_other _ _ hq, fun j hj => Table.at_put_other _ _ hj,
          fun j hj => Table.at_put_other _ _ hj, fun g hg => Table.at_put_other _ _ hg, rfl⟩
      rw [if_pos standby]
      refine ⟨Table.at_put_same _ _ _, fun q hq => ?_, fun q hq => ?_, made⟩
      · dsimp only [State.withPort]
        by_cases hqp : q = p
        · subst hqp
          rw [Table.at_put_same, scan, if_pos mine]
          exact Scanner.lineMoved_runs _ _ _ _ rfl rfl rfl
        · rw [Table.at_put_other _ _ hqp, scan, if_pos hq]
          exact ⟨rfl, rfl, rfl⟩
      · dsimp only [State.withPort]
        have other : q ≠ p := fun x => hq (x ▸ mine)
        rw [Table.at_put_other _ _ other, scan, if_neg hq]
    · rw [wakeForIncoming_of_awake (by rw [groupState_reserved, groups]; exact standby)] at taken
      have told := (start.admits (ref := ref) (b := isPriority (serve s) p) (k := (serve s).params.ringLimit) (i := i) (p := p)
        (by
          rw [priority]
          unfold isPriority
          rw [ports])
        (by rw [limit, params]) hroom (by decide)).map (handOnAtOnce p) fun x y => handOnAtOnce_withPort p x y
      rw [reserve_eq i p .inward s hnext, offered_eq (tag := freshTag s) (by exact hst) (by exact ha) (by exact congrArg Slot.party? (Table.at_put_same _ _ _)),
        handOnAtOnce_of_sleep (by exact hg)] at told
      dsimp only at told
      refine .of_event hrun rfl taken told (.of_nobody rfl rfl hw (he.of_reserved hfree rfl hm rfl rfl)) fun y made =>
        ⟨Table.at_put_same _ _ _, ⟨freshTag s, first, low, high, rfl, Table.at_put_same _ _ _, queueWith_congr rfl rfl _ _⟩,
          ?_, rfl, rfl, rfl, fun q hq => Table.at_put_other _ _ hq, fun j hj => Table.at_put_other _ _ hj,
          fun j hj => Table.at_put_other _ _ hj, fun g _ => rfl, rfl⟩
      rw [if_neg standby]
      exact ⟨rfl, fun q hq => Table.at_put_other _ _ hq, made⟩

end Sys2Proof.Machine
end

