-- ==== Sys2Proof/Proofs/Admissions.lean ====
section
/-! PROOF. An off-hook on an IDLE line: the line queued or parked, and the admission attempt that follows. -/

namespace Sys2Proof.Machine

/-! ## The line joins the wait queue (R58, R88) -/

/-- The part with an off-hook taken on an IDLE line, its report apart. -/
def queuing (p : Port) (s : State) : State :=
  moveLine p .queued none (some (1000 * s.params.waitLimit)) (setWaitQueue (joinByClass s p s.waitQueue) (offHookSample p s))

/-- The scanner record of a line that has gone off-hook into a state. -/
def scanOffHook (s : State) (p : Port) (st : LineState) : Scanner :=
  ({ (s.scan.at p).closedFor (wholeSamples s.params.debounce) with hook := .offHook } : Scanner).lineMoved (s.ports.at p) .idle st

/-- The record of a line that joins the wait queue. -/
def queuedLine (s : State) (p : Port) : Line :=
  { Line.unequipped with state := .queued, timer := some (1000 * s.params.waitLimit), faultPresent := (s.lines.at p).faultPresent }

theorem moved_queued (l : Line) (timer : Option Nat) :
    l.moved .queued none timer = { Line.unequipped with state := .queued, timer := timer, faultPresent := l.faultPresent } := by
  simp [Line.moved, LineState.mayOweAnswer, LineState.called, LineState.active, Line.unequipped]

theorem moved_seizing (l : Line) (call : Option (SlotId × Direction)) :
    l.moved .seizing call none = { Line.unequipped with state := .seizing, call := call, faultPresent := l.faultPresent } := by
  simp [Line.moved, LineState.mayOweAnswer, LineState.called, LineState.active, Line.unequipped]

section
variable {p : Port} {s u t : State} {rs : List Report}

theorem queuing_eq (hst : (s.lines.at p).state = .idle) : queuing p s = { s with
    lines := s.lines.put p (queuedLine s p), scan := s.scan.put p (scanOffHook s p .queued)
    hookPin := s.hookPin.put p true, waitQueue := joinByClass s p s.waitQueue } := by
  have sample : (offHookSample p s).scan.at p = { (s.scan.at p).closedFor (wholeSamples s.params.debounce) with hook := .offHook } :=
    Table.at_put_same _ _ _
  unfold queuing
  rw [moveLine_of_idle _ _ (by exact hst) rfl, moved_queued]
  unfold setWaitQueue
  dsimp only
  rw [sample, offHookSample_eq]
  dsimp only
  rw [put_put]
  rfl

theorem scanOffHook_hook {st : LineState} (h : st.suspended = false) : (scanOffHook s p st).hook = .offHook := by
  unfold scanOffHook
  rw [Scanner.lineMoved_hook, h]
  rfl

theorem awaitsOffHook_of_idle (hl : hasLine s p = true) (h : (s.lines.at p).state = .idle) : awaitsOffHook s p = true := by
  unfold awaitsOffHook
  rw [hl, h]
  rfl

theorem takeOffHook_of_idle (h : (s.lines.at p).state = .idle) :
    takeOffHook p s = if s.mode = .normal then queueLine p s else Machine.enterBare p .parked .config s := by
  unfold takeOffHook
  rw [h]

/-- The off-hook in NORMAL with its report. -/
theorem Comes.queues (p : Port) {n : Nat} (hr : Room n s) (hn : 0 < n) :
    Comes s [.callEvent p .queued (.because .normal)] (queuing p s) (queueLine p (offHookSample p (serve s))) :=
  ((Comes.served s).map (fun x => setWaitQueue (joinByClass x p x.waitQueue) (offHookSample p x)) fun _ _ => rfl).enterLine p none
    (some (1000 * (offHookSample p (serve s)).params.waitLimit)) .normal rfl hr hn |>.restate (by
      have params : (offHookSample p (serve s)).params = s.params := of_served State.params (fun _ _ => rfl) s
      rw [params]
      rfl)

theorem offHook_queues (hl : hasLine s p = true) (hh : hookSampled s p = true) (hst : (s.lines.at p).state = .idle) (hm : s.mode = .normal) :
    (if awaitsOffHook (serve s) p && hookSampled (serve s) p then takeOffHook p (offHookSample p (serve s)) else serve s)
      = queueLine p (offHookSample p (serve s)) := by
  have line : (offHookSample p (serve s)).lines.at p = s.lines.at p := of_served (fun x => x.lines.at p) (fun _ _ => rfl) s
  have mode : (offHookSample p (serve s)).mode = s.mode := of_served State.mode (fun _ _ => rfl) s
  rw [offHook_taken (awaitsOffHook_of_idle hl hst) hh, takeOffHook_of_idle (by rw [line]; exact hst), if_pos (mode.trans hm)]

theorem offHook_parks (hl : hasLine s p = true) (hh : hookSampled s p = true) (hst : (s.lines.at p).state = .idle) (hm : s.mode ≠ .normal) :
    (if awaitsOffHook (serve s) p && hookSampled (serve s) p then takeOffHook p (offHookSample p (serve s)) else serve s)
      = Machine.enterBare p .parked .config (offHookSample p (serve s)) := by
  have line : (offHookSample p (serve s)).lines.at p = s.lines.at p := of_served (fun x => x.lines.at p) (fun _ _ => rfl) s
  have mode : (offHookSample p (serve s)).mode = s.mode := of_served State.mode (fun _ _ => rfl) s
  rw [offHook_taken (awaitsOffHook_of_idle hl hst) hh, takeOffHook_of_idle (by rw [line]; exact hst), if_neg (by rw [mode]; exact hm)]

end

/-- A QUEUED line that leaves the wait queue for a state which keeps the digit buffer. -/
theorem moveLine_of_queued {p : Port} {st : LineState} {s : State} (call : Option (SlotId × Direction)) (timer : Option Nat)
    (hst : (s.lines.at p).state = .queued) (he : st.emptiesBuffer = false) (hq : st ≠ .queued) : moveLine p st call timer s = { s with
      lines := s.lines.put p ((s.lines.at p).moved st call timer)
      scan := s.scan.put p ((s.scan.at p).lineMoved (s.ports.at p) .queued st), waitQueue := s.waitQueue.erase p } := by
  have stays : ¬ LeavesRing p st s := fun x => by
    have called := x.1
    rw [hst] at called
    cases called
  have leaves : (s.lines.at p).state = .queued ∧ st ≠ .queued := ⟨hst, hq⟩
  rw [moveLine_eq, if_neg stays, if_neg stays, if_neg stays, if_pos leaves, he, hst]
  rfl

/-! ## An admission attempt followed through (R90 to R92) -/

/-- The part with a line admitted to a slot, its report apart. -/
def admitted (p : Port) (i : SlotId) (s : State) : State :=
  addSlotEntry (isPriority s p) i .seize (moveLine p .seizing (some (i, .out)) none (reserve i p .out s))

/-- What a reservation writes, the orders of the calls apart. -/
theorem reserve_frame (i : SlotId) (p : Port) (d : Direction) (s : State) : reserve i p d s = { s with
    slots := (reserve i p d s).slots, nextOrder := (reserve i p d s).nextOrder, sig := s.sig.put i Sig.cleared, free := s.free.erase i
    nextTag := freshTag s % 255 + 1 } := by
  rw [reserve_ordered]
  unfold advanceOrder
  split <;> rfl

theorem freshTag_congr {s t : State} (hs : t.slots = s.slots) (hn : t.nextTag = s.nextTag) : freshTag t = freshTag s := by
  unfold freshTag tagCount tagHeld
  rw [hs, hn]

/-- What a reservation makes of the slots and of the reservation order is made of them and the next tag alone. -/
theorem reserve_congr {s t : State} (i : SlotId) (p : Port) (d : Direction) (hs : t.slots = s.slots) (hn : t.nextTag = s.nextTag)
    (ho : t.nextOrder = s.nextOrder) :
    (reserve i p d t).slots = (reserve i p d s).slots ∧ (reserve i p d t).nextOrder = (reserve i p d s).nextOrder := by
  have slots : (reserved i p d t).slots = (reserved i p d s).slots := by
    unfold reserved newCall
    rw [freshTag_congr hs hn, hs, ho]
  have order : (reserved i p d t).nextOrder = (reserved i p d s).nextOrder := ho
  have held : ordersHeld (reserved i p d t) = ordersHeld (reserved i p d s) := by
    unfold ordersHeld
    rw [slots]
  rw [reserve_ordered, reserve_ordered]
  unfold advanceOrder
  rw [order]
  split
  · exact ⟨slots, rfl⟩
  · unfold setNextOrder
    dsimp only
    rw [held, slots]
    exact ⟨rfl, rfl⟩

theorem admitted_eq {p : Port} {i : SlotId} {s : State} (hst : (s.lines.at p).state = .queued)
    (hs : ((reserve i p .out s).slots.at i).party? = some (p, freshTag s)) : admitted p i s = { s with
      lines := s.lines.put p { Line.unequipped with
        state := .seizing, call := some (i, .out), faultPresent := (s.lines.at p).faultPresent }
      scan := s.scan.put p ((s.scan.at p).lineMoved (s.ports.at p) .queued .seizing), waitQueue := s.waitQueue.erase p
      slots := (reserve i p .out s).slots, nextOrder := (reserve i p .out s).nextOrder, sig := s.sig.put i Sig.cleared
      free := s.free.erase i, nextTag := freshTag s % 255 + 1
      txq := queueWith (isPriority s p) { msg := .ofSlot i p (freshTag s) .seize, pinned := false } s } := by
  have frame := reserve_frame i p .out s
  unfold admitted
  generalize reserve i p .out s = r at frame hs ⊢
  generalize r.slots = slots at frame hs ⊢
  generalize r.nextOrder = order at frame ⊢
  subst frame
  rw [moveLine_of_queued _ _ (by exact hst) rfl (by decide), moved_seizing,
    addSlotEntry_eq _ i _ _ (p := p) (tag := freshTag s) (by exact hs)]
  dsimp only
  rw [queueWith_congr (s := s) rfl rfl]
  rfl

/-- The admission with its report. -/
theorem Comes.admitsHead {s u t : State} {rs : List Report} {n : Nat} (h : Comes s rs u t) (p : Port) (i : SlotId) (hr : Room n s)
    (hn : rs.length < n) : Comes s (rs ++ [.callEvent p .seizing (.because .normal)]) (admitted p i u) (admitLine p i t) := by
  have priority : isPriority t p = isPriority u p := (congrArg (fun x => isPriority x p) h.port :)
  unfold admitLine
  rw [priority]
  exact ((h.map (reserve i p .out) fun x y => reserve_withPort i p .out x y).enterLine p _ _ .normal rfl hr hn).map
    (addSlotEntry (isPriority u p) i .seize) fun x y => addSlotEntry_withPort i x y _ _

/-- The one line that waits is admitted to the slot at the head of the list, and the attempt is at its end. -/
theorem attemptRound_admits {p : Port} {i : SlotId} {rest : List SlotId} {s : State} (hq : s.waitQueue = [p]) (hf : s.free = i :: rest)
    (hc : canAdmit s p = true) (ha : (admitLine p i s).waitQueue = []) : attemptRound s = (admitLine p i s, false) := by
  have heads : admitHeads s.free.length s = admitLine p i s := by
    have nobody (n : Nat) : admitHeads n (admitLine p i s) = admitLine p i s := by
      cases n with
      | zero => rfl
      | succ n => unfold admitHeads; rw [ha]
    rw [hf, List.length_cons]
    unfold admitHeads
    rw [hq, hf]
    dsimp only
    rw [if_pos hc, nobody]
  have no : mayPreempt (admitLine p i s) = false := by
    unfold mayPreempt
    rw [ha]
    simp
  unfold attemptRound
  rw [heads]
  dsimp only
  rw [no]
  rfl

/-- With no FREE slot and the mark set, a round does nothing. -/
theorem attemptRound_of_marked {s : State} (hf : s.free = []) (hm : s.mark ≠ none) : attemptRound s = (s, false) := by
  have no : mayPreempt s = false := by
    unfold mayPreempt
    cases h : s.mark with
    | none => exact absurd h hm
    | some _ => simp
  unfold attemptRound
  rw [admitHeads_of_full _ hf]
  dsimp only
  rw [no]
  rfl

theorem attempt_of_round {s t : State} (h : attemptRound s = (t, false)) : attempt s = t := by
  unfold attempt
  rw [attemptRounds, h]
  rfl

/-- A round that preempts is followed by another. -/
theorem attempt_of_rounds {s t u : State} (h : attemptRound s = (t, true)) (h' : attemptRound t = (u, false)) : attempt s = u := by
  unfold attempt
  rw [attemptRounds, h, if_pos rfl, attemptRounds, h']
  rfl

/-! ## The event ends with the attempt -/

theorem attemptCaused_of_joined {old new : State} {p : Port} (hp : p ∈ new.waitQueue) (hn : p ∉ old.waitQueue) : attemptCaused old new = true := by
  have joined : new.waitQueue.any (fun p => decide (p ∉ old.waitQueue)) = true := List.any_eq_true.mpr ⟨p, hp, decide_eq_true hn⟩
  unfold attemptCaused
  rw [joined]
  rfl

/-- What the end of an event makes of an attempt outside CONFIG_PENDING. -/
def attemptEnd (s : State) : State := { s with holdover := if anyHeld s then s.holdover else none }

/-- An event that leaves a new line in the wait queue ends with its admission attempt. -/
theorem Answers.of_attempt {c : Instr} {f : State → State} {s u v v' w : State} {rs rs' : List Report} {p : Port} {P : State → Prop}
    (hrun : Running s) (hx : exec c s = .next (act f s)) (hf : f (serve s) = v) (h : Comes s rs u v) (hc : u.cells = s.cells)
    (hpos : u.posture = s.posture) (hp : p ∈ u.waitQueue) (hn : p ∉ s.waitQueue) (ha : attempt v = v') (h' : Comes s rs' w v')
    (hm : w.mode ≠ .configPending) (hP : ∀ y, Made s ((attemptEnd w).withPort y) rs' → P ((attemptEnd w).withPort y)) : Answers c s P := by
  have room : roomGained (serve s) v = false := roomGained_of_same
    (((congrArg State.cells h.port :).trans hc).trans (of_served State.cells (fun _ _ => rfl) s).symm)
    (((congrArg State.posture h.port :).trans hpos).trans (of_served State.posture (fun _ _ => rfl) s).symm)
  have caused : attemptCaused (serve s) v = true := by
    refine attemptCaused_of_joined (p := p) ?_ ?_
    · have waiting : v.waitQueue = u.waitQueue := (congrArg State.waitQueue h.port :)
      rw [waiting]
      exact hp
    · rw [of_served State.waitQueue (fun _ _ => rfl) s]
      exact hn
  have mode : v'.mode = w.mode := (congrArg State.mode h'.port :)
  have held : anyHeld v' = anyHeld w := (congrArg anyHeld h'.port :)
  have ends : act f s = (attemptEnd w).withPort v'.portSide := by
    have stops : stopHoldover v' = (attemptEnd w).withPort v'.portSide := by
      unfold stopHoldover attemptEnd
      rw [held]
      cases anyHeld w with
      | false => exact congrArg (fun x : State => { x with holdover := none }) h'.eq
      | true => exact h'.eq
    have still : ¬ (((attemptEnd w).withPort v'.portSide).mode = .configPending ∧ anyInUse ((attemptEnd w).withPort v'.portSide) = false) :=
      fun x => hm x.1
    rw [act_running hrun, hf]
    unfold finish
    rw [room, if_neg Bool.false_ne_true]
    dsimp only
    rw [if_pos caused, ha, stops]
    unfold endPending
    exact if_neg still
  exact ⟨_, hx.trans (congrArg Host.Outcome.next ends), hP _ h'.made⟩

theorem attemptEnd_of_finished {s : State} (h : EventsFinished s) : attemptEnd s = s := by
  unfold attemptEnd
  rcases h.1 with none | held
  · rw [none, ite_self, ← none]
  · rw [held]
    rfl

/-! ## Renumbering (R82) -/

theorem withOrder_congr {f g : Nat → Nat} {sl : Slot} (h : ∀ c ∈ sl.call?, f c.order = g c.order) : sl.withOrder f = sl.withOrder g := by
  cases sl with
  | reserved c b => exact congrArg (fun n => Slot.reserved { c with order := n } b) (h c rfl)
  | busy c b => exact congrArg (fun n => Slot.busy { c with order := n } b) (h c rfl)
  | held c b => exact congrArg (fun n => Slot.held { c with order := n } b) (h c rfl)
  | free => rfl
  | clearing p n side b => rfl
  | blocked why => rfl

/-- The part of the orders held that satisfies a condition, counted by the slots. -/
theorem ordersHeld_filter (f : Nat → Bool) (s : State) :
    ((ordersHeld s).filter f).length = (allSlots.filter fun i => (s.slots.at i).call?.any fun c => f c.order).length := by
  unfold ordersHeld
  rw [List.filter_filterMap, ← List.countP_eq_length_filter, List.length_filterMap_eq_countP]
  refine List.countP_congr fun i _ => ?_
  cases (s.slots.at i).call? with
  | none => simp
  | some c => cases hf : f c.order <;> simp [hf]

theorem ordersHeld_length (s : State) : (ordersHeld s).length = activeCount s := by
  have all := ordersHeld_filter (fun _ => true) s
  rw [List.filter_true] at all
  rw [all]
  unfold activeCount Slot.counted
  refine congrArg List.length (List.filter_congr fun i _ => ?_)
  cases (s.slots.at i).call? <;> rfl

/-- A count over two predicates that differ in one place only. -/
theorem countP_of_other {α : Type} [DecidableEq α] {xs : List α} {a : α} {f g : α → Bool} (hn : xs.Nodup) (ha : a ∈ xs)
    (h : ∀ b, b ≠ a → f b = g b) (hg : g a = false) : xs.countP f = xs.countP g + if f a = true then 1 else 0 := by
  have rest : (xs.erase a).countP f = (xs.erase a).countP g := List.countP_congr fun b hb => by
    rw [h b (hn.mem_erase_iff.mp hb).1]
  rw [(List.perm_cons_erase ha).countP_eq f, (List.perm_cons_erase ha).countP_eq g, List.countP_cons, List.countP_cons, rest, hg]
  simp

section
variable {i : SlotId} {p : Port} {s : State}

/-- A slot reserved counts with the rest for a predicate that a FREE slot fails. -/
theorem reserved_count (f : Slot → Bool) (hi : s.slots.at i = .free) (hf : f .free = false) :
    (allSlots.filter fun j => f ((reserved i p .out s).slots.at j)).length
      = (allSlots.filter fun j => f (s.slots.at j)).length + if f (.reserved (newCall s p .out) false) = true then 1 else 0 := by
  have mine : (reserved i p .out s).slots.at i = .reserved (newCall s p .out) false := Table.at_put_same _ _ _
  have other (j : SlotId) (hj : j ≠ i) : (reserved i p .out s).slots.at j = s.slots.at j := Table.at_put_other _ _ hj
  rw [← mine, ← List.countP_eq_length_filter, ← List.countP_eq_length_filter]
  exact countP_of_other (f := fun j => f ((reserved i p .out s).slots.at j)) (g := fun j => f (s.slots.at j)) (List.nodup_finRange 20)
    (List.mem_finRange i) (fun j hj => congrArg f (other j hj)) ((congrArg f hi).trans hf)

theorem reserved_orders (hi : s.slots.at i = .free) : (ordersHeld (reserved i p .out s)).length = activeCount s + 1 := by
  rw [ordersHeld_length]
  exact reserved_count Slot.counted hi rfl

theorem reserved_before {n : Nat} (hi : s.slots.at i = .free) (hn : n ≤ s.nextOrder) :
    ((ordersHeld (reserved i p .out s)).filter fun m => decide (m < n)).length = reservedBefore s n := by
  have late : decide (s.nextOrder < n) = false := decide_eq_false (Nat.not_lt.mpr hn)
  rw [ordersHeld_filter, reserved_count (fun sl => sl.call?.any fun c => decide (c.order < n)) hi rfl]
  unfold reservedBefore
  simp [Slot.call?, newCall, late]

/-- No call was reserved before the order of a call is 1 to k. -/
theorem reservedBefore_all {n : Nat} (ho : ∀ j, ∀ c ∈ (s.slots.at j).call?, c.order < n) : reservedBefore s n = activeCount s := by
  unfold reservedBefore activeCount Slot.counted
  refine congrArg List.length (List.filter_congr fun j _ => ?_)
  cases hc : (s.slots.at j).call? with
  | none => rfl
  | some c => exact decide_eq_true (ho j c hc)

/-- At the last order the calls are renumbered by the order of their reservation. -/
theorem reserve_renumbers (hi : s.slots.at i = .free) (hn : s.nextOrder = 65535) (ho : ∀ j, ∀ c ∈ (s.slots.at j).call?, c.order < 65535) :
    (reserve i p .out s).slots.at i = .reserved { newCall s p .out with order := activeCount s + 1 } false
    ∧ (∀ j, j ≠ i → (reserve i p .out s).slots.at j = (s.slots.at j).withOrder fun n => 1 + reservedBefore s n)
    ∧ (reserve i p .out s).nextOrder = activeCount s + 2 := by
  have last : ¬ (reserved i p .out s).nextOrder < Config.lastOrder := by
    have order : (reserved i p .out s).nextOrder = s.nextOrder := rfl
    rw [order, hn]
    decide
  have mine : (reserved i p .out s).slots.at i = .reserved (newCall s p .out) false := Table.at_put_same _ _ _
  have other (j : SlotId) (hj : j ≠ i) : (reserved i p .out s).slots.at j = s.slots.at j := Table.at_put_other _ _ hj
  rw [reserve_ordered]
  unfold advanceOrder
  rw [if_neg last]
  refine ⟨?_, fun j hj => ?_, congrArg (· + 1) (reserved_orders hi)⟩
  · refine (Table.at_map _ _ _).trans ?_
    rw [mine]
    have before : ((ordersHeld (reserved i p .out s)).filter fun m => decide (m < s.nextOrder)).length = activeCount s := by
      rw [reserved_before hi (Nat.le_refl _), reservedBefore_all (by rw [hn]; exact ho)]
    have order : (newCall s p .out).order = s.nextOrder := rfl
    unfold Slot.withOrder
    dsimp only
    rw [order, before, Nat.add_comm]
  · refine (Table.at_map _ _ _).trans ?_
    rw [other j hj]
    refine withOrder_congr fun c hc => ?_
    have early := ho j c hc
    rw [reserved_before hi (by omega)]
end

/-! ## The line admitted at once -/

section
variable {p : Port} {i : SlotId} {rest : List SlotId} {s : State}

theorem joinByClass_nil (s : State) (p : Port) : joinByClass s p [] = [p] := by
  unfold joinByClass
  split <;> rfl

/-- The part with an off-hook taken on an IDLE line and the line admitted at once. -/
theorem admitted_queuing (hst : (s.lines.at p).state = .idle) (hq : s.waitQueue = [])
    (hs : ((reserve i p .out s).slots.at i).party? = some (p, freshTag s)) : admitted p i (queuing p s) = { s with
      lines := s.lines.put p { Line.unequipped with state := .seizing, call := some (i, .out), faultPresent := (s.lines.at p).faultPresent }
      scan := s.scan.put p ((scanOffHook s p .queued).lineMoved (s.ports.at p) .queued .seizing), hookPin := s.hookPin.put p true, waitQueue := []
      slots := (reserve i p .out s).slots, nextOrder := (reserve i p .out s).nextOrder, sig := s.sig.put i Sig.cleared
      free := s.free.erase i, nextTag := freshTag s % 255 + 1
      txq := queueWith (isPriority s p) { msg := .ofSlot i p (freshTag s) .seize, pinned := false } s } := by
  have line : (s.lines.put p (queuedLine s p)).at p = queuedLine s p := Table.at_put_same _ _ _
  have scan : (s.scan.put p (scanOffHook s p .queued)).at p = scanOffHook s p .queued := Table.at_put_same _ _ _
  have start := queuing_eq hst
  rw [hq, joinByClass_nil] at start
  generalize queuing p s = u at start ⊢
  have slots : u.slots = s.slots := (congrArg State.slots start :)
  have next : u.nextTag = s.nextTag := (congrArg State.nextTag start :)
  obtain ⟨made, order⟩ := reserve_congr i p .out slots next (congrArg State.nextOrder start :)
  have fresh := freshTag_congr slots next
  rw [admitted_eq (p := p) (s := u) (by rw [start]; exact congrArg Line.state line) (by rw [made, fresh]; exact hs), made, order, fresh, start]
  dsimp only
  rw [line, scan, put_put, put_put, queueWith_congr (s := s) rfl rfl, List.erase_cons_head]
  generalize (reserve i p .out s).slots = table
  generalize (reserve i p .out s).nextOrder = counter
  rfl

theorem canAdmit_congr {s t : State} (hm : t.mode = s.mode) (hp : t.ports = s.ports) (hl : t.link = s.link) (hs : t.slots = s.slots)
    (hpos : t.posture = s.posture) (p : Port) : canAdmit t p = canAdmit s p := by
  unfold canAdmit isPriority activeCount
  rw [hm, hp, hl, hs, hpos]

theorem Comes.waitQueue_eq {s u t : State} {rs : List Report} (h : Comes s rs u t) : t.waitQueue = u.waitQueue :=
  (congrArg State.waitQueue h.port :)

theorem Comes.canAdmit_eq {s u t : State} {rs : List Report} (h : Comes s rs u t) (p : Port) : canAdmit t p = canAdmit u p :=
  canAdmit_congr (congrArg State.mode h.port :) (congrArg State.ports h.port :) (congrArg State.link h.port :) (congrArg State.slots h.port :)
    (congrArg State.posture h.port :) p

/-- The attempt after an off-hook that admits the line to the slot at the head of the list. -/
theorem attempt_of_queued {v : State} {rs : List Report} (h : Comes s rs (queuing p s) v) (hst : (s.lines.at p).state = .idle)
    (hm : s.mode = .normal) (hq : s.waitQueue = []) (hf : s.free = i :: rest)
    (hs : ((reserve i p .out s).slots.at i).party? = some (p, freshTag s))
    (hc : if isPriority s p = true then s.link.inService = true else s.link.ordinary = true ∧ activeCount s < s.posture.callLimit)
    (h' : Comes s (rs ++ [.callEvent p .seizing (.because .normal)]) (admitted p i (queuing p s)) (admitLine p i v)) :
    attempt v = admitLine p i v := by
  have start := queuing_eq hst
  have done := admitted_queuing hst hq hs
  rw [hq, joinByClass_nil] at start
  have waiting : v.waitQueue = [p] := h.waitQueue_eq.trans (by rw [start])
  have free : v.free = i :: rest := ((congrArg State.free h.port :).trans (congrArg State.free start :)).trans hf
  have nobody : (admitLine p i v).waitQueue = [] := h'.waitQueue_eq.trans (by rw [done])
  have can : canAdmit v p = canAdmit s p := (h.canAdmit_eq p).trans (
    canAdmit_congr (congrArg State.mode start :) (congrArg State.ports start :) (congrArg State.link start :) (congrArg State.slots start :)
      (congrArg State.posture start :) p)
  refine attempt_of_round (attemptRound_admits waiting free (can.trans ?_) nobody)
  unfold canAdmit
  rw [decide_eq_true hm, Bool.true_and]
  by_cases hp : isPriority s p = true
  · rw [if_pos hp] at hc ⊢
    exact hc
  · rw [if_neg hp] at hc ⊢
    rw [hc.1, decide_eq_true hc.2]
    rfl

/-- A slot reserved names the line and the tag. -/
theorem reserve_party (hn : s.nextOrder < 65535) : ((reserve i p .out s).slots.at i).party? = some (p, freshTag s) := by
  rw [reserve_eq i p .out s hn]
  exact congrArg Slot.party? (Table.at_put_same _ _ _)

end

/-- A line that waits is not one that preemption may clear. -/
theorem noneToPreempt_of_queued {s u : State} {p : Port} (hs : u.slots = s.slots) (hp : u.ports = s.ports) (hl : OnlyAt p s.lines u.lines)
    (hq : (u.lines.at p).state = .queued) (h : NoneToPreempt s) : NoneToPreempt u := by
  intro i c hc pre
  unfold Preemptible isOrdinary at pre
  rw [hp] at pre
  by_cases hcp : c.line = p
  · rw [hcp, hq] at pre
    rcases pre.2 with x | x | x
    · exact nomatch x
    · exact nomatch x
    · exact nomatch x.1
  · rw [hl _ hcp] at pre
    exact h i c (by rw [← hs]; exact hc) pre

/-- The line of an off-hook is admitted at once: what comes of it. -/
theorem Answers.of_admitted {p : Port} {i : SlotId} {rest : List SlotId} {s : State} {P : State → Prop} (hrun : Running s)
    (hl : hasLine s p = true) (hh : hookSampled s p = true) (hst : (s.lines.at p).state = .idle) (hm : s.mode = .normal) (hq : s.waitQueue = [])
    (hf : s.free = i :: rest) (hs : ((reserve i p .out s).slots.at i).party? = some (p, freshTag s))
    (hc : if isPriority s p = true then s.link.inService = true else s.link.ordinary = true ∧ activeCount s < s.posture.callLimit)
    (hroom : Room 2 s)
    (hP : ∀ y w, attemptEnd (admitted p i (queuing p s)) = w →
      Made s (w.withPort y) [.callEvent p .queued (.because .normal), .callEvent p .seizing (.because .normal)] → P (w.withPort y)) :
    Answers (.offHook p) s P := by
  have start := queuing_eq hst
  rw [hq, joinByClass_nil] at start
  have told := Comes.queues p hroom (by decide)
  have told' := told.admitsHead p i hroom (Nat.lt_succ_self 1)
  refine .of_attempt (p := p) hrun rfl (offHook_queues hl hh hst hm) told (by rw [start]) (by rw [start]) (by rw [start]; exact List.mem_singleton_self p)
    (by rw [hq]; exact List.not_mem_nil) (attempt_of_queued told hst hm hq hf hs hc told') told' ?_ fun y => hP y _ rfl
  rw [admitted_queuing hst hq hs]
  dsimp only
  rw [hm]
  decide

end Sys2Proof.Machine
end

