-- ==== Sys2Proof/Proofs/Preemption.lean ====
section
/-! PROOF. The victim of a preemption, its call given up, and what an off-hook on an IDLE line brings (O15). -/

namespace Sys2Proof.Machine

/-! ## The victim (R98) -/

section
variable {s : State} {v : SlotId} {c : Call}

/-- The later of two candidates is the chosen one where either is. -/
theorem laterOf_chosen {best : Option (SlotId × Call)} {i : SlotId}
    (hb : best = some (v, c) ∨ ((∀ x ∈ best, x.2.order < c.order) ∧ i = v))
    (hv : candidate s v = some c) (ho : ∀ j, ∀ d ∈ candidate s j, j ≠ v → d.order < c.order) :
    laterOf best ((candidate s i).map fun d => (i, d)) = some (v, c) := by
  rcases hb with rfl | ⟨early, rfl⟩
  · cases hi : candidate s i with
    | none => rfl
    | some d =>
      by_cases hiv : i = v
      · subst hiv
        rw [hv] at hi
        cases hi
        exact ite_self _
      · exact if_neg (Nat.not_lt.mpr (Nat.le_of_lt (ho i d hi hiv)))
  · rw [hv]
    cases best with
    | none => rfl
    | some x => exact if_pos (early x rfl)

theorem laterOf_early {best : Option (SlotId × Call)} {i : SlotId} (hb : ∀ x ∈ best, x.2.order < c.order) (hi : i ≠ v)
    (ho : ∀ j, ∀ d ∈ candidate s j, j ≠ v → d.order < c.order) :
    ∀ x ∈ laterOf best ((candidate s i).map fun d => (i, d)), x.2.order < c.order := by
  cases hc : candidate s i with
  | none => cases best <;> exact hb
  | some d =>
    have early := ho i d hc hi
    cases best with
    | none =>
      rintro x ⟨⟩
      exact early
    | some y =>
      intro x hx
      unfold laterOf at hx
      dsimp only [Option.map_some] at hx
      split at hx
      · cases hx
        exact early
      · cases hx
        exact hb y rfl

/-- The call that was reserved last of those that preemption may clear is found. -/
theorem victim_of_chosen (h : ChosenVictim s v c) : victim s = some (v, c) := by
  obtain ⟨hc, hp, later⟩ := h
  have hv : candidate s v = some c := (candidate_iff s v c).mpr ⟨hc, hp⟩
  have ho : ∀ j, ∀ d ∈ candidate s j, j ≠ v → d.order < c.order := fun j d hd hj => by
    obtain ⟨call, pre⟩ := (candidate_iff s j d).mp hd
    exact later j d call pre hj
  have search (xs : List SlotId) (best : Option (SlotId × Call))
      (hb : best = some (v, c) ∨ ((∀ x ∈ best, x.2.order < c.order) ∧ v ∈ xs)) :
      xs.foldl (fun best i => laterOf best ((candidate s i).map fun c => (i, c))) best = some (v, c) := by
    induction xs generalizing best with
    | nil => exact hb.resolve_right fun x => List.not_mem_nil x.2
    | cons i xs ih =>
      rw [List.foldl_cons]
      refine ih _ ?_
      rcases hb with found | ⟨early, mem⟩
      · exact .inl (laterOf_chosen (.inl found) hv ho)
      · by_cases hi : i = v
        · exact .inl (laterOf_chosen (.inr ⟨early, hi⟩) hv ho)
        · exact .inr ⟨laterOf_early early hi ho, (List.mem_cons.mp mem).resolve_left fun x => hi x.symm⟩
  exact search allSlots none (.inr ⟨fun x hx => (nomatch hx), List.mem_finRange v⟩)
end

/-! ## A call given up, whether or not its SEIZE was sent (Table 8.6) -/

section
variable {i : SlotId} {o : ClearOwed} {s : State} {c : Call}

/-- What a slot in a call comes to on its way out of it, said field by field. -/
theorem clearing_eq (i : SlotId) (p : Port) (n : Nat) (side : ClearSide) (b : Bool) (s : State) : clearing i p n side b s = { s with
    slots := s.slots.put i (.clearing p n side b), sig := s.sig.put i { s.sig.at i with timer := none } } := rfl

theorem releaseOwing_clearing (o : ClearOwed) (hc : (s.slots.at i).call? = some c) :
    releaseOwing i o s = supersede i o (clearing i c.line c.tag o.side (s.slots.at i).blockPending s) := by
  unfold releaseOwing
  rw [hc]
  rfl

theorem clearing_unsent {p : Port} {n : Nat} {side : ClearSide} {b : Bool} : UnsentSeize (clearing i p n side b s) i ↔ UnsentSeize s i := by
  have sig : (clearing i p n side b s).sig.at i = { s.sig.at i with timer := none } := Table.at_put_same _ _ _
  have entry : queuedEntry (clearing i p n side b s) i = queuedEntry s i := rfl
  unfold UnsentSeize
  rw [sig, entry]

/-- A slot that owes a clear item goes to CLEARING where its SEIZE is not waiting unsent. -/
theorem releaseOwing_sent (o : ClearOwed) (hc : (s.slots.at i).call? = some c) (hu : ¬ UnsentSeize s i) : releaseOwing i o s = { s with
    slots := s.slots.put i (.clearing c.line c.tag o.side (s.slots.at i).blockPending)
    sig := s.sig.put i { s.sig.at i with timer := none, owed := owedWith i o s }, txq := txqWith i c.line c.tag o s } := by
  rw [releaseOwing_clearing o hc]
  generalize (s.slots.at i).blockPending = b
  have sig : (clearing i c.line c.tag o.side b s).sig.at i = { s.sig.at i with timer := none } := Table.at_put_same _ _ _
  have party : ((clearing i c.line c.tag o.side b s).slots.at i).party? = some (c.line, c.tag) := party_of_clearing (Table.at_put_same _ _ _)
  have owed : owedWith i o (clearing i c.line c.tag o.side b s) = owedWith i o s := by
    unfold owedWith
    rw [sig]
    rfl
  have table : (clearing i c.line c.tag o.side b s).sig = s.sig.put i { s.sig.at i with timer := none } := rfl
  rw [supersede_eq o (fun x => hu (clearing_unsent.mp x)) party, owed, sig, table, put_put]
  rfl

theorem superseded_of_sent {p : Port} {n : Nat} {b : Bool} {t : State} (hu : ¬ UnsentSeize s i)
    (hs : t.slots.at i = .clearing p n o.side b) (hg : t.sig.at i = { s.sig.at i with timer := none, owed := owedWith i o s })
    (hq : t.txq = txqWith i p n o s) (hi : t.inFlight = s.inFlight) (hf : t.free = s.free) : Superseded i p n b o s t := by
  refine ⟨by rw [hg], hi, fun x => absurd x hu, fun _ => ⟨hs, hf, ?_⟩⟩
  rw [hg, hq]
  unfold owedWith txqWith
  split
  · exact ⟨rfl, rfl⟩
  · split <;> exact ⟨rfl, rfl⟩

theorem removeEntries_eq (h : flightSlot s ≠ some i) :
    removeEntries i s = { s with txq := s.txq.filter fun e => decide (e.slot? ≠ some i) } := by
  unfold removeEntries
  rw [if_neg h]

/-- A slot whose SEIZE was never sent is released locally. -/
theorem releaseOwing_unsent (o : ClearOwed) (hc : (s.slots.at i).call? = some c) (hu : UnsentSeize s i) (he : OneEntryEach s) :
    releaseOwing i o s = { s with
      slots := s.slots.put i (released (s.slots.at i).blockPending), sig := s.sig.put i Sig.cleared
      free := if (s.slots.at i).blockPending = true then s.free else s.free ++ [i]
      mark := if s.mark = some i then none else s.mark
      txq := s.txq.filter fun e => decide (e.slot? ≠ some i) } := by
  obtain ⟨e, hq, -⟩ := hu.queued
  have apart : flightSlot s ≠ some i := flightSlot_ne he (by rw [hq]; rfl)
  rw [releaseOwing_clearing o hc, supersede_unsent i o (clearing_unsent.mpr hu), removeEntries_eq (by exact apart), clearing_eq]
  generalize (s.slots.at i).blockPending = b
  have slot : (s.slots.put i (.clearing c.line c.tag o.side b)).at i = .clearing c.line c.tag o.side b := Table.at_put_same _ _ _
  have pending : ((s.slots.put i (.clearing c.line c.tag o.side b)).at i).blockPending = b := congrArg Slot.blockPending slot
  rw [freeSlot_eq (by exact (congrArg Slot.inUse slot).trans rfl)]
  dsimp only
  rw [pending, put_put, put_put]
end

/-! ## The ring queue scanned (R110) -/

section
variable (z s : State) (y : PortSide)

theorem scanOne_rest (p : Port) : z.ringAs (scanOne p s) = z.ringAs s := by
  unfold scanOne
  split
  · exact placeIn_rest p z _ _
  · rfl

theorem scanRing_rest : z.ringAs (scanRing s) = z.ringAs s := by
  unfold scanRing
  generalize s.ringQueue = ps
  induction ps generalizing s with
  | nil => rfl
  | cons p ps ih => exact (ih (scanOne p s)).trans (scanOne_rest z s p)

/-- What a scan of the ring queue may write. -/
theorem scanRing_frame : scanRing s = (scanRing s).ringAs s := scanRing_rest (scanRing s) s

theorem scanOne_withPort (p : Port) : scanOne p (s.withPort y) = (scanOne p s).withPort y := by
  have room : roomFor (s.withPort y) p = roomFor s p := rfl
  unfold scanOne
  rw [room]
  split
  · exact placeIn_withPort p (setRingQueue (s.ringQueue.erase p) s) _ y
  · rfl

theorem scanRing_withPort : scanRing (s.withPort y) = (scanRing s).withPort y :=
  inTurn_withPort (fun p s y => scanOne_withPort s y p) s.ringQueue s y
end

/-! ## A preemption followed through (R97 to R99) -/

/-- What a preempted line goes to. -/
def preemptedState (s : State) (p : Port) : LineState := if (s.lines.at p).state.called then .idle else .parked

/-- The part with a victim preempted, the reports apart. -/
def preempted (v : SlotId) (p : Port) (s : State) : State :=
  let t := lineEnds p (preemptedState s p) (releaseOwing v (.clear .preempted) (setMark (some v) s))
  if isPlaced s p then scanRing t else t

section
variable {s u t : State} {rs : List Report} {n : Nat} {v : SlotId} {p : Port}

theorem preemptedState_endsCall (s : State) (p : Port) : (preemptedState s p).endsCall = true := by
  unfold preemptedState
  split <;> rfl

theorem releaseOwing_lineSide (i : SlotId) (o : ClearOwed) (s : State) : (releaseOwing i o s).lines = s.lines ∧ (releaseOwing i o s).bus = s.bus
    ∧ (releaseOwing i o s).groups = s.groups ∧ (releaseOwing i o s).waitQueue = s.waitQueue :=
  ⟨(congrArg State.lines (releaseOwing_frame i s o) :), (congrArg State.bus (releaseOwing_frame i s o) :),
    (congrArg State.groups (releaseOwing_frame i s o) :), (congrArg State.waitQueue (releaseOwing_frame i s o) :)⟩

theorem Comes.preempts (h : Comes s rs u t) (v : SlotId) (p : Port)
    (hg : preemptedState u p = .idle → (u.groups.at (groupOf p)).state ≠ .standbyPending) (hr : Room n s)
    (hn : rs.length + (endReports u p (preemptedState u p) .preempted).length ≤ n) :
    Comes s (rs ++ endReports u p (preemptedState u p) .preempted) (preempted v p u) (preempt v p t) := by
  have lines : t.lines = u.lines := (congrArg State.lines h.port :)
  have cells : t.cells = u.cells := (congrArg State.cells h.port :)
  have placed : isPlaced t p = isPlaced u p := by
    unfold isPlaced allPlaced
    rw [cells]
  obtain ⟨-, bus, groups, -⟩ := releaseOwing_lineSide v (.clear .preempted) (setMark (some v) u)
  have reports : endReports (releaseOwing v (.clear .preempted) (setMark (some v) u)) p (preemptedState u p) .preempted
      = endReports u p (preemptedState u p) .preempted := by
    unfold endReports
    rw [bus]
    rfl
  have told := ((h.map (setMark (some v)) fun _ _ => rfl).map (releaseOwing v (.clear .preempted)) fun x y => releaseOwing_withPort v x y _).enterBare p
    (st := preemptedState u p) .preempted (preemptedState_endsCall u p) (by rw [groups]; exact hg) hr (by rw [reports]; exact hn)
  rw [reports] at told
  unfold preempt preempted
  dsimp only
  rw [placed, lines]
  split
  · exact told.map scanRing fun x y => scanRing_withPort x y
  · exact told

theorem scanRing_exists (s : State) : ∃ cells next queue, scanRing s = { s with cells := cells, nextPlacement := next, ringQueue := queue } :=
  ⟨_, _, _, scanRing_frame s⟩

/-- A preempted line leaves its record, the bus and the wait queue as the end of its call does, and the slot with its records as the slot
given up leaves them. -/
theorem preempted_eq {slots : Table 20 Slot} {sig : Table 20 Sig} {free : List SlotId} {mark : Option SlotId} {txq : List Entry}
    (hq : (s.lines.at p).state ≠ .queued) (hr : releaseOwing v (.clear .preempted) (setMark (some v) s) = { s with
      slots := slots, sig := sig, free := free, mark := mark, txq := txq }) :
    ∃ scan cells next queue drive, preempted v p s = { s with
      lines := s.lines.put p (lineEnded s p (preemptedState s p)), bus := busEnded s p, buffers := s.buffers.put p DigitBuffer.empty
      slots := slots, sig := sig, free := free, mark := mark, txq := txq
      scan := scan, cells := cells, nextPlacement := next, ringQueue := queue, ringDrive := drive } := by
  unfold preempted
  dsimp only
  rw [hr, lineEnds_eq p _ (preemptedState_endsCall s p)]
  dsimp only
  rw [if_neg hq]
  split
  · obtain ⟨cells, next, queue, scanned⟩ := scanRing_exists _
    exact ⟨_, cells, next, queue, _, scanned⟩
  · exact ⟨_, _, _, _, _, rfl⟩

/-- A round with no FREE slot whose head is a PRIORITY line preempts the victim. -/
theorem attemptRound_preempts {c : Call} {q : Port} (hw : s.waitQueue = [q]) (hp : isPriority s q = true) (hf : s.free = [])
    (hm : s.mode = .normal) (hl : s.link.inService = true) (hpar : s.params.preempt = true) (hk : s.mark = none) (hv : ChosenVictim s v c) :
    attemptRound s = (preempt v c.line s, true) := by
  have may : mayPreempt s = true := by
    unfold mayPreempt
    rw [hpar, hw, List.head?_cons, hm, hl, hf, hk]
    dsimp only
    rw [hp]
    rfl
  unfold attemptRound
  rw [admitHeads_of_full _ hf]
  dsimp only
  rw [may, if_pos rfl, victim_of_chosen hv]

end

/-! ## An off-hook of a PRIORITY line with no slot FREE -/

/-- The part with an off-hook taken on an IDLE line that waits alone. -/
def queuedAlone (s : State) (p : Port) : State := { s with
  lines := s.lines.put p (queuedLine s p), scan := s.scan.put p (scanOffHook s p .queued), hookPin := s.hookPin.put p true, waitQueue := [p] }

section
variable {s v₁ : State} {p : Port} {v : SlotId} {c : Call} {rs : List Report}

theorem queuing_alone (hst : (s.lines.at p).state = .idle) (hq : s.waitQueue = []) : queuing p s = queuedAlone s p := by
  rw [queuing_eq hst, hq, joinByClass_nil]
  rfl

theorem queuedAlone_line : (queuedAlone s p).lines.at p = queuedLine s p := Table.at_put_same _ _ _

theorem queuedAlone_other {q : Port} (h : q ≠ p) : (queuedAlone s p).lines.at q = s.lines.at q := Table.at_put_other _ _ h

/-- An IDLE line and a QUEUED one are alike to preemption. -/
theorem preemptible_queuedAlone (hst : (s.lines.at p).state = .idle) (d : Call) : Preemptible (queuedAlone s p) d ↔ Preemptible s d := by
  have ports : isOrdinary (queuedAlone s p) d.line = isOrdinary s d.line := rfl
  unfold Preemptible
  rw [ports]
  refine and_congr_right fun _ => ?_
  by_cases h : d.line = p
  · rw [h, queuedAlone_line, hst]
    simp [queuedLine, LineState.called]
  · rw [queuedAlone_other h]

theorem chosenVictim_queuedAlone (hst : (s.lines.at p).state = .idle) (h : ChosenVictim s v c) : ChosenVictim (queuedAlone s p) v c := by
  obtain ⟨hc, hp, later⟩ := h
  exact ⟨hc, (preemptible_queuedAlone hst c).mpr hp, fun j d hd hpd hj => later j d hd ((preemptible_queuedAlone hst d).mp hpd) hj⟩

theorem Comes.chosenVictim {u t : State} (h : Comes s rs u t) (hv : ChosenVictim u v c) : ChosenVictim t v c := by
  have slots : t.slots = u.slots := (congrArg State.slots h.port :)
  have ports : t.ports = u.ports := (congrArg State.ports h.port :)
  have lines : t.lines = u.lines := (congrArg State.lines h.port :)
  unfold ChosenVictim Preemptible isOrdinary at *
  rw [slots, ports, lines]
  exact hv

theorem victim_line_ne (hp : isPriority s p = true) (h : ChosenVictim s v c) : c.line ≠ p := fun x => by
  have priority := priority_ordinary s c.line h.2.1.1
  rw [x, hp] at priority
  cases priority

/-- The first round of the attempt preempts. -/
theorem attemptRound_of_alone (h : Comes s rs (queuedAlone s p) v₁) (hst : (s.lines.at p).state = .idle) (hm : s.mode = .normal)
    (hp : isPriority s p = true) (hf : s.free = []) (hl : s.link.inService = true) (hpar : s.params.preempt = true) (hk : s.mark = none)
    (hv : ChosenVictim s v c) : attemptRound v₁ = (preempt v c.line v₁, true) := by
  have ports : v₁.ports = s.ports := (congrArg State.ports h.port :)
  refine attemptRound_preempts (q := p) (congrArg State.waitQueue h.port :) ?_ ((congrArg State.free h.port :).trans hf)
    ((congrArg State.mode h.port :).trans hm) ((congrArg (fun x : State => x.link.inService) h.port :).trans hl)
    ((congrArg (fun x : State => x.params.preempt) h.port :).trans hpar) ((congrArg State.mark h.port :).trans hk)
    (h.chosenVictim (chosenVictim_queuedAlone hst hv))
  unfold isPriority at hp ⊢
  rw [ports]
  exact hp

/-- The line of an off-hook preempts, and the next round is the last: what comes of it. -/
theorem Answers.of_preempted {n : Nat} {rs : List Report} {w : State} {P : State → Prop} (hrun : Running s)
    (hl : hasLine s p = true) (hh : hookSampled s p = true) (hst : (s.lines.at p).state = .idle) (hm : s.mode = .normal) (hq : s.waitQueue = [])
    (hp : isPriority s p = true) (hf : s.free = []) (hlink : s.link.inService = true) (hpar : s.params.preempt = true) (hk : s.mark = none)
    (hv : ChosenVictim s v c) (hg : preemptedState s c.line = .idle → groupState s c.line ≠ .standbyPending) (hroom : Room n s) (hn : 3 ≤ n)
    (hround : ∀ t, Comes s (.callEvent p .queued (.because .normal) :: endReports s c.line (preemptedState s c.line) .preempted)
      (preempted v c.line (queuedAlone s p)) t → ∃ t', attemptRound t = (t', false) ∧ Comes s rs w t')
    (hwm : w.mode = s.mode) (hP : ∀ y, Made s ((attemptEnd w).withPort y) rs → P ((attemptEnd w).withPort y)) : Answers (.offHook p) s P := by
  have other := victim_line_ne hp hv
  have told := Comes.queues p hroom (by omega)
  rw [queuing_alone hst hq] at told
  have state : preemptedState (queuedAlone s p) c.line = preemptedState s c.line := by
    unfold preemptedState
    rw [queuedAlone_other other]
  have reports : endReports (queuedAlone s p) c.line (preemptedState s c.line) .preempted
      = endReports s c.line (preemptedState s c.line) .preempted := rfl
  have told' := told.preempts v c.line (by rw [state]; exact hg) hroom (by
    rw [state, reports]
    have := endReports_length s c.line (preemptedState s c.line) .preempted
    simp only [List.length_cons, List.length_nil]
    omega)
  rw [state, reports] at told'
  obtain ⟨t', last, comes⟩ := hround _ told'
  exact .of_attempt (p := p) hrun rfl (offHook_queues hl hh hst hm) told rfl rfl (List.mem_singleton_self p) (by rw [hq]; exact List.not_mem_nil)
    (attempt_of_rounds (attemptRound_of_alone told hst hm hp hf hlink hpar hk hv) last) comes (by rw [hwm, hm]; decide) hP

end

section
variable {s : State} {p : Port} {v : SlotId} {c : Call}

/-- The preempted line's record, bus and state are those of the part before the off-hook. -/
theorem preempted_alone {slots : Table 20 Slot} {sig : Table 20 Sig} {free : List SlotId} {mark : Option SlotId} {txq : List Entry}
    (ho : c.line ≠ p) (hq : (s.lines.at c.line).state ≠ .queued)
    (hr : releaseOwing v (.clear .preempted) (setMark (some v) (queuedAlone s p)) = { queuedAlone s p with
      slots := slots, sig := sig, free := free, mark := mark, txq := txq }) :
    ∃ scan cells next queue drive, preempted v c.line (queuedAlone s p) = { queuedAlone s p with
      lines := (s.lines.put p (queuedLine s p)).put c.line (lineEnded s c.line (preemptedState s c.line)), bus := busEnded s c.line
      buffers := s.buffers.put c.line DigitBuffer.empty, slots := slots, sig := sig, free := free, mark := mark, txq := txq
      scan := scan, cells := cells, nextPlacement := next, ringQueue := queue, ringDrive := drive } := by
  have line := queuedAlone_other (s := s) ho
  have state : preemptedState (queuedAlone s p) c.line = preemptedState s c.line := by
    unfold preemptedState
    rw [line]
  have ended : lineEnded (queuedAlone s p) c.line (preemptedState s c.line) = lineEnded s c.line (preemptedState s c.line) := by
    unfold lineEnded
    rw [line]
    rfl
  obtain ⟨scan, cells, next, queue, drive, eq⟩ := preempted_eq (p := c.line) (by rw [line]; exact hq) hr
  rw [state, ended] at eq
  exact ⟨scan, cells, next, queue, drive, eq⟩

theorem canAdmit_of_priority (hm : s.mode = .normal) (hp : isPriority s p = true) (hl : s.link.inService = true) : canAdmit s p = true := by
  unfold canAdmit
  rw [hm, if_pos hp, hl]
  rfl

theorem not_queued_of_preemptible (h : Preemptible s c) : (s.lines.at c.line).state ≠ .queued := fun x => by
  have pre := h.2
  rw [x] at pre
  rcases pre with y | y | y
  · exact nomatch y
  · exact nomatch y
  · exact nomatch y.1

end

/-- Settles O15: the line waits, parks, is admitted, or preempts, and then waits still or is admitted. -/
theorem offHookOnAnIdleLine : Obligations.OffHookOnAnIdleLine := by
  refine ⟨fun p s hrun hl hh hst hm hf hpre he hroom => ?_, fun p s hrun hl hh hst hm hb he hroom => ?_,
    fun p i rest s hrun hl hh hst hm hw hf hi hc _ hn he hroom => ?_,
    fun p v c s hrun hl hh hst hm hp hw hf hlink hpar hk hv hu hg he hroom => ?_,
    fun p v c s hrun hl hh hst hm hp hw hf hlink hpar hk hv hs hu hone hsz _ hn he hroom => ?_,
    fun p i rest s hrun hl hh hst hm hw hf hi hc hn ho he hroom => ?_⟩
  · have told := Comes.queues p hroom (by decide)
    rw [queuing_eq hst] at told
    refine .of_event hrun rfl (offHook_queues hl hh hst hm) told (fun y z => ?_) fun y made =>
      ⟨Table.at_put_same _ _ _, rfl, ?_, made, fun q hq => Table.at_put_other _ _ hq, fun q hq => Table.at_put_other _ _ hq,
        fun q hq => Table.at_put_other _ _ hq, rfl⟩
    · refine finish_of_attempt (roomGained_of_same rfl rfl) (attempt_of_full hf ?_) (.of_same rfl rfl rfl he)
      exact hpre.imp_right (Or.imp_right (noneToPreempt_of_queued (s := s) (p := p) rfl rfl (fun q hq => Table.at_put_other _ _ hq)
        (congrArg Line.state (Table.at_put_same _ _ _))))
    · exact (congrArg Scanner.hook (Table.at_put_same _ _ _) :).trans (scanOffHook_hook rfl)
  · have one : endReports s p .parked .config = [.callEvent p .parked (.because .config)] := if_neg hb
    have told := ((Comes.served s).map (offHookSample p) fun _ _ => rfl).enterBare p (st := .parked) .config rfl (fun x => nomatch x) hroom
      (by rw [List.length_nil, Nat.zero_add]; exact Nat.le_of_eq (congrArg List.length one))
    rw [lineEnds_of_bare (old := .idle) (by exact hst) rfl (by decide) (by exact hb) rfl, offHookSample_eq] at told
    dsimp only at told
    rw [put_put] at told
    refine .of_event hrun rfl (offHook_parks hl hh hst hm) (told.reports_eq one) (.of_same rfl he) fun y made =>
      ⟨Table.at_put_same _ _ _, ?_, Table.at_put_same _ _ _, made, fun q hq => Table.at_put_other _ _ hq, fun q hq => Table.at_put_other _ _ hq,
        fun q hq => Table.at_put_other _ _ hq, fun q hq => Table.at_put_other _ _ hq, rfl⟩
    refine (congrArg Scanner.hook (Table.at_put_same _ _ _) :).trans ?_
    rw [Table.at_put_same]
    exact scanOffHook_hook rfl
  · obtain ⟨first, low, high⟩ := reservedTag s
    have party := reserve_party (p := p) (i := i) hn
    have done := admitted_queuing (i := i) hst hw party
    rw [reserve_eq i p .out s hn] at done
    dsimp only at done
    refine .of_admitted hrun hl hh hst hm hw hf party hc hroom fun y w hw' made => ?_
    rw [done, attemptEnd_of_finished (by exact he.of_reserved hi rfl hm rfl rfl)] at hw'
    subst hw'
    refine ⟨Table.at_put_same _ _ _, ⟨freshTag s, first, low, high, rfl, Table.at_put_same _ _ _, queueWith_congr rfl rfl _ _⟩, ?_, rfl,
      Table.at_put_same _ _ _, ?_, made, fun q hq => Table.at_put_other _ _ hq, fun q hq => Table.at_put_other _ _ hq,
      fun q hq => Table.at_put_other _ _ hq, fun q hq => Table.at_put_other _ _ hq, fun q hq => Table.at_put_other _ _ hq, ?_⟩
    · exact (congrArg (List.erase · i) hf :).trans (List.erase_cons_head ..)
    · exact (congrArg Scanner.hook (Table.at_put_same _ _ _) :).trans ((Scanner.lineMoved_hook ..).trans (scanOffHook_hook rfl))
    · rw [← hw]
      rfl
  · have other := victim_line_ne hp hv
    have given := releaseOwing_sent (s := setMark (some v) (queuedAlone s p)) (.clear .preempted) (by exact hv.1) (by exact hu)
    obtain ⟨scan, cells, next, queue, drive, eq⟩ := preempted_alone (v := v) other (not_queued_of_preemptible hv.2.1)
      (free := s.free) (mark := some v) given
    refine .of_preempted (w := preempted v c.line (queuedAlone s p)) hrun hl hh hst hm hw hp hf hlink hpar hk hv (fun _ => hg) hroom
      (Nat.le_refl 3) (fun t ht => ⟨t, attemptRound_of_marked ?_ ?_, ht⟩) (by rw [eq]; rfl) fun y made => ?_
    · rw [eq] at ht
      exact (congrArg State.free ht.port :).trans hf
    · rw [eq] at ht
      exact (congrArg State.mark ht.port :).symm ▸ Option.some_ne_none v
    · rw [eq] at made ⊢
      refine ⟨?_, rfl, rfl, Table.at_put_same _ _ _, rfl, superseded_of_sent hu (Table.at_put_same _ _ _) (Table.at_put_same _ _ _) rfl rfl rfl,
        made, fun q hqp hqc => ?_, fun j hj => Table.at_put_other _ _ hj, fun j hj => Table.at_put_other _ _ hj⟩
      · exact congrArg Line.state ((Table.at_put_other _ _ other.symm).trans (Table.at_put_same _ _ _))
      · exact (Table.at_put_other _ _ hqc).trans (Table.at_put_other _ _ hqp)
  · have other := victim_line_ne hp hv
    have given := releaseOwing_unsent (s := setMark (some v) (queuedAlone s p)) (.clear .preempted) (by exact hv.1) (by exact hu) (by exact hone)
    have parks : preemptedState s c.line = .parked := by
      unfold preemptedState
      rw [hsz]
      rfl
    have reserves : (setMark (some v) (queuedAlone s p)).slots.at v = .reserved c false := hs
    rw [reserves] at given
    obtain ⟨scan, cells, next, queue, drive, eq⟩ := preempted_alone (v := v) (sig := s.sig.put v Sig.cleared) (free := s.free ++ [v])
      (mark := none) other (not_queued_of_preemptible hv.2.1) (given.trans (by rw [show (setMark (some v) (queuedAlone s p)).mark = some v from rfl, if_pos rfl]; rfl))
    · rw [parks, hf, List.nil_append] at eq
      generalize hW : preempted v c.line (queuedAlone s p) = W at eq
      have party := reserve_party (s := W) (p := p) (i := v) (by rw [eq]; exact hn)
      have queued : (W.lines.at p).state = .queued := by
        rw [eq]
        exact congrArg Line.state ((Table.at_put_other _ _ other.symm).trans (Table.at_put_same _ _ _))
      have done := admitted_eq (s := W) (p := p) (i := v) queued party
      rw [reserve_eq v p .out W (by rw [eq]; exact hn)] at done
      refine .of_preempted (w := admitted p v W) hrun hl hh hst hm hw hp hf hlink hpar hk hv (fun x => nomatch parks.symm.trans x) hroom
        (by decide) (rs := .callEvent p .queued (.because .normal) :: endReports s c.line .parked .preempted
          ++ [.callEvent p .seizing (.because .normal)]) (fun t ht => ?_) ((congrArg State.mode done :).trans (congrArg State.mode eq :)) fun y made => ?_
      · rw [hW, parks] at ht
        have told := ht.admitsHead p v hroom (by
          have := endReports_length s c.line .parked .preempted
          simp only [List.length_cons]
          omega)
        refine ⟨admitLine p v t, attemptRound_admits (rest := []) ?_ ?_ ((ht.canAdmit_eq p).trans ?_) (told.waitQueue_eq.trans ?_), told⟩
        · exact ht.waitQueue_eq.trans (congrArg State.waitQueue eq :)
        · exact (congrArg State.free ht.port :).trans (congrArg State.free eq :)
        · have ports : W.ports = s.ports := (congrArg State.ports eq :)
          refine canAdmit_of_priority ((congrArg State.mode eq :).trans hm) ?_ ((congrArg (fun x : State => x.link.inService) eq :).trans hlink)
          unfold isPriority at hp ⊢
          rw [ports]
          exact hp
        · rw [done, eq]
          exact List.erase_cons_head ..
      · rw [done] at made ⊢
        obtain ⟨low, high⟩ := freshTag_range W
        have unheld (j : SlotId) (hj : j ≠ v) : (s.slots.at j).tag? ≠ some (freshTag W) := fun x => freshTag_free W j (by
          have same : W.slots.at j = s.slots.at j := by
            rw [eq]
            exact Table.at_put_other _ _ hj
          rw [same]
          exact x)
        have priority : isPriority W p = true := by
          rw [eq]
          exact hp
        rw [priority, newCall] at made ⊢
        generalize freshTag W = tag at *
        subst eq
        refine ⟨congrArg Line.state (Table.at_put_same _ _ _), congrArg Line.call (Table.at_put_same _ _ _), List.erase_cons_head .., rfl,
          List.erase_cons_head .., (Table.at_put_other _ _ other).trans (Table.at_put_same _ _ _), rfl,
          ⟨tag, unheld, low, high, Table.at_put_same _ _ _, queueWith_congr rfl rfl _ _⟩, made, fun q hqp hqc => ?_, fun j hj => ?_, fun j hj => ?_⟩
        · exact (Table.at_put_other _ _ hqp).trans ((Table.at_put_other _ _ hqc).trans (Table.at_put_other _ _ hqp))
        · exact (Table.at_put_other _ _ hj).trans (Table.at_put_other _ _ hj)
        · exact (Table.at_put_other _ _ hj).trans (Table.at_put_other _ _ hj)
  · obtain ⟨mine, others, order⟩ := reserve_renumbers (p := p) hi hn ho
    have party : ((reserve i p .out s).slots.at i).party? = some (p, freshTag s) := congrArg Slot.party? mine
    refine .of_admitted hrun hl hh hst hm hw hf party hc hroom fun y w hw' made => ?_
    rw [admitted_queuing (i := i) hst hw party] at hw'
    subst hw'
    exact ⟨congrArg Line.state (Table.at_put_same _ _ _), (congrArg (fun sl : Slot => sl.call?.map (·.order)) mine :), others, order⟩

end Sys2Proof.Machine
end

