-- ==== Sys2Proof/Proofs/Claims.lean ====
section
/-! PROOF. The claims of the test bus that are granted (O53). -/

namespace Sys2Proof.Machine

/-! ## The end of an event with nobody waiting for a slot -/

theorem scanRing_mode (s : State) : (scanRing s).mode = s.mode := (congrArg State.mode (scanRing_frame s) :)

theorem scanRing_waitQueue (s : State) : (scanRing s).waitQueue = s.waitQueue := (congrArg State.waitQueue (scanRing_frame s) :)

/-- The part after its ring queue is scanned where a cell has gained room, and the holdover timer is stopped. -/
def rescanned (s u : State) : State := attemptEnd (if roomGained s u then scanRing u else u)

theorem attemptEnd_withPort (s : State) (z : PortSide) : attemptEnd (s.withPort z) = (attemptEnd s).withPort z := rfl

theorem stopHoldover_eq (s : State) : stopHoldover s = attemptEnd s := by
  unfold stopHoldover attemptEnd
  cases anyHeld s <;> rfl

theorem rescanned_exists (s u : State) : ∃ cells next queue hold, rescanned s u = { u with
    cells := cells, nextPlacement := next, ringQueue := queue, holdover := hold } := by
  unfold rescanned
  split
  · obtain ⟨cells, next, queue, eq⟩ := scanRing_exists u
    rw [eq]
    exact ⟨_, _, _, _, rfl⟩
  · exact ⟨_, _, _, _, rfl⟩

theorem finish_rescans {s u : State} (hq : u.waitQueue = []) (hm : u.mode ≠ .configPending) (y z : PortSide) :
    finish (s.withPort y) (u.withPort z) = (rescanned s u).withPort z := by
  have gained : roomGained (s.withPort y) (u.withPort z) = roomGained s u := rfl
  have scanned : (if roomGained s u = true then scanRing (u.withPort z) else u.withPort z)
      = (if roomGained s u = true then scanRing u else u).withPort z := by
    rw [scanRing_withPort]
    split <;> rfl
  unfold rescanned finish
  rw [gained, scanned]
  have nobody : (if roomGained s u = true then scanRing u else u).waitQueue = [] := by
    split
    · exact (scanRing_waitQueue u).trans hq
    · exact hq
  have mode : (if roomGained s u = true then scanRing u else u).mode ≠ .configPending := by
    split
    · rw [scanRing_mode]
      exact hm
    · exact hm
  generalize (if roomGained s u = true then scanRing u else u) = v at nobody mode ⊢
  dsimp only
  rw [attempt_of_nobody (s := v.withPort z) nobody, ite_self, stopHoldover_eq]
  exact if_neg fun x => mode x.1

/-- A request whose effect is an event, followed to the event's end. -/
theorem Answers.answeredEnd {c : Instr} {num kind : Byte} {body : List Byte} {judge : State → ReplyOutcome} {s u v w : State}
    {rs : List Report} {P : State → Prop} {f : State → State} (hx : exec c s = .next (takeRequest ⟨num, kind, body⟩ judge (act f) s))
    (ht : Takes num kind body s) (hj : ∀ y, judge (s.withPort y) = .done) (hf : f (taken num .done s) = v)
    (h : Comes (taken num .done s) rs u v) (hs : ∀ y z, finish (s.withPort y) (u.withPort z) = w.withPort z)
    (hp : ∀ y, Made s (w.withPort y) rs → Replied (w.withPort y) num .done → P (w.withPort y)) : Answers c s P := by
  have running : Running (taken num .done s) := (power_of_port (taken_port num .done s)).trans ht.1
  have ends : act f (taken num .done s) = w.withPort v.portSide := by
    rw [act_running running, serve_taken, hf, h.eq, eq_withPort (taken_port num .done s)]
    exact hs _ _
  exact .answered hx ht hj (fun _ => by simp) ends (u := w) ⟨rfl, h.made, h.room, h.reply⟩ hp

/-! ## Claims -/

theorem claimNamed_byte : ∀ (p : Port) (force : Bool), claimNamed force [byte p.val, flagCode force] = some p := by decide

theorem claim_judged {p : Port} {force : Bool} {s : State} (hl : hasLine s p = true) (hh : hookSampled s p = true)
    (hb : s.bus = .free ∨ s.bus = .claimed p) (y : PortSide) :
    doneUnless (claimRefusal force [byte p.val, flagCode force] (s.withPort y)) = .done := by
  have line : hasLine (s.withPort y) p = true := hl
  have hook : hookSampled (s.withPort y) p = true := hh
  have here : busElsewhere (s.withPort y) p = false := by
    have bus : (s.withPort y).bus = s.bus := rfl
    unfold busElsewhere
    rw [bus]
    rcases hb with hb | hb <;> rw [hb]
    exact decide_eq_false (not_not_intro rfl)
  unfold claimRefusal
  rw [claimNamed_byte]
  dsimp only
  rw [line, hook, here]
  rfl

section
variable {s : State} {p : Port}

/-- The relay and the feed of a line that the bus is HELD for. -/
theorem feed_of_test (hl : hasLine s p = true) (ht : (s.lines.at p).state = .test) : feed s p = (.off, .none) := by
  unfold hasLine at hl
  unfold feed
  split
  · rfl
  · cases hr : s.ports.at p with
    | unequipped => rfl
    | monitor => rw [hr] at hl; exact nomatch hl
    | _ => simp [ht]

/-- The part with a line taken into TEST. -/
def tested (p : Port) (s : State) : State := setBus (.held p) (moveLine p .test none none s)

theorem tested_eq (hq : s.waitQueue = []) : tested p s = { s with
    lines := s.lines.put p ((s.lines.at p).moved .test none none)
    scan := s.scan.put p ((s.scan.at p).lineMoved (s.ports.at p) (s.lines.at p).state .test)
    buffers := s.buffers.put p DigitBuffer.empty, bus := .held p
    cells := if (s.lines.at p).state.called = true then (leaveRing p s).cells else s.cells
    ringQueue := if (s.lines.at p).state.called = true then s.ringQueue.erase p else s.ringQueue
    ringDrive := if (s.lines.at p).state.called = true then s.ringDrive.put p false else s.ringDrive } := by
  have stays : (if (s.lines.at p).state = .queued then s.waitQueue.erase p else s.waitQueue) = s.waitQueue := by
    rw [hq]
    split <;> rfl
  unfold tested
  rw [moveLine_bare (by decide) (by decide) rfl, stays]
  rfl

theorem claimable_of_holdsSlot {st : LineState} (h : st.holdsSlot = true) : st.claimable = false := by
  cases st <;> first | rfl | exact nomatch h

end

theorem setClaim_byte (p : Port) (t : State) : setClaim [byte p.val, 0] t = claimWaiting p t := by
  have named : claimNamed false [byte p.val, 0] = some p := claimNamed_byte p false
  unfold setClaim
  rw [named]

theorem setForcedClaim_byte (p : Port) (t : State) : setForcedClaim [byte p.val, 1] t = claimForced p t := by
  have named : claimNamed true [byte p.val, 1] = some p := claimNamed_byte p true
  unfold setForcedClaim
  rw [named]

section
variable {s : State} {p : Port}

theorem claimWaiting_claimable (hb : s.bus = .free) (hc : (s.lines.at p).state.claimable = true) : claimWaiting p s = grantBus p .immediate s := by
  unfold claimWaiting
  rw [if_pos hb, if_pos hc]

theorem claimWaiting_inCall (hb : s.bus = .free) (hh : (s.lines.at p).state.holdsSlot = true) : claimWaiting p s = setBus (.claimed p) s := by
  have busy : ¬ (s.lines.at p).state.claimable = true := by
    rw [claimable_of_holdsSlot hh]
    decide
  unfold claimWaiting
  rw [if_pos hb, if_neg busy, if_pos hh]

theorem claimForced_claimable (hb : s.bus = .free) (hc : (s.lines.at p).state.claimable = true) : claimForced p s = grantBus p .immediate s :=
  if_pos ⟨hb, hc⟩

theorem claimForced_inCall (hb : s.bus = .free ∨ s.bus = .claimed p) (hh : (s.lines.at p).state.holdsSlot = true) :
    claimForced p s = forceTest p s := by
  have busy : ¬ (s.bus = .free ∧ (s.lines.at p).state.claimable = true) := fun x => by
    rw [claimable_of_holdsSlot hh] at x
    exact nomatch x.2
  unfold claimForced
  rw [if_neg busy, if_pos ⟨hb, hh⟩]

end

section
variable {s : State} {p : Port} {num : Byte}

theorem taken_line (num : Byte) (o : ReplyOutcome) (s : State) : (taken num o s).lines = s.lines ∧ (taken num o s).bus = s.bus :=
  ⟨(congrArg State.lines (taken_port num o s) :), (congrArg State.bus (taken_port num o s) :)⟩

/-- A grant at once, whichever form of claim asks for it. -/
theorem Answers.of_grant {c : Instr} {body : List Byte} {judge : State → ReplyOutcome} {f : State → State} {P : State → Prop}
    (hx : exec c s = .next (takeRequest ⟨num, 0x09, body⟩ judge (act f) s)) (ht : Takes num 0x09 body s)
    (hj : ∀ y, judge (s.withPort y) = .done) (hf : f (taken num .done s) = grantBus p .immediate (taken num .done s))
    (hst : (s.lines.at p).state = .idle) (he : EventsFinished s) (hroom : Room 2 s)
    (hP : ∀ y t, t = ({ s with
        lines := s.lines.put p ((s.lines.at p).moved .test none none)
        scan := s.scan.put p ((s.scan.at p).lineMoved (s.ports.at p) .idle .test)
        buffers := s.buffers.put p DigitBuffer.empty, bus := .held p } : State).withPort y →
      Made s t [.callEvent p .test (.because .maintenance), .testEvent p .immediate] → Replied t num .done → P t) :
    Answers c s P := by
  have told := (Comes.taken num .done s).grantBus p .immediate (taken_room num .done hroom) (Nat.le_refl 2)
  have queued : ¬ (s.lines.at p).state = .queued := by rw [hst]; decide
  have called : ¬ (s.lines.at p).state.called = true := by rw [hst]; decide
  rw [moveLine_bare (by decide) (by decide) rfl, if_neg queued, if_neg called, if_neg called, if_neg called, hst] at told
  exact .answeredEvent hx ht hj hf told (.of_same rfl he) fun y made reply => hP y _ rfl made reply

/-- A line in a call is taken out of it by force. -/
theorem forceTest_comes (hroom : Room 2 s) : Comes (taken num .done s) [.callEvent p .test (.because .maintenance), .testEvent p .forced]
    (tested p (releaseLine p .maintenance s)) (forceTest p (taken num .done s)) :=
  ((Comes.taken num .done s).map (releaseLine p .maintenance) fun x y => releaseLine_withPort x y p .maintenance).grantBus p .forced
    (taken_room num .done hroom) (Nat.le_refl 2)

/-- The end of a claim by force. -/
theorem Answers.of_force {P : State → Prop} {u : State} (ht : Takes num 0x09 [byte p.val, 1] s) (hl : hasLine s p = true)
    (hh : hookSampled s p = true) (hb : s.bus = .free ∨ s.bus = .claimed p) (hst : (s.lines.at p).state.holdsSlot = true)
    (hw : s.waitQueue = []) (hm : s.mode ≠ .configPending) (hroom : Room 2 s) (hu : tested p (releaseLine p .maintenance s) = u)
    (hP : ∀ y cells next queue hold t, t = ({ u with
        cells := cells, nextPlacement := next, ringQueue := queue, holdover := hold } : State).withPort y →
      Made s t [.callEvent p .test (.because .maintenance), .testEvent p .forced] → Replied t num .done → P t) :
    Answers (.testClaimForce num [byte p.val, 1]) s P := by
  obtain ⟨lines, bus⟩ := taken_line num .done s
  have frame := releaseLine_frame p .maintenance s
  have waiting : (releaseLine p .maintenance s).waitQueue = [] := (congrArg State.waitQueue frame :).trans hw
  have mode : (releaseLine p .maintenance s).mode = s.mode := (congrArg State.mode frame :)
  have told := forceTest_comes (p := p) (num := num) hroom
  rw [tested_eq waiting] at hu
  have nobody : u.waitQueue = [] := by rw [← hu]; exact waiting
  have still : u.mode ≠ .configPending := by rw [← hu]; exact fun x => hm (mode.symm.trans x)
  rw [tested_eq waiting, hu] at told
  obtain ⟨cells, next, queue, hold, eq⟩ := rescanned_exists s u
  refine .answeredEnd rfl ht (claim_judged (force := true) hl hh hb) ((setForcedClaim_byte p _).trans (claimForced_inCall (by rw [bus]; exact hb)
    (by rw [lines]; exact hst))) told (finish_rescans nobody still) fun y made reply => ?_
  rw [eq] at made reply ⊢
  exact hP y cells next queue hold _ rfl made reply

end

/-- Settles O53, by the form of the claim and by the line's state. -/
theorem testClaimsAreGranted : Obligations.TestClaimsAreGranted := by
  refine ⟨fun num p force s ht hl hh hb hst hcall he hroom => ?_, fun num p s ht hl hh hb hst he => ?_,
    fun num p i c d s ht hl hh hb hst hho hcall hc hcp hone hw hm he hroom => ?_,
    fun num p i c b d s ht hl hh hb hst hcall hs hw hm he hroom => ?_⟩
  · obtain ⟨lines, bus⟩ := taken_line num .done s
    have claimable : ((taken num .done s).lines.at p).state.claimable = true := by rw [lines, hst]; rfl
    have judge := claim_judged (force := force) hl hh (.inl hb)
    have granted (y : PortSide) (t : State) (eq : t = ({ s with
        lines := s.lines.put p ((s.lines.at p).moved .test none none)
        scan := s.scan.put p ((s.scan.at p).lineMoved (s.ports.at p) .idle .test)
        buffers := s.buffers.put p DigitBuffer.empty, bus := .held p } : State).withPort y) :
        t.bus = .held p ∧ relay t p = true ∧ (t.lines.at p).state = .test ∧ feed t p = (.off, .none)
          ∧ OnlyAt p s.lines t.lines ∧ OnlyAt p s.scan t.scan ∧ OnlyAt p s.buffers t.buffers
          ∧ t.apartFromPort = ({ s with bus := .held p, lines := t.lines, scan := t.scan, buffers := t.buffers } : State).apartFromPort := by
      subst eq
      have state : ((s.lines.put p ((s.lines.at p).moved .test none none)).at p).state = .test := congrArg Line.state (Table.at_put_same _ _ _)
      exact ⟨rfl, decide_eq_true rfl, state, feed_of_test (by exact hl) (by exact state), fun q hq => Table.at_put_other _ _ hq,
        fun q hq => Table.at_put_other _ _ hq, fun q hq => Table.at_put_other _ _ hq, rfl⟩
    cases force with
    | false =>
      refine .of_grant (p := p) rfl ht judge ((setClaim_byte p _).trans (claimWaiting_claimable (bus.trans hb) claimable)) hst he hroom
        fun y t eq made reply => ?_
      obtain ⟨held, relayed, state, fed, rest⟩ := granted y t eq
      exact ⟨reply, held, relayed, state, fed, made, rest⟩
    | true =>
      refine .of_grant (p := p) rfl ht judge ((setForcedClaim_byte p _).trans (claimForced_claimable (bus.trans hb) claimable)) hst he hroom
        fun y t eq made reply => ?_
      obtain ⟨held, relayed, state, fed, rest⟩ := granted y t eq
      exact ⟨reply, held, relayed, state, fed, made, rest⟩
  · obtain ⟨lines, bus⟩ := taken_line num .done s
    exact .answeredEvent rfl ht (claim_judged (force := false) hl hh (.inl hb))
      ((setClaim_byte p _).trans (claimWaiting_inCall (bus.trans hb) (by rw [lines]; exact hst)))
      ((Comes.taken num .done s).map (setBus (.claimed p)) fun _ _ => rfl)
      (.of_same rfl he) fun y made reply => ⟨reply, rfl, made, rfl⟩
  · subst hcp
    have released := releaseLine_of_call (r := .maintenance) hho hcall
    have given := releaseOwing_superseded i (.clear .maintenance) hc hone
    have only := releaseOwing_givenUp i s (.clear .maintenance)
    have frame := releaseOwing_frame i s (.clear .maintenance)
    rw [← released] at given only frame
    generalize hr : releaseLine c.line .maintenance s = r at given only frame
    have line : r.lines = s.lines := (congrArg State.lines frame :)
    have waiting : r.waitQueue = [] := (congrArg State.waitQueue frame :).trans hw
    refine .of_force ht hl hh hb hst hw hm hroom ((congrArg (tested c.line) hr).trans (tested_eq waiting)) fun y cells next queue hold t eq made reply => ?_
    rw [line] at eq
    subst eq
    exact ⟨reply, rfl, congrArg Line.state (Table.at_put_same _ _ _), congrArg Line.call (Table.at_put_same _ _ _), given, made,
      fun q hq => Table.at_put_other _ _ hq, fun j hj => only.slots j hj, fun j hj => only.sig j hj⟩
  · have freed := releaseLine_of_holdover (r := .maintenance) hst hcall
    rw [freeSlot_eq (by rw [hs]; rfl), hs] at freed
    have holds : (s.lines.at p).state.holdsSlot = true := by rw [hst]; rfl
    refine .of_force ht hl hh hb holds hw hm hroom ((congrArg (tested p) freed).trans (tested_eq (by exact hw))) fun y cells next queue hold t eq made reply => ?_
    subst eq
    exact ⟨reply, rfl, congrArg Line.state (Table.at_put_same _ _ _), congrArg Line.call (Table.at_put_same _ _ _), Table.at_put_same _ _ _, rfl, rfl,
      made, fun q hq => Table.at_put_other _ _ hq, fun j hj => Table.at_put_other _ _ hj, fun j hj => Table.at_put_other _ _ hj⟩

end Sys2Proof.Machine
end

