-- ==== Sys2Proof/Proofs/MapSets.lean ====
section
/-! PROOF. MAP_SET: what its body names, its refusals, and the remap of a port (O49). -/

namespace Sys2Proof.Machine

/-! ## What the body names (R11, R200) -/

theorem mapSetTarget_body {p : Port} {r : PortRole} (h : ∀ n ∈ r.number?, 1 ≤ n ∧ n ≤ 9999) :
    (mapSetFields (mapSetBody p r)).isNone = false ∧ mapSetTarget (mapSetBody p r) = some (p, r) := by
  have port : portOfNo p.val = some p := dif_pos p.isLt
  have octet : (byte p.val).toNat = p.val := byte_toNat (Nat.lt_trans p.isLt (by decide))
  cases r with
  | unequipped => simp [mapSetTarget, mapSetFields, mapSetBody, PortRole.code, mapSetRole, octet, port]
  | monitor => simp [mapSetTarget, mapSetFields, mapSetBody, PortRole.code, mapSetRole, octet, port]
  | hotline n =>
    obtain ⟨low, high⟩ := h n rfl
    have number : ofTwoBytes (byte (n / 256)) (byte n) = n := ofTwoBytes_of_lt (by omega)
    simp [mapSetTarget, mapSetFields, mapSetBody, PortRole.code, PortRole.number?, mapSetRole, octet, port, number, low, high]
  | subscriber n c =>
    obtain ⟨low, high⟩ := h n rfl
    have number : ofTwoBytes (byte (n / 256)) (byte n) = n := ofTwoBytes_of_lt (by omega)
    cases c <;>
      simp [mapSetTarget, mapSetFields, mapSetBody, PortRole.code, PortRole.number?, PortRole.class?, Class.code, mapSetRole, octet, port, number,
        low, high]

theorem body_of_subscriber (p : Port) (n : Nat) (priority : Bool) : [byte p.val, 1, byte (n / 256), byte n, flagCode priority]
    = mapSetBody p (.subscriber n (if priority then .priority else .ordinary)) := by
  cases priority <;> rfl

/-! ## The checks of R12 -/

section
variable {p : Port} {r : PortRole} {s : State}

theorem numberTaken_iff : numberTaken s p r = true ↔ ∃ n, r.number? = some n ∧ ∃ q, q ≠ p ∧ (s.ports.at q).number? = some n := by
  unfold numberTaken
  cases r.number? with
  | none => simp
  | some n => simp [allPorts]

theorem portBusy_iff : portBusy s p = true ↔ s.bus = .claimed p ∨ s.bus = .held p ∨ (s.lines.at p).call.isSome = true := by
  unfold portBusy
  simp [or_assoc]

/-- A MAP_SET that nothing stands against is taken. -/
theorem mapSet_judged {body : List Byte} (hf : (mapSetFields body).isNone = false) (ht : mapSetTarget body = some (p, r)) (hm : s.mode = .config)
    (ho : offers p r = true) (hn : ∀ n ∈ r.number?, ∀ q, q ≠ p → (s.ports.at q).number? ≠ some n) (hb : s.bus = .free)
    (hc : (s.lines.at p).call = none) (y : PortSide) : doneUnless (mapSetRefusal body (s.withPort y)) = .done := by
  have free : numberTaken s p r = false := Bool.eq_false_iff.mpr fun x => by
    obtain ⟨n, number, q, hq, taken⟩ := numberTaken_iff.mp x
    exact hn n number q hq taken
  have idle : portBusy s p = false := Bool.eq_false_iff.mpr fun x => by
    have busy := portBusy_iff.mp x
    rw [hb, hc] at busy
    simp at busy
  have free' : numberTaken (s.withPort y) p r = false := free
  have idle' : portBusy (s.withPort y) p = false := idle
  have mode : ¬ (s.withPort y).mode ≠ .config := not_not_intro hm
  unfold mapSetRefusal
  rw [hf, if_neg Bool.false_ne_true, if_neg mode, ht]
  dsimp only
  rw [ho, free', idle']
  rfl

end

/-- The role that the codes of a body name, none where R11 answers BAD_VALUE, and what it offers and is numbered. -/
theorem mapSetRole_cases (p : Port) {role cls : Byte} (number : Nat) (hr : role.toNat < 4) (hc : role = 1 → cls.toNat < 3) :
    if ((role = 1 ∨ role = 2) ∧ (number = 0 ∨ 9999 < number)) ∨ (role = 1 ∧ cls = 2) then mapSetRole role.toNat number cls.toNat = none
    else ∃ r, mapSetRole role.toNat number cls.toNat = some r
        ∧ (offers p r = false ↔ (role = 2 ∧ ¬ (48 ≤ p.val ∧ p.val ≤ 55)) ∨ (role = 3 ∧ p.val < 56))
        ∧ r.number? = if role = 1 ∨ role = 2 then some number else none := by
  have roles : role = 0 ∨ role = 1 ∨ role = 2 ∨ role = 3 := by bv_omega
  by_cases hn : 1 ≤ number ∧ number ≤ 9999
  · have good : ¬ (number = 0 ∨ 9999 < number) := by omega
    rcases roles with rfl | rfl | rfl | rfl
    · exact ⟨.unequipped, rfl, by simp [offers], rfl⟩
    · have classes : cls = 0 ∨ cls = 1 ∨ cls = 2 := by
        have small := hc rfl
        bv_omega
      rcases classes with rfl | rfl | rfl
      · rw [if_neg (by simp [good])]
        exact ⟨.subscriber number .ordinary, if_pos hn, by simp [offers], rfl⟩
      · rw [if_neg (by simp [good])]
        exact ⟨.subscriber number .priority, if_pos hn, by simp [offers], rfl⟩
      · rw [if_pos (.inr ⟨rfl, rfl⟩)]
        exact if_pos hn
    · rw [if_neg (by simp [good])]
      exact ⟨.hotline number, if_pos hn, by simp [offers], rfl⟩
    · exact ⟨.monitor, rfl, by simp [offers], rfl⟩
  · have bad : number = 0 ∨ 9999 < number := by omega
    rcases roles with rfl | rfl | rfl | rfl
    · exact ⟨.unequipped, rfl, by simp [offers], rfl⟩
    · rw [if_pos (.inl ⟨.inl rfl, bad⟩)]
      exact if_neg hn
    · rw [if_pos (.inl ⟨.inr rfl, bad⟩)]
      exact if_neg hn
    · exact ⟨.monitor, rfl, by simp [offers], rfl⟩

theorem mapSetFields_octets {port role hi lo cls : Byte} (hr : role.toNat < 4) (hc : role = 1 → cls.toNat < 3) :
    mapSetFields [port, role, hi, lo, cls] = some (port.toNat, role.toNat, ofTwoBytes hi lo, cls.toNat) := by
  have form : role.toNat ≤ 3 ∧ (role.toNat = 1 → cls.toNat ≤ 2) :=
    ⟨Nat.le_of_lt_succ hr, fun h => Nat.le_of_lt_succ (hc (BitVec.eq_of_toNat_eq h))⟩
  unfold mapSetFields
  exact if_pos form

/-- The refusals of R11 and R12 in their order. -/
theorem mapSet_refused {port role hi lo cls : Byte} {why : RequestRefusal} {s : State} (hr : role.toNat < 4) (hc : role = 1 → cls.toNat < 3)
    (hm : s.mode = .config)
    (h : (if 64 ≤ port.toNat ∨ ((role = 1 ∨ role = 2) ∧ (ofTwoBytes hi lo = 0 ∨ 9999 < ofTwoBytes hi lo)) ∨ (role = 1 ∧ cls = 2) then
        some RequestRefusal.badValue
      else if (role = 2 ∧ ¬ (48 ≤ port.toNat ∧ port.toNat ≤ 55)) ∨ (role = 3 ∧ port.toNat < 56) then some .roleNotOffered
      else if (role = 1 ∨ role = 2) ∧ ∃ q : Port, q.val ≠ port.toNat ∧ (s.ports.at q).number? = some (ofTwoBytes hi lo) then
        some .numberInUse
      else if ∃ q : Port, q.val = port.toNat ∧ (s.bus = .claimed q ∨ s.bus = .held q ∨ (s.lines.at q).call.isSome = true) then
        some .portBusy
      else none) = some why) : mapSetRefusal [port, role, hi, lo, cls] s = some why := by
  have fields := mapSetFields_octets (port := port) (hi := hi) (lo := lo) hr hc
  unfold mapSetRefusal mapSetTarget
  rw [fields, if_neg (fun x => nomatch x), if_neg (not_not_intro hm)]
  dsimp only
  by_cases hport : port.toNat < 64
  · have named : portOfNo port.toNat = some ⟨port.toNat, hport⟩ := dif_pos hport
    have within : ¬ 64 ≤ port.toNat := Nat.not_le.mpr hport
    have roles := mapSetRole_cases ⟨port.toNat, hport⟩ (ofTwoBytes hi lo) hr hc
    simp only [within, false_or] at h
    split at h
    · next bad =>
      rw [if_pos bad] at roles
      rw [named, Option.bind_some, roles]
      exact h
    · next good =>
      rw [if_neg good] at roles
      obtain ⟨r, role', offered, number⟩ := roles
      rw [named, Option.bind_some, role', Option.map_some]
      dsimp only
      have taken : numberTaken s ⟨port.toNat, hport⟩ r = true
          ↔ (role = 1 ∨ role = 2) ∧ ∃ q : Port, q.val ≠ port.toNat ∧ (s.ports.at q).number? = some (ofTwoBytes hi lo) := by
        rw [numberTaken_iff, number]
        by_cases numbered : role = 1 ∨ role = 2
        · simp [numbered, Fin.ext_iff]
        · rw [if_neg numbered]
          exact ⟨fun ⟨_, x, _⟩ => (nomatch x), fun ⟨x, _⟩ => absurd x numbered⟩
      have busy : portBusy s ⟨port.toNat, hport⟩ = true
          ↔ ∃ q : Port, q.val = port.toNat ∧ (s.bus = .claimed q ∨ s.bus = .held q ∨ (s.lines.at q).call.isSome = true) := by
        rw [portBusy_iff]
        exact ⟨fun x => ⟨_, rfl, x⟩, fun ⟨q, hq, x⟩ => by
          obtain rfl : q = ⟨port.toNat, hport⟩ := Fin.ext hq
          exact x⟩
      rw [← h]
      simp only [← taken, ← busy, ← offered]
      cases offers ⟨port.toNat, hport⟩ r <;> rfl
  · have none : portOfNo port.toNat = none := dif_neg hport
    rw [if_pos (.inl (Nat.not_lt.mp hport))] at h
    rw [none]
    exact h

/-! ## The alarms of a remapped port (R14, R16) -/

theorem markAlarm_self {a : AlarmId} {s : State} (h : ∀ e ∈ s.alarms, e.id = a → e.present = false) : markAlarm a false s = s := by
  have same : (s.alarms.map fun e => if e.id = a then { e with present := false } else e) = s.alarms := by
    refine (List.map_congr_left fun e he => ?_).trans (List.map_id _)
    split
    · next id =>
      have absent := h e he id
      obtain ⟨_, present⟩ := e
      cases absent
      rfl
    · rfl
  unfold markAlarm
  rw [same]
  rfl

/-- With one entry for each alarm, the end of a condition is the mark of its entry. -/
theorem conditionEnded_eq {a : AlarmId} {s : State} (hn : (s.alarms.map (·.id)).Nodup) : conditionEnded a s = markAlarm a false s := by
  unfold conditionEnded
  cases he : alarmEntry s a with
  | none =>
    refine (markAlarm_self fun e mem id => ?_).symm
    exact absurd (decide_eq_true id) (List.find?_eq_none.mp he e mem)
  | some e =>
    dsimp only
    split
    · rfl
    · next absent =>
      have id : e.id = a := of_decide_eq_true (List.find?_some (p := fun e : Alarm => decide (e.id = a)) he)
      refine (markAlarm_self fun x mem hx => ?_).symm
      obtain rfl : x = e := List.inj_on_of_nodup_map hn mem (List.mem_of_find?_eq_some he) (hx.trans id.symm)
      exact Bool.eq_false_of_not_eq_true absent

theorem filter_map_eq {α : Type} {f : α → α} {g k : α → Bool} {l : List α} (hg : ∀ a, g (f a) = k a) (hf : ∀ a, k a = true → f a = a) :
    (l.map f).filter g = l.filter k := by
  have comp : g ∘ f = k := funext hg
  rw [List.filter_map, comp]
  refine (List.map_congr_left fun a ha => hf a (List.mem_filter.mp ha).2).trans (List.map_id _)

/-! ## A remap followed through (R14 to R17) -/

/-- The part with a port remapped, its alarms and its line's transition apart. -/
def remapping (p : Port) (r : PortRole) (s : State) : State :=
  let c := scanRemapped s p r
  emptyBuffer p (setLine p (remappedLine c r) (setScan p c (setPort p r s)))

/-- Whether the sensing of a port that a remap changes from `old` to `new` ends its fault, or its contact's condition. -/
def endsFault (old new : Scanner) : Bool := old.fault && !new.fault
def endsContact (old new : Scanner) : Bool := decide (old.contact = .closed ∧ new.contact = .opened)

/-- The alarms of a remapped port as a remap leaves them, its reports apart. -/
def alarmsRemapped (p : Port) (old new : Scanner) (s : State) : State :=
  let t := if endsFault old new then conditionEnded (.lineFault p) s else s
  let t := if endsContact old new then conditionEnded (.contact p) t else t
  setAlarms (t.alarms.filter fun e => e.present || !decide (e.id = .lineFault p ∨ e.id = .contact p)) t

/-- The alarms that a remap takes from the list: those of the port whose condition is absent, or ends. -/
def leavesList (p : Port) (old new : Scanner) (e : Alarm) : Bool :=
  decide ((e.id = .lineFault p ∨ e.id = .contact p) ∧ (e.present = false
    ∨ (e.id = .lineFault p ∧ endsFault old new = true) ∨ (e.id = .contact p ∧ endsContact old new = true)))

section
variable {p : Port} {old new : Scanner} {s u t : State} {rs : List Report} {n : Nat}

theorem markAlarm_nodup {a : AlarmId} {b : Bool} (hn : (s.alarms.map (·.id)).Nodup) : ((markAlarm a b s).alarms.map (·.id)).Nodup := by
  have ids : (markAlarm a b s).alarms.map (·.id) = s.alarms.map (·.id) := by
    unfold markAlarm setAlarms
    rw [List.map_map]
    refine List.map_congr_left fun e _ => ?_
    rw [Function.comp_apply]
    split <;> rfl
  rw [ids]
  exact hn

/-- An entry after the end of a condition that ends under `b`. -/
def endedIf (a : AlarmId) (b : Bool) (e : Alarm) : Alarm := if e.id = a ∧ b = true then { e with present := false } else e

/-- An entry of the list after the conditions that a remap ends. -/
def afterRemap (p : Port) (old new : Scanner) (e : Alarm) : Alarm :=
  if (e.id = .lineFault p ∧ endsFault old new = true) ∨ (e.id = .contact p ∧ endsContact old new = true) then { e with present := false } else e

theorem endedIf_id (a : AlarmId) (b : Bool) (e : Alarm) : (endedIf a b e).id = e.id := by
  unfold endedIf
  split <;> rfl

theorem endedIf_endedIf (e : Alarm) : endedIf (.contact p) (endsContact old new) (endedIf (.lineFault p) (endsFault old new) e)
    = afterRemap p old new e := by
  unfold endedIf afterRemap
  by_cases hf : e.id = .lineFault p ∧ endsFault old new = true
  · simp [hf]
  · simp [hf]

theorem conditionEnded_if {a : AlarmId} (b : Bool) (hn : (s.alarms.map (·.id)).Nodup) : (if b = true then conditionEnded a s else s)
    = { s with alarms := s.alarms.map (endedIf a b) } := by
  cases b with
  | false =>
    have same : endedIf a false = id := funext fun e => if_neg (by simp)
    rw [same, List.map_id]
    rfl
  | true =>
    rw [if_pos rfl, conditionEnded_eq hn]
    unfold endedIf
    simp only [and_true]
    rfl

theorem afterRemap_leaves (e : Alarm) : ((afterRemap p old new e).present || !decide ((afterRemap p old new e).id = .lineFault p
    ∨ (afterRemap p old new e).id = .contact p)) = !leavesList p old new e := by
  unfold afterRemap leavesList
  by_cases hends : (e.id = .lineFault p ∧ endsFault old new = true) ∨ (e.id = .contact p ∧ endsContact old new = true)
  · have mine : e.id = .lineFault p ∨ e.id = .contact p := hends.imp And.left And.left
    rw [if_pos hends]
    simp [mine, hends]
  · rw [if_neg hends]
    cases hp : e.present <;> simp [hends]

theorem afterRemap_stays {e : Alarm} (h : leavesList p old new e = false) : afterRemap p old new e = e := by
  refine if_neg fun ends => ?_
  exact of_decide_eq_false h ⟨ends.imp And.left And.left, .inr ends⟩

/-- With one entry for each alarm, what leaves the list. -/
theorem alarmsRemapped_eq (hn : (s.alarms.map (·.id)).Nodup) :
    alarmsRemapped p old new s = { s with alarms := s.alarms.filter fun e => !leavesList p old new e } := by
  have ids : ((s.alarms.map (endedIf (.lineFault p) (endsFault old new))).map (·.id)).Nodup := by
    rw [List.map_map]
    exact (List.map_congr_left fun e _ => endedIf_id _ _ e : _ = s.alarms.map (·.id)) ▸ hn
  have both : endedIf (.contact p) (endsContact old new) ∘ endedIf (.lineFault p) (endsFault old new) = afterRemap p old new :=
    funext endedIf_endedIf
  unfold alarmsRemapped
  dsimp only
  rw [conditionEnded_if _ hn, conditionEnded_if _ (by exact ids)]
  unfold setAlarms
  dsimp only
  rw [List.map_map, both, filter_map_eq afterRemap_leaves fun e he => afterRemap_stays (by simpa using he)]

/-- The reports of the conditions that a remap ends. -/
def alarmReports (p : Port) (old new : Scanner) (s : State) : List Report :=
  (if endsFault old new then ended s (.lineFault p) else []) ++ (if endsContact old new then ended s (.contact p) else [])

/-- A remap that ends no condition reports none, and where no entry of the port is without its condition the list stands. -/
theorem Comes.remapsAlarms_of_none (h : Comes s rs u t) (hf : endsFault old new = false) (hc : endsContact old new = false)
    (ha : ∀ e ∈ u.alarms, e.present = true ∨ ¬ (e.id = .lineFault p ∨ e.id = .contact p)) : Comes s rs u (remapAlarms p old new t) := by
  have kept : u.alarms.filter (fun e => e.present || !decide (e.id = .lineFault p ∨ e.id = .contact p)) = u.alarms :=
    List.filter_eq_self.mpr fun e he => by simpa using ha e he
  have told := h.map (fun x => setAlarms (x.alarms.filter fun e => e.present || !decide (e.id = .lineFault p ∨ e.id = .contact p)) x)
    fun _ _ => rfl
  have contact : ¬ (old.contact = .closed ∧ new.contact = .opened) := by simpa [endsContact] using hc
  unfold endsFault at hf
  unfold remapAlarms
  dsimp only
  rw [hf, if_neg Bool.false_ne_true, if_neg contact]
  refine told.restate ?_
  unfold setAlarms
  rw [kept]

theorem Comes.remapsAlarms (h : Comes s rs u t) (p : Port) (old new : Scanner) (hr : Room n s) (hn : rs.length + 2 ≤ n) :
    Comes s (rs ++ alarmReports p old new u) (alarmsRemapped p old new u) (remapAlarms p old new t) := by
  have first : Comes s (rs ++ if endsFault old new then ended u (.lineFault p) else [])
      (if endsFault old new then conditionEnded (.lineFault p) u else u)
      (if old.fault && !new.fault then endCondition (.lineFault p) t else t) := by
    unfold endsFault
    split
    · exact h.ends _ hr (by omega)
    · rw [List.append_nil]
      exact h
  have other : ended (if endsFault old new then conditionEnded (.lineFault p) u else u) (.contact p) = ended u (.contact p) := by
    split
    · exact ended_of_entry (alarmEntry_of_marked (by simp) (alarmMarked_ended (.lineFault p) u))
    · rfl
  have few : (if endsFault old new then ended u (.lineFault p) else []).length ≤ 1 := by
    split
    · exact ended_length u _
    · exact Nat.zero_le 1
  unfold remapAlarms alarmsRemapped alarmReports
  dsimp only
  rw [← List.append_assoc]
  generalize (if endsFault old new then ended u (.lineFault p) else []) = before at first few ⊢
  generalize (if endsFault old new then conditionEnded (.lineFault p) u else u) = u' at first other ⊢
  generalize (if old.fault && !new.fault then endCondition (.lineFault p) t else t) = t' at first ⊢
  have second : Comes s (rs ++ before ++ if endsContact old new then ended u (.contact p) else [])
      (if endsContact old new then conditionEnded (.contact p) u' else u')
      (if old.contact = .closed ∧ new.contact = .opened then endCondition (.contact p) t' else t') := by
    unfold endsContact
    by_cases hc : old.contact = .closed ∧ new.contact = .opened
    · rw [if_pos hc, if_pos (decide_eq_true hc), if_pos (decide_eq_true hc), ← other]
      exact first.ends _ hr (by rw [List.length_append]; omega)
    · rw [if_neg hc, if_neg (by simpa using hc), if_neg (by simpa using hc), List.append_nil]
      exact first
  exact second.map (fun x => setAlarms (x.alarms.filter fun e => e.present || !decide (e.id = .lineFault p ∨ e.id = .contact p)) x) fun _ _ => rfl

end

/-! ## The line of a remapped port (R15, R16) -/

/-- What a port's line comes to after a remap. -/
def remappedState (c : Scanner) (r : PortRole) : LineState :=
  if r.hasLine = false then .unequipped else if c.fault = true then .fault else if c.hook = .offHook then .parked else .idle

/-- The reports of a remapped port's line: its reset, and the transition from there. -/
def remapReports (p : Port) (old r : PortRole) (c : Scanner) : List Report :=
  (if old.hasLine = true ∨ r.hasLine = true then [.callEvent p (if r.hasLine then .idle else .unequipped) (.because .config)] else [])
    ++ (if remappedState c r = .fault then [.callEvent p .fault (.because .lineFault)]
        else if remappedState c r = .parked then [.callEvent p .parked (.because .config)] else [])

/-- The scanner record of a remapped port whose line is in a state. -/
def scanSettled (st : LineState) (c : Scanner) : Scanner :=
  if st = .fault then { c with hook := .onHook, openRun := 0, closedRun := 0, heldRun := 0 } else c

section
variable {p : Port} {c : Scanner} {r : PortRole} {s u t : State} {rs : List Report} {n : Nat}

theorem put_self {s : State} {p : Port} {l : Line} {c : Scanner} (hl : s.lines.at p = l) (hc : s.scan.at p = c) :
    ({ s with lines := s.lines.put p l, scan := s.scan.put p c } : State) = s := by
  subst hl hc
  rw [Table.put_at, Table.put_at]

/-- A clean scanner record stays as it is when the IDLE line goes to another state, but for the hook where that suspends it. -/
theorem lineMoved_of_clean (st : LineState) (r : PortRole) (h : c.trainCleared = c) :
    c.lineMoved r .idle st = if st.suspended = true then c.suspended else c := by
  have idle : decodesIn r .idle = false := by simp [decodesIn, LineState.offHookCall]
  unfold Scanner.lineMoved
  rw [idle, Bool.false_and]
  dsimp only
  rw [if_neg Bool.false_ne_true, h]

/-- The transition of a remapped port's line, and what comes of it. -/
theorem Comes.remapsLine (h : Comes s rs u t) (old : PortRole) (hline : u.lines.at p = remappedLine c r) (hscan : u.scan.at p = c)
    (hclean : c.trainCleared = c) (hbuf : u.buffers.at p = DigitBuffer.empty) (hb : u.bus = .free)
    (hg : (u.groups.at (groupOf p)).state ≠ .standbyPending) (hr : Room n s) (hn : (rs ++ remapReports p old r c).length ≤ n) :
    Comes s (rs ++ remapReports p old r c) { u with
        lines := u.lines.put p { Line.unequipped with state := remappedState c r, faultPresent := r.hasLine && c.fault }
        scan := u.scan.put p (scanSettled (remappedState c r) c) }
      (remapTransition p c r (if old.hasLine || r.hasLine then Machine.callEvent p (remappedLine c r).state .config t else t)) := by
  have unclaimed : u.bus ≠ .claimed p := by rw [hb]; exact fun x => nomatch x
  unfold remapReports at hn ⊢
  rw [← List.append_assoc] at hn ⊢
  have told : Comes s (rs ++ if old.hasLine = true ∨ r.hasLine = true then
        [.callEvent p (if r.hasLine then .idle else .unequipped) (.because .config)] else []) u
      (if old.hasLine || r.hasLine then Machine.callEvent p (remappedLine c r).state .config t else t) := by
    by_cases hl : old.hasLine = true ∨ r.hasLine = true
    · rw [if_pos hl, if_pos (Bool.or_eq_true_iff.mpr hl)]
      refine h.callEvent p _ _ hr ?_
      rw [if_pos hl, List.length_append, List.length_append, List.length_singleton] at hn
      omega
    · rw [if_neg hl, if_neg fun x => hl (Bool.or_eq_true_iff.mp x), List.append_nil]
      exact h
  generalize (rs ++ if old.hasLine = true ∨ r.hasLine = true then
    [Report.callEvent p (if r.hasLine then .idle else .unequipped) (.because .config)] else []) = before at told hn ⊢
  generalize (if old.hasLine || r.hasLine then Machine.callEvent p (remappedLine c r).state .config t else t) = t' at told ⊢
  have moves (st : LineState) (why : Reason) (hst : st = .fault ∨ st = .parked) (hl : r.hasLine = true) (hn : before.length < n) :
      Comes s (before ++ [.callEvent p st (.because why)]) { u with
        lines := u.lines.put p { Line.unequipped with state := st, faultPresent := r.hasLine && c.fault }
        scan := u.scan.put p (if st.suspended = true then c.suspended else c) } (Machine.enterBare p st why t') := by
    have ends : st.endsCall = true := by rcases hst with rfl | rfl <;> rfl
    have idle : (u.lines.at p).state = .idle := by rw [hline]; unfold remappedLine; rw [hl]; rfl
    have present : (u.lines.at p).faultPresent = (r.hasLine && c.fault) := by rw [hline]; rfl
    have one := endReports_of_unclaimed unclaimed st why
    have moved := told.enterBare p (st := st) why ends (fun _ => hg) hr (by rw [one, List.length_singleton]; exact hn)
    rw [one, lineEnds_of_bare idle rfl (by decide) unclaimed ends, hscan, lineMoved_of_clean st _ hclean, present, ← hbuf, Table.put_at] at moved
    exact moved
  have stays (hline' : remappedLine c r = { Line.unequipped with state := remappedState c r, faultPresent := r.hasLine && c.fault })
      (hf : remappedState c r ≠ .fault) : ({ u with
        lines := u.lines.put p { Line.unequipped with state := remappedState c r, faultPresent := r.hasLine && c.fault }
        scan := u.scan.put p (scanSettled (remappedState c r) c) } : State) = u :=
    put_self (hline.trans hline') (hscan.trans (if_neg hf).symm)
  have sleeps := told.groupIdle hg
  unfold remapTransition
  cases hl : r.hasLine with
  | false =>
    have state : remappedState c r = .unequipped := if_pos hl
    rw [hl] at stays
    rw [stays (by unfold remappedLine; rw [hl, state]; rfl) (by rw [state]; decide), state]
    exact sleeps.reports_eq (List.append_nil _).symm
  | true =>
    rw [hl] at moves stays
    by_cases hf : c.fault = true
    · have state : remappedState c r = .fault := by unfold remappedState; rw [hl, if_neg (by decide), if_pos hf]
      rw [state, hf]
      rw [hf] at moves
      rw [state, List.length_append] at hn
      exact moves .fault .lineFault (.inl rfl) rfl hn
    · have unfaulted : c.fault = false := Bool.eq_false_of_not_eq_true hf
      rw [unfaulted] at stays moves ⊢
      by_cases ho : c.hook = .offHook
      · have state : remappedState c r = .parked := by unfold remappedState; rw [hl, if_neg (by decide), if_neg hf, if_pos ho]
        rw [state, ho]
        rw [state, List.length_append] at hn
        exact moves .parked .config (.inr rfl) rfl hn
      · have state : remappedState c r = .idle := by unfold remappedState; rw [hl, if_neg (by decide), if_neg hf, if_neg ho]
        rw [stays (by unfold remappedLine; rw [hl, state, unfaulted]; rfl) (by rw [state]; decide), state, decide_eq_false ho]
        exact sleeps.reports_eq (List.append_nil _).symm

end

theorem remap_eq (p : Port) (r : PortRole) (t : State) : remap p r t = remapTransition p (scanRemapped t p r) r
    (if (t.ports.at p).hasLine || r.hasLine then
      callEvent p (remappedLine (scanRemapped t p r) r).state .config (remapAlarms p (t.scan.at p) (scanRemapped t p r) (remapping p r t))
    else remapAlarms p (t.scan.at p) (scanRemapped t p r) (remapping p r t)) := rfl

theorem scanRemapped_clean (s : State) (p : Port) (r : PortRole) : (scanRemapped s p r).trainCleared = scanRemapped s p r := by
  unfold scanRemapped
  split <;> rfl

theorem alarmReports_length (p : Port) (old new : Scanner) (s : State) : (alarmReports p old new s).length ≤ 2 := by
  have short (b : Bool) {l : List Report} (h : l.length ≤ 1) : (if b then l else []).length ≤ 1 := by
    split
    · exact h
    · exact Nat.zero_le 1
  unfold alarmReports
  rw [List.length_append]
  exact Nat.add_le_add (short _ (ended_length s _)) (short _ (ended_length s _))

theorem remapReports_length (p : Port) (old r : PortRole) (c : Scanner) : (remapReports p old r c).length ≤ 2 := by
  unfold remapReports
  rw [List.length_append]
  refine Nat.add_le_add (b := 1) (d := 1) ?_ ?_
  · split <;> simp
  · split
    · simp
    · split <;> simp

theorem scanRemapped_taken (num : Byte) (o : ReplyOutcome) (s : State) (p : Port) (r : PortRole) :
    scanRemapped (taken num o s) p r = scanRemapped s p r := by
  have ports : (taken num o s).ports = s.ports := (congrArg State.ports (taken_port num o s) :)
  have scan : (taken num o s).scan = s.scan := (congrArg State.scan (taken_port num o s) :)
  unfold scanRemapped hasLine
  rw [ports, scan]

/-- A remap followed through, from what becomes of the port's alarms on. -/
theorem remap_comes {p : Port} {r : PortRole} {num : Byte} {s : State} {n : Nat} {rs : List Report} {alarms : List Alarm}
    (ha : Comes (taken num .done s) rs { remapping p r s with alarms := alarms }
      (remapAlarms p (s.scan.at p) (scanRemapped s p r) (remapping p r (taken num .done s))))
    (hb : s.bus = .free) (hg : groupState s p ≠ .standbyPending) (hroom : Room n s)
    (hn : (rs ++ remapReports p (s.ports.at p) r (scanRemapped s p r)).length ≤ n) :
    Comes (taken num .done s) (rs ++ remapReports p (s.ports.at p) r (scanRemapped s p r))
      { s with
        ports := s.ports.put p r, buffers := s.buffers.put p DigitBuffer.empty, alarms := alarms
        lines := s.lines.put p { Line.unequipped with
          state := remappedState (scanRemapped s p r) r, faultPresent := r.hasLine && (scanRemapped s p r).fault }
        scan := s.scan.put p (scanSettled (remappedState (scanRemapped s p r) r) (scanRemapped s p r)) }
      (remap p r (taken num .done s)) := by
  have port := taken_port num .done s
  have ports : (taken num .done s).ports = s.ports := (congrArg State.ports port :)
  have scan : (taken num .done s).scan = s.scan := (congrArg State.scan port :)
  rw [remap_eq, scanRemapped_taken, ports, scan]
  have told := ha.remapsLine (s.ports.at p) (p := p) (c := scanRemapped s p r) (r := r) (Table.at_put_same _ _ _) (Table.at_put_same _ _ _)
    (scanRemapped_clean s p r) (Table.at_put_same _ _ _) hb hg (taken_room num .done hroom) hn
  refine told.restate ?_
  unfold remapping emptyBuffer setBuffer setLine setScan setPort
  dsimp only
  rw [put_put, put_put]

theorem setMap_body {p : Port} {r : PortRole} {t : State} (h : ∀ n ∈ r.number?, 1 ≤ n ∧ n ≤ 9999) : setMap (mapSetBody p r) t
    = if r = t.ports.at p then t else if classChange (t.ports.at p) r then setPort p r t else remap p r t := by
  unfold setMap
  rw [(mapSetTarget_body h).2]

theorem lookup_of_number {s : State} {p : Port} {n : Nat} (hl : 1 ≤ n) (hh : n ≤ 9999) (hp : (s.ports.at p).number? = some n)
    (ho : ∀ q, q ≠ p → (s.ports.at q).number? ≠ some n) : lookup s n = some p := by
  unfold lookup
  rw [if_pos ⟨hl, hh⟩]
  cases found : allPorts.find? fun q => decide ((s.ports.at q).number? = some n) with
  | none => exact absurd (decide_eq_true hp) (List.find?_eq_none.mp found p (List.mem_finRange p))
  | some q =>
    have number : (s.ports.at q).number? = some n := of_decide_eq_true (List.find?_some (p := fun q => decide ((s.ports.at q).number? = some n)) found)
    exact congrArg some (Decidable.not_not.mp fun hq => ho q hq number)

/-- Settles O49: the port equipped, the class changed, or the port remapped; and the refusals in their order. -/
theorem mapSetEquipsASubscriber : Obligations.MapSetEquipsASubscriber := by
  refine ⟨fun num p n priority s ht hm hlow hhigh hport hfree hb hc hf hct hpres hg he hroom => ?_,
    fun num p n priority s ht hm hlow hhigh hport hfree hb hc he => ?_, fun num port role hi lo cls why s ht hr hc hm h => ?_,
    fun num p n old new s ht hm hlow hhigh hport hfree hb hc he => ?_, fun num p r s ht hm ho hn hne hclass hb hc hnodup hg he hroom => ?_⟩
  · have range : ∀ m ∈ (PortRole.subscriber n (if priority then .priority else .ordinary)).number?, 1 ≤ m ∧ m ≤ 9999 := by
      rintro m ⟨⟩
      exact ⟨hlow, hhigh⟩
    obtain ⟨fields, target⟩ := mapSetTarget_body (p := p) range
    have ports : (taken num .done s).ports = s.ports := (congrArg State.ports (taken_port num .done s) :)
    rw [body_of_subscriber] at ht ⊢
    generalize hr : (if priority = true then Class.priority else .ordinary) = cls at *
    have effect : setMap (mapSetBody p (.subscriber n cls)) (taken num .done s) = remap p (.subscriber n cls) (taken num .done s) := by
      rw [setMap_body range, ports, hport, if_neg (by simp)]
      exact if_neg (by simp [classChange, PortRole.isSubscriber])
    have fresh : scanRemapped s p (.subscriber n cls) = Scanner.initial := by
      unfold scanRemapped hasLine
      rw [hport]
      rfl
    have start := ((Comes.taken num .done s).map (remapping p (.subscriber n cls)) fun _ _ => rfl)
    have told := remap_comes (p := p) (r := .subscriber n cls) (alarms := s.alarms) (n := 1) (rs := []) (num := num) ?_ hb hg hroom ?_
    · rw [fresh, hport] at told
      refine .answeredEvent rfl ht (mapSet_judged fields target hm rfl (by rintro m ⟨⟩; exact fun q _ => hfree q) hb hc) effect told (.of_same rfl he)
        fun y made reply => ⟨reply, Table.at_put_same _ _ _, Table.at_put_same _ _ _, Table.at_put_same _ _ _, Table.at_put_same _ _ _, ?_, made,
          fun q hq => Table.at_put_other _ _ hq, fun q hq => Table.at_put_other _ _ hq, fun q hq => Table.at_put_other _ _ hq,
          fun q hq => Table.at_put_other _ _ hq, rfl⟩
      exact lookup_of_number hlow hhigh (congrArg PortRole.number? (Table.at_put_same _ _ _)) fun q hq =>
        (congrArg PortRole.number? (Table.at_put_other _ _ hq) :).trans_ne (hfree q)
    · exact (start.remapsAlarms_of_none (by unfold endsFault; rw [hf]; rfl) (by unfold endsContact; rw [hct]; rfl)
        (by exact fun e he => .inl (hpres e he))).restate rfl
    · rw [fresh, hport]
      exact Nat.le_refl 1
  · have range : ∀ m ∈ (PortRole.subscriber n (if priority then .priority else .ordinary)).number?, 1 ≤ m ∧ m ≤ 9999 := by
      rintro m ⟨⟩
      exact ⟨hlow, hhigh⟩
    obtain ⟨fields, target⟩ := mapSetTarget_body (p := p) range
    have ports : (taken num .done s).ports = s.ports := (congrArg State.ports (taken_port num .done s) :)
    rw [body_of_subscriber] at ht ⊢
    refine .answeredEvent rfl ht (mapSet_judged fields target hm rfl (by rintro m ⟨⟩; exact hfree) hb hc)
      ((setMap_body range).trans (if_pos (by rw [ports, hport]))) (Comes.taken num .done s) (.of_same rfl he) fun y made reply => ⟨reply, rfl⟩
  · exact .refused (judge := fun t => doneUnless (mapSetRefusal [port, role, hi, lo, cls] t)) rfl ht
      (fun y => congrArg doneUnless (mapSet_refused hr hc hm h)) fun _ _ reply => ⟨reply, rfl⟩
  · have range : ∀ m ∈ (PortRole.subscriber n new).number?, 1 ≤ m ∧ m ≤ 9999 := by
      rintro m ⟨⟩
      exact ⟨hlow, hhigh⟩
    obtain ⟨fields, target⟩ := mapSetTarget_body (p := p) range
    have ports : (taken num .done s).ports = s.ports := (congrArg State.ports (taken_port num .done s) :)
    have effect : setMap (mapSetBody p (.subscriber n new)) (taken num .done s) = setPort p (.subscriber n new) (taken num .done s) := by
      rw [setMap_body range, ports, hport]
      by_cases same : PortRole.subscriber n new = .subscriber n old
      · rw [if_pos same, same]
        unfold setPort
        rw [← hport, ← ports, Table.put_at]
      · rw [if_neg same]
        exact if_pos (by simp [classChange, PortRole.isSubscriber, PortRole.number?])
    exact .answeredEvent rfl ht (mapSet_judged fields target hm rfl (by rintro m ⟨⟩; exact hfree) hb hc) effect
      ((Comes.taken num .done s).map (setPort p (.subscriber n new)) fun _ _ => rfl) (.of_same rfl he) fun y made reply => ⟨reply, made, rfl⟩
  · have range : ∀ m ∈ r.number?, 1 ≤ m ∧ m ≤ 9999 := fun m hm => ⟨(hn m hm).1, (hn m hm).2.1⟩
    obtain ⟨fields, target⟩ := mapSetTarget_body (p := p) range
    have ports : (taken num .done s).ports = s.ports := (congrArg State.ports (taken_port num .done s) :)
    have effect : setMap (mapSetBody p r) (taken num .done s) = remap p r (taken num .done s) := by
      rw [setMap_body range, ports, if_neg hne]
      exact if_neg fun x => hclass (by simpa [classChange, and_assoc] using x)
    have room := taken_room num .done hroom
    have start := ((Comes.taken num .done s).map (remapping p r) fun _ _ => rfl).remapsAlarms p (s.scan.at p) (scanRemapped s p r) room
      (by decide)
    have two := alarmReports_length p (s.scan.at p) (scanRemapped s p r) s
    have two' := remapReports_length p (s.ports.at p) r (scanRemapped s p r)
    rw [alarmsRemapped_eq (by exact hnodup), List.nil_append] at start
    have told := remap_comes start hb hg hroom (by rw [List.length_append]; exact Nat.add_le_add two two')
    refine .answeredEvent rfl ht (mapSet_judged fields target hm ho (fun m hm => (hn m hm).2.2) hb hc) effect told (.of_same rfl he)
      fun y made reply => ⟨reply, rfl, Table.at_put_same _ _ _, Table.at_put_same _ _ _, Table.at_put_same _ _ _, ?_, ?_,
        fun q hq => Table.at_put_other _ _ hq, fun q hq => Table.at_put_other _ _ hq, fun q hq => Table.at_put_other _ _ hq, rfl⟩
    · have fault : (endsFault (s.scan.at p) (scanRemapped s p r) = true) = ((s.scan.at p).fault = true ∧ (scanRemapped s p r).fault = false) := by
        simp [endsFault]
      have contact : (endsContact (s.scan.at p) (scanRemapped s p r) = true)
          = ((s.scan.at p).contact = .closed ∧ (scanRemapped s p r).contact = .opened) := by
        simp [endsContact]
      unfold alarmReports remapReports at made
      simp only [fault, contact] at made
      rw [← List.append_assoc] at made
      exact made
    · refine List.filter_congr fun e _ => ?_
      simp [leavesList, endsFault, endsContact]

end Sys2Proof.Machine
end

