-- ==== Sys2Proof/Proofs/CallViews.lean ====
section
/-! PROOF. The agreement of the calls, line by line and slot by slot (O60): what of the part it speaks of, and what each line and each slot
contributes to it. -/

namespace Sys2Proof.Machine

/-! ## What the agreement speaks of -/

/-- A slot record without what the agreement of the calls does not look at. -/
def Slot.core : Slot → Slot
  | .reserved c _ => .reserved { c with answered := false, order := 0 } false
  | .busy c _ => .busy { c with answered := false, order := 0 } false
  | .held c _ => .held { c with answered := false, order := 0 } false
  | .clearing p tag side _ => .clearing p tag side false
  | .blocked _ => .blocked .cabinet
  | .free => .free

/-- The state and the call of a line. -/
def Line.side (l : Line) : LineState × Option (SlotId × Direction) := (l.state, l.call)

/-- What the agreement of the calls speaks of. -/
structure CallSide where
  lines : Table 64 (LineState × Option (SlotId × Direction))
  slots : Table 20 Slot
  timers : Table 20 (Option TimerKind)
  owed : Table 20 (Option ClearOwed)
  msgs : List Msg
  flying : Bool
  bus : TestBus

def State.callSide (s : State) : CallSide where
  lines := s.lines.map Line.side
  slots := s.slots.map Slot.core
  timers := s.sig.map fun g => g.timer.map (·.kind)
  owed := s.sig.map (·.owed)
  msgs := s.txq.map (·.msg)
  flying := s.inFlight.isSome
  bus := s.bus

/-! ## Messages of a slot -/

/-- The slot a message names. -/
def Msg.slot? : Msg → Option SlotId
  | .ofSlot i _ _ _ => some i
  | .ofNone _ => none

/-- What a message of a slot sends. -/
def Msg.sends? : Msg → Option SlotMsg
  | .ofSlot _ _ _ m => some m
  | .ofNone _ => none

/-- Whether a message fits a slot record: the record names its line and tag, is not HELD, and can have it sent. -/
def Msg.fits (m : Msg) (sl : Slot) : Prop :=
  match m with
  | .ofSlot _ p tag sm => sl.party? = some (p, tag) ∧ sl.isHeld = false ∧ sendsIn sm sl = true
  | .ofNone _ => True

namespace CallSide
variable (c : CallSide)

/-- The messages of a slot, in the order of the queue. -/
def ofSlot (i : SlotId) : List Msg := c.msgs.filter fun m => decide (m.slot? = some i)

/-- What of a slot is in flight. -/
def flight (i : SlotId) : Option SlotMsg :=
  if c.flying = true then (c.msgs.head?.filter fun m => decide (m.slot? = some i)).bind Msg.sends? else none

end CallSide

/-! ## What a line and what a slot contribute -/

/-- How a slot holds its call. -/
inductive Holding where
  | reserved | busy | held
  deriving DecidableEq

/-- How a slot holds a call, the call's line and its direction. -/
def Slot.holds? : Slot → Option (Holding × Port × Direction)
  | .reserved c _ => some (.reserved, c.line, c.direction)
  | .busy c _ => some (.busy, c.line, c.direction)
  | .held c _ => some (.held, c.line, c.direction)
  | _ => none

/-- How the slot of a line in a state holds its call. -/
def LineState.holding : LineState → Holding
  | .activeOut => .busy
  | .activeIn => .busy
  | .holdover => .held
  | _ => .reserved

/-- A line agrees with the slots and the test bus. -/
structure LineAgrees (c : CallSide) (p : Port) : Prop where
  names : (c.lines.at p).2.isSome = (c.lines.at p).1.holdsSlot
  slot : ∀ x ∈ (c.lines.at p).2, (∀ d ∈ directionIn (c.lines.at p).1, x.2 = d)
    ∧ (c.slots.at x.1).holds? = some ((c.lines.at p).1.holding, p, x.2)
  named : ∀ i, ∀ v ∈ (c.slots.at i).holds?, v.2.1 = p → (c.lines.at p).2 = some (i, v.2.2)
  held : (c.lines.at p).1 = .test ↔ c.bus = .held p
  claimed : c.bus = .claimed p → (c.lines.at p).1.holdsSlot = true

/-- What a slot record, its timer and what it owes agree with its messages and with what of it is in flight. -/
structure Fits (sl : Slot) (timer : Option TimerKind) (owed : Option ClearOwed) (msgs : List Msg) (flight : Option SlotMsg) : Prop where
  one : msgs.length ≤ 1
  fits : ∀ m ∈ msgs, m.fits sl
  waits : ∀ k ∈ timer, msgs = [] ∧ timerFits k sl = true
  owes : ∀ o ∈ owed, sl.clearSide? = some o.side ∧ ∃ m, flight = some m ∧ owedFits o m = true

/-- A slot's record, timer and owed item agree with the transmit queue. -/
def SlotAgrees (c : CallSide) (i : SlotId) : Prop := Fits (c.slots.at i) (c.timers.at i) (c.owed.at i) (c.ofSlot i) (c.flight i)

/-- The calls agree, line by line and slot by slot. -/
structure CallSide.Agrees (c : CallSide) : Prop where
  line : ∀ p, LineAgrees c p
  slot : ∀ i, SlotAgrees c i
  flies : c.flying = true → c.msgs ≠ []

/-! ## The agreement of the calls, said so -/

section
variable (s : State)

theorem callSide_line (p : Port) : s.callSide.lines.at p = ((s.lines.at p).state, (s.lines.at p).call) := Table.at_map ..

theorem callSide_slot (i : SlotId) : s.callSide.slots.at i = (s.slots.at i).core := Table.at_map ..

theorem callSide_timer (i : SlotId) : s.callSide.timers.at i = (s.sig.at i).timer.map (·.kind) := Table.at_map ..

theorem callSide_owed (i : SlotId) : s.callSide.owed.at i = (s.sig.at i).owed := Table.at_map ..

theorem holds_core (sl : Slot) : sl.core.holds? = sl.holds? := by cases sl <;> rfl
theorem party_core (sl : Slot) : sl.core.party? = sl.party? := by cases sl <;> rfl
theorem isHeld_core (sl : Slot) : sl.core.isHeld = sl.isHeld := by cases sl <;> rfl
theorem clearSide_core (sl : Slot) : sl.core.clearSide? = sl.clearSide? := by cases sl <;> rfl
theorem timerFits_core (k : TimerKind) (sl : Slot) : timerFits k sl.core = timerFits k sl := by
  cases sl with
  | clearing p tag side b => cases k <;> cases side <;> rfl
  | _ => cases k <;> rfl
theorem sendsIn_core (m : SlotMsg) (sl : Slot) : sendsIn m sl.core = sendsIn m sl := by
  unfold sendsIn
  rw [clearSide_core]

theorem holds_iff (sl : Slot) (k : Holding) (p : Port) (d : Direction) :
    sl.holds? = some (k, p, d) ↔ ∃ c ∈ sl.call?, c.line = p ∧ c.direction = d
      ∧ sl = match k with
        | .reserved => .reserved c sl.blockPending
        | .busy => .busy c sl.blockPending
        | .held => .held c sl.blockPending := by
  cases sl <;> cases k <;> simp [Slot.holds?, Slot.call?, Slot.blockPending]

theorem call_of_holds {sl : Slot} {v : Holding × Port × Direction} (h : sl.holds? = some v) :
    ∃ c, sl.call? = some c ∧ c.line = v.2.1 ∧ c.direction = v.2.2 := by
  cases sl <;> cases h <;> exact ⟨_, rfl, rfl, rfl⟩

theorem holds_of_call {sl : Slot} {c : Call} (h : sl.call? = some c) : ∃ k, sl.holds? = some (k, c.line, c.direction) := by
  cases sl <;> cases h <;> exact ⟨_, rfl⟩

theorem fits_core (m : Msg) (sl : Slot) : m.fits sl.core ↔ m.fits sl := by
  unfold Msg.fits
  rw [party_core, isHeld_core]
  simp only [sendsIn_core]

/-- A line agrees, said of the part. -/
theorem lineAgrees_iff (p : Port) : LineAgrees s.callSide p ↔
    (s.lines.at p).call.isSome = (s.lines.at p).state.holdsSlot
    ∧ (∀ x ∈ (s.lines.at p).call, (∀ d ∈ directionIn (s.lines.at p).state, x.2 = d)
        ∧ ∃ c ∈ (s.slots.at x.1).call?, c.line = p ∧ c.direction = x.2
          ∧ s.slots.at x.1 = slotHeldIn (s.lines.at p).state c (s.slots.at x.1).blockPending)
    ∧ (∀ i, ∀ c ∈ (s.slots.at i).call?, c.line = p → (s.lines.at p).call = some (i, c.direction))
    ∧ ((s.lines.at p).state = .test ↔ s.bus = .held p) ∧ (s.bus = .claimed p → (s.lines.at p).state.holdsSlot = true) := by
  have held (st : LineState) (c : Call) (b : Bool) : slotHeldIn st c b = match st.holding with
      | .reserved => .reserved c b
      | .busy => .busy c b
      | .held => .held c b := by
    cases st <;> rfl
  have bus : s.callSide.bus = s.bus := rfl
  refine ⟨fun ⟨names, slot, named, test, claimed⟩ => ?_, fun ⟨names, slot, named, test, claimed⟩ => ⟨?_, ?_, ?_, ?_, ?_⟩⟩
  · rw [callSide_line] at names slot named test claimed
    refine ⟨names, fun x hx => ?_, fun i c hc hp => ?_, test, claimed⟩
    · obtain ⟨dirs, holds⟩ := slot x hx
      rw [callSide_slot, holds_core] at holds
      refine ⟨dirs, ?_⟩
      simp only [held]
      exact (holds_iff _ _ _ _).mp holds
    · obtain ⟨k, holds⟩ := holds_of_call hc
      exact named i _ (by rw [callSide_slot, holds_core]; exact holds) hp
  · rw [callSide_line]
    exact names
  · rw [callSide_line]
    intro x hx
    obtain ⟨dirs, holds⟩ := slot x hx
    simp only [held] at holds
    rw [callSide_slot, holds_core]
    exact ⟨dirs, (holds_iff _ _ _ _).mpr holds⟩
  · rw [callSide_line]
    intro i v hv hp
    rw [callSide_slot, holds_core] at hv
    obtain ⟨c, call, line, direction⟩ := call_of_holds hv
    exact direction ▸ named i c call (line.trans hp)
  · rw [callSide_line]
    exact test
  · rw [callSide_line]
    exact claimed

/-- A slot agrees, said of the part. -/
theorem slotAgrees_iff (i : SlotId) : SlotAgrees s.callSide i ↔ Fits (s.slots.at i) ((s.sig.at i).timer.map (·.kind)) (s.sig.at i).owed
    (s.callSide.ofSlot i) (s.callSide.flight i) := by
  unfold SlotAgrees
  rw [callSide_slot, callSide_timer, callSide_owed]
  refine ⟨fun ⟨one, fits, waits, owes⟩ => ⟨one, fun m hm => (fits_core m _).mp (fits m hm), ?_, ?_⟩,
    fun ⟨one, fits, waits, owes⟩ => ⟨one, fun m hm => (fits_core m _).mpr (fits m hm), ?_, ?_⟩⟩
  · intro k hk
    rw [← timerFits_core]
    exact waits k hk
  · intro o ho
    rw [← clearSide_core]
    exact owes o ho
  · intro k hk
    rw [timerFits_core]
    exact waits k hk
  · intro o ho
    rw [clearSide_core]
    exact owes o ho

/-! ## The queue, said by slots -/

theorem entry_slot (e : Entry) : e.slot? = e.msg.slot? := rfl

theorem entry_sends (e : Entry) : e.slotMsg? = e.msg.sends? := rfl

theorem mem_ofSlot {c : CallSide} {i : SlotId} {m : Msg} : m ∈ c.ofSlot i ↔ m ∈ c.msgs ∧ m.slot? = some i := by
  unfold CallSide.ofSlot
  rw [List.mem_filter, decide_eq_true_iff]

theorem count_filterMap_slot (l : List Entry) (i : SlotId) :
    (l.filterMap Entry.slot?).count i = ((l.map (·.msg)).filter fun m => decide (m.slot? = some i)).length := by
  induction l with
  | nil => rfl
  | cons e l ih =>
    rw [List.map_cons, List.filterMap_cons, List.filter_cons, entry_slot]
    cases e.msg.slot? with
    | none => simpa using ih
    | some j =>
      dsimp only
      rw [List.count_cons, ih]
      by_cases h : j = i <;> simp [h]

/-- No two entries name one slot, said slot by slot. -/
theorem oneEntryEach_iff : OneEntryEach s ↔ ∀ i, (s.callSide.ofSlot i).length ≤ 1 := by
  unfold OneEntryEach
  rw [List.nodup_iff_count_le_one]
  exact forall_congr' fun i => by rw [count_filterMap_slot]; rfl

theorem entryFits_iff : (∀ e ∈ s.txq, EntryFits s e) ↔ ∀ i, ∀ m ∈ s.callSide.ofSlot i, m.fits (s.slots.at i) := by
  refine ⟨fun h i m hm => ?_, fun h e he i hi => ?_⟩
  · obtain ⟨hm, hi⟩ := mem_ofSlot.mp hm
    obtain ⟨e, he, rfl⟩ := List.mem_map.mp hm
    obtain ⟨party, unheld, sends⟩ := h e he i hi
    obtain ⟨msg, pinned⟩ := e
    cases msg with
    | ofNone m => exact nomatch hi
    | ofSlot j p tag m => exact ⟨party, unheld, sends m rfl⟩
  · have fits := h i e.msg (mem_ofSlot.mpr ⟨List.mem_map.mpr ⟨e, he, rfl⟩, hi⟩)
    obtain ⟨msg, pinned⟩ := e
    cases msg with
    | ofNone m => exact nomatch hi
    | ofSlot j p tag m =>
      refine ⟨fits.1, fits.2.1, ?_⟩
      rintro _ ⟨⟩
      exact fits.2.2

theorem hasEntry_iff {i : SlotId} : hasEntry s i = false ↔ s.callSide.ofSlot i = [] := by
  unfold hasEntry CallSide.ofSlot
  rw [List.any_eq_false, List.filter_eq_nil_iff]
  refine ⟨fun h m hm => ?_, fun h e he => h e.msg (List.mem_map.mpr ⟨e, he, rfl⟩)⟩
  obtain ⟨e, he, rfl⟩ := List.mem_map.mp hm
  exact h e he

/-- What of a slot is in flight, said of the part. -/
theorem flight_iff {i : SlotId} {m : SlotMsg} : s.callSide.flight i = some m
    ↔ s.inFlight.isSome = true ∧ ∃ e ∈ s.txq.head?, e.slot? = some i ∧ e.slotMsg? = some m := by
  unfold CallSide.flight State.callSide
  dsimp only
  split
  · next h =>
    cases s.txq with
    | nil => simp
    | cons e rest =>
      by_cases hi : e.msg.slot? = some i
      · simp [h, entry_slot, entry_sends, Option.filter, hi]
      · simp [h, entry_slot, Option.filter, hi]
  · next h => simp [h]

theorem flightSlot_iff {i : SlotId} : flightSlot s = some i ↔ s.inFlight.isSome = true ∧ ∃ e ∈ s.txq.head?, e.slot? = some i := by
  unfold flightSlot
  split
  · next h => simp [h, Option.bind_eq_some_iff]
  · next h => simp [h]

/-- What a slot owes waits behind an entry in flight. -/
theorem owes_iff {i : SlotId} {o : ClearOwed} :
    (flightSlot s = some i ∧ (s.slots.at i).clearSide? = some o.side ∧ ∀ m ∈ s.txq.head?.bind Entry.slotMsg?, owedFits o m = true)
      ↔ (s.slots.at i).clearSide? = some o.side ∧ ∃ m, s.callSide.flight i = some m ∧ owedFits o m = true := by
  rw [flightSlot_iff]
  simp only [flight_iff]
  constructor
  · rintro ⟨⟨flies, e, head, slot⟩, side, fits⟩
    have sends : ∃ m, e.slotMsg? = some m := by
      obtain ⟨msg, pinned⟩ := e
      cases msg with
      | ofNone m => exact nomatch slot
      | ofSlot j p tag m => exact ⟨m, rfl⟩
    obtain ⟨m, sends⟩ := sends
    exact ⟨side, m, ⟨flies, e, head, slot, sends⟩, fits m (Option.mem_bind_iff.mpr ⟨e, head, sends⟩)⟩
  · rintro ⟨side, m, ⟨flies, e, head, slot, sends⟩, fits⟩
    refine ⟨⟨flies, e, head, slot⟩, side, fun n hn => ?_⟩
    obtain ⟨e', head', sends'⟩ := Option.mem_bind_iff.mp hn
    cases Option.some.inj (head.symm.trans head')
    cases Option.some.inj (sends.symm.trans sends')
    exact fits

/-- The agreement of the calls, line by line and slot by slot. -/
theorem callsAgree_iff : CallsAgree s ↔ s.callSide.Agrees := by
  have flies : (s.callSide.flying = true → s.callSide.msgs ≠ []) ↔ (s.inFlight.isSome = true → s.txq ≠ []) := by
    unfold State.callSide
    simp
  constructor
  · rintro ⟨⟨names, slot, named⟩, ⟨one, flying, fits, waits, owes⟩, test, claimed⟩
    have one := (oneEntryEach_iff s).mp one
    have fits := (entryFits_iff s).mp fits
    refine ⟨fun p => (lineAgrees_iff s p).mpr ⟨names p, slot p, fun i c hc hp => hp ▸ named i c hc, test p, claimed p⟩,
      fun i => (slotAgrees_iff s i).mpr ⟨one i, fits i, fun k hk => ?_, fun o ho => (owes_iff s).mp (owes i o ho)⟩, flies.mpr flying⟩
    obtain ⟨t, ht, rfl⟩ := Option.mem_map.mp hk
    obtain ⟨none, kind⟩ := waits i t ht
    exact ⟨(hasEntry_iff s).mp none, kind⟩
  · rintro ⟨line, slot, flying⟩
    have line (p : Port) := (lineAgrees_iff s p).mp (line p)
    have slot (i : SlotId) := (slotAgrees_iff s i).mp (slot i)
    refine ⟨⟨fun p => (line p).1, fun p => (line p).2.1, fun i c hc => (line c.line).2.2.1 i c hc rfl⟩,
      ⟨(oneEntryEach_iff s).mpr fun i => (slot i).one, flies.mp flying, (entryFits_iff s).mpr fun i => (slot i).fits, fun i t ht => ?_,
        fun i o ho => (owes_iff s).mpr ((slot i).owes o ho)⟩, fun p => (line p).2.2.2.1, fun p => (line p).2.2.2.2⟩
    obtain ⟨none, kind⟩ := (slot i).waits t.kind (Option.mem_map.mpr ⟨t, ht, rfl⟩)
    exact ⟨(hasEntry_iff s).mpr none, kind⟩

end

end Sys2Proof.Machine
end

