-- ==== Sys2Proof/Proofs/CallSteps.lean ====
section
/-! PROOF. The operations on what the agreement of the calls speaks of: what each writes, and what it leaves to the other lines and
slots (O60). -/

namespace Sys2Proof.Machine

/-! ## Operations on what the agreement speaks of -/

/-- A message of a slot replaced by another in its place. -/
def Msg.sending (sm : SlotMsg) : Msg → Msg
  | .ofSlot i p tag _ => .ofSlot i p tag sm
  | .ofNone m => .ofNone m

namespace CallSide

/-- A line's state and call written. -/
def setLine (p : Port) (l : LineState × Option (SlotId × Direction)) (c : CallSide) : CallSide := { c with lines := c.lines.put p l }

/-- The test bus written. -/
def setBus (b : TestBus) (c : CallSide) : CallSide := { c with bus := b }

/-- A slot record written. -/
def setSlot (i : SlotId) (sl : Slot) (c : CallSide) : CallSide := { c with slots := c.slots.put i sl }

/-- A slot's timer and owed item written. -/
def setSig (i : SlotId) (timer : Option TimerKind) (owed : Option ClearOwed) (c : CallSide) : CallSide :=
  { c with timers := c.timers.put i timer, owed := c.owed.put i owed }

/-- The messages of a slot removed, with what of it is in flight. -/
def drop (i : SlotId) (c : CallSide) : CallSide :=
  { c with msgs := c.msgs.filter fun m => decide (m.slot? ≠ some i), flying := c.flying && (c.flight i).isNone }

/-- The messages of a slot replaced in their places. -/
def convert (i : SlotId) (sm : SlotMsg) (c : CallSide) : CallSide :=
  { c with msgs := c.msgs.map fun m => if m.slot? = some i then m.sending sm else m }

/-- How many messages are in flight. -/
def flightCount (c : CallSide) : Nat := if c.flying = true then 1 else 0

/-- A message that joins behind what is in flight, or at the tail. -/
def add (first : Bool) (m : Msg) (c : CallSide) : CallSide :=
  { c with msgs := if first then c.msgs.take c.flightCount ++ m :: c.msgs.drop c.flightCount else c.msgs ++ [m] }

end CallSide

/-! ## What an operation leaves to the other slots -/

/-- Everything that the other slots' agreement speaks of is the same. -/
structure SameOff (i : SlotId) (c d : CallSide) : Prop where
  slots : ∀ j, j ≠ i → d.slots.at j = c.slots.at j
  timers : ∀ j, j ≠ i → d.timers.at j = c.timers.at j
  owed : ∀ j, j ≠ i → d.owed.at j = c.owed.at j
  msgs : ∀ j, j ≠ i → d.ofSlot j = c.ofSlot j
  flight : ∀ j, j ≠ i → d.flight j = c.flight j

namespace SameOff
variable {i j : SlotId} {c d e : CallSide}

theorem refl : SameOff i c c := ⟨fun _ _ => rfl, fun _ _ => rfl, fun _ _ => rfl, fun _ _ => rfl, fun _ _ => rfl⟩

theorem trans (h : SameOff i c d) (h' : SameOff i d e) : SameOff i c e where
  slots j hj := (h'.slots j hj).trans (h.slots j hj)
  timers j hj := (h'.timers j hj).trans (h.timers j hj)
  owed j hj := (h'.owed j hj).trans (h.owed j hj)
  msgs j hj := (h'.msgs j hj).trans (h.msgs j hj)
  flight j hj := (h'.flight j hj).trans (h.flight j hj)

theorem agrees (h : SameOff i c d) (hj : j ≠ i) (ha : SlotAgrees c j) : SlotAgrees d j := by
  unfold SlotAgrees
  rw [h.slots j hj, h.timers j hj, h.owed j hj, h.msgs j hj, h.flight j hj]
  exact ha

theorem setSlot (sl : Slot) : SameOff i c (c.setSlot i sl) :=
  ⟨fun _ hj => Table.at_put_other _ _ hj, fun _ _ => rfl, fun _ _ => rfl, fun _ _ => rfl, fun _ _ => rfl⟩

theorem setSig (t : Option TimerKind) (o : Option ClearOwed) : SameOff i c (c.setSig i t o) :=
  ⟨fun _ _ => rfl, fun _ hj => Table.at_put_other _ _ hj, fun _ hj => Table.at_put_other _ _ hj, fun _ _ => rfl, fun _ _ => rfl⟩

end SameOff

/-! ## Messages removed, replaced and added -/

section
variable {i : SlotId} {c : CallSide}

theorem flight_eq {m : SlotMsg} : c.flight i = some m ↔ c.flying = true ∧ ∃ x ∈ c.msgs.head?, x.slot? = some i ∧ x.sends? = some m := by
  unfold CallSide.flight
  split
  · next h =>
    cases c.msgs with
    | nil => simp
    | cons x rest =>
      by_cases hi : x.slot? = some i
      · simp [h, Option.filter, hi]
      · simp [h, Option.filter, hi]
  · next h => simp [h]

theorem sends_of_slot {m : Msg} (h : m.slot? = some i) : ∃ sm, m.sends? = some sm := by
  cases m with
  | ofNone m => exact nomatch h
  | ofSlot j p tag sm => exact ⟨sm, rfl⟩

theorem flight_none (h : c.flying = false) : c.flight i = none := by
  unfold CallSide.flight
  rw [h]
  rfl

/-- What is in flight is of the slot that the head of the queue names. -/
theorem flight_isSome : (c.flight i).isSome = true ↔ c.flying = true ∧ ∃ x ∈ c.msgs.head?, x.slot? = some i := by
  rw [Option.isSome_iff_exists]
  simp only [flight_eq]
  constructor
  · rintro ⟨m, flies, x, head, slot, -⟩
    exact ⟨flies, x, head, slot⟩
  · rintro ⟨flies, x, head, slot⟩
    obtain ⟨sm, sends⟩ := sends_of_slot slot
    exact ⟨sm, flies, x, head, slot, sends⟩

/-- Two queues with the same head in flight have the same in flight. -/
theorem flight_congr {d : CallSide} (hf : d.flying = c.flying) (hh : c.flying = true → d.msgs.head? = c.msgs.head?) : d.flight i = c.flight i := by
  unfold CallSide.flight
  rw [hf]
  split
  · next h => rw [hh h]
  · rfl

theorem drop_ofSlot : (c.drop i).ofSlot i = [] := by
  unfold CallSide.ofSlot CallSide.drop
  simp [List.filter_eq_nil_iff]

/-- The head of the queue stays where it is in flight and not of the slot. -/
theorem drop_head {x : Msg} (hx : c.msgs.head? = some x) (hi : x.slot? ≠ some i) : (c.drop i).msgs.head? = some x := by
  unfold CallSide.drop
  cases hm : c.msgs with
  | nil => rw [hm] at hx; exact nomatch hx
  | cons y rest =>
    rw [hm] at hx
    cases hx
    dsimp only
    rw [List.filter_cons_of_pos (by simpa using hi)]
    rfl

theorem SameOff.drop : SameOff i c (c.drop i) := by
  refine ⟨fun _ _ => rfl, fun _ _ => rfl, fun _ _ => rfl, fun j hj => ?_, fun j hj => ?_⟩
  · unfold CallSide.ofSlot CallSide.drop
    rw [List.filter_filter]
    refine List.filter_congr fun m _ => ?_
    by_cases h : m.slot? = some j
    · simp [h, hj]
    · simp [h]
  · by_cases hf : (c.flight i).isSome = true
    · obtain ⟨flies, x, head, slot⟩ := flight_isSome.mp hf
      have stops : (c.drop i).flying = false := by
        unfold CallSide.drop
        cases hh : c.flight i with
        | none => rw [hh] at hf; exact nomatch hf
        | some m => simp
      rw [flight_none stops]
      refine (Option.not_isSome_iff_eq_none.mp fun y => ?_).symm
      obtain ⟨-, x', head', slot'⟩ := flight_isSome.mp y
      cases Option.some.inj (head.symm.trans head')
      exact hj (Option.some.inj (slot'.symm.trans slot))
    · have none : (c.flight i).isNone = true := by simpa using hf
      have flying : (c.drop i).flying = c.flying := by
        unfold CallSide.drop
        rw [none, Bool.and_true]
      refine flight_congr flying fun flies => ?_
      cases hm : c.msgs.head? with
      | none =>
        rw [List.head?_eq_none_iff] at hm
        unfold CallSide.drop
        rw [hm]
        rfl
      | some x => exact drop_head hm fun slot => hf (flight_isSome.mpr ⟨flies, x, hm, slot⟩)

theorem drop_flies (h : c.flying = true → c.msgs ≠ []) : (c.drop i).flying = true → (c.drop i).msgs ≠ [] := by
  intro flying
  have both : c.flying = true ∧ (c.flight i).isNone = true := by
    unfold CallSide.drop at flying
    exact Bool.and_eq_true_iff.mp flying
  obtain ⟨flies, none⟩ := both
  obtain ⟨x, rest, hm⟩ := List.exists_cons_of_ne_nil (h flies)
  have head : c.msgs.head? = some x := by rw [hm]; rfl
  have kept := drop_head (c := c) (i := i) head fun slot => by
    have some := flight_isSome.mpr ⟨flies, x, head, slot⟩
    rw [Option.isNone_iff_eq_none] at none
    rw [none] at some
    exact nomatch some
  intro empty
  rw [empty] at kept
  exact nomatch kept

theorem sending_slot (sm : SlotMsg) (m : Msg) : (m.sending sm).slot? = m.slot? := by cases m <;> rfl

theorem converted_slot (sm : SlotMsg) (m : Msg) : (if m.slot? = some i then m.sending sm else m).slot? = m.slot? := by
  split
  · exact sending_slot sm m
  · rfl

theorem convert_ofSlot (sm : SlotMsg) : (c.convert i sm).ofSlot i = (c.ofSlot i).map (Msg.sending sm) := by
  unfold CallSide.ofSlot CallSide.convert
  dsimp only
  rw [List.filter_map]
  have same : (fun m : Msg => decide (m.slot? = some i)) ∘ (fun m => if m.slot? = some i then m.sending sm else m)
      = fun m => decide (m.slot? = some i) := by
    funext m
    rw [Function.comp_apply, decide_eq_decide, converted_slot]
  rw [same]
  exact List.map_congr_left fun m hm => if_pos (of_decide_eq_true (List.mem_filter.mp hm).2)

theorem SameOff.convert (sm : SlotMsg) : SameOff i c (c.convert i sm) := by
  refine ⟨fun _ _ => rfl, fun _ _ => rfl, fun _ _ => rfl, fun j hj => ?_, fun j hj => ?_⟩
  · unfold CallSide.ofSlot CallSide.convert
    dsimp only
    rw [List.filter_map]
    have same : (fun m : Msg => decide (m.slot? = some j)) ∘ (fun m => if m.slot? = some i then m.sending sm else m)
        = fun m => decide (m.slot? = some j) := by
      funext m
      rw [Function.comp_apply, decide_eq_decide, converted_slot]
    rw [same]
    refine (List.map_congr_left fun m hm => if_neg fun h => ?_).trans (List.map_id _)
    exact hj (Option.some.inj ((of_decide_eq_true (List.mem_filter.mp hm).2).symm.trans h))
  · refine Option.ext fun m => ?_
    rw [flight_eq, flight_eq]
    refine and_congr_right fun _ => ?_
    unfold CallSide.convert
    dsimp only
    rw [List.head?_map]
    cases c.msgs.head? with
    | none => simp
    | some x =>
      by_cases hi : x.slot? = some i
      · have other : ¬ i = j := fun h => hj h.symm
        simp [hi, sending_slot, other]
      · simp [hi]

theorem convert_flies (sm : SlotMsg) (h : c.flying = true → c.msgs ≠ []) : (c.convert i sm).flying = true → (c.convert i sm).msgs ≠ [] := by
  intro flying
  unfold CallSide.convert
  simpa using h flying

/-! ## A message made -/

theorem add_ofSlot (first : Bool) (m : Msg) (j : SlotId) (hm : m.slot? = some j → c.ofSlot j = []) :
    (c.add first m).ofSlot j = if m.slot? = some j then [m] else c.ofSlot j := by
  have parts : (c.msgs.take c.flightCount).filter (fun m => decide (m.slot? = some j))
      ++ (c.msgs.drop c.flightCount).filter (fun m => decide (m.slot? = some j)) = c.ofSlot j := by
    unfold CallSide.ofSlot
    rw [← List.filter_append, List.take_append_drop]
  by_cases slot : m.slot? = some j
  · have empty := hm slot
    rw [if_pos slot]
    rw [empty, List.append_eq_nil_iff] at parts
    unfold CallSide.ofSlot CallSide.add at *
    cases first
    · simp [slot, empty]
    · simp [slot, parts.1, parts.2]
  · rw [if_neg slot, ← parts]
    unfold CallSide.ofSlot CallSide.add at *
    cases first
    · rw [parts]
      simp [slot]
    · simp [slot]

theorem add_flight (first : Bool) (m : Msg) (j : SlotId) (hf : c.flying = true → c.msgs ≠ []) : (c.add first m).flight j = c.flight j := by
  refine flight_congr rfl fun flies => ?_
  obtain ⟨x, rest, hm⟩ := List.exists_cons_of_ne_nil (hf flies)
  unfold CallSide.add CallSide.flightCount
  rw [flies, hm]
  cases first <;> rfl

theorem add_flies (first : Bool) (m : Msg) : (c.add first m).msgs ≠ [] := by
  unfold CallSide.add
  cases first <;> simp

theorem SameOff.add (first : Bool) {m : Msg} (hm : m.slot? = some i ∨ m.slot? = none) (hf : c.flying = true → c.msgs ≠ []) :
    SameOff i c (c.add first m) := by
  refine ⟨fun _ _ => rfl, fun _ _ => rfl, fun _ _ => rfl, fun j hj => ?_, fun j _ => add_flight first m j hf⟩
  have other : m.slot? ≠ some j := by
    rcases hm with hm | hm <;> rw [hm]
    · exact fun h => hj (Option.some.inj h).symm
    · exact fun h => nomatch h
  rw [add_ofSlot first m j fun h => absurd h other, if_neg other]

end

/-! ## The agreement after an operation on one line and one slot -/

section
variable {c d : CallSide} {p : Port} {i : SlotId}

/-- What a line that an operation does not touch agrees with. -/
theorem LineAgrees.of_other {q : Port} (h : LineAgrees c q) (hq : q ≠ p) (hl : d.lines.at q = c.lines.at q)
    (hs : ∀ j, j ≠ i → d.slots.at j = c.slots.at j) (before : ∀ v ∈ (c.slots.at i).holds?, v.2.1 = p)
    (after : ∀ v ∈ (d.slots.at i).holds?, v.2.1 = p) (hheld : d.bus = .held q ↔ c.bus = .held q)
    (hclaimed : d.bus = .claimed q → c.bus = .claimed q) : LineAgrees d q := by
  obtain ⟨names, slot, named, held, claimed⟩ := h
  refine ⟨by rw [hl]; exact names, fun x hx => ?_, fun j v hv hvq => ?_, by rw [hl, hheld]; exact held, fun x => by rw [hl]; exact claimed (hclaimed x)⟩
  · rw [hl] at hx ⊢
    obtain ⟨dirs, holds⟩ := slot x hx
    have other : x.1 ≠ i := fun hx => hq (before _ (hx ▸ holds))
    exact ⟨dirs, by rw [hs _ other]; exact holds⟩
  · have other : j ≠ i := fun hj => hq (hvq.symm.trans (after v (hj ▸ hv)))
    rw [hl]
    exact named j v (by rw [← hs j other]; exact hv) hvq

end

end Sys2Proof.Machine
end

