-- ==== Sys2Proof/Proofs/CallOps.lean ====
section
/-! PROOF. What each operation of the model writes of what the agreement of the calls speaks of, said as an equation (O60). -/

namespace Sys2Proof.Machine

theorem Table.map_put {n : Nat} {α β : Type} (f : α → β) (t : Table n α) (i : Fin n) (a : α) :
    (t.put i a).map f = Table.put (t.map f) i (f a) := Vector.map_set ..

/-- The agreement of the calls looks at six fields. -/
theorem callSide_congr {s t : State} (hl : t.lines = s.lines) (hs : t.slots = s.slots) (hg : t.sig = s.sig) (hq : t.txq = s.txq)
    (hf : t.inFlight = s.inFlight) (hb : t.bus = s.bus) : t.callSide = s.callSide := by
  unfold State.callSide
  rw [hl, hs, hg, hq, hf, hb]

theorem callSide_of_port {s t : State} (h : t.apartFromPort = s.apartFromPort) : t.callSide = s.callSide :=
  callSide_congr (congrArg State.lines h :) (congrArg State.slots h :) (congrArg State.sig h :) (congrArg State.txq h :)
    (congrArg State.inFlight h :) (congrArg State.bus h :)

/-- What looks at the same of two states agrees in both. -/
theorem CallsAgree.congr {s t : State} (h : t.callSide = s.callSide) (hs : CallsAgree s) : CallsAgree t := by
  rw [callsAgree_iff, h]
  exact (callsAgree_iff s).mp hs

/-! ## Operations that write nothing of it -/

section
variable (s : State)

@[simp] theorem serve_callSide : (serve s).callSide = s.callSide := callSide_of_port (serve_port s)
@[simp] theorem report_callSide (r : Report) : (report r s).callSide = s.callSide := callSide_of_port (report_port r s)
@[simp] theorem callEvent_callSide (p : Port) (st : LineState) (r : Reason) : (callEvent p st r s).callSide = s.callSide :=
  report_callSide s _
@[simp] theorem noteEvent_callSide (p : Port) (n : Note) : (noteEvent p n s).callSide = s.callSide := report_callSide s _
@[simp] theorem linkEvent_callSide : (linkEvent s).callSide = s.callSide := report_callSide s _
@[simp] theorem setPort_callSide (p : Port) (r : PortRole) : (setPort p r s).callSide = s.callSide := rfl
@[simp] theorem setScan_callSide (p : Port) (c : Scanner) : (setScan p c s).callSide = s.callSide := rfl
@[simp] theorem setBuffer_callSide (p : Port) (b : DigitBuffer) : (setBuffer p b s).callSide = s.callSide := rfl
@[simp] theorem emptyBuffer_callSide (p : Port) : (emptyBuffer p s).callSide = s.callSide := rfl
@[simp] theorem setGroup_callSide (g : GroupId) (r : Group) : (setGroup g r s).callSide = s.callSide := rfl
@[simp] theorem setHookPin_callSide (p : Port) (b : Bool) : (setHookPin p b s).callSide = s.callSide := rfl
@[simp] theorem setFaultPin_callSide (p : Port) (b : Bool) : (setFaultPin p b s).callSide = s.callSide := rfl
@[simp] theorem setAlarms_callSide (a : List Alarm) : (setAlarms a s).callSide = s.callSide := rfl
@[simp] theorem setWaitQueue_callSide (q : List Port) : (setWaitQueue q s).callSide = s.callSide := rfl
@[simp] theorem setRingQueue_callSide (q : List Port) : (setRingQueue q s).callSide = s.callSide := rfl
@[simp] theorem setCell_callSide (k : Fin 6) (c : List Placed) : (setCell k c s).callSide = s.callSide := rfl
@[simp] theorem setMode_callSide (m : Mode) : (setMode m s).callSide = s.callSide := rfl
@[simp] theorem setLink_callSide (l : LinkState) : (setLink l s).callSide = s.callSide := rfl
@[simp] theorem setFree_callSide (f : List SlotId) : (setFree f s).callSide = s.callSide := rfl
@[simp] theorem setMark_callSide (m : Option SlotId) : (setMark m s).callSide = s.callSide := rfl
@[simp] theorem clearMarkOf_callSide (i : SlotId) : (clearMarkOf i s).callSide = s.callSide := rfl
@[simp] theorem leaveRing_callSide (p : Port) : (leaveRing p s).callSide = s.callSide := rfl
@[simp] theorem emptyRing_callSide : (emptyRing s).callSide = s.callSide := rfl

@[simp] theorem beginCondition_callSide (a : AlarmId) : (beginCondition a s).callSide = s.callSide := by
  unfold beginCondition markAlarm
  split
  · simp
  · split <;> simp

@[simp] theorem endCondition_callSide (a : AlarmId) : (endCondition a s).callSide = s.callSide := by
  unfold endCondition markAlarm
  split
  · split <;> simp
  · rfl

@[simp] theorem clearRuns_callSide (g : GroupId) : (clearRuns g s).callSide = s.callSide := 
  inTurn_keeps State.callSide (fun p t => setScan p (t.scan.at p).runsCleared t) (fun _ _ => rfl) _ s

@[simp] theorem enterStandby_callSide (g : GroupId) (c : GroupCause) : (enterStandby g c s).callSide = s.callSide := by
  unfold enterStandby
  simp

@[simp] theorem enterWaking_callSide (g : GroupId) (c : GroupCause) : (enterWaking g c s).callSide = s.callSide := by
  unfold enterWaking
  simp

@[simp] theorem groupIdle_callSide (g : GroupId) : (groupIdle g s).callSide = s.callSide := by
  unfold groupIdle
  split <;> simp

@[simp] theorem placeIn_callSide (k : Fin 6) (p : Port) : (placeIn k p s).callSide = s.callSide := by
  unfold placeIn advancePlacement
  split <;> rfl

@[simp] theorem handOn_callSide (p : Port) : (handOn p s).callSide = s.callSide := by
  unfold handOn
  split <;> simp

@[simp] theorem scanOne_callSide (p : Port) : (scanOne p s).callSide = s.callSide := by
  unfold scanOne
  split <;> simp

@[simp] theorem scanRing_callSide : (scanRing s).callSide = s.callSide := inTurn_keeps State.callSide scanOne (fun p t => scanOne_callSide t p) _ s

@[simp] theorem setNextTag_callSide (n : Nat) : (setNextTag n s).callSide = s.callSide := rfl

theorem core_withOrder (f : Nat → Nat) (sl : Slot) : (sl.withOrder f).core = sl.core := by cases sl <;> rfl

@[simp] theorem advanceOrder_callSide : (advanceOrder s).callSide = s.callSide := by
  unfold advanceOrder
  split
  · rfl
  · unfold State.callSide setNextOrder
    simp only [Vector.map_map]
    congr 2
    exact funext fun sl => core_withOrder _ sl

end

/-! ## Operations that write something of it -/

section
variable (s : State)

@[simp] theorem setLine_callSide (p : Port) (l : Line) : (setLine p l s).callSide = s.callSide.setLine p l.side := by
  unfold State.callSide setLine CallSide.setLine
  dsimp only
  rw [Table.map_put]

@[simp] theorem setBus_callSide (b : TestBus) : (setBus b s).callSide = s.callSide.setBus b := rfl

@[simp] theorem setSlot_callSide (i : SlotId) (sl : Slot) : (setSlot i sl s).callSide = s.callSide.setSlot i sl.core := by
  unfold State.callSide setSlot CallSide.setSlot
  dsimp only
  rw [Table.map_put]

@[simp] theorem setSig_callSide (i : SlotId) (g : Sig) :
    (setSig i g s).callSide = s.callSide.setSig i (g.timer.map (·.kind)) g.owed := by
  unfold State.callSide setSig CallSide.setSig
  dsimp only
  rw [Table.map_put, Table.map_put]

/-- A line record that writes neither the state nor the call. -/
theorem CallSide.setLine_self (c : CallSide) (p : Port) : c.setLine p (c.lines.at p) = c := by
  unfold CallSide.setLine
  rw [Table.put_at]

theorem setLine_callSide_self (p : Port) (l : Line) (h : l.side = (s.lines.at p).side) : (setLine p l s).callSide = s.callSide := by
  rw [setLine_callSide, h]
  have same : (s.lines.at p).side = s.callSide.lines.at p := (callSide_line s p).symm
  rw [same, CallSide.setLine_self]

@[simp] theorem moveLine_callSide (p : Port) (st : LineState) (call : Option (SlotId × Direction)) (timer : Option Nat) :
    (moveLine p st call timer s).callSide = s.callSide.setLine p (st, call) := by
  unfold moveLine
  dsimp only
  repeat' split
  all_goals simp [Line.side, Line.moved]

@[simp] theorem grantBus_callSide (p : Port) (g : Grant) :
    (grantBus p g s).callSide = (s.callSide.setLine p (.test, none)).setBus (.held p) := by
  unfold grantBus
  simp

theorem enterLine_callSide (p : Port) (st : LineState) (call : Option (SlotId × Direction)) (timer : Option Nat) (r : Reason) :
    (enterLine p st call timer r s).callSide
      = if st.endsCall ∧ s.bus = .claimed p then (s.callSide.setLine p (.test, none)).setBus (.held p) else s.callSide.setLine p (st, call) := by
  unfold enterLine
  split
  · simp
  · dsimp only
    split <;> simp

@[simp] theorem addEntry_callSide (u : Bool) (m : Msg) : ∃ first, (addEntry u m s).callSide = s.callSide.add first m := by
  unfold addEntry
  dsimp only
  split
  · refine ⟨true, ?_⟩
    have pins (l : List Entry) : (l.map Entry.pin).map (·.msg) = l.map (·.msg) := by rw [List.map_map]; rfl
    unfold State.callSide setTxq CallSide.add CallSide.flightCount queuedEntries flightCount
    simp only [List.map_append, List.map_cons, pins, List.map_take, List.map_drop, if_true]
  · refine ⟨false, ?_⟩
    unfold State.callSide setTxq CallSide.add
    simp

theorem flightSlot_flight (i : SlotId) : flightSlot s = some i ↔ (s.callSide.flight i).isSome = true := by
  rw [flightSlot_iff, flight_isSome]
  unfold State.callSide
  simp [entry_slot]

@[simp] theorem removeEntries_callSide (i : SlotId) : (removeEntries i s).callSide = s.callSide.drop i := by
  have msgs : (s.txq.filter fun e => decide (e.slot? ≠ some i)).map (·.msg)
      = (s.txq.map (·.msg)).filter fun m => decide (m.slot? ≠ some i) := by
    rw [List.filter_map]
    rfl
  have flying : (if flightSlot s = some i then none else s.inFlight).isSome = (s.inFlight.isSome && (s.callSide.flight i).isNone) := by
    by_cases h : flightSlot s = some i
    · rw [if_pos h]
      have some := (flightSlot_flight s i).mp h
      cases hf : s.callSide.flight i with
      | none => rw [hf] at some; exact nomatch some
      | some m => simp
    · rw [if_neg h]
      have none := fun x => h ((flightSlot_flight s i).mpr x)
      cases hf : s.callSide.flight i with
      | none => simp
      | some m => rw [hf] at none; exact absurd rfl none
  unfold removeEntries State.callSide CallSide.drop
  dsimp only
  rw [msgs, flying]
  rfl

@[simp] theorem convertEntry_callSide (i : SlotId) (m : SlotMsg) : (convertEntry i m s).callSide = s.callSide.convert i m := by
  unfold convertEntry setTxq State.callSide CallSide.convert
  dsimp only
  rw [List.map_map, List.map_map]
  congr 1
  refine List.map_congr_left fun e _ => ?_
  obtain ⟨msg, pinned⟩ := e
  cases msg with
  | ofNone m => rfl
  | ofSlot j p tag sm =>
    by_cases h : j = i <;> simp [Entry.slot?, Msg.slot?, Entry.withSlotMsg, Msg.sending, h]

theorem addSlotEntry_callSide {i : SlotId} {p : Port} {tag : Nat} (u : Bool) (m : SlotMsg) (h : (s.slots.at i).party? = some (p, tag)) :
    ∃ first, (addSlotEntry u i m s).callSide = s.callSide.add first (.ofSlot i p tag m) := by
  unfold addSlotEntry
  rw [h]
  exact addEntry_callSide s u _

theorem addFreeEntry_callSide (m : FreeMsg) : (addFreeEntry m s).callSide = s.callSide ∨ ∃ first, (addFreeEntry m s).callSide = s.callSide.add first (.ofNone m) := by
  unfold addFreeEntry
  split
  · exact .inr (addEntry_callSide s _ _)
  · exact .inl rfl

theorem makeRestart_callSide : (makeRestart s).callSide = s.callSide ∨ ∃ first, (makeRestart s).callSide = s.callSide.add first (.ofNone .restart) := by
  unfold makeRestart
  split
  · exact .inr (addEntry_callSide s false (.ofNone .restart))
  · exact .inl rfl

/-- The record of a slot that is freed. -/
def freedSlot (b : Bool) : Slot := if b then .blocked .cabinet else .free

theorem freeSlot_callSide (i : SlotId) (h : (s.slots.at i).inUse = true) :
    (freeSlot i s).callSide = (s.callSide.setSig i none none).setSlot i (freedSlot (s.slots.at i).blockPending) := by
  unfold freeSlot freedSlot
  rw [if_pos h]
  dsimp only
  split <;> simp [Sig.cleared, Slot.core]

theorem reserve_callSide (i : SlotId) (p : Port) (d : Direction) :
    (reserve i p d s).callSide = (s.callSide.setSlot i (.reserved { newCall s p d with order := 0 } false)).setSig i none none := by
  unfold reserve
  simp [Sig.cleared, Slot.core, newCall]

theorem hasEntry_ofSlot (i : SlotId) : hasEntry s i = true ↔ s.callSide.ofSlot i ≠ [] := by
  rw [← not_iff_not, Bool.not_eq_true, hasEntry_iff, not_not]

end

end Sys2Proof.Machine
end

