-- ==== Sys2Proof/Proofs/CallSlots.lean ====
section
/-! PROOF. What the operations of a slot leave: the slot agrees with its messages again, and nothing of another slot is touched (O60). -/

namespace Sys2Proof.Machine

/-! ## One slot written -/

/-- One slot is written with its messages, agrees with them afterwards, and the lines and the bus stand. -/
structure SlotStep (i : SlotId) (c d : CallSide) : Prop where
  lines : d.lines = c.lines
  bus : d.bus = c.bus
  off : SameOff i c d
  slot : SlotAgrees d i
  flies : d.flying = true → d.msgs ≠ []

section
variable {i : SlotId} {c d e : CallSide}

theorem SlotStep.refl (hi : SlotAgrees c i) (hf : c.flying = true → c.msgs ≠ []) : SlotStep i c c := ⟨rfl, rfl, .refl, hi, hf⟩

theorem SlotStep.trans (h : SlotStep i c d) (h' : SlotStep i d e) : SlotStep i c e :=
  ⟨h'.lines.trans h.lines, h'.bus.trans h.bus, h.off.trans h'.off, h'.slot, h'.flies⟩

/-- A slot with no message, timer or owed item agrees, whatever its record. -/
theorem Fits.idle (sl : Slot) (flight : Option SlotMsg) : Fits sl none none [] flight :=
  ⟨Nat.zero_le 1, fun _ h => (nomatch h), fun _ h => (nomatch h), fun _ h => (nomatch h)⟩

/-- A slot with one message that fits it, and no timer or owed item, agrees. -/
theorem Fits.sending {sl : Slot} {m : Msg} (h : m.fits sl) (flight : Option SlotMsg) : Fits sl none none [m] flight :=
  ⟨Nat.le_refl 1, fun x hx => by rw [List.mem_singleton.mp hx]; exact h, fun _ h => (nomatch h), fun _ h => (nomatch h)⟩

theorem flight_mem {m : SlotMsg} (h : c.flight i = some m) : ∃ x ∈ c.ofSlot i, x.sends? = some m := by
  obtain ⟨-, x, head, slot, sends⟩ := flight_eq.mp h
  exact ⟨x, mem_ofSlot.mpr ⟨List.mem_of_mem_head? head, slot⟩, sends⟩

theorem flight_of_nil (h : c.ofSlot i = []) : c.flight i = none := by
  cases hf : c.flight i with
  | none => rfl
  | some m =>
    obtain ⟨x, hx, -⟩ := flight_mem hf
    rw [h] at hx
    exact nomatch hx

theorem SlotAgrees.flies_of_timer {k : TimerKind} (h : SlotAgrees c i) (hk : c.timers.at i = some k) : c.ofSlot i = [] := (h.waits k hk).1

/-- Nothing is owed by a slot of which nothing is in flight. -/
theorem SlotAgrees.owes_nothing (h : SlotAgrees c i) (hf : c.flight i = none) : c.owed.at i = none := by
  cases ho : c.owed.at i with
  | none => rfl
  | some o =>
    obtain ⟨-, m, flight, -⟩ := h.owes o ho
    rw [hf] at flight
    exact nomatch flight

/-- Nothing is owed by a slot that is not in CLEARING. -/
theorem SlotAgrees.owes_only_clearing (h : SlotAgrees c i) (hs : (c.slots.at i).clearSide? = none) : c.owed.at i = none := by
  cases ho : c.owed.at i with
  | none => rfl
  | some o =>
    have side := (h.owes o ho).1
    rw [hs] at side
    exact nomatch side

/-- A slot with no party has no message. -/
theorem SlotAgrees.no_msgs (h : SlotAgrees c i) (hp : (c.slots.at i).party? = none ∨ (c.slots.at i).isHeld = true) : c.ofSlot i = [] := by
  rw [List.eq_nil_iff_forall_not_mem]
  intro m hm
  have slot := (mem_ofSlot.mp hm).2
  have fits := h.fits m hm
  cases m with
  | ofNone m => exact nomatch slot
  | ofSlot j p tag sm =>
    obtain ⟨party, held, -⟩ := fits
    rcases hp with hp | hp
    · rw [hp] at party; exact nomatch party
    · rw [hp] at held; exact nomatch held

theorem setSlot_agrees (sl : Slot) (h : Fits sl (c.timers.at i) (c.owed.at i) (c.ofSlot i) (c.flight i)) : SlotAgrees (c.setSlot i sl) i := by
  unfold SlotAgrees
  have put : (c.setSlot i sl).slots.at i = sl := Table.at_put_same ..
  rw [put]
  exact h

theorem setSig_agrees (t : Option TimerKind) (o : Option ClearOwed) (h : Fits (c.slots.at i) t o (c.ofSlot i) (c.flight i)) :
    SlotAgrees (c.setSig i t o) i := by
  unfold SlotAgrees
  have timer : (c.setSig i t o).timers.at i = t := Table.at_put_same ..
  have owed : (c.setSig i t o).owed.at i = o := Table.at_put_same ..
  rw [timer, owed]
  exact h

/-- The record of a slot is written. -/
theorem SlotStep.record (sl : Slot) (h : Fits sl (c.timers.at i) (c.owed.at i) (c.ofSlot i) (c.flight i)) (hf : c.flying = true → c.msgs ≠ []) :
    SlotStep i c (c.setSlot i sl) := ⟨rfl, rfl, .setSlot sl, setSlot_agrees sl h, hf⟩

/-- The record of a slot is written and its timer and owed item are cleared, with no message of it left. -/
theorem SlotStep.cleared (sl : Slot) (hm : c.ofSlot i = []) (hf : c.flying = true → c.msgs ≠ []) :
    SlotStep i c ((c.setSig i none none).setSlot i sl) := by
  refine ⟨rfl, rfl, (SameOff.setSig none none).trans (SameOff.setSlot sl), setSlot_agrees sl ?_, hf⟩
  have timer : (c.setSig i none none).timers.at i = none := Table.at_put_same ..
  have owed : (c.setSig i none none).owed.at i = none := Table.at_put_same ..
  have msgs : (c.setSig i none none).ofSlot i = [] := hm
  rw [timer, owed, msgs]
  exact .idle _ _

/-- A message is made for a slot with none, no timer and nothing owed. -/
theorem SlotStep.made (first : Bool) {p : Port} {tag : Nat} {m : SlotMsg} (hm : c.ofSlot i = []) (ht : c.timers.at i = none) (ho : c.owed.at i = none)
    (hp : (c.slots.at i).party? = some (p, tag)) (hh : (c.slots.at i).isHeld = false) (hs : sendsIn m (c.slots.at i) = true)
    (hf : c.flying = true → c.msgs ≠ []) : SlotStep i c (c.add first (.ofSlot i p tag m)) := by
  refine ⟨rfl, rfl, .add first (.inl rfl) hf, ?_, fun _ => add_flies first _⟩
  unfold SlotAgrees
  have slot : (Msg.ofSlot i p tag m).slot? = some i := rfl
  rw [add_ofSlot first _ i fun _ => hm, if_pos slot]
  have timer : (c.add first (.ofSlot i p tag m)).timers.at i = none := ht
  have owed : (c.add first (.ofSlot i p tag m)).owed.at i = none := ho
  rw [timer, owed]
  exact .sending (sl := c.slots.at i) (m := .ofSlot i p tag m) ⟨hp, hh, hs⟩ _

end

/-! ## A slot freed -/

section
variable {s : State} {i : SlotId}

/-- A slot with no message is freed. -/
theorem freeSlot_step (hu : (s.slots.at i).inUse = true) (hm : s.callSide.ofSlot i = []) (hf : s.callSide.flying = true → s.callSide.msgs ≠ []) :
    SlotStep i s.callSide (freeSlot i s).callSide := by
  rw [freeSlot_callSide s i hu]
  exact .cleared _ hm hf

theorem holds_freed (b : Bool) : (freedSlot b).holds? = none := by cases b <;> rfl

theorem freeSlot_holds (hu : (s.slots.at i).inUse = true) : ((freeSlot i s).callSide.slots.at i).holds? = none := by
  rw [freeSlot_callSide s i hu]
  have put : ∀ c : CallSide, ∀ sl, (c.setSlot i sl).slots.at i = sl := fun _ _ => Table.at_put_same ..
  rw [put]
  exact holds_freed _

/-- The messages of a slot leave the queue and it is freed. -/
theorem releasedLocally_step (hu : (s.slots.at i).inUse = true) (hf : s.callSide.flying = true → s.callSide.msgs ≠ []) :
    SlotStep i s.callSide (freeSlot i (removeEntries i s)).callSide := by
  have dropped : SlotStep i (removeEntries i s).callSide (freeSlot i (removeEntries i s)).callSide := by
    refine freeSlot_step hu ?_ ?_
    · rw [removeEntries_callSide]
      exact drop_ofSlot
    · rw [removeEntries_callSide]
      exact drop_flies hf
  refine ⟨dropped.lines.trans ?_, dropped.bus.trans ?_, SameOff.trans ?_ dropped.off, dropped.slot, dropped.flies⟩
  · rw [removeEntries_callSide]; rfl
  · rw [removeEntries_callSide]; rfl
  · rw [removeEntries_callSide]
    exact .drop

/-! ## What is queued of a slot, and what is in flight -/

theorem queuedEntry_mem {e : Entry} (h : queuedEntry s i = some e) : e ∈ queuedEntries s ∧ e.slot? = some i :=
  ⟨List.mem_of_find?_eq_some h, of_decide_eq_true (List.find?_some h :)⟩

theorem flightCount_of_some (h : s.inFlight.isSome = true) : flightCount s = 1 := if_pos h

/-- Of a slot with one message at most, nothing is in flight while a message is queued. -/
theorem flight_none_of_queued (one : (s.callSide.ofSlot i).length ≤ 1) (h : (queuedEntry s i).isSome = true) : s.callSide.flight i = none := by
  obtain ⟨e, he⟩ := Option.isSome_iff_exists.mp h
  obtain ⟨mem, slot⟩ := queuedEntry_mem he
  rw [← Option.not_isSome_iff_eq_none, ← flightSlot_flight, flightSlot_iff]
  rintro ⟨flies, x, head, slot'⟩
  unfold queuedEntries at mem
  rw [flightCount_of_some flies] at mem
  unfold State.callSide CallSide.ofSlot at one
  cases hq : s.txq with
  | nil => rw [hq] at mem; exact nomatch mem
  | cons y rest =>
    rw [hq] at mem head one
    obtain rfl := Option.some.inj head
    have queued : e.msg ∈ (rest.map (·.msg)).filter fun m => decide (m.slot? = some i) :=
      List.mem_filter.mpr ⟨List.mem_map.mpr ⟨e, mem, rfl⟩, decide_eq_true slot⟩
    dsimp only at one
    have slot' : y.msg.slot? = some i := slot'
    rw [List.map_cons, List.filter_cons_of_pos (by simpa using slot'), List.length_cons] at one
    have := List.length_pos_of_mem queued
    omega

/-- What is neither queued nor in flight is not in the queue. -/
theorem ofSlot_nil (hq : (queuedEntry s i).isSome = false) (hf : flightSlot s ≠ some i) : s.callSide.ofSlot i = [] := by
  rw [List.eq_nil_iff_forall_not_mem]
  intro m hm
  obtain ⟨hm, slot⟩ := mem_ofSlot.mp hm
  obtain ⟨e, he, rfl⟩ := List.mem_map.mp hm
  rw [Option.isSome_eq_false_iff, Option.isNone_iff_eq_none] at hq
  have unqueued : e ∉ queuedEntries s := fun h => by
    have := List.find?_eq_none.mp hq e h
    exact this (decide_eq_true slot)
  unfold queuedEntries flightCount at unqueued
  by_cases flies : s.inFlight.isSome = true
  · rw [if_pos flies] at unqueued
    cases hx : s.txq with
    | nil => rw [hx] at he; exact nomatch he
    | cons y rest =>
      rw [hx] at he unqueued
      rcases List.mem_cons.mp he with rfl | he
      · exact hf (flightSlot_iff s |>.mpr ⟨flies, e, by rw [hx]; rfl, slot⟩)
      · exact unqueued he
  · rw [if_neg flies] at unqueued
    exact unqueued he

/-! ## A clear item that becomes owed -/

/-- A clear item is put where it belongs: in the place of the queued message, behind the message in flight, or at the tail. -/
def giveItem (i : SlotId) (o : ClearOwed) (s : State) : State :=
  if (queuedEntry s i).isSome then convertEntry i o.msg s
  else if flightSlot s = some i then setClearOwed i (some o) s
  else addSlotEntry false i o.msg s

theorem supersede_given (o : ClearOwed) : supersede i o s
    = if (∃ e ∈ queuedEntry s i, e.slotMsg? = some .seize) ∧ (s.sig.at i).tagKnown = false then freeSlot i (removeEntries i s) else giveItem i o s := by
  unfold supersede giveItem
  cases h : queuedEntry s i with
  | none => simp
  | some e => simp

theorem collide_given {p : Port} {tag : Nat} {b : Bool} : collide i p tag b s = giveItem i .clearAck (clearing i p tag .oweAck b s) := rfl

/-- A clear item put where it belongs fits, where the slot record is already the one in which it is sent. -/
theorem giveItem_step {o : ClearOwed} {p : Port} {tag : Nat} {b : Bool} (hs : s.slots.at i = .clearing p tag o.side b)
    (ht : (s.sig.at i).timer = none) (one : (s.callSide.ofSlot i).length ≤ 1)
    (fits : ∀ m ∈ s.callSide.ofSlot i, m.fits (.clearing p tag o.side b)) (behind : ∀ m, s.callSide.flight i = some m → owedFits o m = true)
    (owes : s.callSide.flight i = none → (s.sig.at i).owed = none) (hf : s.callSide.flying = true → s.callSide.msgs ≠ []) :
    SlotStep i s.callSide (giveItem i o s).callSide := by
  have slot : s.callSide.slots.at i = .clearing p tag o.side false := by rw [callSide_slot, hs]; rfl
  have timer : s.callSide.timers.at i = none := by rw [callSide_timer, ht]; rfl
  have sends : sendsIn o.msg (.clearing p tag o.side false) = true := by cases o <;> rfl
  have fits' : ∀ m ∈ s.callSide.ofSlot i, m.fits (.clearing p tag o.side false) := fits
  unfold giveItem
  split
  · next queued =>
    have none := flight_none_of_queued one queued
    rw [convertEntry_callSide]
    refine ⟨rfl, rfl, .convert _, ?_, convert_flies _ hf⟩
    unfold SlotAgrees
    have slots : (s.callSide.convert i o.msg).slots.at i = .clearing p tag o.side false := slot
    have timers : (s.callSide.convert i o.msg).timers.at i = .none := timer
    have owed : (s.callSide.convert i o.msg).owed.at i = .none := (callSide_owed s i).trans (owes none)
    rw [slots, timers, owed, convert_ofSlot]
    refine ⟨by rw [List.length_map]; exact one, fun m hm => ?_, fun _ h => (nomatch h), fun _ h => (nomatch h)⟩
    obtain ⟨n, hn, rfl⟩ := List.mem_map.mp hm
    have old := fits' n hn
    cases n with
    | ofNone n => exact trivial
    | ofSlot j q t sm => exact ⟨old.1, old.2.1, sends⟩
  · next unqueued =>
    split
    · next flies =>
      have flight := (flightSlot_flight s i).mp flies
      obtain ⟨m, hm⟩ := Option.isSome_iff_exists.mp flight
      unfold setClearOwed
      rw [setSig_callSide, ht]
      refine ⟨rfl, rfl, .setSig _ _, setSig_agrees _ _ ?_, hf⟩
      rw [slot]
      refine ⟨one, fits', fun _ h => (nomatch h), fun o' ho' => ?_⟩
      cases ho'
      exact ⟨rfl, m, hm, behind m hm⟩
    · next grounded =>
      have nil := ofSlot_nil (Bool.eq_false_iff.mpr unqueued) grounded
      have none := flight_of_nil nil
      obtain ⟨first, added⟩ := addSlotEntry_callSide s (i := i) (p := p) (tag := tag) false o.msg (by rw [hs]; rfl)
      rw [added]
      refine .made first nil timer ((callSide_owed s i).trans (owes none)) (by rw [slot]; rfl) (by rw [slot]; rfl) ?_ hf
      rw [slot]
      exact sends

/-! ## A call given up -/

theorem clearSide_of_call {sl : Slot} {c : Call} (h : sl.call? = some c) : sl.clearSide? = none := by cases sl <;> first | rfl | exact nomatch h

theorem party_of_call {sl : Slot} {c : Call} (h : sl.call? = some c) : sl.party? = some (c.line, c.tag) := by cases sl <;> cases h <;> rfl

/-- A message of a slot with a call fits the slot in CLEARING, and a clear item can be owed behind it. -/
theorem Msg.fits_clearing {m : Msg} {sl : Slot} {c : Call} (hc : sl.call? = some c) (side : ClearSide) (b : Bool) (h : m.fits sl) :
    m.fits (.clearing c.line c.tag side b) ∧ ∀ o, ∀ sm ∈ m.sends?, owedFits o sm = true := by
  cases m with
  | ofNone m => exact ⟨trivial, fun _ _ h => nomatch h⟩
  | ofSlot j p tag sm =>
    obtain ⟨party, held, sends⟩ := h
    rw [party_of_call hc] at party
    unfold sendsIn at sends
    rw [clearSide_of_call hc] at sends
    refine ⟨⟨party, rfl, ?_⟩, fun o n hn => ?_⟩
    · cases sm <;> first | rfl | exact nomatch sends
    · cases hn
      cases sm <;> cases o <;> first | rfl | exact nomatch sends

/-- A slot goes to CLEARING, and a clear item is put where it belongs. -/
theorem clearing_step {p : Port} {tag : Nat} {b : Bool} (o : ClearOwed) (hi : SlotAgrees s.callSide i)
    (hf : s.callSide.flying = true → s.callSide.msgs ≠ [])
    (fits : ∀ m ∈ s.callSide.ofSlot i, m.fits (.clearing p tag o.side b) ∧ ∀ sm ∈ m.sends?, owedFits o sm = true)
    {t : State} (step : SlotStep i (clearing i p tag o.side b s).callSide (giveItem i o (clearing i p tag o.side b s)).callSide →
      ((clearing i p tag o.side b s).callSide.flying = true → (clearing i p tag o.side b s).callSide.msgs ≠ []) →
      SlotStep i (clearing i p tag o.side b s).callSide t.callSide) : SlotStep i s.callSide t.callSide := by
  have written : (clearing i p tag o.side b s).callSide = (s.callSide.setSlot i (.clearing p tag o.side false)).setSig i none (s.sig.at i).owed := by
    unfold clearing stopReplyTimer
    rw [setSig_callSide, setSlot_callSide]
    rfl
  have slots : (clearing i p tag o.side b s).slots.at i = .clearing p tag o.side b := Table.at_put_same ..
  have sig : (clearing i p tag o.side b s).sig.at i = { s.sig.at i with timer := none } := Table.at_put_same ..
  generalize clearing i p tag o.side b s = u at written slots sig step
  have msgs : u.callSide.ofSlot i = s.callSide.ofSlot i := by rw [written]; rfl
  have flight : u.callSide.flight i = s.callSide.flight i := by rw [written]; rfl
  have flies : u.callSide.flying = true → u.callSide.msgs ≠ [] := by rw [written]; exact hf
  have off : SameOff i s.callSide u.callSide := by
    rw [written]
    exact (SameOff.setSlot _).trans (.setSig _ _)
  have given : SlotStep i u.callSide (giveItem i o u).callSide := by
    refine giveItem_step slots (by rw [sig]) (by rw [msgs]; exact hi.one) (by rw [msgs]; exact fun m hm => (fits m hm).1) (fun m hm => ?_)
      (fun none => ?_) flies
    · obtain ⟨x, hx, sends⟩ := flight_mem (flight ▸ hm)
      exact (fits x hx).2 m sends
    · rw [sig]
      exact (callSide_owed s i).symm.trans (hi.owes_nothing (flight ▸ none))
  obtain ⟨lines, bus, off', slot, flying⟩ := step given flies
  exact ⟨lines.trans (by rw [written]; rfl), bus.trans (by rw [written]; rfl), off.trans off', slot, flying⟩

theorem giveItem_slots {p : Port} {tag : Nat} (o : ClearOwed) (hs : (s.slots.at i).party? = some (p, tag)) :
    (giveItem i o s).callSide.slots = s.callSide.slots := by
  unfold giveItem
  split
  · rw [convertEntry_callSide]; rfl
  · split
    · unfold setClearOwed; rw [setSig_callSide]; rfl
    · obtain ⟨first, added⟩ := addSlotEntry_callSide s false o.msg hs
      rw [added]; rfl

theorem giveItem_clearing_holds {p : Port} {tag : Nat} {b : Bool} {side : ClearSide} (o : ClearOwed) :
    ((giveItem i o (clearing i p tag side b s)).callSide.slots.at i).holds? = none := by
  have slots : (clearing i p tag side b s).slots.at i = .clearing p tag side b := Table.at_put_same ..
  rw [giveItem_slots o (p := p) (tag := tag) (by rw [slots]; rfl), callSide_slot, slots]
  rfl

theorem releaseOwing_clearing_call {c : Call} (o : ClearOwed) (hc : (s.slots.at i).call? = some c) :
    releaseOwing i o s = supersede i o (clearing i c.line c.tag o.side (s.slots.at i).blockPending s) := by
  unfold releaseOwing
  rw [hc]
  rfl

/-- A slot gives up its call with a clear item owed. -/
theorem releaseOwing_step {c : Call} (o : ClearOwed) (hc : (s.slots.at i).call? = some c) (hi : SlotAgrees s.callSide i)
    (hf : s.callSide.flying = true → s.callSide.msgs ≠ []) : SlotStep i s.callSide (releaseOwing i o s).callSide := by
  rw [releaseOwing_clearing_call o hc]
  have agrees := (slotAgrees_iff s i).mp hi
  refine clearing_step (p := c.line) (tag := c.tag) (b := (s.slots.at i).blockPending) o hi hf (fun m hm => ?_) fun given flies => ?_
  · obtain ⟨fits, behind⟩ := Msg.fits_clearing hc o.side (s.slots.at i).blockPending (agrees.fits m hm)
    exact ⟨fits, behind o⟩
  · rw [supersede_given]
    split
    · exact releasedLocally_step ((congrArg Slot.inUse (Table.at_put_same ..)).trans rfl) flies
    · exact given

theorem releaseOwing_holds {c : Call} (o : ClearOwed) (hc : (s.slots.at i).call? = some c) :
    ((releaseOwing i o s).callSide.slots.at i).holds? = none := by
  rw [releaseOwing_clearing_call o hc, supersede_given]
  split
  · have inUse : ((removeEntries i (clearing i c.line c.tag o.side (s.slots.at i).blockPending s)).slots.at i).inUse = true :=
      (congrArg Slot.inUse (Table.at_put_same ..)).trans rfl
    exact freeSlot_holds inUse
  · exact giveItem_clearing_holds o

/-- A clear collision. -/
theorem collide_step {p : Port} {tag : Nat} {r : Reason} {b : Bool} (hs : s.slots.at i = .clearing p tag (.awaitAck r) b)
    (hi : SlotAgrees s.callSide i) (hf : s.callSide.flying = true → s.callSide.msgs ≠ []) :
    SlotStep i s.callSide (collide i p tag b s).callSide := by
  have agrees := (slotAgrees_iff s i).mp hi
  rw [collide_given]
  refine clearing_step (p := p) (tag := tag) (b := b) .clearAck hi hf (fun m hm => ?_) fun given _ => given
  · have old := agrees.fits m hm
    rw [hs] at old
    cases m with
    | ofNone m => exact ⟨trivial, fun _ h => nomatch h⟩
    | ofSlot j q t sm =>
      obtain ⟨party, held, sends⟩ := old
      refine ⟨⟨party, rfl, ?_⟩, fun n hn => ?_⟩
      · cases sm <;> first | rfl | exact nomatch sends
      · cases hn
        cases sm <;> first | rfl | exact nomatch sends

/-! ## What a slot owes next -/

/-- A slot agrees, or it waits with nothing queued and a clear item that is to be made now. -/
def Mends (c : CallSide) (i : SlotId) : Prop :=
  SlotAgrees c i ∨ (c.ofSlot i = [] ∧ c.timers.at i = none ∧ ∃ o, c.owed.at i = some o ∧ (c.slots.at i).clearSide? = some o.side)

theorem party_of_clearSide {sl : Slot} {side : ClearSide} (h : sl.clearSide? = some side) :
    ∃ p tag, sl.party? = some (p, tag) ∧ sl.isHeld = false ∧ ∃ b, sl = .clearing p tag side b := by
  cases sl <;> cases h
  exact ⟨_, _, rfl, rfl, _, rfl⟩

/-- A BUSY slot has no timer, and with nothing queued an entry can be made for it. -/
theorem busy_made {t : State} {c : Call} {b : Bool} (hs : s.slots.at i = .busy c b) (hi : SlotAgrees s.callSide i) (hm : s.callSide.ofSlot i = [])
    (hf : s.callSide.flying = true → s.callSide.msgs ≠ []) (m : SlotMsg) (hsend : sendsIn m (.busy c b) = true)
    (ht : t.callSide = s.callSide) (hst : t.slots = s.slots) : SlotStep i s.callSide (addSlotEntry false i m t).callSide := by
  have slot : s.callSide.slots.at i = (Slot.busy c b).core := by rw [callSide_slot, hs]
  have timer : s.callSide.timers.at i = none := by
    cases ht : s.callSide.timers.at i with
    | none => rfl
    | some k =>
      have kind := (hi.waits k ht).2
      rw [slot, timerFits_core] at kind
      cases k <;> exact nomatch kind
  obtain ⟨first, added⟩ := addSlotEntry_callSide t (i := i) (p := c.line) (tag := c.tag) false m (by rw [hst, hs]; rfl)
  rw [added, ht]
  refine .made first hm timer (hi.owes_only_clearing (by rw [slot]; rfl)) (by rw [slot]; rfl) (by rw [slot]; rfl) ?_ hf
  rw [slot, sendsIn_core]
  exact hsend

/-- The next entry of a slot is made from what is owed. -/
theorem makeOwed_step (hi : Mends s.callSide i) (hf : s.callSide.flying = true → s.callSide.msgs ≠ []) :
    SlotStep i s.callSide (makeOwed i s).callSide := by
  unfold makeOwed
  split
  · next entry =>
    have some := (hasEntry_ofSlot s i).mp entry
    exact .refl (hi.resolve_right fun h => some h.1) hf
  · next entry =>
    have nil := (hasEntry_iff s).mp (Bool.eq_false_iff.mpr entry)
    split
    · next o ho =>
      have owed : s.callSide.owed.at i = some o := (callSide_owed s i).trans ho
      obtain ⟨-, timer, o', owed', side⟩ := hi.resolve_left fun agrees => by
        have none := agrees.owes_nothing (flight_of_nil nil)
        rw [owed] at none
        exact nomatch none
      cases Option.some.inj (owed.symm.trans owed')
      rw [callSide_slot, clearSide_core] at side
      obtain ⟨p, tag, party, held, b, slot⟩ := party_of_clearSide side
      have cleared : (setClearOwed i none s).callSide = s.callSide.setSig i none none := by
        unfold setClearOwed
        rw [setSig_callSide]
        have none : (s.sig.at i).timer.map (·.kind) = none := (callSide_timer s i).symm.trans timer
        dsimp only
        rw [none]
      obtain ⟨first, added⟩ := addSlotEntry_callSide (setClearOwed i none s) (i := i) (p := p) (tag := tag) false o.msg party
      rw [added, cleared]
      have at_slot : (s.callSide.setSig i none none).slots.at i = (s.slots.at i).core := callSide_slot s i
      have made := SlotStep.made (c := s.callSide.setSig i none none) (i := i) first (p := p) (tag := tag) (m := o.msg) nil (Table.at_put_same ..)
        (Table.at_put_same ..) (by rw [at_slot, party_core]; exact party) (by rw [at_slot, isHeld_core]; exact held)
        (by rw [at_slot, sendsIn_core, slot]; cases o <;> rfl) hf
      exact ⟨made.lines, made.bus, (SameOff.setSig none none).trans made.off, made.slot, made.flies⟩
    · next ho =>
      have agrees := hi.resolve_right fun ⟨_, _, o, owed, _⟩ => by
        rw [callSide_owed, ho] at owed
        exact nomatch owed
      split
      · next c b hs =>
        unfold makeLineOwed
        dsimp only
        split
        · exact busy_made hs agrees nil hf _ rfl (setLine_callSide_self s _ _ rfl) rfl
        · split
          · exact busy_made hs agrees nil hf _ rfl (setLine_callSide_self s _ _ rfl) rfl
          · split
            · exact busy_made hs agrees nil hf _ rfl rfl rfl
            · exact .refl agrees hf
      · exact .refl agrees hf

/-- What a slot owes next is made without a change of any slot record. -/
theorem makeOwed_slots : (makeOwed i s).callSide.slots = s.callSide.slots := by
  have added (m : SlotMsg) (u : State) : (addSlotEntry false i m u).callSide.slots = u.callSide.slots := by
    cases hp : (u.slots.at i).party? with
    | none =>
      unfold addSlotEntry
      rw [hp]
    | some party =>
      obtain ⟨first, added⟩ := addSlotEntry_callSide u (p := party.1) (tag := party.2) false m hp
      rw [added]
      rfl
  unfold makeOwed
  split
  · rfl
  · split
    · rw [added]; rfl
    · split
      · unfold makeLineOwed
        dsimp only
        split
        · rw [added]; rfl
        · split
          · rw [added]; rfl
          · split
            · rw [added]
            · rfl
      · rfl

end

end Sys2Proof.Machine
end

