-- ==== Sys2Proof/Proofs/CallLines.lean ====
section
/-! PROOF. A line between two states: every other line agrees while its slot has changed and its record has not yet, and what the change
of its record needs so that the calls agree again (O60). -/

namespace Sys2Proof.Machine

namespace CallSide

/-- No slot holds a call of the line. -/
def Unnamed (c : CallSide) (p : Port) : Prop := ∀ i, ∀ v ∈ (c.slots.at i).holds?, v.2.1 ≠ p

/-- One slot alone holds a call of the line. -/
structure NamedBy (c : CallSide) (p : Port) (i : SlotId) (k : Holding) (d : Direction) : Prop where
  here : (c.slots.at i).holds? = some (k, p, d)
  alone : ∀ j, j ≠ i → ∀ v ∈ (c.slots.at j).holds?, v.2.1 ≠ p

/-- The calls agree, the record of one line apart. -/
structure AgreesBut (p : Port) (c : CallSide) : Prop where
  line : ∀ q, q ≠ p → LineAgrees c q
  slot : ∀ i, SlotAgrees c i
  flies : c.flying = true → c.msgs ≠ []

end CallSide

section
variable {p : Port} {i : SlotId} {k : Holding} {dir : Direction} {c d : CallSide}

theorem CallSide.Agrees.but (h : c.Agrees) (p : Port) : c.AgreesBut p := ⟨fun q _ => h.line q, h.slot, h.flies⟩

theorem CallSide.AgreesBut.agrees (h : c.AgreesBut p) (hp : LineAgrees c p) : c.Agrees :=
  ⟨fun q => if hq : q = p then hq ▸ hp else h.line q hq, h.slot, h.flies⟩

/-- A line without a call is named by no slot. -/
theorem LineAgrees.unnamed (h : LineAgrees c p) (hn : (c.lines.at p).2 = none) : c.Unnamed p := fun j v hv hp => by
  have named := h.named j v hv hp
  rw [hn] at named
  exact nomatch named

/-- A line with a call is named by its slot alone. -/
theorem LineAgrees.namedBy (h : LineAgrees c p) (hp : (c.lines.at p).2 = some (i, dir)) : c.NamedBy p i (c.lines.at p).1.holding dir := by
  refine ⟨(h.slot _ hp).2, fun j hj v hv hvp => hj ?_⟩
  have named := h.named j v hv hvp
  rw [hp] at named
  exact (congrArg Prod.fst (Option.some.inj named)).symm

/-- What a line agrees with looks at its record, at what the slots hold and at the bus. -/
theorem LineAgrees.congr {q : Port} (h : LineAgrees c q) (hl : d.lines.at q = c.lines.at q) (hs : ∀ j, (d.slots.at j).holds? = (c.slots.at j).holds?)
    (hheld : d.bus = .held q ↔ c.bus = .held q) (hclaimed : d.bus = .claimed q → c.bus = .claimed q) : LineAgrees d q := by
  obtain ⟨names, slot, named, held, claimed⟩ := h
  refine ⟨by rw [hl]; exact names, fun x hx => ?_, fun j v hv hvq => ?_, by rw [hl, hheld]; exact held, fun x => by rw [hl]; exact claimed (hclaimed x)⟩
  · rw [hl] at hx ⊢
    rw [hs]
    exact slot x hx
  · rw [hl]
    rw [hs] at hv
    exact named j v hv hvq

/-! ## The slot of the line changes -/

theorem SlotStep.holds_other (hs : SlotStep i c d) {j : SlotId} (hj : j ≠ i) : (d.slots.at j).holds? = (c.slots.at j).holds? := by
  rw [hs.off.slots j hj]

/-- The slot of one line changes; the others agree as before. -/
theorem CallSide.AgreesBut.step (h : c.AgreesBut p) (hs : SlotStep i c d) (before : ∀ v ∈ (c.slots.at i).holds?, v.2.1 = p)
    (after : ∀ v ∈ (d.slots.at i).holds?, v.2.1 = p) : d.AgreesBut p where
  line q hq := (h.line q hq).of_other hq (by rw [hs.lines]) hs.off.slots before after (by rw [hs.bus]) (by rw [hs.bus]; exact id)
  slot j := by
    by_cases hj : j = i
    · exact hj ▸ hs.slot
    · exact hs.off.agrees hj (h.slot j)
  flies := hs.flies

/-- A slot changes, but not the call that it holds. -/
theorem CallSide.AgreesBut.keep (h : c.AgreesBut p) (hs : SlotStep i c d) (same : (d.slots.at i).holds? = (c.slots.at i).holds?) : d.AgreesBut p where
  line q hq := by
    refine (h.line q hq).congr (by rw [hs.lines]) (fun j => ?_) (by rw [hs.bus]) (by rw [hs.bus]; exact id)
    by_cases hj : j = i
    · exact hj ▸ same
    · exact hs.holds_other hj
  slot j := by
    by_cases hj : j = i
    · exact hj ▸ hs.slot
    · exact hs.off.agrees hj (h.slot j)
  flies := hs.flies

/-- A slot changes, but not the call that it holds: the calls agree as before. -/
theorem CallSide.Agrees.keep (h : c.Agrees) (hs : SlotStep i c d) (same : (d.slots.at i).holds? = (c.slots.at i).holds?) : d.Agrees := by
  refine ((h.but 0).keep hs same).agrees ((h.line 0).congr (by rw [hs.lines]) (fun j => ?_) (by rw [hs.bus]) (by rw [hs.bus]; exact id))
  by_cases hj : j = i
  · exact hj ▸ same
  · exact hs.holds_other hj

theorem CallSide.NamedBy.freed (h : c.NamedBy p i k dir) (hs : SlotStep i c d) (none : (d.slots.at i).holds? = none) : d.Unnamed p := fun j v hv => by
  by_cases hj : j = i
  · rw [hj, none] at hv
    exact nomatch hv
  · rw [hs.holds_other hj] at hv
    exact h.alone j hj v hv

theorem CallSide.NamedBy.again {k' : Holding} {dir' : Direction} (h : c.NamedBy p i k dir) (hs : SlotStep i c d)
    (here : (d.slots.at i).holds? = some (k', p, dir')) : d.NamedBy p i k' dir' :=
  ⟨here, fun j hj v hv => h.alone j hj v (by rw [← hs.holds_other hj]; exact hv)⟩

theorem CallSide.Unnamed.taken (h : c.Unnamed p) (hs : SlotStep i c d) (here : (d.slots.at i).holds? = some (k, p, dir)) : d.NamedBy p i k dir :=
  ⟨here, fun j hj v hv => h j v (by rw [← hs.holds_other hj]; exact hv)⟩

theorem CallSide.Unnamed.keep (h : c.Unnamed p) (hs : SlotStep i c d) (same : (d.slots.at i).holds? = (c.slots.at i).holds?) : d.Unnamed p :=
  fun j v hv => by
    by_cases hj : j = i
    · rw [hj, same] at hv
      exact h i v hv
    · rw [hs.holds_other hj] at hv
      exact h j v hv

/-! ## The record of the line changes -/

theorem setLine_other {q : Port} (l : LineState × Option (SlotId × Direction)) (hq : q ≠ p) : (c.setLine p l).lines.at q = c.lines.at q :=
  Table.at_put_other _ _ hq

theorem setLine_same (l : LineState × Option (SlotId × Direction)) : (c.setLine p l).lines.at p = l := Table.at_put_same ..

/-- The record of one line is written, and the bus at most for that line. -/
structure LineStep (p : Port) (c d : CallSide) : Prop where
  lines : ∀ q, q ≠ p → d.lines.at q = c.lines.at q
  slots : d.slots = c.slots
  slot : ∀ i, SlotAgrees c i → SlotAgrees d i
  flies : (c.flying = true → c.msgs ≠ []) → d.flying = true → d.msgs ≠ []
  held : ∀ q, q ≠ p → (d.bus = .held q ↔ c.bus = .held q)
  claimed : ∀ q, q ≠ p → d.bus = .claimed q → c.bus = .claimed q

theorem LineStep.refl : LineStep p c c := ⟨fun _ _ => rfl, rfl, fun _ => id, id, fun _ _ => Iff.rfl, fun _ _ => id⟩

theorem LineStep.setLine (l : LineState × Option (SlotId × Direction)) : LineStep p c (c.setLine p l) :=
  ⟨fun _ hq => setLine_other l hq, rfl, fun _ => id, id, fun _ _ => Iff.rfl, fun _ _ => id⟩

/-- A line takes the bus, where no other line has it. -/
theorem LineStep.granted (hb : ∀ q, q ≠ p → c.bus ≠ .held q) : LineStep p c ((c.setLine p (.test, none)).setBus (.held p)) :=
  ⟨fun _ hq => setLine_other _ hq, rfl, fun _ => id, id,
    fun q hq => ⟨fun x => absurd (TestBus.held.inj x).symm hq, fun x => absurd x (hb q hq)⟩, fun _ _ x => (nomatch x)⟩

/-- Another line agrees as before. -/
theorem LineStep.line (hs : LineStep p c d) {q : Port} (hq : q ≠ p) (h : LineAgrees c q) : LineAgrees d q :=
  h.congr (hs.lines q hq) (fun _ => by rw [hs.slots]) (hs.held q hq) (hs.claimed q hq)

theorem LineStep.unnamed (hs : LineStep p c d) {q : Port} (h : c.Unnamed q) : d.Unnamed q := fun j v hv => h j v (by rw [← hs.slots]; exact hv)

theorem LineStep.namedBy (hs : LineStep p c d) {q : Port} (h : c.NamedBy q i k dir) : d.NamedBy q i k dir :=
  ⟨by rw [hs.slots]; exact h.here, fun j hj v hv => h.alone j hj v (by rw [← hs.slots]; exact hv)⟩

/-- The calls agree where the line whose record was written agrees. -/
theorem CallSide.AgreesBut.written (h : c.AgreesBut p) (hs : LineStep p c d) (hp : LineAgrees d p) : d.Agrees :=
  ⟨fun q => if hq : q = p then hq ▸ hp else hs.line hq (h.line q hq), fun i => hs.slot i (h.slot i), hs.flies h.flies⟩

/-- A line that no slot names agrees in a bare state other than TEST. -/
theorem lineAgrees_bare {st : LineState} (hu : c.Unnamed p) (hs : st.holdsSlot = false) (ht : st ≠ .test) (hheld : c.bus ≠ .held p)
    (hclaimed : c.bus ≠ .claimed p) : LineAgrees (c.setLine p (st, none)) p := by
  refine ⟨?_, ?_, fun j v hv hp => absurd hp (hu j v hv), ?_, fun x => absurd x hclaimed⟩
  · rw [setLine_same]
    exact hs.symm
  · rw [setLine_same]
    exact fun x hx => absurd hx (Option.not_mem_none x)
  · rw [setLine_same]
    exact ⟨fun x => absurd x ht, fun x => absurd x hheld⟩

/-- A line that no slot names agrees once it has the bus. -/
theorem lineAgrees_granted (hu : c.Unnamed p) : LineAgrees ((c.setLine p (.test, none)).setBus (.held p)) p := by
  have line : ((c.setLine p (.test, none)).setBus (.held p)).lines.at p = (.test, none) := setLine_same _
  refine ⟨?_, ?_, fun j v hv hp => absurd hp (hu j v hv), ?_, fun x => (nomatch x)⟩
  · rw [line]
    rfl
  · rw [line]
    exact fun x hx => absurd hx (Option.not_mem_none x)
  · rw [line]
    exact ⟨fun _ => rfl, fun _ => rfl⟩

/-- A line that one slot names agrees in the state of that call. -/
theorem lineAgrees_called {st : LineState} (hn : c.NamedBy p i k dir) (hs : st.holdsSlot = true)
    (hk : st.holding = k) (hd : ∀ d ∈ directionIn st, dir = d) (hheld : c.bus ≠ .held p) : LineAgrees (c.setLine p (st, some (i, dir))) p := by
  have ht : st ≠ .test := by rintro rfl; exact nomatch hs
  refine ⟨?_, ?_, fun j v hv hp => ?_, ?_, fun _ => ?_⟩
  · rw [setLine_same]
    exact hs.symm
  · rw [setLine_same]
    intro x hx
    cases hx
    exact ⟨hd, hn.here.trans (by rw [hk])⟩
  · rw [setLine_same]
    by_cases hj : j = i
    · subst hj
      cases Option.some.inj (hn.here.symm.trans hv)
      rfl
    · exact absurd hp (hn.alone j hj v hv)
  · rw [setLine_same]
    exact ⟨fun x => absurd x ht, fun x => absurd x hheld⟩
  · rw [setLine_same]
    exact hs

end

/-! ## Lines of a state -/

/-- A state that ends a call has no slot. -/
theorem LineState.bare_of_endsCall {st : LineState} (h : st.endsCall = true) : st.holdsSlot = false := by
  cases st <;> first | rfl | exact nomatch h

section
variable {s : State} {p : Port}

/-- The bus is not held for a line in another state than TEST. -/
theorem LineAgrees.not_held (h : LineAgrees s.callSide p) (hs : (s.lines.at p).state ≠ .test) : s.bus ≠ .held p := fun x => by
  have test := h.held.mpr x
  rw [callSide_line] at test
  exact hs test

/-- A line that changes state leaves the other lines as they are. -/
theorem enterLine_lineStep (st : LineState) (call : Option (SlotId × Direction)) (timer : Option Nat) (r : Reason) :
    LineStep p s.callSide (enterLine p st call timer r s).callSide := by
  rw [enterLine_callSide]
  split
  · next hc =>
    have claimed : s.callSide.bus = .claimed p := hc.2
    exact .granted fun q _ x => by rw [claimed] at x; exact nomatch x
  · exact .setLine _

/-- A line that no slot names agrees in the bare state that it enters, or in TEST where it is claimed. -/
theorem enterBare_line {st : LineState} (r : Reason) (he : st.endsCall = true) (hu : s.callSide.Unnamed p) (hb : s.bus ≠ .held p) :
    LineAgrees (enterBare p st r s).callSide p := by
  unfold enterBare
  rw [enterLine_callSide]
  split
  · exact lineAgrees_granted hu
  · next hc =>
    refine lineAgrees_bare hu (LineState.bare_of_endsCall he) ?_ hb fun x => hc ⟨he, x⟩
    rintro rfl
    exact nomatch he

/-- A line that one slot names agrees in the state of that call. -/
theorem enterLine_line {st : LineState} {i : SlotId} {k : Holding} {dir : Direction} (timer : Option Nat) (r : Reason)
    (hn : s.callSide.NamedBy p i k dir) (hs : st.holdsSlot = true) (hk : st.holding = k)
    (hd : ∀ d ∈ directionIn st, dir = d) (hb : s.bus ≠ .held p) : LineAgrees (enterLine p st (some (i, dir)) timer r s).callSide p := by
  rw [enterLine_callSide, if_neg]
  · exact lineAgrees_called hn hs hk hd hb
  · rintro ⟨ends, -⟩
    exact Bool.false_ne_true ((LineState.bare_of_endsCall ends).symm.trans hs)

/-- A line that no slot names enters a bare state, or TEST where it is claimed. -/
theorem enterBare_agrees {st : LineState} (r : Reason) (he : st.endsCall = true) (h : s.callSide.AgreesBut p) (hu : s.callSide.Unnamed p)
    (hb : s.bus ≠ .held p) : (enterBare p st r s).callSide.Agrees :=
  h.written (enterLine_lineStep st none none r) (enterBare_line r he hu hb)

/-- A line takes the bus. -/
theorem grantBus_agrees (g : Grant) (h : s.callSide.AgreesBut p) (hu : s.callSide.Unnamed p) (hb : ∀ q, q ≠ p → s.bus ≠ .held q) :
    (grantBus p g s).callSide.Agrees := by
  rw [grantBus_callSide]
  exact h.written (.granted hb) (lineAgrees_granted hu)

/-- A line that one slot names enters the state of that call. -/
theorem enterLine_agrees {st : LineState} {i : SlotId} {k : Holding} {dir : Direction} (timer : Option Nat) (r : Reason)
    (h : s.callSide.AgreesBut p) (hn : s.callSide.NamedBy p i k dir) (hs : st.holdsSlot = true) (hk : st.holding = k)
    (hd : ∀ d ∈ directionIn st, dir = d) (hb : s.bus ≠ .held p) : (enterLine p st (some (i, dir)) timer r s).callSide.Agrees :=
  h.written (enterLine_lineStep st _ timer r) (enterLine_line timer r hn hs hk hd hb)

/-! ## A line gives up its call -/

/-- A line has a slot exactly in the states that give it one. -/
theorem LineAgrees.call_isSome (h : LineAgrees s.callSide p) : (s.lines.at p).call.isSome = (s.lines.at p).state.holdsSlot := by
  have names := h.names
  rw [callSide_line] at names
  exact names

theorem LineAgrees.call_none (h : LineAgrees s.callSide p) (hs : (s.lines.at p).state.holdsSlot = false) : (s.lines.at p).call = none := by
  have names := h.call_isSome
  rw [hs] at names
  exact Option.not_isSome_iff_eq_none.mp (by rw [names]; exact Bool.false_ne_true)

/-- The slot of a line with a call holds that call. -/
theorem LineAgrees.slot_call (h : LineAgrees s.callSide p) {i : SlotId} {dir : Direction} (hc : (s.lines.at p).call = some (i, dir)) :
    (s.slots.at i).holds? = some ((s.lines.at p).state.holding, p, dir) ∧ (∀ d ∈ directionIn (s.lines.at p).state, dir = d)
      ∧ s.callSide.NamedBy p i (s.lines.at p).state.holding dir := by
  have side := callSide_line s p
  obtain ⟨dirs, holds⟩ := h.slot (i, dir) (by rw [side]; exact hc)
  have named := h.namedBy (i := i) (dir := dir) (by rw [side]; exact hc)
  rw [side] at dirs holds named
  rw [callSide_slot, holds_core] at holds
  exact ⟨holds, dirs, named⟩

/-- A line gives up its call: the other lines agree, and no slot names it any longer. -/
theorem releaseLine_agrees (r : Reason) (h : s.callSide.Agrees) :
    (releaseLine p r s).callSide.AgreesBut p ∧ (releaseLine p r s).callSide.Unnamed p ∧ (releaseLine p r s).bus = s.bus := by
  have bus (c : CallSide) (hc : (releaseLine p r s).callSide.bus = s.callSide.bus) : (releaseLine p r s).bus = s.bus := hc
  cases hc : (s.lines.at p).call with
  | none =>
    have still : releaseLine p r s = s := by
      unfold releaseLine releaseLineLocally releaseLineOwing slotOfLine
      rw [hc]
      simp
    rw [still]
    exact ⟨h.but p, (h.line p).unnamed (by rw [callSide_line]; exact hc), rfl⟩
  | some x =>
    obtain ⟨i, dir⟩ := x
    obtain ⟨holds, -, named⟩ := (h.line p).slot_call hc
    obtain ⟨call, hcall, -, -⟩ := call_of_holds holds
    have before : ∀ v ∈ (s.callSide.slots.at i).holds?, v.2.1 = p := fun v hv => by
      cases Option.some.inj (named.here.symm.trans hv)
      rfl
    have stepped {t : State} (hs : SlotStep i s.callSide t.callSide) (none : (t.callSide.slots.at i).holds? = none) :
        t.callSide.AgreesBut p ∧ t.callSide.Unnamed p ∧ t.bus = s.bus :=
      ⟨(h.but p).step hs before fun v hv => (by rw [none] at hv; exact nomatch hv), named.freed hs none, hs.bus⟩
    unfold releaseLine releaseLineLocally releaseLineOwing slotOfLine
    rw [hc]
    split
    · next hs =>
      have inUse := inUse_of_call hcall
      have held : (s.slots.at i).isHeld = true := by
        rw [hs] at holds
        cases hsl : s.slots.at i <;> rw [hsl] at holds <;> first | rfl | exact nomatch holds
      have nil := (h.slot i).no_msgs (.inr (by rw [callSide_slot, isHeld_core]; exact held))
      exact stepped (freeSlot_step inUse nil h.flies) (freeSlot_holds inUse)
    · exact stepped (releaseOwing_step _ hcall (h.slot i) h.flies) (releaseOwing_holds _ hcall)

/-- A line ends whatever it is in. -/
theorem endLine_agrees {st : LineState} (r : Reason) (he : st.endsCall = true) (hs : (s.lines.at p).state ≠ .test) (h : s.callSide.Agrees) :
    (endLine p st r s).callSide.Agrees := by
  obtain ⟨but, unnamed, bus⟩ := releaseLine_agrees (p := p) r h
  exact enterBare_agrees r he but unnamed (by rw [bus]; exact (h.line p).not_held hs)

/-- A line without a slot enters a bare state. -/
theorem enterBare_kept {st : LineState} (r : Reason) (he : st.endsCall = true) (hs : (s.lines.at p).state.holdsSlot = false)
    (ht : (s.lines.at p).state ≠ .test) (h : s.callSide.Agrees) : (enterBare p st r s).callSide.Agrees :=
  enterBare_agrees r he (h.but p) ((h.line p).unnamed (by rw [callSide_line]; exact (h.line p).call_none hs)) ((h.line p).not_held ht)

/-- A line goes from one state of its call to another of the same kind. -/
theorem enterLine_kept {st : LineState} (timer : Option Nat) (r : Reason) (hold : (s.lines.at p).state.holdsSlot = true) (hs : st.holdsSlot = true)
    (hk : st.holding = (s.lines.at p).state.holding) (hd : directionIn st = directionIn (s.lines.at p).state) (h : s.callSide.Agrees) :
    (enterLine p st (s.lines.at p).call timer r s).callSide.Agrees := by
  have some := (h.line p).call_isSome
  rw [hold] at some
  obtain ⟨⟨i, dir⟩, hc⟩ := Option.isSome_iff_exists.mp some
  obtain ⟨-, dirs, named⟩ := (h.line p).slot_call hc
  rw [hc]
  refine enterLine_agrees timer r (h.but p) named hs hk (by rw [hd]; exact dirs) ((h.line p).not_held fun ht => ?_)
  rw [ht] at hold
  exact nomatch hold

end

end Sys2Proof.Machine
end

