-- ==== Sys2Proof/Proofs/CallEffects.lean ====
section
/-! PROOF. The effects on one line and the slot of its call keep the agreement of the calls: hook and fault sense, the reply timers, and the
messages of the head terminal for a slot (O60). -/

namespace Sys2Proof.Machine

/-! ## Operations that keep the call of a slot -/

section
variable {s t : State} {i : SlotId} {p : Port}

theorem agrees_of_side (h : t.callSide = s.callSide) (hs : s.callSide.Agrees) : t.callSide.Agrees := h ▸ hs

/-- A slot record that differs in nothing that the agreement looks at. -/
theorem setSlot_callSide_self {sl : Slot} (h : sl.core = (s.slots.at i).core) : (setSlot i sl s).callSide = s.callSide := by
  rw [setSlot_callSide, h, ← callSide_slot]
  unfold CallSide.setSlot
  rw [Table.put_at]

/-- A record of the same party takes the place of another. -/
theorem Fits.record {old new : Slot} {timer : Option TimerKind} {owed : Option ClearOwed} {msgs : List Msg} {flight : Option SlotMsg}
    (h : Fits old timer owed msgs flight) (hp : new.party? = old.party?) (hh : new.isHeld = false) (hc : new.clearSide? = old.clearSide?)
    (ht : ∀ k ∈ timer, timerFits k old = true → timerFits k new = true) : Fits new timer owed msgs flight := by
  obtain ⟨one, fits, waits, owes⟩ := h
  refine ⟨one, fun m hm => ?_, fun k hk => ⟨(waits k hk).1, ht k hk (waits k hk).2⟩, by rw [hc]; exact owes⟩
  have old := fits m hm
  cases m with
  | ofNone m => exact trivial
  | ofSlot j p tag sm =>
    obtain ⟨party, -, sends⟩ := old
    refine ⟨hp.trans party, hh, ?_⟩
    unfold sendsIn at sends ⊢
    rw [hc]
    exact sends

/-- What a slot owes next is made: the calls agree as before. -/
theorem makeOwed_kept (i : SlotId) (h : s.callSide.Agrees) : (makeOwed i s).callSide.Agrees :=
  h.keep (makeOwed_step (.inl (h.slot i)) h.flies) (by rw [makeOwed_slots])

/-- The line of a slot's call names the slot. -/
theorem CallSide.Agrees.line_of_slot (h : s.callSide.Agrees) {c : Call} (hc : (s.slots.at i).call? = some c) :
    (s.lines.at c.line).call = some (i, c.direction) := by
  obtain ⟨k, holds⟩ := holds_of_call hc
  have named := (h.line c.line).named i (k, c.line, c.direction) (by rw [callSide_slot, holds_core]; exact holds) rfl
  rw [callSide_line] at named
  exact named

/-- A line with a call is not in TEST. -/
theorem CallSide.Agrees.not_held_of_call (h : s.callSide.Agrees) {x : SlotId × Direction} (hc : (s.lines.at p).call = some x) : s.bus ≠ .held p := by
  refine (h.line p).not_held fun ht => ?_
  have some := (h.line p).call_isSome
  rw [hc, ht] at some
  exact nomatch some

/-- What a slot with a call holds is of its line. -/
theorem holds_line {c : Call} (hc : (s.slots.at i).call? = some c) : ∀ v ∈ (s.callSide.slots.at i).holds?, v.2.1 = c.line := by
  obtain ⟨k, holds⟩ := holds_of_call hc
  intro v hv
  rw [callSide_slot, holds_core, holds] at hv
  cases hv
  rfl

/-- A slot gives up its call, and the line of the call enters a bare state. -/
theorem endCall_agrees {c : Call} {st : LineState} (r : Reason) (he : st.endsCall = true) (hc : (s.slots.at i).call? = some c)
    (h : s.callSide.Agrees) (hs : SlotStep i s.callSide t.callSide) (hn : (t.callSide.slots.at i).holds? = none) :
    (enterBare c.line st r t).callSide.Agrees := by
  have call := h.line_of_slot hc
  obtain ⟨-, -, named⟩ := (h.line c.line).slot_call call
  have bus : t.bus = s.bus := hs.bus
  exact enterBare_agrees r he ((h.but _).step hs (holds_line hc) fun v hv => by rw [hn] at hv; exact nomatch hv) (named.freed hs hn)
    (by rw [bus]; exact h.not_held_of_call call)

/-! ## Off-hook and on-hook -/

theorem queueLine_agrees (hs : (s.lines.at p).state = .idle) (h : s.callSide.Agrees) : (queueLine p s).callSide.Agrees := by
  unfold queueLine
  rw [enterLine_callSide, if_neg fun x => nomatch x.1, setWaitQueue_callSide]
  have bare : (s.lines.at p).call = none := (h.line p).call_none (by rw [hs]; rfl)
  refine (h.but p).written (.setLine _) (lineAgrees_bare ((h.line p).unnamed (by rw [callSide_line]; exact bare)) rfl (by decide)
    ((h.line p).not_held (by rw [hs]; decide)) fun x => ?_)
  have holds := (h.line p).claimed x
  rw [callSide_line, hs] at holds
  exact nomatch holds

/-- A line's record is written without its state and call, and a slot's record is written. -/
theorem setLine_setSlot_callSide (l : Line) (sl : Slot) (hl : l.side = (s.lines.at p).side) :
    (setLine p l (setSlot i sl s)).callSide = s.callSide.setSlot i sl.core := by
  rw [setLine_callSide_self (setSlot i sl s) p l hl, setSlot_callSide]

theorem answerCall_agrees (hs : (s.lines.at p).state.called = true) (h : s.callSide.Agrees) : (answerCall p s).callSide.Agrees := by
  unfold answerCall
  split
  · next i hi =>
    split
    · next c b hsl =>
      obtain ⟨⟨j, dir⟩, hc, rfl⟩ := Option.map_eq_some_iff.mp hi
      dsimp only at hsl ⊢
      obtain ⟨holds, dirs, named⟩ := (h.line p).slot_call hc
      rw [hsl] at holds
      obtain ⟨line, direction⟩ : c.line = p ∧ c.direction = dir := by
        injection holds with holds
        exact ⟨congrArg (·.2.1) holds, congrArg (·.2.2) holds⟩
      have inward : dir = .inward := dirs .inward (by cases hst : (s.lines.at p).state <;> rw [hst] at hs <;> first | rfl | exact nomatch hs)
      have written := setLine_setSlot_callSide (s := s) (p := p) (i := j) { s.lines.at p with answerOwed := true }
        (.busy { c with answered := true } b) rfl
      have slot : s.callSide.slots.at j = (Slot.reserved c b).core := by rw [callSide_slot, hsl]
      have step : SlotStep j s.callSide (s.callSide.setSlot j (Slot.busy { c with answered := true } b).core) := by
        refine .record _ (Fits.record (h.slot j) ?_ rfl ?_ fun k hk fits => ?_) h.flies
        · rw [slot]; rfl
        · rw [slot]; rfl
        · rw [slot, timerFits_core] at fits
          cases k with
          | seize =>
            have out : c.direction = .out := of_decide_eq_true fits
            rw [direction, inward] at out
            exact nomatch out
          | clear => exact nomatch fits
      have here : ((s.callSide.setSlot j (Slot.busy { c with answered := true } b).core).slots.at j).holds? = some (.busy, p, .inward) := by
        have put : (s.callSide.setSlot j (Slot.busy { c with answered := true } b).core).slots.at j = (Slot.busy { c with answered := true } b).core :=
          Table.at_put_same ..
        rw [put, holds_core]
        dsimp only [Slot.holds?]
        rw [line, direction, inward]
      refine makeOwed_kept j (enterLine_agrees none .normal ?_ ?_ rfl rfl (fun d hd => Option.some.inj hd) (h.not_held_of_call hc))
      · rw [written]
        refine (h.but p).step step (fun v hv => ?_) fun v hv => ?_
        · cases Option.some.inj (named.here.symm.trans hv); rfl
        · cases Option.some.inj (here.symm.trans hv); rfl
      · rw [written]
        exact named.again step here
    · exact h
  · exact h

theorem takeOffHook_agrees (h : s.callSide.Agrees) : (takeOffHook p s).callSide.Agrees := by
  unfold takeOffHook
  split
  · next hs =>
    split
    · exact queueLine_agrees hs h
    · exact enterBare_kept _ rfl (by rw [hs]; rfl) (by rw [hs]; decide) h
  · next hs => exact answerCall_agrees (by rw [hs]; rfl) h
  · next hs => exact answerCall_agrees (by rw [hs]; rfl) h
  · exact h

/-! ## Flashes, digits, faults and contacts -/

theorem takeFlash_agrees (h : s.callSide.Agrees) : (takeFlash p s).callSide.Agrees := by
  unfold takeFlash
  split
  · have owed := agrees_of_side (setLine_callSide_self s p { s.lines.at p with flashOwed := true } rfl) h
    dsimp only
    split
    · exact makeOwed_kept _ owed
    · exact owed
  · exact agrees_of_side (noteEvent_callSide _ _ _) h

theorem endBreak_agrees (ms : Nat) (h : s.callSide.Agrees) : (endBreak p ms s).callSide.Agrees := by
  unfold endBreak classifyBreak endOpenRun
  dsimp only
  split
  · split
    · split
      · exact h
      · split
        · exact h
        · exact takeFlash_agrees h
    · exact h
  · split <;> exact h

theorem completeDigit_agrees (h : s.callSide.Agrees) : (completeDigit p s).callSide.Agrees := by
  unfold completeDigit offerDigit
  dsimp only
  split
  · exact agrees_of_side (noteEvent_callSide _ _ _) h
  · split
    · split
      · exact makeOwed_kept _ h
      · exact h
    · exact agrees_of_side (noteEvent_callSide _ _ _) h

theorem acceptFault_callSide (present : Bool) : (acceptFault p present s).callSide = s.callSide := by
  unfold acceptFault
  exact setLine_callSide_self _ p _ rfl

theorem takeFault_agrees (h : s.callSide.Agrees) : (takeFault p s).callSide.Agrees := by
  have accepted : (acceptFault p true (beginCondition (.lineFault p) s)).callSide.Agrees :=
    agrees_of_side (acceptFault_callSide true) (agrees_of_side (beginCondition_callSide _ _) h)
  unfold takeFault faultLine
  split
  · exact accepted
  · next hs =>
    refine endLine_agrees _ rfl (fun ht => hs ?_) accepted
    rw [ht]
    rfl

theorem takeFaultClear_agrees (h : s.callSide.Agrees) : (takeFaultClear p s).callSide.Agrees := by
  have side : (acceptFault p false (endCondition (.lineFault p) s)).callSide = s.callSide :=
    (acceptFault_callSide false).trans (endCondition_callSide _ _)
  have accepted := agrees_of_side side h
  unfold takeFaultClear
  dsimp only
  split
  · next hs =>
    have state : ((acceptFault p false (endCondition (.lineFault p) s)).lines.at p).state = .fault := by
      have line := congrArg (fun c => (c.lines.at p).1) side
      rw [callSide_line, callSide_line] at line
      exact line.trans hs
    exact enterBare_kept _ rfl (by rw [state]; rfl) (by rw [state]; decide) accepted
  · exact accepted

theorem takeContact_callSide (c : ContactState) : (takeContact p c s).callSide = s.callSide := by
  unfold takeContact
  cases c <;> simp

theorem slowSample_agrees (g : GroupId) (closed faulty : BitVec 8) (h : s.callSide.Agrees) : (slowSample g closed faulty s).callSide.Agrees := by
  have pins : (sampledPins g closed faulty s).callSide = s.callSide :=
    inTurn_keeps State.callSide (fun p t => setFaultPin p (levelOf faulty p) (setHookPin p (levelOf closed p) t)) (fun _ _ => rfl) _ s
  have contacts (u : State) : (inTurn (portsOf g) (slowContact closed) u).callSide = u.callSide := by
    refine inTurn_keeps State.callSide _ (fun p t => ?_) _ u
    unfold slowContact
    dsimp only
    split
    · rw [takeContact_callSide]; rfl
    · rfl
  have sampled := agrees_of_side ((contacts (nextSlowSample g (sampledPins g closed faulty s))).trans pins) h
  unfold slowSample
  dsimp only
  split
  · exact inTurn_induct (fun t => t.callSide.Agrees) _ _ (fun p _ t ht => takeFault_agrees ht) _ (agrees_of_side (enterWaking_callSide _ _ _) sampled)
  · split
    · exact agrees_of_side (enterWaking_callSide _ _ _) sampled
    · exact sampled

end

end Sys2Proof.Machine
end

