-- ==== Sys2Proof/Proofs/CallHeads.lean ====
section
/-! PROOF. The messages of the head terminal for a slot and the reply timers of the slots keep the agreement of the calls (O60). -/

namespace Sys2Proof.Machine

section
variable {s t : State} {i : SlotId} {p : Port}

/-! ## Messages that name no slot -/

/-- A queue with the same messages of every slot, and the same in flight, agrees as before. -/
theorem CallSide.Agrees.requeued {c d : CallSide} (h : c.Agrees) (hl : d.lines = c.lines) (hs : d.slots = c.slots) (ht : d.timers = c.timers)
    (ho : d.owed = c.owed) (hb : d.bus = c.bus) (hm : ∀ i, d.ofSlot i = c.ofSlot i) (hf : ∀ i, d.flight i = c.flight i)
    (flies : d.flying = true → d.msgs ≠ []) : d.Agrees where
  line q := (h.line q).congr (by rw [hl]) (fun _ => by rw [hs]) (by rw [hb]) (by rw [hb]; exact id)
  slot j := by
    unfold SlotAgrees
    rw [hs, ht, ho, hm, hf]
    exact h.slot j
  flies := flies

theorem CallSide.Agrees.addFree {c : CallSide} (h : c.Agrees) (first : Bool) (m : FreeMsg) : (c.add first (.ofNone m)).Agrees := by
  refine h.requeued rfl rfl rfl rfl rfl (fun i => ?_) (fun i => add_flight first _ i h.flies) fun _ => add_flies first _
  have other : (Msg.ofNone m).slot? ≠ some i := fun x => nomatch x
  rw [add_ofSlot first _ i fun x => absurd x other, if_neg other]

theorem addFreeEntry_agrees (m : FreeMsg) (h : s.callSide.Agrees) : (addFreeEntry m s).callSide.Agrees := by
  rcases addFreeEntry_callSide s m with side | ⟨first, side⟩
  · exact agrees_of_side side h
  · rw [side]
    exact h.addFree first m

theorem makeRestart_agrees (h : s.callSide.Agrees) : (makeRestart s).callSide.Agrees := by
  rcases makeRestart_callSide s with side | ⟨first, side⟩
  · exact agrees_of_side side h
  · rw [side]
    exact h.addFree first _

/-! ## ACCEPT, REJECT and PROGRESS -/

/-- What an ACCEPT or a REJECT finds. -/
theorem awaitingReply_slot {tag : Byte} {c : Call} {b : Bool} (h : awaitingReply s tag = some (i, c, b)) :
    s.slots.at i = .reserved c b ∧ c.direction = .out := by
  unfold awaitingReply at h
  split at h
  · split at h
    · next hs =>
      split at h
      · next hc =>
        cases h
        exact ⟨hs, hc.1⟩
      · exact nomatch h
    · exact nomatch h
  · exact nomatch h

theorem stopReplyTimer_callSide : (stopReplyTimer i s).callSide = s.callSide.setSig i none (s.sig.at i).owed := by
  unfold stopReplyTimer
  rw [setSig_callSide]
  rfl

/-- A slot that is not in CLEARING owes nothing. -/
theorem CallSide.Agrees.owes_nothing (h : s.callSide.Agrees) {sl : Slot} (hs : s.slots.at i = sl) (hc : sl.clearSide? = none) : (s.sig.at i).owed = none := by
  have none := (h.slot i).owes_only_clearing (by rw [callSide_slot, clearSide_core, hs]; exact hc)
  exact (callSide_owed s i).symm.trans none

theorem connectCall_agrees {c : Call} {b : Bool} (hs : s.slots.at i = .reserved c b) (hd : c.direction = .out) (h : s.callSide.Agrees) :
    (connectCall i c b s).callSide.Agrees := by
  have hc : (s.slots.at i).call? = some c := by rw [hs]; rfl
  have call := h.line_of_slot hc
  rw [hd] at call
  obtain ⟨-, -, named⟩ := (h.line c.line).slot_call call
  have owes := h.owes_nothing hs rfl
  have written : (setSlot i (.busy c b) (removeEntries i (stopReplyTimer i s))).callSide
      = ((s.callSide.setSig i none none).drop i).setSlot i (Slot.busy c b).core := by
    rw [setSlot_callSide, removeEntries_callSide, stopReplyTimer_callSide, owes]
  have step : SlotStep i s.callSide (((s.callSide.setSig i none none).drop i).setSlot i (Slot.busy c b).core) := by
    refine ⟨rfl, rfl, ((SameOff.setSig _ _).trans .drop).trans (.setSlot _), setSlot_agrees _ ?_, drop_flies h.flies⟩
    have timer : ((s.callSide.setSig i none none).drop i).timers.at i = none := Table.at_put_same ..
    have owed : ((s.callSide.setSig i none none).drop i).owed.at i = none := Table.at_put_same ..
    rw [timer, owed, drop_ofSlot]
    exact .idle _ _
  have here : ((((s.callSide.setSig i none none).drop i).setSlot i (Slot.busy c b).core).slots.at i).holds? = some (.busy, c.line, .out) := by
    have put : (((s.callSide.setSig i none none).drop i).setSlot i (Slot.busy c b).core).slots.at i = (Slot.busy c b).core := Table.at_put_same ..
    rw [put, holds_core]
    dsimp only [Slot.holds?]
    rw [hd]
  unfold connectCall
  refine makeOwed_kept i (enterLine_agrees none .normal ?_ ?_ rfl rfl (fun d hd => Option.some.inj hd) (h.not_held_of_call call))
  · rw [written]
    refine (h.but _).step step (holds_line hc) fun v hv => ?_
    cases Option.some.inj (here.symm.trans hv)
    rfl
  · rw [written]
    exact named.again step here

theorem takeAccept_agrees (tag : Byte) (h : s.callSide.Agrees) : (takeAccept tag s).callSide.Agrees := by
  unfold takeAccept
  split
  · next ha =>
    obtain ⟨hs, hd⟩ := awaitingReply_slot ha
    exact connectCall_agrees hs hd h
  · exact h

theorem takeReject_agrees (tag : Byte) (r : Reason) (h : s.callSide.Agrees) : (takeReject tag r s).callSide.Agrees := by
  unfold takeReject
  split
  · next i c b ha =>
    obtain ⟨hs, -⟩ := awaitingReply_slot ha
    have hc : (s.slots.at i).call? = some c := by rw [hs]; rfl
    have inUse : ((stopReplyTimer i s).slots.at i).inUse = true := inUse_of_call (sl := s.slots.at i) hc
    have freed := releasedLocally_step (s := stopReplyTimer i s) inUse (by rw [stopReplyTimer_callSide]; exact h.flies)
    have step : SlotStep i s.callSide (freeSlot i (removeEntries i (stopReplyTimer i s))).callSide := by
      refine ⟨freed.lines.trans ?_, freed.bus.trans ?_, SameOff.trans ?_ freed.off, freed.slot, freed.flies⟩
      · rw [stopReplyTimer_callSide]; rfl
      · rw [stopReplyTimer_callSide]; rfl
      · rw [stopReplyTimer_callSide]; exact .setSig _ _
    exact endCall_agrees r rfl hc h step (freeSlot_holds inUse)
  · exact h

theorem takeProgress_agrees (tag : Byte) (h : s.callSide.Agrees) : (takeProgress tag s).callSide.Agrees := by
  unfold takeProgress
  split
  · split
    · next c b hs =>
      split
      · exact agrees_of_side (setSlot_callSide_self (by rw [hs]; rfl)) h
      · exact h
    · exact h
  · exact h

/-! ## CLEAR and CLEAR_ACK -/

theorem clearCall_agrees {c : Call} (r : Reason) (hc : (s.slots.at i).call? = some c) (h : s.callSide.Agrees) : (clearCall i c r s).callSide.Agrees := by
  refine endCall_agrees r ?_ hc h (releaseOwing_step _ hc (h.slot i) h.flies) (releaseOwing_holds _ hc)
  unfold clearedState
  split <;> rfl

/-- A slot in CLEARING holds no call, and so afterwards. -/
theorem clearing_kept {side : ClearSide} (hs : (s.slots.at i).clearSide? = some side) (h : s.callSide.Agrees) (step : SlotStep i s.callSide t.callSide)
    (hn : (t.callSide.slots.at i).holds? = none) : t.callSide.Agrees := by
  refine h.keep step (hn.trans ?_)
  obtain ⟨p, tag, -, -, b, slot⟩ := party_of_clearSide hs
  rw [callSide_slot, holds_core, slot]
  rfl

theorem collide_agrees {tag : Nat} {r : Reason} {b : Bool} (hs : s.slots.at i = .clearing p tag (.awaitAck r) b) (h : s.callSide.Agrees) :
    (collide i p tag b s).callSide.Agrees := by
  refine clearing_kept (side := .awaitAck r) (by rw [hs]; rfl) h (collide_step hs (h.slot i) h.flies) ?_
  rw [collide_given]
  exact giveItem_clearing_holds _

theorem takeHeadClear_agrees (tag : Byte) (r : Reason) (h : s.callSide.Agrees) : (takeHeadClear tag r s).callSide.Agrees := by
  unfold takeHeadClear
  cases hb : (slotOfTag s tag.toNat).bind fun i => clearBySlot i r s with
  | none => exact addFreeEntry_agrees _ h
  | some t =>
    obtain ⟨i, -, ht⟩ := Option.bind_eq_some_iff.mp hb
    unfold clearBySlot at ht
    show t.callSide.Agrees
    split at ht
    · cases ht; exact h
    · next hs =>
      split at ht
      · cases ht; exact collide_agrees hs h
      · exact nomatch ht
    case h_6 => exact nomatch ht
    all_goals
      next hs =>
        split at ht
        · cases ht; exact clearCall_agrees r (by rw [hs]; rfl) h
        · exact nomatch ht

theorem takeHeadClearAck_agrees (tag : Byte) (h : s.callSide.Agrees) : (takeHeadClearAck tag s).callSide.Agrees := by
  unfold takeHeadClearAck
  split
  · next i _ =>
    split
    · next hs =>
      split
      · have inUse : (s.slots.at i).inUse = true := by rw [hs]; rfl
        have removed : ((removeEntries i s).slots.at i).inUse = true := inUse
        exact clearing_kept (by rw [hs]; rfl) h (releasedLocally_step inUse h.flies) (freeSlot_holds removed)
      · exact h
    · exact h
  · exact h

/-! ## The reply timers -/

theorem replyTimer_runs {k : TimerKind} {r : TimerRun} (h : replyTimerRuns s i k r = true) : s.callSide.timers.at i = some k := by
  unfold replyTimerRuns at h
  rw [callSide_timer]
  split at h
  · next t ht =>
    rw [Bool.and_eq_true_iff] at h
    rw [ht]
    exact congrArg some (of_decide_eq_true h.1)
  · exact nomatch h

/-- A message is made again at the end of a reply timer. -/
theorem repeated_step {tag : Nat} {k : TimerKind} (u : Bool) (m : SlotMsg) (hk : s.callSide.timers.at i = some k)
    (hp : (s.slots.at i).party? = some (p, tag)) (hh : (s.slots.at i).isHeld = false) (hm : sendsIn m (s.slots.at i) = true) (h : s.callSide.Agrees) :
    SlotStep i s.callSide (addSlotEntry u i m (stopReplyTimer i s)).callSide ∧ (addSlotEntry u i m (stopReplyTimer i s)).callSide.slots = s.callSide.slots := by
  have nil := (h.slot i).flies_of_timer hk
  have owes : (s.sig.at i).owed = none := (callSide_owed s i).symm.trans ((h.slot i).owes_nothing (flight_of_nil nil))
  obtain ⟨first, added⟩ := addSlotEntry_callSide (stopReplyTimer i s) (i := i) (p := p) (tag := tag) u m hp
  rw [added, stopReplyTimer_callSide, owes]
  have slot : (s.callSide.setSig i none none).slots.at i = (s.slots.at i).core := callSide_slot s i
  have made := SlotStep.made (c := s.callSide.setSig i none none) (i := i) first (p := p) (tag := tag) (m := m) nil (Table.at_put_same ..)
    (Table.at_put_same ..) (by rw [slot, party_core]; exact hp) (by rw [slot, isHeld_core]; exact hh) (by rw [slot, sendsIn_core]; exact hm) h.flies
  exact ⟨⟨made.lines, made.bus, (SameOff.setSig none none).trans made.off, made.slot, made.flies⟩, rfl⟩

theorem expireSeize_agrees (h : s.callSide.Agrees) : (expireSeize i s).callSide.Agrees := by
  unfold expireSeize
  split
  · next c b hs =>
    split
    · next hr =>
      obtain ⟨step, slots⟩ := repeated_step (isPriority s c.line) .seize (replyTimer_runs hr) (p := c.line) (tag := c.tag) (by rw [hs]; rfl)
        (by rw [hs]; rfl) (by rw [hs]; rfl) h
      exact h.keep step (congrArg (fun t => (Table.at t i).holds?) slots)
    · split
      · have hc : (s.slots.at i).call? = some c := by rw [hs]; rfl
        exact endCall_agrees .noReply rfl hc h (releaseOwing_step _ hc (h.slot i) h.flies) (releaseOwing_holds _ hc)
      · exact h
  · exact h

theorem failClear_agrees {side : ClearSide} {k : TimerKind} (hs : (s.slots.at i).clearSide? = some side) (hk : s.callSide.timers.at i = some k)
    (h : s.callSide.Agrees) : (failClear i s).callSide.Agrees := by
  have written : (failClear i s).callSide = (s.callSide.setSig i none none).setSlot i (.blocked .cabinet) := by
    unfold failClear
    simp [Sig.cleared, Slot.core]
  have put : ((s.callSide.setSig i none none).setSlot i (.blocked .cabinet)).slots.at i = .blocked .cabinet := Table.at_put_same ..
  refine clearing_kept hs h ?_ ?_
  · rw [written]
    exact .cleared _ ((h.slot i).flies_of_timer hk) h.flies
  · rw [written, put]
    rfl

theorem expireClear_agrees (h : s.callSide.Agrees) : (expireClear i s).callSide.Agrees := by
  unfold expireClear
  split
  · next p tag r b hs =>
    split
    · next hr =>
      obtain ⟨step, slots⟩ := repeated_step false (.clear r) (replyTimer_runs hr) (p := p) (tag := tag) (by rw [hs]; rfl)
        (by rw [hs]; rfl) (by rw [hs]; rfl) h
      exact h.keep step (congrArg (fun t => (Table.at t i).holds?) slots)
    · split
      · next hr => exact failClear_agrees (by rw [hs]; rfl) (replyTimer_runs hr) h
      · exact h
  · exact h

end

end Sys2Proof.Machine
end

