-- ==== Sys2Proof/Proofs/CallQueue.lean ====
section
/-! PROOF. The start, the completion and the return of what is in flight keep the agreement of the calls (O60). -/

namespace Sys2Proof.Machine

namespace CallSide

/-- The message in flight has gone: it leaves the queue. -/
def landed (c : CallSide) : CallSide := { c with msgs := c.msgs.tail, flying := false }

/-- The message in flight is abandoned and stays in the queue. -/
def grounded (c : CallSide) : CallSide := { c with flying := false }

end CallSide

section
variable {c d e : CallSide} {i : SlotId} {m : Msg} {rest : List Msg}

/-! ## A slot on the way to what it sends next -/

/-- A slot on the way: the lines, the bus and the other slots stand, and the slot holds what it held. -/
structure SlotPass (i : SlotId) (c d : CallSide) : Prop where
  lines : d.lines = c.lines
  bus : d.bus = c.bus
  off : SameOff i c d
  holds : (d.slots.at i).holds? = (c.slots.at i).holds?

theorem SlotPass.refl : SlotPass i c c := ⟨rfl, rfl, .refl, rfl⟩

theorem SlotPass.trans (h : SlotPass i c d) (h' : SlotPass i d e) : SlotPass i c e :=
  ⟨h'.lines.trans h.lines, h'.bus.trans h.bus, h.off.trans h'.off, h'.holds.trans h.holds⟩

/-- A slot arrives where it agrees with its messages. -/
theorem CallSide.Agrees.arrive (h : c.Agrees) (pass : SlotPass i c d) (step : SlotStep i d e)
    (holds : (e.slots.at i).holds? = (d.slots.at i).holds?) : e.Agrees :=
  h.keep ⟨step.lines.trans pass.lines, step.bus.trans pass.bus, pass.off.trans step.off, step.slot, step.flies⟩ (holds.trans pass.holds)

/-! ## The message in flight -/

/-- Nothing of another slot is in flight. -/
theorem flight_other {j : SlotId} (hm : c.msgs = m :: rest) (hj : m.slot? ≠ some j) : c.flight j = none := by
  rw [← Option.not_isSome_iff_eq_none, flight_isSome, hm]
  rintro ⟨-, x, head, slot⟩
  cases Option.some.inj head
  exact hj slot

theorem landed_ofSlot_other {j : SlotId} (hm : c.msgs = m :: rest) (hj : m.slot? ≠ some j) : c.landed.ofSlot j = c.ofSlot j := by
  unfold CallSide.ofSlot CallSide.landed
  rw [hm, List.filter_cons_of_neg (by simpa using hj)]
  rfl

theorem grounded_flight (j : SlotId) : c.grounded.flight j = none := flight_none rfl

theorem landed_flight (j : SlotId) : c.landed.flight j = none := flight_none rfl

theorem landed_pass (hm : c.msgs = m :: rest) (hi : m.slot? = some i) : SlotPass i c c.landed := by
  have other {j : SlotId} (hj : j ≠ i) : m.slot? ≠ some j := fun x => hj (Option.some.inj (hi.symm.trans x)).symm
  exact ⟨rfl, rfl, ⟨fun _ _ => rfl, fun _ _ => rfl, fun _ _ => rfl, fun j hj => landed_ofSlot_other hm (other hj),
    fun j hj => (landed_flight j).trans (flight_other hm (other hj)).symm⟩, rfl⟩

theorem grounded_pass (hm : c.msgs = m :: rest) (hi : m.slot? = some i) : SlotPass i c c.grounded :=
  ⟨rfl, rfl, ⟨fun _ _ => rfl, fun _ _ => rfl, fun _ _ => rfl, fun _ _ => rfl, fun j hj => (grounded_flight j).trans
    (flight_other hm fun x => hj (Option.some.inj (hi.symm.trans x)).symm).symm⟩, rfl⟩

/-- The one message of a slot is the one in flight. -/
theorem ofSlot_flying (h : SlotAgrees c i) (hm : c.msgs = m :: rest) (hi : m.slot? = some i) : c.ofSlot i = [m] ∧ c.landed.ofSlot i = [] := by
  have one := h.one
  have cons : c.ofSlot i = m :: c.landed.ofSlot i := by
    unfold CallSide.ofSlot CallSide.landed
    rw [hm, List.filter_cons_of_pos (by simpa using hi)]
    rfl
  rw [cons, List.length_cons] at one
  have nil : c.landed.ofSlot i = [] := List.eq_nil_of_length_eq_zero (by omega)
  exact ⟨by rw [cons, nil], nil⟩

/-- No reply timer of a slot runs while a message of it is in flight. -/
theorem timer_flying (h : SlotAgrees c i) (hm : c.msgs = m :: rest) (hi : m.slot? = some i) : c.timers.at i = none := by
  cases ht : c.timers.at i with
  | none => rfl
  | some k =>
    have nil := h.flies_of_timer ht
    rw [(ofSlot_flying h hm hi).1] at nil
    exact nomatch nil

/-- What a slot owes, it owes behind the message in flight. -/
theorem owed_flying {o : ClearOwed} {sm : SlotMsg} (h : SlotAgrees c i) (hm : c.msgs = m :: rest) (hs : m.sends? = some sm)
    (ho : c.owed.at i = some o) : (c.slots.at i).clearSide? = some o.side ∧ owedFits o sm = true := by
  obtain ⟨side, n, flight, fits⟩ := h.owes o ho
  obtain ⟨-, x, head, -, sends⟩ := flight_eq.mp flight
  rw [hm] at head
  cases Option.some.inj head
  cases Option.some.inj (hs.symm.trans sends)
  exact ⟨side, fits⟩

/-- What has gone leaves its slot with nothing queued, and perhaps with a clear item that is to be made now. -/
theorem landed_mends (h : SlotAgrees c i) (hm : c.msgs = m :: rest) (hi : m.slot? = some i) : Mends c.landed i := by
  have nil := (ofSlot_flying h hm hi).2
  have timer : c.timers.at i = none := timer_flying h hm hi
  obtain ⟨sm, sends⟩ := sends_of_slot hi
  cases ho : c.owed.at i with
  | none =>
    refine .inl ?_
    unfold SlotAgrees
    have timer : c.landed.timers.at i = none := timer
    have owed : c.landed.owed.at i = none := ho
    rw [timer, owed, nil]
    exact .idle _ _
  | some o => exact .inr ⟨nil, timer, o, ho, (owed_flying h hm sends ho).1⟩

/-- A reply timer starts behind a message that has gone, where nothing is owed. -/
theorem landed_timed {k : TimerKind} (h : SlotAgrees c i) (hm : c.msgs = m :: rest) (hi : m.slot? = some i) (ho : c.owed.at i = none)
    (hk : timerFits k (c.slots.at i) = true) : SlotAgrees (c.landed.setSig i (some k) none) i := by
  have nil := (ofSlot_flying h hm hi).2
  refine setSig_agrees _ _ ⟨?_, ?_, fun k' hk' => ?_, fun _ x => (nomatch x)⟩
  · rw [nil]; exact Nat.zero_le 1
  · rw [nil]; exact fun _ x => (nomatch x)
  · cases hk'
    exact ⟨nil, hk⟩

end

/-! ## Completing (R157) -/

section
variable {s t : State} {i : SlotId} {p : Port} {e : Entry} {rest : List Entry}

theorem setSig_callSide_self {g : Sig} (ht : g.timer.map (·.kind) = (s.sig.at i).timer.map (·.kind)) (ho : g.owed = (s.sig.at i).owed) :
    (setSig i g s).callSide = s.callSide := by
  rw [setSig_callSide, ht, ho, ← callSide_timer, ← callSide_owed]
  unfold CallSide.setSig
  rw [Table.put_at, Table.put_at]

theorem startReplyTimer_callSide (k : TimerKind) (r : TimerRun) : (startReplyTimer i k r s).callSide = s.callSide.setSig i (some k) (s.sig.at i).owed := by
  unfold startReplyTimer
  rw [setSig_callSide]
  rfl

/-- What a completed message leaves of its slot. -/
def Completed (i : SlotId) (c d : CallSide) : Prop := SlotPass i c d ∧ Mends d i ∧ d.flying = false

/-- A reply timer starts as a message has gone. -/
theorem completed_timed {m : Msg} {msgs : List Msg} {k : TimerKind} {r : TimerRun} {g : Sig} (h : s.callSide.Agrees) (hm : s.callSide.msgs = m :: msgs)
    (hi : m.slot? = some i) (ht : t.callSide = s.callSide.landed) (hg : g.owed = (s.sig.at i).owed) (ho : (s.sig.at i).owed = none)
    (hk : timerFits k (s.slots.at i) = true) : Completed i s.callSide (startReplyTimer i k r (setSig i g t)).callSide := by
  have owed : s.callSide.owed.at i = none := (callSide_owed s i).trans ho
  have written : (startReplyTimer i k r (setSig i g t)).callSide = (s.callSide.landed.setSig i (g.timer.map (·.kind)) none).setSig i (some k) none := by
    have sig : ((setSig i g t).sig.at i).owed = none := (congrArg Sig.owed (Table.at_put_same ..)).trans (hg.trans ho)
    rw [startReplyTimer_callSide, setSig_callSide, ht, sig, hg, ho]
  have again : (s.callSide.landed.setSig i (g.timer.map (·.kind)) none).setSig i (some k) none = s.callSide.landed.setSig i (some k) none := by
    unfold CallSide.setSig
    simp only [put_put]
  rw [written, again]
  refine ⟨(landed_pass hm hi).trans ⟨rfl, rfl, .setSig _ _, rfl⟩, .inl (landed_timed (h.slot i) hm hi owed ?_), rfl⟩
  rw [callSide_slot, timerFits_core]
  exact hk

/-- What the completion of a slot's message does leaves its slot with nothing queued. -/
theorem messageSent_completed {q : Port} {tag : Nat} {sm : SlotMsg} {msgs : List Msg} (h : s.callSide.Agrees)
    (hm : s.callSide.msgs = .ofSlot i q tag sm :: msgs) (ht : t.callSide = s.callSide.landed) (hslots : t.slots = s.slots) (hsig : t.sig = s.sig) :
    Completed i s.callSide (messageSent (.ofSlot i q tag sm) t).callSide := by
  have agrees := h.slot i
  have slot : (Msg.ofSlot i q tag sm).slot? = some i := rfl
  have mends := landed_mends agrees hm slot
  have landed : Completed i s.callSide s.callSide.landed := ⟨landed_pass hm slot, mends, rfl⟩
  have stays {u : State} (hu : u.callSide = t.callSide) : Completed i s.callSide u.callSide := by
    rw [hu, ht]
    exact landed
  have known (f : Sig → Sig) (hf : (f (s.sig.at i)).timer = (s.sig.at i).timer) (ho : (f (s.sig.at i)).owed = (s.sig.at i).owed) :
      (setSig i (f (s.sig.at i)) t).callSide = t.callSide := setSig_callSide_self (by rw [hsig, hf]) (by rw [hsig, ho])
  cases sm with
  | seize =>
    show Completed i s.callSide (seizeSent i t).callSide
    unfold seizeSent
    dsimp only
    rw [hslots, hsig]
    split
    · next c b hs =>
      split
      · next hd =>
        refine completed_timed h hm slot ht rfl (h.owes_nothing hs rfl) ?_
        rw [hs]
        exact decide_eq_true hd
      · exact stays (known (fun g => { g with tagKnown := true }) rfl rfl)
    · exact stays (known (fun g => { g with tagKnown := true }) rfl rfl)
  | offer ref =>
    show Completed i s.callSide (setSig i { t.sig.at i with tagKnown := true } t).callSide
    rw [hsig]
    exact stays (known (fun g => { g with tagKnown := true }) rfl rfl)
  | digits => exact stays rfl
  | clear r =>
    show Completed i s.callSide (clearSentNow i t).callSide
    unfold clearSentNow
    dsimp only
    rw [hslots, hsig]
    split
    · next p' tag' r' b hs =>
      have owes : (s.sig.at i).owed = none := by
        cases ho : (s.sig.at i).owed with
        | none => rfl
        | some o =>
          obtain ⟨side, fits⟩ := owed_flying agrees hm rfl ((callSide_owed s i).trans ho)
          rw [callSide_slot, clearSide_core, hs] at side
          cases o with
          | clear r => exact nomatch fits
          | clearAck => exact nomatch side
      refine completed_timed h hm slot ht rfl owes ?_
      rw [hs]
      rfl
    · exact stays (known (fun g => { g with clearSent := true }) rfl rfl)
  | clearAck =>
    show Completed i s.callSide (clearAckSent i t).callSide
    unfold clearAckSent
    split
    · next hs =>
      have nil : t.callSide.ofSlot i = [] := by rw [ht]; exact (ofSlot_flying agrees hm slot).2
      have inUse : (t.slots.at i).inUse = true := by rw [hs]; rfl
      have step := freeSlot_step inUse nil (by rw [ht]; exact fun x => nomatch x)
      have none : (t.callSide.slots.at i).holds? = none := by rw [callSide_slot, holds_core, hs]; rfl
      have pass : SlotPass i s.callSide t.callSide := by rw [ht]; exact landed_pass hm slot
      refine ⟨pass.trans ⟨step.lines, step.bus, step.off, (freeSlot_holds inUse).trans none.symm⟩, .inl step.slot, ?_⟩
      rw [freeSlot_callSide t i inUse, ht]
      rfl
    · exact stays rfl
  | answer => exact stays rfl
  | flash => exact stays rfl

theorem messageSent_free_callSide (m : FreeMsg) : (messageSent (.ofNone m) t).callSide = t.callSide := by
  unfold messageSent
  split
  all_goals first | exact nomatch ‹Msg.ofNone m = Msg.ofSlot _ _ _ _› | rfl | skip
  unfold restartSent
  split <;> rfl

theorem completeEntry_agrees (hf : s.inFlight.isSome = true) (h : s.callSide.Agrees) : (completeEntry s).callSide.Agrees := by
  unfold completeEntry
  split
  · next e rest hq =>
    have msgs : s.callSide.msgs = e.msg :: rest.map (·.msg) := by
      unfold State.callSide
      rw [hq]
      rfl
    have left : ({ s with txq := rest, inFlight := none } : State).callSide = s.callSide.landed := by
      unfold State.callSide CallSide.landed
      rw [hq]
      rfl
    refine makeRestart_agrees ?_
    obtain ⟨msg, pinned⟩ := e
    cases msg with
    | ofNone m =>
      unfold makeNext
      dsimp only [Entry.slot?]
      rw [messageSent_free_callSide, left]
      have none (j : SlotId) : (Msg.ofNone m).slot? ≠ some j := fun x => nomatch x
      exact h.requeued rfl rfl rfl rfl rfl (fun j => landed_ofSlot_other msgs (none j))
        (fun j => (landed_flight j).trans (flight_other msgs (none j)).symm) fun x => nomatch x
    | ofSlot i q tag sm =>
      obtain ⟨pass, mends, flying⟩ := messageSent_completed (t := { s with txq := rest, inFlight := none }) h msgs left rfl rfl
      show (makeOwed i (messageSent (.ofSlot i q tag sm) { s with txq := rest, inFlight := none })).callSide.Agrees
      refine h.arrive pass (makeOwed_step mends fun x => ?_) (by rw [makeOwed_slots])
      rw [flying] at x
      exact nomatch x
  · exact h

/-! ## Starting (R156) -/

/-- With nothing in flight, entries can leave the queue and the first can start. -/
theorem CallSide.Agrees.sent {c d : CallSide} (h : c.Agrees) (hf : c.flying = false) (hl : d.lines = c.lines) (hs : d.slots = c.slots)
    (ht : d.timers = c.timers) (ho : d.owed = c.owed) (hb : d.bus = c.bus) (hm : d.msgs.Sublist c.msgs) (flies : d.flying = true → d.msgs ≠ []) :
    d.Agrees where
  line q := (h.line q).congr (by rw [hl]) (fun _ => by rw [hs]) (by rw [hb]) (by rw [hb]; exact id)
  slot j := by
    have agrees := h.slot j
    have sub : (d.ofSlot j).Sublist (c.ofSlot j) := hm.filter _
    refine ⟨sub.length_le.trans agrees.one, fun m hx => ?_, fun k hk => ?_, fun o x => ?_⟩
    · rw [hs]
      exact agrees.fits m (sub.subset hx)
    · rw [ht] at hk
      rw [hs]
      obtain ⟨nil, fits⟩ := agrees.waits k hk
      rw [nil, List.sublist_nil] at sub
      exact ⟨sub, fits⟩
    · rw [ho, agrees.owes_nothing (flight_none hf)] at x
      exact nomatch x
  flies := flies

/-- What a start leaves: a part of the queue, with its head in flight. -/
theorem startSending_callSide (q : List Entry) : ∃ l b, l.Sublist q ∧ (b = true → l ≠ [])
    ∧ (startSending q s).callSide = { s.callSide with msgs := l.map (·.msg), flying := b || s.callSide.flying && l.isEmpty } := by
  induction q with
  | nil => exact ⟨[], false, .refl _, fun x => (nomatch x), by unfold State.callSide startSending setTxq; simp⟩
  | cons e rest ih =>
    unfold startSending
    split
    · obtain ⟨l, b, sub, some, side⟩ := ih
      exact ⟨l, b, sub.cons _, some, side⟩
    · refine ⟨e :: rest, true, .refl _, fun _ => List.cons_ne_nil _ _, ?_⟩
      unfold startEntry lendDigits
      dsimp only
      split <;> rfl

theorem startSending_agrees (hs : maySend s = true) (h : s.callSide.Agrees) : (startSending s.txq s).callSide.Agrees := by
  have grounded : s.callSide.flying = false := by
    unfold maySend at hs
    simp only [Bool.and_eq_true] at hs
    obtain ⟨⟨-, none⟩, -⟩ := hs
    rw [Option.isNone_iff_eq_none] at none
    exact congrArg Option.isSome none
  obtain ⟨l, b, sub, some, side⟩ := startSending_callSide (s := s) s.txq
  rw [side]
  refine h.sent grounded rfl rfl rfl rfl rfl (sub.map _) fun x => ?_
  rw [grounded, Bool.false_and, Bool.or_false] at x
  exact fun nil => some x (List.map_eq_nil_iff.mp nil)

/-! ## FLOW (R159) -/

theorem returnDigits_callSide (m : Msg) (digits : List Digit) : (returnDigits m digits s).callSide = s.callSide := by
  unfold returnDigits
  split
  · dsimp only
    split <;> rfl
  · rfl

theorem returnDigits_fields (m : Msg) (digits : List Digit) : (returnDigits m digits s).slots = s.slots ∧ (returnDigits m digits s).sig = s.sig := by
  unfold returnDigits
  split
  · dsimp only
    split <;> exact ⟨rfl, rfl⟩
  · exact ⟨rfl, rfl⟩

/-- The returned message of a slot becomes the clear item that the slot owes. -/
theorem convertOwed_step {o : ClearOwed} {m : Msg} {msgs : List Msg} (h : SlotAgrees t.callSide i) (hm : t.callSide.msgs = m :: msgs) (hi : m.slot? = some i)
    (ho : (t.sig.at i).owed = some o) {u : State} (hu : u.callSide = t.callSide.grounded) (hsig : u.sig = t.sig) :
    SlotStep i u.callSide (convertEntry i o.msg (setClearOwed i none u)).callSide := by
  obtain ⟨sm, sends⟩ := sends_of_slot hi
  obtain ⟨side, -⟩ := owed_flying h hm sends ((callSide_owed t i).trans ho)
  obtain ⟨p, tag, party, held, b, slot⟩ := party_of_clearSide side
  have timer := timer_flying h hm hi
  have cleared : (setClearOwed i none u).callSide = t.callSide.grounded.setSig i none none := by
    unfold setClearOwed
    have none : (u.sig.at i).timer.map (·.kind) = none := by rw [hsig]; exact (callSide_timer t i).symm.trans timer
    rw [setSig_callSide, hu]
    dsimp only
    rw [none]
  rw [convertEntry_callSide, cleared, hu]
  refine ⟨rfl, rfl, (SameOff.setSig _ _).trans (.convert _), ?_, convert_flies _ fun x => nomatch x⟩
  unfold SlotAgrees
  have slots : ((t.callSide.grounded.setSig i none none).convert i o.msg).slots.at i = .clearing p tag o.side b := slot
  have timers : ((t.callSide.grounded.setSig i none none).convert i o.msg).timers.at i = none := Table.at_put_same ..
  have owed : ((t.callSide.grounded.setSig i none none).convert i o.msg).owed.at i = none := Table.at_put_same ..
  have one : (t.callSide.grounded.setSig i none none).ofSlot i = [m] := (ofSlot_flying h hm hi).1
  rw [slots, timers, owed, convert_ofSlot, one]
  refine .sending ?_ _
  have fits := h.fits m (by rw [(ofSlot_flying h hm hi).1]; exact List.mem_singleton_self m)
  rw [slot] at fits
  cases m with
  | ofNone m => exact trivial
  | ofSlot j q tag' sm' =>
    obtain ⟨party', -, -⟩ := fits
    exact ⟨party', rfl, by cases o <;> rfl⟩

theorem meetOwed_agrees {msgs : List Msg} (h : s.callSide.Agrees) (hm : s.callSide.msgs = e.msg :: msgs) (hi : e.slot? = some i)
    (ht : t.callSide = s.callSide.grounded) (hslots : t.slots = s.slots) (hsig : t.sig = s.sig) : (meetOwed i e t).callSide.Agrees := by
  have agrees := h.slot i
  have pass : SlotPass i s.callSide t.callSide := by
    rw [ht]
    exact grounded_pass hm hi
  have converted (o : ClearOwed) (ho : (t.sig.at i).owed = some o) : (convertEntry i o.msg (setClearOwed i none t)).callSide.Agrees := by
    rw [hsig] at ho
    refine h.arrive pass (convertOwed_step agrees hm hi ho ht hsig) ?_
    rw [convertEntry_callSide]
    unfold setClearOwed
    rw [setSig_callSide]
    rfl
  unfold meetOwed
  split
  · next r ho =>
    split
    · obtain ⟨sm, sends⟩ := sends_of_slot (m := e.msg) hi
      obtain ⟨side, -⟩ := owed_flying agrees hm sends ((callSide_owed s i).trans ((congrArg (fun g => (Table.at g i).owed) hsig).symm.trans ho))
      rw [callSide_slot, clearSide_core] at side
      obtain ⟨p, tag, -, -, b, slot⟩ := party_of_clearSide side
      have inUse : (t.slots.at i).inUse = true := by rw [hslots, slot]; rfl
      have removed : ((removeEntries i t).slots.at i).inUse = true := inUse
      have none : (t.callSide.slots.at i).holds? = none := by rw [callSide_slot, holds_core, hslots, slot]; rfl
      refine h.arrive pass (releasedLocally_step inUse ?_) ((freeSlot_holds removed).trans none.symm)
      rw [ht]
      exact fun x => nomatch x
    · exact converted (.clear r) ho
  · next ho => exact converted .clearAck ho
  · next ho =>
    refine h.arrive pass (.refl ?_ ?_) rfl
    · rw [ht]
      obtain ⟨one, fits, waits, -⟩ := agrees
      refine ⟨one, fits, waits, fun o x => ?_⟩
      have owed : s.callSide.owed.at i = none := (callSide_owed s i).trans (by rw [← hsig]; exact ho)
      exact absurd (owed.symm.trans x) (by exact fun y => nomatch y)
    · rw [ht]
      exact fun x => nomatch x

theorem takeFlow_agrees (f : FlowCommand) (h : s.callSide.Agrees) : (takeFlow f s).callSide.Agrees := by
  unfold takeFlow
  cases f with
  | stopAfter => exact h
  | go => exact h
  | stopNow =>
    dsimp only
    split
    · unfold stopNow
      dsimp only
      split
      · next e f he hf =>
        obtain ⟨rest, hq⟩ : ∃ rest, s.txq = e :: rest := by
          cases hq : s.txq with
          | nil => rw [hq] at he; exact nomatch he
          | cons x rest => rw [hq] at he; cases Option.some.inj he; exact ⟨rest, rfl⟩
        have msgs : s.callSide.msgs = e.msg :: rest.map (·.msg) := by
          unfold State.callSide
          rw [hq]
          rfl
        have left : ({ s with flow := .stopped, inFlight := none } : State).callSide = s.callSide.grounded := rfl
        have side := (returnDigits_callSide (s := { s with flow := .stopped, inFlight := none }) e.msg f.digits).trans left
        obtain ⟨slots, sig⟩ := returnDigits_fields (s := { s with flow := .stopped, inFlight := none }) e.msg f.digits
        unfold returnEntry
        dsimp only
        split
        · next i hi => exact meetOwed_agrees h msgs hi side slots sig
        · next hi =>
          rw [side]
          have none (j : SlotId) : e.msg.slot? ≠ some j := fun x => nomatch hi.symm.trans x
          exact h.requeued rfl rfl rfl rfl rfl (fun _ => rfl) (fun j => (grounded_flight j).trans (flight_other msgs (none j)).symm)
            fun x => nomatch x
      · exact h
    · exact h

/-! ## RESTART -/

theorem removeQueuedRestart_agrees (h : s.callSide.Agrees) : (removeQueuedRestart s).callSide.Agrees := by
  have msgs : (removeQueuedRestart s).callSide.msgs = s.callSide.msgs.take s.callSide.flightCount
      ++ (s.callSide.msgs.drop s.callSide.flightCount).filter fun m => decide (m ≠ .ofNone .restart) := by
    have filtered (l : List Entry) : (l.filter fun e => decide (e.msg ≠ .ofNone .restart)).map (·.msg)
        = (l.map (·.msg)).filter fun m => decide (m ≠ .ofNone .restart) := by
      rw [List.filter_map]
      rfl
    unfold removeQueuedRestart State.callSide setTxq CallSide.flightCount queuedEntries flightCount
    dsimp only
    rw [List.map_append, filtered, List.map_take, List.map_drop]
  have rest : (removeQueuedRestart s).callSide = { s.callSide with msgs := (removeQueuedRestart s).callSide.msgs } := rfl
  rw [rest, msgs]
  generalize s.callSide = c at h
  have kept (hf : c.flying = true) (l : List Msg) : (c.msgs.take c.flightCount ++ l).head? = c.msgs.head? := by
    obtain ⟨x, xs, hx⟩ := List.exists_cons_of_ne_nil (h.flies hf)
    unfold CallSide.flightCount
    rw [hf, hx]
    rfl
  refine h.requeued rfl rfl rfl rfl rfl (fun i => ?_) (fun i => flight_congr rfl fun hf => kept hf _) fun hf nil => ?_
  · unfold CallSide.ofSlot
    have parts : c.msgs.filter (fun m => decide (m.slot? = some i)) = (c.msgs.take c.flightCount).filter (fun m => decide (m.slot? = some i))
        ++ (c.msgs.drop c.flightCount).filter (fun m => decide (m.slot? = some i)) := by
      rw [← List.filter_append, List.take_append_drop]
    dsimp only
    rw [List.filter_append, List.filter_filter, parts]
    congr 1
    refine List.filter_congr fun m _ => ?_
    by_cases hs : m.slot? = some i
    · have other : m ≠ .ofNone .restart := by rintro rfl; exact nomatch hs
      simp [hs, other]
    · simp [hs]
  · have head := kept hf ((c.msgs.drop c.flightCount).filter fun m => decide (m ≠ .ofNone .restart))
    have nil' : c.msgs.take c.flightCount ++ (c.msgs.drop c.flightCount).filter (fun m => decide (m ≠ .ofNone .restart)) = [] := nil
    rw [nil'] at head
    exact h.flies hf (List.head?_eq_none_iff.mp head.symm)

end

end Sys2Proof.Machine
end

