-- ==== Sys2Proof/Proofs/CallLink.lean ====
section
/-! PROOF. What the link does to the calls keeps their agreement: the entry to DOWN, the end of the held calls, and their restoring (O60). -/

namespace Sys2Proof.Machine

/-! ## Lines that fall in turn -/

/-- What a line that a rule lets fall needs of the slots: its call HELD, or none; and a line that stands agrees. -/
def FallsNext (tgt : LineState → Option LineState) (c : CallSide) (q : Port) : Prop :=
  match tgt (c.lines.at q).1 with
  | none => LineAgrees c q
  | some st => c.bus ≠ .held q
      ∧ if st = .holdover then ∃ i dir, (c.lines.at q).2 = some (i, dir) ∧ c.NamedBy q i .held dir else c.Unnamed q

section
variable {tgt : LineState → Option LineState} {c d : CallSide} {q : Port}

theorem FallsNext.stands (h : FallsNext tgt c q) (ht : tgt (c.lines.at q).1 = none) : LineAgrees c q := by
  unfold FallsNext at h
  rw [ht] at h
  exact h

theorem FallsNext.falls {st : LineState} (h : FallsNext tgt c q) (ht : tgt (c.lines.at q).1 = some st) : c.bus ≠ .held q
    ∧ if st = .holdover then ∃ i dir, (c.lines.at q).2 = some (i, dir) ∧ c.NamedBy q i .held dir else c.Unnamed q := by
  unfold FallsNext at h
  rw [ht] at h
  exact h

theorem fallsNext_of_none (ht : tgt (c.lines.at q).1 = none) (h : LineAgrees c q) : FallsNext tgt c q := by
  unfold FallsNext
  rw [ht]
  exact h

theorem fallsNext_of_some {st : LineState} (ht : tgt (c.lines.at q).1 = some st) (hb : c.bus ≠ .held q)
    (h : if st = .holdover then ∃ i dir, (c.lines.at q).2 = some (i, dir) ∧ c.NamedBy q i .held dir else c.Unnamed q) : FallsNext tgt c q := by
  unfold FallsNext
  rw [ht]
  exact ⟨hb, h⟩

/-- The record of another line does not matter to it. -/
theorem FallsNext.step {p : Port} (h : FallsNext tgt c q) (hs : LineStep p c d) (hq : q ≠ p) : FallsNext tgt d q := by
  have line := hs.lines q hq
  cases ht : tgt (c.lines.at q).1 with
  | none => exact fallsNext_of_none (by rw [line]; exact ht) (hs.line hq (h.stands ht))
  | some st =>
    obtain ⟨bus, named⟩ := h.falls ht
    refine fallsNext_of_some (by rw [line]; exact ht) (fun x => bus ((hs.held q hq).mp x)) ?_
    split
    · next hst =>
      rw [if_pos hst] at named
      obtain ⟨i, dir, call, named⟩ := named
      exact ⟨i, dir, by rw [line]; exact call, hs.namedBy named⟩
    · next hst =>
      rw [if_neg hst] at named
      exact hs.unnamed named

end

section
variable {tgt : LineState → Option LineState} {s : State} (r : Reason) (p : Port)

theorem fallLine_lineStep : LineStep p s.callSide (fallLine tgt r p s).callSide := by
  unfold fallLine
  split
  · exact .refl
  · split
    · exact enterLine_lineStep ..
    · exact enterLine_lineStep ..

/-- A line that has fallen stands. -/
theorem fallLine_stops (stops : ∀ old st, tgt old = some st → tgt st = none) (test : tgt .test = none) :
    tgt ((fallLine tgt r p s).callSide.lines.at p).1 = none := by
  have entered (st : LineState) (call : Option (SlotId × Direction)) (hst : tgt st = none) :
      tgt ((enterLine p st call none r s).callSide.lines.at p).1 = none := by
    rw [enterLine_callSide]
    split
    · exact (congrArg (fun l => tgt l.1) (setLine_same (c := s.callSide) (.test, none))).trans test
    · rw [setLine_same]
      exact hst
  unfold fallLine
  split
  · next ht => rw [callSide_line]; exact ht
  · next st ht =>
    split
    · next hst => exact entered _ _ (stops _ _ (hst ▸ ht))
    · exact entered _ _ (stops _ _ ht)

/-- A line that falls agrees. -/
theorem fallLine_agrees (hto : FallRule tgt) (h : FallsNext tgt s.callSide p) : LineAgrees (fallLine tgt r p s).callSide p := by
  have state : (s.callSide.lines.at p).1 = (s.lines.at p).state := by rw [callSide_line]
  unfold fallLine
  split
  · next ht => exact h.stands (by rw [state]; exact ht)
  · next st ht =>
    obtain ⟨bus, named⟩ := h.falls (by rw [state]; exact ht)
    split
    · next hst =>
      rw [if_pos hst] at named
      obtain ⟨i, dir, call, named⟩ := named
      rw [callSide_line] at call
      have call : (s.lines.at p).call = some (i, dir) := call
      rw [call]
      exact enterLine_line none r named rfl rfl (fun _ x => nomatch x) bus
    · next hst =>
      rw [if_neg hst] at named
      exact enterBare_line r ((hto.ends _ _ ht).resolve_left hst) named bus

/-- Once all lines that fall have fallen, the calls agree. -/
theorem falls_agree (hto : FallRule tgt) (stops : ∀ old st, tgt old = some st → tgt st = none) (test : tgt .test = none) (xs : List Port)
    {s : State} (next : ∀ q, FallsNext tgt s.callSide q) (slots : ∀ i, SlotAgrees s.callSide i)
    (flies : s.callSide.flying = true → s.callSide.msgs ≠ []) (all : ∀ q, q ∈ xs ∨ tgt (s.callSide.lines.at q).1 = none) :
    (inTurn xs (fallLine tgt r) s).callSide.Agrees := by
  induction xs generalizing s with
  | nil => exact ⟨fun q => (next q).stands ((all q).resolve_left List.not_mem_nil), slots, flies⟩
  | cons p xs ih =>
    have step := fallLine_lineStep (tgt := tgt) (s := s) r p
    have stopped := fallLine_stops (tgt := tgt) (s := s) r p stops test
    show (inTurn xs (fallLine tgt r) (fallLine tgt r p s)).callSide.Agrees
    refine ih (fun q => ?_) (fun i => step.slot i (slots i)) (step.flies flies) fun q => ?_
    · by_cases hq : q = p
      · subst hq
        exact fallsNext_of_none stopped (fallLine_agrees r q hto (next q))
      · exact (next q).step step hq
    · by_cases hq : q = p
      · subst hq
        exact .inr stopped
      · rw [step.lines q hq]
        exact (all q).imp_left fun h => (List.mem_cons.mp h).resolve_left hq

end

/-! ## Slots that let go of their calls -/

/-- Slots hold no call that they did not hold. -/
def Fewer (c d : CallSide) : Prop := ∀ i, ∀ v ∈ (d.slots.at i).holds?, ∃ k, (c.slots.at i).holds? = some (k, v.2)

section
variable {c d : CallSide} {q : Port} {i : SlotId} {k : Holding} {dir : Direction}

theorem CallSide.Unnamed.fewer (h : c.Unnamed q) (hf : Fewer c d) : d.Unnamed q := fun j v hv => by
  obtain ⟨k, held⟩ := hf j v hv
  exact h j (k, v.2) held

theorem CallSide.NamedBy.fewer {k' : Holding} (h : c.NamedBy q i k dir) (hf : Fewer c d) (here : (d.slots.at i).holds? = some (k', q, dir)) :
    d.NamedBy q i k' dir := ⟨here, fun j hj v hv => by
  obtain ⟨k, held⟩ := hf j v hv
  exact h.alone j hj (k, v.2) held⟩

theorem CallSide.NamedBy.lost (h : c.NamedBy q i k dir) (hf : Fewer c d) (none : (d.slots.at i).holds? = none) : d.Unnamed q := fun j v hv => by
  by_cases hj : j = i
  · rw [hj, none] at hv
    exact nomatch hv
  · obtain ⟨k, held⟩ := hf j v hv
    exact h.alone j hj (k, v.2) held

/-- A line whose own slot keeps its call agrees as before. -/
theorem LineAgrees.fewer (h : LineAgrees c q) (hf : Fewer c d) (hl : d.lines = c.lines) (hb : d.bus = c.bus)
    (own : ∀ x ∈ (c.lines.at q).2, (d.slots.at x.1).holds? = (c.slots.at x.1).holds?) : LineAgrees d q := by
  obtain ⟨names, slot, named, held, claimed⟩ := h
  refine ⟨by rw [hl]; exact names, fun x hx => ?_, fun j v hv hq => ?_, by rw [hl, hb]; exact held, by rw [hl, hb]; exact claimed⟩
  · rw [hl] at hx ⊢
    rw [own x hx]
    exact slot x hx
  · obtain ⟨k, holds⟩ := hf j v hv
    rw [hl]
    exact named j (k, v.2) holds hq

end

/-! ## The held calls end (R133, R141) -/

section
variable {s : State}

theorem holds_letGo (sl : Slot) : (slotLetGo sl).holds? = if sl.isHeld = true then none else sl.holds? := by
  cases sl with
  | held c b => cases b <;> rfl
  | _ => rfl

theorem isHeld_of_holds {sl : Slot} {v : Holding × Port × Direction} (h : sl.holds? = some v) : sl.isHeld = true ↔ v.1 = .held := by
  cases sl <;> cases h <;> simp [Slot.isHeld]

theorem holding_held {st : LineState} : st.holding = .held ↔ st = .holdover := by cases st <;> decide

theorem callSide_flying (s : State) : s.callSide.flying = s.inFlight.isSome := rfl

theorem callSide_bus (s : State) : s.callSide.bus = s.bus := rfl

/-- A HELD slot that is let go has no message, so that every slot agrees. -/
theorem releaseHeld_agrees (h : s.callSide.Agrees) : (releaseHeld s).callSide.lines = s.callSide.lines ∧ (releaseHeld s).callSide.bus = s.callSide.bus
    ∧ (∀ i, SlotAgrees (releaseHeld s).callSide i)
    ∧ ((releaseHeld s).callSide.flying = true → (releaseHeld s).callSide.msgs ≠ []) := by
  rw [releaseHeld_eq]
  refine inTurn_induct (fun t => t.callSide.lines = s.callSide.lines ∧ t.callSide.bus = s.callSide.bus ∧ (∀ i, SlotAgrees t.callSide i)
    ∧ (t.callSide.flying = true → t.callSide.msgs ≠ [])) letGo allSlots (fun i _ t ht => ?_) s ⟨rfl, rfl, h.slot, h.flies⟩
  obtain ⟨lines, bus, slots, flies⟩ := ht
  unfold letGo
  split
  · next held =>
    have nil := (slots i).no_msgs (.inr (by rw [callSide_slot, isHeld_core]; exact held))
    have step := freeSlot_step (inUse_of_held held) nil flies
    refine ⟨step.lines.trans lines, step.bus.trans bus, fun j => ?_, step.flies⟩
    by_cases hj : j = i
    · exact hj ▸ step.slot
    · exact step.off.agrees hj (slots j)
  · exact ⟨lines, bus, slots, flies⟩

theorem releaseHeld_holds (i : SlotId) : ((releaseHeld s).callSide.slots.at i).holds?
    = if (s.slots.at i).isHeld = true then none else (s.callSide.slots.at i).holds? := by
  rw [callSide_slot, callSide_slot, holds_core, holds_core, releaseHeld_at, holds_letGo]

/-- Once the HELD slots are let go, each line in HOLDOVER has lost its call and every other line agrees. -/
theorem releaseHeld_falls (h : s.callSide.Agrees) (q : Port) : FallsNext loseRule (releaseHeld s).callSide q := by
  obtain ⟨lines, bus, -, -⟩ := releaseHeld_agrees h
  have fewer : Fewer s.callSide (releaseHeld s).callSide := fun i v hv => by
    rw [releaseHeld_holds] at hv
    split at hv
    · exact nomatch hv
    · exact ⟨v.1, hv⟩
  have state : ((releaseHeld s).callSide.lines.at q).1 = (s.lines.at q).state := by rw [lines, callSide_line]
  by_cases hq : (s.lines.at q).state = .holdover
  · have some := (h.line q).call_isSome
    rw [hq] at some
    obtain ⟨⟨i, dir⟩, hc⟩ := Option.isSome_iff_exists.mp some
    obtain ⟨holds, -, named⟩ := (h.line q).slot_call hc
    have held : (s.slots.at i).isHeld = true := (isHeld_of_holds holds).mpr (by rw [hq]; rfl)
    refine fallsNext_of_some (st := .parked) (by rw [state, loseRule_eq, if_pos hq]) ?_ (named.lost fewer ?_)
    · rw [bus]
      exact (h.line q).not_held (by rw [hq]; decide)
    · rw [releaseHeld_holds, if_pos held]
  · refine fallsNext_of_none (by rw [state, loseRule_eq, if_neg hq]) ((h.line q).fewer fewer lines bus fun x hx => ?_)
    rw [callSide_line] at hx
    obtain ⟨holds, -, -⟩ := (h.line q).slot_call hx
    rw [releaseHeld_holds, if_neg fun held => ?_]
    exact hq (holding_held.mp ((isHeld_of_holds holds).mp held))

theorem loseRule_stops (old st : LineState) (h : loseRule old = some st) : loseRule st = none := by
  rw [loseRule_eq] at h ⊢
  split at h
  · cases h
    rfl
  · exact nomatch h

/-- Every held call ends. -/
theorem losesHeld_agrees (r : Reason) (xs : List Port) (all : ∀ q, q ∈ xs ∨ (s.lines.at q).state ≠ .holdover) (h : s.callSide.Agrees) :
    (inTurn xs (loseHeld r) (releaseHeld s)).callSide.Agrees := by
  obtain ⟨lines, -, slots, flies⟩ := releaseHeld_agrees h
  rw [loseHeld_eq]
  refine falls_agree r loseRule_falls loseRule_stops rfl xs (releaseHeld_falls h) slots flies fun q => (all q).imp_right fun hq => ?_
  rw [lines, callSide_line, loseRule_eq, if_neg hq]

theorem expireHoldover_agrees (h : s.callSide.Agrees) : (expireHoldover s).callSide.Agrees :=
  losesHeld_agrees (s := { s with holdover := none }) .outOfService allPorts (fun q => .inl (List.mem_finRange q)) h

/-! ## The held calls are restored (R140) -/

theorem settleSlot_agrees (tags : List Byte) (i : SlotId) (h : s.callSide.Agrees) : (settleSlot tags i s).callSide.Agrees := by
  unfold settleSlot
  split
  · next c b hs =>
    have hc : (s.slots.at i).call? = some c := by rw [hs]; rfl
    have slot : s.callSide.slots.at i = (Slot.held c b).core := by rw [callSide_slot, hs]
    have call := h.line_of_slot hc
    obtain ⟨-, -, named⟩ := (h.line c.line).slot_call call
    split
    · have put : (s.callSide.setSlot i (Slot.busy c b).core).slots.at i = (Slot.busy c b).core := Table.at_put_same ..
      have step : SlotStep i s.callSide (setSlot i (.busy c b) s).callSide := by
        rw [setSlot_callSide]
        refine .record _ (Fits.record (h.slot i) ?_ rfl ?_ fun k _ fits => ?_) h.flies
        · rw [slot]; rfl
        · rw [slot]; rfl
        · rw [slot, timerFits_core] at fits
          cases k <;> exact nomatch fits
      have here : ((setSlot i (.busy c b) s).callSide.slots.at i).holds? = some (.busy, c.line, c.direction) := by
        rw [setSlot_callSide, put, holds_core]
        rfl
      refine enterLine_agrees none .normal ((h.but _).step step (holds_line hc) fun v hv => ?_) (named.again step here) ?_ ?_ (fun d hd => ?_)
        (h.not_held_of_call call)
      · cases Option.some.inj (here.symm.trans hv); rfl
      · cases c.direction <;> rfl
      · cases c.direction <;> rfl
      · cases hdir : c.direction <;> rw [hdir] at hd <;> exact Option.some.inj hd
    · have nil := (h.slot i).no_msgs (.inr (by rw [slot]; rfl))
      have inUse := inUse_of_call hc
      exact endCall_agrees .outOfService rfl hc h (freeSlot_step inUse nil h.flies) (freeSlot_holds inUse)
  · exact h

/-! ## The link in service and in RESYNC -/

theorem takeGrade_callSide : (takeGrade s).callSide = s.callSide := by
  unfold takeGrade
  dsimp only
  split
  · rfl
  · repeat' split
    all_goals simp

theorem enterService_callSide : (enterService s).callSide = s.callSide := by
  have graded : (linkEvent (setLink (gradeOf s.score) { s with restartTimer := none, restartOwed := false })).callSide = s.callSide :=
    (linkEvent_callSide _).trans rfl
  unfold enterService
  dsimp only
  split
  · rw [beginCondition_callSide, endCondition_callSide, graded]
  · rw [endCondition_callSide, graded]

theorem oweRestart_agrees (again : Bool) (h : s.callSide.Agrees) : (oweRestart again s).callSide.Agrees :=
  makeRestart_agrees (s := { s with restartOwed := true, restartRepeat := again }) h

theorem enterResync_agrees (h : s.callSide.Agrees) : (enterResync s).callSide.Agrees := by
  unfold enterResync
  refine oweRestart_agrees false ?_
  rw [linkEvent_callSide]
  exact h

theorem releaseTrunk_agrees (h : s.callSide.Agrees) : (releaseTrunk s).callSide.Agrees := by
  unfold releaseTrunk
  split
  · exact h
  · exact enterResync_agrees h
  · exact h

theorem takeRestartAck_agrees (tags : List Byte) (h : s.callSide.Agrees) : (takeRestartAck tags s).callSide.Agrees := by
  unfold takeRestartAck
  split
  · rw [enterService_callSide]
    exact removeQueuedRestart_agrees (inTurn_induct (fun t => t.callSide.Agrees) _ _ (fun i _ t ht => settleSlot_agrees tags i ht) s h)
  · exact h

theorem expireRestart_agrees (h : s.callSide.Agrees) : (expireRestart s).callSide.Agrees := by
  unfold expireRestart
  split
  · exact oweRestart_agrees (s := { s with restartTimer := none }) true h
  · rw [enterService_callSide]
    refine losesHeld_agrees .noReply _ (fun q => ?_) h
    rw [heldLines_eq, mem_linesHeld ((callsAgree_iff s).mpr h).1]
    exact em _
  · exact h

/-! ## The entry to DOWN (R127 to R130) -/

theorem holds_atDown (n : Nat) (sl : Slot) : (slotAtDown n sl).holds? = match sl with
    | .busy c _ => if n = 0 then none else some (.held, c.line, c.direction)
    | .held c _ => some (.held, c.line, c.direction)
    | _ => none := by
  cases sl with
  | busy c b => by_cases hn : n = 0 <;> cases b <;> simp [slotAtDown, hn, Slot.holds?]
  | reserved c b => cases b <;> rfl
  | clearing p tag side b => cases b <;> rfl
  | _ => rfl

theorem slotsDown_fields (s : State) : (slotsDown s).lines = s.lines ∧ (slotsDown s).bus = s.bus ∧ (slotsDown s).txq = [] ∧ (slotsDown s).inFlight = none := by
  have written : WritesSlots (clearSignalling s) (slotsDown s) := downSlots_writes (clearSignalling s)
  generalize slotsDown s = v at written
  obtain ⟨sl, sg, fr, mk, rfl⟩ := written
  exact ⟨rfl, rfl, rfl, rfl⟩

theorem slotsDown_holds (i : SlotId) : ((slotsDown s).callSide.slots.at i).holds? = (slotAtDown s.params.holdover (s.slots.at i)).holds? := by
  rw [callSide_slot, holds_core]
  exact congrArg Slot.holds? (downSlots_at i (clearSignalling s))

/-- With the signalling cleared, every slot agrees. -/
theorem slotsDown_slots (i : SlotId) : SlotAgrees (slotsDown s).callSide i := by
  obtain ⟨-, -, txq, -⟩ := slotsDown_fields s
  obtain ⟨timer, owed⟩ : ((slotsDown s).sig.at i).timer = none ∧ ((slotsDown s).sig.at i).owed = none :=
    downSlots_sig (clearSignalling_sig s) allSlots i
  rw [slotAgrees_iff, timer, owed]
  have nil : (slotsDown s).callSide.ofSlot i = [] := by
    unfold State.callSide CallSide.ofSlot
    rw [txq]
    rfl
  rw [nil]
  exact .idle _ _

/-- After the slots, each line that falls has its call HELD or has lost it, and every other line agrees. -/
theorem slotsDown_falls (h : s.callSide.Agrees) (q : Port) : FallsNext (downRule s.params.holdover) (slotsDown s).callSide q := by
  obtain ⟨lines, bus, -, -⟩ := slotsDown_fields s
  have lines : (slotsDown s).callSide.lines = s.callSide.lines := by unfold State.callSide; rw [lines]
  have bus : (slotsDown s).callSide.bus = s.callSide.bus := (callSide_bus _).trans (bus.trans (callSide_bus s).symm)
  have fewer : Fewer s.callSide (slotsDown s).callSide := fun i v hv => by
    rw [slotsDown_holds, holds_atDown] at hv
    rw [callSide_slot, holds_core]
    cases hs : s.slots.at i with
    | busy c b =>
      rw [hs] at hv
      dsimp only at hv
      split at hv
      · exact nomatch hv
      · cases hv; exact ⟨_, rfl⟩
    | held c b => rw [hs] at hv; cases hv; exact ⟨_, rfl⟩
    | reserved c b => rw [hs] at hv; exact nomatch hv
    | clearing p tag side b => rw [hs] at hv; exact nomatch hv
    | blocked why => rw [hs] at hv; exact nomatch hv
    | free => rw [hs] at hv; exact nomatch hv
  have side : (slotsDown s).callSide.lines.at q = ((s.lines.at q).state, (s.lines.at q).call) := by rw [lines, callSide_line]
  cases hc : (s.lines.at q).call with
  | none =>
    have bare := (h.line q).call_isSome
    rw [hc] at bare
    refine fallsNext_of_none ?_ ((h.line q).fewer fewer lines bus fun x hx => ?_)
    · rw [side]
      cases hst : (s.lines.at q).state <;> rw [hst] at bare <;> first | rfl | exact nomatch bare
    · rw [callSide_line, hc] at hx
      exact nomatch hx
  | some x =>
    obtain ⟨i, dir⟩ := x
    obtain ⟨holds, -, named⟩ := (h.line q).slot_call hc
    have held := h.not_held_of_call hc
    have down := slotsDown_holds (s := s) i
    rw [holds_atDown] at down
    have lost {st : LineState} (rule : downRule s.params.holdover (s.lines.at q).state = some st) (hst : st ≠ .holdover)
        (none : ((slotsDown s).callSide.slots.at i).holds? = none) : FallsNext (downRule s.params.holdover) (slotsDown s).callSide q := by
      refine fallsNext_of_some (by rw [side]; exact rule) (by rw [bus]; exact held) ?_
      rw [if_neg hst]
      exact named.lost fewer none
    have connected (active : (s.lines.at q).state.holding = .busy)
        (rule : downRule s.params.holdover (s.lines.at q).state = some (if s.params.holdover = 0 then .parked else .holdover)) :
        FallsNext (downRule s.params.holdover) (slotsDown s).callSide q := by
      obtain ⟨c, b, hs, line, direction⟩ : ∃ c b, s.slots.at i = .busy c b ∧ c.line = q ∧ c.direction = dir := by
        rw [active] at holds
        cases hs : s.slots.at i <;> rw [hs] at holds <;> cases holds
        exact ⟨_, _, rfl, rfl, rfl⟩
      rw [hs] at down
      dsimp only at down
      by_cases hn : s.params.holdover = 0
      · rw [if_pos hn] at down rule
        exact lost rule (by decide) down
      · rw [if_neg hn] at down rule
        refine fallsNext_of_some (by rw [side]; exact rule) (by rw [bus]; exact held) ?_
        rw [if_pos rfl]
        rw [line, direction] at down
        exact ⟨i, dir, by rw [side]; exact hc, named.fewer fewer down⟩
    have reserved (unconnected : (s.lines.at q).state.holding = .reserved) : ((slotsDown s).callSide.slots.at i).holds? = none := by
      rw [unconnected] at holds
      rw [down]
      cases hs : s.slots.at i <;> rw [hs] at holds <;> first | rfl | cases holds
    cases hst : (s.lines.at q).state with
    | activeOut => exact connected (by rw [hst]; rfl) (by rw [hst]; rfl)
    | activeIn => exact connected (by rw [hst]; rfl) (by rw [hst]; rfl)
    | seizing => exact lost (st := .parked) (by rw [hst]; rfl) (by decide) (reserved (by rw [hst]; rfl))
    | offered => exact lost (st := .idle) (by rw [hst]; rfl) (by decide) (reserved (by rw [hst]; rfl))
    | ringing => exact lost (st := .idle) (by rw [hst]; rfl) (by decide) (reserved (by rw [hst]; rfl))
    | holdover =>
      refine fallsNext_of_none (by rw [side, hst]; rfl) ((h.line q).fewer fewer lines bus fun x hx => ?_)
      rw [callSide_line, hc] at hx
      cases hx
      rw [hst] at holds
      rw [down, callSide_slot, holds_core]
      cases hs : s.slots.at i <;> rw [hs] at holds <;> first | rfl | cases holds
    | unequipped | idle | queued | parked | test | fault =>
      have bare := (h.line q).call_isSome
      rw [hc, hst] at bare
      exact nomatch bare

theorem downRule_stops (n : Nat) (old st : LineState) (h : downRule n old = some st) : downRule n st = none := by
  unfold downRule at h
  split at h
  · cases h; split <;> rfl
  · cases h; split <;> rfl
  · cases h; rfl
  · cases h; rfl
  · cases h; rfl
  · exact nomatch h

theorem startHoldover_callSide (s : State) : (startHoldover s).callSide = s.callSide := rfl

theorem enterDown_agrees (h : s.callSide.Agrees) : (enterDown s).callSide.Agrees := by
  have reported : (downReported s).callSide = s.callSide := by
    unfold downReported
    rw [beginCondition_callSide, endCondition_callSide, linkEvent_callSide]
    rfl
  rw [enterDown_eq]
  generalize downReported s = u at reported
  have h : u.callSide.Agrees := agrees_of_side reported h
  have left : (linesLeft u).callSide = (slotsDown u).callSide := by
    unfold linesLeft
    rw [emptyRing_callSide, setMark_callSide]
  obtain ⟨-, -, -, -, -, params, -, -⟩ := linesLeft_stands u
  have holdover : (linesLeft u).params.holdover = u.params.holdover := congrArg Params.holdover params
  obtain ⟨-, -, -, inFlight⟩ := slotsDown_fields u
  have agrees : (inTurn allPorts downLine (linesLeft u)).callSide.Agrees := by
    rw [downLines_eq allPorts holdover]
    refine falls_agree .outOfService (downRule_falls _) (downRule_stops _) rfl allPorts (fun q => ?_) (fun i => ?_) ?_ fun q => .inl (List.mem_finRange q)
    · rw [left]; exact slotsDown_falls h q
    · rw [left]; exact slotsDown_slots i
    · rw [left]
      have flying : (slotsDown u).callSide.flying = false := by rw [callSide_flying, inFlight]; rfl
      rw [flying]
      exact fun x => nomatch x
  rw [startHoldover_callSide]
  exact agrees

/-! ## The judgement of a frame -/

theorem judgeLink_agrees (good : Bool) (h : s.callSide.Agrees) : (judgeLink good s).callSide.Agrees := by
  have told (t : State) (ht : t.callSide = s.callSide) (l : LinkState) : (linkEvent (setLink l t)).callSide.Agrees := by
    rw [linkEvent_callSide, setLink_callSide, ht]
    exact h
  unfold judgeLink
  split
  · unfold countRun endRun
    dsimp only
    split
    · split
      · exact h
      · split
        · exact enterResync_agrees (s := { s with run := s.run + 1 }) h
        · exact told { s with run := s.run + 1 } rfl _
    · exact h
  · split
    · exact h
    · exact told { s with run := 0 } rfl _
  · unfold countScore
    dsimp only
    split
    · exact enterDown_agrees (s := { s with score := scoreAfter good s.score }) h
    · split
      · rw [takeGrade_callSide]
        exact h
      · exact h

theorem heard_callSide (x : Table 20 Byte) (s : State) : ({ s with rxBearer := x } : State).callSide = s.callSide := rfl

theorem judgeFrame_agrees (octets : List Byte) (h : s.callSide.Agrees) : (judgeFrame octets s).callSide.Agrees := by
  have tracked (t : State) : (trackAlignment octets t).callSide = t.callSide := by
    unfold trackAlignment huntFrom regainAlignment checkWord
    dsimp only
    repeat' split
    all_goals rfl
  have bearer (good : Bool) (frame : List Byte) (t : State) : (takeBearer good frame t).callSide = t.callSide := by
    unfold takeBearer
    exact heard_callSide _ t
  unfold judgeFrame
  refine judgeLink_agrees _ ?_
  rw [bearer, tracked]
  exact h

end

end Sys2Proof.Machine
end

