-- ==== Sys2Proof/Proofs/CallRequests.lean ====
section
/-! PROOF. The ringing, the requests and the admissions keep the agreement of the calls (O60). -/

namespace Sys2Proof.Machine

section
variable {s t : State} {i : SlotId} {p : Port}

/-! ## Ringing -/

theorem demote_agrees (e : Placed) (h : s.callSide.Agrees) : (demote e s).callSide.Agrees := by
  unfold demote
  dsimp only
  split
  · next hs =>
    exact enterLine_kept (s := { s with ringDrive := s.ringDrive.put e.port false }) (p := e.port) (st := .offered) _ _
      (by rw [hs]; rfl) rfl (by rw [hs]; rfl) (by rw [hs]; rfl) h
  · exact h

theorem shedRinging_agrees (h : s.callSide.Agrees) : (shedRinging s).callSide.Agrees := by
  unfold shedRinging
  dsimp only
  rw [scanRing_callSide, setRingQueue_callSide]
  exact inTurn_induct (fun t => t.callSide.Agrees) _ _ (fun e _ t ht => demote_agrees e ht) _ h

theorem setPosture_agrees (body : List Byte) (h : s.callSide.Agrees) : (setPosture body s).callSide.Agrees := by
  unfold setPosture takePosture
  split
  · next q _ =>
    split
    · exact h
    · dsimp only
      split
      · exact shedRinging_agrees (s := { s with posture := q }) h
      · exact h
  · exact h

theorem ringLine_agrees (e : Placed) (h : s.callSide.Agrees) : (ringLine e s).callSide.Agrees := by
  unfold ringLine
  dsimp only
  split
  · next hs => exact enterLine_kept _ _ (by rw [hs]; rfl) rfl (by rw [hs]; rfl) (by rw [hs]; rfl) h
  · exact h

theorem driven_callSide (x : Table 64 Bool) (s : State) : ({ s with ringDrive := x } : State).callSide = s.callSide := rfl

theorem beginPhase_agrees (h : s.callSide.Agrees) : (beginPhase s).callSide.Agrees := by
  have driven (t : State) : (driveRunningPhase t).callSide = t.callSide := by
    unfold driveRunningPhase
    exact driven_callSide _ t
  unfold beginPhase
  refine inTurn_induct (fun t => t.callSide.Agrees) _ _ (fun e _ t ht => ringLine_agrees e ht) _ ?_
  rw [driven]
  exact h

theorem endSettle_callSide (g : GroupId) : (endSettle g s).callSide = s.callSide := by
  have settled (q : Port) (t : State) : (handOnSettled q t).callSide = t.callSide := by
    unfold handOnSettled
    split
    · exact handOn_callSide t q
    · rfl
  unfold endSettle
  dsimp only
  rw [inTurn_keeps State.callSide handOnSettled settled, report_callSide, setGroup_callSide, clearRuns_callSide]

theorem setStandby_callSide (body : List Byte) : (setStandby body s).callSide = s.callSide := by
  unfold setStandby requestStandby
  split
  · dsimp only
    split
    · split <;> simp
    · simp
  · rfl

theorem setAwake_callSide (body : List Byte) : (setAwake body s).callSide = s.callSide := by
  unfold setAwake wakeGroup
  split
  · split <;> simp
  · rfl

/-! ## The test bus (R165 to R171) -/

/-- No line is in TEST while the bus is not held. -/
theorem unnamed_of_bare (h : s.callSide.Agrees) (hs : (s.lines.at p).state.holdsSlot = false) : s.callSide.Unnamed p :=
  (h.line p).unnamed (by rw [callSide_line]; exact (h.line p).call_none hs)

theorem bare_of_claimable {st : LineState} (h : st.claimable = true) : st.holdsSlot = false := by cases st <;> first | rfl | exact nomatch h

/-- The bus is written where no line is in TEST. -/
theorem setBus_agrees {b : TestBus} (hold : ∀ q, s.bus ≠ .held q) (hnew : ∀ q, b ≠ .held q)
    (hclaim : ∀ q, b = .claimed q → (s.lines.at q).state.holdsSlot = true) (h : s.callSide.Agrees) : (setBus b s).callSide.Agrees := by
  refine ⟨fun q => ?_, h.slot, h.flies⟩
  obtain ⟨names, slot, named, held, claimed⟩ := h.line q
  refine ⟨names, slot, named, held.trans ⟨fun x => absurd x (hold q), fun x => absurd x (hnew q)⟩, fun x => ?_⟩
  have holds := hclaim q x
  have line := callSide_line (setBus b s) q
  rw [line]
  exact holds

theorem claimWaiting_agrees (h : s.callSide.Agrees) : (claimWaiting p s).callSide.Agrees := by
  unfold claimWaiting
  split
  · next hb =>
    split
    · next hs => exact grantBus_agrees _ (h.but p) (unnamed_of_bare h (bare_of_claimable hs)) fun q _ x => by rw [hb] at x; exact nomatch x
    · split
      · next hs =>
        refine setBus_agrees (fun q x => by rw [hb] at x; exact nomatch x) (fun q x => nomatch x) (fun q x => ?_) h
        cases x
        exact hs
      · exact h
  · exact h

theorem claimForced_agrees (h : s.callSide.Agrees) : (claimForced p s).callSide.Agrees := by
  unfold claimForced forceTest
  split
  · next hc => exact grantBus_agrees _ (h.but p) (unnamed_of_bare h (bare_of_claimable hc.2)) fun q _ x => by rw [hc.1] at x; exact nomatch x
  · split
    · next hc =>
      obtain ⟨but, unnamed, bus⟩ := releaseLine_agrees (p := p) .maintenance h
      refine grantBus_agrees _ but unnamed fun q _ x => ?_
      rw [bus] at x
      rcases hc.1 with hb | hb <;> rw [hb] at x <;> exact nomatch x
    · exact h

theorem setClaim_agrees (body : List Byte) (h : s.callSide.Agrees) : (setClaim body s).callSide.Agrees := by
  unfold setClaim
  split
  · exact claimWaiting_agrees h
  · exact h

theorem setForcedClaim_agrees (body : List Byte) (h : s.callSide.Agrees) : (setForcedClaim body s).callSide.Agrees := by
  unfold setForcedClaim
  split
  · exact claimForced_agrees h
  · exact h

theorem releaseBus_agrees (h : s.callSide.Agrees) : (releaseBus s).callSide.Agrees := by
  unfold releaseBus
  split
  · exact h
  · next q hb => exact setBus_agrees (fun q x => by rw [hb] at x; exact nomatch x) (fun q x => nomatch x) (fun q x => nomatch x) h
  · next p hb =>
    have but : (setBus .free s).callSide.AgreesBut p := by
      refine ⟨fun q hq => (h.line q).congr rfl (fun _ => rfl) ⟨fun x => (nomatch x), fun x => ?_⟩ (fun x => nomatch x), h.slot, h.flies⟩
      have same : s.callSide.bus = .held p := hb
      rw [same] at x
      exact absurd (TestBus.held.inj x).symm hq
    have test : (s.lines.at p).state = .test := by
      have held := (h.line p).held.mpr hb
      rw [callSide_line] at held
      exact held
    have unnamed : s.callSide.Unnamed p := unnamed_of_bare h (by rw [test]; rfl)
    have unnamed : (setBus .free s).callSide.Unnamed p := unnamed
    split <;> exact enterBare_agrees _ rfl but unnamed fun x => nomatch x

/-! ## SLOT_BLOCK and SLOT_UNBLOCK -/

/-- A slot without a call takes another record without one. -/
theorem setSlot_unused {old new : Slot} (hs : s.slots.at i = old) (ho : old.party? = none) (hn : new.party? = none) (h : s.callSide.Agrees) :
    (setSlot i new s).callSide.Agrees := by
  have holds {sl : Slot} (hp : sl.party? = none) : sl.holds? = none := by cases sl <;> first | rfl | exact nomatch hp
  have clear {sl : Slot} (hp : sl.party? = none) : sl.clearSide? = none := by cases sl <;> first | rfl | exact nomatch hp
  have unheld {sl : Slot} (hp : sl.party? = none) : sl.isHeld = false := by cases sl <;> first | rfl | exact nomatch hp
  have untimed {sl : Slot} (hp : sl.party? = none) (k : TimerKind) : timerFits k sl = false := by
    cases sl <;> cases k <;> first | rfl | exact nomatch hp
  have slot : s.callSide.slots.at i = old.core := by rw [callSide_slot, hs]
  have put : (s.callSide.setSlot i new.core).slots.at i = new.core := Table.at_put_same ..
  rw [setSlot_callSide]
  refine h.keep (.record _ (Fits.record (h.slot i) ?_ ?_ ?_ fun k _ fits => ?_) h.flies) ?_
  · rw [slot, party_core, party_core, ho, hn]
  · rw [isHeld_core]; exact unheld hn
  · rw [slot, clearSide_core, clearSide_core, clear ho, clear hn]
  · rw [slot, timerFits_core, untimed ho] at fits
    exact nomatch fits
  · rw [put, slot, holds_core, holds_core, holds ho, holds hn]

theorem core_withBlockPending (b : Bool) (sl : Slot) : (sl.withBlockPending b).core = sl.core := by cases sl <;> rfl

theorem setBlock_agrees (body : List Byte) (h : s.callSide.Agrees) : (setBlock body s).callSide.Agrees := by
  unfold setBlock blockSlot
  split
  · next i _ =>
    split
    · next hs => exact setSlot_unused (s := setFree (s.free.erase i) s) hs rfl rfl h
    · exact h
    · exact agrees_of_side (setSlot_callSide_self (core_withBlockPending true _)) h
  · exact h

theorem setUnblock_agrees (body : List Byte) (h : s.callSide.Agrees) : (setUnblock body s).callSide.Agrees := by
  unfold setUnblock unblockSlot
  split
  · next i _ =>
    split
    · exact h
    · next hs =>
      have freed : (setFree (s.free ++ [i]) (setSlot i .free s)).callSide.Agrees := setSlot_unused hs rfl rfl h
      dsimp only
      split
      · exact agrees_of_side (endCondition_callSide _ _) freed
      · exact freed
    · exact agrees_of_side (setSlot_callSide_self (core_withBlockPending false _)) h
  · exact h

/-! ## MAP_SET -/

theorem remapAlarms_callSide (old new : Scanner) : (remapAlarms p old new s).callSide = s.callSide := by
  unfold remapAlarms
  dsimp only
  rw [setAlarms_callSide]
  repeat' split
  all_goals simp

theorem remap_agrees {r : PortRole} (hb : portBusy s p = false) (h : s.callSide.Agrees) : (remap p r s).callSide.Agrees := by
  unfold portBusy at hb
  simp only [Bool.or_eq_false_iff, decide_eq_false_iff_not, Option.isSome_eq_false_iff, Option.isNone_iff_eq_none] at hb
  obtain ⟨⟨unclaimed, unheld⟩, bare⟩ := hb
  have unnamed : s.callSide.Unnamed p := (h.line p).unnamed (by rw [callSide_line]; exact bare)
  unfold remap
  dsimp only
  generalize (s.scan.at p).remapped (s.ports.at p) r = c
  have written : (emptyBuffer p (setLine p (remappedLine c r) (setScan p c (setPort p r s)))).callSide
      = s.callSide.setLine p (if r.hasLine = true then .idle else .unequipped, none) := by
    rw [emptyBuffer_callSide, setLine_callSide]
    rfl
  have agrees : (s.callSide.setLine p (if r.hasLine = true then .idle else .unequipped, none)).Agrees := by
    refine (h.but p).written (.setLine _) (lineAgrees_bare unnamed ?_ ?_ unheld unclaimed)
    · split <;> rfl
    · split <;> decide
  have bus : (s.callSide.setLine p (if r.hasLine = true then .idle else .unequipped, none)).bus = s.bus := rfl
  have still : (s.callSide.setLine p (if r.hasLine = true then .idle else .unequipped, none)).Unnamed p := unnamed
  generalize s.callSide.setLine p (if r.hasLine = true then .idle else .unequipped, none) = d at written agrees bus still
  have moved (u : State) (hu : u.callSide = d) : (remapTransition p c r u).callSide.Agrees := by
    have entered (st : LineState) (why : Reason) (he : st.endsCall = true) : (enterBare p st why u).callSide.Agrees := by
      refine enterBare_agrees why he (by rw [hu]; exact agrees.but p) (by rw [hu]; exact still) fun x => unheld ?_
      rw [← bus, ← hu]
      exact x
    unfold remapTransition
    split
    · exact entered _ _ rfl
    · split
      · exact entered _ _ rfl
      · rw [groupIdle_callSide, hu]
        exact agrees
  refine moved _ ?_
  split
  · rw [callEvent_callSide, remapAlarms_callSide, written]
  · rw [remapAlarms_callSide, written]

theorem setMap_agrees {body : List Byte} (ha : mapSetRefusal body s = none) (h : s.callSide.Agrees) : (setMap body s).callSide.Agrees := by
  unfold setMap
  split
  · next ht =>
    obtain ⟨-, -, -, hb⟩ := mapSet_accepted ha ht
    split
    · exact h
    · split
      · exact h
      · exact remap_agrees hb h
  · exact h

/-! ## CONFIG_ENTER -/

/-- A line in a bare state other than TEST. -/
def Stays (c : CallSide) (q : Port) : Prop := (c.lines.at q).1.holdsSlot = false ∧ (c.lines.at q).1 ≠ .test

theorem parks_agrees (xs : List Port) (h : s.callSide.Agrees) (hx : ∀ q ∈ xs, Stays s.callSide q) :
    (inTurn xs (fun p t => enterBare p .parked .config t) s).callSide.Agrees := by
  induction xs generalizing s with
  | nil => exact h
  | cons p xs ih =>
    obtain ⟨bare, untested⟩ := hx p List.mem_cons_self
    have claimed : ¬ (LineState.parked.endsCall = true ∧ s.bus = .claimed p) := fun hc => by
      have holds := (h.line p).claimed hc.2
      rw [bare] at holds
      exact nomatch holds
    rw [callSide_line] at bare untested
    have parked := enterBare_kept (st := .parked) .config rfl bare untested h
    refine ih (s := enterBare p .parked .config s) parked fun q hq => ?_
    unfold enterBare Stays
    rw [enterLine_callSide, if_neg claimed]
    by_cases hqp : q = p
    · subst hqp
      rw [setLine_same]
      exact ⟨rfl, by decide⟩
    · rw [setLine_other _ hqp]
      exact hx q (List.mem_cons_of_mem _ hq)

theorem parkQueued_agrees (hw : ∀ q ∈ s.waitQueue, (s.lines.at q).state = .queued) (h : s.callSide.Agrees) : (parkQueued s).callSide.Agrees := by
  refine parks_agrees s.waitQueue h fun q hq => ?_
  unfold Stays
  rw [callSide_line, hw q hq]
  exact ⟨rfl, fun x => nomatch x⟩

theorem enterOrderly_agrees (hw : ∀ q ∈ s.waitQueue, (s.lines.at q).state = .queued) (h : s.callSide.Agrees) : (enterOrderly s).callSide.Agrees := by
  unfold enterOrderly
  split
  · have told := report_port (.modeEvent .configPending .request) (setMode .configPending s)
    have side := (report_callSide (setMode .configPending s) (.modeEvent .configPending .request)).trans (setMode_callSide s _)
    have queue : (report (.modeEvent .configPending .request) (setMode .configPending s)).waitQueue = s.waitQueue :=
      (waitQueue_of_port told).trans rfl
    have lines : (report (.modeEvent .configPending .request) (setMode .configPending s)).lines = s.lines :=
      (congrArg State.lines told :)
    generalize report (.modeEvent .configPending .request) (setMode .configPending s) = u at side queue lines
    refine parkQueued_agrees (fun q hq => ?_) (agrees_of_side side h)
    rw [lines]
    exact hw q (queue ▸ hq)
  · exact h

theorem forceLine_agrees (h : s.callSide.Agrees) : (forceLine p s).callSide.Agrees := by
  unfold forceLine
  split
  case h_7 => exact h
  all_goals next hs => exact endLine_agrees _ rfl (by rw [hs]; decide) h

theorem enterForced_agrees (hw : ∀ q ∈ s.waitQueue, (s.lines.at q).state = .queued) (h : s.callSide.Agrees) : (enterForced s).callSide.Agrees := by
  unfold enterForced
  split
  · exact h
  · rw [report_callSide, setMode_callSide, emptyRing_callSide]
    exact inTurn_induct (fun t => t.callSide.Agrees) _ _ (fun p _ t ht => forceLine_agrees ht) _ (parkQueued_agrees hw h)

theorem exitConfig_callSide : (exitConfig s).callSide = s.callSide := by
  unfold exitConfig
  split <;> simp

theorem setParam_callSide (body : List Byte) : (setParam body s).callSide = s.callSide := by
  unfold setParam
  split <;> rfl

theorem setAcknowledged_callSide (body : List Byte) : (setAcknowledged body s).callSide = s.callSide := by
  unfold setAcknowledged dropAlarm
  split <;> rfl

/-! ## Reserving -/

/-- A FREE slot is reserved for a line, the line enters the state of the call, and the message of the call is made. -/
theorem reserved_agrees {st : LineState} {dir : Direction} {m : SlotMsg} (u : Bool) (timer : Option Nat) (r : Reason) (hf : s.slots.at i = .free)
    (hb : (s.lines.at p).state.holdsSlot = false) (hn : (s.lines.at p).state ≠ .test) (ht : t.callSide = (reserve i p dir s).callSide)
    (hs : st.holdsSlot = true) (hk : st.holding = .reserved) (hd : ∀ d ∈ directionIn st, dir = d)
    (hm : ∀ sl : Slot, sl.clearSide? = none → sendsIn m sl = true) (h : s.callSide.Agrees) :
    (addSlotEntry u i m (enterLine p st (some (i, dir)) timer r t)).callSide.Agrees := by
  obtain ⟨sl, hsl⟩ : ∃ sl, sl = Slot.reserved { newCall s p dir with order := 0 } false := ⟨_, rfl⟩
  have slot : s.callSide.slots.at i = .free := by rw [callSide_slot, hf]; rfl
  have nil := (h.slot i).no_msgs (.inl (by rw [slot]; rfl))
  rw [reserve_callSide, ← hsl] at ht
  have put : ((s.callSide.setSlot i sl).setSig i none none).slots.at i = sl := Table.at_put_same ..
  have timed : ((s.callSide.setSlot i sl).setSig i none none).timers.at i = none := Table.at_put_same ..
  have owed : ((s.callSide.setSlot i sl).setSig i none none).owed.at i = none := Table.at_put_same ..
  have step : SlotStep i s.callSide ((s.callSide.setSlot i sl).setSig i none none) := by
    refine ⟨rfl, rfl, (SameOff.setSlot _).trans (.setSig _ _), ?_, h.flies⟩
    unfold SlotAgrees
    have msgs : ((s.callSide.setSlot i sl).setSig i none none).ofSlot i = [] := nil
    rw [timed, owed, msgs]
    exact .idle _ _
  have here : (((s.callSide.setSlot i sl).setSig i none none).slots.at i).holds? = some (.reserved, p, dir) := by rw [put, hsl]; rfl
  have bus : t.bus = s.bus := (congrArg CallSide.bus ht :)
  have entered : (enterLine p st (some (i, dir)) timer r t).callSide = t.callSide.setLine p (st, some (i, dir)) := by
    rw [enterLine_callSide, if_neg]
    rintro ⟨ends, -⟩
    exact Bool.false_ne_true ((LineState.bare_of_endsCall ends).symm.trans hs)
  have agrees : (enterLine p st (some (i, dir)) timer r t).callSide.Agrees := by
    refine enterLine_agrees timer r ?_ ?_ hs hk hd (by rw [bus]; exact (h.line p).not_held hn)
    · rw [ht]
      refine (h.but p).step step (fun v hv => ?_) fun v hv => ?_
      · rw [slot] at hv; exact nomatch hv
      · cases Option.some.inj (here.symm.trans hv); rfl
    · rw [ht]
      exact (unnamed_of_bare h hb).taken step here
  generalize enterLine p st (some (i, dir)) timer r t = v at entered agrees
  rw [ht] at entered
  have at_slot : v.callSide.slots.at i = sl := by rw [entered]; exact put
  have party : (v.slots.at i).party? = some (p, (newCall s p dir).tag) := by
    rw [← party_core, ← callSide_slot, at_slot, hsl]
    rfl
  obtain ⟨first, added⟩ := addSlotEntry_callSide v u m party
  rw [added]
  refine agrees.keep (.made first ?_ ?_ ?_ ?_ ?_ ?_ agrees.flies) rfl
  · rw [entered]; exact nil
  · rw [entered]; exact timed
  · rw [entered]; exact owed
  · rw [at_slot, hsl]; rfl
  · rw [at_slot, hsl]; rfl
  · exact hm _ (by rw [at_slot, hsl]; rfl)

theorem handOnAtOnce_agrees (h : s.callSide.Agrees) : (handOnAtOnce p s).callSide.Agrees := by
  unfold handOnAtOnce
  split
  · rw [handOn_callSide]
    exact h
  · exact h

theorem admitIncoming_agrees (ref : BitVec 16) (hf : s.slots.at i = .free) (hs : (s.lines.at p).state = .idle) (h : s.callSide.Agrees) :
    (admitIncoming p i ref s).callSide.Agrees := by
  have woken : (wakeForIncoming p (reserve i p .inward s)).callSide = (reserve i p .inward s).callSide := by
    unfold wakeForIncoming
    split
    · exact enterWaking_callSide _ _ _
    · rfl
  have made := reserved_agrees (st := .offered) (m := .offer ref) (isPriority s p) (some (1000 * s.params.ringLimit)) .normal hf (by rw [hs]; rfl)
    (by rw [hs]; decide) woken rfl rfl (fun d hd => Option.some.inj hd) (fun _ _ => rfl) h
  unfold admitIncoming
  exact handOnAtOnce_agrees made

theorem takeIncoming_agrees (ref number : BitVec 16) (hfree : ∀ j ∈ s.free, s.slots.at j = .free) (h : s.callSide.Agrees) :
    (takeIncoming ref number s).callSide.Agrees := by
  unfold takeIncoming
  split
  · exact addFreeEntry_agrees _ h
  · split
    · exact addFreeEntry_agrees _ h
    · next hr =>
      unfold offerCall
      split
      · next i rest hf => exact admitIncoming_agrees ref (hfree i (by rw [hf]; exact List.mem_cons_self)) (idle_of_incomingRefusal hr) h
      · exact h

theorem admitLine_agrees (hf : s.slots.at i = .free) (hs : (s.lines.at p).state = .queued) (h : s.callSide.Agrees) :
    (admitLine p i s).callSide.Agrees :=
  reserved_agrees (st := .seizing) (m := .seize) (isPriority s p) none .normal hf (by rw [hs]; rfl) (by rw [hs]; decide) rfl rfl rfl
    (fun d hd => Option.some.inj hd) (fun _ _ => rfl) h

theorem preempt_agrees {c : Call} (hc : (s.slots.at i).call? = some c) (h : s.callSide.Agrees) : (preempt i c.line s).callSide.Agrees := by
  have hm : (setMark (some i) s).callSide.Agrees := h
  have marked : ((setMark (some i) s).slots.at i).call? = some c := hc
  have ended (st : LineState) (he : st.endsCall = true) := endCall_agrees (s := setMark (some i) s) .preempted he marked hm
    (releaseOwing_step (.clear .preempted) marked (hm.slot i) hm.flies) (releaseOwing_holds _ marked)
  unfold preempt
  dsimp only
  split
  · rw [scanRing_callSide]
    exact ended _ (by split <;> rfl)
  · exact ended _ (by split <;> rfl)

end

end Sys2Proof.Machine
end

