-- ==== Sys2Proof/Proofs/CallsKept.lean ====
section
/-! PROOF. Every change keeps the agreement of the calls, beside the free slot list and the wait queue (O60). -/

namespace Sys2Proof.Machine

/-! ## Admissions, and the end of an event -/

/-- The agreement of the calls with what admissions lean on: the free slot list holds FREE slots and the wait queue QUEUED lines. -/
structure CallsHold (s : State) : Prop where
  free : FreeListAgrees s
  waits : WaitHolds s
  calls : s.callSide.Agrees

theorem CallsHold.slot_free {s : State} (h : CallsHold s) {i : SlotId} (hi : i ∈ s.free) : s.slots.at i = .free :=
  ((freeListAgrees_iff s).mp h.free).mem i |>.mp hi

theorem CallsHold.line_queued {s : State} (h : CallsHold s) {p : Port} (hp : p ∈ s.waitQueue) : (s.lines.at p).state = .queued :=
  (h.waits.mem p).mp hp

/-- What keeps the calls keeps the three together, where the other two are kept as well. -/
theorem CallsHold.of_keeps {s : State} (h : CallsHold s) {f : State → State} (keep : ∀ {I : State → Prop}, Keeps I → I s → I (f s))
    (calls : (f s).callSide.Agrees) : CallsHold (f s) := ⟨keep freeListAgrees_kept.keeps h.free, keep waitHolds_keeps h.waits, calls⟩

theorem CallsHold.admitHeads (n : Nat) {s : State} (h : CallsHold s) : CallsHold (admitHeads n s) := by
  induction n generalizing s with
  | zero => exact h
  | succ n ih =>
    unfold Machine.admitHeads
    split
    · next p rest i free hq hf =>
      split
      · have queued := h.line_queued (p := p) (by rw [hq]; exact List.mem_cons_self)
        have slot := h.slot_free (i := i) (by rw [hf]; exact List.mem_cons_self)
        exact ih (h.of_keeps (f := admitLine p i) (fun k hs => k.admitLine hf hs) (admitLine_agrees slot queued h.calls))
      · exact h
    · exact h

theorem CallsHold.attemptRound {s : State} (h : CallsHold s) : CallsHold (attemptRound s).1 := by
  have admitted := h.admitHeads s.free.length
  unfold Machine.attemptRound
  dsimp only
  split
  · split
    · next i c hv =>
      have call : ((Machine.admitHeads s.free.length s).slots.at i).call? = some c := by
        have cand := victim_call hv
        unfold candidate at cand
        exact (Option.filter_eq_some_iff.mp cand).1
      exact admitted.of_keeps (f := preempt i c.line) (fun k hs => k.preempt c.line call hs) (preempt_agrees call admitted.calls)
    · exact admitted
  · exact admitted

theorem CallsHold.attempt {s : State} (h : CallsHold s) : CallsHold (attempt s) := by
  have rounds (n : Nat) : ∀ {s}, CallsHold s → CallsHold (attemptRounds n s) := by
    induction n with
    | zero => exact fun h => h
    | succ n ih =>
      intro s h
      unfold attemptRounds
      dsimp only
      split
      · exact ih h.attemptRound
      · exact h.attemptRound
  exact rounds 21 h

theorem stopHoldover_callSide (s : State) : (stopHoldover s).callSide = s.callSide := by
  unfold stopHoldover
  split <;> rfl

theorem endPending_callSide (s : State) : (endPending s).callSide = s.callSide := by
  unfold endPending
  split <;> simp

theorem finish_agrees {s t : State} (h : CallsHold t) : (finish s t).callSide.Agrees := by
  have scanned : CallsHold (if roomGained s t = true then scanRing t else t) := by
    split
    · exact h.of_keeps (f := scanRing) (fun k hs => k.scanned hs) (by rw [scanRing_callSide]; exact h.calls)
    · exact h
  unfold finish
  dsimp only
  rw [endPending_callSide, stopHoldover_callSide]
  split
  · exact scanned.attempt.calls
  · exact scanned.calls

/-! ## Every effect -/

/-- A line that awaits on-hook or decodes is not in TEST. -/
theorem not_test_of_offHook {s : State} {p : Port} (h : awaitsOnHook s p = true ∨ decodes s p = true) : (s.lines.at p).state ≠ .test := fun ht => by
  unfold awaitsOnHook decodes decodesIn at h
  rw [ht] at h
  simp [LineState.offHookCall] at h

theorem wakeForFault_callSide (p : Port) (s : State) : (wakeForFault p s).callSide = s.callSide := by
  unfold wakeForFault
  split
  · exact enterWaking_callSide _ _ _
  · rfl

/-- Every effect that an event ends keeps the agreement of the calls. -/
theorem effect_agrees {s t : State} (he : Effect s t) (hs : CallsHold s) : t.callSide.Agrees := by
  have h := hs.calls
  cases he with
  | offHook p => exact takeOffHook_agrees (s := offHookSample p s) h
  | onHook p run _ hook => exact endLine_agrees (s := onHookSample p run s) .normal rfl (not_test_of_offHook hook) h
  | fault p => exact takeFault_agrees (agrees_of_side (wakeForFault_callSide p s) h)
  | faultClear p => exact takeFaultClear_agrees h
  | slowSample g closed faulty => exact slowSample_agrees g closed faulty h
  | waitLimit p _ queued => exact enterBare_kept _ rfl (by rw [queued]; rfl) (by rw [queued]; decide) h
  | ringLimit p _ called => exact endLine_agrees _ rfl (fun ht => by rw [ht] at called; exact nomatch called) h
  | judged octets => exact judgeFrame_agrees octets h
  | holdover => exact expireHoldover_agrees h
  | restart => exact expireRestart_agrees h
  | seizeReply i => exact expireSeize_agrees h
  | clearReply i => exact expireClear_agrees h
  | completed _ flies => exact completeEntry_agrees flies h
  | accept tag => exact takeAccept_agrees tag h
  | reject tag r => exact takeReject_agrees tag r h
  | progress tag => exact takeProgress_agrees tag h
  | headClear tag r => exact takeHeadClear_agrees tag r h
  | headClearAck tag => exact takeHeadClearAck_agrees tag h
  | incoming ref number => exact takeIncoming_agrees ref number (fun _ hj => hs.slot_free hj) h
  | restartAck tags => exact takeRestartAck_agrees tags h
  | flow f => exact takeFlow_agrees f h
  | orderly => exact enterOrderly_agrees (fun _ hq => hs.line_queued hq) h
  | forced => exact enterForced_agrees (fun _ hq => hs.line_queued hq) h
  | exit => exact agrees_of_side exitConfig_callSide h
  | mapSet body _ accepted => exact setMap_agrees accepted h
  | posture body => exact setPosture_agrees body h
  | claim body => exact setClaim_agrees body h
  | forcedClaim body => exact setForcedClaim_agrees body h
  | busRelease => exact releaseBus_agrees h
  | unblock body => exact setUnblock_agrees body h
  | nothing => exact h

/-- Every effect without the end of an event keeps the agreement of the calls. -/
theorem bare_agrees {s t : State} (hb : Bare s t) (h : s.callSide.Agrees) : t.callSide.Agrees := by
  cases hb with
  | breakEnd p ms => exact endBreak_agrees ms h
  | digit p => exact completeDigit_agrees (s := setHookPin p true s) h
  | contact p c =>
    rw [takeContact_callSide]
    exact h
  | settled g => exact agrees_of_side (endSettle_callSide g) h
  | phase => exact beginPhase_agrees h
  | started _ may => exact startSending_agrees may h
  | param body => exact agrees_of_side (setParam_callSide body) h
  | standby body => exact agrees_of_side (setStandby_callSide body) h
  | wake body => exact agrees_of_side (setAwake_callSide body) h
  | block body => exact setBlock_agrees body h
  | trunkRelease => exact releaseTrunk_agrees h
  | acknowledged body => exact agrees_of_side (setAcknowledged_callSide body) h
  | dropPartial => exact h

/-! ## Every change -/

theorem countTimers_callSide (s : State) : (countTimers s).callSide = s.callSide := by
  unfold countTimers State.callSide
  dsimp only
  rw [Vector.map_map, Vector.map_map, Vector.map_map]
  congr 1
  exact Vector.map_congr_left fun g _ => by cases hg : g.timer <;> simp [hg]

theorem tick_callSide (s : State) : (tick s).callSide = s.callSide := by
  have sent (t : State) : (transmitFrame t).callSide = t.callSide := by
    unfold transmitFrame State.callSide
    dsimp only
    rw [Option.isSome_map]
  have carried (t : State) : (carryRecord t).callSide = t.callSide := rfl
  have sampled (t : State) : (sampleAll t).callSide = t.callSide := callSide_congr rfl rfl rfl rfl rfl rfl
  have waiting (q : List Instr) (t : State) : ({ t with pending := q } : State).callSide = t.callSide := rfl
  unfold tick
  rw [waiting, sampled, carried, sent, countTimers_callSide]

theorem change_agrees {s t : State} (hc : Change .clock s t) (h : CallsHold s) : t.callSide.Agrees := by
  cases hc with
  | event he =>
    exact finish_agrees ⟨freeListAgrees_kept.keeps.effect he h.free, waitHolds_keeps.effect he h.waits, effect_agrees he h⟩
  | bare hb => exact bare_agrees hb h.calls
  | served => exact agrees_of_side (serve_callSide s) h.calls
  | fresh _ hf => exact (callsAgree_iff t).mp (noCalls_fresh hf).callsAgree
  | outside => exact h.calls
  | port => exact h.calls
  | ticked => exact agrees_of_side (tick_callSide s) h.calls
  | waiting => exact h.calls

theorem change_keeps_callsHold (s t : State) (hc : Change .clock s t) (h : CallsHold s) : CallsHold t :=
  ⟨freeListAgrees_kept.keeps.change (fun _ => freeListAgrees_fresh) (fun _ _ h => h) (fun _ _ _ h => h) hc h.free,
    waitHolds_keeps.change (fun _ => waitHolds_fresh) (fun _ _ h => ⟨h.toQueuedLines, h.normal⟩) (fun _ _ _ h => ⟨h.toQueuedLines, h.normal⟩) hc h.waits,
    change_agrees hc h⟩

/-- Settles O60: line by line and slot by slot, each operation of a call changes one line and the slot of its call, and leaves both in
agreement. -/
theorem stepKeepsCallsAgree : Obligations.StepKeepsCallsAgree := fun s t free queues calls hst => by
  obtain ⟨-, -, waits⟩ := (queuesBounded_iff s).mp queues
  exact (callsAgree_iff t).mpr (step_keeps change_keeps_callsHold ⟨free, waits, (callsAgree_iff s).mp calls⟩ hst).calls

end Sys2Proof.Machine
end

