-- ==== Sys2Proof/Proofs/Postures.lean ====
section
/-! PROOF. A new posture taken: where nobody waits for it, and at a rise (for O50). -/

namespace Sys2Proof.Machine

/-! ## The request -/

theorem postureNamed_code {code : Byte} (h : code.toNat < 3) : postureNamed [code] = some (postureOfCode code.toNat) := by
  have named : oneCode 3 [code] = some code.toNat := by
    show (some code.toNat).filter _ = _
    rw [Option.filter_some, if_pos (decide_eq_true h)]
  unfold postureNamed
  rw [named]
  rfl

theorem postureSet_judged {code : Byte} (h : code.toNat < 3) : doneUnless (badUnless (postureNamed [code])) = .done := by
  rw [postureNamed_code h]
  rfl

theorem code_lt {a b code : Byte} (ha : a.toNat < 3) (hb : b.toNat < 3) (h : code = a ∨ code = b) : code.toNat < 3 := by
  rcases h with rfl | rfl
  · exact ha
  · exact hb

theorem postureOfCode_cases : ∀ code : Byte, code.toNat < 3 →
    postureOfCode code.toNat = if code = 0 then .mains else if code = 1 then .battery else .reserve := by decide

theorem setPosture_code {code : Byte} (h : code.toNat < 3) (s : State) :
    setPosture [code] s = if postureOfCode code.toNat = s.posture then s else takePosture (postureOfCode code.toNat) s := by
  unfold setPosture
  rw [postureNamed_code h]

/-- A rise of the posture changes nothing else at once. -/
theorem setPosture_of_rise {code : Byte} (h : code.toNat < 3) {s : State} (hr : s.posture.rank < (postureOfCode code.toNat).rank) :
    setPosture [code] s = { s with posture := postureOfCode code.toNat } := by
  have other : postureOfCode code.toNat ≠ s.posture := fun x => by
    rw [x] at hr
    exact Nat.lt_irrefl _ hr
  rw [setPosture_code h, if_neg other]
  exact if_neg (Nat.lt_asymm hr)

theorem setPosture_of_fall {code : Byte} (h : code.toNat < 3) {s : State} (hr : (postureOfCode code.toNat).rank < s.posture.rank) :
    setPosture [code] s = shedRinging { s with posture := postureOfCode code.toNat } := by
  have other : postureOfCode code.toNat ≠ s.posture := fun x => by
    rw [x] at hr
    exact Nat.lt_irrefl _ hr
  rw [setPosture_code h, if_neg other]
  exact if_pos hr

theorem cut_of_empty {cells : Table 6 (List Placed)} (h : ∀ k, cells.at k = []) (n : Nat) : cells.map (fun c => c.take n) = cells := by
  refine Table.ext_at fun k => ?_
  rw [Table.at_map, h k, List.take_nil]

/-- With no line in a cell or in the ring queue, a fall sheds nobody. -/
theorem shedRinging_of_empty {s : State} (hc : ∀ k, s.cells.at k = []) (hq : s.ringQueue = []) : shedRinging s = s := by
  have none : (allCells.flatMap fun k => (s.cells.at k).drop s.posture.ringCapacity) = [] := by
    rw [List.flatMap_eq_nil_iff]
    intro k _
    rw [hc k, List.drop_nil]
  unfold shedRinging
  dsimp only
  rw [none, cut_of_empty hc]
  have nobody : setRingQueue (rejoin s [] s.ringQueue) s = s := by
    rw [hq]
    show ({ s with ringQueue := [] } : State) = s
    rw [← hq]
  exact (congrArg scanRing nobody).trans (scanRing_of_nobody hq)

theorem setPosture_of_empty {code : Byte} (h : code.toNat < 3) {s : State} (hc : ∀ k, s.cells.at k = []) (hq : s.ringQueue = []) :
    setPosture [code] s = { s with posture := postureOfCode code.toNat } := by
  rw [setPosture_code h]
  split
  · next same => rw [same]
  · unfold takePosture
    dsimp only
    split
    · exact shedRinging_of_empty (by exact hc) (by exact hq)
    · rfl

/-! ## The end of an event that gains room for ringing -/

/-- With no line waiting for a slot, an event that gains room for ringing ends with the scan of the ring queue. -/
theorem finish_scans {s u : State} (hr : roomGained s u = true) (hq : u.waitQueue = []) (he : EventsFinished u) (y z : PortSide) :
    finish (s.withPort y) (u.withPort z) = (scanRing u).withPort z := by
  have gained : roomGained (s.withPort y) (u.withPort z) = true := hr
  have nobody : ((scanRing u).withPort z).waitQueue = [] := (scanRing_waitQueue u).trans hq
  have finished : EventsFinished ((scanRing u).withPort z) := by
    obtain ⟨cells, next, queue, eq⟩ := scanRing_exists u
    rw [eq]
    exact .of_same (s := u) rfl rfl rfl he
  have ends := finish_of_nobody (old := (scanRing u).withPort z) (roomGained_of_same rfl rfl) nobody finished
  rw [← scanRing_withPort] at nobody ends ⊢
  unfold finish at ends ⊢
  rw [gained, if_pos rfl]
  rw [roomGained_of_same rfl rfl, if_neg Bool.false_ne_true] at ends
  dsimp only at ends ⊢
  rw [attempt_of_nobody nobody, ite_self] at ends ⊢
  exact ends

theorem roomGained_of_rise {s u : State} (h : s.posture.rank < u.posture.rank) : roomGained s u = true := by
  unfold roomGained
  rw [decide_eq_true h, Bool.or_true]

theorem attemptCaused_of_rise {s u : State} (h : s.posture.rank < u.posture.rank) : attemptCaused s u = true := by
  unfold attemptCaused
  rw [decide_eq_true h]
  simp only [Bool.or_true, Bool.true_or]

/-- The one line of the ring queue is placed in the cell of the next phase. -/
theorem scanRing_of_room {p : Port} {s : State} (hq : s.ringQueue = [p])
    (h : (s.cells.at (cellOf (nextPhase s.phase) (busOf p))).length < s.posture.ringCapacity) (hn : s.nextPlacement < 65535) :
    scanRing s = { s with
      cells := s.cells.put (cellOf (nextPhase s.phase) (busOf p)) (s.cells.at (cellOf (nextPhase s.phase) (busOf p)) ++ [⟨p, s.nextPlacement⟩])
      nextPlacement := s.nextPlacement + 1, ringQueue := [] } := by
  have first : roomFor s p = some (cellOf (nextPhase s.phase) (busOf p)) := List.find?_cons_of_pos (decide_eq_true h)
  have one : scanRing s = scanOne p s := by
    unfold scanRing
    rw [hq]
    rfl
  rw [one]
  unfold scanOne
  rw [first, hq, List.erase_cons_head]
  exact if_pos hn

/-! ## The admission at a rise -/

/-- An event that raises the posture, with nobody waiting to ring, ends with its admission attempt. -/
theorem finish_admits {s u v w : State} (hr : s.posture.rank < u.posture.rank) (hq : u.ringQueue = []) (ha : attempt u = v)
    (hv : v = w.withPort v.portSide) (hm : w.mode ≠ .configPending) : finish s u = (attemptEnd w).withPort v.portSide := by
  have mode : (attemptEnd v).mode ≠ .configPending := by
    rw [hv]
    exact hm
  unfold finish
  rw [attemptCaused_of_rise hr, roomGained_of_rise hr, if_pos rfl, scanRing_of_nobody hq]
  dsimp only
  rw [if_pos rfl, ha, stopHoldover_eq, ← attemptEnd_withPort, ← hv]
  exact if_neg fun x => mode x.1

/-- The one line that waits for a slot is admitted at the end of an event that raises the posture. -/
theorem Comes.finish_admits {s u t w : State} {p : Port} {i : SlotId} {rest : List SlotId} (h : Comes s [] u t)
    (hup : s.posture.rank < u.posture.rank) (hr : u.ringQueue = []) (hw : u.waitQueue = [p]) (hf : u.free = i :: rest)
    (hc : canAdmit u p = true) (ha : admitted p i u = w) (hq : w.waitQueue = []) (hm : w.mode ≠ .configPending) (hroom : Room 1 s) :
    Comes s [.callEvent p .seizing (.because .normal)] (attemptEnd w) (finish s t) := by
  have told := h.admitsHead p i hroom Nat.zero_lt_one
  rw [ha] at told
  have free : t.free = i :: rest := (congrArg State.free h.port :).trans hf
  have raised : t.posture = u.posture := (congrArg State.posture h.port :)
  have silent : t.ringQueue = [] := (congrArg State.ringQueue h.port :).trans hr
  have admits := attempt_of_round (attemptRound_admits (h.waitQueue_eq.trans hw) free ((h.canAdmit_eq p).trans hc) (told.waitQueue_eq.trans hq))
  have ends := Machine.finish_admits (s := s) (by rw [raised]; exact hup) silent admits told.eq hm
  generalize admitLine p i t = v at told ends
  rw [ends]
  exact ⟨rfl, told.made, told.room, told.reply⟩

section
variable {s : State} {num code : Byte}

theorem Comes.postured (num code : Byte) (s : State) : Comes (Machine.taken num .done s) [] { s with posture := postureOfCode code.toNat }
    { Machine.taken num .done s with posture := postureOfCode code.toNat } :=
  (Comes.taken num .done s).map (fun x => { x with posture := postureOfCode code.toNat }) fun _ _ => rfl

/-- POSTURE_SET with nobody in a cell and nobody waiting. -/
theorem Answers.postureSet_empty {P : State → Prop} (ht : Takes num 0x06 [code] s) (hcode : code.toNat < 3) (hw : s.waitQueue = [])
    (hr : s.ringQueue = []) (hc : ∀ k, s.cells.at k = []) (he : EventsFinished s)
    (hP : ∀ y t, t = ({ s with posture := postureOfCode code.toNat } : State).withPort y → Made s t [] → Replied t num .done → P t) :
    Answers (.postureSet num [code]) s P := by
  have cells : (taken num .done s).cells = s.cells := (congrArg State.cells (taken_port num .done s) :)
  have queue : (taken num .done s).ringQueue = s.ringQueue := (congrArg State.ringQueue (taken_port num .done s) :)
  refine .answeredEvent rfl ht (fun _ => postureSet_judged hcode)
    (setPosture_of_empty hcode (by rw [cells]; exact hc) (queue.trans hr)) (Comes.postured num code s)
    (.of_empty (by exact hw) (by exact hr) (.of_same (s := s) rfl rfl rfl he)) fun y made reply => ?_
  exact hP y _ rfl made reply

/-- POSTURE_SET at a rise where a line waits to ring. -/
theorem Answers.postureSet_scans {P : State → Prop} (ht : Takes num 0x06 [code] s) (hcode : code.toNat < 3)
    (hup : s.posture.rank < (postureOfCode code.toNat).rank) (hw : s.waitQueue = []) (he : EventsFinished s)
    (hP : ∀ y t, t = (scanRing { s with posture := postureOfCode code.toNat }).withPort y → Made s t [] → Replied t num .done → P t) :
    Answers (.postureSet num [code]) s P := by
  have posture : (taken num .done s).posture = s.posture := (congrArg State.posture (taken_port num .done s) :)
  refine .answeredEnd rfl ht (fun _ => postureSet_judged hcode) (setPosture_of_rise hcode (by rw [posture]; exact hup))
    (Comes.postured num code s) (finish_scans (u := { s with posture := postureOfCode code.toNat }) (roomGained_of_rise hup) (by exact hw) (.of_same (s := s) rfl rfl rfl he)) fun y made reply => ?_
  exact hP y _ rfl made reply

/-- POSTURE_SET at a rise where the one line that waits for a slot is admitted. -/
theorem Answers.postureSet_admits {p : Port} {i : SlotId} {rest : List SlotId} {P : State → Prop} (ht : Takes num 0x06 [code] s)
    (hcode : code.toNat < 3) (hup : s.posture.rank < (postureOfCode code.toNat).rank) (hr : s.ringQueue = []) (hw : s.waitQueue = [p])
    (hf : s.free = i :: rest) (hc : canAdmit { s with posture := postureOfCode code.toNat } p = true) {w : State}
    (ha : admitted p i { s with posture := postureOfCode code.toNat } = w) (hq : w.waitQueue = []) (hm : w.mode ≠ .configPending)
    (hroom : Room 1 s)
    (hP : ∀ y t, t = (attemptEnd w).withPort y → Made s t [.callEvent p .seizing (.because .normal)] → Replied t num .done → P t) :
    Answers (.postureSet num [code]) s P := by
  have posture : (taken num .done s).posture = s.posture := (congrArg State.posture (taken_port num .done s) :)
  have rises : (taken num .done s).posture.rank < (postureOfCode code.toNat).rank := by rw [posture]; exact hup
  have told := (Comes.postured num code s).finish_admits (by exact rises) (by exact hr) (by exact hw) (by exact hf) hc ha hq hm
    (taken_room num .done hroom)
  have running : Running (taken num .done s) := (power_of_port (taken_port num .done s)).trans ht.1
  have acts : act (setPosture [code]) (taken num .done s)
      = finish (taken num .done s) { taken num .done s with posture := postureOfCode code.toNat } := by
    rw [act_running running, serve_taken, setPosture_of_rise hcode rises]
  refine .answered rfl ht (fun _ => postureSet_judged hcode) (fun _ => by simp) acts told fun y made reply => ?_
  exact hP y _ rfl made reply

end

end Sys2Proof.Machine
end

