-- ==== Sys2Proof/Proofs/Shedding.lean ====
section
/-! PROOF. The fall of the posture followed through: the lines beyond the capacity leave their cells and the ring queue is scanned
(for O50). -/

namespace Sys2Proof.Machine

/-! ## Reports of some of many -/

/-- The reports of those that have one, in turn. -/
theorem flatMap_if_singleton {α β : Type} (c : α → Prop) [DecidablePred c] (f : α → β) (xs : List α) :
    (xs.flatMap fun x => if c x then [f x] else []) = (xs.filter fun x => decide (c x)).map f := by
  induction xs with
  | nil => rfl
  | cons x xs ih =>
    rw [List.flatMap_cons, ih, List.filter_cons]
    by_cases h : c x <;> simp [h]

/-! ## A scan of the ring queue keeps what stands in the ringing -/

/-- Each cell keeps its lines at its head, and no line leaves the ringing. -/
structure RingGrows (s t : State) : Prop where
  cells : ∀ k, cellPorts s k <+: cellPorts t k
  stays : ∀ p ∈ ringPorts s, p ∈ ringPorts t

namespace RingGrows

theorem refl (s : State) : RingGrows s s := ⟨fun _ => List.prefix_refl _, fun _ hp => hp⟩

theorem trans {s t u : State} (h : RingGrows s t) (h' : RingGrows t u) : RingGrows s u :=
  ⟨fun k => (h.cells k).trans (h'.cells k), fun p hp => h'.stays p (h.stays p hp)⟩

end RingGrows

theorem joinedCell_prefix (cells : Fin 6 → List Port) (k : Fin 6) (p : Port) (j : Fin 6) : cells j <+: joinedCell cells k p j := by
  unfold joinedCell
  split
  · exact List.prefix_append _ _
  · exact List.prefix_refl _

theorem scanOne_grows (p : Port) (s : State) : RingGrows s (scanOne p s) := by
  unfold scanOne
  split
  · next k _ =>
    have side := placeIn_ringSide k p (setRingQueue (s.ringQueue.erase p) s)
    have cells : cellPorts (placeIn k p (setRingQueue (s.ringQueue.erase p) s)) = joinedCell (cellPorts s) k p := (congrArg Prod.fst side :)
    have queue : (placeIn k p (setRingQueue (s.ringQueue.erase p) s)).ringQueue = s.ringQueue.erase p := (congrArg (fun x => x.2.1) side :)
    have pre (j : Fin 6) : cellPorts s j <+: joinedCell (cellPorts s) k p j := joinedCell_prefix _ k p j
    refine ⟨fun j => by rw [cells]; exact pre j, fun q hq => ?_⟩
    unfold ringPorts
    rw [cells, queue]
    rcases List.mem_append.mp hq with placed | queued
    · obtain ⟨j, hj, hm⟩ := List.mem_flatMap.mp placed
      exact List.mem_append_left _ (List.mem_flatMap.mpr ⟨j, hj, (pre j).subset hm⟩)
    · by_cases hp : q = p
      · subst hp
        refine List.mem_append_left _ (List.mem_flatMap.mpr ⟨k, List.mem_finRange k, ?_⟩)
        unfold joinedCell
        rw [if_pos rfl]
        exact List.mem_append_right _ (List.mem_singleton_self q)
      · exact List.mem_append_right _ ((List.mem_erase_of_ne hp).mpr queued)
  · exact .refl s

theorem scanRing_grows (s : State) : RingGrows s (scanRing s) :=
  inTurn_induct (RingGrows s) scanOne s.ringQueue (fun p _ t h => h.trans (scanOne_grows p t)) s (.refl s)

/-! ## A line taken out of its cell -/

/-- The part with the drive of a port off. -/
def undriven (p : Port) (s : State) : State := { s with ringDrive := s.ringDrive.put p false }

theorem demote_eq (e : Placed) (s : State) : demote e s = if (s.lines.at e.port).state = .ringing then
    enterLine e.port .offered (s.lines.at e.port).call (s.lines.at e.port).timer .congested (undriven e.port s) else undriven e.port s := rfl

/-- The record of a line taken out of its cell. -/
def demotedLine (l : Line) : Line := if l.state = .ringing then { l with state := .offered, flashOwed := false } else l

/-- The part after a line is taken out of its cell, its report apart. -/
def demoted (p : Port) (s : State) : State := { s with
  lines := s.lines.put p (demotedLine (s.lines.at p))
  scan := s.scan.put p (if (s.lines.at p).state = .ringing then (s.scan.at p).lineMoved (s.ports.at p) .ringing .offered else s.scan.at p)
  ringDrive := s.ringDrive.put p false }

/-- The report of a line taken out of its cell. -/
def demoteReports (s : State) (p : Port) : List Report :=
  if (s.lines.at p).state = .ringing then [.callEvent p .offered (.because .congested)] else []

theorem moved_demoted {l : Line} (h : l.state = .ringing) : l.moved .offered l.call l.timer = demotedLine l := by
  unfold demotedLine
  rw [if_pos h]
  simp [Line.moved, LineState.mayOweAnswer, LineState.called, LineState.active]

theorem moveLine_offered {s : State} {p : Port} (h : (s.lines.at p).state = .ringing) :
    moveLine p .offered (s.lines.at p).call (s.lines.at p).timer (undriven p s) = demoted p s := by
  have stays : ¬ LeavesRing p .offered (undriven p s) := fun x => x.2 rfl
  have unqueued : ¬ ((s.lines.at p).state = .queued ∧ LineState.offered ≠ .queued) := fun x => by
    rw [h] at x
    exact nomatch x.1
  rw [moveLine_eq, if_neg stays, if_neg stays, if_neg stays]
  unfold undriven
  dsimp only
  rw [if_neg unqueued, moved_demoted h, h]
  unfold demoted
  rw [if_pos h]
  rfl

theorem demoted_of_other {s : State} {p : Port} (h : (s.lines.at p).state ≠ .ringing) :
    demoted p s = undriven p s := by
  unfold demoted demotedLine
  rw [if_neg h, if_neg h, Table.put_at, Table.put_at]
  rfl

theorem Comes.demotes {s u t : State} {rs : List Report} {n : Nat} (h : Comes s rs u t) (e : Placed) (hr : Room n s)
    (hn : rs.length + (demoteReports u e.port).length ≤ n) : Comes s (rs ++ demoteReports u e.port) (demoted e.port u) (demote e t) := by
  have lines : t.lines = u.lines := (congrArg State.lines h.port :)
  have off := h.map (undriven e.port) fun _ _ => rfl
  unfold demoteReports at hn ⊢
  rw [demote_eq, lines]
  by_cases hst : (u.lines.at e.port).state = .ringing
  · rw [if_pos hst] at hn ⊢
    rw [if_pos hst, ← moveLine_offered hst]
    exact off.enterLine e.port (st := .offered) _ _ .congested rfl hr hn
  · rw [if_neg hst, if_neg hst, demoted_of_other hst]
    exact off.reports_eq (List.append_nil rs).symm

/-! ## The lines beyond the capacity -/

/-- What a demotion looks at and writes of a port. -/
def demoteView (s : State) (p : Port) : Line × Bool × Scanner × PortRole := (s.lines.at p, s.ringDrive.at p, s.scan.at p, s.ports.at p)

theorem demoted_self (p : Port) (s t : State) (h : demoteView s p = demoteView t p) : demoteView (demoted p s) p = demoteView (demoted p t) p := by
  simp only [demoteView, Prod.mk.injEq] at h
  obtain ⟨line, drive, scan, role⟩ := h
  simp only [demoteView, demoted, Table.at_put_same, line, scan, role]

theorem demoted_other (p q : Port) (s : State) (h : q ≠ p) : demoteView (demoted p s) q = demoteView s q := by
  simp only [demoteView, demoted, Table.at_put_other _ _ h]

theorem demotes_frame (ps : List Port) (s : State) : ∃ lines scan drive, inTurn ps demoted s = { s with
    lines := lines, scan := scan, ringDrive := drive } :=
  inTurn_induct (fun t => ∃ lines scan drive, t = { s with lines := lines, scan := scan, ringDrive := drive }) demoted ps
    (fun p _ t ⟨_, _, _, eq⟩ => eq ▸ ⟨_, _, _, rfl⟩) s ⟨_, _, _, rfl⟩

/-- What becomes of the lines taken out of their cells, and of the others. -/
theorem demotes_at {ps : List Port} (hn : ps.Nodup) (s : State) (p : Port) :
    demoteView (inTurn ps demoted s) p = if p ∈ ps then demoteView (demoted p s) p else demoteView s p :=
  inTurn_view (fun a s t h => demoted_self a s t h) (fun a b s h => demoted_other a b s h) hn s p

/-- The lines beyond the capacity, with their reports. -/
theorem Comes.demoteAll {n : Nat} {s : State} {es : List Placed} (hr : Room n s) (hn : (es.map (·.port)).Nodup) {u t : State}
    (h : Comes s [] u t) (hl : (es.flatMap fun e => demoteReports u e.port).length ≤ n) :
    Comes s (es.flatMap fun e => demoteReports u e.port) (inTurn (es.map (·.port)) demoted u) (inTurn es demote t) := by
  suffices all : ∀ (es : List Placed) (rs : List Report) (u t : State), (es.map (·.port)).Nodup → Comes s rs u t →
      rs.length + (es.flatMap fun e => demoteReports u e.port).length ≤ n →
      Comes s (rs ++ es.flatMap fun e => demoteReports u e.port) (inTurn (es.map (·.port)) demoted u) (inTurn es demote t) from
    (all es [] u t hn h (by simpa using hl)).reports_eq rfl
  intro es
  induction es with
  | nil => exact fun rs u t _ h _ => h.reports_eq (List.append_nil rs).symm
  | cons e es ih =>
    intro rs u t hn h hl
    obtain ⟨apart, hn⟩ := List.nodup_cons.mp hn
    rw [List.flatMap_cons, List.length_append] at hl
    have later : (es.flatMap fun f => demoteReports (demoted e.port u) f.port) = es.flatMap fun f => demoteReports u f.port := by
      refine List.flatMap_congr fun f hf => ?_
      have other : f.port ≠ e.port := fun x => apart (List.mem_map.mpr ⟨f, hf, x⟩)
      have line : (demoted e.port u).lines.at f.port = u.lines.at f.port := Table.at_put_other _ _ other
      unfold demoteReports
      rw [line]
    have rest := ih _ _ _ hn (h.demotes e hr (by omega)) (by rw [later, List.length_append]; omega)
    rw [later] at rest
    exact rest.reports_eq (by rw [List.flatMap_cons, List.append_assoc])

end Sys2Proof.Machine
end

