-- ==== Sys2Proof/Proofs/PostureFalls.lean ====
section
/-! PROOF. POSTURE_SET at a fall of the posture, and all of it together (O50). -/

namespace Sys2Proof.Machine

/-! ## The ringing shed -/

/-- The ports of the lines beyond the capacity, in the order of their placement. -/
def beyondPorts (s : State) : List Port := (byNumber (beyondCapacity s s.posture)).map (·.port)

/-- The part with its cells cut to the capacity. -/
def cutRing (s : State) : State := { s with cells := s.cells.map fun c => c.take s.posture.ringCapacity }

/-- Lines rejoin the ring queue. -/
def rejoined (out : List Port) (s : State) : State := setRingQueue (rejoin s out s.ringQueue) s

/-- The part with the lines beyond the capacity in the ring queue, their reports apart. -/
def shedQueue (s : State) : State := rejoined (beyondPorts s) (inTurn (beyondPorts s) demoted (cutRing s))

/-- The part with its ringing shed, the reports apart. -/
def shed (s : State) : State := scanRing (shedQueue s)

/-- The reports of the lines beyond the capacity. -/
def shedReports (s : State) : List Report := (byNumber (beyondCapacity s s.posture)).flatMap fun e => demoteReports s e.port

theorem shedRinging_eq (s : State) : shedRinging s
    = scanRing (rejoined (beyondPorts s) (inTurn (byNumber (beyondCapacity s s.posture)) demote (cutRing s))) := rfl

theorem shedReports_eq (s : State) : shedReports s
    = ((byNumber (beyondCapacity s s.posture)).filter fun e => decide ((s.lines.at e.port).state = .ringing)).map fun e =>
        .callEvent e.port .offered (.because .congested) := flatMap_if_singleton (fun e : Placed => (s.lines.at e.port).state = .ringing) _ _

theorem shedReports_length (s : State) : (shedReports s).length ≤ (beyondCapacity s s.posture).length := by
  rw [shedReports_eq, List.length_map]
  exact (List.length_filter_le _ _).trans (byNumber_perm _).length_eq.le

/-- A fall of the posture leaves at most twelve lines without a place. -/
theorem beyondCapacity_length {s : State} (q : Posture) (h : RingHolds s) : (beyondCapacity s q).length ≤ 12 := by
  have cell (k : Fin 6) : ((s.cells.at k).drop q.ringCapacity).length ≤ 2 := by
    have room := (h.1 k).1
    have most : s.posture.ringCapacity ≤ 3 := by cases s.posture <;> decide
    have least : 1 ≤ q.ringCapacity := by cases q <;> decide
    rw [List.length_drop]
    omega
  unfold beyondCapacity
  rw [List.length_flatMap]
  have each : ∀ x ∈ allCells.map fun k => ((s.cells.at k).drop q.ringCapacity).length, x ≤ 2 := fun x hx => by
    obtain ⟨k, -, rfl⟩ := List.mem_map.mp hx
    exact cell k
  have total := List.sum_le_card_nsmul _ 2 each
  rw [List.length_map] at total
  exact total

theorem beyondPorts_nodup {s : State} (h : ((allPlaced s).map (·.port)).Nodup) : (beyondPorts s).Nodup := by
  have sub : (beyondCapacity s s.posture).Sublist (allPlaced s) := by
    unfold beyondCapacity allPlaced
    induction allCells with
    | nil => exact .refl _
    | cons k ks ih => exact (List.drop_sublist _ _).append ih
  unfold beyondPorts
  rw [((byNumber_perm _).map _).nodup_iff]
  exact h.sublist (sub.map _)

/-- The ringing shed with its reports. -/
theorem Comes.sheds {s u t : State} {n : Nat} (h : Comes s [] u t) (hr : Room n s) (hn : (beyondPorts u).Nodup)
    (hl : (shedReports u).length ≤ n) : Comes s (shedReports u) (shed u) (shedRinging t) := by
  have same (y : PortSide) : beyondCapacity (u.withPort y) (u.withPort y).posture = beyondCapacity u u.posture := rfl
  have beyond : beyondCapacity t t.posture = beyondCapacity u u.posture := by
    rw [h.eq]
    exact same _
  have ports : beyondPorts t = beyondPorts u := congrArg (fun es => (byNumber es).map Placed.port) beyond
  have cut := h.map cutRing fun _ _ => rfl
  have all := cut.demoteAll (es := byNumber (beyondCapacity u u.posture)) hr hn hl
  rw [shedRinging_eq, beyond, ports]
  exact all.map (fun x => scanRing (rejoined (beyondPorts u) x)) fun x y => scanRing_withPort (rejoined (beyondPorts u) x) y

theorem shed_ringHolds {s : State} (q : Posture) (h : RingHolds s) (hn : (beyondPorts { s with posture := q }).Nodup)
    (hr : Room 12 s) (hl : (shedReports { s with posture := q }).length ≤ 12) : RingHolds (shed { s with posture := q }) := by
  have told := (Comes.refl ({ s with posture := q } : State)).sheds (n := 12) (by exact hr) hn hl
  have holds := shedRinging_ringHolds q h
  rw [told.eq] at holds
  exact holds

/-! ## What the shed leaves -/

theorem cutRing_cellPorts (s : State) (k : Fin 6) : cellPorts (cutRing s) k = ((s.cells.at k).take s.posture.ringCapacity).map (·.port) := by
  unfold cellPorts cutRing
  rw [Table.at_map]

/-- What the lines beyond the capacity look like before the ring queue is scanned, and what else stands. -/
theorem shedQueue_frame (s : State) : ∃ lines scan drive queue, shedQueue s = { cutRing s with
    lines := lines, scan := scan, ringDrive := drive, ringQueue := queue } := by
  unfold shedQueue
  obtain ⟨lines, scan, drive, eq⟩ := demotes_frame (beyondPorts s) (cutRing s)
  rw [eq]
  exact ⟨_, _, _, _, rfl⟩

theorem shedQueue_cellPorts (s : State) (k : Fin 6) : cellPorts (shedQueue s) k = ((s.cells.at k).take s.posture.ringCapacity).map (·.port) := by
  obtain ⟨lines, scan, drive, queue, eq⟩ := shedQueue_frame s
  rw [eq, ← cutRing_cellPorts]
  rfl

theorem shedQueue_queue {s : State} {p : Port} (h : p ∈ beyondPorts s) : p ∈ ringPorts (shedQueue s) := by
  refine List.mem_append_right _ ?_
  unfold shedQueue rejoined setRingQueue
  exact (rejoin_perm _ _ _).mem_iff.mpr (List.mem_append_left _ h)

theorem shedQueue_at {s : State} (hn : (beyondPorts s).Nodup) (p : Port) :
    demoteView (shedQueue s) p = if p ∈ beyondPorts s then demoteView (demoted p (cutRing s)) p else demoteView s p :=
  demotes_at hn (cutRing s) p

/-! ## The end of the event -/

/-- A fall of the posture causes no admission attempt. -/
theorem attemptCaused_of_fall {s : State} {q : Posture} {u : State} (hq : q.rank < s.posture.rank) (hw : u.waitQueue = s.waitQueue)
    (hf : u.free = s.free) (hs : u.slots = s.slots) (hl : u.link = s.link) (hp : u.posture = q) (hm : u.mode = s.mode) (hk : u.mark = s.mark) :
    attemptCaused s u = false := by
  have none : decide (s.posture.rank < q.rank) = decide (s.posture.rank < s.posture.rank) := by
    rw [decide_eq_false (Nat.lt_asymm hq), decide_eq_false (Nat.lt_irrefl _)]
  rw [← attemptCaused_self s]
  unfold attemptCaused
  rw [hw, hf, activeCount_of_slots hs, hl, hp, hm, hk, none]

/-- An event that causes no attempt ends with the scan of the ring queue where room is gained. -/
theorem finish_rings {s u : State} (hc : attemptCaused s u = false) (he : EventsFinished u) (y z : PortSide) :
    finish (s.withPort y) (u.withPort z) = (if roomGained s u then scanRing u else u).withPort z := by
  have caused : attemptCaused (s.withPort y) (u.withPort z) = false := hc
  have gained : roomGained (s.withPort y) (u.withPort z) = roomGained s u := rfl
  have scanned : (if roomGained s u = true then scanRing (u.withPort z) else u.withPort z)
      = (if roomGained s u = true then scanRing u else u).withPort z := by
    rw [scanRing_withPort]
    split <;> rfl
  have finished : EventsFinished ((if roomGained s u = true then scanRing u else u).withPort z) := by
    split
    · obtain ⟨cells, next, queue, eq⟩ := scanRing_exists u
      rw [eq]
      exact .of_same (s := u) rfl rfl rfl he
    · exact .of_same (s := u) rfl rfl rfl he
  have ends := finish_self finished
  unfold finish at ends ⊢
  rw [gained, caused, scanned]
  rw [roomGained_of_same rfl rfl, attemptCaused_self, if_neg Bool.false_ne_true] at ends
  dsimp only at ends ⊢
  rw [if_neg Bool.false_ne_true] at ends ⊢
  exact ends

/-- The part at the end of an event in which the posture falls, the reports apart. -/
def fallenPosture (s : State) (q : Posture) : State :=
  if roomGained s (shed { s with posture := q }) then scanRing (shed { s with posture := q }) else shed { s with posture := q }

section
variable {s : State} {q : Posture}

theorem fallenPosture_frame : ∃ cells next queue, fallenPosture s q = { shedQueue { s with posture := q } with
    cells := cells, nextPlacement := next, ringQueue := queue } := by
  unfold fallenPosture shed
  generalize shedQueue { s with posture := q } = u
  obtain ⟨c1, n1, q1, one⟩ := scanRing_exists u
  split
  · obtain ⟨c2, n2, q2, two⟩ := scanRing_exists (scanRing u)
    rw [two, one]
    exact ⟨_, _, _, rfl⟩
  · exact ⟨_, _, _, one⟩

theorem fallenPosture_grows : RingGrows (shedQueue { s with posture := q }) (fallenPosture s q) := by
  unfold fallenPosture shed
  split
  · exact (scanRing_grows _).trans (scanRing_grows _)
  · exact scanRing_grows _

/-- The lines, the drives and the scanner records are those of the lines taken out of their cells. -/
theorem fallenPosture_at (p : Port) : demoteView (fallenPosture s q) p = demoteView (shedQueue { s with posture := q }) p := by
  obtain ⟨cells, next, queue, eq⟩ := fallenPosture_frame (s := s) (q := q)
  rw [eq]
  rfl

theorem fallenPosture_rest : (fallenPosture s q).apartFromPort = ({ s with
    posture := (fallenPosture s q).posture, cells := (fallenPosture s q).cells, nextPlacement := (fallenPosture s q).nextPlacement
    ringQueue := (fallenPosture s q).ringQueue, ringDrive := (fallenPosture s q).ringDrive, lines := (fallenPosture s q).lines
    scan := (fallenPosture s q).scan } : State).apartFromPort ∧ (fallenPosture s q).posture = q := by
  obtain ⟨cells, next, queue, eq⟩ := fallenPosture_frame (s := s) (q := q)
  obtain ⟨lines, scan, drive, waiting, before⟩ := shedQueue_frame { s with posture := q }
  rw [eq, before]
  exact ⟨rfl, rfl⟩

theorem fallenPosture_ringHolds (h : RingHolds (shed { s with posture := q })) : RingHolds (fallenPosture s q) := by
  unfold fallenPosture
  split
  · exact scanRing_ringHolds h
  · exact h

/-- What stands in the ringing after a fall of the posture. -/
theorem fallenPosture_ring (h : RingHolds (fallenPosture s q)) :
    (∀ k, ((s.cells.at k).take q.ringCapacity).map (·.port) <+: ((fallenPosture s q).cells.at k).map (·.port)
      ∧ ((fallenPosture s q).cells.at k).length ≤ q.ringCapacity)
    ∧ ∀ p ∈ beyondPorts { s with posture := q }, isPlaced (fallenPosture s q) p = true ∨ p ∈ (fallenPosture s q).ringQueue := by
  obtain ⟨cells, stays⟩ := fallenPosture_grows (s := s) (q := q)
  refine ⟨fun k => ⟨?_, ?_⟩, fun p hp => ?_⟩
  · have kept := cells k
    rw [shedQueue_cellPorts] at kept
    exact kept
  · have room := (h.1 k).1
    rw [fallenPosture_rest.2] at room
    exact room
  · rw [isPlaced_iff]
    exact List.mem_append.mp (stays p (shedQueue_queue hp))

theorem mem_beyondPorts (p : Port) : p ∈ beyondPorts { s with posture := q } ↔ ∃ e ∈ beyondCapacity s q, e.port = p := by
  unfold beyondPorts
  rw [List.mem_map]
  exact exists_congr fun e => and_congr_left' (mem_byNumber e _)

/-- What becomes of the lines beyond the capacity, and of the others. -/
theorem fallenPosture_lines (hn : (beyondPorts { s with posture := q }).Nodup) :
    (∀ e ∈ beyondCapacity s q, (fallenPosture s q).ringDrive.at e.port = false)
    ∧ (∀ p, (fallenPosture s q).lines.at p = if (∃ e ∈ beyondCapacity s q, e.port = p) ∧ (s.lines.at p).state = .ringing
        then { s.lines.at p with state := .offered, flashOwed := false } else s.lines.at p)
    ∧ ∀ p, (∀ e ∈ beyondCapacity s q, e.port ≠ p) → (fallenPosture s q).ringDrive.at p = s.ringDrive.at p
        ∧ (fallenPosture s q).scan.at p = s.scan.at p := by
  have view (p : Port) := (fallenPosture_at p).trans (shedQueue_at hn p)
  have inside {p : Port} (h : ∃ e ∈ beyondCapacity s q, e.port = p) :
      (fallenPosture s q).lines.at p = demotedLine (s.lines.at p) ∧ (fallenPosture s q).ringDrive.at p = false := by
    have mine := view p
    rw [if_pos ((mem_beyondPorts p).mpr h)] at mine
    simp only [demoteView, Prod.mk.injEq] at mine
    obtain ⟨line, drive, -⟩ := mine
    exact ⟨line.trans (Table.at_put_same _ _ _), drive.trans (Table.at_put_same _ _ _)⟩
  have outside {p : Port} (h : ¬ ∃ e ∈ beyondCapacity s q, e.port = p) : (fallenPosture s q).lines.at p = s.lines.at p
      ∧ (fallenPosture s q).ringDrive.at p = s.ringDrive.at p ∧ (fallenPosture s q).scan.at p = s.scan.at p := by
    have other := view p
    rw [if_neg fun x => h ((mem_beyondPorts p).mp x)] at other
    simp only [demoteView, Prod.mk.injEq] at other
    obtain ⟨line, drive, scan, -⟩ := other
    exact ⟨line, drive, scan⟩
  refine ⟨fun e he => (inside ⟨e, he, rfl⟩).2, fun p => ?_, fun p hp => ?_⟩
  · by_cases h : ∃ e ∈ beyondCapacity s q, e.port = p
    · rw [(inside h).1]
      unfold demotedLine
      exact if_congr (and_iff_right h).symm rfl rfl
    · rw [if_neg fun x => h x.1]
      exact (outside h).1
  · exact (outside fun ⟨e, he, hep⟩ => hp e he hep).2

theorem Answers.postureSet_falls {num code : Byte} {P : State → Prop} (ht : Takes num 0x06 [code] s) (hcode : code.toNat < 3)
    (hq : postureOfCode code.toNat = q) (hdown : q.rank < s.posture.rank) (hn : (beyondPorts { s with posture := q }).Nodup)
    (hl : (shedReports { s with posture := q }).length ≤ 12) (he : EventsFinished s) (hr : Room 12 s)
    (hP : ∀ y t, t = (fallenPosture s q).withPort y → Made s t (shedReports { s with posture := q }) → Replied t num .done → P t) :
    Answers (.postureSet num [code]) s P := by
  have posture : (taken num .done s).posture = s.posture := (congrArg State.posture (taken_port num .done s) :)
  have start := Comes.postured num code s
  have takes := setPosture_of_fall (s := taken num .done s) hcode (by rw [posture, hq]; exact hdown)
  rw [hq] at start takes
  have told := start.sheds (n := 12) (taken_room num .done hr) hn hl
  obtain ⟨cells, next, queue, scanned⟩ := scanRing_exists (shedQueue { s with posture := q })
  obtain ⟨lines, scan, drive, waiting, before⟩ := shedQueue_frame { s with posture := q }
  have eq : shed { s with posture := q } = _ := scanned.trans (by rw [before])
  have caused : attemptCaused s (shed { s with posture := q }) = false := by
    rw [eq]
    exact attemptCaused_of_fall hdown rfl rfl rfl rfl rfl rfl rfl
  have finished : EventsFinished (shed { s with posture := q }) := by
    rw [eq]
    exact .of_same (s := s) rfl rfl rfl he
  refine .answeredEnd rfl ht (fun _ => postureSet_judged hcode) takes told (finish_rings caused finished) fun y made reply => ?_
  exact hP y _ rfl made reply

end

/-- The one ORDINARY line that waits, admitted: its entry stands at the tail of the transmit queue. -/
theorem admitted_ordinary {p : Port} {i : SlotId} {rest : List SlotId} {s : State} (hst : (s.lines.at p).state = .queued)
    (hp : isPriority s p = false) (hn : s.nextOrder < 65535) (hw : s.waitQueue = [p]) (hf : s.free = i :: rest) : admitted p i s = { s with
      lines := s.lines.put p { Line.unequipped with state := .seizing, call := some (i, .out), faultPresent := (s.lines.at p).faultPresent }
      scan := s.scan.put p ((s.scan.at p).lineMoved (s.ports.at p) .queued .seizing), waitQueue := []
      slots := s.slots.put i (.reserved ⟨p, freshTag s, .out, false, s.nextOrder⟩ false), nextOrder := s.nextOrder + 1
      sig := s.sig.put i Sig.cleared, free := rest, nextTag := freshTag s % 255 + 1
      txq := s.txq ++ [{ msg := .ofSlot i p (freshTag s) .seize, pinned := false }] } := by
  have tail : queueWith false { msg := .ofSlot i p (freshTag s) .seize, pinned := false } s
      = s.txq ++ [{ msg := .ofSlot i p (freshTag s) .seize, pinned := false }] := if_neg fun x => Bool.false_ne_true x.1
  rw [admitted_eq hst (reserve_party hn), hp, tail, reserve_eq i p .out s hn, hw, hf, List.erase_cons_head, List.erase_cons_head]
  rfl

/-- Settles O50: at a fall by what the shed leaves, and at a rise by the scan or the admission that ends the event. -/
theorem postureSetTakesThePosture : Obligations.PostureSetTakesThePosture := by
  refine ⟨fun num code s ht hcode hw hr hc he => ?_, fun num code s ht hcode hdown hring he hroom => ?_,
    fun num code p s ht hcode hup hr hw hc hn he => ?_,
    fun num code p i rest s ht hcode hup hr hw hst ho hm hlink hcount hf hi htag hn he hroom => ?_⟩
  · refine .postureSet_empty ht hcode hw hr hc he fun y t eq made reply => ?_
    subst eq
    exact ⟨reply, postureOfCode_cases code hcode, made, rfl⟩
  · have lt := code_lt (by decide) (by decide) hcode
    have nodup := beyondPorts_nodup (s := { s with posture := postureOfCode code.toNat }) ((ringHolds_iff s).mp hring |> fun h => by
      rw [allPlaced_ports]
      exact h.once.sublist (List.sublist_append_left _ _))
    have beyond := beyondCapacity_length (postureOfCode code.toNat) hring
    have few := (shedReports_length { s with posture := postureOfCode code.toNat }).trans (by exact beyond)
    have holds := fallenPosture_ringHolds (shed_ringHolds _ hring nodup hroom few)
    refine .postureSet_falls ht lt rfl hdown nodup few he hroom fun y t eq made reply => ?_
    rw [shedReports_eq] at made
    obtain ⟨ring, placed⟩ := fallenPosture_ring holds
    obtain ⟨silent, lines, others⟩ := fallenPosture_lines nodup
    obtain ⟨rest, posture⟩ := fallenPosture_rest (s := s) (q := postureOfCode code.toNat)
    generalize fallenPosture s (postureOfCode code.toNat) = w at *
    subst eq
    have taken : (w.withPort y).posture = postureOfCode code.toNat := posture
    rw [taken]
    exact ⟨reply, rfl, ring, fun e he => ⟨silent e he, placed _ ((mem_beyondPorts _).mpr ⟨e, he, rfl⟩)⟩, lines, others, made,
      by rw [posture] at rest; exact rest⟩
  · have lt := code_lt (by decide) (by decide) hcode
    refine .postureSet_scans ht lt hup hw he fun y t eq made reply => ?_
    rw [scanRing_of_room (p := p) (by exact hr) (by exact hc) (by exact hn)] at eq
    subst eq
    exact ⟨reply, made, rfl, rfl, Table.at_put_same _ _ _, fun k hk => Table.at_put_other _ _ hk, rfl, rfl⟩
  · have lt := code_lt (by decide) (by decide) hcode
    have ordinary : isPriority s p = false := by
      unfold isOrdinary at ho
      unfold isPriority
      rw [of_decide_eq_true ho]
      rfl
    have can : canAdmit { s with posture := postureOfCode code.toNat } p = true := by
      have same : isPriority { s with posture := postureOfCode code.toNat } p = isPriority s p := rfl
      have count : activeCount { s with posture := postureOfCode code.toNat } = activeCount s := rfl
      unfold canAdmit
      rw [same, ordinary, count, hm, hlink, decide_eq_true hcount]
      rfl
    have done := admitted_ordinary (i := i) (s := { s with posture := postureOfCode code.toNat }) (by exact hst) (by exact ordinary)
      (by exact hn) (by exact hw) (by exact hf)
    have tag : freshTag { s with posture := postureOfCode code.toNat } = freshTag s := freshTag_congr rfl rfl
    rw [tag] at done
    refine .postureSet_admits ht lt hup hr hw hf can done rfl (by dsimp only; rw [hm]; decide) hroom fun y t eq made reply => ?_
    subst eq
    have line := Table.at_put_same s.lines p { Line.unequipped with
      state := .seizing, call := some (i, .out), faultPresent := (s.lines.at p).faultPresent }
    exact ⟨reply, rfl, rfl, rfl, congrArg Line.state line, congrArg Line.call line, congrArg Line.timer line,
      ⟨freshTag s, (freshTag_first s).1, (freshTag_range s).1, (freshTag_range s).2, Table.at_put_same _ _ _, rfl⟩, made,
      fun q hq => Table.at_put_other _ _ hq, fun j hj => Table.at_put_other _ _ hj, fun j hj => Table.at_put_other _ _ hj⟩

end Sys2Proof.Machine
end

