-- ==== Sys2Proof/Proofs/Parking.lean ====
section
/-! PROOF. The lines of the wait queue parked, and CONFIG_ENTER in its orderly form (for O58). -/

namespace Sys2Proof.Machine

/-! ## The wait queue parked (R75) -/

/-- The record of a line that CONFIG_ENTER has parked. -/
def parkedLine (l : Line) : Line := { Line.unequipped with state := .parked, faultPresent := l.faultPresent }

/-- Where each line that waits is QUEUED and the bus is not claimed for it, the lines are parked and the wait queue is empty. -/
theorem parks_eq {q : List Port} {s : State} (hq : s.waitQueue = q) (hn : q.Nodup)
    (hw : ∀ p ∈ q, (s.lines.at p).state = .queued ∧ s.bus ≠ .claimed p) :
    ∃ lines scan buffers, inTurn q (fun p => lineEnds p .parked) s = { s with
        lines := lines, scan := scan, buffers := buffers, waitQueue := [] }
      ∧ ∀ p, if p ∈ q then lines.at p = parkedLine (s.lines.at p) ∧ buffers.at p = DigitBuffer.empty
        else lines.at p = s.lines.at p ∧ buffers.at p = s.buffers.at p ∧ scan.at p = s.scan.at p := by
  induction q generalizing s with
  | nil =>
    refine ⟨s.lines, s.scan, s.buffers, ?_, fun p => ⟨rfl, rfl, rfl⟩⟩
    show s = { s with waitQueue := [] }
    rw [← hq]
  | cons a q ih =>
    obtain ⟨apart, hn⟩ := List.nodup_cons.mp hn
    obtain ⟨queued, unclaimed⟩ := hw a List.mem_cons_self
    have uncalled : ¬ (s.lines.at a).state.called = true := by rw [queued]; decide
    have ended : lineEnded s a .parked = parkedLine (s.lines.at a) := by
      unfold lineEnded parkedLine
      rw [if_neg unclaimed]
    have one := lineEnds_eq a s (st := .parked) rfl
    rw [ended, if_pos queued, if_neg uncalled, if_neg uncalled, if_neg uncalled, busEnded_of_unclaimed unclaimed, hq, List.erase_cons_head] at one
    have other {p : Port} (hp : p ∈ q) : p ≠ a := fun x => apart (x ▸ hp)
    have later : ∀ p ∈ q, ((lineEnds a .parked s).lines.at p).state = .queued ∧ (lineEnds a .parked s).bus ≠ .claimed p := fun p hp => by
      obtain ⟨waits, free⟩ := hw p (List.mem_cons_of_mem _ hp)
      rw [one]
      exact ⟨(congrArg Line.state (Table.at_put_other _ _ (other hp))).trans waits, free⟩
    obtain ⟨lines, scan, buffers, rest, each⟩ := ih (s := lineEnds a .parked s) (by rw [one]) hn later
    refine ⟨lines, scan, buffers, ?_, fun p => ?_⟩
    · show inTurn q _ (lineEnds a .parked s) = _
      rw [rest, one]
    · have mine := each p
      rw [one] at mine
      dsimp only at mine
      by_cases hp : p ∈ q
      · rw [if_pos hp, Table.at_put_other _ _ (other hp)] at mine
        rw [if_pos (List.mem_cons_of_mem _ hp)]
        exact mine
      · rw [if_neg hp] at mine
        obtain ⟨line, buffer, scanner⟩ := mine
        by_cases ha : p = a
        · subst ha
          rw [if_pos List.mem_cons_self]
          exact ⟨line.trans (Table.at_put_same _ _ _), buffer.trans (Table.at_put_same _ _ _)⟩
        · rw [if_neg fun x => (List.mem_cons.mp x).elim ha hp]
          exact ⟨line.trans (Table.at_put_other _ _ ha), buffer.trans (Table.at_put_other _ _ ha), scanner.trans (Table.at_put_other _ _ ha)⟩

/-- The end of one line's call takes no other line's report away. -/
theorem endReports_other {a b : Port} {st old : LineState} (s : State) (r : Reason) (hst : st.endsCall = true) (h : b ≠ a) :
    endReports (lineEnds a st s) b old r = endReports s b old r := by
  have claimed : (lineEnds a st s).bus = .claimed b ↔ s.bus = .claimed b := by
    rw [lineEnds_eq a s hst]
    unfold busEnded
    dsimp only
    split
    · next mine =>
      rw [mine]
      exact ⟨fun x => (nomatch x), fun x => absurd (TestBus.claimed.inj x).symm h⟩
    · exact Iff.rfl
  unfold endReports
  simp only [claimed]

/-- The lines of the wait queue are parked with their reports. -/
theorem Comes.parks {s u t : State} {rs : List Report} {n : Nat} (h : Comes s rs u t) (hr : Room n s) (hn : u.waitQueue.Nodup)
    (hw : ∀ p ∈ u.waitQueue, u.bus ≠ .claimed p) (hl : rs.length + u.waitQueue.length ≤ n) :
    Comes s (rs ++ u.waitQueue.map fun p => .callEvent p .parked (.because .config))
      (inTurn u.waitQueue (fun p => lineEnds p .parked) u) (parkQueued t) := by
  have reports : u.waitQueue.flatMap (fun p => endReports u p .parked .config) = u.waitQueue.map fun p => .callEvent p .parked (.because .config) := by
    rw [List.map_eq_flatMap]
    exact List.flatMap_congr fun p hp => endReports_of_unclaimed (hw p hp) _ _
  have waiting : t.waitQueue = u.waitQueue := h.waitQueue_eq
  unfold parkQueued
  rw [waiting]
  refine (Comes.steps (I := fun _ => True) (reps := fun x p => endReports x p .parked .config)
    (fun p x y rs _ hx hl => hx.enterBare p .config rfl (fun i => nomatch i) hr hl) (fun _ _ _ => trivial)
    (fun a b x hb => endReports_other x .config rfl hb) hn trivial h ?_).reports_eq (congrArg (rs ++ ·) reports)
  rw [reports, List.length_map]
  exact hl

/-! ## The end of the event -/

/-- With nobody waiting for a slot, an event that gains no room for ringing ends with the end of CONFIG_PENDING alone. -/
theorem finish_pending {s u : State} (hr : roomGained s u = false) (hq : u.waitQueue = []) (hh : u.holdover = none ∨ anyHeld u = true) :
    finish s u = endPending u := by
  have stops : stopHoldover u = u := by
    unfold stopHoldover
    rcases hh with none | held
    · split
      · rfl
      · rw [← none]
    · rw [held]
      rfl
  unfold finish
  rw [hr, if_neg Bool.false_ne_true]
  dsimp only
  rw [attempt_of_nobody hq, ite_self, stops]

/-- CONFIG_PENDING at its end, with its report. -/
theorem Comes.endsPending {s u t : State} {rs : List Report} {n : Nat} (h : Comes s rs u t) (hm : u.mode = .configPending) (hr : Room n s)
    (hn : rs.length < n) : Comes s (rs ++ if anyInUse u then [] else [.modeEvent .config .callsEnded])
      { u with mode := if anyInUse u then .configPending else .config } (endPending t) := by
  have mode : t.mode = .configPending := (congrArg State.mode h.port :).trans hm
  have use : anyInUse t = anyInUse u := (congrArg anyInUse h.port :)
  unfold endPending
  rw [use]
  cases anyInUse u with
  | true =>
    have same : ({ u with mode := .configPending } : State) = u := by rw [← hm]
    show Comes s (rs ++ []) { u with mode := .configPending } _
    rw [if_neg fun x : t.mode = .configPending ∧ true = false => nomatch x.2]
    exact (h.restate (congrArg State.apartFromPort same)).reports_eq (List.append_nil rs).symm
  | false =>
    show Comes s (rs ++ [.modeEvent .config .callsEnded]) { u with mode := .config } _
    rw [if_pos (And.intro mode rfl)]
    exact (h.map (setMode .config) fun _ _ => rfl).report _ hr hn

/-! ## CONFIG_ENTER(ORDERLY) (R176) -/

section
variable {s : State} {num : Byte}

/-- The orderly form in NORMAL, up to the end of the event. -/
theorem Comes.orderly (hn : s.waitQueue.Nodup) (hw : ∀ p ∈ s.waitQueue, s.bus ≠ .claimed p) (hm : s.mode = .normal)
    (hroom : Room (s.waitQueue.length + 2) s) :
    Comes (Machine.taken num .done s) ([.modeEvent .configPending .request] ++ s.waitQueue.map fun p => .callEvent p .parked (.because .config))
      (inTurn s.waitQueue (fun p => lineEnds p .parked) { s with mode := .configPending }) (enterOrderly (Machine.taken num .done s)) := by
  have room := taken_room num .done hroom
  have mode : (Machine.taken num .done s).mode = .normal := (congrArg State.mode (taken_port num .done s) :).trans hm
  have told := ((Comes.taken num .done s).map (setMode .configPending) fun _ _ => rfl).report (.modeEvent .configPending .request) room
    (by rw [List.length_nil]; omega)
  have parked := told.parks room hn hw (by dsimp only [setMode, List.nil_append, List.length_singleton]; omega)
  unfold enterOrderly
  rw [if_pos mode]
  exact parked

/-- The orderly form in NORMAL: what comes of it. -/
theorem Answers.enterOrderly {P : State → Prop} (ht : Takes num 0x02 [0] s) (hm : s.mode = .normal) (hn : s.waitQueue.Nodup)
    (hw : ∀ p ∈ s.waitQueue, (s.lines.at p).state = .queued ∧ s.bus ≠ .claimed p) (he : EventsFinished s)
    (hroom : Room (s.waitQueue.length + 2) s)
    (hP : ∀ y t lines scan buffers, t = ({ s with
        mode := if anyInUse s then .configPending else .config, lines := lines, scan := scan, buffers := buffers
        waitQueue := [] } : State).withPort y →
      (∀ p, if p ∈ s.waitQueue then lines.at p = parkedLine (s.lines.at p) ∧ buffers.at p = DigitBuffer.empty
        else lines.at p = s.lines.at p ∧ buffers.at p = s.buffers.at p ∧ scan.at p = s.scan.at p) →
      Made s t ([.modeEvent .configPending .request] ++ s.waitQueue.map (fun p => .callEvent p .parked (.because .config))
        ++ if anyInUse s then [] else [.modeEvent .config .callsEnded]) → Replied t num .done → P t) :
    Answers (.configEnterOrderly num [0]) s P := by
  have told := Comes.orderly (num := num) hn (fun p hp => (hw p hp).2) hm hroom
  obtain ⟨lines, scan, buffers, eq, each⟩ := parks_eq (s := { s with mode := .configPending }) rfl hn hw
  rw [eq] at told
  have running : Running (taken num .done s) := (power_of_port (taken_port num .done s)).trans ht.1
  have cells : (taken num .done s).cells = s.cells := (congrArg State.cells (taken_port num .done s) :)
  have posture : (taken num .done s).posture = s.posture := (congrArg State.posture (taken_port num .done s) :)
  have acts : act Machine.enterOrderly (taken num .done s) = endPending (Machine.enterOrderly (taken num .done s)) := by
    rw [act_running running, serve_taken]
    generalize Machine.enterOrderly (taken num .done s) = v at told
    have held : anyHeld v = anyHeld s := (congrArg anyHeld told.port :)
    have hold : v.holdover = s.holdover := (congrArg State.holdover told.port :)
    exact finish_pending (roomGained_of_same ((congrArg State.cells told.port :).trans cells.symm)
      ((congrArg State.posture told.port :).trans posture.symm)) told.waitQueue_eq (by rw [hold, held]; exact he.1)
  have ended := told.endsPending rfl (taken_room num .done hroom) (by
    rw [List.length_append, List.length_map, List.length_singleton]
    omega)
  exact .answered (o := .done) rfl ht (fun _ => rfl) (fun _ => by simp) acts ended fun y made reply => hP y _ lines scan buffers rfl each made reply

end

end Sys2Proof.Machine
end

