-- ==== Sys2Proof/Proofs/ForcedLines.lean ====
section
/-! PROOF. CONFIG_ENTER(FORCE) from the side of the lines: each line in a call goes to the state that the force gives it (for O58). -/

namespace Sys2Proof.Machine

/-! ## The rule -/

/-- The state that CONFIG_ENTER(FORCE) sends a line in a call to. -/
def forcedTo : LineState → Option LineState
  | .offered => some .idle
  | .ringing => some .idle
  | .seizing => some .parked
  | .activeOut => some .parked
  | .activeIn => some .parked
  | .holdover => some .parked
  | _ => none

theorem forcedTo_rule : FallRule forcedTo where
  queued := rfl
  ends old st h := by cases old <;> cases h <;> exact .inr rfl

theorem forcedTo_eq (st : LineState) : forcedTo st = if st.holdsSlot = true then some (if st.called then .idle else .parked) else none := by
  cases st <;> rfl

theorem endsCall_of_forcedTo {old st : LineState} (h : forcedTo old = some st) : st.endsCall = true := by
  cases old <;> cases h <;> rfl

theorem holdsSlot_of_forcedTo {old st : LineState} (h : forcedTo old = some st) : old.holdsSlot = true := by
  cases old <;> first | rfl | exact nomatch h

theorem holdsSlot_of_forcedTo_none {old : LineState} (h : forcedTo old = none) : old.holdsSlot = false := by
  cases old <;> first | rfl | exact nomatch h

theorem forceLine_eq (p : Port) (s : State) : forceLine p s = match forcedTo (s.lines.at p).state with
    | none => s
    | some st => endLine p st .config s := by
  unfold forceLine
  cases (s.lines.at p).state <;> rfl

/-! ## One line -/

/-- The record of a line after the force. -/
def forcedLine (l : Line) : Line :=
  match forcedTo l.state with
  | none => l
  | some st => { Line.unequipped with state := st, faultPresent := l.faultPresent }

/-- What stands while lines are forced out of their calls. -/
structure Forcing (t : State) : Prop where
  calls : t.callSide.Agrees
  bus : t.bus = .free
  groups : ∀ g, (t.groups.at g).state ≠ .standbyPending

section
variable {t : State} {p : Port} (h : Forcing t)
include h

/-- The bare state at the end of a line's call, the reports apart. -/
theorem Forcing.enterBare_port {st : LineState} (r : Reason) (u : State) (hb : u.bus = t.bus) (hg : u.groups = t.groups) :
    (enterBare p st r u).apartFromPort = (lineEnds p st u).apartFromPort := by
  have unclaimed : u.bus ≠ .claimed p := fun x => by
    rw [hb, h.bus] at x
    exact nomatch x
  unfold enterBare enterLine lineEnds
  rw [if_neg fun x => unclaimed x.2, if_neg unclaimed]
  dsimp only
  have told : (callEvent p st r (moveLine p st none none u)).apartFromPort = (moveLine p st none none u).apartFromPort := report_port ..
  split
  · have groups : (callEvent p st r (moveLine p st none none u)).groups = t.groups :=
      ((congrArg State.groups told :).trans (moveLine_groups ..)).trans hg
    unfold groupIdle
    rw [groups, if_neg fun x => h.groups _ x.1]
    exact told
  · exact told

/-- A line forced out of its call gives up its slot and goes to its state, the report apart. -/
theorem Forcing.forceLine_port : (forceLine p t).apartFromPort = (fallen forcedTo p (releaseLine p .config t)).apartFromPort := by
  have frame := releaseLine_frame p .config t
  have line : (releaseLine p .config t).lines = t.lines := (congrArg State.lines frame :)
  rw [forceLine_eq]
  unfold fallen
  rw [line]
  cases hst : forcedTo (t.lines.at p).state with
  | none =>
    have none := (h.calls.line p).call_none (holdsSlot_of_forcedTo_none hst)
    dsimp only
    rw [releaseLine_of_none none]
  | some st =>
    have bare : st ≠ .holdover := by
      rintro rfl
      exact nomatch endsCall_of_forcedTo hst
    dsimp only
    rw [if_neg bare]
    exact h.enterBare_port .config (releaseLine p .config t) (congrArg State.bus frame :) (congrArg State.groups frame :)

theorem Forcing.forceLine_frame : ∃ lines scan buffers cells queue drive, (forceLine p t).apartFromPort
    = ({ (releaseLine p .config t) with
        lines := lines, scan := scan, buffers := buffers, cells := cells, ringQueue := queue, ringDrive := drive } : State).apartFromPort := by
  have port := h.forceLine_port (p := p)
  obtain ⟨lines, scan, buffers, cells, queue, drive, bus, eq⟩ := fallen_frame forcedTo_rule p (releaseLine p .config t)
  have free : (fallen forcedTo p (releaseLine p .config t)).bus = t.bus :=
    (fallen_bus_of_other forcedTo_rule p (releaseLine p .config t) fun q x => by
      have same : (releaseLine p .config t).bus = t.bus := (congrArg State.bus (releaseLine_frame p .config t) :)
      rw [same, h.bus] at x
      exact nomatch x).trans (congrArg State.bus (releaseLine_frame p .config t) :)
  rw [eq] at port free
  have same : bus = t.bus := free
  have mine : (releaseLine p .config t).bus = t.bus := (congrArg State.bus (releaseLine_frame p .config t) :)
  rw [same, ← mine] at port
  exact ⟨lines, scan, buffers, cells, queue, drive, port⟩

theorem Forcing.forceLine_lines : (forceLine p t).lines = t.lines.put p (forcedLine (t.lines.at p)) := by
  have frame := releaseLine_frame p .config t
  have line : (releaseLine p .config t).lines = t.lines := (congrArg State.lines frame :)
  have bus : (releaseLine p .config t).bus = .free := (congrArg State.bus frame :).trans h.bus
  refine ((congrArg State.lines h.forceLine_port :).trans (fallen_lines forcedTo_rule p _)).trans ?_
  rw [line]
  unfold fallenLine forcedLine lineEnded
  rw [line, bus]
  cases hst : forcedTo (t.lines.at p).state with
  | none => rfl
  | some st =>
    have bare : st ≠ .holdover := by
      rintro rfl
      exact nomatch endsCall_of_forcedTo hst
    dsimp only
    rw [if_neg bare, if_neg fun x => nomatch x]

/-- What forcing a line out of its call leaves alone. -/
theorem Forcing.rest : (forceLine p t).bus = t.bus ∧ (forceLine p t).groups = t.groups ∧ (forceLine p t).waitQueue = t.waitQueue
    ∧ (forceLine p t).mode = t.mode := by
  obtain ⟨lines, scan, buffers, cells, queue, drive, eq⟩ := h.forceLine_frame (p := p)
  have frame := releaseLine_frame p .config t
  have bus : (forceLine p t).bus = (releaseLine p .config t).bus := (congrArg State.bus eq :)
  have groups : (forceLine p t).groups = (releaseLine p .config t).groups := (congrArg State.groups eq :)
  have wait : (forceLine p t).waitQueue = (releaseLine p .config t).waitQueue := (congrArg State.waitQueue eq :)
  have mode : (forceLine p t).mode = (releaseLine p .config t).mode := (congrArg State.mode eq :)
  exact ⟨bus.trans (congrArg State.bus frame :), groups.trans (congrArg State.groups frame :), wait.trans (congrArg State.waitQueue frame :),
    mode.trans (congrArg State.mode frame :)⟩

theorem Forcing.step : Forcing (forceLine p t) := by
  obtain ⟨bus, groups, -, -⟩ := h.rest (p := p)
  exact ⟨forceLine_agrees h.calls, bus.trans h.bus, by rw [groups]; exact h.groups⟩

end

/-! ## Every line -/

/-- The report of a line forced out of its call. -/
def forceReports (s : State) (p : Port) : List Report :=
  match forcedTo (s.lines.at p).state with
  | none => []
  | some st => [.callEvent p st (.because .config)]

theorem Forcing.forceLine_line_other {t : State} (h : Forcing t) {p q : Port} (hq : q ≠ p) : (forceLine p t).lines.at q = t.lines.at q := by
  rw [h.forceLine_lines]
  exact Table.at_put_other _ _ hq

theorem Forcing.all {t : State} (h : Forcing t) (ps : List Port) : Forcing (inTurn ps forceLine t) :=
  inTurn_induct Forcing forceLine ps (fun _ _ _ hu => hu.step) t h

theorem Forcing.all_rest {t : State} (h : Forcing t) (ps : List Port) : (inTurn ps forceLine t).bus = t.bus
    ∧ (inTurn ps forceLine t).groups = t.groups ∧ (inTurn ps forceLine t).waitQueue = t.waitQueue ∧ (inTurn ps forceLine t).mode = t.mode := by
  induction ps generalizing t with
  | nil => exact ⟨rfl, rfl, rfl, rfl⟩
  | cons p ps ih =>
    obtain ⟨bus, groups, wait, mode⟩ := ih h.step (t := forceLine p t)
    obtain ⟨bus', groups', wait', mode'⟩ := h.rest (p := p)
    exact ⟨bus.trans bus', groups.trans groups', wait.trans wait', mode.trans mode'⟩

/-- The lines after the force. -/
theorem Forcing.all_lines {t : State} (h : Forcing t) {ps : List Port} (hn : ps.Nodup) (p : Port) :
    (inTurn ps forceLine t).lines.at p = if p ∈ ps then forcedLine (t.lines.at p) else t.lines.at p := by
  induction ps generalizing t with
  | nil => rfl
  | cons a ps ih =>
    obtain ⟨apart, hn⟩ := List.nodup_cons.mp hn
    refine (ih (t := forceLine a t) h.step hn).trans ?_
    by_cases hp : p = a
    · subst hp
      rw [if_neg apart, if_pos List.mem_cons_self, h.forceLine_lines, Table.at_put_same]
    · rw [h.forceLine_line_other hp]
      simp only [List.mem_cons, hp, false_or]

/-- The reports of the force, in the order of the ports. -/
theorem Comes.forces {s t : State} {rs : List Report} {n : Nat} (hc : Comes s rs t t) (h : Forcing t) (hr : Room n s) {ps : List Port}
    (hn : ps.Nodup) (hl : rs.length + (ps.flatMap (forceReports t)).length ≤ n) :
    Comes s (rs ++ ps.flatMap (forceReports t)) (inTurn ps forceLine t) (inTurn ps forceLine t) := by
  induction ps generalizing t rs with
  | nil => exact hc.reports_eq (List.append_nil rs).symm
  | cons p ps ih =>
    obtain ⟨apart, hn⟩ := List.nodup_cons.mp hn
    rw [List.flatMap_cons, List.length_append] at hl
    have later : ps.flatMap (forceReports (forceLine p t)) = ps.flatMap (forceReports t) := by
      refine List.flatMap_congr fun q hq => ?_
      unfold forceReports
      rw [h.forceLine_line_other (p := p) (q := q) fun x => apart (by rw [← x]; exact hq)]
    have one : Comes s (rs ++ forceReports t p) (forceLine p t) (forceLine p t) := by
      have frame := releaseLine_frame p .config t
      have bus : (releaseLine p .config t).bus = .free := (congrArg State.bus frame :).trans h.bus
      have groups : (releaseLine p .config t).groups = t.groups := (congrArg State.groups frame :)
      have unclaimed : (releaseLine p .config t).bus ≠ .claimed p := fun x => by
        rw [bus] at x
        exact nomatch x
      rw [forceLine_eq]
      unfold forceReports at hl ⊢
      cases hst : forcedTo (t.lines.at p).state with
      | none => exact hc.reports_eq (List.append_nil rs).symm
      | some st =>
        rw [hst] at hl
        have reports := endReports_of_unclaimed unclaimed st .config
        have told := (hc.map (releaseLine p .config) fun x y => releaseLine_withPort x y p .config).enterBare p (st := st) .config
          (endsCall_of_forcedTo hst) (fun _ => by rw [groups]; exact h.groups _) hr (by rw [reports]; dsimp only at hl; omega)
        rw [reports] at told
        exact told.restate told.port
    have rest := ih one h.step hn (by rw [later, List.length_append]; omega)
    rw [later] at rest
    exact rest.reports_eq (by rw [List.flatMap_cons, List.append_assoc])

end Sys2Proof.Machine
end

