-- ==== Sys2Proof/Proofs/ForcedSlots.lean ====
section
/-! PROOF. CONFIG_ENTER(FORCE) from the side of the slots: each slot in a call is given up by its own line, and no other line's step
disturbs it (for O58). -/

namespace Sys2Proof.Machine

/-! ## Steps that each act on what they own -/

section
variable {α β γ : Type} [DecidableEq α] {f : α → State → State} {view : State → β → γ} {owner : γ → Option α} {I : State → Prop}
  {Q : γ → γ → Prop}

/-- What nobody owns stands, whatever steps are taken. -/
theorem inTurn_unowned (keeps : ∀ a s, I s → I (f a s)) (other : ∀ a b s, I s → owner (view s b) ≠ some a → view (f a s) b = view s b)
    (xs : List α) {s : State} (hs : I s) {b : β} (ho : ∀ a ∈ xs, owner (view s b) ≠ some a) : view (inTurn xs f s) b = view s b := by
  induction xs generalizing s with
  | nil => rfl
  | cons a xs ih =>
    have one := other a b s hs (ho a List.mem_cons_self)
    exact (ih (s := f a s) (keeps a s hs) fun x hx => by rw [one]; exact ho x (List.mem_cons_of_mem a hx)).trans one

/-- What one step owns, and nobody after it, becomes what that step makes of it. -/
theorem inTurn_owned (keeps : ∀ a s, I s → I (f a s)) (other : ∀ a b s, I s → owner (view s b) ≠ some a → view (f a s) b = view s b)
    (self : ∀ a b s, I s → owner (view s b) = some a → Q (view s b) (view (f a s) b) ∧ owner (view (f a s) b) = none)
    {xs : List α} {s : State} (hs : I s) {a : α} {b : β} (ho : owner (view s b) = some a) (ha : a ∈ xs) :
    Q (view s b) (view (inTurn xs f s) b) := by
  induction xs generalizing s with
  | nil => exact nomatch ha
  | cons c xs ih =>
    by_cases hc : c = a
    · subst hc
      obtain ⟨made, free⟩ := self c b s hs ho
      have later := inTurn_unowned keeps other xs (keeps c s hs) (b := b) fun x _ => by rw [free]; exact fun e => nomatch e
      show Q _ (view (inTurn xs f (f c s)) b)
      rw [later]
      exact made
    · have one := other c b s hs (by rw [ho]; exact fun e => hc (Option.some.inj e).symm)
      have rest := ih (keeps c s hs) (by rw [one]; exact ho) ((List.mem_cons.mp ha).resolve_left (Ne.symm hc))
      rw [one] at rest
      exact rest
end

/-! ## What of the part belongs to a slot -/

/-- The entries of a slot, in the order of the queue. -/
def entriesOf (s : State) (i : SlotId) : List Entry := s.txq.filter fun e => decide (e.slot? = some i)

/-- A slot's record, its signalling record, its entries, and whether one of them is in flight. -/
structure SlotView where
  slot : Slot
  sig : Sig
  entries : List Entry
  flying : Bool

def slotView (s : State) (i : SlotId) : SlotView := ⟨s.slots.at i, s.sig.at i, entriesOf s i, decide (flightSlot s = some i)⟩

namespace SlotView

/-- The line whose call the slot holds. -/
def owner (v : SlotView) : Option Port := v.slot.call?.map (·.line)

/-- The slot's one entry is a queued SEIZE, and its tag is not known. -/
def Unsent (v : SlotView) : Prop := v.flying = false ∧ (∃ e ∈ v.entries.head?, e.slotMsg? = some .seize) ∧ v.sig.tagKnown = false

/-- What becomes of a slot that CONFIG_ENTER(FORCE) takes out of its call. -/
structure Forced (v w : SlotView) : Prop where
  released : v.slot.isHeld = true ∨ v.Unsent → w.slot = Machine.released v.slot.blockPending ∧ w.entries = []
  clearing : v.slot.isHeld = false → ¬ v.Unsent → ∀ c ∈ v.slot.call?,
    w.slot = .clearing c.line c.tag (.awaitAck .config) v.slot.blockPending
      ∧ ((∃ e ∈ w.entries, e.slotMsg? = some (.clear .config)) ∨ w.sig.owed = some (.clear .config))

end SlotView

section
variable {s t : State} {i j : SlotId}

theorem mem_entriesOf {e : Entry} : e ∈ entriesOf s i ↔ e ∈ s.txq ∧ e.slot? = some i := by
  unfold entriesOf
  rw [List.mem_filter, decide_eq_true_iff]

theorem entriesOf_nil_iff : entriesOf s i = [] ↔ hasEntry s i = false := by
  unfold entriesOf hasEntry
  rw [List.filter_eq_nil_iff, List.any_eq_false]

theorem flightSlot_cons {e : Entry} {rest : List Entry} (hq : s.txq = e :: rest) (hf : s.inFlight.isSome = true) : flightSlot s = e.slot? := by
  unfold flightSlot
  rw [if_pos hf, hq]
  rfl

/-- A slot's queued entry is the first of its entries that is not in flight. -/
theorem queuedEntry_eq (he : OneEntryEach s) : queuedEntry s i = if flightSlot s = some i then none else (entriesOf s i).head? := by
  split
  · next hf =>
    by_contra hq
    exact flightSlot_ne he (Option.isSome_iff_ne_none.mpr hq) hf
  · next hf =>
    unfold queuedEntry queuedEntries flightCount entriesOf
    rw [List.head?_filter]
    by_cases flies : s.inFlight.isSome = true
    · rw [if_pos flies]
      cases hq : s.txq with
      | nil => rfl
      | cons e rest =>
        rw [flightSlot_cons hq flies] at hf
        rw [List.find?_cons_of_neg (by simpa using hf)]
        rfl
    · rw [if_neg flies]
      rfl

theorem unsentSeize_iff (he : OneEntryEach s) : UnsentSeize s i ↔ (slotView s i).Unsent := by
  unfold UnsentSeize SlotView.Unsent slotView
  dsimp only
  rw [queuedEntry_eq he]
  by_cases hf : flightSlot s = some i
  · simp [hf]
  · simp [hf]

/-! ## An entry replaced in its place -/

theorem withSlotMsg_slot (m : SlotMsg) (e : Entry) : (e.withSlotMsg m).slot? = e.slot? := by
  obtain ⟨msg, pinned⟩ := e
  cases msg <;> rfl

theorem withSlotMsg_sends (m : SlotMsg) {e : Entry} (h : e.slot? = some i) : (e.withSlotMsg m).slotMsg? = some m := by
  obtain ⟨msg, pinned⟩ := e
  cases msg with
  | ofNone x => exact nomatch h
  | ofSlot k p tag x => rfl

theorem replaced_slot (m : SlotMsg) (e : Entry) : (if e.slot? = some i then e.withSlotMsg m else e).slot? = e.slot? := by
  split
  · exact withSlotMsg_slot m e
  · rfl

theorem replaced_filter_other (m : SlotMsg) (q : List Entry) (hj : j ≠ i) :
    (replaced i m q).filter (fun e => decide (e.slot? = some j)) = q.filter fun e => decide (e.slot? = some j) := by
  unfold replaced
  induction q with
  | nil => rfl
  | cons e q ih =>
    rw [List.map_cons, List.filter_cons, List.filter_cons, replaced_slot, ih]
    by_cases hi : e.slot? = some i
    · rw [hi, if_neg (by simpa using Ne.symm hj), if_neg (by simpa using Ne.symm hj)]
    · rw [if_neg hi]

theorem replaced_head (m : SlotMsg) (q : List Entry) : (replaced i m q).head?.bind Entry.slot? = q.head?.bind Entry.slot? := by
  cases q with
  | nil => rfl
  | cons e q => exact replaced_slot m e

/-! ## A slot given up leaves the others -/

/-- The entry in flight stands, and so do the entries of the other slots. -/
theorem Superseded.others {p : Port} {tag : Nat} {b : Bool} {o : ClearOwed} (h : Superseded i p tag b o s t) (he : OneEntryEach s)
    (hf : s.inFlight.isSome = true → s.txq ≠ []) : flightSlot t = flightSlot s ∧ ∀ j, j ≠ i → entriesOf t j = entriesOf s j := by
  obtain ⟨-, flight, unsent, sent⟩ := h
  have same (hq : s.inFlight.isSome = true → t.txq.head?.bind Entry.slot? = s.txq.head?.bind Entry.slot?) : flightSlot t = flightSlot s := by
    unfold flightSlot
    rw [flight]
    split
    · next flies => exact hq flies
    · rfl
  by_cases hu : UnsentSeize s i
  · obtain ⟨-, -, queue⟩ := unsent hu
    obtain ⟨e, queued, -⟩ := hu.queued
    refine ⟨same fun flies => ?_, fun j hj => ?_⟩
    · rw [queue]
      cases hq : s.txq with
      | nil => rfl
      | cons x rest =>
        have other := flightSlot_ne he (i := i) (by rw [queued]; rfl)
        rw [flightSlot_cons hq flies] at other
        rw [List.filter_cons_of_pos (by simpa using other)]
        rfl
    · unfold entriesOf
      rw [queue, List.filter_filter]
      refine List.filter_congr fun x _ => ?_
      by_cases hx : x.slot? = some j
      · simp [hx, hj]
      · simp [hx]
  · obtain ⟨-, -, rest⟩ := sent hu
    split at rest
    · refine ⟨same fun _ => ?_, fun j hj => ?_⟩
      · rw [rest.1]
        exact replaced_head _ _
      · unfold entriesOf
        rw [rest.1]
        exact replaced_filter_other _ _ hj
    · split at rest
      · exact ⟨same fun _ => by rw [rest.1], fun j _ => by unfold entriesOf; rw [rest.1]⟩
      · refine ⟨same fun flies => ?_, fun j hj => ?_⟩
        · rw [rest.1]
          cases hq : s.txq with
          | nil => exact absurd hq (hf flies)
          | cons x q => rfl
        · have names : ({ msg := .ofSlot i p tag o.msg, pinned := false } : Entry).slot? = some i := rfl
          unfold entriesOf
          rw [rest.1, List.filter_append, List.filter_cons_of_neg (by rw [names]; simpa using Ne.symm hj), List.filter_nil, List.append_nil]

/-- What becomes of the slot itself. -/
theorem Superseded.forced {c : Call} (h : Superseded i c.line c.tag (s.slots.at i).blockPending (.clear .config) s t) (he : OneEntryEach s)
    (hc : (s.slots.at i).call? = some c) (hh : (s.slots.at i).isHeld = false) : (slotView s i).Forced (slotView t i) := by
  obtain ⟨-, flight, unsent, sent⟩ := h
  refine ⟨fun hr => ?_, fun _ hu d hd => ?_⟩
  · rcases hr with held | hu
    · rw [show (slotView s i).slot.isHeld = false from hh] at held
      exact nomatch held
    · obtain ⟨slot, -, queue⟩ := unsent ((unsentSeize_iff he).mpr hu)
      refine ⟨slot, ?_⟩
      show entriesOf t i = []
      unfold entriesOf
      rw [queue, List.filter_filter, List.filter_eq_nil_iff]
      intro e _
      by_cases hi : e.slot? = some i <;> simp [hi]
  · obtain ⟨slot, -, rest⟩ := sent fun x => hu ((unsentSeize_iff he).mp x)
    obtain rfl : d = c := Option.some.inj ((show (slotView s i).slot.call? = some d from hd).symm.trans hc)
    refine ⟨slot, ?_⟩
    split at rest
    · next queued =>
      obtain ⟨e, queued⟩ := Option.isSome_iff_exists.mp queued
      obtain ⟨mem, names⟩ := queuedEntry_mem queued
      refine .inl ⟨e.withSlotMsg (.clear .config), mem_entriesOf.mpr ⟨?_, (withSlotMsg_slot _ e).trans names⟩, withSlotMsg_sends _ names⟩
      rw [rest.1]
      exact List.mem_map.mpr ⟨e, List.mem_of_mem_drop mem, if_pos names⟩
    · split at rest
      · exact .inr rest.2
      · refine .inl ⟨{ msg := .ofSlot i d.line d.tag (.clear .config), pinned := false }, mem_entriesOf.mpr ⟨?_, rfl⟩, rfl⟩
        rw [rest.1]
        exact List.mem_append_right _ (List.mem_singleton_self _)

end

/-! ## The step of a line -/

section
variable {t : State} (h : Forcing t)
include h

theorem Forcing.oneEntryEach : OneEntryEach t := ((callsAgree_iff t).mpr h.calls).2.1.1

theorem Forcing.flies : t.inFlight.isSome = true → t.txq ≠ [] := ((callsAgree_iff t).mpr h.calls).2.1.2.1

/-- A HELD slot has no entry. -/
theorem Forcing.entries_of_held {i : SlotId} (hh : (t.slots.at i).isHeld = true) : entriesOf t i = [] := by
  rw [List.eq_nil_iff_forall_not_mem]
  intro e he
  obtain ⟨mem, names⟩ := mem_entriesOf.mp he
  obtain ⟨-, unheld, -⟩ := ((callsAgree_iff t).mpr h.calls).2.1.2.2.1 e mem i names
  rw [hh] at unheld
  exact nomatch unheld

theorem Forcing.forceLine_slotView (p : Port) (i : SlotId) : slotView (forceLine p t) i = slotView (releaseLine p .config t) i := by
  obtain ⟨lines, scan, buffers, cells, queue, drive, eq⟩ := h.forceLine_frame (p := p)
  exact (congrArg (fun x => slotView x i) eq :)

theorem Forcing.forceLine_inFlight (p : Port) : (forceLine p t).inFlight = (releaseLine p .config t).inFlight := by
  obtain ⟨lines, scan, buffers, cells, queue, drive, eq⟩ := h.forceLine_frame (p := p)
  exact (congrArg State.inFlight eq :)

/-- How a line gives up its call: by its slot's local release, or with a clear item owed. -/
theorem Forcing.releaseLine_cases (p : Port) :
    ((t.lines.at p).call = none ∧ releaseLine p .config t = t)
    ∨ ∃ i c, (t.slots.at i).call? = some c ∧ c.line = p
      ∧ (((t.slots.at i).isHeld = true ∧ releaseLine p .config t = freeSlot i t)
        ∨ ((t.slots.at i).isHeld = false ∧ releaseLine p .config t = releaseOwing i (.clear .config) t)) := by
  cases hcall : (t.lines.at p).call with
  | none => exact .inl ⟨rfl, releaseLine_of_none hcall⟩
  | some x =>
    obtain ⟨i, dir⟩ := x
    obtain ⟨holds, -, -⟩ := (h.calls.line p).slot_call hcall
    obtain ⟨c, hc, line, -⟩ := call_of_holds holds
    refine .inr ⟨i, c, hc, line, ?_⟩
    by_cases hst : (t.lines.at p).state = .holdover
    · refine .inl ⟨?_, releaseLine_of_holdover hst hcall⟩
      rw [hst] at holds
      cases hs : t.slots.at i <;> rw [hs] at holds <;> first | rfl | exact nomatch holds
    · refine .inr ⟨?_, releaseLine_of_call hst hcall⟩
      have unheld : (t.lines.at p).state.holding ≠ .held := by
        intro x
        apply hst
        cases hl : (t.lines.at p).state <;> rw [hl] at x <;> first | rfl | exact nomatch x
      cases hs : t.slots.at i with
      | held c b =>
        rw [hs] at holds
        exact absurd (congrArg Prod.fst (Option.some.inj holds)).symm unheld
      | _ => rfl

theorem Forcing.inFlight_step (p : Port) : (forceLine p t).inFlight = t.inFlight := by
  rw [h.forceLine_inFlight]
  rcases h.releaseLine_cases p with ⟨-, eq⟩ | ⟨i, c, hc, -, ⟨-, eq⟩ | ⟨-, eq⟩⟩
  · rw [eq]
  · rw [eq, freeSlot_eq (inUse_of_call hc)]
  · rw [eq]
    exact (releaseOwing_superseded i (.clear .config) hc h.oneEntryEach).2.1

/-- The step of another line does not touch a slot. -/
theorem Forcing.slotView_other {p : Port} {j : SlotId} (ho : (slotView t j).owner ≠ some p) : slotView (forceLine p t) j = slotView t j := by
  rw [h.forceLine_slotView]
  have apart {i : SlotId} {c : Call} (hc : (t.slots.at i).call? = some c) (hp : c.line = p) : j ≠ i := by
    rintro rfl
    refine ho ?_
    show (t.slots.at j).call?.map (·.line) = some p
    rw [hc, ← hp]
    rfl
  rcases h.releaseLine_cases p with ⟨-, eq⟩ | ⟨i, c, hc, line, ⟨-, eq⟩ | ⟨-, eq⟩⟩
  · rw [eq]
  · have other := apart hc line
    rw [eq, freeSlot_eq (inUse_of_call hc)]
    unfold slotView
    dsimp only
    rw [Table.at_put_other _ _ other, Table.at_put_other _ _ other]
    rfl
  · have other := apart hc line
    obtain ⟨flying, entries⟩ := (releaseOwing_superseded i (.clear .config) hc h.oneEntryEach).others h.oneEntryEach h.flies
    have given := releaseOwing_givenUp i t (.clear .config)
    rw [eq]
    unfold slotView
    rw [given.slots j other, given.sig j other, entries j other, flying]

/-- The step of its own line takes a slot out of its call. -/
theorem Forcing.slotView_self {p : Port} {i : SlotId} (ho : (slotView t i).owner = some p) :
    (slotView t i).Forced (slotView (forceLine p t) i) ∧ (slotView (forceLine p t) i).owner = none := by
  obtain ⟨c, hc, line⟩ := Option.map_eq_some_iff.mp ho
  have hc : (t.slots.at i).call? = some c := hc
  have named : (t.lines.at p).call = some (i, c.direction) := ((callsAgree_iff t).mpr h.calls).1.2.2 i c hc |> fun x => line ▸ x
  rw [h.forceLine_slotView]
  rcases h.releaseLine_cases p with ⟨none, -⟩ | ⟨j, d, hd, line', cases⟩
  · rw [named] at none
    exact nomatch none
  · have again : (t.lines.at p).call = some (j, d.direction) := ((callsAgree_iff t).mpr h.calls).1.2.2 j d hd |> fun x => line' ▸ x
    obtain rfl : i = j := congrArg Prod.fst (Option.some.inj (named.symm.trans again))
    rcases cases with ⟨held, eq⟩ | ⟨unheld, eq⟩
    · have slot : (releaseLine p .config t).slots.at i = released (t.slots.at i).blockPending := by
        rw [eq, freeSlot_eq (inUse_of_call hc)]
        exact Table.at_put_same _ _ _
      have entries : entriesOf (releaseLine p .config t) i = [] := by
        rw [eq, freeSlot_eq (inUse_of_call hc)]
        exact h.entries_of_held held
      refine ⟨⟨fun _ => ⟨slot, entries⟩, fun unheld => ?_⟩, ?_⟩
      · rw [show (slotView t i).slot.isHeld = true from held] at unheld
        exact nomatch unheld
      · show ((releaseLine p .config t).slots.at i).call?.map (·.line) = none
        rw [slot]
        cases (t.slots.at i).blockPending <;> rfl
    · have given := releaseOwing_superseded i (.clear .config) hc h.oneEntryEach
      rw [eq]
      refine ⟨given.forced h.oneEntryEach hc unheld, ?_⟩
      show ((releaseOwing i (.clear .config) t).slots.at i).call?.map (·.line) = none
      rw [given.call_eq_none]
      rfl

/-! ## Every line -/

theorem Forcing.all_inFlight (ps : List Port) : (inTurn ps forceLine t).inFlight = t.inFlight := by
  induction ps generalizing t with
  | nil => rfl
  | cons p ps ih => exact (ih h.step (t := forceLine p t)).trans (h.inFlight_step p)

/-- A slot that is in no call stands. -/
theorem Forcing.all_unowned (ps : List Port) {i : SlotId} (hc : (t.slots.at i).call? = none) :
    slotView (inTurn ps forceLine t) i = slotView t i := by
  refine inTurn_unowned (owner := SlotView.owner) (I := Forcing) (fun _ _ hs => hs.step) (fun p i s hs ho => hs.slotView_other ho) ps h
    fun p _ x => ?_
  obtain ⟨c, call, -⟩ := Option.map_eq_some_iff.mp x
  exact nomatch hc.symm.trans call

/-- A slot in a call is taken out of it. -/
theorem Forcing.all_owned {i : SlotId} {c : Call} (hc : (t.slots.at i).call? = some c) :
    (slotView t i).Forced (slotView (inTurn allPorts forceLine t) i) :=
  inTurn_owned (owner := SlotView.owner) (I := Forcing) (Q := SlotView.Forced) (fun _ _ hs => hs.step) (fun p i s hs ho => hs.slotView_other ho)
    (fun p i s hs ho => hs.slotView_self ho) h (a := c.line) (Option.map_eq_some_iff.mpr ⟨c, hc, rfl⟩) (List.mem_finRange _)

end

end Sys2Proof.Machine
end

