-- ==== Sys2Proof/Proofs/ConfigEnters.lean ====
section
/-! PROOF. CONFIG_ENTER in its two forms (O58). -/

namespace Sys2Proof.Machine

theorem slots_of_view {s t : State} {i : SlotId} (h : slotView t i = slotView s i) : t.slots.at i = s.slots.at i := congrArg SlotView.slot h

/-! ## The end of an event with nobody left in a queue -/

/-- With nobody waiting and no slot HELD, an event outside CONFIG_PENDING ends with the holdover timer stopped. -/
theorem finish_stopped {s u : State} (hq : u.waitQueue = []) (hr : u.ringQueue = []) (hh : anyHeld u = false) (hm : u.mode ≠ .configPending) :
    finish s u = { u with holdover := none } := by
  have stops : stopHoldover u = { u with holdover := none } := by
    unfold stopHoldover
    rw [hh]
    rfl
  unfold finish
  rw [scanRing_of_nobody hr, ite_self]
  dsimp only
  rw [attempt_of_nobody hq, ite_self, stops]
  exact if_neg fun x => hm x.1

/-! ## The force -/

theorem forceLine_calls (p : Port) (s : State) : (forceLine p s).apartFromCalls = s.apartFromCalls := by
  rw [forceLine_eq]
  split
  · rfl
  · exact endLine_calls ..

theorem parkQueued_calls (s : State) : (parkQueued s).apartFromCalls = s.apartFromCalls :=
  inTurn_calls (fun p t => enterBare_calls p .parked .config t) _ s

/-- The part with its calls forced to an end, its queues and its ringing empty. -/
def forcedOut (s : State) : State := setMode .config (emptyRing (inTurn allPorts forceLine (parkQueued s)))

theorem enterForced_eq {s : State} (h : s.mode ≠ .config) : enterForced s = report (.modeEvent .config .request) (forcedOut s) := if_neg h

theorem forcedOut_calls (s : State) : (forcedOut s).apartFromCalls = s.apartFromCalls := by
  have emptied (x : State) : (setMode .config (emptyRing x)).apartFromCalls = x.apartFromCalls := rfl
  exact (emptied _).trans ((inTurn_calls forceLine_calls _ _).trans (parkQueued_calls s))

theorem forceReports_eq (s : State) (ps : List Port) : ps.flatMap (forceReports s)
    = (ps.filter fun p => (s.lines.at p).state.holdsSlot).map fun p =>
        .callEvent p (if (s.lines.at p).state.called then .idle else .parked) (.because .config) := by
  have each (p : Port) : forceReports s p = if (s.lines.at p).state.holdsSlot = true then
      [.callEvent p (if (s.lines.at p).state.called then .idle else .parked) (.because .config)] else [] := by
    unfold forceReports
    rw [forcedTo_eq]
    cases (s.lines.at p).state.holdsSlot <;> rfl
  have all := flatMap_if_singleton (fun p => (s.lines.at p).state.holdsSlot = true)
    (fun p => Report.callEvent p (if (s.lines.at p).state.called then .idle else .parked) (.because .config)) ps
  simp only [Bool.decide_eq_true] at all
  rw [← all]
  exact List.flatMap_congr fun p _ => each p

/-- What parking the wait queue leaves for the force. -/
structure Parked (s t : State) : Prop where
  forcing : Forcing t
  slots : ∀ i, slotView t i = slotView s i
  flight : t.inFlight = s.inFlight
  nobody : t.waitQueue = []
  groups : t.groups = s.groups
  lines : ∀ p, t.lines.at p = if (s.lines.at p).state = .queued then parkedLine (s.lines.at p) else s.lines.at p

section
variable {s t : State}

/-- The wait queue parked, where every line that waits is in it and the bus is FREE. -/
theorem parkQueued_parked {v : State} {rs : List Report} (hv : v.apartFromPort = s.apartFromPort) (hb : s.bus = .free)
    (hc : CallsAgree s) (hg : ∀ g, (s.groups.at g).state ≠ .standbyPending) (hn : s.waitQueue.Nodup)
    (hw : ∀ p, p ∈ s.waitQueue ↔ (s.lines.at p).state = .queued)
    (told : Comes v rs (inTurn s.waitQueue (fun p => lineEnds p .parked) s) (parkQueued v)) : Parked s (parkQueued v) := by
  obtain ⟨lines, scan, buffers, eq, each⟩ := parks_eq (s := s) rfl hn fun p hp => ⟨(hw p).mp hp, by rw [hb]; exact fun x => nomatch x⟩
  rw [eq] at told
  have port := told.port
  have wait : v.waitQueue = s.waitQueue := (congrArg State.waitQueue hv :)
  have line : v.lines = s.lines := (congrArg State.lines hv :)
  have side : v.callSide = s.callSide := (congrArg State.callSide hv :)
  have agrees := parkQueued_agrees (s := v) (fun p hp => by rw [line]; exact (hw p).mp (wait ▸ hp)) (side ▸ (callsAgree_iff s).mp hc)
  generalize parkQueued v = t at port agrees
  refine ⟨⟨agrees, (congrArg State.bus port :).trans hb, fun g => ?_⟩, fun i => (congrArg (fun x => slotView x i) port :),
    (congrArg State.inFlight port :), (congrArg State.waitQueue port :), (congrArg State.groups port :), fun p => ?_⟩
  · have groups : t.groups = s.groups := (congrArg State.groups port :)
    rw [groups]
    exact hg g
  · have lines' : t.lines = lines := (congrArg State.lines port :)
    have mine := each p
    rw [lines']
    by_cases hp : p ∈ s.waitQueue
    · rw [if_pos hp] at mine
      rw [if_pos ((hw p).mp hp)]
      exact mine.1
    · rw [if_neg hp] at mine
      rw [if_neg fun x => hp ((hw p).mpr x)]
      exact mine.1

/-- The reports of the force are those of the lines that are in a call before it. -/
theorem Parked.forceReports (h : Parked s t) (ps : List Port) : ps.flatMap (forceReports t) = ps.flatMap (forceReports s) := by
  refine List.flatMap_congr fun p _ => ?_
  unfold Machine.forceReports
  rw [h.lines]
  by_cases hq : (s.lines.at p).state = .queued
  · rw [if_pos hq, hq]
    rfl
  · rw [if_neg hq]

/-- The lines after the force. -/
theorem Parked.forced_lines (h : Parked s t) (p : Port) : (inTurn allPorts forceLine t).lines.at p
    = if (s.lines.at p).state.called = true then { Line.unequipped with state := .idle, faultPresent := (s.lines.at p).faultPresent }
      else if (s.lines.at p).state = .queued ∨ (s.lines.at p).state.holdsSlot = true then
        { Line.unequipped with state := .parked, faultPresent := (s.lines.at p).faultPresent }
      else s.lines.at p := by
  have all := h.forcing.all_lines (List.nodup_finRange 64) p
  rw [if_pos (List.mem_finRange p), h.lines] at all
  refine all.trans ?_
  by_cases hq : (s.lines.at p).state = .queued
  · rw [if_pos hq, hq]
    rfl
  · rw [if_neg hq]
    unfold forcedLine
    rw [forcedTo_eq]
    generalize (s.lines.at p).state = st at hq ⊢
    cases st with
    | queued => exact absurd rfl hq
    | _ => rfl

/-- The slots after the force. -/
theorem Parked.forced_unowned (h : Parked s t) {i : SlotId} (hc : (s.slots.at i).call? = none) :
    slotView (inTurn allPorts forceLine t) i = slotView s i := by
  have slot : t.slots.at i = s.slots.at i := slots_of_view (h.slots i)
  exact (h.forcing.all_unowned allPorts (by rw [slot]; exact hc)).trans (h.slots i)

theorem Parked.forced_owned (h : Parked s t) {i : SlotId} {c : Call} (hc : (s.slots.at i).call? = some c) :
    (slotView s i).Forced (slotView (inTurn allPorts forceLine t) i) := by
  have slot : t.slots.at i = s.slots.at i := slots_of_view (h.slots i)
  have forced := h.forcing.all_owned (i := i) (c := c) (by rw [slot]; exact hc)
  rw [h.slots] at forced
  exact forced

theorem call_of_isHeld {sl : Slot} (h : sl.isHeld = true) : ∃ c, sl.call? = some c := by
  cases sl with
  | held c b => exact ⟨c, rfl⟩
  | _ => exact nomatch h

/-- No slot is HELD after the force. -/
theorem Parked.forced_unheld (h : Parked s t) : anyHeld (inTurn allPorts forceLine t) = false := by
  rw [← Bool.not_eq_true, anyHeld_iff]
  rintro ⟨i, held⟩
  cases hc : (s.slots.at i).call? with
  | none =>
    have same : (inTurn allPorts forceLine t).slots.at i = s.slots.at i := slots_of_view (h.forced_unowned hc)
    rw [same] at held
    obtain ⟨c, call⟩ := call_of_isHeld held
    rw [hc] at call
    exact nomatch call
  | some c =>
    obtain ⟨rel, clear⟩ := h.forced_owned hc
    have slot : (slotView (inTurn allPorts forceLine t) i).slot.isHeld = true := held
    by_cases hr : (slotView s i).slot.isHeld = true ∨ (slotView s i).Unsent
    · rw [(rel hr).1] at slot
      unfold released at slot
      split at slot <;> exact nomatch slot
    · have unheld : (slotView s i).slot.isHeld = false := Bool.eq_false_of_not_eq_true fun x => hr (.inl x)
      rw [(clear unheld (fun x => hr (.inr x)) c hc).1] at slot
      exact nomatch slot

end

section
variable {s : State} {num : Byte}

/-- The reports of CONFIG_ENTER(FORCE). -/
def forcedReports (s : State) : List Report :=
  s.waitQueue.map (fun p => .callEvent p .parked (.because .config))
    ++ (allPorts.filter fun p => (s.lines.at p).state.holdsSlot).map (fun p =>
      .callEvent p (if (s.lines.at p).state.called then .idle else .parked) (.because .config))
    ++ [.modeEvent .config .request]

theorem forcedReports_length (s : State) : (forcedReports s).length
    = s.waitQueue.length + (allPorts.filter fun p => (s.lines.at p).state.holdsSlot).length + 1 := by
  unfold forcedReports
  rw [List.length_append, List.length_append, List.length_map, List.length_map, List.length_singleton]

/-- The force with its reports. -/
theorem enterForced_comes {v : State} (h : Comes v [] s v) (hm : s.mode ≠ .config) (hq : QueuesBounded s) (hc : CallsAgree s)
    (hb : s.bus = .free) (hg : ∀ g, (s.groups.at g).state ≠ .standbyPending) (hroom : Room (forcedReports s).length v) :
    Comes v (forcedReports s) (forcedOut v) (enterForced v) ∧ Parked s (parkQueued v) := by
  obtain ⟨-, -, -, -, -, -, once, waits, -⟩ := hq
  have count := forcedReports_length s
  have parks := h.parks hroom once (fun p _ => by rw [hb]; exact fun x => nomatch x) (by rw [List.length_nil]; omega)
  have parked := parkQueued_parked h.port hb hc hg once waits parks
  have mode : v.mode ≠ .config := by
    rw [show v.mode = s.mode from (congrArg State.mode h.port :)]
    exact hm
  have reports := (parked.forceReports allPorts).trans (forceReports_eq s allPorts)
  have forces := (parks.restate parks.port).forces parked.forcing hroom (List.nodup_finRange 64) (by
    rw [show List.finRange 64 = allPorts from rfl, reports, List.length_append, List.length_map, List.length_map, List.length_nil]
    omega)
  rw [show List.finRange 64 = allPorts from rfl, reports] at forces
  have told := (forces.map (fun x => setMode .config (emptyRing x)) fun _ _ => rfl).report (.modeEvent .config .request) hroom (by
    rw [List.length_append, List.length_append, List.length_map, List.length_map, List.length_nil]
    omega)
  rw [enterForced_eq mode]
  exact ⟨told, parked⟩

/-- The forced form outside CONFIG: what comes of it. -/
theorem Answers.enterForced {P : State → Prop} (ht : Takes num 0x02 [1] s) (hm : s.mode ≠ .config) (hq : QueuesBounded s) (hc : CallsAgree s)
    (hb : s.bus = .free) (hg : ∀ g, (s.groups.at g).state ≠ .standbyPending) (hroom : Room (forcedReports s).length s)
    (hP : ∀ y t v, Parked s v → v.apartFromCalls = s.apartFromCalls →
      t = ({ setMode .config (emptyRing (inTurn allPorts forceLine v)) with holdover := none } : State).withPort y →
      Made s t (forcedReports s) → Replied t num .done → P t) : Answers (.configEnterForce num [1]) s P := by
  obtain ⟨told, parked⟩ := enterForced_comes (Comes.taken num .done s) hm hq hc hb hg (taken_room num .done hroom)
  have running : Running (taken num .done s) := (power_of_port (taken_port num .done s)).trans ht.1
  have calls : (parkQueued (taken num .done s)).apartFromCalls = s.apartFromCalls :=
    (parkQueued_calls _).trans (calls_of_port (taken_port num .done s))
  have nobody : (inTurn allPorts forceLine (parkQueued (taken num .done s))).waitQueue = [] :=
    (parked.forcing.all_rest allPorts).2.2.1.trans parked.nobody
  have unheld := parked.forced_unheld
  have acts : act Machine.enterForced (taken num .done s) = { Machine.enterForced (taken num .done s) with holdover := none } := by
    rw [act_running running, serve_taken]
    unfold forcedOut at told
    generalize Machine.enterForced (taken num .done s) = v at told
    generalize inTurn allPorts forceLine (parkQueued (taken num .done s)) = u at told nobody unheld
    have held : anyHeld v = anyHeld u := (congrArg anyHeld told.port :)
    have mode : v.mode = .config := (congrArg State.mode told.port :)
    exact finish_stopped (told.waitQueue_eq.trans nobody) (congrArg State.ringQueue told.port :) (held.trans unheld)
      (by rw [mode]; decide)
  have ended := told.map (fun x => { x with holdover := none }) fun _ _ => rfl
  exact .answered (o := .done) rfl ht (fun _ => rfl) (fun _ => by simp) acts ended fun y made reply => hP y _ _ parked calls rfl made reply

end

/-- Settles O58: the orderly form by the lines that it parks, the forced one line by line and slot by slot. -/
theorem configEnterChangesTheMode : Obligations.ConfigEnterChangesTheMode := by
  refine ⟨fun num s ht hm hn hw he hroom => ?_, fun num s ht hm hq hc hb hg hroom => ?_⟩
  · refine .enterOrderly ht hm hn hw he hroom fun y t lines scan buffers eq each made reply => ?_
    subst eq
    exact ⟨reply, rfl, rfl, made, each, rfl⟩
  · refine .enterForced ht hm hq hc hb hg (by rw [forcedReports_length]; exact hroom) fun y t v parked calls eq made reply => ?_
    have lines := parked.forced_lines
    have unowned (i : SlotId) (hi : (s.slots.at i).call? = none) := parked.forced_unowned hi
    have owned (i : SlotId) (c : Call) (hi : (s.slots.at i).call? = some c) := parked.forced_owned hi
    have flight := (parked.forcing.all_inFlight allPorts).trans parked.flight
    obtain ⟨bus, groups, wait, -⟩ := parked.forcing.all_rest allPorts
    have rest := (inTurn_calls forceLine_calls allPorts v).trans calls
    have one : OneEntryEach s := hc.2.1.1
    generalize inTurn allPorts forceLine v = u at *
    subst eq
    refine ⟨reply, rfl, wait.trans parked.nobody, made, lines, fun i hi => slots_of_view (unowned i hi), fun i hi => ?_,
      fun i c hi unheld unsent => ?_, flight, rfl, bus.trans parked.forcing.bus, groups.trans parked.groups, fun k => Table.at_all _ _, rfl,
      fun p => Table.at_all _ _, rest⟩
    · have call : ∃ c, (s.slots.at i).call? = some c := hi.elim call_of_isHeld fun x => Option.isSome_iff_exists.mp x.1
      obtain ⟨c, call⟩ := call
      obtain ⟨slot, entries⟩ := (owned i c call).released (hi.imp_right fun x => (unsentSeize_iff one).mp x.2)
      exact ⟨slot, entriesOf_nil_iff.mp entries⟩
    · obtain ⟨slot, sends⟩ := (owned i c hi).clearing unheld (fun x => unsent ((unsentSeize_iff one).mpr x)) c hi
      refine ⟨slot, sends.imp_left fun ⟨e, he, clear⟩ => ?_⟩
      obtain ⟨mem, names⟩ := mem_entriesOf.mp he
      exact ⟨e, mem, names, clear⟩

end Sys2Proof.Machine
end
